-- ==== Sys2Proof/Word.lean ====
section
/-!
DEFINITION. The word types of the Shastal device (R11, R12): bytes, granules and 64-bit registers.
-/

namespace Sys2Proof

/-- One byte. -/
abbrev Byte := BitVec 8

/-- One 64-bit word: R12 calls 8 bytes a word, and every BAR0 register is one (R473). -/
abbrev Word := BitVec 64

end Sys2Proof
end

