-- ==== Sys2Proof/Syntax.lean ====
section
/-!
DEFINITION. The 168 commands (steps and events) of spec/opcode_table.json as one inductive type, with their operands.
The table gives the rows no operand fields; the operands are the model's (log entry 2).
-/

namespace Sys2Proof

/-- A function: the PF (fn = 0) or VF n of one port (R338, R339). -/
structure FuncId where
  port : Fin 4
  fn : Fin 64
  deriving DecidableEq, Repr

/-- The source of packets: a ring queue of a function, or the BMC channel of R341 and R466. -/
inductive Src where
  | ring (f : FuncId) (q : Nat)
  | bmc
  deriving DecidableEq, Repr

/-- Names one accepted command by the sequence number of its last accepted packet (R267, R290). -/
structure CmdRef where
  src : Src
  seq : Nat
  deriving DecidableEq, Repr

/-- What the DMA read of a packet returned (R262, R275, R253). -/
inductive RingRead where
  | bytes (bs : List Byte)
  /-- The read completed with Unsupported Request, Completer Abort or a poisoned TLP; `header` holds the header
  when it was already inside the device (R276). -/
  | failed (header : Option (List Byte))
  /-- The window check of R253 failed; `shadow` tells that the shadow area's check failed. -/
  | window (shadow : Bool)
  deriving DecidableEq, Repr

/-- The BARs of a function (R449). -/
inductive Bar where
  | bar0 | bar2 | bar4
  deriving DecidableEq, Repr

/-- A host write to a BAR (R449, R450). -/
structure MmioWrite where
  f : FuncId
  bar : Bar
  off : Nat
  size : Nat
  data : Word
  poisoned : Bool
  deriving DecidableEq, Repr

/-- The units of an engine, numbered as LOC of R375 numbers them. -/
inductive EUnit where
  | ma | arbour | ve | sfu | selection | pergola | wfu | scratchpad
  deriving DecidableEq, Repr

/-- The states of an ECC granule (R211). -/
inductive GState where
  | correctable | uncorrectable | poisoned
  deriving DecidableEq, Repr

/-- The four tag actions of R192, numbered as R301 numbers them. -/
inductive TagKind where
  | acqFull | acqEmpty | relFull | relEmpty
  deriving DecidableEq, Repr

/-- A tag action over a contiguous range of slots (R192, R301). -/
structure TagAct where
  kind : TagKind
  operand : Nat
  first : Nat
  count : Nat
  deriving DecidableEq, Repr

/-- One access to a scratchpad (R185, R203, R209). -/
inductive Access where
  | read (addr len : Nat)
  /-- The bytes one store writes (R505); `nt` marks a non-temporal store. -/
  | write (bytes : List (Nat × Byte)) (nt : Bool)
  deriving DecidableEq, Repr

/-- How an MA pass ends its accumulator bank (R88). -/
inductive PassEnd where
  /-- Drain through the Arbour: the 16-byte gate control block of R127 and the destination. -/
  | drain (gate : List Byte) (sfum : Bool)
  /-- Spill to scratchpad at a byte address, in the accumulator format. -/
  | spill (addr : Nat)
  deriving DecidableEq, Repr

/-- Where a pass takes B from (R92). -/
inductive PassB where
  /-- The scratchpad, by the 48 bytes of a descriptor. -/
  | spad (desc : List Byte)
  /-- The staging buffers that hold the weight of a handle, through the WFU expander. -/
  | staged (handle : Nat)
  deriving DecidableEq, Repr

/-- One pass of the MA (R87): the operand descriptors as their 48 bytes (R132), the tile ranges and the bank. -/
structure PassDesc where
  bank : Bool
  a : List Byte
  b : PassB
  c : List Byte
  /-- The bias of R89, when the first pass of an output element has one. -/
  bias : Option (List Byte)
  /-- The existing output is the addend (accumulate mode of R89). -/
  accumulate : Bool
  /-- The address from which a spilled bank is reloaded (R88). -/
  reload : Option Nat
  ovf : Bool
  zmode : Bool
  nt : Nat
  kfirst : Nat
  klast : Nat
  mfirst : Nat
  mcount : Nat
  fin : PassEnd
  /-- In TAGS mode, the slots of A, an addend or a scratchpad B that are to be full (Operand in Table 5 of R102). -/
  full : List (Nat × Nat)
  /-- The command that the pass computes for. -/
  cmd : CmdRef
  deriving DecidableEq, Repr

/-- An operation with tags (R192): its number in its unit, and the command whose epoch it belongs to. -/
structure OpRef where
  id : Nat
  cmd : CmdRef
  deriving DecidableEq, Repr

/-- A descriptor barrier (R207, R301): the units it names, and the command whose epoch it belongs to. -/
structure BarrierRef where
  units : BitVec 5
  cmd : CmdRef
  deriving DecidableEq, Repr

/-- The part of a command's epoch on one engine. -/
structure EpochRef where
  eng : Fin 6
  cmd : CmdRef
  deriving DecidableEq, Repr

/-- Where a check of an engine failed (R105): the DPU row and column, and the pass. -/
structure CheckSite where
  row : BitVec 8
  col : BitVec 8
  pass : Nat
  deriving DecidableEq, Repr

/-- The values that a check watches (Table 7 of R104). -/
inductive CheckedValue where
  | significand | exponent | treeAddition | groupSum | integerProduct | specialFlags | expansion | memory
  /-- A unit other than the MA. -/
  | unitResult
  deriving DecidableEq, Repr

/-- What a check of a unit finds (R104, R356 to R360). -/
inductive CheckKind where
  /-- A mismatch in an engine unit. -/
  | residue | duplication
  /-- A mismatch in the Mover's address logic, and a Mover block that failed four times. -/
  | moverDuplication | moverBlock
  /-- SECDED of an engine memory that no address names (descriptor cache, selection list, SFU SRAM, accumulator bank), or of
  a Gatehouse SRAM: the error was corrected, or was not (R357, R385). -/
  | engineWord (corrected : Bool) | gatehouseWord (corrected : Bool)
  /-- A second fault within one detection interval, outside the single-fault model (R356, R370). -/
  | secondFault
  /-- One of the two copies of a record in Lodge retention fails (R357, R384). -/
  | lodgeCopy (record : Nat) (second : Bool)
  deriving DecidableEq, Repr

/-- The clocks a monitor watches (R357, R360, R362, R370). -/
inductive ClockId where
  /-- An ECLK PLL; `restored` tells whether the PLL can be restored (R363). -/
  | eclk (e : Fin 6) (restored : Bool)
  | fclk
  | hbm (stack : Fin 4)
  | phy (port : Fin 4)
  | lclk
  deriving DecidableEq, Repr

/-- The supply rails (R493). -/
inductive RailId where
  | vaon | pcie | fab | core | hbm
  /-- VSRAM, which every engine uses; `restored` as for a clock. -/
  | sram (restored : Bool)
  /-- An engine's on-die branch of VCORE; `restored` as for a clock. -/
  | engine (e : Fin 6) (restored : Bool)
  deriving DecidableEq, Repr

/-- The device-sequenced rails with their power-good inputs (R491, R496). -/
inductive PgId where
  | pcie | fab | sram | core | hbm
  deriving DecidableEq, Repr

/-- An MCTP endpoint from which a message comes (R465). -/
inductive Endpoint where
  | smbus | i3c
  | pcie (port : Fin 4)
  deriving DecidableEq, Repr

/-- An SPDM transport: the DOE mailbox of a function, or MCTP (R430). -/
inductive Transport where
  | doe (f : FuncId)
  | mctp (ep : Endpoint)
  deriving DecidableEq, Repr

/-- The causes of a port reset (R457). -/
inductive PortResetKind where
  | perst | hotReset | linkDown
  deriving DecidableEq, Repr

/-- The configuration fields whose host writes change what the function serves (R445 to R456). -/
inductive CfgField where
  | memorySpace | busMaster | vfEnable | numVfs | relaxedOrdering | maxPayload | maxRead | timeoutRange
  | msixEnable | msixMask | aspmL1
  deriving DecidableEq, Repr

/-- A memory or other request that the device completes with Unsupported Request, or not (R446, R450, R451). -/
inductive UrReq where
  | read (f : FuncId) (bar off len : Nat)
  | write (f : FuncId) (bar off len : Nat)
  /-- A request that needs an unsupported feature of R446. -/
  | unsupported (port : Fin 4)
  deriving DecidableEq, Repr

/-- What a debugger does at INVASIVE level (R436, Table 7). -/
inductive DebugOp where
  | haltPair (p : Fin 4) | stepPair (p : Fin 4) | releasePair (p : Fin 4)
  | haltEngine (e : Fin 6) | stepEngine (e : Fin 6) | releaseEngine (e : Fin 6)
  | haltMover | stepMover | releaseMover
  | readSpad (e : Fin 6) (addr len : Nat)
  | writeSpad (e : Fin 6) (addr : Nat) (bytes : List Byte)
  /-- The image of a resident stream of a plot, as the Glasshouse holds it. -/
  | readImage (plot : Fin 6) (stream off len : Nat)
  | writeImage (plot : Fin 6) (stream off : Nat) (bytes : List Byte)
  /-- The bytes of a tensor of a plot, or of a plan's image, as HBM holds them. -/
  | readTensor (plot : Fin 6) (handle off len : Nat)
  | writeTensor (plot : Fin 6) (handle off : Nat) (bytes : List Byte)
  /-- The scalar registers, which the Gatehouse SRAMs hold. -/
  | readScalar (plot : Fin 6) (r : Fin 64)
  | writeScalar (plot : Fin 6) (r : Fin 64) (v : Word)
  deriving DecidableEq, Repr

/-- The boundary-scan instructions that drive pins (R442). -/
inductive ScanInstr where
  | extest | clamp | highz
  deriving DecidableEq, Repr

/-- Where a patrol sweep found an error, beside the array's own recorded states (R381 to R383): in an object of a plot, or in
a slot or page that no object holds. -/
structure Found where
  plot : Option (Fin 6)
  obj : Nat
  off : Nat
  st : GState
  deriving DecidableEq, Repr

/-- What PAGE_ZEROING_DONE finished: a page that goes to the device, or a page of a plot after a plot reset (R353). -/
inductive ZeroOwner where
  | device
  | plot (p : Fin 6)
  deriving DecidableEq, Repr

/-- How the fuses of a lifecycle operation read back (R425): the two of the new state, and the others that it burns (the ODK hash,
or IDOFF). -/
structure Burn where
  state : Bool × Bool
  others : Bool
  deriving DecidableEq, Repr

/-- A request that burns fuses: its bytes (a body or a token), and how the fuses will read back. -/
structure BurnMsg where
  bytes : List Byte
  burn : Burn
  deriving DecidableEq, Repr

/-- What the last step of bring-up finds (R425, R427, R460): engines whose slice failed, and whether a burn of MINSVN reads back. -/
structure ReadyInfo where
  failed : List (Fin 6)
  svnBurned : Bool
  deriving DecidableEq, Repr

/-- The commands of the device: one constructor for each row of spec/opcode_table.json. -/
inductive Instr where
  -- doorbells and register writes (files 12 and 21)
  | sqTailDoorbell (f : FuncId) (off size : Nat) (data : Word)
  | cqHeadDoorbell (f : FuncId) (off size : Nat) (data : Word)
  | qAdminEnable (f : FuncId) (v : Word)
  | qAdminDisable (f : FuncId) (v : Word)
  | adminDeletionDone (f : FuncId)
  | qAdminResume (f : FuncId) (v : Word)
  | errLogPop (f : FuncId) (v : Word)
  | errDevLogPop (f : FuncId) (v : Word)
  | ldgResetCold (f : FuncId) (v : Word)
  | pwrWake (f : FuncId) (v : Word)
  | p2enClear (f : FuncId) (v : Word)
  | pwrEclkTgtWrite (f : FuncId) (v : Word)
  | gkCtlWrite (f : FuncId) (v : Word)
  | newNonce (f : FuncId) (v : Word)
  | obsEnter (f : FuncId) (v : Word)
  | dbgClose (f : FuncId) (v : Word)
  | msixUnmask (f : FuncId) (vec : Nat)
  | registerWrite (w : MmioWrite)
  -- packets (file 12)
  | packetFetch (f : FuncId) (q : Nat) (rd : RingRead)
  | okDuplicate (f : FuncId) (q : Nat)
  | packetAccept (f : FuncId) (q : Nat)
  | irqCoalesceTimeout (f : FuncId) (q : Nat)
  -- opcodes (file 13)
  | nop (c : CmdRef)
  | fence (c : CmdRef)
  | abort (c : CmdRef)
  | query (c : CmdRef)
  | tensorPut (c : CmdRef)
  | tensorGet (c : CmdRef)
  | tensorFree (c : CmdRef)
  | tensorMove (c : CmdRef)
  | tableWrite (c : CmdRef)
  | descInvalidate (c : CmdRef)
  | planLoad (c : CmdRef)
  | planUnload (c : CmdRef)
  | planRun (c : CmdRef)
  | streamOpen (c : CmdRef)
  | streamFeed (c : CmdRef)
  | streamFlush (c : CmdRef)
  | streamPause (c : CmdRef)
  | streamResume (c : CmdRef)
  | streamClose (c : CmdRef)
  | streamExport (c : CmdRef)
  | streamImport (c : CmdRef)
  /-- The move of a stream's image ends; `blocksOk` tells that no Mover block failed four times (R217, R358). -/
  | moveCommit (plot : Fin 6) (stream : Nat) (blocksOk : Bool)
  | opMatmul (c : CmdRef)
  | opVector (c : CmdRef)
  | opScan (c : CmdRef)
  | opSelect (c : CmdRef)
  | opGather (c : CmdRef)
  | opConvert (c : CmdRef)
  | opRmsnorm (c : CmdRef)
  | scalarSet (c : CmdRef)
  | queueCreate (c : CmdRef)
  | queueDelete (c : CmdRef)
  | queueResume (c : CmdRef)
  | keySet (c : CmdRef)
  | plotConfig (c : CmdRef)
  | plotRelease (c : CmdRef)
  | pageZeroingDone (o : ZeroOwner)
  -- steps inside an engine (files 04 and 09)
  | wfuPrefetchIssue (e : Fin 6)
  | wfuEntryComplete (e : Fin 6) (entry : Nat)
  | maPass (e : Fin 6) (p : PassDesc)
  | tagAcquire (e : Fin 6) (unit : EUnit) (op : OpRef) (acts : List TagAct)
  | descriptorBarrier (e : Fin 6) (b : BarrierRef)
  | scratchpadAccess (e : Fin 6) (a : Access) (c : Option CmdRef) (upset : List (Nat × GState))
  | slotTimeout (p : EpochRef)
  | scrubAccess (e : Fin 6) (bank : Fin 40) (upset : List (Nat × GState))
  -- background work (file 17)
  | spPatrolSweep (e : Fin 6)
  | ghPatrolSweep (found : List Found)
  | hbmPatrolSweep (found : List Found) (behind : Bool)
  | lodgePatrolSweep
  | opportunisticSlice (e : Fin 6)
  | forcedSliceDue (e : Fin 6)
  | forcedSliceStart (e : Fin 6)
  | sliceComplete (e : Fin 6) (pass : Bool)
  | hbmCalibration (stack : Fin 4) (ch : Fin 16) (valid : Bool)
  | calibrationWindowTimeout (stack : Fin 4) (ch : Fin 16) (valid : Bool)
  | fullStateCompare (pair : Fin 4) (differs : Bool)
  | latentRestartTimeout
  -- faults (file 16)
  | datapathFault (e : Fin 6) (u : EUnit) (k : CheckKind) (p : CheckSite) (v : CheckedValue) (c : Option CmdRef)
  | routeLost (a b : BitVec 8)
  | ghLockstep (pair : Fin 4)
  | gatehouseRestartDone (failed : List (Fin 4))
  | clock (c : ClockId)
  | hbmRelockDone (stack : Fin 4) (ok : Bool)
  | rail (r : RailId)
  -- power (file 18)
  | engineGate (e : Fin 6)
  | engineWakeDone (e : Fin 6)
  | eclkRelockDone (e : Fin 6)
  | p2Entry
  | hbmReady
  | limitControlPeriod (power temp : Nat)
  | overcurrentAlarm
  | thermalHold (temp : Nat)
  | thermalRelease (temp : Nat)
  | thermalTrip (temp : Nat)
  -- resets and PCI Express (files 15, 18, 20, 23)
  | functionLevelReset (f : FuncId)
  | portReset (port : Fin 4) (k : PortResetKind)
  | vfRemoval (port : Fin 4) (numVfs : Nat) (enable : Bool)
  | d3hotEntry (f : FuncId) (bmeLost : Bool)
  | d0Return (f : FuncId)
  | aspmL1Request (port : Fin 4)
  | powerOnReset (lanes : BitVec 2) (smbadr : BitVec 3) (testN : Bool)
  | coldReset
  | configReady
  | ready (r : ReadyInfo)
  | powerGoodTimeout (r : PgId)
  | pwrDnN
  | telemetryRefresh
  -- management and security (files 19 and 20)
  | pcpChannel (ep : Endpoint) (packet : List Byte)
  | channelReset (ep : Endpoint) (newE : Nat)
  | mctpControl (ep : Endpoint) (code : BitVec 8)
  | provision (ep : Endpoint) (m : BurnMsg)
  | field (ep : Endpoint) (m : BurnMsg)
  | retire (ep : Endpoint) (m : BurnMsg)
  | authority (ep : Endpoint) (token : List Byte)
  | nonce (ep : Endpoint)
  | observe (ep : Endpoint) (token : List Byte)
  | invasive (ep : Endpoint) (token : List Byte)
  | close (ep : Endpoint)
  | dbgNonce
  /-- The fuses concern a RETIRE token alone. -/
  | dbgAuth (m : BurnMsg)
  | testLogicReset
  | nonceExpiry
  | tenantEraseDone
  | nvsReservationWrite (ok : Bool)
  | getVersion (t : Transport)
  | getCapabilities (t : Transport)
  | negotiateAlgorithms (t : Transport)
  | getDigests (t : Transport)
  | getCertificate (t : Transport) (slot off len : Nat)
  | challenge (t : Transport) (slot : Nat) (nonce : List Byte)
  | getMeasurements (t : Transport) (index : Nat) (nonce : List Byte)
  | keyExchange (t : Transport) (reqId : BitVec 16) (heartbeat : Nat)
  /-- FINISH of a session; `ok` tells that the requester's HMAC verifies, and the negotiated secrets are the
  session's request key and IV. -/
  | finish (t : Transport) (id : Nat) (ok : Bool) (key iv : List Byte)
  | heartbeat (t : Transport) (id : Nat)
  | heartbeatTimeout (t : Transport) (id : Nat)
  | keyUpdate (t : Transport) (id : Nat) (key iv : List Byte)
  | endSession (t : Transport) (id : Nat)
  | spdmUnsupportedRequest (t : Transport) (code : BitVec 8)
  | pldmSensorRead (ep : Endpoint) (id : Nat)
  | pldmEffecterWrite (ep : Endpoint) (id value : Nat)
  | pldmP2enEffecter (ep : Endpoint) (value : Bool)
  | pldmColdResetEffecter (ep : Endpoint) (value : Nat)
  | setEventReceiver (ep : Endpoint) (eid : BitVec 8)
  | pldmDiscovery (ep : Endpoint) (code : BitVec 8)
  | requestUpdate (ep : Endpoint)
  | updateComponent (ep : Endpoint) (image : List Byte)
  | verifyComplete (ep : Endpoint)
  -- events added at the end of the table
  | fclkRelockDone
  | fclkStart
  | hbmTrainingDone (stack : Fin 4) (ok : Bool)
  | powerGood (r : PgId) (asserted : Bool)
  | linkUp (port : Fin 4)
  | flrComplete (f : FuncId)
  | completionTimeout (f : FuncId) (q : Nat) (header : Option (List Byte))
  | unsupportedRequest (r : UrReq)
  | configurationWrite (f : FuncId) (fld : CfgField) (value : Nat)
  | linkReturnsToL0 (port : Fin 4)
  | mainSupplyRemoval
  | supplyReturn
  | pwrDnNDeassert
  | overcurrentAlarmClear
  | sensorThresholdCrossing (sensor : Nat) (value : Nat)
  | lodgeLogicMismatch
  | debugAccess (op : DebugOp)
  | extest (i : ScanInstr)
  | unknownVendorSubtype (sub : BitVec 8)
  deriving DecidableEq, Repr

end Sys2Proof
end

