-- ==== Sys2Proof/Decode.lean ====
section
/-!
DEFINITION. The table of this hardware gives its rows no bits: the commands are events of a block, and no word spells one.
-/

namespace Sys2Proof

/-- The command that a word of the table's bits spells: none, for spec/opcode_table.json gives no row a field. -/
def decodeTableWord (_nbits _w : Nat) : Option Instr := none

end Sys2Proof
end

