-- ==== Sys2Proof/Config.lean ====
section
/-!
DEFINITION. What the manual leaves open: constants and functions with no body. Nothing can be proved of their values.
-/

namespace Sys2Proof.Config

/-- The rank of a tied entry among the values of its row: the choice that R175 leaves unspecified. -/
opaque tieRank : List Nat → Nat → Nat

/-- Random bytes, one value for each index: nonces (R439) and the random fields of SPDM responses (R430). -/
opaque freeByte : Nat → BitVec 8

/-- Bytes 7:4 of QUERY DEVICE and FWVER: the number of the running firmware (R291, R476), by booted image. -/
opaque fwVersion : List Byte → Nat

/-- The boot ROM's digest, measurement 1 (R428). -/
opaque bootRomDigest : List Byte

/-- Bytes of an SPDM, PLDM or MCTP message whose encoding the manual leaves to the standard (R430, R465, R468), by the
code of the message and an index. -/
opaque stdBytes : Nat → Nat → List Byte

/-- The form of a TRANSIENT weight whose handle names no tensor: ATTR, FMT, GSHIFT and ITABLE. A plan image carries
none of them (R231, R250, R300). -/
opaque transientForm : Nat → List Nat

/-- An operation had begun computation when a Gatehouse restart, a fault or a reset met it (R310, R366), by its
acceptance number. -/
opaque hadBegun : Nat → Bool

/-- A command that might have begun was in computation when a TABLE_WRITE published (R235), by the acceptance numbers of the
command and of the write. -/
opaque inComputation : Nat → Nat → Bool

/-- Which version an engine of a straddling epoch fetched (R235), by the command's acceptance number, the engine and the epoch. -/
opaque fetchedVersion : Nat → Nat → Nat → Nat

/-- A command, by its acceptance number, used an engine when a clock or rail of it failed (R360). -/
opaque onEngine : Nat → Nat → Bool

/-- The Gatehouse pair that an accepted command is assigned to (R393), by its acceptance number (log entry 101). -/
opaque pairOf : Nat → Nat

/-- The segments, less one, that cover the state of a pair in a full-state compare (R393; log entry 101). -/
opaque compareSegments : Nat

/-- A duration or a stall count that only timing decides (R102, R472), one value for each index. -/
opaque freeCount : Nat → Nat

/-- The digest of the authority record, whose encoding the manual does not give (measurement 5 of R428), by its content. -/
opaque authorityDigest : Nat → List Byte

/-- Bits of configuration space that the manual leaves to the base specification (R445, R448), by function and offset. -/
opaque cfgBits : Nat → Nat → Nat

/-- TYPE of the record of a fuse burn that does not read back (R425): Table 6 of R376 gives none. -/
opaque burnEvent : Nat

/-- A number that the device chooses: the responder half of a session ID (R430), by index. -/
opaque freeId : Nat → Nat

end Sys2Proof.Config
end

