-- ==== Sys2Proof/Machine/Map.lean ====
section
/-!
DEFINITION. Finite maps keyed by Nat and sparse byte memories, as sorted lists in one canonical form.
-/

namespace Sys2Proof.Machine

/-- A finite map: keys strictly rising. -/
abbrev Map (α : Type) := List (Nat × α)

/-- The entry at a key. -/
def mget {α : Type} : Map α → Nat → Option α
  | [], _ => none
  | (k, v) :: m, a => if a = k then some v else if a < k then none else mget m a

/-- The map with the entry at a key set. -/
def mput {α : Type} : Map α → Nat → α → Map α
  | [], a, x => [(a, x)]
  | (k, v) :: m, a, x =>
    if a < k then (a, x) :: (k, v) :: m
    else if a = k then (a, x) :: m
    else (k, v) :: mput m a x

/-- The map without the entry at a key. -/
def mdel {α : Type} : Map α → Nat → Map α
  | [], _ => []
  | (k, v) :: m, a => if a = k then m else if a < k then (k, v) :: m else (k, v) :: mdel m a

/-- The map with the entry at a key changed, when there is one. -/
def mmod {α : Type} (m : Map α) (a : Nat) (g : α → α) : Map α :=
  match mget m a with
  | some x => mput m a (g x)
  | none => m

/-- Keys strictly rising. -/
def mwf {α : Type} : Map α → Bool
  | [] => true
  | [_] => true
  | (a, _) :: (b, y) :: m => decide (a < b) && mwf ((b, y) :: m)

/-- A sparse byte memory (R183): addresses strictly rising, and no entry equal to what an unlisted address reads as. -/
abbrev Memory := List Host.Cell

/-- What a byte that nothing has written reads as: bring-up writes every granule with zero bytes (R201, R460). -/
def memDefault : Byte := 0

/-- The byte at an address. -/
def Memory.read (m : Memory) (a : Nat) : Byte := (mget m a).getD memDefault

/-- The memory with one byte written. -/
def Memory.write (m : Memory) (a : Nat) (b : Byte) : Memory :=
  if b = memDefault then mdel m a else mput m a b

/-- The canonical form: addresses strictly rising and no listed byte equal to the default. -/
def Memory.wf (m : Memory) : Bool := mwf m && m.all (fun c => decide (c.2 ≠ memDefault))

/-- `n` bytes from an address, in ascending order. -/
def Memory.readBytes (m : Memory) (a n : Nat) : List Byte := (List.range n).map fun i => m.read (a + i)

/-- Bytes written from an address, in ascending order. -/
def Memory.writeBytes : Memory → Nat → List Byte → Memory
  | m, _, [] => m
  | m, a, b :: bs => Memory.writeBytes (m.write a b) (a + 1) bs

/-- The bytes of one store (R505), each at its own address. -/
def Memory.writeList : Memory → List (Nat × Byte) → Memory
  | m, [] => m
  | m, (a, b) :: bs => Memory.writeList (m.write a b) bs

/-- Free values from index `ix` on at `n` addresses: bytes that the manual leaves undefined. -/
def freeCells (a n ix : Nat) : List Host.Cell :=
  (List.range n).filterMap fun i =>
    if Config.freeByte (ix + i) = memDefault then none else some (a + i, Config.freeByte (ix + i))

/-- The memory with `n` bytes from an address taking free values. -/
def Memory.fillFree (m : Memory) (a n ix : Nat) : Memory :=
  (m.filter fun c => decide (c.1 < a)) ++ freeCells a n ix ++ m.filter fun c => decide (a + n ≤ c.1)

end Sys2Proof.Machine
end

