-- ==== Sys2Proof/Machine/Bytes.lean ====
section
/-!
DEFINITION. Little-endian fields (R11), bit fields, padding, and packed sub-byte elements (R45).
-/

namespace Sys2Proof.Machine

/-- The value of bytes, least significant byte first (R11). -/
def leNat : List Byte → Nat
  | [] => 0
  | b :: bs => b.toNat + 256 * leNat bs

/-- `n` bytes of a value, least significant byte first (R11). -/
def toLe : Nat → Nat → List Byte
  | 0, _ => []
  | n + 1, v => BitVec.ofNat 8 v :: toLe n (v / 256)

/-- `n` bytes of a structure from an offset; bytes beyond its end read 0. -/
def slice (bs : List Byte) (off n : Nat) : List Byte :=
  let t := (bs.drop off).take n
  t ++ List.replicate (n - t.length) 0

/-- The little-endian field of `n` bytes at an offset. -/
def fieldAt (bs : List Byte) (off n : Nat) : Nat := leNat ((bs.drop off).take n)

/-- The byte at an offset, as a number. -/
def byteAt (bs : List Byte) (off : Nat) : Nat := ((bs.drop off).head?.getD 0).toNat

/-- Bits hi:lo of a value (R10). -/
def bitsOf (v hi lo : Nat) : Nat := (v / 2 ^ lo) % 2 ^ (hi + 1 - lo)

/-- One bit of a value. -/
def bitOf (v i : Nat) : Bool := (v / 2 ^ i) % 2 == 1

/-- ceil(a / b). -/
def ceilDiv (a b : Nat) : Nat := a / b + if b = 0 ∨ a % b = 0 then 0 else 1

/-- The next multiple of `k`. -/
def roundUp (a k : Nat) : Nat := k * ceilDiv a k

/-- Two ranges of numbers, each a first and a count, meet. -/
def rangesMeet (a n b m : Nat) : Bool := decide (0 < n) && decide (0 < m) && decide (a < b + m) && decide (b < a + n)

/-- Bytes padded with zeros to a multiple of `k`. -/
def padTo (k : Nat) (bs : List Byte) : List Byte := bs ++ List.replicate (roundUp bs.length k - bs.length) 0

/-- Every byte is zero. -/
def allZero (bs : List Byte) : Bool := bs.all (· == 0)

/-- The offset of the first nonzero byte at or after `i`. -/
def firstNonzero : List Byte → Nat → Option Nat
  | [], _ => none
  | b :: bs, i => if b == 0 then firstNonzero bs (i + 1) else some i

/-- Bytes with a range overwritten. -/
def overwrite (bs : List Byte) (off : Nat) (new : List Byte) : List Byte :=
  bs.take off ++ new ++ bs.drop (off + new.length)

/-- Two's complement value of a `w`-bit code. -/
def signed (w v : Nat) : Int := if v % 2 ^ w < 2 ^ (w - 1) then ((v % 2 ^ w : Nat) : Int) else ((v % 2 ^ w : Nat) : Int) - ((2 ^ w : Nat) : Int)

/-- The `w`-bit code of an integer, two's complement. -/
def unsignedCode (w : Nat) (i : Int) : Nat := (i % ((2 ^ w : Nat) : Int)).toNat

/-- The ASCII-free zero padding of a fixed count of bytes. -/
def zeros (n : Nat) : List Byte := List.replicate n 0

/-- Lists in pieces of `k` elements, by a bound on the number of pieces. -/
def chunks {α : Type} (k : Nat) : Nat → List α → List (List α)
  | 0, _ => []
  | n + 1, l => if l.isEmpty then [] else l.take k :: chunks k n (l.drop k)

end Sys2Proof.Machine
end

