-- ==== Sys2Proof/Machine/Format.lean ====
section
/-!
DEFINITION. The fifteen formats, the reading rule, the rounding function and Microscaling blocks
(R40 to R62, file 02).
-/

namespace Sys2Proof.Machine

/-- The format codes of R40. -/
inductive Fmt where
  | fp32 | fp16 | bf16 | e4m3 | e5m2 | e3m2 | e2m3 | e2m1 | e8m0 | int32 | int8 | uint8 | int4 | uint4 | idx4
  deriving DecidableEq, Repr

/-- Table 1 of file 02; 0xF is reserved. -/
def Fmt.ofCode : Nat → Option Fmt
  | 0 => some .fp32 | 1 => some .fp16 | 2 => some .bf16 | 3 => some .e4m3 | 4 => some .e5m2 | 5 => some .e3m2
  | 6 => some .e2m3 | 7 => some .e2m1 | 8 => some .e8m0 | 9 => some .int32 | 10 => some .int8 | 11 => some .uint8
  | 12 => some .int4 | 13 => some .uint4 | 14 => some .idx4 | _ => none

def Fmt.code : Fmt → Nat
  | .fp32 => 0 | .fp16 => 1 | .bf16 => 2 | .e4m3 => 3 | .e5m2 => 4 | .e3m2 => 5 | .e2m3 => 6 | .e2m1 => 7
  | .e8m0 => 8 | .int32 => 9 | .int8 => 10 | .uint8 => 11 | .int4 => 12 | .uint4 => 13 | .idx4 => 14

/-- Width in bits (R40). -/
def Fmt.width : Fmt → Nat
  | .fp32 => 32 | .fp16 => 16 | .bf16 => 16 | .e4m3 => 8 | .e5m2 => 8 | .e3m2 => 6 | .e2m3 => 6 | .e2m1 => 4
  | .e8m0 => 8 | .int32 => 32 | .int8 => 8 | .uint8 => 8 | .int4 => 4 | .uint4 => 4 | .idx4 => 4

def Fmt.isInt : Fmt → Bool
  | .int32 | .int8 | .uint8 | .int4 | .uint4 => true
  | _ => false

/-- Formats that may carry Microscaling scales: 0x3 to 0x7 (R46). -/
def Fmt.mxOk : Fmt → Bool
  | .e4m3 | .e5m2 | .e3m2 | .e2m3 | .e2m1 => true
  | _ => false

/-- FP6 and FP4 exist only as Microscaling tensors (R46). -/
def Fmt.mxOnly : Fmt → Bool
  | .e3m2 | .e2m3 | .e2m1 => true
  | _ => false

/-- OVF and ZMODE (R50) and the rounding direction (R57). -/
structure Modes where
  sat : Bool
  canon : Bool
  rtz : Bool
  deriving DecidableEq, Repr

/-- The three exception flags (R51). -/
structure Flags where
  invalid : Bool
  overflow : Bool
  underflow : Bool
  deriving DecidableEq, Repr

def Flags.zero : Flags := ⟨false, false, false⟩
def Flags.union (a b : Flags) : Flags := ⟨a.invalid || b.invalid, a.overflow || b.overflow, a.underflow || b.underflow⟩

/-- Arithmetic raises flags and returns a value; a raised flag stays raised (R51). -/
abbrev Num := StateM Flags

def raiseInvalid : Num Unit := fun f => ((), { f with invalid := true })
def raiseOverflow : Num Unit := fun f => ((), { f with overflow := true })
def raiseUnderflow : Num Unit := fun f => ((), { f with underflow := true })

/-- The evaluation of a sub-expression whose flags are dropped (inner roundings of R158). -/
def quiet {α : Type} (x : Num α) : Num α := fun f => ((x f).1, f)

/-- Exact values: NaN, infinities, and dyadic numbers (-1)^neg · m · 2^e, with a signed zero when m = 0. -/
inductive Val where
  | nan
  | inf (neg : Bool)
  | fin (neg : Bool) (m : Nat) (e : Int)
  deriving DecidableEq, Repr

def Val.isZero : Val → Bool
  | .fin _ 0 _ => true
  | _ => false

def Val.isNaN : Val → Bool
  | .nan => true
  | _ => false

def Val.isInf : Val → Bool
  | .inf _ => true
  | _ => false

def Val.sign : Val → Bool
  | .nan => false
  | .inf s => s
  | .fin s _ _ => s

def Val.neg : Val → Val
  | .nan => .nan
  | .inf s => .inf (!s)
  | .fin s m e => .fin (!s) m e

def Val.abs : Val → Val
  | .nan => .nan
  | .inf _ => .inf false
  | .fin _ m e => .fin false m e

/-- The exact value of an integer. An integer zero has no sign; it stands as +0. -/
def Val.ofInt (i : Int) : Val := .fin (decide (i < 0)) i.natAbs 0

/-- The exact value times 2^k; NaN and infinities keep their nature and k has no effect on a zero (R47, R146). -/
def Val.scale (v : Val) (k : Int) : Val :=
  match v with
  | .fin s 0 _ => .fin s 0 0
  | .fin s m e => .fin s m (e + k)
  | v => v

/-- m · 2^(e - b), for b at most e. -/
def shiftUp (m : Nat) (e b : Int) : Nat := m * 2 ^ (e - b).toNat

/-- floor(log2(num / den)), for num and den positive. -/
def floorLog2 (num den : Nat) : Int :=
  let k : Int := (num.log2 : Int) - (den.log2 : Int)
  let big := if 0 ≤ k then decide (den * 2 ^ k.toNat ≤ num) else decide (den ≤ num * 2 ^ (-k).toNat)
  if big then k else k - 1

/-- Comparison of a · 2^x with b · 2^y. -/
def cmpPow (a : Nat) (x : Int) (b : Nat) (y : Int) : Ordering :=
  let lo := min x y
  compare (shiftUp a x lo) (shiftUp b y lo)

/-- Comparison of two values that are not NaN; -0 equals +0 (R53). -/
def Val.cmp : Val → Val → Ordering
  | .nan, _ => .eq
  | _, .nan => .eq
  | .inf s, .inf t => if s == t then .eq else if s then .lt else .gt
  | .inf s, .fin _ _ _ => if s then .lt else .gt
  | .fin _ _ _, .inf t => if t then .gt else .lt
  | .fin s m e, .fin t n d =>
    if m = 0 ∧ n = 0 then .eq
    else if m = 0 then (if t then .gt else .lt)
    else if n = 0 then (if s then .lt else .gt)
    else if s != t then (if s then .lt else .gt)
    else if s then cmpPow n d m e else cmpPow m e n d

/-- The layouts of Table 2 of R42: p counts the significand bits; maxM · 2^maxE is the largest finite value. -/
structure FloatSpec where
  p : Nat
  expBits : Nat
  bias : Int
  maxM : Nat
  maxE : Int
  hasInf : Bool
  canonNaN : Nat
  deriving DecidableEq, Repr

def FloatSpec.emin (f : FloatSpec) : Int := 1 - f.bias
def FloatSpec.fracBits (f : FloatSpec) : Nat := f.p - 1

def specFp32 : FloatSpec := ⟨24, 8, 127, 2 ^ 24 - 1, 104, true, 0x7FC00000⟩
def specFp16 : FloatSpec := ⟨11, 5, 15, 2 ^ 11 - 1, 5, true, 0x7E00⟩
def specBf16 : FloatSpec := ⟨8, 8, 127, 2 ^ 8 - 1, 120, true, 0x7FC0⟩
def specE4m3 : FloatSpec := ⟨4, 4, 7, 14, 5, false, 0x7F⟩
def specE5m2 : FloatSpec := ⟨3, 5, 15, 7, 13, true, 0x7E⟩

def Fmt.float : Fmt → Option FloatSpec
  | .fp32 => some specFp32 | .fp16 => some specFp16 | .bf16 => some specBf16
  | .e4m3 => some specE4m3 | .e5m2 => some specE5m2 | _ => none

/-- The element layouts of Table 3 of R43: p significand bits, and the exponent of the lowest code's unit. -/
structure ElemSpec where
  p : Nat
  expBits : Nat
  unitE : Int
  deriving DecidableEq, Repr

def Fmt.elem : Fmt → Option ElemSpec
  | .e3m2 => some ⟨3, 3, -4⟩ | .e2m3 => some ⟨4, 2, -3⟩ | .e2m1 => some ⟨2, 2, -1⟩ | _ => none

/-- The value of a code of a float format under the reading rule R49 (subnormals read as signed zero, SAT reads
infinities as the largest finite value). -/
def readFloat (f : FloatSpec) (sat : Bool) (code : Nat) : Val :=
  let fb := f.fracBits
  let s := bitOf code (fb + f.expBits)
  let e := bitsOf code (fb + f.expBits - 1) fb
  let fr := code % 2 ^ fb
  let top := 2 ^ f.expBits - 1
  if e = 0 then .fin s 0 0
  else if f.hasInf && e == top then
    if fr = 0 then (if sat then .fin s f.maxM f.maxE else .inf s) else .nan
  else if !f.hasInf && e == top && fr == 2 ^ fb - 1 then .nan
  else .fin s (2 ^ fb + fr) ((e : Int) - f.bias - fb)

/-- The value of an FP6 or FP4 element code (R43). -/
def readElem (f : ElemSpec) (code : Nat) : Val :=
  let mb := f.p - 1
  let s := bitOf code (mb + f.expBits)
  let e := bitsOf code (mb + f.expBits - 1) mb
  let m := code % 2 ^ mb
  if e = 0 then .fin s m f.unitE else .fin s (2 ^ mb + m) (f.unitE + e - 1)

/-- The integer value of a code (R44). -/
def readInt (f : Fmt) (code : Nat) : Int :=
  match f with
  | .int32 => signed 32 code | .int8 => signed 8 code | .int4 => signed 4 code
  | .uint8 => ((code % 256 : Nat) : Int) | .uint4 => ((code % 16 : Nat) : Int)
  | _ => 0

/-- A value read from an operand: a float value, or an integer (R49, R44). -/
inductive Sv where
  | flt (v : Val)
  | int (i : Int)
  deriving DecidableEq, Repr

def Sv.isInt : Sv → Bool
  | .int _ => true
  | .flt _ => false

def Sv.val : Sv → Val
  | .flt v => v
  | .int i => Val.ofInt i

/-- The value of a plain code of any format but E8M0 and IDX4. -/
def readCode (f : Fmt) (sat : Bool) (code : Nat) : Sv :=
  if f.isInt then .int (readInt f code)
  else match f.float with
    | some s => .flt (readFloat s sat code)
    | none => match f.elem with
      | some s => .flt (readElem s code)
      | none => .flt .nan

/-- The value of an element of a Microscaling block with scale code `sc` (R47). -/
def readMx (f : Fmt) (sat : Bool) (sc code : Nat) : Val :=
  if sc = 0xFF then .nan
  else (readCode f sat code).val.scale ((sc : Int) - 127)

/-- zero(sgn) of R52. -/
def roundZero (md : Modes) (s : Bool) : Val := if md.canon then .fin false 0 0 else .fin s 0 0

/-- An integer quotient n / d rounded: to nearest, ties to even, or toward zero. -/
def roundDiv (rtz : Bool) (n d : Nat) : Nat :=
  let q := n / d
  let r := n % d
  if rtz then q
  else if d < 2 * r then q + 1
  else if 2 * r = d ∧ q % 2 = 1 then q + 1
  else q

/-- round(F, (-1)^s · num/den · 2^e) of R52 for num and den positive. -/
def roundPos (f : FloatSpec) (md : Modes) (s : Bool) (num den : Nat) (e : Int) : Num Val :=
  let ex := floorLog2 num den + e
  let u := ex - f.p + 1
  let sh := e - u
  let n := if 0 ≤ sh then roundDiv md.rtz (num * 2 ^ sh.toNat) den
           else roundDiv md.rtz num (den * 2 ^ (-sh).toNat)
  match cmpPow n u f.maxM f.maxE with
  | .gt => do
    raiseOverflow
    if md.rtz || md.sat then return .fin s f.maxM f.maxE
    else if f.hasInf then return .inf s
    else return .nan
  | _ =>
    if (n.log2 : Int) + u < f.emin then do
      raiseUnderflow
      return roundZero md s
    else return .fin s n u

/-- round(F, x) of R52. -/
def roundTo (f : FloatSpec) (md : Modes) (x : Val) : Num Val :=
  match x with
  | .nan => return .nan
  | .inf s =>
    if md.sat then return .fin s f.maxM f.maxE
    else if f.hasInf then return .inf s
    else do
      raiseOverflow
      return .nan
  | .fin s 0 _ => return roundZero md s
  | .fin s m e => roundPos f md s m 1 e

/-- The code of a value that the format holds exactly; every NaN is the canonical NaN (R54). -/
def encodeFloat (f : FloatSpec) (v : Val) : Nat :=
  let fb := f.fracBits
  let sgn (s : Bool) : Nat := if s then 2 ^ (fb + f.expBits) else 0
  match v with
  | .nan => f.canonNaN
  | .inf s => sgn s + (2 ^ f.expBits - 1) * 2 ^ fb
  | .fin s 0 _ => sgn s
  | .fin s m e =>
    let k := m.log2
    let sig := if k ≤ fb then m * 2 ^ (fb - k) else m / 2 ^ (k - fb)
    sgn s + ((e + k + f.bias).toNat) * 2 ^ fb + (sig - 2 ^ fb)

/-- R56: a float value converted to an integer range. -/
def toInt (rtz : Bool) (lo hi : Int) (v : Val) : Num Int :=
  match v with
  | .nan => do
    raiseInvalid
    return 0
  | .inf s => do
    raiseInvalid
    return if s then lo else hi
  | .fin s m e =>
    let mag : Nat := if 0 ≤ e then m * 2 ^ e.toNat else roundDiv rtz m (2 ^ (-e).toNat)
    let n : Int := if s then -(mag : Int) else (mag : Int)
    if hi < n then do
      raiseOverflow
      return hi
    else if n < lo then do
      raiseOverflow
      return lo
    else return n

/-- The range of an integer format (R44). -/
def Fmt.intRange : Fmt → Int × Int
  | .int32 => (-2 ^ 31, 2 ^ 31 - 1) | .int8 => (-128, 127) | .uint8 => (0, 255)
  | .int4 => (-8, 7) | .uint4 => (0, 15) | _ => (0, 0)

/-- One conversion of an exact value to a plain (not Microscaling) format, as a code (R55, R56, R75). An integer
that meets a float format has no sign of zero. -/
def convertCode (f : Fmt) (md : Modes) (x : Sv) : Num Nat :=
  if f.isInt then do
    let r := f.intRange
    let n ← toInt md.rtz r.1 r.2 x.val
    return unsignedCode f.width n
  else match f.float with
    | some s =>
      match x with
      | .int 0 => return 0
      | _ => do
        let v ← roundTo s md x.val
        return encodeFloat s v
    | none => return 0

/-- EMAXE of R58. -/
def Fmt.emaxE : Fmt → Int
  | .e4m3 => 8 | .e5m2 => 15 | .e3m2 => 4 | .e2m3 => 2 | .e2m1 => 2 | _ => 0

/-- The magnitude code of an FP6 or FP4 element nearest to m · 2^e, saturating (R59). -/
def elemCode (f : ElemSpec) (m : Nat) (e : Int) : Nat :=
  if m = 0 then 0
  else
    let u := max ((m.log2 : Int) + e - f.p + 1) f.unitE
    let n := if u ≤ e then m * 2 ^ (e - u).toNat else roundDiv false m (2 ^ (u - e).toNat)
    let mb := f.p - 1
    if n = 0 then 0
    else if n < 2 ^ mb then n
    else
      let k := n.log2
      let ef := ((k : Int) - mb + (u - f.unitE) + 1).toNat
      let fr := if k ≤ mb then n * 2 ^ (mb - k) - 2 ^ mb else n / 2 ^ (k - mb) - 2 ^ mb
      let c := ef * 2 ^ mb + fr
      min c (2 ^ (mb + f.expBits) - 1)

/-- Element rounding of R59: the code of v in a Microscaling element format. -/
def mxElem (f : Fmt) (md : Modes) (v : Val) : Nat :=
  match v with
  | .fin s m e =>
    match f.elem with
    | some sp =>
      let c := elemCode sp m e
      if s && !(c == 0 && md.canon) then c + 2 ^ (f.width - 1) else c
    | none => match f.float with
      | some sp =>
        let r := (roundTo sp { md with sat := true, rtz := false } v Flags.zero).1
        encodeFloat sp r
      | none => 0
  | _ => 0

/-- The largest magnitude of finite inputs, as a dyadic pair. -/
def maxMag : List Val → Nat × Int
  | [] => (0, 0)
  | .fin _ m e :: vs =>
    let r := maxMag vs
    if m = 0 then r else if r.1 = 0 then (m, e) else match cmpPow m e r.1 r.2 with
      | .lt => r
      | _ => (m, e)
  | _ :: vs => maxMag vs

/-- An encoded Microscaling block: scale code, element codes, and the inputs counted by MXU_LOST. -/
structure MxBlock where
  scale : Nat
  codes : List Nat
  lost : Nat
  deriving DecidableEq, Repr

/-- A value is finite and nonzero. -/
def Val.finNonzero : Val → Bool
  | .fin _ m _ => m != 0
  | _ => false

/-- R58 to R60: one block of a Microscaling output. -/
def mxEncode (f : Fmt) (md : Modes) (vs : List Val) : Num MxBlock :=
  if vs.any Val.isNaN || (!md.sat && vs.any Val.isInf) then do
    if vs.any Val.isInf then raiseInvalid
    return ⟨0xFF, vs.map (fun _ => 0), 0⟩
  else
    let am := maxMag vs
    if am.1 = 0 then return ⟨0, vs.map (fun _ => 0), 0⟩
    else
      let k := (am.1.log2 : Int) + am.2 - f.emaxE
      let sc := (max 0 (min 254 (k + 127))).toNat
      let enc := vs.map fun v => (v, mxElem f md (v.scale (127 - (sc : Int))))
      let isZ (c : Nat) : Bool := c % 2 ^ (f.width - 1) == 0
      return ⟨sc, enc.map (·.2), (enc.filter fun p => p.1.finNonzero && isZ p.2).length⟩

/-- R62: one element of a grouped weight expanded to BF16. -/
def expandGrouped (md : Modes) (q z : Int) (s : Val) : Num Val :=
  match s with
  | .nan => return .nan
  | .inf ss =>
    if q = z then do
      raiseInvalid
      return .nan
    else return .inf (ss != decide (q - z < 0))
  | .fin ss m e =>
    if q = z then return .fin false 0 0
    else roundTo specBf16 { md with rtz := false } (.fin (ss != decide (q - z < 0)) (m * (q - z).natAbs) e)

/-- Element i of a packed array of `w`-bit elements that starts at byte offset 0 (R45). -/
def packedGet (bs : List Byte) (w i : Nat) : Nat :=
  if w = 4 then (byteAt bs (i / 2) / 16 ^ (i % 2)) % 16
  else if w = 6 then bitsOf (fieldAt bs (3 * (i / 4)) 3) (6 * (i % 4) + 5) (6 * (i % 4))
  else fieldAt bs (i * (w / 8)) (w / 8)

/-- The value of packed codes, least significant first. -/
def packNat (w : Nat) : List Nat → Nat
  | [] => 0
  | c :: cs => c % 2 ^ w + 2 ^ w * packNat w cs

/-- The bytes of `n` packed elements (R45): whole bytes, or whole 3-byte groups for 6-bit elements. -/
def packedBytes (w n : Nat) : Nat := if w = 6 then 3 * ceilDiv n 4 else ceilDiv (n * w) 8

/-- Codes packed under R45. -/
def packCodes (w : Nat) (cs : List Nat) : List Byte := toLe (packedBytes w cs.length) (packNat w cs)

end Sys2Proof.Machine
end

