-- ==== Sys2Proof/Machine/Arith.lean ====
section
/-!
DEFINITION. Products, additions and the canonical reduction order (R63 to R76, file 03).
-/

namespace Sys2Proof.Machine

/-- The FP32 rounding of an exact value. -/
def rnd32 (md : Modes) (x : Val) : Num Val := roundTo specFp32 { md with rtz := false } x

/-- The exact product under R66; an infinity times a zero is NaN and raises INVALID. -/
def mulExact (a b : Val) : Num Val :=
  match a, b with
  | .nan, _ => return .nan
  | _, .nan => return .nan
  | .inf s, .inf t => return .inf (s != t)
  | .inf s, .fin t m _ => if m = 0 then (do raiseInvalid; return .nan) else return .inf (s != t)
  | .fin s m _, .inf t => if m = 0 then (do raiseInvalid; return .nan) else return .inf (s != t)
  | .fin s m e, .fin t n d => return .fin (s != t) (m * n) (e + d)

/-- The exact sum of two finite values; an exact zero sum is -0 only for (-0) + (-0) (R67). -/
def addFin (s : Bool) (m : Nat) (e : Int) (t : Bool) (n : Nat) (d : Int) : Val :=
  let lo := min e d
  let x : Int := (shiftUp m e lo : Nat)
  let y : Int := (shiftUp n d lo : Nat)
  let z := (if s then -x else x) + (if t then -y else y)
  if z = 0 then .fin (s && t && m == 0 && n == 0) 0 0 else .fin (decide (z < 0)) z.natAbs lo

/-- The exact sum under R67; opposing infinities are NaN and raise INVALID. -/
def addExact (a b : Val) : Num Val :=
  match a, b with
  | .nan, _ => return .nan
  | _, .nan => return .nan
  | .inf s, .inf t => if s = t then return .inf s else (do raiseInvalid; return .nan)
  | .inf s, .fin _ _ _ => return .inf s
  | .fin _ _ _, .inf t => return .inf t
  | .fin s m e, .fin t n d => return addFin s m e t n d

/-- p = round(FP32, a × b) (R65). -/
def mul32 (md : Modes) (a b : Val) : Num Val := do
  let p ← mulExact a b
  rnd32 md p

/-- round(FP32, x + y) (R67). -/
def add32 (md : Modes) (a b : Val) : Num Val := do
  let p ← addExact a b
  rnd32 md p

/-- The accumulator formats of R63. -/
inductive Acc where
  | fp32 | int32
  deriving DecidableEq, Repr

/-- One addition of a reduction: FP32 under R67, INT32 modulo 2^32 under R74 (its value kept exact until the end). -/
def accAdd (md : Modes) (k : Acc) (x y : Sv) : Num Sv :=
  match k with
  | .fp32 => do
    let v ← add32 md x.val y.val
    return .flt v
  | .int32 =>
    match x, y with
    | .int a, .int b => return .int (a + b)
    | _, _ => return .int 0

/-- One level of the pairwise tree: node i is node 2i plus node 2i+1, an absent operand passing the other through
(R69, R70, R150). -/
def treeLevel (md : Modes) (k : Acc) : List (Option Sv) → Num (List (Option Sv))
  | [] => return []
  | [x] => return [x]
  | x :: y :: r => do
    let z ← match x, y with
      | some a, some b => do
        let c ← accAdd md k a b
        pure (some c)
      | some a, none => pure (some a)
      | none, b => pure b
    let rest ← treeLevel md k r
    return z :: rest

/-- The pairwise tree over 2^n positions: n levels (Table 2 of file 03: n = 5; tree256 of R168: n = 8). -/
def tree (md : Modes) (k : Acc) : Nat → List (Option Sv) → Num (Option Sv)
  | 0, l => return (l.head?.getD none)
  | n + 1, l => do
    let l' ← treeLevel md k l
    tree md k n l'

/-- Absent entries up to a fixed number of positions. -/
def padAbsent (n : Nat) (l : List (Option Sv)) : List (Option Sv) := l ++ List.replicate (n - l.length) none

/-- reduce() of R71 over terms that may be absent (R150), group by group in ascending order. -/
def reduceGroups (md : Modes) (k : Acc) : List (List (Option Sv)) → Option Sv → Num (Option Sv)
  | [], acc => return acc
  | g :: gs, acc => do
    let s ← tree md k 5 (padAbsent 32 g)
    let acc' ← match acc, s with
      | some a, some b => do
        let c ← accAdd md k a b
        pure (some c)
      | some a, none => pure (some a)
      | none, b => pure b
    reduceGroups md k gs acc'

/-- R74: the stored value wraps modulo 2^32, and OVERFLOW is raised once when the mathematical sum is out of range. -/
def wrapInt32 (x : Int) : Num Int :=
  if x < -2 ^ 31 ∨ 2 ^ 31 - 1 < x then do
    raiseOverflow
    return signed 32 (unsignedCode 32 x)
  else return x

/-- reduce() of R71 and R74 with an optional addend already in the accumulator format. -/
def reduce (md : Modes) (k : Acc) (terms : List (Option Sv)) (addend : Option Sv) : Num (Option Sv) := do
  let r ← reduceGroups md k (chunks 32 terms.length terms) addend
  match k, r with
  | .int32, some (.int i) => do
    let w ← wrapInt32 i
    return some (.int w)
  | _, r => return r

/-- The addend's conversion to the accumulator format (R71). -/
def convAddend (md : Modes) (k : Acc) (c : Sv) : Num Sv :=
  match k, c with
  | .fp32, .int 0 => return .flt (.fin false 0 0)
  | .fp32, c => do
    let v ← rnd32 md c.val
    return .flt v
  | .int32, .int i => return .int i
  | .int32, .flt v => do
    let n ← toInt false (-2 ^ 31) (2 ^ 31 - 1) v
    return .int n

/-- The product of one position, in the accumulator's kind (R63, R65). -/
def product (md : Modes) (a b : Sv) : Num Sv :=
  match a, b with
  | .int x, .int y => return .int (x * y)
  | a, b => do
    let p ← mul32 md a.val b.val
    return .flt p

/-- The products of two rows, position by position. -/
def products (md : Modes) : List Sv → List Sv → Num (List (Option Sv))
  | a :: as, b :: bs => do
    let p ← product md a b
    let r ← products md as bs
    return some p :: r
  | _, _ => return []

/-- One MA dot product (R69 to R74); K = 0 forms no reduction. -/
def dot (md : Modes) (k : Acc) (a b : List Sv) (addend : Option Sv) : Num (Option Sv) := do
  let t ← products md a b
  reduce md k t addend

/-- The accumulator of an operand pair, or none where R63 does not allow the pair. `bx` tells that B is expanded to
BF16 in the WFU (grouped or IDX4). -/
def pairAcc (a b : Fmt) (bx : Bool) : Option Acc :=
  let fl (f : Fmt) : Bool := match f with
    | .fp16 | .bf16 | .e4m3 | .e5m2 | .e3m2 | .e2m3 | .e2m1 => true
    | _ => false
  let it (f : Fmt) : Bool := match f with
    | .int8 | .uint8 | .int4 | .uint4 => true
    | _ => false
  if bx then (if fl a then some .fp32 else none)
  else if fl a && fl b then some .fp32
  else if it a && it b then some .int32
  else none

/-- Elements per DPU per cycle for an operand width in bits (Table 3 of R25). -/
def elemsPerCycle (w : Nat) : Nat := if w = 16 then 32 else if w = 4 then 128 else 64

end Sys2Proof.Machine
end

