-- ==== Sys2Proof/Machine/Spad.lean ====
section
/-!
DEFINITION. One engine's scratchpad: bytes, ECC granules, slot tags and the combining buffer
(R183, R185, R186, R195, R205, R209 to R212, R505, file 09).
-/

namespace Sys2Proof.Machine

/-- The bytes of one store (R505): address, value, and the mask of the bits written. -/
abbrev Store := Map (Nat × Nat)

/-- One entry of the combining buffer: an aligned 256-byte block and the stores it holds, oldest first (R209). -/
structure CombEntry where
  block : Nat
  stores : List Store
  deriving DecidableEq, Repr

/-- A scratchpad. `gran` lists the damaged granules (R211), `full` the slots whose tag is full (R195), in rising order. -/
structure Spad where
  mem : Memory
  gran : Map GState
  full : List Nat
  comb : List CombEntry
  deriving DecidableEq, Repr

/-- The first address beyond the scratchpad: 20 MiB (R134, R183). -/
def spadSize : Nat := 0x1400000

/-- Slots of one engine (R183). -/
def spadSlots : Nat := 5120

/-- A scratchpad as bring-up leaves it: zero bytes, valid check bits, every tag empty (R195, R201). -/
def Spad.clear : Spad := ⟨[], [], [], []⟩

/-- What an operation's accesses found and did, beside the bytes: granules whose correction is counted, and poison
written over an uncorrectable granule (R211, R212). -/
structure Trace where
  corrected : List Nat
  poisonedAt : List Nat
  deriving DecidableEq, Repr

def Trace.empty : Trace := ⟨[], []⟩
def Trace.append (a b : Trace) : Trace := ⟨a.corrected ++ b.corrected, a.poisonedAt ++ b.poisonedAt⟩

/-- The bits of a byte replaced under a mask. -/
def mergeBits (old v mask : Nat) : Nat := Nat.lor (Nat.land old (255 - mask)) (Nat.land v mask)

/-- A store with the masked bits of one byte added. -/
def storeBits (s : Store) (a v mask : Nat) : Store :=
  match mget s a with
  | some (v0, m0) => mput s a (mergeBits v0 v mask, Nat.lor m0 mask)
  | none => mput s a (Nat.land v mask, mask)

/-- A store with whole bytes added. -/
def storeBytes : Store → Nat → List Byte → Store
  | s, _, [] => s
  | s, a, b :: bs => storeBytes (storeBits s a b.toNat 255) (a + 1) bs

def storeOf : List (Nat × Byte) → Store → Store
  | [], s => s
  | (a, b) :: r, s => storeOf r (storeBits s a b.toNat 255)

/-- Granule `g` is written whole by the store (R505). -/
def storeFull (s : Store) (g : Nat) : Bool :=
  (s.filter fun p => p.1 / 16 == g && p.2.2 == 255).length == 16

/-- The granules a store names, in rising order. -/
def storeGranules : Store → List Nat
  | [] => []
  | (a, _) :: s =>
    let r := storeGranules s
    if r.head? = some (a / 16) then r else a / 16 :: r

/-- The bytes of a store put into memory (R186). -/
def storeMem : Store → Memory → Memory
  | [], m => m
  | (a, (v, k)) :: s, m => storeMem s (m.write a (BitVec.ofNat 8 (mergeBits (m.read a).toNat v k)))

/-- R211: one store judged on one granule. -/
def judgeGranule (s : Store) (p : Spad) (t : Trace) (g : Nat) : Spad × Trace :=
  match mget p.gran g with
  | none => (p, t)
  | some st =>
    if storeFull s g then ({ p with gran := mdel p.gran g }, t)
    else match st with
      | .correctable => ({ p with gran := mdel p.gran g }, { t with corrected := t.corrected ++ [16 * g] })
      | .uncorrectable => ({ p with gran := mput p.gran g .poisoned }, { t with poisonedAt := t.poisonedAt ++ [16 * g] })
      | .poisoned => (p, t)

/-- A store that takes effect in the banks (R185, R211). -/
def Spad.store (p : Spad) (s : Store) : Spad × Trace :=
  let q := (storeGranules s).foldl (fun x g => judgeGranule s x.1 x.2 g) (p, Trace.empty)
  ({ q.1 with mem := storeMem s q.1.mem }, q.2)

/-- Several stores in order. -/
def Spad.storeAll (p : Spad) (ss : List Store) : Spad × Trace :=
  ss.foldl (fun x s => let r := x.1.store s; (r.1, x.2.append r.2)) (p, Trace.empty)

/-- The part of a store in one 256-byte block. -/
def storeIn (s : Store) (blk : Nat) : Store := s.filter fun p => p.1 / 256 == blk

def storeBlocks : Store → List Nat
  | [] => []
  | (a, _) :: s =>
    let r := storeBlocks s
    if r.head? = some (a / 256) then r else a / 256 :: r

/-- The entry holds every byte of its block (R210). -/
def CombEntry.isFull (e : CombEntry) : Bool :=
  let u := e.stores.foldl (fun acc s => s.foldl (fun a p => storeBits a p.1 p.2.1 p.2.2) acc) []
  (u.filter fun p => p.2.2 == 255).length == 256

/-- One 256-byte part of a non-temporal store enters the combining buffer of eight entries (R209); an entry that a
new block needs is the oldest, and a full entry leaves (R210). -/
def Spad.combine (p : Spad) (t : Trace) (blk : Nat) (s : Store) : Spad × Trace :=
  let i := p.comb.findIdx fun e => e.block == blk
  let x : Spad × Trace :=
    if i < p.comb.length then
      ({ p with comb := p.comb.map fun e => if e.block == blk then { e with stores := e.stores ++ [s] } else e }, t)
    else match p.comb with
      | old :: rest =>
        if p.comb.length < 8 then ({ p with comb := p.comb ++ [⟨blk, [s]⟩] }, t)
        else
          let r := Spad.storeAll { p with comb := rest ++ [⟨blk, [s]⟩] } old.stores
          (r.1, t.append r.2)
      | [] => ({ p with comb := [⟨blk, [s]⟩] }, t)
  match x.1.comb.find? CombEntry.isFull with
  | some e =>
    let r := Spad.storeAll { x.1 with comb := x.1.comb.filter fun c => !(c.block == e.block) } e.stores
    (r.1, x.2.append r.2)
  | none => x

/-- A store marked non-temporal (R209) or not. -/
def Spad.storeNt (p : Spad) (nt : Bool) (s : Store) : Spad × Trace :=
  if nt then (storeBlocks s).foldl (fun x b => x.1.combine x.2 b (storeIn s b)) (p, Trace.empty) else p.store s

/-- Every entry leaves the combining buffer (R207, R208, R210). DESIGN CHOICE (log entry 94): the buffered bytes are written now, so
where nothing orders a non-temporal and a normal store to one byte (R205, R209), the non-temporal one is the later. -/
def Spad.drain (p : Spad) : Spad × Trace :=
  Spad.storeAll { p with comb := [] } (p.comb.flatMap (·.stores))

/-- The outcome of reading a range of named bytes (R212). -/
inductive ReadRes where
  /-- The bytes, and the scratchpad with corrected granules rewritten. -/
  | ok (bs : List Byte) (p : Spad) (t : Trace)
  /-- The first byte of a granule that holds an uncorrectable error or poison; named granules with a correctable error are
  rewritten corrected all the same. -/
  | bad (addr : Nat) (p : Spad) (t : Trace)
  deriving DecidableEq, Repr

/-- The granules of a byte range. -/
def granulesOf (a n : Nat) : List Nat :=
  if n = 0 then [] else (List.range ((a + n - 1) / 16 + 1 - a / 16)).map (a / 16 + ·)

/-- R212: a read of `n` named bytes. -/
def Spad.read (p : Spad) (a n : Nat) : ReadRes :=
  let gs := granulesOf a n
  let cs := gs.filter fun g => mget p.gran g == some .correctable
  let q : Spad := { p with gran := cs.foldl mdel p.gran }
  match gs.find? fun g => match mget p.gran g with
    | some .uncorrectable => true
    | some .poisoned => true
    | _ => false with
  | some g => .bad (16 * g) q ⟨cs.map (16 * ·), []⟩
  | none => .ok (p.mem.readBytes a n) q ⟨cs.map (16 * ·), []⟩

/-! Slot tags (R192, R195). -/

/-- A rising list of numbers with a range added, and without it. -/
def setRange (l : List Nat) (first count : Nat) : List Nat :=
  (l.filter (· < first)) ++ (List.range count).map (first + ·) ++ (l.filter (first + count ≤ ·))

def clearRange (l : List Nat) (first count : Nat) : List Nat :=
  l.filter fun x => decide (x < first) || decide (first + count ≤ x)

/-- Every slot of a range is full, or every slot is empty (R192). -/
def Spad.tagsAre (p : Spad) (isFull : Bool) (first count : Nat) : Bool :=
  (List.range count).all fun i => p.full.contains (first + i) == isFull

def Spad.setTags (p : Spad) (isFull : Bool) (first count : Nat) : Spad :=
  { p with full := if isFull then setRange p.full first count else clearRange p.full first count }

/-! Operations over a scratchpad. -/

/-- How an operation on an engine can end before its effect (R212, R100, R314). -/
inductive OpErr where
  /-- UNCORRECTABLE_DATA at a scratchpad byte. -/
  | uncorrectable (addr : Nat)
  /-- UNCORRECTABLE_DATA on a damaged code word of a tensor in HBM or in a staged weight block. -/
  | hbmWord (handle off : Nat)
  /-- A compressed block failed a check (Table 6 of file 11). -/
  | blockCheck (handle off : Nat)
  | gatherFault (first count : Nat)
  deriving DecidableEq, Repr

/-- The working state of an operation: scratchpad, flags (R51), MXU_LOST (R60), what the accesses found,
and the MA steps (R84). -/
structure OpSt where
  sp : Spad
  fl : Flags
  lost : Nat
  tr : Trace
  steps : Nat
  deriving DecidableEq, Repr

/-- An operation on one engine: it may end with an error, keeping the state it left. -/
abbrev OpM := ExceptT OpErr (StateM OpSt)

def opStart (p : Spad) : OpSt := ⟨p, Flags.zero, 0, Trace.empty, 0⟩

/-- Arithmetic inside an operation. -/
def liftNum {α : Type} (x : Num α) : OpM α := fun s => let r := x s.fl; (.ok r.1, { s with fl := r.2 })

/-- Reads named bytes (R212). -/
def opRead (a n : Nat) : OpM (List Byte) := fun s =>
  match s.sp.read a n with
  | .ok bs p t => (.ok bs, { s with sp := p, tr := s.tr.append t })
  | .bad x p t => (.error (.uncorrectable x), { s with sp := p, tr := s.tr.append t })

/-- Performs one store. -/
def opStore (nt : Bool) (st : Store) : OpM Unit := fun s =>
  if st.isEmpty then (.ok (), s)
  else let r := s.sp.storeNt nt st; (.ok (), { s with sp := r.1, tr := s.tr.append r.2 })

def opStores (nt : Bool) : List Store → OpM Unit
  | [] => pure ()
  | s :: r => do
    opStore nt s
    opStores nt r

/-- Counts MA steps (R84, R472). -/
def opSteps (n : Nat) : OpM Unit := fun s => (.ok (), { s with steps := s.steps + n })

/-- Adds to MXU_LOST, saturating at 32 bits (R60, R286). -/
def opLost (n : Nat) : OpM Unit := fun s => (.ok (), { s with lost := min (2 ^ 32 - 1) (s.lost + n) })

def opFail {α : Type} (e : OpErr) : OpM α := fun s => (.error e, s)

def opMap {α β : Type} (f : α → OpM β) : List α → OpM (List β)
  | [] => return []
  | x :: r => do
    let y ← f x
    let ys ← opMap f r
    return y :: ys

def numMap {α β : Type} (f : α → Num β) : List α → Num (List β)
  | [] => return []
  | x :: r => do
    let y ← f x
    let ys ← numMap f r
    return y :: ys

end Sys2Proof.Machine
end

