-- ==== Sys2Proof/Machine/Flags.lean ====
section
/-!
DEFINITION. Flag computations: the result block's flag union and MXU_LOST (R51, R60, R286).
-/

namespace Sys2Proof.Machine

/-- Byte 0 of the result block: bit 0 INVALID, bit 1 OVERFLOW, bit 2 UNDERFLOW (R286). -/
def flagByte (f : Flags) : Nat :=
  (if f.invalid then 1 else 0) + (if f.overflow then 2 else 0) + (if f.underflow then 4 else 0)

/-- MXU_LOST summed with saturation (R286). -/
def lostAdd (a b : Nat) : Nat := min (2 ^ 32 - 1) (a + b)

/-- The 16-byte result block of R286. -/
def resultBlock (f : Flags) (lost clock : Nat) : List Byte :=
  toLe 1 (flagByte f) ++ zeros 3 ++ toLe 4 lost ++ toLe 8 clock

/-- The modes of an operation that always rounds to nearest even (R128). -/
def modesOf (sat canon : Bool) : Modes := ⟨sat, canon, false⟩

end Sys2Proof.Machine
end

