-- ==== Sys2Proof/Machine/Operands.lean ====
section
/-!
DEFINITION. Operand forms: tensor descriptors, scalar sources, element access and packed streams
(R45, R47, R132 to R140, R313, R504, file 06).
-/

namespace Sys2Proof.Machine

/-- The failing fields of a check, as byte offsets: the first offending field is the lowest (R277). -/
abbrev Bad := List Nat

def badIf (c : Bool) (off : Nat) : Bad := if c then [off] else []

/-- Reserved bytes of a structure: the offset of the first that is not 0 (R17). -/
def resvIn (b : List Byte) (off n : Nat) : Bad :=
  match firstNonzero (slice b off n) off with
  | some i => [i]
  | none => []

def minOff : Bad → Option Nat
  | [] => none
  | a :: r => match minOff r with
    | some b => some (min a b)
    | none => some a

/-- A tensor descriptor of R132, with its counts and signed strides. -/
structure Desc where
  base : Nat
  fmt : Fmt
  mx : Bool
  counts : List Nat
  strides : List Int
  sbase : Nat
  ss : List Int
  deriving DecidableEq, Repr

def natAt (l : List Nat) (i : Nat) : Nat := (l.drop i).head?.getD 0
def intAt (l : List Int) (i : Nat) : Int := (l.drop i).head?.getD 0

def Desc.count (d : Desc) (i : Nat) : Nat := natAt d.counts i

/-- Elements that a descriptor addresses (R133, R135). -/
def Desc.numel (d : Desc) : Nat := d.count 0 * d.count 1 * d.count 2 * d.count 3

/-- The fields of the 48 bytes of a descriptor (R132); a reserved format reads as IDX4, which R134 rejects too. -/
def descOf (b : List Byte) : Desc :=
  let s (o : Nat) : Int := signed 32 (fieldAt b o 4)
  { base := fieldAt b 0 4 % 2 ^ 25
    fmt := (Fmt.ofCode (byteAt b 4 % 16)).getD .idx4
    mx := bitOf (byteAt b 4) 4
    counts := [fieldAt b 8 2, fieldAt b 10 2, fieldAt b 12 2, fieldAt b 14 2]
    strides := [s 16, s 20, s 24, s 28]
    sbase := fieldAt b 32 4 % 2 ^ 25
    ss := [s 36, s 40, s 44] }

/-- The first byte, the bit offset in it and the width of element e (R45, R133). -/
def Desc.place (d : Desc) (e : Int) : Int × Nat × Nat :=
  match d.fmt.width with
  | 4 => (d.base + e / 2, 4 * (e % 2).toNat, 4)
  | 6 =>
    let b := 6 * (e % 4).toNat
    (d.base + 3 * (e / 4) + ((b / 8 : Nat) : Int), b % 8, 6)
  | w => (d.base + e * ((w / 8 : Nat) : Int), 0, w)

/-- Bytes that an element's bits touch. -/
def placeBytes (p : Int × Nat × Nat) : Nat := ceilDiv (p.2.1 + p.2.2) 8

/-- The element index of (i0, i1, i2, i3) (R133). -/
def Desc.elem (d : Desc) (ix : List Nat) : Int :=
  ((List.range 4).map fun k => (natAt ix k : Int) * intAt d.strides k).sum

/-- The index tuples in linear order, i0 innermost (R136). -/
def Desc.indices (d : Desc) : List (List Nat) :=
  (List.range (d.count 3)).flatMap fun i3 =>
    (List.range (d.count 2)).flatMap fun i2 =>
      (List.range (d.count 1)).flatMap fun i1 =>
        (List.range (d.count 0)).map fun i0 => [i0, i1, i2, i3]

/-- The index tuples of the rows: those with i0 = 0 (R136). -/
def Desc.rows (d : Desc) : List (List Nat) :=
  if d.count 0 = 0 then [] else
    (List.range (d.count 3)).flatMap fun i3 =>
      (List.range (d.count 2)).flatMap fun i2 =>
        (List.range (d.count 1)).map fun i1 => [0, i1, i2, i3]

/-- The address of the scale byte of an element (R133). -/
def Desc.scaleAddr (d : Desc) (ix : List Nat) : Int :=
  (d.sbase : Int) + natAt ix 1 * intAt d.ss 0 + natAt ix 2 * intAt d.ss 1 + natAt ix 3 * intAt d.ss 2
    + ((natAt ix 0 / 32 : Nat) : Int)

/-- The lowest and highest sum of index times stride (R134). -/
def extent : List Nat → List Int → Int × Int
  | c :: cs, s :: ss =>
    let r := extent cs ss
    let t := ((c - 1 : Nat) : Int) * s
    (r.1 + min 0 t, r.2 + max 0 t)
  | _, _ => (0, 0)

/-- R17 and R134: the offsets of the offending fields of a descriptor within its 48 bytes. -/
def descBad (b : List Byte) : Bad :=
  let d := descOf b
  let code := byteAt b 4 % 16
  let w := d.fmt.width
  let st (k : Nat) : Int := intAt d.strides k
  let odd (m : Int) (k : Nat) : Bool := st k % m != 0 && !(k == 0 && (st 0 == 1 || st 0 == 0))
  let e := extent d.counts d.strides
  let lo := (d.place e.1).1
  let hp := d.place e.2
  let sx := extent (d.counts.drop 1) d.ss
  let fmtBad := code == 15 || code == 8 || code == 14
  badIf (2 ≤ byteAt b 3) 3
  ++ badIf (fmtBad || 32 ≤ byteAt b 4 || (d.fmt.mxOnly && !d.mx) || (d.mx && !d.fmt.mxOk)) 4
  ++ badIf (byteAt b 5 != 0) 5 ++ badIf (byteAt b 6 != 0) 6 ++ badIf (byteAt b 7 != 0) 7
  ++ badIf (8 ≤ w && !fmtBad && d.base % (w / 8) != 0) 0
  ++ badIf (d.mx && st 0 != 1) 16
  ++ (if fmtBad then [] else (List.range 4).flatMap fun k =>
        badIf ((w == 4 && odd 2 k) || (w == 6 && odd 4 k)) (16 + 4 * k))
  ++ badIf (2 ≤ byteAt b 35) 35
  ++ (if d.numel = 0 || fmtBad then [] else
        badIf (lo < 0 || (spadSize : Int) < hp.1 + placeBytes hp) 0
        ++ badIf (d.mx && ((d.sbase : Int) + sx.1 < 0
              || (spadSize : Int) ≤ d.sbase + sx.2 + ((d.count 0 - 1) / 32 : Nat))) 32)

/-- COUNTk fields, as offsets in the descriptor, that differ from the counts an operation asks for (R313, R503). -/
def countBad (d : Desc) (cs : List Nat) : Bad :=
  (List.range 4).flatMap fun k => badIf (d.count k != natAt cs k) (8 + 2 * k)

/-- A destination has no stride 0 in a dimension whose count is above 1 (R137, R504): offsets in the descriptor. -/
def strideZeroBad (d : Desc) : Bad :=
  (List.range 4).flatMap fun k => badIf (intAt d.strides k == 0 && 1 < d.count k) (16 + 4 * k)

/-- The same region: equal BASE, FMT, MX, counts, strides and scale fields (R138). -/
def Desc.same (a b : Desc) : Bool := a == b

/-- Byte ranges (first, count) that a descriptor addresses, elements and scales (R138). -/
def Desc.spans (d : Desc) : List (Int × Nat) :=
  d.rows.flatMap fun r =>
    let e := d.elem r
    let c := d.count 0
    let el : List (Int × Nat) :=
      if intAt d.strides 0 = 1 then
        let a := d.place e
        let z := d.place (e + ((c - 1 : Nat) : Int))
        [(a.1, (z.1 + placeBytes z - a.1).toNat)]
      else if intAt d.strides 0 = 0 then [((d.place e).1, placeBytes (d.place e))]
      else (List.range c).map fun (i : Nat) =>
        let p := d.place (e + (i : Int) * intAt d.strides 0)
        (p.1, placeBytes p)
    el ++ (if d.mx then [(d.scaleAddr r, (c - 1) / 32 + 1)] else [])

def spansMeet (a b : List (Int × Nat)) : Bool :=
  a.any fun p => b.any fun q => decide (p.1 < q.1 + q.2) && decide (q.1 < p.1 + p.2)

/-- Two descriptors address a common byte (R138, R504). -/
def Desc.overlaps (a b : Desc) : Bool := spansMeet a.spans b.spans

/-- Every byte that a descriptor addresses lies in one of the ranges of bytes (R200). -/
def Desc.within (d : Desc) (ok : Nat → Nat → Bool) : Bool :=
  d.spans.all fun p => ok p.1.toNat p.2

/-! Reading elements. -/

/-- The code of the element at a place. -/
def opReadCode (p : Int × Nat × Nat) : OpM Nat := do
  let bs ← opRead p.1.toNat (placeBytes p)
  return (leNat bs / 2 ^ p.2.1) % 2 ^ p.2.2

/-- The code of one element of a descriptor. -/
def opElemCode (d : Desc) (ix : List Nat) : OpM Nat := opReadCode (d.place (d.elem ix))

/-- The scale code of one element's block. -/
def opScaleCode (d : Desc) (ix : List Nat) : OpM Nat := do
  let bs ← opRead (d.scaleAddr ix).toNat 1
  return leNat bs

/-- The value of one element under R44, R47 and R49. -/
def opElem (sat : Bool) (d : Desc) (ix : List Nat) : OpM Sv := do
  let c ← opElemCode d ix
  if d.mx then do
    let s ← opScaleCode d ix
    return .flt (readMx d.fmt sat s c)
  else return readCode d.fmt sat c

def opElems (sat : Bool) (d : Desc) (ixs : List (List Nat)) : OpM (List Sv) := opMap (opElem sat d) ixs

/-- Every element of a descriptor in linear order (R136). -/
def opAll (sat : Bool) (d : Desc) : OpM (List Sv) := opElems sat d d.indices

/-- A VE source: a descriptor, or a scalar register read in a format (R140, R142). -/
inductive VSrc where
  | desc (d : Desc)
  | scalar (r : Nat) (f : Fmt)
  deriving DecidableEq, Repr

def VSrc.isInt : VSrc → Bool
  | .desc d => d.fmt.isInt
  | .scalar _ f => f.isInt

/-- The value of a source for one destination element; `sc` holds the captured S0 to S63 (R140, R141). -/
def opSource (sc : List Word) (sat : Bool) (ix : List Nat) : VSrc → OpM Sv
  | .desc d => opElem sat d ix
  | .scalar r f => return readCode f sat (((sc.drop r).head?.getD 0).toNat % 2 ^ f.width)

/-! Writing elements. -/

/-- An element's own group holds no element of another row: the strides of the other dimensions step over whole groups. -/
def Desc.lone (d : Desc) (group : Nat) : Bool :=
  d.count 0 == 1 && (List.range 3).all fun j => decide (d.count (j + 1) ≤ 1) || intAt d.strides (j + 1) % group == 0

/-- The store with one element's code added; the last element of a packed row, or the only element of a row, takes the padding
bits of its group, written as zero (R45, log entry 13). -/
def putCode (d : Desc) (ix : List Nat) (code : Nat) (s : Store) : Store :=
  let e := d.elem ix
  let p := d.place e
  let v := (code % 2 ^ p.2.2) * 2 ^ p.2.1
  let k := (2 ^ p.2.2 - 1) * 2 ^ p.2.1
  let last := (intAt d.strides 0 == 1 || d.lone (if d.fmt.width = 4 then 2 else 4)) && natAt ix 0 + 1 == d.count 0
  let pad : Nat := match d.fmt.width with
    | 4 => if last && e % 2 == 0 then 0xF0 else 0
    | 6 => if last then (2 ^ 24 - 2 ^ (6 * ((e % 4).toNat + 1))) / 2 ^ (8 * (6 * (e % 4).toNat / 8)) else 0
    | _ => 0
  let mask := Nat.lor k pad
  let n := ceilDiv (mask.log2 + 1) 8
  (List.range n).foldl (fun s i => storeBits s (p.1.toNat + i) (v / 2 ^ (8 * i) % 256) (mask / 2 ^ (8 * i) % 256)) s

/-- What an operation writes for one destination element: nothing, a code, and the scale byte that goes with a
block's first element (R505). -/
structure Out where
  ix : List Nat
  code : Option Nat
  scale : Option Nat
  deriving DecidableEq, Repr

def outStore (d : Desc) : List Out → Store → Store
  | [], s => s
  | o :: r, s =>
    let s := match o.code with
      | some c => putCode d o.ix c s
      | none => s
    let s := match o.scale with
      | some c => storeBits s (d.scaleAddr o.ix).toNat c 255
      | none => s
    outStore d r s

/-- The destination's elements written in issues of `k` elements, one store each (R136, R505). -/
def opWrite (nt : Bool) (k : Nat) (d : Desc) (os : List Out) : OpM Unit :=
  opStores nt ((chunks k os.length os).map fun g => outStore d g [])

/-- The results of a destination: an exact value to convert, a zero for an inactive element under MASKZ, or nothing. -/
inductive Res where
  | val (v : Sv)
  | zero
  | keep
  deriving DecidableEq, Repr

def Res.mxVal : Res → Val
  | .val v => v.val
  | _ => .fin false 0 0

/-- R75, R149: the codes of a plain destination. -/
def plainCodes (d : Desc) (md : Modes) : List (List Nat × Res) → Num (List Out)
  | [] => return []
  | (ix, r) :: rs => do
    let c ← match r with
      | .val v => do
        let c ← convertCode d.fmt md v
        pure (some c)
      | .zero => pure (some 0)
      | .keep => pure none
    let t ← plainCodes d md rs
    return ⟨ix, c, none⟩ :: t

/-- R58 to R60: the blocks of one row of a Microscaling destination, and the count of lost elements. -/
def mxRow (d : Desc) (md : Modes) : List (List (List Nat × Res)) → Num (List Out × Nat)
  | [] => return ([], 0)
  | b :: bs => do
    let e ← mxEncode d.fmt md (b.map fun p => p.2.mxVal)
    let os := (b.zip e.codes).zipIdx.map fun p => (⟨p.1.1.1, some p.1.2, if p.2 = 0 then some e.scale else none⟩ : Out)
    let r ← mxRow d md bs
    return (os ++ r.1, e.lost + r.2)

/-- Results converted once to the destination format, row by row (R58, R75). -/
def convertResults (d : Desc) (md : Modes) (rs : List (List Nat × Res)) : Num (List Out × Nat) :=
  if d.mx then
    let blks := (chunks (d.count 0) rs.length rs).flatMap fun row => chunks 32 row.length row
    mxRow d md blks
  else do
    let os ← plainCodes d md rs
    return (os, 0)

/-- Converts and writes the results of a destination, in issues of `k` elements. -/
def opResults (nt : Bool) (k : Nat) (d : Desc) (md : Modes) (rs : List (List Nat × Res)) : OpM Unit := do
  let o ← liftNum (convertResults d md rs)
  opLost o.2
  opWrite nt k d o.1

/-! Packed streams of bindings (R313). -/

/-- The length of a descriptor's packed stream. -/
def Desc.streamBytes (d : Desc) : Nat :=
  packedBytes d.fmt.width d.numel + (if d.mx then d.rows.length * ceilDiv (d.count 0) 32 else 0)

/-- The index tuples of the first elements of the blocks, in block order. -/
def Desc.blockHeads (d : Desc) : List (List Nat) := d.indices.filter fun ix => natAt ix 0 % 32 == 0

/-- The packed stream read from scratchpad. -/
def opPack (d : Desc) : OpM (List Byte) := do
  let cs ← opMap (opElemCode d) d.indices
  let ss ← if d.mx then opMap (opScaleCode d) d.blockHeads else pure []
  return packCodes d.fmt.width cs ++ ss.map (BitVec.ofNat 8)

/-- The stores of a packed stream written by the Mover: one for each aligned 256-byte block (R505). -/
def unpackStores (d : Desc) (bs : List Byte) : List Store :=
  let w := d.fmt.width
  let nb := packedBytes w d.numel
  let s := d.indices.zipIdx.foldl (fun s p => putCode d p.1 (packedGet bs w p.2) s) []
  let s := if d.mx then
      d.blockHeads.zipIdx.foldl (fun s p => storeBits s (d.scaleAddr p.1).toNat (byteAt bs (nb + p.2)) 255) s
    else s
  (storeBlocks s).map (storeIn s)

/-- The stores of a plain byte range, one for each aligned 256-byte block (R505). -/
def rangeStores (a : Nat) (bs : List Byte) : List Store :=
  let s := storeBytes [] a bs
  (storeBlocks s).map (storeIn s)

/-- A scalar source of R140 names a format that is not 0xF, E8M0, IDX4 or 0x5 to 0x7. -/
def scalarFmtOk (code : Nat) : Bool :=
  match Fmt.ofCode code with
  | some f => !f.mxOnly && f != .e8m0 && f != .idx4
  | none => false

end Sys2Proof.Machine
end

