-- ==== Sys2Proof/Machine/Sfu.lean ====
section
/-!
DEFINITION. The special functions in both SFU modes (R154 to R164, file 07). NATIVE results are correctly rounded from a
320-bit fixed-point evaluation of f; that 320 bits decide every rounding is UNVERIFIED (log entry 12).
-/

namespace Sys2Proof.Machine

/-- The functions of Table 1 of R155. -/
inductive SfuFn where
  | exp | exp2 | log | log2 | recip | rsqrt | sqrt | sigmoid | tanh | softplus | sinpi | cospi
  deriving DecidableEq, Repr

/-- The AUX codes of Table 1. -/
def SfuFn.ofCode : Nat → Option SfuFn
  | 1 => some .exp | 2 => some .exp2 | 3 => some .log | 4 => some .log2 | 5 => some .recip | 6 => some .rsqrt
  | 7 => some .sqrt | 8 => some .sigmoid | 9 => some .tanh | 10 => some .softplus | 11 => some .sinpi
  | 12 => some .cospi | _ => none

/-- The precision P of Table 1. -/
def SfuFn.prec : SfuFn → Nat
  | .recip => 24 | .rsqrt => 24 | .sqrt => 24 | .sinpi => 22 | .cospi => 22 | _ => 23

/-- Fraction bits of the fixed-point evaluation. -/
def fxN : Nat := 320
def fxOne : Nat := 2 ^ fxN

/-- Sum of t / (2i+1) with t divided by k2 at each term: atanh and, alternating, atan of an inverse. -/
def atanhSum : Nat → Nat → Nat → Nat → Nat
  | 0, _, _, _ => 0
  | n + 1, i, t, k2 => t / (2 * i + 1) + atanhSum n (i + 1) (t / k2) k2

def atanSum : Nat → Nat → Int → Int → Int
  | 0, _, _, _ => 0
  | n + 1, i, t, k2 => t / (2 * (i : Int) + 1) - atanSum n (i + 1) (t / k2) k2

/-- ln 2 = 2 atanh(1/3). -/
def fxLn2 : Nat := 2 * atanhSum 110 0 (fxOne / 3) 9

/-- π by Machin's formula. -/
def fxPi : Nat := (16 * atanSum 75 0 ((fxOne : Int) / 5) 25 - 4 * atanSum 25 0 ((fxOne : Int) / 239) 57121).toNat

/-- Sum of z^(2i+1) / (2i+1) in fixed point. -/
def atanhFx : Nat → Nat → Nat → Nat → Nat
  | 0, _, _, _ => 0
  | n + 1, i, t, z2 => t / (2 * i + 1) + atanhFx n (i + 1) (t * z2 / fxOne) z2

/-- ln(num / den) in fixed point for 1 ≤ num/den ≤ 2. -/
def lnFx (num den : Nat) : Nat :=
  let z := (num - den) * fxOne / (num + den)
  2 * atanhFx 110 0 z (z * z / fxOne)

/-- Taylor terms of e^r for 0 ≤ r < 1 in fixed point. -/
def expTerms : Nat → Nat → Nat → Nat → Nat
  | 0, _, _, _ => 0
  | n + 1, k, t, r => t + expTerms n (k + 1) (t * r / (k * fxOne)) r

/-- Taylor terms of sin t. -/
def sinTerms : Nat → Nat → Int → Int → Int
  | 0, _, _, _ => 0
  | n + 1, k, t, r2 => t + sinTerms n (k + 2) (-(t * r2 / (fxOne : Int)) / (((k + 1) * (k + 2) : Nat) : Int)) r2

/-- ±m · 2^e in fixed point, toward minus infinity. -/
def fxOf (s : Bool) (m : Nat) (e : Int) : Int :=
  let sh := e + fxN
  let v : Int := if 0 ≤ sh then ((m * 2 ^ sh.toNat : Nat) : Int) else ((m / 2 ^ (-sh).toNat : Nat) : Int)
  if s then -v else v

/-- e^x for x in fixed point, |x| at most 128: a mantissa with fxN fraction bits and a power of two. -/
def expPow (x : Int) : Nat × Int :=
  let n := x / (fxLn2 : Int)
  let r := (x - n * (fxLn2 : Int)).toNat
  (expTerms 75 1 fxOne r, n)

/-- An exact result, or a strictly positive or negative inexact one: m is odd, its lowest bit standing for the
nonzero remainder. -/
inductive Fres where
  | exact (v : Val)
  | near (s : Bool) (m : Nat) (e : Int)
  | ratio (s : Bool) (num den : Nat) (e : Int)
  deriving Repr

/-- v · 2^e with a nonzero remainder below. -/
def sticky (s : Bool) (v : Nat) (e : Int) : Fres := .near s (2 * v + 1) (e - 1)

/-- A value whose magnitude no format distinguishes from zero, and one beyond every format. -/
def tiny (s : Bool) : Fres := .near s 1 (-400)
def huge : Fres := .near false 1 400

/-- |x| is above 2^k. -/
def beyond (m : Nat) (e : Int) (k : Nat) : Bool :=
  match cmpPow m e k 0 with
  | .gt => true
  | _ => false

/-- e^x of a finite nonzero x. -/
def expRes (s : Bool) (m : Nat) (e : Int) : Fres :=
  if beyond m e 120 then (if s then tiny false else huge)
  else
    let p := expPow (fxOf s m e)
    sticky false p.1 (p.2 - fxN)

/-- 2^x of a finite nonzero x. -/
def exp2Res (s : Bool) (m : Nat) (e : Int) : Fres :=
  if beyond m e 300 then (if s then tiny false else huge)
  else
    let x := fxOf s m e
    let n := x / (fxOne : Int)
    let r := (x - n * (fxOne : Int)).toNat
    if 0 ≤ e ∨ m % 2 ^ (-e).toNat = 0 then .exact (.fin false 1 n)
    else sticky false (expTerms 75 1 fxOne (r * fxLn2 / fxOne)) (n - fxN)

/-- m · 2^e = (m / 2^k) · 2^(k+e) with m / 2^k in [1, 2). -/
def lnParts (m : Nat) (e : Int) : Nat × Int := (lnFx m (2 ^ m.log2), (m.log2 : Int) + e)

def ofFx (v : Int) : Fres := sticky (decide (v < 0)) v.natAbs (-(fxN : Int))

def logRes (m : Nat) (e : Int) : Fres :=
  let p := lnParts m e
  if m = 2 ^ m.log2 ∧ p.2 = 0 then .exact (.fin false 0 0)
  else ofFx (p.2 * (fxLn2 : Int) + p.1)

def log2Res (m : Nat) (e : Int) : Fres :=
  let p := lnParts m e
  if m = 2 ^ m.log2 then .exact (Val.ofInt p.2)
  else ofFx (p.2 * (fxOne : Int) + ((p.1 * fxOne / fxLn2 : Nat) : Int))

/-- √(num / den · 2^(2h)) for positive num and den, exact where the root is a dyadic number. -/
def rootRes (num den : Nat) (h : Int) : Fres :=
  let k : Nat := 200
  let q := Nat.sqrt (num * 2 ^ (2 * k) / den)
  if q * q * den = num * 2 ^ (2 * k) then .exact (.fin false q (h - k)) else sticky false q (h - k)

def sqrtRes (m : Nat) (e : Int) : Fres :=
  if e % 2 = 0 then rootRes m 1 (e / 2) else rootRes (2 * m) 1 ((e - 1) / 2)

def rsqrtRes (m : Nat) (e : Int) : Fres :=
  if e % 2 = 0 then rootRes 1 m (-(e / 2)) else rootRes 1 (2 * m) (-((e - 1) / 2))

/-- e^x in plain fixed point, for x at most 120. -/
def expFlat (x : Int) : Nat :=
  let p := expPow x
  if 0 ≤ p.2 then p.1 * 2 ^ p.2.toNat else p.1 / 2 ^ (-p.2).toNat

def sigmoidRes (s : Bool) (m : Nat) (e : Int) : Fres :=
  if beyond m e 110 then (if s then tiny false else sticky false (2 ^ 200 - 1) (-200))
  else sticky false (fxOne ^ 3 / (fxOne + expFlat (fxOf (!s) m e))) (-(2 * fxN : Nat))

def tanhRes (s : Bool) (m : Nat) (e : Int) : Fres :=
  if beyond m e 60 then sticky s (2 ^ 160 - 1) (-160)
  else if (m.log2 : Int) + e < -30 then
    -- x · (15 - 5x² + 2x⁴) / 15, with x² = m² · 2^(2e)
    let d := (-e).toNat
    let x2 := m * m
    .ratio s (m * (15 * 2 ^ (4 * d) + 2 * (x2 * x2) - 5 * x2 * 2 ^ (2 * d))) 15 (e - (4 * d : Nat))
  else
    let a := expFlat (fxOf true m (e + 1))
    sticky s ((fxOne - a) * fxOne / (fxOne + a)) (-(fxN : Int))

def softplusRes (s : Bool) (m : Nat) (e : Int) : Fres :=
  if m = 0 then sticky false fxLn2 (-(fxN : Int))
  else if beyond m e 110 then
    if s then tiny false else sticky false (m * 2 ^ 200) (e - 200)
  else
    let a := expFlat (fxOf true m e)
    let l := lnFx (fxOne + a) fxOne
    if s then sticky false l (-(fxN : Int))
    else sticky false (l + (fxOf false m e).toNat) (-(fxN : Int))

/-- |x| modulo 2 in units of 2^-d, with d. -/
def mod2 (m : Nat) (e : Int) : Nat × Nat :=
  if 0 ≤ e then (m * 2 ^ e.toNat % 2, 0)
  else (m % 2 ^ ((-e).toNat + 1), (-e).toNat)

/-- sin(π · t / 2^d) for 0 < t / 2^d < 1/2 or the exact 1 at one half. -/
def sinpiPos (s : Bool) (t d : Nat) : Fres :=
  if 2 * t = 2 ^ d then .exact (.fin s 1 0)
  else
    let x : Int := ((t * fxPi / 2 ^ d : Nat) : Int)
    sticky s (sinTerms 45 1 x (x * x / (fxOne : Int))).toNat (-(fxN : Int))

/-- sin(π t / 2^d) for 0 ≤ t / 2^d < 2, with the sign `s` of x; `z` is the sign of an exact zero. -/
def sinpiAt (s z : Bool) (t d : Nat) : Fres :=
  let one := 2 ^ d
  let neg := decide (one < t)
  let u := if one ≤ t then t - one else t
  let v := if one < 2 * u then one - u else u
  if v = 0 then .exact (.fin z 0 0) else sinpiPos (s != neg) v d

def sinpiRes (s : Bool) (m : Nat) (e : Int) : Fres :=
  let p := mod2 m e
  sinpiAt s s p.1 p.2

/-- cos(πx) = sin(π(x + 1/2)). -/
def cospiRes (m : Nat) (e : Int) : Fres :=
  let p := mod2 m e
  let d := p.2 + 1
  sinpiAt false false ((2 * p.1 + 2 ^ p.2) % 2 ^ (d + 1)) d

/-- Table 2 of R157, for arguments that are not NaN: the value, and whether INVALID is raised. -/
def sfuTable (f : SfuFn) (x : Val) : Option (Val × Bool) :=
  let one : Val := .fin false 1 0
  let z (s : Bool) : Val := .fin s 0 0
  match x with
  | .nan => some (.nan, false)
  | .inf s =>
    match f with
    | .exp => some (if s then z false else .inf false, false)
    | .exp2 => some (if s then z false else .inf false, false)
    | .log => some (if s then .nan else .inf false, s)
    | .log2 => some (if s then .nan else .inf false, s)
    | .recip => some (z s, false)
    | .rsqrt => some (if s then .nan else z false, s)
    | .sqrt => some (if s then .nan else .inf false, s)
    | .sigmoid => some (if s then z false else one, false)
    | .tanh => some (.fin s 1 0, false)
    | .softplus => some (if s then z false else .inf false, false)
    | .sinpi => some (.nan, true)
    | .cospi => some (.nan, true)
  | .fin s 0 _ =>
    match f with
    | .exp => some (one, false)
    | .exp2 => some (one, false)
    | .log => some (.inf true, false)
    | .log2 => some (.inf true, false)
    | .recip => some (.inf s, false)
    | .rsqrt => some (.inf s, false)
    | .sqrt => some (z s, false)
    | .sigmoid => some (.fin false 1 (-1), false)
    | .tanh => some (z s, false)
    | .softplus => none
    | .sinpi => some (z s, false)
    | .cospi => some (one, false)
  | .fin true _ _ =>
    match f with
    | .log | .log2 | .rsqrt | .sqrt => some (.nan, true)
    | _ => none
  | .fin false _ _ => none

/-- f(x) for a finite x that Table 2 does not list. -/
def sfuFinite (f : SfuFn) (s : Bool) (m : Nat) (e : Int) : Fres :=
  match f with
  | .exp => expRes s m e
  | .exp2 => exp2Res s m e
  | .log => logRes m e
  | .log2 => log2Res m e
  | .recip => .ratio s 1 m (-e)
  | .rsqrt => rsqrtRes m e
  | .sqrt => sqrtRes m e
  | .sigmoid => sigmoidRes s m e
  | .tanh => tanhRes s m e
  | .softplus => softplusRes s m e
  | .sinpi => sinpiRes s m e
  | .cospi => cospiRes m e

/-- round(F, f(x)) of an evaluation. -/
def roundRes (f : FloatSpec) (md : Modes) : Fres → Num Val
  | .exact v => roundTo f md v
  | .near s m e => roundPos f md s m 1 e
  | .ratio s num den e => roundPos f md s num den e

/-- The NATIVE result in a float destination or, with `fp`, of precision P in FP32 (R157, R159, R160). -/
def sfuNative (f : SfuFn) (sp : FloatSpec) (md : Modes) (x : Val) : Num Val :=
  match sfuTable f x with
  | some (v, inv) => do
    if inv then raiseInvalid
    roundTo sp md v
  | none =>
    match x with
    | .fin s m e => roundRes sp md (sfuFinite f s m e)
    | _ => return .nan

/-- FP32 with the precision P of Table 1 (R160). -/
def specP (f : SfuFn) : FloatSpec := { specFp32 with p := f.prec }

/-! The Iahan compatibility mode. -/

/-- The five cores of R162. -/
inductive Core5 where
  | e2 | l2 | rc | rs0 | rs1
  deriving DecidableEq, Repr

/-- c · √(num / den) · 2^26 to the nearest integer, for c = cn / cd. -/
def rootCoef (cn cd num den : Nat) : Nat :=
  let q := Nat.sqrt (cn * cn * num * 2 ^ 172 / (cd * cd * den))
  roundDiv false q (2 ^ 60)

/-- A fixed-point value times 2^26 to the nearest integer. -/
def fxCoef (v : Nat) : Nat := roundDiv false v (2 ^ (fxN - 26))

/-- A0[j], A1[j] and A2[j] of R162, with 1 + m_j = w / 128. -/
def coreCoef (c : Core5) (j : Nat) : Int × Int × Int :=
  let w := 129 + 2 * j
  match c with
  | .e2 =>
    let g := expTerms 75 1 fxOne ((2 * j + 1) * fxLn2 / 128)
    let g1 := g * fxLn2 / fxOne
    (fxCoef g, fxCoef g1, fxCoef (g1 * fxLn2 / (2 * fxOne)))
  | .l2 =>
    (fxCoef (lnFx w 128 * fxOne / fxLn2), fxCoef (128 * fxOne * fxOne / (w * fxLn2)),
     -(fxCoef (128 * 128 * fxOne * fxOne / (2 * w * w * fxLn2)) : Int))
  | .rc =>
    (roundDiv false (2 ^ 26 * 128) w, -(roundDiv false (2 ^ 26 * 128 ^ 2) (w ^ 2) : Int), roundDiv false (2 ^ 26 * 128 ^ 3) (w ^ 3))
  | .rs0 => (rootCoef 1 1 128 w, -(rootCoef 1 2 (128 ^ 3) (w ^ 3) : Int), rootCoef 3 8 (128 ^ 5) (w ^ 5))
  | .rs1 => (rootCoef 1 1 64 w, -(rootCoef 1 1 (64 ^ 3) (w ^ 3) : Int), rootCoef 3 2 (64 ^ 5) (w ^ 5))

/-- core(g, U) of R162. -/
def core5 (c : Core5) (u : Nat) : Int :=
  let a := coreCoef c (u / 2 ^ 17)
  let d : Int := ((u % 2 ^ 17 : Nat) : Int) - 2 ^ 16
  a.1 + (a.2.1 * d) / 2 ^ 23 + (a.2.2 * d * d) / 2 ^ 46

/-- v · 2^e for an integer v. -/
def valPow (v : Int) (e : Int) : Val := (Val.ofInt v).scale e

/-- e and F of R163 for a positive magnitude. -/
def ieF (m : Nat) (e : Int) : Int × Nat :=
  let k := m.log2
  ((k : Int) + e, (if k ≤ 23 then m * 2 ^ (23 - k) else m / 2 ^ (k - 23)) - 2 ^ 23)

def iRecip (md : Modes) (s : Bool) (m : Nat) (e : Int) : Num Val := do
  let p := ieF m e
  let v ← rnd32 md (valPow (core5 .rc p.2) (-26 - p.1))
  return if s then v.neg else v

def iRsqrt (md : Modes) (m : Nat) (e : Int) : Num Val :=
  let p := ieF m e
  if p.1 % 2 = 0 then rnd32 md (valPow (core5 .rs0 p.2) (-26 - p.1 / 2))
  else rnd32 md (valPow (core5 .rs1 p.2) (-26 - (p.1 - 1) / 2))

def iLog2 (md : Modes) (m : Nat) (e : Int) : Num Val :=
  let p := ieF m e
  if p.2 = 0 then rnd32 md (Val.ofInt p.1)
  else rnd32 md (valPow (p.1 * 2 ^ 26 + core5 .l2 p.2) (-26))

/-- ev(LOG2, x), with the flags of its own rounding kept by the caller's choice. -/
def iExp2 (md : Modes) (s : Bool) (m : Nat) (e : Int) : Num Val :=
  if beyond m e 2000 then rnd32 md (.fin false 1 (if s then -2000 else 2000))
  else
    let x : Int := if s then -(m : Int) else m
    let n := if 0 ≤ e then x * 2 ^ e.toNat else x / 2 ^ (-e).toNat
    let u := if 0 ≤ e then 0 else ((x - n * 2 ^ (-e).toNat) * 2 ^ 23 / 2 ^ (-e).toNat).toNat
    rnd32 md (valPow (core5 .e2 u) (n - 26))

/-- ev() of R163 for one of the functions without nested calls. -/
def evBase (f : SfuFn) (md : Modes) (x : Val) : Num Val :=
  match sfuTable f x with
  | some (v, _) => return v
  | none =>
    match x with
    | .fin s m e =>
      match f with
      | .recip => iRecip md s m e
      | .rsqrt => iRsqrt md m e
      | .log2 => iLog2 md m e
      | .exp2 => iExp2 md s m e
      | _ => return .nan
    | _ => return .nan

def log2e : Val := readFloat specFp32 false 0x3FB8AA3B
def ln2c : Val := readFloat specFp32 false 0x3F317218

/-- round(FP32, a × b) and round(FP32, a + b) as inner roundings. -/
def qmul (md : Modes) (a b : Val) : Num Val := quiet (mul32 md a b)
def qadd (md : Modes) (a b : Val) : Num Val := quiet (add32 md a b)

def evLog (md : Modes) (x : Val) : Num Val :=
  match sfuTable .log x with
  | some (v, _) => return v
  | none => do
    let l ← quiet (evBase .log2 md x)
    mul32 md l ln2c

def evExp (md : Modes) (x : Val) : Num Val :=
  match sfuTable .exp x with
  | some (v, _) => return v
  | none => do
    let t ← qmul md x log2e
    evBase .exp2 md t

def evSigmoid (md : Modes) (x : Val) : Num Val :=
  match sfuTable .sigmoid x with
  | some (v, _) => return v
  | none => do
    let t ← quiet (evExp md x.neg)
    let u ← qadd md (.fin false 1 0) t
    evBase .recip md u

/-- iahan(f, x) for x rounded to FP32 and not listed in Table 2 (R163). -/
def iahan (f : SfuFn) (md : Modes) (x : Val) : Num Val :=
  match f with
  | .recip => evBase .recip md x
  | .rsqrt => evBase .rsqrt md x
  | .log2 => evBase .log2 md x
  | .exp2 => evBase .exp2 md x
  | .sqrt => do
    let r ← quiet (evBase .rsqrt md x)
    mul32 md x r
  | .log => evLog md x
  | .exp => evExp md x
  | .sigmoid => evSigmoid md x
  | .tanh => do
    let t ← qmul md (.fin false 2 0) x
    let g ← quiet (evSigmoid md t)
    add32 md (g.scale 1) (.fin true 1 0)
  | .softplus =>
    if x.cmp (.fin false 20 0) = .gt then return x
    else if x.cmp (.fin true 16 0) = .lt then evExp md x
    else do
      let t ← quiet (evExp md x)
      let u ← qadd md (.fin false 1 0) t
      let w ← evLog md u
      match w.cmp (.fin false 0 0) with
      | .gt => return w
      | _ => return .fin false 0 0
  | .sinpi => return .nan
  | .cospi => return .nan

/-- The FP32 result of a function in the mode SFUM selects (R160, R163, R164). A Table 2 value of IAHAN mode enters
the output stage through round() (R157). -/
def sfu32 (f : SfuFn) (iah : Bool) (md : Modes) (x : Val) : Num Val :=
  let md := { md with rtz := false }
  if iah then do
    let x ← quiet (rnd32 md x)
    match sfuTable f x with
    | some (v, inv) => do
      if inv then raiseInvalid
      rnd32 md v
    | none => do
      let v ← iahan f md x
      rnd32 md v
  else sfuNative f (specP f) md x

/-- The float formats whose NATIVE result is rounded once, directly (R159). -/
def Fmt.sfuDirect (f : Fmt) : Bool :=
  match f with
  | .fp16 | .bf16 | .e4m3 | .e5m2 => true
  | _ => false

end Sys2Proof.Machine
end

