-- ==== Sys2Proof/Machine/Vector.lean ====
section
/-!
DEFINITION. The vector engine's operations, masks and reductions (R131, R135 to R150, file 06).
-/

namespace Sys2Proof.Machine

/-- The operations of Table 5 of R143. -/
inductive Vop where
  | convert | add | sub | mul | muladd | max | min | abs | neg | cmp | select | sfu | pow2 | rsum | rmax | rmin
  deriving DecidableEq, Repr

def Vop.ofCode : Nat → Option Vop
  | 1 => some .convert | 2 => some .add | 3 => some .sub | 4 => some .mul | 5 => some .muladd | 6 => some .max
  | 7 => some .min | 8 => some .abs | 9 => some .neg | 10 => some .cmp | 11 => some .select | 12 => some .sfu
  | 13 => some .pow2 | 16 => some .rsum | 17 => some .rmax | 18 => some .rmin | _ => none

/-- The sources A, B and C that an operation needs (Table 5). -/
def Vop.needs : Vop → Bool × Bool × Bool
  | .convert | .abs | .neg | .sfu | .rsum | .rmax | .rmin => (true, false, false)
  | .add | .sub | .mul | .max | .min | .cmp | .pow2 => (true, true, false)
  | .muladd | .select => (true, true, true)

def Vop.isReduction : Vop → Bool
  | .rsum | .rmax | .rmin => true
  | _ => false

def Vop.isConvert : Vop → Bool
  | .convert | .pow2 => true
  | _ => false

/-- The AUX values an operation admits (R143, R144, R147, R155). -/
def Vop.auxOk (v : Vop) (sfum : Bool) (aux : Nat) : Bool :=
  match v with
  | .sfu => match SfuFn.ofCode aux with
    | some .sinpi => !sfum
    | some .cospi => !sfum
    | some _ => true
    | none => false
  | .cmp => aux ≤ 5
  | .rsum | .rmax | .rmin => 0 < aux && aux < 16
  | _ => aux == 0

/-- A VE operation ready to run: destination and sources resolved, MODE fields, captured scalars. -/
structure VeOp where
  vop : Vop
  aux : Nat
  md : Modes
  maskz : Bool
  dst : Desc
  a : Option VSrc
  b : Option VSrc
  c : Option VSrc
  mask : Option Desc
  deriving DecidableEq, Repr

/-- R145: the larger (or smaller) of two values; a NaN gives NaN, and -0 is below +0. -/
def pick (big : Bool) (x y : Sv) : Sv :=
  if x.val.isNaN || y.val.isNaN then .flt .nan
  else match x.val.cmp y.val with
    | .gt => if big then x else y
    | .lt => if big then y else x
    | .eq =>
      if x.val.isZero && (x.val.sign != y.val.sign) then (if x.val.sign == big then y else x) else x

/-- R144. -/
def predicate (aux : Nat) (x y : Val) : Bool :=
  if x.isNaN || y.isNaN then aux == 1
  else match aux, x.cmp y with
    | 0, o => o == .eq
    | 1, o => o != .eq
    | 2, o => o == .lt
    | 3, o => o != .gt
    | 4, o => o == .gt
    | _, o => o != .lt

/-- c ≠ 0 under R53; a NaN compares unequal. -/
def Sv.nonzero (x : Sv) : Bool := !x.val.isZero

/-- a × 2^k; beyond ±1200 every destination gives the same result, so k is clamped there (R146). -/
def powScale (a k : Sv) : Sv :=
  match k with
  | .int n => .flt (a.val.scale (max (-1200) (min 1200 n)))
  | .flt _ => .flt .nan

/-- The result of one active element, exact but for the rounding points of Table 5. -/
def veElem (o : VeOp) (iah : Bool) (a b c : Sv) : Num Sv :=
  let md := { o.md with rtz := false }
  match o.vop, a, b, c with
  | .add, .int x, .int y, _ => return .int (x + y)
  | .sub, .int x, .int y, _ => return .int (x - y)
  | .mul, .int x, .int y, _ => return .int (x * y)
  | .muladd, .int x, .int y, .int z => return .int (x * y + z)
  | .abs, .int x, _, _ => return .int x.natAbs
  | .neg, .int x, _, _ => return .int (-x)
  | .convert, _, _, _ => return a
  | .add, _, _, _ => do
    let r ← addExact a.val b.val
    return .flt r
  | .sub, _, _, _ => do
    let r ← addExact a.val b.val.neg
    return .flt r
  | .mul, _, _, _ => do
    let r ← mulExact a.val b.val
    return .flt r
  | .muladd, _, _, _ => do
    let p ← mul32 md a.val b.val
    let r ← addExact p c.val
    return .flt r
  | .max, _, _, _ => return pick true a b
  | .min, _, _, _ => return pick false a b
  | .abs, _, _, _ => return .flt a.val.abs
  | .neg, _, _, _ => return .flt a.val.neg
  | .cmp, _, _, _ => return .int (if predicate o.aux a.val b.val then 1 else 0)
  | .select, _, _, _ => return if c.nonzero then a else b
  | .pow2, _, _, _ => return powScale a b
  | .sfu, _, _, _ =>
    match SfuFn.ofCode o.aux with
    | some f => do
      let r ← match (if !iah && !o.dst.mx && o.dst.fmt.sfuDirect then o.dst.fmt.float else none) with
        | some sp => sfuNative f sp md a.val
        | none => sfu32 f iah md a.val
      return .flt r
    | none => return .flt .nan
  | .rsum, _, _, _ => return a
  | .rmax, _, _, _ => return a
  | .rmin, _, _, _ => return a

/-- The elements of one issue: 256 in the VE, 16 from the SFU pipes (R136, R151, R505). DESIGN CHOICE (log entry 91): an issue is the
next 16 or 256 destination elements in the linear order, inactive ones counted among them. -/
def VeOp.issue (o : VeOp) : Nat := if o.vop == .sfu then 16 else 256

/-- One element of an elementwise operation, mask first (R148, R149). -/
def veOne (o : VeOp) (iah : Bool) (sc : List Word) (ix : List Nat) : OpM (List Nat × Res) := do
  let act ← match o.mask with
    | some m => do
      let c ← opElemCode m ix
      pure (c != 0)
    | none => pure true
  if !act then return (ix, if o.maskz then .zero else .keep)
  else do
    let rd (s : Option VSrc) : OpM Sv := match s with
      | some s => opSource sc o.md.sat ix s
      | none => pure (.int 0)
    let a ← rd o.a
    let b ← rd o.b
    let c ← rd o.c
    let r ← liftNum (veElem o iah a b c)
    return (ix, .val r)

/-- The source indices of one destination element of a reduction: dimension j runs when bit j of AUX is set (R147). -/
def reduceIndices (aux : Nat) (src : Desc) (ix : List Nat) : List (List Nat) :=
  let rng (k : Nat) : List Nat := if bitOf aux k then List.range (src.count k) else [natAt ix k]
  (rng 3).flatMap fun i3 => (rng 2).flatMap fun i2 => (rng 1).flatMap fun i1 => (rng 0).map fun i0 => [i0, i1, i2, i3]

/-- RMAX and RMIN over terms that may be absent (R145, R150). -/
def pickAll (big : Bool) : List (Option Sv) → Option Sv
  | [] => none
  | none :: r => pickAll big r
  | some x :: r => match pickAll big r with
    | some y => some (pick big x y)
    | none => some x

/-- The value of the terms of one reduction (R147): FP32-rounded float terms under R71, integers under R74. -/
def reduceTerms (o : VeOp) (isInt : Bool) (ts : List (Option Sv)) : Num (Option Sv) :=
  let md := { o.md with rtz := false }
  match o.vop with
  | .rmax => return pickAll true ts
  | .rmin => return pickAll false ts
  | _ =>
    if isInt then reduce md .int32 ts none
    else do
      let rs ← numMap (fun t => match t with
        | some v => do
          let r ← rnd32 md v.val
          return some (Sv.flt r)
        | none => return none) ts
      reduce md .fp32 rs none

/-- One destination element of a reduction; terms all absent make it inactive (R150). -/
def reduceOne (o : VeOp) (src : Desc) (ix : List Nat) : OpM (List Nat × Res) := do
  let ts ← opMap (fun j => do
    let act ← match o.mask with
      | some m => do
        let c ← opElemCode m j
        pure (c != 0)
      | none => pure true
    if act then do
      let v ← opElem o.md.sat src j
      return some v
    else return none) (reduceIndices o.aux src ix)
  let r ← liftNum (reduceTerms o src.fmt.isInt ts)
  match r with
  | some v => return (ix, .val v)
  | none => return (ix, if o.maskz then .zero else .keep)

/-- A reduction over no element (R73). -/
def VeOp.emptyReduction (o : VeOp) : Bool :=
  o.vop.isReduction && match o.a with
    | some (.desc s) => s.numel == 0
    | _ => false

/-- One VE operation: reads, arithmetic, one conversion, stores (R135 to R150). CMP raises no flag (R144), and a reduction of
length 0 writes no element (R73). -/
def runVe (o : VeOp) (iah : Bool) (sc : List Word) (nt : Bool) : OpM Unit := do
  if o.dst.numel = 0 || o.emptyReduction then return ()
  let rs ← match o.vop.isReduction, o.a with
    | true, some (.desc s) => opMap (reduceOne o s) o.dst.indices
    | _, _ => opMap (veOne o iah sc) o.dst.indices
  if o.vop == .cmp && !o.dst.mx then do
    let c ← liftNum (quiet (convertResults o.dst o.md rs))
    opWrite nt o.issue o.dst c.1
  else opResults nt o.issue o.dst o.md rs

/-! The checks of a VE record (R17, R131, R134, R137, R138, R140, R142, R143, R146 to R149, R155). -/

/-- The operand table of an operation: the descriptors' 48-byte images. -/
abbrev DescTab := List (List Byte)

def tabAt (t : DescTab) (i : Nat) : Option (List Byte) := (t.drop i).head?

/-- Fields of a 16-byte VE record (R142). -/
def recVop (r : List Byte) : Option Vop := Vop.ofCode (byteAt r 0)
def recModes (r : List Byte) : Modes := ⟨bitOf (byteAt r 1) 0, bitOf (byteAt r 1) 1, bitOf (byteAt r 1) 2⟩
def recKind (r : List Byte) (k : Nat) : Nat := (byteAt r 14 / 4 ^ k) % 4
def recSrc (r : List Byte) (k : Nat) : Nat := fieldAt r (6 + 2 * k) 2

/-- A source operand of a record. -/
def recOperand (t : DescTab) (r : List Byte) (k : Nat) : Option VSrc :=
  let v := recSrc r k
  match recKind r k with
  | 1 => (tabAt t v).map fun b => .desc (descOf b)
  | 2 => (Fmt.ofCode (bitsOf v 11 8)).map fun f => .scalar (v % 64) f
  | _ => none

/-- The offsets within the record of a source operand's offending fields. -/
def recSrcBad (t : DescTab) (v : Vop) (need : Bool) (r : List Byte) (k : Nat) : Bad :=
  let s := recSrc r k
  match recKind r k with
  | 0 => badIf need 14 ++ badIf (s != 0) (6 + 2 * k)
  | 1 => badIf (!need) 14 ++ badIf (t.length ≤ s) (6 + 2 * k)
  | 2 => badIf (!need || v.isReduction) 14
      ++ badIf (bitsOf s 7 6 != 0 || 4096 ≤ s || !scalarFmtOk (bitsOf s 11 8)) (6 + 2 * k)
  | _ => [14]

/-- R148: the mask's formats. -/
def maskFmt (f : Fmt) : Bool := f == .uint8 || f == .int8 || f == .uint4

/-- R146: k comes from INT32, INT8 or INT4. -/
def pow2Fmt (f : Fmt) : Bool := f == .int32 || f == .int8 || f == .int4

def VSrc.fmt : VSrc → Fmt
  | .desc d => d.fmt
  | .scalar _ f => f

/-- The offending fields of a VE record: `off` is the record's own offset, `dOff` gives the offset of a descriptor. -/
def recordBad (t : DescTab) (sfum : Bool) (allowed : Vop → Bool) (off : Nat) (dOff : Nat → Nat) (r : List Byte) : Bad :=
  let mode := byteAt r 1
  let masked := bitOf mode 4
  let dst := fieldAt r 4 2
  let mk := fieldAt r 12 2
  match recVop r with
  | none => [off]
  | some v =>
    let need := v.needs
    let own : Bad :=
      badIf (!allowed v) 0 ++ badIf (32 ≤ mode || (bitOf mode 2 && !v.isConvert)) 1
      ++ badIf (!v.auxOk sfum (byteAt r 2)) 2 ++ badIf (byteAt r 3 != 0) 3
      ++ badIf (t.length ≤ dst) 4
      ++ recSrcBad t v need.1 r 0 ++ recSrcBad t v need.2.1 r 1 ++ recSrcBad t v need.2.2 r 2
      ++ badIf (masked && t.length ≤ mk) 12 ++ badIf (64 ≤ byteAt r 14) 14 ++ badIf (byteAt r 15 != 0) 15
    let idx := [some dst, if recKind r 0 == 1 then some (recSrc r 0) else none,
      if recKind r 1 == 1 then some (recSrc r 1) else none, if recKind r 2 == 1 then some (recSrc r 2) else none,
      if masked then some mk else none].filterMap id
    let db : Bad := idx.flatMap fun i => match tabAt t i with
      | some b => (descBad b).map (dOff i + ·)
      | none => []
    if own != [] || db != [] then own.map (off + ·) ++ db
    else match tabAt t dst with
        | none => [off + 4]
        | some db =>
          let d := descOf db
          let ops := [recOperand t r 0, recOperand t r 1, recOperand t r 2]
          let src (k : Nat) : Option VSrc := (ops.drop k).head?.getD none
          let countsBad (k : Nat) : Bool := match src k with
            | some (.desc s) =>
              if v.isReduction then
                (List.range 4).any fun j => d.count j != (if bitOf (byteAt r 2) j then 1 else s.count j)
              else s.counts != d.counts
            | _ => false
          let shape := match v.isReduction, src 0 with
            | true, some (.desc s) => s.counts
            | _, _ => d.counts
          let lap (k : Nat) : Bool := match src k with
            | some (.desc s) => !(d.same s) && d.overlaps s
            | _ => false
          let maskD := if masked then (tabAt t mk).map descOf else none
          let maskBad := match maskD with
            | some m => m.mx || !maskFmt m.fmt || m.counts != shape || (!(d.same m) && d.overlaps m)
            | none => false
          let powBad := v == .pow2 && (match src 1 with
            | some s => !pow2Fmt s.fmt
            | none => true)
          (badIf (d.mx && (bitOf mode 2 || (masked && !bitOf mode 3))) 1
            ++ badIf (v.isReduction && countsBad 0) 4
            ++ badIf ((!v.isReduction && countsBad 0) || lap 0) 6 ++ badIf (countsBad 1 || lap 1 || powBad) 8
            ++ badIf (countsBad 2 || lap 2) 10 ++ badIf maskBad 12).map (off + ·)
          ++ (strideZeroBad d).map (dOff dst + ·)

/-- The operation of a record that passed its checks. -/
def veOf (t : DescTab) (r : List Byte) : Option VeOp :=
  match recVop r, tabAt t (fieldAt r 4 2) with
  | some v, some d => some
    { vop := v, aux := byteAt r 2, md := recModes r, maskz := bitOf (byteAt r 1) 3, dst := descOf d
      a := recOperand t r 0, b := recOperand t r 1, c := recOperand t r 2
      mask := if bitOf (byteAt r 1) 4 then (tabAt t (fieldAt r 12 2)).map descOf else none }
  | _, _ => none

/-- The records of OP_VECTOR run in order (R139, R312). -/
def runRecords (t : DescTab) (iah : Bool) (sc : List Word) (nt : Bool) : List (List Byte) → OpM Unit
  | [] => pure ()
  | r :: rs => do
    match veOf t r with
    | some o => runVe o iah sc nt
    | none => pure ()
    runRecords t iah sc nt rs

end Sys2Proof.Machine
end

