-- ==== Sys2Proof/Machine/Matmul.lean ====
section
/-!
DEFINITION. Tensor image layout, weights through the WFU expander, the gate forms and matrix products
(R62, R84 to R92, R98 to R100, R127 to R130, R293, R312, files 04, 06 and 13).
-/

namespace Sys2Proof.Machine

/-! The layout of an uncompressed tensor image (R293). -/

/-- What a TENSOR_PUT declares of a tensor (Table 4 of R292). -/
structure Shape where
  fmt : Fmt
  mx : Bool
  grouped : Bool
  gshift : Nat
  itable : Nat
  c : List Nat
  deriving DecidableEq, Repr

def Shape.count (s : Shape) (i : Nat) : Nat := natAt s.c i
/-- NR = C1 × C2 × C3. -/
def Shape.rows (s : Shape) : Nat := s.count 1 * s.count 2 * s.count 3
/-- RB, the bytes of one row. -/
def Shape.rowBytes (s : Shape) : Nat := packedBytes s.fmt.width (s.count 0)
/-- PT, the row pitch. -/
def Shape.pitch (s : Shape) : Nat := roundUp s.rowBytes 16
def Shape.blocks (s : Shape) : Nat := ceilDiv (s.count 0) 32
def Shape.groups (s : Shape) : Nat := ceilDiv (s.count 0) (2 ^ s.gshift)
/-- The first byte after the element array: MX scales or group scales. -/
def Shape.scaleOff (s : Shape) : Nat := s.rows * s.pitch
/-- The zero points, at the next multiple of 16 after the group scales. -/
def Shape.zeroOff (s : Shape) : Nat := roundUp (s.scaleOff + s.rows * s.groups * 2) 16
/-- The image size of R293. -/
def Shape.size (s : Shape) : Nat :=
  if s.grouped then roundUp (s.zeroOff + ceilDiv (s.rows * s.groups * s.fmt.width) 8) 16
  else if s.mx then roundUp (s.scaleOff + s.rows * s.blocks) 16
  else s.scaleOff

/-! Weights (R96 to R100). -/

/-- Where a tensor's decoded bytes are read. -/
inductive WSrc where
  /-- From the tensor itself: the decoded image, and the damaged byte ranges (first byte, count, and whether the damage is a
  failed block). -/
  | image (img : List Byte) (bad : List (Nat × Nat × Bool))
  /-- From staging buffers that are full: decoded byte, count and scratchpad address of each (R93, R248). -/
  | staged (segs : List (Nat × Nat × Nat))
  deriving DecidableEq, Repr

/-- A weight as the expander meets it: its form, where its bytes are, and the IDX4 table of BF16 codes. -/
structure Weight where
  handle : Nat
  shape : Shape
  src : WSrc
  table : List Nat
  deriving DecidableEq, Repr

/-- The scratchpad address of a decoded byte. -/
def stagedAt (segs : List (Nat × Nat × Nat)) (i : Nat) : Option Nat :=
  (segs.find? fun g => decide (g.1 ≤ i) && decide (i < g.1 + g.2.1)).map fun g => g.2.2 + (i - g.1)

/-- Bytes that the expander reads (R100): a byte of no full buffer is never read, since the step waits for it. -/
def Weight.bytes (w : Weight) (off n : Nat) : OpM (List Byte) :=
  match w.src with
  | .image img bad => match bad.find? fun b => decide (off < b.1 + b.2.1) && decide (b.1 < off + n) with
    | some b => opFail (if b.2.2 then .blockCheck w.handle b.1 else .hbmWord w.handle b.1)
    | none => return slice img off n
  | .staged segs => do
    let bs ← opMap (fun i => match stagedAt segs (off + i) with
      | some a => opRead a 1
      | none => pure [0]) (List.range n)
    return bs.flatten

/-- The decoded bytes that the expander reads of columns of a weight for the K positions from `k0` to before `k1`, with their
scales and zero points (R100). -/
def Shape.needsOf (s : Shape) (ns : List Nat) (k0 k1 : Nat) : List (Nat × Nat) :=
  let bytes (lo hi w : Nat) : Nat × Nat := (lo * w / 8, ceilDiv (hi * w) 8 - lo * w / 8)
  let g := 2 ^ s.gshift
  ns.flatMap fun n =>
    let c := bytes k0 k1 s.fmt.width
    let z := bytes (n * s.groups + k0 / g) (n * s.groups + ceilDiv k1 g) s.fmt.width
    (n * s.pitch + c.1, c.2) ::
      (if s.grouped then [(s.scaleOff + 2 * (n * s.groups + k0 / g), 2 * (ceilDiv k1 g - k0 / g)), (s.zeroOff + z.1, z.2)]
        else if s.mx then [(s.scaleOff + n * s.blocks + k0 / 32, ceilDiv k1 32 - k0 / 32)] else [])

/-- The decoded bytes that the expander reads of a whole weight (R100). -/
def Shape.needs (s : Shape) : List (Nat × Nat) := s.needsOf (List.range s.rows) 0 (s.count 0)

/-- How many bytes from byte `i` on lie in staged buffers, at most `n`; `m` bounds the buffers that are looked at. -/
def stagedRun (segs : List (Nat × Nat × Nat)) : Nat → Nat → Nat → Nat
  | 0, _, _ => 0
  | m + 1, i, n => match segs.find? fun g => decide (g.1 ≤ i) && decide (i < g.1 + g.2.1) with
    | none => 0
    | some g =>
      let k := min n (g.1 + g.2.1 - i)
      if k = n then n else k + stagedRun segs m (i + k) (n - k)

/-- A range of decoded bytes stands in staged buffers. -/
def stagedCovers (segs : List (Nat × Nat × Nat)) (r : Nat × Nat) : Bool :=
  r.2 == 0 || stagedRun segs (segs.length + 1) r.1 r.2 == r.2

/-- The code of element `i` of a packed array that starts at image byte `off` (R45). -/
def Weight.code (w : Weight) (off i : Nat) : OpM Nat := do
  let wd := w.shape.fmt.width
  if wd = 4 then
    let b ← w.bytes (off + i / 2) 1
    return packedGet b 4 (i % 2)
  else if wd = 6 then
    let b ← w.bytes (off + 3 * (i / 4) + 6 * (i % 4) / 8) (if i % 4 = 0 || i % 4 = 3 then 1 else 2)
    return (leNat b / 2 ^ (6 * (i % 4) % 8)) % 64
  else
    let b ← w.bytes (off + i * (wd / 8)) (wd / 8)
    return leNat b

/-- The value that the expander presents for column n and position k (R62, R91, R99). -/
def Weight.elem (w : Weight) (md : Modes) (n k : Nat) : OpM Sv := do
  let s := w.shape
  let q ← w.code (n * s.pitch) k
  if s.grouped then
    let gi := n * s.groups + k / 2 ^ s.gshift
    let sb ← w.bytes (s.scaleOff + 2 * gi) 2
    let z ← w.code s.zeroOff gi
    let v ← liftNum (expandGrouped md (readInt s.fmt q) (readInt s.fmt z) (readFloat specBf16 md.sat (leNat sb)))
    return .flt v
  else if s.fmt == .idx4 then return .flt (readFloat specBf16 md.sat (natAt w.table q))
  else if s.mx then
    let sc ← w.bytes (s.scaleOff + n * s.blocks + k / 32) 1
    return .flt (readMx s.fmt md.sat (leNat sc) q)
  else return readCode s.fmt md.sat q

/-- The B operand: scratchpad without expansion, or a weight through the WFU (R92). -/
inductive BSrc where
  | spad (d : Desc)
  | weight (w : Weight)
  deriving DecidableEq, Repr

/-- The value of B for column n and position k. -/
def BSrc.elem (b : BSrc) (md : Modes) (n k : Nat) : OpM Sv :=
  match b with
  | .spad d => opElem md.sat d [k, n, 0, 0]
  | .weight w => w.elem md n k

/-- The accumulator of a pair of operands (R63). -/
def accOf (a : Desc) (b : BSrc) : Option Acc :=
  match b with
  | .spad d => pairAcc a.fmt d.fmt false
  | .weight w => pairAcc a.fmt w.shape.fmt (w.shape.grouped || w.shape.fmt == .idx4)

/-! The gate control block and the gate forms (R127 to R129). -/

structure Gate where
  form : Nat
  psrc : Bool
  sreg : Nat
  zfmt : Fmt
  md : Modes
  pbase : Nat
  zbase : Nat
  zpitch : Nat
  deriving DecidableEq, Repr

def gateOf (b : List Byte) : Gate :=
  let w := fieldAt b 0 4
  { form := w % 8, psrc := bitOf w 3, sreg := bitsOf w 9 4, zfmt := (Fmt.ofCode (bitsOf w 19 16)).getD .fp32
    md := ⟨bitOf w 20, bitOf w 21, false⟩
    pbase := fieldAt b 4 4 % 2 ^ 25, zbase := fieldAt b 8 4 % 2 ^ 25, zpitch := fieldAt b 12 4 }

/-- Forms that read v, and forms that read z (R127). -/
def Gate.usesV (g : Gate) : Bool := g.form == 1 || g.form == 5
def Gate.usesZ (g : Gate) : Bool := g.form == 6 || g.form == 7

/-- The byte ranges of v and z for an M × N output. -/
def Gate.ranges (g : Gate) (m n : Nat) : List (Nat × Nat) :=
  (if g.usesV && !g.psrc && 0 < n then [(g.pbase, 4 * n)] else [])
  ++ (if g.usesZ && 0 < n then (List.range m).map fun i => (g.zbase + i * g.zpitch, n * (g.zfmt.width / 8)) else [])

/-- Offending fields of a gate control block (R17, R127). `ok` tells whether a byte range lies in the footprint (R200). -/
def gateBad (b : List Byte) (m n : Nat) (ok : Nat → Nat → Bool) : Bad :=
  let w := fieldAt b 0 4
  let g := gateOf b
  let zc := bitsOf w 19 16
  let zEnd := g.zbase + (m - 1) * g.zpitch + n * (g.zfmt.width / 8)
  badIf (bitsOf w 15 10 != 0) 1 ++ badIf (bitsOf w 23 22 != 0) 2 ++ badIf (bitsOf w 31 24 != 0) 3
  ++ badIf (2 ≤ byteAt b 7) 7 ++ badIf (2 ≤ byteAt b 11) 11
  ++ (if g.usesZ then
        badIf (3 ≤ zc) 2 ++ badIf (g.zpitch % 16 != 0) 12
        ++ badIf (0 < m && 0 < n && (spadSize < zEnd || (zEnd ≤ spadSize && (g.ranges m n).any fun r => !ok r.1 r.2))) 8
      else [])
  ++ (if g.usesV && !g.psrc then
        badIf (g.pbase % 4 != 0 || (0 < n && (spadSize < g.pbase + 4 * n || !ok g.pbase (4 * n)))) 4
      else [])

/-- gate() of R129 on FP32 values. -/
def gateForm (iah : Bool) (g : Gate) (x v z : Val) : Num Val :=
  let md := g.md
  match g.form with
  | 1 => mul32 md x v
  | 2 => sfu32 .sigmoid iah md x
  | 3 => do
    let s ← sfu32 .sigmoid iah md x
    mul32 md x s
  | 4 => sfu32 .softplus iah md x
  | 5 => do
    let s ← sfu32 .softplus iah md x
    let t ← mul32 md s v
    sfu32 .exp iah md t.neg
  | 6 => do
    let s ← sfu32 .sigmoid iah md z
    let u ← mul32 md z s
    mul32 md x u
  | 7 => mul32 md x z
  | _ => return x

/-- The value handed to the conversion for output (m, n): G0 passes the accumulator unchanged (R129). -/
def gateElem (iah : Bool) (sc : List Word) (g : Gate) (m n : Nat) (acc : Sv) : OpM Sv := do
  if g.form = 0 then return acc
  let x ← liftNum (rnd32 g.md acc.val)
  let v ← if g.usesV then
      if g.psrc then pure (readFloat specFp32 g.md.sat (((sc.drop g.sreg).head?.getD 0).toNat % 2 ^ 32))
      else do
        let b ← opRead (g.pbase + 4 * n) 4
        pure (readFloat specFp32 g.md.sat (leNat b))
    else pure (.fin false 0 0)
  let z ← if g.usesZ then do
      let k := g.zfmt.width / 8
      let b ← opRead (g.zbase + m * g.zpitch + n * k) k
      pure (readCode g.zfmt g.md.sat (leNat b)).val
    else pure (.fin false 0 0)
  let r ← liftNum (gateForm iah g x v z)
  return .flt r

/-! OP_MATMUL (R84 to R91, R312). -/

inductive Addend where
  | none
  /-- A bias of N values, down each column. -/
  | bias (d : Desc)
  /-- Accumulate onto C. -/
  | existing
  deriving DecidableEq, Repr

structure MatOp where
  a : Desc
  b : BSrc
  c : Desc
  add : Addend
  acc : Acc
  gate : Gate
  deriving DecidableEq, Repr

/-- The addend of output (m, n) in the accumulator format (R71, R89). -/
def matAddend (o : MatOp) (m n : Nat) : OpM (Option Sv) := do
  match o.add with
  | .none => return none
  | .bias d =>
    let v ← opElem o.gate.md.sat d [n, 0, 0, 0]
    let r ← liftNum (convAddend o.gate.md o.acc v)
    return some r
  | .existing =>
    let v ← opElem o.gate.md.sat o.c [n, m, 0, 0]
    let r ← liftNum (convAddend o.gate.md o.acc v)
    return some r

/-- The columns of B, K values each. -/
def matColumns (o : MatOp) (k n : Nat) : OpM (List (List Sv)) :=
  opMap (fun j => opMap (fun i => o.b.elem o.gate.md j i) (List.range k)) (List.range n)

/-- One output row. -/
def matRow (o : MatOp) (iah : Bool) (sc : List Word) (cols : List (List Sv)) (k m : Nat) : OpM (List (List Nat × Res)) := do
  let row ← opElems o.gate.md.sat o.a ((List.range k).map fun i => [i, m, 0, 0])
  opMap (fun p => do
    let ad ← matAddend o m p.2
    let r ← liftNum (dot o.gate.md o.acc row p.1 ad)
    let v ← gateElem iah sc o.gate m p.2 (r.getD (.int 0))
    return ([p.2, m, 0, 0], Res.val v)) cols.zipIdx

/-- Elements that a DPU takes per ECLK cycle of an operand format after expansion (R25). -/
def dpuLen (f : Fmt) : Nat :=
  match f with
  | .bf16 => 32 | .fp16 => 32 | .idx4 => 32
  | .e2m1 => 128 | .int4 => 128 | .uint4 => 128
  | .fp32 => 32 | .int32 => 32
  | _ => 64

/-- MA steps of a product: K-tiles of the wider operand's length, row tiles and column tiles of 32 (R84, R86, R87). -/
def matSteps (o : MatOp) (k m n : Nat) : Nat :=
  let kb := match o.b with
    | .spad d => dpuLen d.fmt
    | .weight w => if w.shape.grouped then 32 else dpuLen w.shape.fmt
  ceilDiv k (min (dpuLen o.a.fmt) kb) * ceilDiv m 32 * ceilDiv n 32

/-- The whole product: nothing is written when M, N or K is 0 (R86); each drain row of 32 is one store (R505). -/
def runMatmul (o : MatOp) (iah : Bool) (sc : List Word) (nt : Bool) : OpM Unit := do
  let k := o.a.count 0
  let m := o.a.count 1
  let n := o.c.count 0
  if k = 0 || m = 0 || n = 0 then return ()
  opSteps (matSteps o k m n)
  let cols ← matColumns o k n
  let rows ← opMap (matRow o iah sc cols k) (List.range m)
  let outs ← opMap (fun r => do
    let x ← liftNum (convertResults o.c o.gate.md r)
    opLost x.2
    return x.1) rows
  outs.forM fun os => opWrite nt 32 o.c os

/-- Strides that break the layout of R91, unit stride along K and row pitches of whole 16 bytes: offsets in the descriptor. -/
def rowsBad (d : Desc) : Bad :=
  badIf (intAt d.strides 0 != 1) 16 ++ badIf (1 < d.count 1 && (intAt d.strides 1 * d.fmt.width) % 128 != 0) 20

/-- A descriptor stands in the layout of R91. -/
def rowsAligned (d : Desc) : Bool := rowsBad d == []

/-- Some pair of R63 has A's format on its left side. -/
def pairsAny (a : Desc) : Bool := (pairAcc a.fmt .bf16 false).isSome || (pairAcc a.fmt .int8 false).isSome

/-- Offending fields of the 48-byte section of OP_MATMUL. `wsh` is the shape of the weight tensor when B is 0xFFFF, and none
while it is not known. `ok` tells whether a byte range is addressable by this operation (R200, R312). -/
def matmulBad (t : DescTab) (wsh : Option Shape) (off : Nat) (dOff : Nat → Nat) (ok : Nat → Nat → Bool)
    (r : List Byte) : Bad :=
  let f (o : Nat) : Nat := fieldAt r o 2
  let wfu := f 2 == 0xFFFF
  let addk := byteAt r 8
  let wh := fieldAt r 12 4
  let own : Bad :=
    badIf (t.length ≤ f 0) 0 ++ badIf (!wfu && t.length ≤ f 2) 2 ++ badIf (t.length ≤ f 4) 4
    ++ badIf (if addk == 1 then t.length ≤ f 6 else addk ≤ 2 && f 6 != 0xFFFF) 6 ++ badIf (2 < addk) 8
    ++ (match firstNonzero (slice r 9 3) 9 with
        | some i => [i]
        | none => [])
    ++ badIf (wfu == (wh == 0)) 12
    ++ (match firstNonzero (slice r 16 16) 16 with
        | some i => [i]
        | none => [])
  let idx := [f 0, f 4] ++ (if wfu then [] else [f 2]) ++ (if addk = 1 then [f 6] else [])
  let db : Bad := idx.flatMap fun i => match tabAt t i with
    | some b => (descBad b).map (dOff i + ·)
    | none => []
  if own != [] || db != [] then own.map (off + ·) ++ db
  else
      let d (o : Nat) : Option Desc := (tabAt t (f o)).map descOf
      match d 0, d 4 with
      | some a, some c =>
        let k := a.count 0
        let m := a.count 1
        let n := c.count 0
        let b := if wfu then none else d 2
        let x := if addk = 1 then d 6 else none
        let pairBad (acc : Option Acc) (o : Nat) : Bad := badIf acc.isNone (if pairsAny a then o else 0)
        let lap (s : Option Desc) : Bool := match s with
          | some s => c.overlaps s
          | none => false
        let wBad : Bad := match b, wsh with
          | some b, _ => pairBad (pairAcc a.fmt b.fmt false) 2
          | none, some s => badIf (s.c != [k, n, 1, 1]) 12 ++ pairBad (pairAcc a.fmt s.fmt (s.grouped || s.fmt == .idx4)) 12
          | none, none => []
        (badIf (lap (some a)) 0 ++ badIf (lap b) 2 ++ badIf (lap x) 6 ++ wBad).map (off + ·)
        ++ (countBad a [k, m, 1, 1] ++ rowsBad a).map (dOff (f 0) + ·)
        ++ (countBad c [n, m, 1, 1] ++ strideZeroBad c).map (dOff (f 4) + ·)
        ++ (match b with
            | some b => (countBad b [k, n, 1, 1] ++ rowsBad b).map (dOff (f 2) + ·)
            | none => [])
        ++ (match x with
            | some x => (countBad x [n, 1, 1, 1]).map (dOff (f 6) + ·)
            | none => [])
        ++ (gateBad (slice r 32 16) m n ok).map (off + 32 + ·)
      | _, _ => [off]

/-- The operation of a section that passed its checks. -/
def matmulOf (t : DescTab) (w : Option Weight) (r : List Byte) : Option MatOp :=
  let f (o : Nat) : Nat := fieldAt r o 2
  let d (o : Nat) : Option Desc := (tabAt t (f o)).map descOf
  let b : Option BSrc := if f 2 = 0xFFFF then w.map .weight else (d 2).map .spad
  match d 0, b, d 4 with
  | some a, some b, some c =>
    match accOf a b with
    | some acc => some
      { a := a, b := b, c := c, acc := acc, gate := gateOf (slice r 32 16)
        add := match byteAt r 8 with
          | 1 => match d 6 with
            | some x => .bias x
            | none => .none
          | 2 => .existing
          | _ => .none }
    | none => none
  | _, _, _ => none

/-! OP_GATHER (R314). -/

/-- The source rows of a gather: a descriptor, or the rows of an uncompressed tensor in HBM. -/
inductive GSrc where
  | spad (d : Desc)
  | tensor (w : Weight)
  deriving DecidableEq, Repr

structure GatherOp where
  src : GSrc
  idx : Desc
  dst : Desc
  stop : Bool
  fill : Nat
  deriving DecidableEq, Repr

def GSrc.nrows : GSrc → Nat
  | .spad d => d.count 1 * d.count 2 * d.count 3
  | .tensor w => w.shape.rows

/-- The codes of source row `r`, in the order of R136 for the rows of a descriptor. -/
def GSrc.row (s : GSrc) (r n : Nat) : OpM (List Nat) :=
  match s with
  | .spad d =>
    let c1 := d.count 1
    let c2 := d.count 2
    opMap (fun i => opElemCode d [i, r % c1, r / c1 % c2, r / c1 / c2]) (List.range n)
  | .tensor w => opMap (fun i => w.code (r * w.shape.pitch) i) (List.range n)

/-- FIRST and FCOUNT of R314; FIRST is 0xFFFF_FFFF when no index faults. -/
def gatherFaults (nrows : Nat) (idx : List Int) : Nat × Nat :=
  let bad := idx.zipIdx.filter fun p => decide (p.1 < 0) || decide ((nrows : Int) ≤ p.1)
  ((bad.head?.map (·.2)).getD 0xFFFFFFFF, bad.length)

/-- The gather: rows written in issues of 256 elements (R505); in STOP mode only the rows before FIRST. -/
def runGather (o : GatherOp) (nt : Bool) : OpM (Nat × Nat) := do
  let e := o.dst.count 1
  let rl := o.dst.count 0
  if o.dst.numel = 0 then return (0xFFFFFFFF, 0)
  let codes ← opMap (fun i => opElemCode o.idx i) o.idx.indices
  let ix := codes.map (signed 32 ·)
  let fc := gatherFaults o.src.nrows ix
  let live := if o.stop then (ix.take fc.1) else ix
  let rows ← opMap (fun p => do
    let cs ← if 0 ≤ p.1 && p.1 < (o.src.nrows : Int) then o.src.row p.1.toNat rl
             else pure (List.replicate rl (o.fill % 2 ^ o.dst.fmt.width))
    return cs.zipIdx.map fun c => (⟨[c.2, p.2, 0, 0], some c.1, none⟩ : Out)) (live.take e).zipIdx
  opWrite nt 256 o.dst rows.flatten
  return fc

/-- Offending fields of the 32-byte section of OP_GATHER. `tsh` is the shape of the source tensor when the source is
0xFFFF, and none while it is not known; `inPlan` tells that DECL may be nonzero (R314); `home` is the field that names the
tensor. -/
def gatherBad (t : DescTab) (tsh : Option Shape) (inPlan : Bool) (home : Nat) (off : Nat) (dOff : Nat → Nat) (r : List Byte) : Bad :=
  let f (o : Nat) : Nat := fieldAt r o 2
  let ext := f 0 == 0xFFFF
  let own : Bad :=
    badIf (!ext && t.length ≤ f 0) 0 ++ badIf (t.length ≤ f 2) 2 ++ badIf (t.length ≤ f 4) 4
    ++ badIf (2 ≤ byteAt r 6) 6 ++ badIf (byteAt r 7 != 0) 7 ++ badIf (f 16 != 0 && !(ext && inPlan)) 16
    ++ (match firstNonzero (slice r 18 14) 18 with
        | some i => [i]
        | none => [])
  let idx := [f 2, f 4] ++ (if ext then [] else [f 0])
  let db : Bad := idx.flatMap fun i => match tabAt t i with
    | some b => (descBad b).map (dOff i + ·)
    | none => []
  if own != [] || db != [] then own.map (off + ·) ++ db
  else
      let d (o : Nat) : Option Desc := (tabAt t (f o)).map descOf
      match d 2, d 4 with
      | some x, some y =>
        let s := if ext then none else d 0
        let odd (mx : Bool) (ft : Fmt) : Bool := mx || ft.width == 6
        let lap (s : Option Desc) : Bool := match s with
          | some s => y.overlaps s
          | none => false
        let src : Option (Fmt × Nat) := match s, tsh with
          | some s, _ => some (s.fmt, s.count 0)
          | none, some sh => some (sh.fmt, sh.count 0)
          | none, none => none
        let yBad : Bad := match src with
          | some (ft, rl) => badIf (y.fmt != ft || y.mx) 4 ++ countBad y [rl, x.numel, 1, 1]
          | none => badIf (odd y.mx y.fmt) 4 ++ countBad y [y.count 0, x.numel, 1, 1]
        (badIf (lap s) 0 ++ badIf (lap (some x)) 2).map (off + ·)
        ++ (match s, tsh with
            | some s, _ => (badIf (odd s.mx s.fmt) 4).map (dOff (f 0) + ·)
            | none, some sh => badIf (odd sh.mx sh.fmt) home
            | none, none => [])
        ++ (badIf (x.fmt != .int32 || x.mx) 4).map (dOff (f 2) + ·)
        ++ (yBad ++ strideZeroBad y).map (dOff (f 4) + ·)
      | _, _ => [off]

def gatherOf (t : DescTab) (w : Option Weight) (r : List Byte) : Option GatherOp :=
  let f (o : Nat) : Nat := fieldAt r o 2
  let d (o : Nat) : Option Desc := (tabAt t (f o)).map descOf
  let s : Option GSrc := if f 0 = 0xFFFF then w.map .tensor else (d 0).map .spad
  match s, d 2, d 4 with
  | some s, some x, some y => some ⟨s, x, y, bitOf (byteAt r 6) 0, fieldAt r 8 8⟩
  | _, _, _ => none

end Sys2Proof.Machine
end

