-- ==== Sys2Proof/Machine/Hash.lean ====
section
/-!
DEFINITION. CRC-32C (R242), SHA-256 and SHA-384, HMAC and HKDF (R331, R427 to R429, R438), computed.
-/

namespace Sys2Proof.Machine

/-- Eight shifts of the reflected Castagnoli polynomial (R242). -/
def crcByte : Nat → Nat → Nat
  | 0, c => c
  | n + 1, c => crcByte n (if c % 2 = 1 then Nat.xor (c / 2) 0x82F63B78 else c / 2)

def crcRun : List Byte → Nat → Nat
  | [], c => c
  | b :: bs, c => crcRun bs (crcByte 8 (Nat.xor c b.toNat))

/-- CRC-32C with initial value and final exclusive OR 0xFFFF_FFFF (R242). -/
def crc32c (bs : List Byte) : Nat := Nat.xor (crcRun bs 0xFFFFFFFF) 0xFFFFFFFF

/-- The value of bytes, most significant byte first: the order of cryptographic byte strings (R430). -/
def beNat (bs : List Byte) : Nat := leNat bs.reverse

/-- `n` bytes of a value, most significant byte first. -/
def toBe (n v : Nat) : List Byte := (toLe n v).reverse

/-- The parameters of the two SHA-2 functions: word width, rounds, block bytes, rotations, initial value, output bytes. -/
structure ShaSpec where
  w : Nat
  rounds : Nat
  block : Nat
  lenBytes : Nat
  s0 : Nat × Nat × Nat
  s1 : Nat × Nat × Nat
  e0 : Nat × Nat × Nat
  e1 : Nat × Nat × Nat
  init : List Nat
  out : Nat
  deriving Repr

def sha256Spec : ShaSpec :=
  ⟨32, 64, 64, 8, (7, 18, 3), (17, 19, 10), (2, 13, 22), (6, 11, 25),
   [0x6A09E667, 0xBB67AE85, 0x3C6EF372, 0xA54FF53A, 0x510E527F, 0x9B05688C, 0x1F83D9AB, 0x5BE0CD19], 32⟩

def sha384Spec : ShaSpec :=
  ⟨64, 80, 128, 16, (1, 8, 7), (19, 61, 6), (28, 34, 39), (14, 18, 41),
   [0xCBBB9D5DC1059ED8, 0x629A292A367CD507, 0x9159015A3070DD17, 0x152FECD8F70E5939,
    0x67332667FFC00B31, 0x8EB44A8768581511, 0xDB0C2E0D64F98FA7, 0x47B5481DBEFA4FA4], 48⟩

/-- The round constants of SHA-512, sixteen to a number, the first in the lowest bits. SHA-256 uses the upper halves. -/
def shaKTable : List Nat :=
  [0xC19BF174CF6926949BDC06A725C7123580DEB1FE3B1696B172BE5D74F27B896F550C7DC3D5FFB4E2243185BE4EE4B28C12835B0145706FBED807AA98A3030242AB1C5ED5DA6D8118923F82A4AF194F9B59F111F1B605D0193956C25BF348B538E9B5DBA58189DBBCB5C0FBCFEC4D3B2F7137449123EF65CD428A2F98D728AE22,
   0x142929670A0E6E7006CA6351E003826FD5A79147930AA725C6E00BF33DA88FC2BF597FC7BEEF0EE4B00327C898FB213FA831C66D2DB43210983E5152EE66DFAB76F988DA831153B55CB0A9DCBD41FBD44A7484AA6EA6E4832DE92C6F592B0275240CA1CC77AC9C650FC19DC68B8CD5B5EFBE4786384F25E3E49B69C19EF14AD2,
   0x106AA07032BBD1B8F40E35855771202AD69906245565A910D192E819D6EF5218C76C51A30654BE30C24B8B70D0F89791A81A664BBC423001A2BFE8A14CF1036492722C851482353B81C2C92E47EDAEE6766A0ABB3C77B2A8650A73548BAF63DE53380D139D95B3DF4D2C6DFC5AC42AED2E1B21385C26C92627B70A8546D22FFC,
   0xC67178F2E372532BBEF9A3F7B2C67915A4506CEBDE82BDE990BEFFFA23631E288CC702081A6439EC84C87814A1F0AB7278A5636F43172F60748F82EE5DEFB2FC682E6FF3D6B2B8A35B9CCA4F7763E3734ED8AA4AE3418ACB391C0CB3C5C95A6334B0BCB5E19B48A82748774CDF8EEB991E376C085141AB5319A4C116B8D2D0C8,
   0x6C44198C4A4758175FCB6FAB3AD6FAEC597F299CFC657E2A4CC5D4BECB3E42B6431D67C49C100D4C3C9EBE0A15C9BEBC32CAAB7B40C7249328DB77F523047D841B710B35131C471B113F9804BEF90DAE0A637DC5A2C898A606F067AA72176FBAF57D4F7FEE6ED178EADA7DD6CDE0EB1ED186B8C721C0C207CA273ECEEA26619C]

def shaK (w i : Nat) : Nat :=
  let k := ((shaKTable.drop (i / 16)).head?.getD 0 / 2 ^ (64 * (i % 16))) % 2 ^ 64
  if w = 32 then k / 2 ^ 32 else k

def rotr (w n x : Nat) : Nat := Nat.lor (x / 2 ^ n) ((x % 2 ^ n) * 2 ^ (w - n))

def rot3 (w : Nat) (r : Nat × Nat × Nat) (x : Nat) : Nat :=
  Nat.xor (Nat.xor (rotr w r.1 x) (rotr w r.2.1 x)) (rotr w r.2.2 x)

def rot2s (w : Nat) (r : Nat × Nat × Nat) (x : Nat) : Nat :=
  Nat.xor (Nat.xor (rotr w r.1 x) (rotr w r.2.1 x)) (x / 2 ^ r.2.2)

/-- The eight working variables. -/
structure Sha8 where
  a : Nat
  b : Nat
  c : Nat
  d : Nat
  e : Nat
  f : Nat
  g : Nat
  h : Nat

/-- The rounds from `t` on; `ws` is the window of sixteen message words, the current one first. -/
def shaRounds (s : ShaSpec) : Nat → Nat → List Nat → Sha8 → Sha8
  | 0, _, _, x => x
  | n + 1, t, ws, x =>
    let m := 2 ^ s.w
    let w0 := ws.head?.getD 0
    let ch := Nat.xor (Nat.land x.e x.f) (Nat.land (m - 1 - x.e) x.g)
    let maj := Nat.xor (Nat.xor (Nat.land x.a x.b) (Nat.land x.a x.c)) (Nat.land x.b x.c)
    let t1 := (x.h + rot3 s.w s.e1 x.e + ch + shaK s.w t + w0) % m
    let t2 := (rot3 s.w s.e0 x.a + maj) % m
    let nw := (rot2s s.w s.s1 ((ws.drop 14).head?.getD 0) + (ws.drop 9).head?.getD 0
      + rot2s s.w s.s0 ((ws.drop 1).head?.getD 0) + w0) % m
    shaRounds s n (t + 1) (ws.drop 1 ++ [nw]) ⟨(t1 + t2) % m, x.a, x.b, x.c, (x.d + t1) % m, x.e, x.f, x.g⟩

def shaBlock (s : ShaSpec) (h : List Nat) (blk : List Byte) : List Nat :=
  let ws := (chunks (s.w / 8) 16 blk).map beNat
  let g (i : Nat) : Nat := (h.drop i).head?.getD 0
  let x := shaRounds s s.rounds 0 ws ⟨g 0, g 1, g 2, g 3, g 4, g 5, g 6, g 7⟩
  let m := 2 ^ s.w
  [(g 0 + x.a) % m, (g 1 + x.b) % m, (g 2 + x.c) % m, (g 3 + x.d) % m,
   (g 4 + x.e) % m, (g 5 + x.f) % m, (g 6 + x.g) % m, (g 7 + x.h) % m]

def sha (s : ShaSpec) (msg : List Byte) : List Byte :=
  let l := msg.length
  let z := (2 * s.block - (l + 1 + s.lenBytes) % s.block) % s.block
  let p := msg ++ [0x80] ++ zeros z ++ toBe s.lenBytes (8 * l)
  let h := (chunks s.block (p.length / s.block) p).foldl (shaBlock s) s.init
  (h.flatMap (toBe (s.w / 8))).take s.out

def sha384 (msg : List Byte) : List Byte := sha sha384Spec msg

def hmac (s : ShaSpec) (key msg : List Byte) : List Byte :=
  let k0 := if s.block < key.length then sha s key else key
  let k := k0 ++ zeros (s.block - k0.length)
  sha s (k.map (fun b => b ^^^ 0x5C) ++ sha s (k.map (fun b => b ^^^ 0x36) ++ msg))

def hkdfExpand (s : ShaSpec) (prk info : List Byte) : Nat → Nat → List Byte → List Byte
  | 0, _, _ => []
  | n + 1, i, t =>
    let t' := hmac s prk (t ++ info ++ [BitVec.ofNat 8 i])
    t' ++ hkdfExpand s prk info n (i + 1) t'

/-- HKDF of RFC 5869 with `len` output bytes (R331, R429). -/
def hkdf (s : ShaSpec) (salt ikm info : List Byte) (len : Nat) : List Byte :=
  (hkdfExpand s (hmac s (if salt.isEmpty then zeros s.out else salt) ikm) info (ceilDiv len s.out) 1 []).take len

/-- The ASCII bytes of a string. -/
def ascii (t : String) : List Byte := t.toList.map fun c => BitVec.ofNat 8 c.toNat

end Sys2Proof.Machine
end

