-- ==== Sys2Proof/Machine/Nvs.lean ====
section
/-!
DEFINITION. Records of the Lodge non-volatile store: two copies of each, with a sequence value and a CRC-32C (R242, R422).
-/

namespace Sys2Proof.Machine

/-- One copy of a record: its content, its 32-bit sequence value and its CRC-32C. -/
structure NvsCopy (α : Type) where
  val : α
  seq : Nat
  crc : Nat
  deriving DecidableEq, Repr

/-- A record as its two copies. -/
structure NvsRec (α : Type) where
  first : NvsCopy α
  second : NvsCopy α
  deriving DecidableEq, Repr

variable {α : Type}

/-- A copy of a content: the CRC covers the content's bytes and the sequence value (log entry 98). -/
def nvsCopy (enc : α → List Byte) (v : α) (seq : Nat) : NvsCopy α := ⟨v, seq, crc32c (enc v ++ toLe 4 seq)⟩

/-- A copy is valid. -/
def NvsCopy.good (enc : α → List Byte) (c : NvsCopy α) : Bool := c.crc == crc32c (enc c.val ++ toLe 4 c.seq)

/-- A sequence value is later than another, or the same, modulo 2^32. -/
def laterSeq (a b : Nat) : Bool := decide ((a + 2 ^ 32 - b) % 2 ^ 32 < 2 ^ 31)

/-- The first copy holds: the second is not valid, or both are and the first has the later sequence value (R422). -/
def NvsRec.firstHolds (enc : α → List Byte) (r : NvsRec α) : Bool :=
  !r.second.good enc || (r.first.good enc && laterSeq r.first.seq r.second.seq)

/-- The copy that holds: the valid one with the later sequence value (R422). -/
def NvsRec.holds (enc : α → List Byte) (r : NvsRec α) : NvsCopy α := if r.firstHolds enc then r.first else r.second

/-- The content of a record. -/
def NvsRec.value (enc : α → List Byte) (r : NvsRec α) : α := (r.holds enc).val

/-- A record with both copies alike. -/
def nvsRec (enc : α → List Byte) (v : α) (seq : Nat) : NvsRec α := ⟨nvsCopy enc v seq, nvsCopy enc v seq⟩

/-- The sequence value of the next write. -/
def NvsRec.next (enc : α → List Byte) (r : NvsRec α) : Nat := ((r.holds enc).seq + 1) % 2 ^ 32

/-- A record written: both copies, one after the other (R422). -/
def NvsRec.write (enc : α → List Byte) (r : NvsRec α) (v : α) : NvsRec α := nvsRec enc v (r.next enc)

/-- A copy that a loss of power leaves whole, or not valid. -/
def cutCopy (c : NvsCopy α) (whole : Bool) : NvsCopy α := if whole then c else { c with crc := (c.crc + 1) % 2 ^ 32 }

/-- A write that a loss of power cuts off in its first copy (R422): the copy that does not hold is written first (log entry
98). -/
def NvsRec.torn (enc : α → List Byte) (r : NvsRec α) (v : α) (whole : Bool) : NvsRec α :=
  let c := cutCopy (nvsCopy enc v (r.next enc)) whole
  if r.firstHolds enc then { r with second := c } else { r with first := c }

/-- Pairs of fuses, one pair for each lifecycle state beyond BLANK (R422). -/
structure LifeFuses where
  provisioned : Bool × Bool
  field : Bool × Bool
  retired : Bool × Bool
  deriving DecidableEq, Repr

end Sys2Proof.Machine
end

