-- ==== Sys2Proof/Machine/State.lean ====
section
/-!
DEFINITION. The whole state of the device as plain data, and its value after reset.
Every structure names the rules of spec/ that give it; INVENTORY.md lists each field with its reset value.
-/

namespace Sys2Proof.Machine

/-! ## Rings, packets and replies (file 12) -/

/-- The statuses of R277, Table 8. -/
inductive Status where
  | ok | okDuplicate | okPartial | aborted | abortTooLate | skipped | retrySafe | effectUnknown
  | badOpcode | badParam | badLength | staleSequence | badCrc | noSpace | tensorAbsent | planExceeds | tensorMoved
  | pagesScrubbing | gatherFault | slotTimeout | datapathFault | uncorrectableData | controlFault | authFail
  | notPermitted | versionMismatch
  deriving DecidableEq, Repr

/-- What a reply carries beside its header copies (R276): the status, ORIG_STATUS, DETAIL32, DETAIL64, the opcode
reply parameters or status block, and the payload. -/
structure Reply where
  status : Status
  orig : Nat
  d32 : Nat
  d64 : Nat
  block : List Byte
  payload : List Byte
  deriving DecidableEq, Repr

/-- What a waiting reply answers. -/
inductive SlotKind where
  | command | refusal | duplicate
  deriving DecidableEq, Repr

/-- One reply of a queue that is still to be written, in the order in which the packets left the ring (R271). -/
structure Slot where
  kind : SlotKind
  seq : Nat
  tag : Nat
  stream : Nat
  handle : Nat
  /-- The packet had IRQ = 1 (R282). -/
  irq : Bool
  untrusted : Bool
  chainPart : Bool
  /-- An ordering point (R280). -/
  ordering : Bool
  /-- The packet's opcode names a stream. -/
  named : Bool
  /-- The acceptance number of an ABORT's target, whose reply comes first (R290). -/
  target : Option Nat
  /-- The acceptance number of the packet's command. -/
  acc : Nat
  /-- Granules of completion ring reserved for it (R270). -/
  space : Nat
  /-- A reply of R273 that the HALTED shadow follows (R258). -/
  withHalt : Bool
  /-- Staged while its function may issue no DMA, and counted for its interrupt then (R414). -/
  staged : Bool
  reply : Option Reply
  deriving DecidableEq, Repr

/-- QSTATE of R258. -/
inductive QState where
  | active | halted | broken
  deriving DecidableEq, Repr

/-- One entry of the replay window (R267). -/
structure WinEntry where
  crc : Nat
  tag : Nat
  opcode : Nat
  /-- The acceptance number of the command the packet belongs to. -/
  acc : Nat
  status : Option Status
  deriving DecidableEq, Repr

/-- The open chain of a queue: the fields every packet repeats (R263), and how the command ended when it ended
before its last packet (R265). -/
structure Chain where
  opcode : Nat
  stream : Nat
  tag : Nat
  handle : Nat
  acc : Nat
  count : Nat
  ended : Option Reply
  deriving DecidableEq, Repr

/-- A queue pair (R251 to R283). -/
structure Queue where
  sqBase : Nat
  sqSize : Nat
  cqBase : Nat
  cqSize : Nat
  shadow : Nat
  unordered : Bool
  ien : Bool
  vector : Nat
  cthresh : Nat
  ctime : Nat
  qstate : QState
  /-- HALTED by a ring fault or a STALE_SEQUENCE refusal (R274, R483). -/
  byRing : Bool
  sqHead : Nat
  sqTail : Nat
  cqHead : Nat
  cqTail : Nat
  /-- E of R266. -/
  e : Nat
  /-- The queue's first sequence number (R267). -/
  firstE : Nat
  haltSeq : Nat
  dberr : Bool
  /-- The LCLK cycle in which DBERR was last set (R7). -/
  dberrAt : Option Nat
  window : Map WinEntry
  /-- A packet read into ring staging and not yet accepted (R270, R273). -/
  staged : Option (List Byte)
  chain : Option Chain
  slots : List Slot
  /-- Replies counted since the last interrupt, and when the first was counted (R282). -/
  counted : Nat
  timer : Option Nat
  /-- QSTATE as the shadow last carried it, and Q_QSTATE_q shows it (R258, R484). -/
  shown : QState
  /-- A shadow write and an interrupt that wait for D0 and Bus Master Enable (R414). -/
  owed : Bool
  /-- The queue is being deleted: nothing more is fetched (R317). -/
  closing : Bool
  /-- No shadow write is made again (R253, R275). -/
  mute : Bool
  deriving DecidableEq, Repr

/-- A command that has been accepted and has not ended (R33, R266). -/
structure Cmd where
  src : Src
  /-- The acceptance order over all queues. -/
  acc : Nat
  plot : Option Nat
  opcode : Nat
  stream : Nat
  handle : Nat
  tag : Nat
  irq : Bool
  /-- The sequence numbers of its accepted packets, first to last. -/
  seqs : List Nat
  params : List Byte
  payload : List Byte
  /-- A chain whose last packet has not been accepted. -/
  isOpen : Bool
  /-- Epoch clock value it carries (R226). -/
  clock : Nat
  /-- The plot's epoch clock just after its acceptance, which the objects it names and creates take as stamp (R226, R228). -/
  stampAt : Nat
  /-- Weight handles that an accepted PLAN_LOAD has reserved, with pages and stored sizes (R221, R230). -/
  reserved : Map (Nat × Nat)
  /-- HBM pages it holds: a shadow, or those of the object it creates (R219). -/
  pages : Nat
  /-- Glasshouse slots it holds as shadow slots (R125). -/
  shadowSlots : Nat
  /-- An ABORT that was accepted before its target's commit point (R290). -/
  won : Bool
  /-- The status that the target of an ABORT had ended with before the ABORT was accepted (R290). -/
  tooLate : Option Status
  /-- The engines its work was placed on, as the trace of R436 reports them. -/
  placed : List Nat
  /-- Versions of tables before the publications that an epoch of it straddled, oldest first; a plan's table is under its
  part, an IDX4 table under 64 plus its number (R235). -/
  olds : List (Nat × List (List Byte))
  deriving DecidableEq, Repr

/-! ## Functions and ports (files 12, 15, 20, 21) -/

/-- One MSI-X table entry with its mask and pending bits (R283, R449). -/
structure MsixEntry where
  addr : Nat
  data : Nat
  masked : Bool
  pend : Bool
  deriving DecidableEq, Repr

/-- The configuration fields that rules read (R445 to R456). -/
structure Cfg where
  memorySpace : Bool
  busMaster : Bool
  d3hot : Bool
  vfEnable : Bool
  numVfs : Nat
  relaxed : Bool
  maxPayload : Nat
  maxRead : Nat
  timeoutRange : Nat
  msixEnable : Bool
  /-- Function Mask of the MSI-X capability (R283, R448). -/
  msixMask : Bool
  aspmL1 : Bool
  deriving DecidableEq, Repr

/-- Telemetry of a function (R472). -/
structure FnTel where
  pktIn : Nat
  pktOut : Nat
  bytesIn : Nat
  bytesOut : Nat
  deriving DecidableEq, Repr

/-- One function: its registers, MSI-X table and queues. -/
structure Func where
  cfg : Cfg
  /-- When the FLR in progress began (R459). -/
  flr : Option Nat
  sqBase : Nat
  cqBase : Nat
  shadow : Nat
  sqLog : Nat
  cqLog : Nat
  ien : Bool
  cthresh : Nat
  ctime : Nat
  enable : Bool
  busy : Bool
  cfgErr : Bool
  errVec : Nat
  dbCnt : Nat
  regCnt : Nat
  logNew : Bool
  lost : Bool
  ce : Bool
  /-- The LCLK cycle in which LOGNEW (0), LOST (1) and CE (2) were last set: a write of 1 in that cycle does not clear
  them (R7). -/
  setAt : Map Nat
  msix : Map MsixEntry
  tel : FnTel
  /-- The telemetry values of the last refresh (R400, R471). -/
  snap : FnTel
  queues : Map Queue
  deriving DecidableEq, Repr

/-- Link states (R410, R456, R457). -/
inductive Link where
  | down | l0 | l1 | l2
  deriving DecidableEq, Repr

/-- One port (R338, R339). -/
structure Port where
  link : Link
  perstN : Bool
  /-- When the last pending transaction ended (R456). -/
  idleSince : Nat
  replay : Nat
  fec : Nat
  recov : Nat
  deriving DecidableEq, Repr

/-! ## Plots and what they hold (files 10, 14, 15) -/

/-- A tensor (R221 to R225, R291 to R293). -/
structure Tensor where
  attr : Nat
  fmt : Nat
  gshift : Nat
  itable : Nat
  c0 : Nat
  c1 : Nat
  c2 : Nat
  c3 : Nat
  img : List Byte
  /-- Damaged 32-byte HBM code words, by their number (R12, R223, R357). -/
  bad : Map GState
  /-- The scratchpad range of R222, by engine and address. -/
  home : Option (Nat × Nat)
  stamp : Nat
  lost : Nat
  deriving DecidableEq, Repr

/-- A loaded plan (R229 to R234, R300). -/
structure Plan where
  img : List Byte
  /-- Layers PLAN_LOAD named TRANSIENT (R231). -/
  extra : List Nat
  /-- Descriptor tables of the parts: published and pending versions (R233). -/
  tables : Map (List (List Byte))
  pending : Map (List (List Byte))
  /-- Reserved weight handles, with the pages and the stored size of each (R230). -/
  reserved : Map (Nat × Nat)
  /-- Pages of the image and of the shadows (R219, R229). -/
  pages : Nat
  /-- Damaged 32-byte HBM code words of the plan image, by their number (R12, R357, R383). -/
  bad : Map GState
  deriving DecidableEq, Repr

/-- Residency states of R214. -/
inductive Residency where
  | nonresident | movingIn | resident | movingOut
  deriving DecidableEq, Repr

/-- An OPEN or PAUSED stream (R320). Its image is that of R123 and R332, so its configuration and counters are there. -/
structure Stream where
  paused : Bool
  plan : Nat
  img : List Byte
  /-- Damage of the image in its home: 16-byte granules of its Glasshouse slots, or 32-byte HBM code words (R12, R211, R217). -/
  bad : Map GState
  res : Residency
  stamp : Nat
  /-- The accepted command, by its acceptance number, that asked for the image and has its slots promised (R36, R216). -/
  wanted : Option Nat
  deriving DecidableEq, Repr

/-- The fields of an error record (R375). -/
structure Rec where
  type : Nat
  cls : Nat
  unit : Nat
  loc : Nat
  addr : Nat
  seq : Nat
  qid : Nat
  func : Nat
  time : Nat
  deriving DecidableEq, Repr

/-- An error log (R374, R377). -/
structure Log where
  recs : List Rec
  lost : Nat
  ceSram : Nat
  ceHbm : Nat
  ceLast : Nat
  deriving DecidableEq, Repr

/-- A binding of PLOT_CONFIG (R346): the function, by number, and its queue allotment. -/
structure Binding where
  fid : Nat
  allot : Nat
  deriving DecidableEq, Repr

/-- A configured plot (R343). -/
structure Plot where
  engmask : Nat
  slots : Nat
  quota : Nat
  queues : Nat
  streamFirst : Nat
  streamCount : Nat
  binds : List Binding
  scalars : Map Nat
  /-- IDX4 tables: published and pending versions, an absent one all zero (R220, R233). -/
  idx4 : Map (List Nat)
  idx4Pending : Map (List Nat)
  clock : Nat
  key : Option (List Byte)
  tensors : Map Tensor
  plans : Map Plan
  streams : Map Stream
  /-- Pages still being zeroed after a plot reset (R350, R353). -/
  zeroing : Nat
  /-- PWR_ECLK_TGT (R404, R421). -/
  eclkTarget : Nat
  log : Log
  /-- The acceptance number of the PLOT_RELEASE that stopped the plot's queues (R351). -/
  releasing : Option Nat
  epochs : Nat
  epochsSnap : Nat
  /-- GK_COUNT of the plot's scope (R398). -/
  gkSlices : Nat
  gkForced : Nat
  gkAbandoned : Nat
  gkFailed : Nat
  /-- When the plot's contents last changed owner: the fields of GK_AGE count from there (R352, R398). -/
  ownedAt : Nat
  deriving DecidableEq, Repr

/-! ## Engines (files 04, 06, 09, 17, 18) -/

/-- Engine power states (R405 to R407). -/
inductive EPower where
  | running | gated
  /-- Waking since a time (R407). -/
  | waking (since : Nat)
  deriving DecidableEq, Repr

/-- One prefetch entry of the WFU in the schedule of a plan (R94, R95). -/
structure PfEntry where
  /-- The decoded bytes the entry delivers, and the granules its source poisons (R98, R100). -/
  bytes : List Byte
  poison : List Nat
  /-- A malformed block (Table 6 of file 11). -/
  malformed : Bool
  /-- The weight tensor and the decoded byte the entry starts at, which an error record names (R376). -/
  handle : Nat
  off : Nat
  /-- The bytes of the stored image that the WFU reads for it, first byte and count (R247); none of a TRANSIENT layer. -/
  reads : List (Nat × Nat)
  /-- First byte of the staging buffer, and its slots. -/
  addr : Nat
  slotFirst : Nat
  slotCount : Nat
  issued : Bool
  done : Bool
  /-- The plan step after whose completion the buffer returned to empty has ended (R94). -/
  freed : Bool
  /-- How many plan steps of the epoch have started when the entry may issue (R94). -/
  issueStep : Nat
  /-- The plan step, by its number, whose completion releases the buffer (R94). -/
  release : Nat
  deriving DecidableEq, Repr

/-- The WFU (R93 to R97). -/
structure Wfu where
  sched : List PfEntry
  /-- The number of the next entry to issue. -/
  nextEntry : Nat
  /-- The plan steps of the epoch that the engine has started (R94). -/
  step : Nat
  /-- The handle of the plan that installed the schedule. -/
  plan : Option Nat
  deriving DecidableEq, Repr

/-- One accumulator bank (R87): 64 entries of 32 by 32 values in the accumulator format, and the LCLK time until which
its drain or spill takes (R88). -/
structure AccBank where
  vals : Map (List Nat)
  busyTill : Nat
  deriving DecidableEq, Repr

/-- An operation of a unit that waits for its tags or has not completed (R192, R207). -/
structure PendOp where
  /-- The acceptance number of the command whose epoch it belongs to (R198). -/
  acc : Nat
  id : Nat
  unit : EUnit
  acts : List TagAct
  started : Bool
  deriving DecidableEq, Repr

/-- What a failed check of an engine left recorded: the unit, the DPU row and column, the checked value and the pass
(R105). -/
structure CheckNote where
  unit : EUnit
  row : Nat
  col : Nat
  value : CheckedValue
  pass : Nat
  deriving DecidableEq, Repr

/-- The kinds of slice (R363, R388, R389, R460). -/
inductive SliceKind where
  | opportunistic | forced | diagnostic | bringUp
  deriving DecidableEq, Repr

/-- A logic test slice in progress: its start, and the ECLK cycles it has had (R387, R420). -/
structure Slice where
  kind : SliceKind
  since : Nat
  cycles : Nat
  deriving DecidableEq, Repr

/-- Telemetry of an engine (R472). -/
structure EngTel where
  maBusy : Nat
  stallWeight : Nat
  stallOperand : Nat
  stallDrain : Nat
  stallClock : Nat
  run : Nat
  wake : Nat
  deriving DecidableEq, Repr

/-- One Sequence Engine. -/
structure Engine where
  power : EPower
  failed : Bool
  /-- Effective ECLK in units of 100 MHz, and the value a relock moves to (R404). -/
  eclk : Nat
  relock : Option Nat
  /-- When the engine became idle (R406). -/
  idleSince : Nat
  spad : Spad
  bank0 : AccBank
  bank1 : AccBank
  wfu : Wfu
  ops : List PendOp
  /-- Consecutive ECLK cycles without progress of each epoch with operations here, by its command's acceptance number
  (R198). -/
  stuck : Map Nat
  /-- The scalar registers as each command in computation here read them, by its acceptance number (R141). -/
  scalars : Map (List Word)
  /-- The last failed check (R105). -/
  note : Option CheckNote
  footprint : List (Nat × Nat)
  slice : Option Slice
  /-- Start of the slice timer (R388). -/
  sliceTimer : Nat
  overdue : Bool
  /-- The scrub's position in each bank, by bank number (R187). -/
  scrub : Map Nat
  /-- Start of the last completed scratchpad sweep, and when the next falls due (R381, R398). -/
  sweepStart : Nat
  sweepNext : Nat
  /-- Table copies of the epoch, by plan part or IDX4 table number (R232). -/
  descCache : Map (List (List Byte))
  tel : EngTel
  telSnap : EngTel
  /-- Held by a debugger, or single-stepped (R436). -/
  halted : Bool
  deriving DecidableEq, Repr

/-! ## The Gatehouse, HBM and the background work (files 16, 17, 18) -/

/-- One lockstep pair (R357, R365, R393, R478). -/
structure Pair where
  active : Bool
  retired : Bool
  /-- Segments of the full-state compare done in the current period (R393). -/
  compared : Nat
  /-- LCLK cycles of idle time that the pair has had in the current period (R386, R393). -/
  idle : Nat
  /-- When the segment in progress began, and the number of the next command to be accepted then (R393). -/
  segment : Option (Nat × Nat)
  halted : Bool
  deriving DecidableEq, Repr

/-- Why a Gatehouse restart runs (R365). -/
inductive RestartCause where
  | lockstep (pair : Nat)
  | fclk
  | latent
  /-- The end of an INVASIVE session (R441). -/
  | reload
  deriving DecidableEq, Repr

/-- Stack states of an HBM PLL and controller (R362, R403, R409, R460). -/
inductive Hbm where
  | off | training | ready | relocking | selfRefresh | exiting
  deriving DecidableEq, Repr

/-- FCLK (R365, R403, R409, R411). -/
inductive Fclk where
  | stopped | running | relocking
  deriving DecidableEq, Repr

/-- Where the device stands with P2 (R405, R408 to R412). -/
inductive P2 where
  | awake
  | inP2
  /-- A wake in progress: since when, and whether the Gatehouse runs again (R411). -/
  | waking (since : Nat)
  deriving DecidableEq, Repr

/-- The Groundskeeper's registers and schedules beside those of the engines (R380 to R398). -/
structure Keeper where
  /-- GK_CTL bits 4:0 (R397). -/
  ctl : Nat
  /-- Starts of the last completed sweeps of the Glasshouse, HBM and the Lodge, and when the next fall due (R381 to R384). -/
  ghSweep : Nat
  hbmSweep : Nat
  lodgeSweep : Nat
  ghNext : Nat
  hbmNext : Nat
  lodgeNext : Nat
  catchup : Bool
  /-- Calibration: when it last ran and the stack temperature then, by stack * 16 + channel (R392). -/
  calib : Map (Nat × Nat)
  /-- When the calibration of a channel fell due (R392). -/
  calibDue : Map Nat
  /-- GK_COUNT of the device (R398). -/
  slices : Nat
  forced : Nat
  abandoned : Nat
  failed : Nat
  /-- Copies of retention records that fail, by record and whether it is the second copy (R357, R384). -/
  lodgeBad : List (Nat × Bool)
  deriving DecidableEq, Repr

/-- Power control (R404, R414 to R421). -/
structure Power where
  p2en : Bool
  gateDelay : Nat
  p2Delay : Nat
  plimit : Nat
  tlimit : Nat
  ceiling : Nat
  limP : Bool
  limT : Bool
  /-- When power and temperature came within both limits (R416). -/
  underSince : Option Nat
  /-- When the control period in progress began (R402, R416). -/
  period : Nat
  /-- The overcurrent alarm, and the eighths of the pulses omitted at the lowest ceiling (R417). -/
  halfPulse : Bool
  omitted : Nat
  hold : Bool
  deriving DecidableEq, Repr

/-- Sensor snapshots of Table 10 of file 20 (R468). -/
structure Sensors where
  die : Nat
  hbm0 : Nat
  hbm1 : Nat
  hbm2 : Nat
  hbm3 : Nat
  watts : Nat
  coreMv : Nat
  coreA : Nat
  deriving DecidableEq, Repr

/-- The pins and supplies (R491 to R498). -/
structure Pins where
  vaon : Bool
  mainSupply : Bool
  sysRstN : Bool
  pwrDnN : Bool
  pdnReady : Bool
  thermtrip : Bool
  enPcie : Bool
  enFab : Bool
  enSram : Bool
  enCore : Bool
  enHbm : Bool
  pgPcie : Bool
  pgFab : Bool
  pgSram : Bool
  pgCore : Bool
  pgHbm : Bool
  fabRet : Bool
  /-- Straps as sampled (R495, R497). -/
  lanes : Nat
  smbadr : Nat
  testN : Bool
  /-- What boundary scan does to the pins (R442). -/
  drive : Option ScanInstr
  deriving DecidableEq, Repr

/-- Bring-up (R460 to R463). -/
structure Boot where
  stage : Nat
  ready : Bool
  slot : Nat
  stackMask : Nat
  fwFail : Bool
  configReady : Bool
  fwSvn : Nat
  fwImage : List Byte
  commitSvn : Nat
  /-- Training attempts of each stack that failed (R460). -/
  attempts : Map Nat
  /-- When the pending enable was asserted (R496). -/
  enSince : Nat
  deriving DecidableEq, Repr

/-- Lifecycle states (R423). -/
inductive Life where
  | blank | provisioned | field | retired
  deriving DecidableEq, Repr

/-- Who holds management authority (R340). -/
inductive Authority where
  | none | bmc
  | pf (port : Nat)
  deriving DecidableEq, Repr

/-- Fuses and the non-volatile stores (R422, R435, R447, R464). -/
structure Stores where
  fvkHash : List Byte
  tdkHash : List Byte
  odkHash : List Byte
  uds : List Byte
  lifeFuses : LifeFuses
  minSvn : Nat
  idOff : Bool
  serial : Nat
  /-- The NVS records: identity certificate chain, authority and export counter reservation (Table 1 of R422). -/
  chain : NvsRec (List Byte)
  owner : NvsRec Authority
  reservation : NvsRec Nat
  writesLeft : Nat
  slotA : List Byte
  slotB : List Byte
  deriving DecidableEq, Repr

/-- Debug levels (R436). -/
inductive DebugLevel where
  | closed | observe | invasive
  deriving DecidableEq, Repr

/-- What follows a full tenant erase (R426, R437), and the endpoint that is answered then (none for JTAG). -/
inductive AfterErase where
  | retire (ep : Option Endpoint) (burn : Burn)
  | invasive (ep : Option Endpoint)
  deriving DecidableEq, Repr

/-- One entry of the trace that OBSERVE and INVASIVE give (R436). -/
structure TraceRec where
  opcode : Nat
  qid : Nat
  func : Nat
  plot : Option Nat
  status : Nat
  placed : List Nat
  time : Nat
  deriving DecidableEq, Repr

/-- A request that came in P2 and runs after the wake (R410, R425, R443). -/
inductive SecReq where
  | provision (ep : Endpoint) (body : List Byte) (burn : Burn)
  | field (ep : Endpoint) (token : List Byte) (burn : Burn)
  | retire (ep : Endpoint) (token : List Byte) (burn : Burn)
  | authority (ep : Endpoint) (token : List Byte)
  | invasive (ep : Endpoint) (token : List Byte)
  | dbgAuth (token : List Byte) (burn : Burn)
  | pcp (ep : Endpoint) (packet : List Byte)
  | channelReset (ep : Endpoint) (e : Nat)
  deriving DecidableEq, Repr

/-- Debug and lifecycle state (R424 to R444). -/
structure Secure where
  level : DebugLevel
  debugged : Bool
  invSessions : Nat
  nonce : Option (List Byte × Nat)
  failCount : Nat
  lockout : Bool
  erasing : Option AfterErase
  /-- The Gatehouse firmware is to be reloaded (R441). -/
  reload : Bool
  moverHalted : Bool
  /-- Requests that wait for the end of a wake, in order of arrival (R425). -/
  deferred : List SecReq
  /-- The trace of commands while the level is not CLOSED (R436). -/
  trace : List TraceRec
  deriving DecidableEq, Repr

/-- One SPDM session (R430 to R433). -/
structure Session where
  transport : Transport
  id : Nat
  established : Bool
  key : List Byte
  iv : List Byte
  seq : Nat
  heartbeat : Nat
  lastBeat : Nat
  deriving DecidableEq, Repr

/-- How far an SPDM connection has come (R430). -/
structure SpdmConn where
  transport : Transport
  version : Bool
  capabilities : Bool
  algorithms : Bool
  deriving DecidableEq, Repr

/-- Firmware update (R470). -/
structure Update where
  slot : Nat
  written : Bool
  deriving DecidableEq, Repr

/-- The device counters of Table 11 of file 20, as the last refresh copied them (R471). -/
structure DevTel where
  energy : Nat
  fabRetry : Nat
  routesLost : Nat
  moverRetry : Nat
  deriving DecidableEq, Repr

/-! ## What leaves the device -/

/-- The outputs of the device, in order (the model's own record, log entry 3). -/
inductive Emit where
  /-- A DMA write to the completion ring of a queue (R21, R276), with or without Relaxed Ordering (R454). -/
  | ring (f : FuncId) (q : Nat) (addr : Nat) (bytes : List Byte) (relaxed : Bool)
  /-- The 32-byte shadow write (R258). -/
  | shadow (f : FuncId) (q : Nat) (addr : Nat) (bytes : List Byte)
  /-- An MSI-X message (R283). -/
  | msix (f : FuncId) (vec : Nat) (addr data : Nat)
  /-- An MCTP message, without its transport framing (R465). -/
  | mctp (ep : Endpoint) (bytes : List Byte)
  /-- A reply of the PCP channel (R466). -/
  | pcp (bytes : List Byte)
  /-- A PLDM event that reports an error record, or a sensor event (R379, R469). -/
  | event (eid : Nat) (bytes : List Byte)
  /-- An SPDM response (R430). -/
  | spdm (t : Transport) (bytes : List Byte)
  /-- Uncorrectable Internal Error signalled under AER (R371). -/
  | aer (port : Nat)
  /-- Poisoned TLP Received, reported under AER (R450). -/
  | poisoned (port : Nat)
  /-- Completion with Unsupported Request (R446). -/
  | unsupported (port : Nat)
  /-- A request to the link partner to enter L1 (R456). -/
  | l1Request (port : Nat)
  /-- Bytes shifted out on JTAG (R442). -/
  | jtag (bytes : List Byte)
  deriving DecidableEq, Repr

/-! ## The whole device -/

/-- The state of the device. -/
structure State where
  pending : List Instr
  out : List Emit
  freeIx : Nat
  accNo : Nat
  lclk : Nat
  upSince : Nat
  backup : Bool
  fclk : Fclk
  hbm : Map Hbm
  pins : Pins
  boot : Boot
  p2 : P2
  /-- Since when the conditions of P2 entry hold (R408). -/
  p2Cond : Option Nat
  /-- When P2 was last entered (R386). -/
  p2Since : Nat
  power : Power
  sensors : Sensors
  stores : Stores
  secure : Secure
  spdm : List SpdmConn
  sessions : Map Session
  eventReceiver : Option Nat
  update : Option Update
  pcp : Queue
  /-- A reset of the channel that waits for the channel's commands: where it came from, and the new E (R466). -/
  pcpReset : Option (Endpoint × Nat)
  expCtr : Nat
  /-- The acceptance number of the export that waits for the NVS write (R435). -/
  nvsWait : Option Nat
  fatal : Bool
  pairs : Map Pair
  restart : Option RestartCause
  restarts : Nat
  restartTimes : List Nat
  /-- Since when a latent divergence waits (R369). -/
  latent : Option Nat
  cmds : List Cmd
  funcs : Map Func
  ports : Map Port
  plots : Map Plot
  engines : Map Engine
  /-- Pages of the device still being zeroed (R353). -/
  devZeroing : Nat
  keeper : Keeper
  devLog : Log
  devNew : Bool
  devLost : Bool
  devCe : Bool
  /-- The LCLK cycle in which each of the three bits was last set, by its number (R7). -/
  devSetAt : Map Nat
  /-- Promenade routes out of use (R358). -/
  routesLost : List (Nat × Nat)
  telSnap : Nat
  energy : Nat
  fabRetry : Nat
  moverRetry : Nat
  devSnap : DevTel
  deriving DecidableEq, Repr

/-- Why the model stops. -/
inductive Fault where
  /-- Raised by SCRATCHPAD_ACCESS, MA_PASS and DEBUG_ACCESS for a scratchpad byte address beyond 0x013F_FFFF, which
  does not exist (R134, R183). Safe: the run stops. -/
  | scratchpadAddress (addr : Nat)
  deriving DecidableEq, Repr

/-- Why the model refuses a command. -/
inductive Refusal where
  /-- Raised by an arm of exec whose command has no meaning yet. Safe: the run stops. -/
  | notModelled (mnemonic : String)
  deriving DecidableEq, Repr

/-! ## Values at reset -/

/-- A queue as it is created, with no windows (R254, R266). -/
def Queue.blank : Queue :=
  { sqBase := 0, sqSize := 65536, cqBase := 0, cqSize := 65536, shadow := 0, unordered := false, ien := false,
    vector := 0, cthresh := 0, ctime := 0, qstate := .active, byRing := false, sqHead := 0, sqTail := 0, cqHead := 0,
    cqTail := 0, e := 0, firstE := 0, haltSeq := 0, dberr := false, dberrAt := none, window := [], staged := none, chain := none,
    slots := [], counted := 0, timer := none, shown := .active, owed := false, closing := false, mute := false }

/-- Configuration fields at reset (log entry 9). -/
def Cfg.reset : Cfg :=
  { memorySpace := false, busMaster := false, d3hot := false, vfEnable := false, numVfs := 0, relaxed := true,
    maxPayload := 0, maxRead := 2, timeoutRange := 0, msixEnable := false, msixMask := false, aspmL1 := false }

def FnTel.zero : FnTel := ⟨0, 0, 0, 0⟩

/-- A function at reset (R480, Table 6 of file 21). -/
def Func.reset : Func :=
  { cfg := Cfg.reset, flr := none, sqBase := 0, cqBase := 0, shadow := 0, sqLog := 16, cqLog := 16, ien := true,
    cthresh := 1, ctime := 0, enable := false, busy := false, cfgErr := false, errVec := 0, dbCnt := 0, regCnt := 0,
    logNew := false, lost := false, ce := false, setAt := [], msix := [], tel := FnTel.zero, snap := FnTel.zero, queues := [] }

/-- An MSI-X entry at reset: masked (log entry 9). -/
def MsixEntry.reset : MsixEntry := ⟨0, 0, true, false⟩

def Port.reset : Port := ⟨.down, false, 0, 0, 0, 0⟩
def Log.empty : Log := ⟨[], 0, 0, 0, 0⟩
def EngTel.zero : EngTel := ⟨0, 0, 0, 0, 0, 0, 0⟩
def AccBank.clear : AccBank := ⟨[], 0⟩
def Wfu.clear : Wfu := ⟨[], 0, 0, none⟩

/-- An engine as bring-up leaves it: gated (PWR_STATUS.GATED resets to 0x3F), zero, tags empty (R201, R421). -/
def Engine.reset : Engine :=
  { power := .gated, failed := false, eclk := 4, relock := none, idleSince := 0, spad := Spad.clear,
    bank0 := AccBank.clear, bank1 := AccBank.clear, wfu := Wfu.clear, ops := [], stuck := [], scalars := [], note := none,
    footprint := [], slice := none, sliceTimer := 0, overdue := false, scrub := [], sweepStart := 0, sweepNext := 0, descCache := [],
    tel := EngTel.zero, telSnap := EngTel.zero, halted := false }

def Pair.reset : Pair := ⟨false, false, 0, 0, none, false⟩

/-- GK_CTL resets to 0x1F (R397). -/
def Keeper.reset : Keeper := ⟨0x1F, 0, 0, 0, 0, 0, 0, false, [], [], 0, 0, 0, 0, []⟩

/-- Table 5 of file 18 (R421). -/
def Power.reset : Power :=
  { p2en := true, gateDelay := 4, p2Delay := 10, plimit := 700, tlimit := 100, ceiling := 18, limP := false,
    limT := false, underSince := none, period := 0, halfPulse := false, omitted := 0, hold := false }

def Sensors.reset : Sensors := ⟨0, 0, 0, 0, 0, 0, 0, 0⟩

/-- The pins just after SYS_RST_N deasserts (R495, R496): EN_PCIE is asserted in step 1. -/
def Pins.reset : Pins :=
  { vaon := true, mainSupply := true, sysRstN := true, pwrDnN := true, pdnReady := false, thermtrip := false,
    enPcie := true, enFab := false, enSram := false, enCore := false, enHbm := false, pgPcie := false, pgFab := false,
    pgSram := false, pgCore := false, pgHbm := false, fabRet := false, lanes := 0, smbadr := 0, testN := true,
    drive := none }

/-- Bring-up in step 1 (R460, R463). -/
def Boot.reset : Boot :=
  { stage := 1, ready := false, slot := 0, stackMask := 0, fwFail := false, configReady := false, fwSvn := 0,
    fwImage := [], commitSvn := 0, attempts := [], enSince := 0 }

/-- The stored forms of the NVS records (log entry 98). -/
def chainBytes (c : List Byte) : List Byte := c

def authorityBytes : Authority → List Byte
  | .none => [0, 0]
  | .bmc => [1, 0]
  | .pf p => [2, BitVec.ofNat 8 p]

def limitBytes (n : Nat) : List Byte := toLe 8 n

/-- The stores as manufacture leaves them (R422; contents not given: log entry 7). -/
def Stores.manufactured (genHash : List Byte) : Stores :=
  { fvkHash := genHash, tdkHash := genHash, odkHash := List.replicate 48 0, uds := List.replicate 32 0,
    lifeFuses := ⟨(false, false), (false, false), (false, false)⟩, minSvn := 0, idOff := false, serial := 0,
    chain := nvsRec chainBytes [] 0, owner := nvsRec authorityBytes .none 0, reservation := nvsRec limitBytes 0 0, writesLeft := 25600000,
    slotA := [], slotB := [] }

/-- SHA-384 of the uncompressed P-384 generator point (log entry 7). -/
def resetKeyHash : List Byte :=
  [0x8c, 0x4f, 0x26, 0x24, 0x12, 0xb7, 0xf9, 0xed, 0x86, 0x76, 0x06, 0x70,
   0x5a, 0x13, 0x0d, 0xe5, 0x21, 0x2f, 0xd0, 0x48, 0xfb, 0xaf, 0x8c, 0x38,
   0x42, 0xf4, 0xa2, 0x40, 0xf4, 0xb4, 0x5b, 0xa0, 0xc9, 0x0f, 0x82, 0x19,
   0x4c, 0xcd, 0xda, 0x3e, 0xd8, 0x9c, 0x96, 0xb0, 0xaf, 0xe1, 0xd5, 0x1d]

def Secure.reset : Secure :=
  { level := .closed, debugged := false, invSessions := 0, nonce := none, failCount := 0, lockout := false,
    erasing := none, reload := false, moverHalted := false, deferred := [], trace := [] }

/-- The device right after reset: SYS_RST_N has just been deasserted after power-on (R460, R495). -/
def State.reset : State :=
  { pending := [], out := [], freeIx := 0, accNo := 0, lclk := 0, upSince := 0, backup := false, fclk := .stopped,
    hbm := [], pins := Pins.reset, boot := Boot.reset, p2 := .awake, p2Cond := none, p2Since := 0, power := Power.reset,
    sensors := Sensors.reset, stores := Stores.manufactured resetKeyHash, secure := Secure.reset, spdm := [],
    sessions := [], eventReceiver := none, update := none, pcp := Queue.blank, pcpReset := none, expCtr := 0,
    nvsWait := none, fatal := false, pairs := [], restart := none, restarts := 0, restartTimes := [], latent := none,
    cmds := [], funcs := [], ports := [], plots := [], engines := [], devZeroing := 0, keeper := Keeper.reset,
    devLog := Log.empty, devNew := false, devLost := false, devCe := false, devSetAt := [], routesLost := [], telSnap := 0,
    energy := 0, fabRetry := 0, moverRetry := 0, devSnap := ⟨0, 0, 0, 0⟩ }

end Sys2Proof.Machine
end

