-- ==== Sys2Proof/Machine/Ops.lean ====
section
/-!
DEFINITION. The named operations over the state: functions, queues, plots, error logs, interrupts, replies, the end of
a command, and the tick (files 12, 15, 16).
-/

namespace Sys2Proof.Machine

/-! ## Fuses and the non-volatile store (R422, R423) -/

/-- Both fuses of a lifecycle state read 1. -/
def burned (f : Bool × Bool) : Bool := f.1 && f.2

/-- The lifecycle state: a state is reached only when both of its fuses read 1. -/
def Stores.life (x : Stores) : Life :=
  if burned x.lifeFuses.retired then .retired
  else if burned x.lifeFuses.field then .field
  else if burned x.lifeFuses.provisioned then .provisioned
  else .blank

/-- Fuses after a burn that reads back as `r`: they change only from 0 to 1. -/
def burnPair (f r : Bool × Bool) : Bool × Bool := (f.1 || r.1, f.2 || r.2)

/-- The fuses of a lifecycle state burned, as they read back. -/
def Stores.burn (x : Stores) (l : Life) (r : Bool × Bool) : Stores :=
  { x with lifeFuses := match l with
    | .blank => x.lifeFuses
    | .provisioned => { x.lifeFuses with provisioned := burnPair x.lifeFuses.provisioned r }
    | .field => { x.lifeFuses with field := burnPair x.lifeFuses.field r }
    | .retired => { x.lifeFuses with retired := burnPair x.lifeFuses.retired r } }

/-- PROVISIONED or FIELD. -/
def Stores.inUse (st : Stores) : Bool := st.life == .provisioned || st.life == .field

/-- The NVS records' contents, and a record written. -/
def Stores.certChain (x : Stores) : List Byte := x.chain.value chainBytes
def Stores.record (x : Stores) : Authority := x.owner.value authorityBytes
def Stores.limit (x : Stores) : Nat := x.reservation.value limitBytes

/-- The management authority: it exists in PROVISIONED and FIELD only (Table 2 of R423). -/
def Stores.authority (x : Stores) : Authority := if x.inUse then x.record else .none

def Stores.setAuthority (x : Stores) (a : Authority) : Stores := { x with owner := x.owner.write authorityBytes a }

/-- One write of the reservation limit, 4,096 beyond the last, in one of the words that remain (R435). -/
def Stores.reserve (x : Stores) : Stores :=
  { x with reservation := x.reservation.write limitBytes (x.limit + 4096), writesLeft := x.writesLeft - 1 }

/-- The same write cut off by a loss of power. -/
def Stores.tornReserve (x : Stores) (whole : Bool) : Stores :=
  { x with reservation := x.reservation.torn limitBytes (x.limit + 4096) whole, writesLeft := x.writesLeft - 1 }

/-! ## Names and access -/

/-- The number of a function: its port and its function number. -/
def fidNat (f : FuncId) : Nat := f.port.val * 64 + f.fn.val

/-- The function of a number. -/
def fidOf (n : Nat) : FuncId := ⟨Fin.ofNat 4 (n / 64), Fin.ofNat 64 n⟩

def State.fn (s : State) (f : FuncId) : Func := (mget s.funcs (fidNat f)).getD Func.reset
def State.setFn (s : State) (f : FuncId) (x : Func) : State := { s with funcs := mput s.funcs (fidNat f) x }
def State.port (s : State) (p : Nat) : Port := (mget s.ports p).getD Port.reset
def State.setPort (s : State) (p : Nat) (x : Port) : State := { s with ports := mput s.ports p x }
def State.eng (s : State) (e : Nat) : Engine := (mget s.engines e).getD Engine.reset
def State.setEng (s : State) (e : Nat) (x : Engine) : State := { s with engines := mput s.engines e x }
def State.pair (s : State) (i : Nat) : Pair := (mget s.pairs i).getD Pair.reset
def State.setPair (s : State) (i : Nat) (x : Pair) : State := { s with pairs := mput s.pairs i x }
def State.stack (s : State) (i : Nat) : Hbm := (mget s.hbm i).getD .off
def State.setStack (s : State) (i : Nat) (x : Hbm) : State := { s with hbm := mput s.hbm i x }
def State.setPlot (s : State) (p : Nat) (x : Plot) : State := { s with plots := mput s.plots p x }
def State.modPlot (s : State) (p : Nat) (g : Plot → Plot) : State := { s with plots := mmod s.plots p g }
def State.modFn (s : State) (f : FuncId) (g : Func → Func) : State := s.setFn f (g (s.fn f))
def State.modEng (s : State) (e : Nat) (g : Engine → Engine) : State := s.setEng e (g (s.eng e))

/-- The queue of a source. -/
def State.queue (s : State) : Src → Option Queue
  | .ring f q => mget (s.fn f).queues q
  | .bmc => some s.pcp

def State.setQueue (s : State) (src : Src) (x : Queue) : State :=
  match src with
  | .ring f q => s.modFn f fun y => { y with queues := mput y.queues q x }
  | .bmc => { s with pcp := x }

def State.modQueue (s : State) (src : Src) (g : Queue → Queue) : State :=
  match s.queue src with
  | some x => s.setQueue src (g x)
  | none => s

/-- The plot whose configuration binds a function (R346). -/
def boundIn : Map Plot → Nat → Option Nat
  | [], _ => none
  | (p, x) :: m, f => if x.binds.any (·.fid == f) then some p else boundIn m f

/-- The plot of a source: none for an unbound function and for the BMC's channel (R346, R347). -/
def State.plotOf (s : State) : Src → Option Nat
  | .ring f _ => boundIn s.plots (fidNat f)
  | .bmc => none

/-- The queue allotment of a function: 1 while it is unbound (R342, R476). -/
def State.allot (s : State) (f : FuncId) : Nat :=
  match (boundIn s.plots (fidNat f)).bind (mget s.plots) with
  | some p => ((p.binds.find? (·.fid == fidNat f)).map (·.allot)).getD 1
  | none => 1

/-- The function is the designated PF (R340). -/
def State.designated (s : State) (f : FuncId) : Bool :=
  s.stores.authority == .pf f.port.val && f.fn == 0

/-- The source holds management authority (R341). -/
def State.hasAuthority (s : State) : Src → Bool
  | .ring f q => s.designated f && q == 0
  | .bmc => s.stores.authority == .bmc

/-- Ports of the bifurcation mode (R338). -/
def State.portCount (s : State) : Nat := if s.pins.lanes = 0 then 1 else if s.pins.lanes = 1 then 2 else 4

/-- The function exists: its port does, and it is the PF or an enabled VF (R338, R445). -/
def State.present (s : State) (f : FuncId) : Bool :=
  decide (f.port.val < s.portCount) &&
    (f.fn == 0 || ((s.fn ⟨f.port, 0⟩).cfg.vfEnable && decide (f.fn.val ≤ (s.fn ⟨f.port, 0⟩).cfg.numVfs)))

/-! ## Time (R402) -/

/-- LCLK cycles of a number of microseconds and milliseconds: 25 MHz (R402). -/
def usec (n : Nat) : Nat := 25 * n
def msec (n : Nat) : Nat := 25000 * n

/-- Milliseconds since bring-up, modulo 2^32 (R375). -/
def State.timeMs (s : State) : Nat := ((s.lclk - s.upSince) / 25000) % 2 ^ 32

/-- A value that saturates at 32 bits. -/
def sat32 (n : Nat) : Nat := min (2 ^ 32 - 1) n

/-! ## Conditions of the device -/

/-- The main supply is present, the pins hold no reset, and the device is not in the fatal state (R371, R413). -/
def State.alive (s : State) : Bool :=
  s.pins.vaon && s.pins.mainSupply && s.pins.sysRstN && s.pins.pwrDnN && !s.fatal

/-- The Lodge serves registers: it needs only its supply, also in the fatal state (R20, R29, R371). -/
def State.lodgeUp (s : State) : Bool := s.pins.vaon && s.pins.mainSupply && s.pins.sysRstN && s.pins.pwrDnN

/-- Some Gatehouse pair is in service and not held by a debugger (R365, R436). -/
def State.pairUp (s : State) : Bool := (List.range 4).any fun i => (s.pair i).active && !(s.pair i).halted

/-- The Gatehouse runs: after READY, with FCLK, and in no restart (R28, R365, R461). -/
def State.gatehouseUp (s : State) : Bool :=
  s.alive && s.boot.ready && s.fclk == .running && s.restart.isNone && s.secure.erasing.isNone && s.pairUp

/-- Every HBM stack can be accessed; accesses wait while one relocks or leaves self-refresh (R217, R362, R411). -/
def State.hbmUp (s : State) : Bool := (List.range 4).all fun i => s.stack i == .ready

/-- A function may issue DMA: D0, Bus Master Enable, no FLR, and its link up (R414, R451, R459). -/
def State.dmaOk (s : State) (f : FuncId) : Bool :=
  let c := (s.fn f).cfg
  c.busMaster && !c.d3hot && (s.fn f).flr.isNone &&
    ((s.port f.port.val).link == .l0 || (s.port f.port.val).link == .l1)

/-- A queue has a reply or a shadow write that waits to be sent (R408). -/
def Queue.waits (q : Queue) : Bool := q.owed || q.slots.any fun sl => sl.reply.isSome

/-- A function has something that waits to be sent: a reply, a shadow write or a pending interrupt (R408). -/
def Func.waits (x : Func) : Bool := (x.queues.any fun q => q.2.waits) || x.msix.any fun e => e.2.pend

/-- An engine is GATED until its wake has ended (R406, R407, R411), and a FAILED one counts as GATED (R405). -/
def Engine.isGated (x : Engine) : Bool := x.failed || !(x.power == .running)

/-- The device is in P1: every engine is GATED or FAILED, and FCLK runs (R405). -/
def State.inP1 (s : State) : Bool :=
  s.p2 == .awake && s.fclk == .running && (List.range 6).all fun e => (s.eng e).isGated

/-- An engine wakes: work is on its way to it, and the device does not enter P2 (log entry 88). -/
def Engine.isWaking (x : Engine) : Bool :=
  match x.power with
  | .waking _ => !x.failed
  | _ => false

/-- A slice that entry to P2 waits for (R390). -/
def Engine.holdsP2 (x : Engine) : Bool :=
  match x.slice with
  | some sl => !(sl.kind == .opportunistic)
  | none => false

/-- A residency move is in progress (R214, R408). -/
def Plot.moving (p : Plot) : Bool := p.streams.any fun x => x.2.res == .movingIn || x.2.res == .movingOut

/-- The conditions of P2 entry (R408). A device that has not reached READY, or that restarts or erases, does not enter. -/
def p2Ready (s : State) : Bool :=
  s.alive && s.boot.ready && s.restart.isNone && s.secure.erasing.isNone && s.power.p2en && s.inP1 && s.hbmUp && s.cmds.isEmpty &&
    !(s.funcs.any fun f => f.2.waits) && !s.pcp.waits && !(s.plots.any fun p => p.2.moving) &&
    !(s.engines.any fun e => e.2.holdsP2 || e.2.isWaking) &&
    (List.range s.portCount).all fun p => !((s.port p).link == .l0)

/-! ## What the device sends (R21, R456) -/

/-- A port has carried a transaction: its idle time starts again, and a link in L1 returns to L0 (R410, R456). -/
def touchPort (s : State) (p : Nat) : State :=
  s.setPort p { s.port p with idleSince := s.lclk, link := if (s.port p).link == .l1 then .l0 else (s.port p).link }

/-- Memory writes leave through the function's own port (R339). -/
def sendFrom (s : State) (f : FuncId) (es : List Emit) : State :=
  { touchPort s f.port.val with out := s.out ++ es }

/-! ## Interrupts (R283) -/

/-- MSI-X vectors of a function: 256 in a PF, 16 in a VF (R281). -/
def vecLimit (f : FuncId) : Nat := if f.fn = 0 then 256 else 16

def Func.vec (x : Func) (v : Nat) : MsixEntry := (mget x.msix v).getD MsixEntry.reset

/-- A message of the vector may go out: MSI-X is enabled, neither the function nor the vector is masked, and in the fatal state
only the error vector is sent (R283, R371). -/
def vecOpen (s : State) (f : FuncId) (v : Nat) : Bool :=
  let x := s.fn f
  s.dmaOk f && x.cfg.msixEnable && !x.cfg.msixMask && !(x.vec v).masked && (!s.fatal || v == x.errVec)

/-- The message of a vector goes out, or its pending bit is set (R283). -/
def signalVec (s : State) (f : FuncId) (v : Nat) : State :=
  let e := (s.fn f).vec v
  if vecOpen s f v then
    sendFrom s f [.msix f v e.addr e.data]
  else s.modFn f fun x => { x with msix := mput x.msix v { e with pend := true } }

/-- A pending vector that may now be sent is sent once (R283). -/
def flushVec (s : State) (f : FuncId) (v : Nat) : State :=
  let e := (s.fn f).vec v
  if e.pend && vecOpen s f v then
    let t := s.modFn f fun x => { x with msix := mput x.msix v { e with pend := false } }
    sendFrom t f [.msix f v e.addr e.data]
  else s

def flushVecs (s : State) (f : FuncId) : State :=
  (s.fn f).msix.foldl (fun t p => flushVec t f p.1) s

/-- The function's error vector is signalled, without coalescing (R283). -/
def signalErr (s : State) (f : FuncId) : State := signalVec s f (s.fn f).errVec

/-! ## Error logs (R374 to R379) -/

/-- The 32 bytes of an error record (R375). -/
def Rec.bytes (r : Rec) : List Byte :=
  toLe 2 r.type ++ toLe 1 r.cls ++ toLe 1 r.unit ++ toLe 4 r.loc ++ toLe 8 r.addr ++ toLe 8 r.seq ++ toLe 2 r.qid ++
    toLe 2 r.func ++ toLe 4 r.time

/-- FUNC of R375. -/
def funcField (f : FuncId) : Nat := f.fn.val + 256 * f.port.val

/-- A log with a record added: discarded and counted when the log is full (R374). The Bool tells that it was added. -/
def Log.add (l : Log) (cap : Nat) (r : Rec) : Log × Bool :=
  if l.recs.length < cap then ({ l with recs := l.recs ++ [r] }, true) else ({ l with lost := sat32 (l.lost + 1) }, false)

/-- Functions of a plot, in binding order. -/
def Plot.fids (p : Plot) : List FuncId := p.binds.map fun b => fidOf b.fid

/-- LOGNEW or LOST set in every bound function, and the error vector of every active one signalled (R377, R379). -/
def notePlot (s : State) (p : Plot) (added : Bool) : State :=
  p.fids.foldl (fun t f =>
    let u := t.modFn f fun x =>
      if added then { x with logNew := true, setAt := mput x.setAt 0 s.lclk } else { x with lost := true, setAt := mput x.setAt 1 s.lclk }
    if (u.fn f).enable then signalErr u f else u) s

/-- A record added to one plot's log (R376). -/
def plotRecord (s : State) (p : Nat) (r : Rec) : State :=
  match mget s.plots p with
  | none => s
  | some x =>
    let a := x.log.add 64 r
    notePlot (s.setPlot p { x with log := a.1 }) x a.2

/-- An event message to the receiver, when one is set (R469). -/
def sendEvent (s : State) (body : List Byte) : State :=
  match s.eventReceiver with
  | some eid => { s with out := s.out ++ [.event eid body] }
  | none => s

/-- What reports a record (R379, R469): the PLDM event, and a designated PF's error vector. -/
def reportRecord (s : State) (r : Rec) : State :=
  let t := sendEvent s r.bytes
  match s.stores.authority with
  | .pf p =>
    let f : FuncId := ⟨Fin.ofNat 4 p, 0⟩
    if (t.fn f).enable then signalErr t f else t
  | _ => t

/-- A record added to the device log, and reported; a record that a full log discards is only counted (R374, R376, R379). -/
def deviceRecord (s : State) (r : Rec) : State :=
  let a := s.devLog.add 256 r
  if a.2 then reportRecord { s with devLog := a.1, devNew := true, devSetAt := mput s.devSetAt 0 s.lclk } r
  else { s with devLog := a.1, devLost := true, devSetAt := mput s.devSetAt 1 s.lclk }

/-- A DEVICE record as a plot log carries it: LOC, ADDR, SEQ, QID and FUNC are 0 (R375). -/
def Rec.blind (r : Rec) : Rec := { r with loc := 0, addr := 0, seq := 0, qid := 0, func := 0 }

/-- ERROR_RECORD_ADD (R376): a CONTAINED or LATENT record goes to its plot's log and the device log, a DEVICE or FATAL
record to every plot log and the device log. -/
def addRecord (s : State) (plot : Option Nat) (r : Rec) : State :=
  let r := { r with time := s.timeMs }
  let t :=
    if r.cls < 2 then match plot with
      | some p => plotRecord s p r
      | none => s
    else s.plots.foldl (fun u q => plotRecord u q.1 (if r.cls = 2 then r.blind else r)) s
  deviceRecord t r

/-- A record that names no command (R375). -/
def deviceEvent (type cls unit loc addr : Nat) : Rec :=
  ⟨type, cls, unit, loc, addr, 2 ^ 64 - 1, 0xFFFF, 0xFFFF, 0⟩

/-- A record that names a command (R375). -/
def cmdEvent (type cls unit loc addr : Nat) (c : Cmd) : Rec :=
  match c.src with
  | .ring f q => ⟨type, cls, unit, loc, addr, c.seqs.getLastD 0, q, funcField f, 0⟩
  | .bmc => ⟨type, cls, unit, loc, addr, c.seqs.getLastD 0, 0xFFFF, 0xFFFF, 0⟩

/-- A corrected error counted in a log: ERR_CE_COUNT and ERR_CE_LAST (R377). -/
def Log.correct (l : Log) (hbm : Bool) (addr : Nat) : Log :=
  if hbm then { l with ceHbm := sat32 (l.ceHbm + 1), ceLast := addr }
  else { l with ceSram := sat32 (l.ceSram + 1), ceLast := addr }

/-- A corrected error, in the plot's log and the device's (R374, R377). -/
def countCorrected (s : State) (plot : Option Nat) (hbm : Bool) (addr : Nat) : State :=
  let t := match plot.bind fun p => (mget s.plots p).map fun x => (p, x) with
    | some (p, x) =>
      let u := s.setPlot p { x with log := x.log.correct hbm addr }
      x.fids.foldl (fun (v : State) f => v.modFn f fun y => { y with ce := true, setAt := mput y.setAt 2 s.lclk }) u
    | none => s
  { t with devLog := t.devLog.correct hbm addr, devCe := true, devSetAt := mput t.devSetAt 2 s.lclk }

/-! ## Copies in the Lodge (R400, R471) -/

/-- The Lodge's copies of the counters (R400, R471): those of units that stand keep what they held. -/
def snapshot (s : State) : State :=
  { s with
    telSnap := (s.lclk - s.upSince) / 25000
    devSnap := ⟨s.energy / 10, s.fabRetry, s.routesLost.length, s.moverRetry⟩
    funcs := s.funcs.map fun f => (f.1, { f.2 with snap := f.2.tel })
    plots := s.plots.map fun p => (p.1, { p.2 with epochsSnap := p.2.epochs })
    engines := s.engines.map fun e => (e.1, { e.2 with telSnap := e.2.tel }) }

/-! ## The fatal state (R370, R371) -/

/-- Entry to the fatal state: the Gatehouse, engines and Mover stop, commands have no effect, the DEVICE_FATAL record is
added, naming the unit (R463), and each port signals an Uncorrectable Internal Error (R371). The copies of what stops keep its last
values (R400). -/
def enterFatal (unit : Nat) (s : State) : State :=
  if s.fatal then s
  else
    let t := { snapshot s with fatal := true, cmds := [], restart := none }
    let u := addRecord t none (deviceEvent 0x000F 3 unit 0 0)
    { u with out := u.out ++ (List.range u.portCount).map fun p => .aer p }

/-! ## Statuses and replies (R276, R277) -/

/-- Table 8 of R277. -/
def Status.code : Status → Nat
  | .ok => 0x0000 | .okDuplicate => 0x0001 | .okPartial => 0x0002 | .aborted => 0x0010 | .abortTooLate => 0x0011
  | .skipped => 0x0012 | .retrySafe => 0x0013 | .effectUnknown => 0x0014 | .badOpcode => 0x0020
  | .badParam => 0x0021 | .badLength => 0x0022 | .staleSequence => 0x0023 | .badCrc => 0x0024 | .noSpace => 0x0030
  | .tensorAbsent => 0x0031 | .planExceeds => 0x0032 | .tensorMoved => 0x0033 | .pagesScrubbing => 0x0034
  | .gatherFault => 0x0040 | .slotTimeout => 0x0041 | .datapathFault => 0x0050 | .uncorrectableData => 0x0051
  | .controlFault => 0x0052 | .authFail => 0x0060 | .notPermitted => 0x0061 | .versionMismatch => 0x0062

/-- The statuses that halt an ORDERED queue: RETRY_SAFE, EFFECT_UNKNOWN, and every value from 0x0020 on (R273). -/
def Status.halts (st : Status) : Bool := st == .retrySafe || st == .effectUnknown || decide (0x0020 ≤ st.code)

/-- A reply with a status and nothing else. -/
def Reply.bare (st : Status) : Reply := ⟨st, 0, 0, 0, [], []⟩

/-- A reply with a status and DETAIL32. -/
def Reply.at (st : Status) (d : Nat) : Reply := ⟨st, 0, d, 0, [], []⟩

/-- DETAIL32 where no single field is at fault (R277, log entry 15). -/
def noField : Nat := 0xFFFFFFFF

def Reply.badParam (off : Nat) : Reply := Reply.at .badParam off
def Reply.ok (block payload : List Byte) : Reply := ⟨.ok, 0, 0, 0, padTo 16 block, payload⟩

/-- A status-specific block of R287. -/
def Reply.withBlock (st : Status) (b : List Byte) : Reply := ⟨st, 0, 0, 0, padTo 16 b, []⟩

/-- TENSOR_ABSENT with the absent handle (R287). -/
def Reply.absent (h : Nat) : Reply := Reply.withBlock .tensorAbsent (toLe 4 h)

/-- TENSOR_MOVED with the home range (R287). -/
def Reply.moved (h e a : Nat) : Reply := Reply.withBlock .tensorMoved (toLe 4 h ++ toLe 1 e ++ zeros 3 ++ toLe 4 a)

/-- NO_SPACE with the resource that fell short (R287): 0 slots, 1 pages, 2 handles, 3 plans, 4 queues. -/
def Reply.noSpace (resource : Nat) : Reply := Reply.withBlock .noSpace (toLe 1 resource)

/-- The packet a reply is (R259, R260, R276). A chain part carries only the common part (R264). -/
def replyBytes (sl : Slot) (r : Reply) : List Byte :=
  let block := if sl.chainPart then [] else r.block
  let payload := if sl.chainPart then [] else r.payload
  let padded := padTo 16 payload
  let tlen := 64 + block.length + padded.length
  let word := r.status.code + 65536 * (sl.stream % 4096) + (if sl.untrusted then 2 ^ 28 else 0) +
    (if sl.chainPart then 2 ^ 29 else 0)
  let body := toLe 4 word ++ toLe 4 tlen ++ toLe 8 sl.seq ++ toLe 8 sl.tag ++ toLe 4 (16 + block.length) ++
    toLe 4 sl.handle ++ toLe 2 r.orig ++ zeros 2 ++ toLe 4 r.d32 ++ toLe 8 r.d64 ++ block ++ padded ++
    toLe 1 (padded.length - payload.length) ++ zeros 11
  body ++ toLe 4 (crc32c body)

/-- The bytes of a reply. -/
def replyLen (sl : Slot) (r : Reply) : Nat :=
  if sl.chainPart then 64 else 64 + r.block.length + roundUp r.payload.length 16

/-! ## Ring positions, the shadow and interrupts of a queue (R254, R258, R282) -/

def Queue.sqOcc (q : Queue) : Nat := (q.sqTail + 2 ^ 32 - q.sqHead) % 2 ^ 32
def Queue.cqOcc (q : Queue) : Nat := (q.cqTail + 2 ^ 32 - q.cqHead) % 2 ^ 32

/-- Completion granules free of replies and reservations (R270). -/
def Queue.cqFree (q : Queue) : Nat :=
  q.cqSize / 16 - q.cqOcc - (q.slots.map (·.space)).sum

/-- QSTATE that a shadow write carries: HALTED follows the replies that go with the halt (R258). -/
def Queue.shadowState (q : Queue) : QState :=
  if q.qstate == .halted && q.slots.any (·.withHalt) then q.shown else q.qstate

def QState.code : QState → Nat
  | .active => 0 | .halted => 1 | .broken => 2

/-- Bytes 0 to 31 of the shadow area (R258, Table 2). -/
def shadowBytes (q : Queue) : List Byte :=
  toLe 4 q.sqHead ++ toLe 4 q.cqTail ++ toLe 1 q.shadowState.code ++ zeros 7 ++ toLe 8 q.e ++ toLe 8 q.haltSeq

/-- A queue signals its vector and clears its count and timer (R282). -/
def signalQueue (s : State) (f : FuncId) (q : Nat) : State :=
  match s.queue (.ring f q) with
  | none => s
  | some x =>
    let t := s.setQueue (.ring f q) { x with counted := 0, timer := none }
    if x.ien then signalVec t f x.vector else t

/-- The shadow write after a change of SQ_HEAD, CQ_TAIL or QSTATE (R258); owed while the function may issue no DMA
(R414). The Bool tells that it carries a change of QSTATE. -/
def putShadow (s : State) (f : FuncId) (q : Nat) : State × Bool :=
  match s.queue (.ring f q) with
  | none => (s, false)
  | some x =>
    if x.mute then (s, false)
    else if s.dmaOk f then
      let st := x.shadowState
      let t := s.setQueue (.ring f q) { x with shown := st, owed := false, mute := st == .broken }
      (sendFrom t f [.shadow f q x.shadow (shadowBytes x)], st != x.shown)
    else (s.setQueue (.ring f q) { x with owed := true }, false)

/-- A shadow write, and the interrupt that a change of QSTATE in it signals (R258, R282). -/
def writeShadow (s : State) (f : FuncId) (q : Nat) : State :=
  let r := putShadow s f q
  if r.2 then signalQueue r.1 f q else r.1

/-- The shadow of a source; the BMC's channel has none (R466). -/
def touchShadow (s : State) : Src → State
  | .ring f q => writeShadow s f q
  | .bmc => s

/-- Max Payload Size in bytes. A VF writes with its PF's (PRESUMED, log entry 100). -/
def State.payload (s : State) (f : FuncId) : Nat := 128 * 2 ^ (s.fn ⟨f.port, 0⟩).cfg.maxPayload

/-- The memory writes that carry bytes to an address: split at Max Payload Size and at 4 KiB boundaries (R454). -/
def tlps (size : Nat) : Nat → Nat → List Byte → List (Nat × List Byte)
  | 0, addr, bytes => [(addr, bytes)]
  | n + 1, addr, bytes =>
    let k := min size (4096 - addr % 4096)
    if bytes.length ≤ k then [(addr, bytes)] else (addr, bytes.take k) :: tlps size n (addr + k) (bytes.drop k)

/-- Bytes written to the completion ring at a position, in two parts where the ring wraps (R254, R261, R454). -/
def ringWrites (size : Nat) (f : FuncId) (q : Nat) (x : Queue) (bytes : List Byte) (ro : Bool) : List Emit :=
  let off := (x.cqTail % (x.cqSize / 16)) * 16
  let room := x.cqSize - off
  let parts := if bytes.length ≤ room then tlps size bytes.length (x.cqBase + off) bytes
    else tlps size room (x.cqBase + off) (bytes.take room) ++ tlps size bytes.length x.cqBase (bytes.drop room)
  parts.map fun w => .ring f q w.1 w.2 ro

/-- R282: a reply has been written, and its shadow, which carried a change of QSTATE where `changed` holds. One signal covers
both. -/
def countReply (s : State) (f : FuncId) (q : Nat) (irq changed : Bool) (st : Status) : State :=
  match s.queue (.ring f q) with
  | none => s
  | some x =>
    let n := x.counted + 1
    if x.ien then
      if decide (x.cthresh ≤ n) || decide (x.cthresh ≤ 1) || irq || st.halts || changed then signalQueue s f q
      else
        s.setQueue (.ring f q)
          { x with counted := n, timer := if x.timer.isNone && x.ctime != 0 then some s.lclk else x.timer }
    else s

/-- A reply leaves: the reply, the shadow, then any interrupt (R33 steps 6 to 8). The shadow and the interrupts of staged replies
follow all of them (R414). -/
def writeReply (s : State) (src : Src) (sl : Slot) (r : Reply) : State :=
  let bytes := replyBytes sl r
  match src, s.queue src with
  | .ring f q, some x =>
    let t := s.setQueue src { x with cqTail := (x.cqTail + bytes.length / 16) % 2 ^ 32,
                                     slots := x.slots.erase sl }
    let u := sendFrom t f (ringWrites (s.payload f) f q x bytes (s.fn f).cfg.relaxed)
    let v := u.modFn f fun y =>
      { y with tel := { y.tel with pktOut := y.tel.pktOut + 1, bytesOut := y.tel.bytesOut + bytes.length } }
    if sl.staged then v.modQueue src fun y => { y with owed := true }
    else
      let w := putShadow v f q
      countReply w.1 f q sl.irq w.2 r.status
  | .bmc, some x =>
    let t := s.setQueue src { x with slots := x.slots.erase sl }
    { t with out := t.out ++ [.pcp bytes] }
  | _, none => s

/-! ## The order of replies (R271, R272, R280, R290) -/

/-- The target's replies have been written (R290). -/
def targetWritten (s : State) (f : FuncId) (acc : Nat) : Bool :=
  (s.fn f).queues.all fun p => p.2.slots.all fun sl => !(sl.kind == .command && sl.acc == acc)

/-- An earlier slot that a slot of an UNORDERED queue must follow: an ordering point follows earlier commands of its
stream (R280), a duplicate its original (R267), and one chain's replies follow each other. -/
def mustFollow (earlier sl : Slot) : Bool :=
  (sl.ordering && earlier.kind == .command && (!sl.named || (earlier.named && earlier.stream == sl.stream))) ||
    (sl.kind == .duplicate && earlier.seq == sl.seq) || (earlier.kind == .command && sl.kind == .command && earlier.acc == sl.acc)

/-- The first slot of a queue whose reply may be written now. -/
def writable (s : State) (f : FuncId) (x : Queue) : List Slot → List Slot → Option (Slot × Reply)
  | _, [] => none
  | before, sl :: rest =>
    let here : Option (Slot × Reply) :=
      match sl.reply with
      | none => none
      | some r =>
        let order := if x.unordered then before.all (fun b => !mustFollow b sl) else before.isEmpty
        let abort := match sl.target with
          | some t => targetWritten s f t
          | none => true
        let space := decide (replyLen sl r / 16 ≤ x.cqFree + sl.space)
        if order && abort && space then some (sl, r) else none
    match here with
    | some a => some a
    | none => if x.unordered then writable s f x (before ++ [sl]) rest else none

/-- The first queue of a function with a reply that may be written. -/
def nextReply (s : State) (f : FuncId) : Map Queue → Option (Nat × Slot × Reply)
  | [] => none
  | (q, x) :: m =>
    if x.qstate == .broken then nextReply s f m
    else match writable s f x [] x.slots with
      | some (sl, r) => some (q, sl, r)
      | none => nextReply s f m

/-- Slots of a queue whose reply may be staged: in the order in which they may be written (R271, R272, R414). -/
def stageable (x : Queue) : List Slot → List Slot → List Slot
  | _, [] => []
  | before, sl :: rest =>
    let order := if x.unordered then before.all fun b => !mustFollow b sl else before.isEmpty
    if sl.reply.isSome && order then (if sl.staged then [] else [sl]) ++ stageable x before rest else stageable x (before ++ [sl]) rest

/-- One reply is staged: its interrupt is counted, and so marked pending when it falls due (R414). -/
def stageReply (f : FuncId) (q : Nat) (s : State) (sl : Slot) : State :=
  let t := s.modQueue (.ring f q) fun x =>
    { x with owed := true, slots := x.slots.map fun z => if z == sl then { z with staged := true } else z }
  match sl.reply with
  | some r => countReply t f q sl.irq false r.status
  | none => t

/-- Replies of a function whose DMA is not allowed are staged (R414). -/
def stageFn (s : State) (f : FuncId) : State :=
  (s.fn f).queues.foldl (fun (t : State) q => (stageable q.2 [] q.2.slots).foldl (stageReply f q.1) t) s

/-- Replies are written: the device is alive, and no Gatehouse restart runs (R365, R371). -/
def State.mayReply (s : State) : Bool := s.alive && s.restart.isNone

/-- Every reply of a function that may be written is written (R33, R271, R272), while its DMA is allowed (R414). -/
def drainFn (f : FuncId) : Nat → State → State
  | 0, s => s
  | n + 1, s =>
    if s.dmaOk f && s.mayReply then
      match nextReply s f (s.fn f).queues with
      | some (q, sl, r) => drainFn f n (writeReply s (.ring f q) sl r)
      | none => s
    else s

/-- Replies waiting in the queues of a function. -/
def waiting (x : Func) : Nat := (x.queues.map fun p => p.2.slots.length).sum

/-- The duplicate's reply, once its original has ended (R267). -/
def dupReply (x : Queue) (sl : Slot) : Slot :=
  if sl.kind == .duplicate && sl.reply.isNone then
    match (mget x.window sl.seq).bind (·.status) with
    | some st => { sl with reply := some { Reply.bare .okDuplicate with orig := st.code } }
    | none => sl
  else sl

/-- The channel's replies, in order (R466). -/
def drainBmc : Nat → State → State
  | 0, s => s
  | n + 1, s =>
    match s.pcp.slots with
    | sl :: _ => match sl.reply with
      | some r => drainBmc n (writeReply s .bmc sl r)
      | none => s
    | [] => s

/-- A vendor-defined MCTP message: type 0x7E, the Vendor ID, the subtype, the body (R465, log entry 42). -/
def vendorMsg (sub : Nat) (body : List Byte) : List Byte := toLe 1 0x7E ++ toBe 2 0x1F5C ++ toLe 1 sub ++ body

def sendMctp (s : State) (ep : Endpoint) (b : List Byte) : State := { s with out := s.out ++ [.mctp ep b] }

/-- The channel after its reset: no window, a new E, ACTIVE. -/
def Queue.channelReset (x : Queue) (e : Nat) : Queue :=
  { x with e := e % 2 ^ 64, firstE := e % 2 ^ 64, window := [], qstate := .active, byRing := false, staged := none, chain := none }

/-- A channel reset waits until no command of the channel is in flight; it is then answered (R466). -/
def resetChannel (s : State) : State :=
  match s.pcpReset with
  | some (ep, e) =>
    if s.cmds.any fun c => c.src == .bmc then s
    else sendMctp { s with pcp := s.pcp.channelReset e, pcpReset := none } ep (vendorMsg 3 (toLe 1 0))
  | none => s

/-- REPLY_WRITE for a source (R33, R414). -/
def drain (s : State) : Src → State
  | .ring f _ => if s.mayReply && !s.dmaOk f then stageFn s f else drainFn f (waiting (s.fn f)) s
  | .bmc =>
    if s.mayReply then
      resetChannel (drainBmc s.pcp.slots.length { s with pcp := { s.pcp with slots := s.pcp.slots.map (dupReply s.pcp) } })
    else s

/-! ## The end of a command (R265, R273, R278) -/

/-- The window entries of a command carry its status (R267). -/
def setStatus (w : Map WinEntry) (acc : Nat) (st : Status) : Map WinEntry :=
  w.map fun p => if p.2.acc == acc then (p.1, { p.2 with status := some st }) else p

/-- The reply slots of a command receive its reply (R264). -/
def fillSlots (l : List Slot) (acc : Nat) (r : Reply) (halt : Bool) : List Slot :=
  l.map fun sl => if sl.kind == .command && sl.acc == acc then { sl with reply := some r, withHalt := halt } else sl

/-- An admin queue, which no command status halts (R273). -/
def isAdmin : Src → Bool
  | .ring _ q => q == 0
  | .bmc => true

/-- One command's queue after the command ends: window, slots, and its open chain (R264, R265, R267). -/
def endInQueue (x : Queue) (c : Cmd) (r : Reply) (halt : Bool) : Queue :=
  { x with
    window := setStatus x.window c.acc r.status
    slots := fillSlots x.slots c.acc r halt
    chain := if c.isOpen then x.chain.map fun h => { h with ended := some r } else x.chain }

/-- The trace entry of a command that ends, while the debug level gives a trace (R436). -/
def traceEnd (s : State) (c : Cmd) (st : Status) : State :=
  let x := match c.src with
    | .ring f q => (q, funcField f)
    | .bmc => (0xFFFF, 0xFFFF)
  if s.secure.level == .closed then s
  else { s with secure := { s.secure with
    trace := s.secure.trace ++ [⟨c.opcode, x.1, x.2, c.plot, st.code, c.placed, s.lclk⟩] } }

/-- The PLOT_RELEASE that stops the queues of a plot, those made later among them, or none (R351). -/
def stopPlot (s : State) (p : Nat) (by' : Option Nat) : State := s.modPlot p fun x => { x with releasing := by' }

/-- The plot of a source is being released (R351). -/
def releasing (s : State) (src : Src) : Bool := ((s.plotOf src).bind (mget s.plots)).any (·.releasing.isSome)

/-- A QUEUE_DELETE or PLOT_RELEASE that ends without effect lets its queues fetch again, unless another one stops them. -/
def undoStop (s : State) (c : Cmd) : State :=
  match c.opcode, c.src with
  | 0x61, .ring f _ => s.modQueue (.ring f (fieldAt c.params 0 2)) fun x =>
      { x with closing := s.cmds.any fun d => d.opcode == 0x61 && d.acc != c.acc && d.src == c.src &&
          fieldAt d.params 0 2 == fieldAt c.params 0 2 }
  | 0x71, _ =>
    let p := byteAt c.params 0
    if (mget s.plots p).any fun x => x.releasing == some c.acc then
      stopPlot s p ((s.cmds.find? fun d => d.opcode == 0x71 && d.acc != c.acc && byteAt d.params 0 == p).map (·.acc))
    else s
  | _, _ => s

/-- A command leaves the commands in flight with a reply. -/
def finish (s : State) (c : Cmd) (r : Reply) (halt : Bool) : State :=
  let t := traceEnd { s with cmds := s.cmds.filter fun d => !(d.acc == c.acc) } c r.status
  let u := if r.status == .ok then t else undoStop t c
  u.modQueue c.src fun x => endInQueue x c r halt

/-- Every command of a queue accepted after one ends SKIPPED, but an ABORT that has won ends OK (R273, R290). -/
def skipAfter (src : Src) (acc : Nat) : List Cmd → State → State
  | [], s => s
  | d :: rest, s =>
    let t := if d.src == src && decide (acc < d.acc) then
        finish s d (if d.won then Reply.ok [] [] else Reply.bare .skipped) true
      else s
    skipAfter src acc rest t

/-- QUEUE_HALT (R273): the queue is HALTED at a sequence number and later commands are skipped, also when a later command or a
refusal had halted it before. -/
def haltQueue (s : State) (src : Src) (acc seq : Nat) : State :=
  let t := s.modQueue src fun x => { x with qstate := .halted, byRing := false, haltSeq := seq }
  skipAfter src acc t.cmds t

/-- The status halts the queue of a source (R273). -/
def haltsHere (s : State) (src : Src) (st : Status) : Bool :=
  st.halts && !isAdmin src && match s.queue src with
    | some x => !x.unordered && x.qstate != .broken
    | none => false

/-- A command ends with a reply: window, slots, any halt, and the replies that may now be written. The commit, if any,
has been made. -/
def endCmd (s : State) (c : Cmd) (r : Reply) : State :=
  let halt := haltsHere s c.src r.status && !c.isOpen
  let t := finish s c r halt
  let u := if halt then haltQueue t c.src c.acc (c.seqs.getLastD 0) else t
  drain u c.src

/-- The command of a source and its last sequence number. -/
def State.cmd (s : State) (c : CmdRef) : Option Cmd :=
  s.cmds.find? fun d => d.src == c.src && d.seqs.getLast? == some c.seq

/-! ## Order among commands (R34, R271, R288) -/

/-- Every earlier command of the same ORDERED queue has ended (R271). -/
def inOrder (s : State) (c : Cmd) : Bool :=
  match s.queue c.src with
  | some x => x.unordered || s.cmds.all fun d => !(d.src == c.src && decide (d.acc < c.acc))
  | none => false

/-- The opcodes that name a stream in the header (R34, R284). -/
def namesStream (op what : Nat) : Bool := (decide (0x30 ≤ op) && decide (op ≤ 0x37)) || (op == 0x04 && what == 2)

def Cmd.namesStream (c : Cmd) : Bool := Sys2Proof.Machine.namesStream c.opcode (byteAt c.params 0)

/-- Every earlier command that names the same stream has ended (R34): the stream commands, and a QUERY of a stream (Table 1 of
R322). -/
def streamTurn (s : State) (c : Cmd) : Bool :=
  s.cmds.all fun d => !(d.plot == c.plot && d.stream == c.stream && d.namesStream && decide (d.acc < c.acc))

/-- A FENCE in scope that was accepted earlier has not committed (R288). -/
def fenced (s : State) (c : Cmd) : Bool :=
  s.cmds.any fun d => d.opcode == 0x02 && decide (d.acc < c.acc) &&
    (d.src == c.src || (byteAt d.params 0 == 1 && d.plot == c.plot && d.plot.isSome))

/-- The command may begin: accepted whole, the Gatehouse running, no FENCE before it (R33, R263, R288). Every commit
stages its reply in HBM pages (file 16), so it waits while a stack cannot be accessed (log entry 23). -/
def mayBegin (s : State) (c : Cmd) : Bool := s.gatehouseUp && s.hbmUp && !c.isOpen && !fenced s c

end Sys2Proof.Machine
end

