-- ==== Sys2Proof/Machine/Wblock.lean ====
section
/-!
DEFINITION. The compressed weight block format (R236 to R250, file 11).
-/

namespace Sys2Proof.Machine

/-- DSIZE, NBLK and SSIZE of a tensor header (R239). -/
def wDsize (img : List Byte) : Nat := fieldAt img 8 8
def wNblk (img : List Byte) : Nat := fieldAt img 16 4
def wSsize (img : List Byte) : Nat := fieldAt img 24 8
def wFirst (img : List Byte) : Nat := roundUp (64 + 4 * wNblk img) 16

/-- The byte offset of block j from the index. -/
def wOff (img : List Byte) (j : Nat) : Nat := 16 * fieldAt img (64 + 4 * j) 4

/-- The tensor header is legal (Table 2 of R239). -/
def wHeaderOk (img : List Byte) : Bool :=
  64 ≤ img.length && fieldAt img 0 4 == 0x31435754 && fieldAt img 4 2 == 1 && fieldAt img 6 2 == 0
  && 1 ≤ wDsize img && wDsize img ≤ 2 ^ 36 && wNblk img == ceilDiv (wDsize img) 4096
  && fieldAt img 20 4 == 0 && wSsize img % 16 == 0 && wSsize img ≤ 2 ^ 36 + 2 ^ 28 + 2 ^ 26 + 64
  && allZero (slice img 32 32)

/-- DECODED of block j (Table 3 of R241). -/
def wDecoded (img : List Byte) (j : Nat) : Nat :=
  if j + 1 < wNblk img then 4096 else wDsize img - 4096 * (wNblk img - 1)

/-- A block header is legal (Table 3 of R241, R243). -/
def wBlockHeaderOk (b : List Byte) (decoded : Nat) : Bool :=
  let stored := fieldAt b 0 2
  16 ≤ b.length && stored % 16 == 0 && 16 ≤ stored && stored ≤ 4112 && fieldAt b 2 2 == decoded && byteAt b 4 ≤ 2
  && fieldAt b 5 3 == 0 && (byteAt b 4 == 1 || byteAt b 12 == 0) && fieldAt b 13 3 == 0
  && 16 * ceilDiv decoded 64 ≤ stored

/-- The bytes of block j by its index entry. -/
def wBlock (img : List Byte) (j : Nat) : List Byte :=
  let b := img.drop (wOff img j)
  b.take (fieldAt b 0 2)

/-- The index obeys R240, and every block header is legal, from block j on. -/
def wIndexOk (img : List Byte) : Nat → Nat → Nat → Bool
  | 0, _, pos => pos == wSsize img
  | n + 1, j, pos =>
    wOff img j == pos && wBlockHeaderOk (img.drop pos) (wDecoded img j)
    && wIndexOk img n (j + 1) (pos + fieldAt img pos 2)

/-- The header, the index, the padding before the first block and the block headers (R249). -/
def wShapeOk (img : List Byte) : Bool :=
  wHeaderOk img && img.length == wSsize img
  && allZero (slice img (64 + 4 * wNblk img) (wFirst img - (64 + 4 * wNblk img)))
  && wIndexOk img (wNblk img) 0 (wFirst img)

/-- The codewords of one length in ascending symbol value: the entries, and the next code (R245). -/
def npcLevel (lens : List Nat) (l : Nat) : Nat → Nat → Nat → List (Nat × Nat × Nat) × Nat
  | 0, _, code => ([], code)
  | n + 1, s, code =>
    if (lens.drop s).head? = some l then
      let r := npcLevel lens l n (s + 1) (code + 1)
      ((l, code, s) :: r.1, r.2)
    else npcLevel lens l n (s + 1) code

/-- canonical() of R245: (length, codeword, symbol), from length `l` on. -/
def npcBook (lens : List Nat) : Nat → Nat → Nat → List (Nat × Nat × Nat)
  | 0, _, _ => []
  | n + 1, l, code =>
    let r := npcLevel lens l 16 0 code
    r.1 ++ npcBook lens n (l + 1) (2 * r.2)

/-- The bits of a byte from bit 7. -/
def bitsMsb (b : Byte) : List Bool := (List.range 8).map fun i => bitOf b.toNat (7 - i)

/-- One symbol: at most `n` further bits, `l` read so far with value `v` (R246). -/
def npcSymbol (book : List (Nat × Nat × Nat)) : Nat → Nat → Nat → List Bool → Option (Nat × List Bool)
  | 0, _, _, _ => none
  | _ + 1, _, _, [] => none
  | n + 1, l, v, b :: bs =>
    let v' := 2 * v + (if b then 1 else 0)
    match book.find? fun e => e.1 == l + 1 && e.2.1 == v' with
    | some e => some (e.2.2, bs)
    | none => npcSymbol book n (l + 1) v' bs

/-- The symbols of one lane; the unread bits are fewer than 8 and zero (R246). -/
def npcLane (book : List (Nat × Nat × Nat)) : Nat → List Bool → Option (List Nat)
  | 0, bs => if bs.length < 8 && bs.all (! ·) then some [] else none
  | n + 1, bs =>
    match npcSymbol book 8 0 0 bs with
    | some (s, r) => (npcLane book n r).map (s :: ·)
    | none => none

/-- Lanes k to 7, the count of symbols being `n`. -/
def npcLanes (book : List (Nat × Nat × Nat)) (b : List Byte) (n : Nat) : Nat → Nat → Nat → Option (List (List Nat))
  | 0, _, _ => some []
  | m + 1, k, pos =>
    let len := fieldAt b (32 + 2 * k) 2
    let cnt := (n + 7 - k) / 8
    match npcLane book cnt (((b.drop pos).take len).flatMap bitsMsb), npcLanes book b n m (k + 1) (pos + len) with
    | some l, some r => some (l :: r)
    | _, _ => none

/-- npc_decode of R246 with the layout checks of R244, R245 and R249. -/
def npcDecode (b : List Byte) (d : Nat) : Option (List Byte) :=
  let stored := fieldAt b 0 2
  let lens := (List.range 16).map fun s => packedGet' (b.drop 16) s
  let plane := byteAt b 24
  let lanes := ((List.range 8).map fun k => fieldAt b (32 + 2 * k) 2).sum
  let raw := if plane = 1 then ceilDiv d 2 else 0
  let used := 48 + lanes + raw
  let n := if plane = 0 then 2 * d else d
  if stored < 48 || 1 < plane || !allZero (slice b 25 7) || stored < used || !allZero (b.drop used)
    || lens.any (8 < ·) || lens.all (· == 0) || 256 < ((lens.filter (0 < ·)).map fun l => 2 ^ (8 - l)).sum then none
  else match npcLanes (npcBook lens 8 1 0) b n 8 0 48 with
    | none => none
    | some ls =>
      let sym (i : Nat) : Nat := (((ls.drop (i % 8)).head?.getD []).drop (i / 8)).head?.getD 0
      let rawAt (j : Nat) : Nat := packedGet' (b.drop (48 + lanes)) j
      some ((List.range d).map fun j =>
        BitVec.ofNat 8 (if plane = 0 then sym (2 * j) + 16 * sym (2 * j + 1) else rawAt j + 16 * sym j))
where
  /-- Element j of a packed array of 4-bit elements (R45). -/
  packedGet' (bs : List Byte) (j : Nat) : Nat := (byteAt bs (j / 2) / 16 ^ (j % 2)) % 16

/-- The decoded bytes of one block whose header is legal, when its payload and CHECK are (Table 4, R242, R249). -/
def blockDecode (b : List Byte) : Option (List Byte) :=
  let d := fieldAt b 2 2
  let out : Option (List Byte) := match byteAt b 4 with
    | 0 => if 16 + d ≤ b.length && allZero (b.drop (16 + d)) then some ((b.drop 16).take d) else none
    | 1 => if allZero (b.drop 16) then some (List.replicate d (BitVec.ofNat 8 (byteAt b 12))) else none
    | _ => npcDecode b d
  match out with
  | some bs => if crc32c bs = fieldAt b 8 4 then some bs else none
  | none => none

/-- The decoded blocks from block j on; a block that does not decode is none. -/
def wBlocks (img : List Byte) : Nat → Nat → List (Option (List Byte))
  | 0, _ => []
  | n + 1, j => blockDecode (wBlock img j) :: wBlocks img n (j + 1)

/-- The decoded image, when nothing of R249 makes the image malformed. -/
def wDecode (img : List Byte) : Option (List Byte) :=
  if !wShapeOk img then none
  else
    let bs := wBlocks img (wNblk img) 0
    if bs.any Option.isNone then none else some (bs.flatMap fun b => b.getD [])

end Sys2Proof.Machine
end

