-- ==== Sys2Proof/Machine/Pool.lean ====
section
/-!
DEFINITION. What a plot holds: tensors, handles, pages, eviction, stream images, Glasshouse slots and residency moves
(R123, R213 to R228, R293, R353, files 05, 10, 15).
-/

namespace Sys2Proof.Machine

/-! ## Tensors (R221, R222, R292, R293) -/

/-- Bytes of an HBM page (R218) and of a Glasshouse slot (R213). -/
def pageBytes : Nat := 2097152
def slotBytes : Nat := 65536

def pagesFor (n : Nat) : Nat := ceilDiv n pageBytes

/-- ATTR bits of R292. -/
def Tensor.movable (t : Tensor) : Bool := bitOf t.attr 0
def Tensor.evictable (t : Tensor) : Bool := bitOf t.attr 1
def Tensor.compressed (t : Tensor) : Bool := bitOf t.attr 2
def Tensor.grouped (t : Tensor) : Bool := bitOf t.attr 3
def Tensor.mx (t : Tensor) : Bool := bitOf t.attr 4
def Tensor.pages (t : Tensor) : Nat := pagesFor t.img.length

/-- Format, counts and scale form of a tensor of attributes `attr` (R293). -/
def shapeOf (attr fmt gshift itable : Nat) (c : List Nat) : Shape :=
  { fmt := (Fmt.ofCode fmt).getD .uint8, mx := bitOf attr 4, grouped := bitOf attr 3, gshift := gshift, itable := itable, c := c }

/-- The decoded layout of a tensor. -/
def Tensor.shape (t : Tensor) : Shape := shapeOf t.attr t.fmt t.gshift t.itable [t.c0, t.c1, t.c2, t.c3]

/-- A raw tensor of the working kind of R230, and a blob (R328): UINT8, one row. -/
def rawTensor (attr : Nat) (img : List Byte) (clock : Nat) : Tensor :=
  { attr := attr, fmt := 0xB, gshift := 0, itable := 0, c0 := img.length, c1 := 1, c2 := 1, c3 := 1, img := img,
    bad := [], home := none, stamp := clock, lost := 0 }

/-- The damaged ranges of a tensor's image as a reader meets them: offset, length, and whether the whole block is lost
to a failed check (R100, R212, R223). -/
def Tensor.badRanges (t : Tensor) : List (Nat × Nat × Bool) :=
  t.bad.filterMap fun p => match p.2 with
    | .correctable => none
    | _ => some (32 * p.1, 32, false)

/-- The first damaged code word that a read of a range meets, by its first byte (R212). -/
def Tensor.readBad (t : Tensor) (off n : Nat) : Option Nat :=
  ((t.badRanges.filter fun b => decide (off < b.1 + b.2.1) && decide (b.1 < off + n)).head?).map fun b => b.1

/-- One code word of a new version (R223): whether the write covers it wholly. -/
def coversWord (off n w : Nat) : Bool := decide (off ≤ 32 * w) && decide (32 * w + 32 ≤ off + n)

/-- A partial write of a tensor (R223): new bytes, and the code words' states: wholly covered words are clean, damage
elsewhere is carried as poison, correctable errors are corrected. -/
def Tensor.write (t : Tensor) (off : Nat) (bs : List Byte) : Tensor :=
  if bs.isEmpty then t
  else
    { t with
      img := overwrite t.img off bs
      bad := t.bad.filterMap fun p =>
        if coversWord off bs.length p.1 then none
        else match p.2 with
          | .correctable => none
          | _ => some (p.1, .poisoned) }

/-- The words whose correctable error a partial write corrects and counts, and those it logs as UNCORR_WRITE (R223). -/
def Tensor.writeCorrects (t : Tensor) (off n : Nat) : List Nat :=
  (t.bad.filter fun p => !coversWord off n p.1 && p.2 == .correctable).map (·.1)
def Tensor.writePoisons (t : Tensor) (off n : Nat) : List Nat :=
  (t.bad.filter fun p => !coversWord off n p.1 && p.2 == .uncorrectable).map (·.1)

/-- Decoded bytes of a compressed image, with each block's failure and its HBM damage as ranges of decoded bytes
(R100, R246 to R249). A damaged word of the tensor header or of a block's index entry leaves no byte of the decode to be trusted
(DESIGN CHOICE, log entry 81). -/
def decodedOf (t : Tensor) : List Byte × List (Nat × Nat × Bool) :=
  let img := t.img
  if !wShapeOk img then (zeros (wDsize img), [(0, wDsize img, true)]) else
  let blocks := (wBlocks img (wNblk img) 0).zipIdx
  let bytes := blocks.flatMap fun p => match p.1 with
    | some b => b
    | none => zeros (wDecoded img p.2)
  let failed := blocks.filterMap fun p => match p.1 with
    | some _ => none
    | none => some (4096 * p.2, wDecoded img p.2, true)
  let hurt := blocks.filterMap fun p =>
    if (t.readBad (wOff img p.2) (wBlock img p.2).length).isSome || (t.readBad 0 64).isSome || (t.readBad (64 + 4 * p.2) 4).isSome then some (4096 * p.2, wDecoded img p.2, false) else none
  (bytes, hurt ++ failed)

/-- A tensor's decoded bytes and the ranges of them that damage reaches. -/
def Tensor.decoded (t : Tensor) : List Byte × List (Nat × Nat × Bool) :=
  if t.compressed then decodedOf t else (t.img, t.badRanges)

/-- A tensor as a weight of the MA: its decoded bytes, damage, and IDX4 table (R92, R98, R99). -/
def Tensor.weight (t : Tensor) (h : Nat) (table : List Nat) : Weight :=
  let d := t.decoded
  { handle := h, shape := t.shape, src := .image d.1 d.2, table := table }

/-- The published IDX4 table (R220, R233). -/
def Plot.table (p : Plot) (i : Nat) : List Nat := (mget p.idx4 i).getD (List.replicate 16 0)

/-! ## Handles (R221, R225) -/

/-- OP codes of the direct operations (R310, Table 1 of R286). -/
def isDirect (op : Nat) : Bool := decide (0x40 ≤ op) && decide (op ≤ 0x46)

/-- The sections of a direct operation's parameters (R312). -/
def dirOplen (ps : List Byte) : Nat := fieldAt ps 8 4
def dirNdesc (ps : List Byte) : Nat := fieldAt ps 2 2
def dirNbind (ps : List Byte) : Nat := fieldAt ps 4 2
def dirSection (ps : List Byte) : List Byte := (ps.drop 16).take (dirOplen ps)
def dirTable (ps : List Byte) : List (List Byte) :=
  (List.range (dirNdesc ps)).map fun i => slice ps (16 + dirOplen ps + 48 * i) 48
def dirBindOff (ps : List Byte) : Nat := 16 + dirOplen ps + 48 * dirNdesc ps
def dirBinds (ps : List Byte) : List (List Byte) :=
  (List.range (dirNbind ps)).map fun i => slice ps (dirBindOff ps + 16 * i) 16

/-- The WHANDLE of an OP_MATMUL section, when B is 0xFFFF (R312). -/
def matHandle (sec : List Byte) : List Nat := if fieldAt sec 2 2 = 0xFFFF then [fieldAt sec 12 4] else []

/-- The handles a command names, with the packet offset of each field (R225, R313). -/
def cmdHandles (c : Cmd) : List (Nat × Nat) :=
  (if c.handle = 0 then [] else [(c.handle, 28)]) ++
  (if isDirect c.opcode then
    (if c.opcode = 0x40 then (matHandle (dirSection c.params)).map fun h => (h, 32 + 16 + 12) else []) ++
    ((dirBinds c.params).zipIdx.filter fun p => byteAt p.1 3 == 1).map fun p =>
      (fieldAt p.1 4 4, 32 + dirBindOff c.params + 16 * p.2 + 4)
   else if c.opcode = 0x37 then [(fieldAt c.params 0 4, 32)] else [])

/-- The handle field names something else than a legal handle (R221). -/
def badHandle (h : Nat) : Bool := h == 0 || decide (0xFFFFFFFE < h)

/-! ## Plan images as R300 lays them out -/

def planKind (img : List Byte) : Nat := byteAt img 6
def planFlags (img : List Byte) : Nat := byteAt img 7
def planParts (img : List Byte) : Nat := fieldAt img 8 2
def planLayers (img : List Byte) : Nat := fieldAt img 10 2
def planDecls (img : List Byte) : Nat := fieldAt img 12 2
def planX (img : List Byte) : Nat := fieldAt img 16 4
def planY (img : List Byte) : Nat := fieldAt img 20 4

/-- One declaration (R300). -/
structure Decl where
  handle : Nat
  role : Nat
  compressed : Bool
  layer : Nat
  ssize : Nat
  deriving DecidableEq, Repr

def declAt (img : List Byte) (i : Nat) : Decl :=
  let b := fieldAt img 24 8 + 32 * i
  ⟨fieldAt img b 4, byteAt img (b + 4), bitOf (byteAt img (b + 5)) 0, fieldAt img (b + 6) 2, fieldAt img (b + 8) 8⟩

def declsOf (img : List Byte) : List Decl := (List.range (planDecls img)).map (declAt img)

/-- One layer (R300). -/
structure Layer where
  wdecl : Nat
  scan : Bool
  transient : Bool
  w : Nat
  d : Nat
  s : Nat
  deriving DecidableEq, Repr

def layerAt (img : List Byte) (i : Nat) : Layer :=
  let b := fieldAt img 32 8 + 16 * i
  ⟨fieldAt img b 2, byteAt img (b + 2) == 1, bitOf (byteAt img (b + 3)) 0, fieldAt img (b + 4) 4, fieldAt img (b + 8) 4,
    fieldAt img (b + 12) 4⟩

def layersOf (img : List Byte) : List Layer := (List.range (planLayers img)).map (layerAt img)

/-- The first code word of the plan's image in HBM that cannot be read, by its first byte (R357). -/
def Plan.readBad (q : Plan) : Option Nat := ((q.bad.filter fun p => !(p.2 == .correctable)).head?).map fun p => 32 * p.1

/-- The scan layers in plan order. -/
def scanLayers (img : List Byte) : List Layer := (layersOf img).filter (·.scan)

/-- A layer is TRANSIENT by its mark or by PLAN_LOAD's list (R231). -/
def isTransient (p : Plan) (i : Nat) : Bool := (layerAt p.img i).transient || p.extra.contains i

/-- The weight declarations a plan pins: ROLE 0, and their layer is not TRANSIENT (R230, R231). -/
def pinnedDecls (p : Plan) : List Decl :=
  (declsOf p.img).filter fun d => d.role == 0 && !(d.layer != 0xFFFF && isTransient p d.layer)

/-- Some loaded plan pins or declares the handle (R225, R227). -/
def planDeclares (p : Plot) (h : Nat) : Bool := p.plans.any fun q => (declsOf q.2.img).any fun d => d.handle == h
def planPins (p : Plot) (h : Nat) : Bool := p.plans.any fun q => (pinnedDecls q.2).any fun d => d.handle == h

/-- A loaded plan reserves the handle, or an accepted PLAN_LOAD does (R221, R230). -/
def reservedAt (s : State) (plot : Nat) (p : Plot) (h : Nat) : Option (Nat × Nat) :=
  match p.plans.findSome? fun q => mget q.2.reserved h with
  | some r => some r
  | none => (s.cmds.filter fun c => c.plot == some plot).findSome? fun c => mget c.reserved h

/-- An accepted creating command under the handle has not ended (R221). -/
def creating (s : State) (plot h : Nat) : Bool :=
  s.cmds.any fun c => (c.plot == some plot && c.handle == h &&
    ((c.opcode == 0x10 && !bitOf (byteAt c.params 0) 5) || c.opcode == 0x20 || c.opcode == 0x36))
    || (c.plot == some plot && c.opcode == 0x20 && !c.isOpen && (declsOf c.payload).any fun d => d.handle == h && d.role == 1)

/-- Tensors of a plot, and those that its accepted commands are to create (R221). -/
def tensorCount (s : State) (plot : Nat) (p : Plot) : Nat :=
  p.tensors.length + ((s.cmds.filter fun c => c.plot == some plot).map fun c =>
    if (c.opcode == 0x10 && !bitOf (byteAt c.params 0) 5) || c.opcode == 0x36 then 1
    else if c.opcode = 0x20 && !c.isOpen then ((declsOf c.payload).filter fun d => d.role == 1).length else 0).sum

/-- Loaded plans of a plot, and those that its accepted commands are to load (R221). -/
def planCount (s : State) (plot : Nat) (p : Plot) : Nat :=
  p.plans.length + (s.cmds.filter fun c => c.plot == some plot && c.opcode == 0x20).length

/-- The handle is in use (R221). -/
def handleInUse (s : State) (plot : Nat) (p : Plot) (h : Nat) : Bool :=
  (mget p.tensors h).isSome || (mget p.plans h).isSome || creating s plot h

/-! ## Pages (R215, R219, R227, R353) -/

def Stream.pages (x : Stream) : Nat := pagesFor x.img.length
def Stream.slots (x : Stream) : Nat := ceilDiv x.img.length slotBytes

/-- Pages of the plan: image and shadows, and the reservations not yet filled (R219). -/
def Plan.held (p : Plan) : Nat := p.pages + (p.reserved.map fun r => r.2.1).sum

/-- Pages held by the commands of a plot that have not ended (R219). -/
def cmdPages (s : State) (plot : Nat) : Nat := ((s.cmds.filter fun c => c.plot == some plot).map (·.pages)).sum

/-- The pages a plot holds (R219, Table 2). -/
def pagesHeld (s : State) (plot : Nat) (p : Plot) : Nat :=
  (p.tensors.map fun t => t.2.pages).sum + (p.plans.map fun q => q.2.held).sum + (p.streams.map fun x => x.2.pages).sum +
    cmdPages s plot

/-- An accepted command that has not ended names the handle (R225, R227). -/
def namedByCmd (s : State) (plot h : Nat) : Bool :=
  s.cmds.any fun c => c.plot == some plot && (cmdHandles c).any fun x => x.1 == h

/-- A PLAN_LOAD that has not ended declares the handle in its image (R230). DESIGN CHOICE (log entry 97): such a tensor is no
candidate for eviction, whatever its role (R227). -/
def namedByLoad (s : State) (plot h : Nat) : Bool :=
  s.cmds.any fun c => c.plot == some plot && c.opcode == 0x20 && !c.isOpen && (declsOf c.payload).any fun d => d.handle == h

/-- An eviction candidate (R227). -/
def candidate (s : State) (plot : Nat) (p : Plot) (h : Nat) (t : Tensor) : Bool :=
  !t.movable && t.evictable && !planPins p h && !namedByCmd s plot h && !namedByLoad s plot h

/-- Inserts by a key, keeping the earlier entry first among equals. -/
def insertBy {α : Type} (key : α → Nat) (x : α) : List α → List α
  | [] => [x]
  | y :: r => if key x < key y then x :: y :: r else y :: insertBy key x r

def sortBy {α : Type} (key : α → Nat) : List α → List α
  | [] => []
  | l => l.foldl (fun acc x => insertBy key x acc) []

/-- The candidates, oldest stamp first and then by ascending handle (R227). -/
def candidates (s : State) (plot : Nat) (p : Plot) : List (Nat × Tensor) :=
  sortBy (fun x => x.2.stamp) (p.tensors.filter fun x => candidate s plot p x.1 x.2)

/-- Handles evicted, in order, until the pages gained cover the shortage (R227). -/
def evictList : List (Nat × Tensor) → Nat → List Nat
  | [], _ => []
  | (h, t) :: r, short => if short = 0 then [] else h :: evictList r (short - t.pages)

/-- What an allocation of pages comes to (R353). -/
inductive Alloc where
  | ok (evict : List Nat)
  | scrubbing
  | noSpace
  deriving DecidableEq, Repr

/-- The three steps of R353 for `n` pages. -/
def allocate (s : State) (plot : Nat) (p : Plot) (n : Nat) : Alloc :=
  let free := p.quota - pagesHeld s plot p
  let zeroed := free - p.zeroing
  let cs := candidates s plot p
  let gain := (cs.map fun x => x.2.pages).sum
  if n ≤ zeroed then .ok []
  else if n ≤ zeroed + gain then .ok (evictList cs (n - zeroed))
  else if n ≤ free + gain then .scrubbing
  else .noSpace

/-- TENSOR_EVICTION (R227): the handles then name no object. -/
def evict (s : State) (plot : Nat) (hs : List Nat) : State :=
  s.modPlot plot fun p => { p with tensors := p.tensors.filter fun t => !hs.contains t.1 }

/-! ## The epoch clock and stamps (R226) -/

def stampTensors (clock : Nat) (hs : List Nat) (m : Map Tensor) : Map Tensor :=
  m.map fun t => if hs.contains t.1 then (t.1, { t.2 with stamp := clock }) else t

/-- Every tensor that a command names, or its plan pins or declares, and its stream, take the clock's value (R226). -/
def stampFor (s : State) (c : Cmd) : State :=
  match c.plot with
  | none => s
  | some p => s.modPlot p fun x =>
    let hs := (cmdHandles c).map (·.1)
    let ds := (x.plans.filter fun q => hs.contains q.1).flatMap fun q => (declsOf q.2.img).map (·.handle)
    { x with
      tensors := stampTensors x.clock (hs ++ ds) x.tensors
      streams := if c.namesStream then mmod x.streams c.stream fun st => { st with stamp := x.clock } else x.streams }

/-! ## Stream images (R123, R124, R332) -/

/-- Configuration and counters of an image header (Table 3 of R332). -/
structure Head where
  l : Nat
  sf : Nat
  rn : Bool
  sat : Bool
  canon : Bool
  stf : Nat
  period : Nat
  k : Nat
  pend : Nat
  pos : Nat
  deriving DecidableEq, Repr

def headOf (img : List Byte) : Head :=
  let f := byteAt img 3
  ⟨fieldAt img 0 2, byteAt img 2, bitOf f 0, bitOf f 1, bitOf f 2, byteAt img 4, byteAt img 5, byteAt img 6, fieldAt img 8 4,
    fieldAt img 16 8⟩

def headBytes (h : Head) : List Byte :=
  padTo 4096 (toLe 2 h.l ++ toLe 1 h.sf ++
    toLe 1 ((if h.rn then 1 else 0) + (if h.sat then 2 else 0) + (if h.canon then 4 else 0)) ++ toLe 1 h.stf ++
    toLe 1 h.period ++ toLe 1 h.k ++ zeros 1 ++ toLe 4 h.pend ++ zeros 4 ++ toLe 8 h.pos)

/-- Bytes of one stored state value (R123). -/
def stateWidth (h : Head) : Nat := if h.rn then 2 else if h.stf = 0 then 4 else 2

/-- State columns and channels of a plan's scan layers. -/
def stateCols (img : List Byte) : Nat := ((scanLayers img).map fun y => y.d * y.s).sum
def stateChans (img : List Byte) : Nat := ((scanLayers img).map fun y => y.d).sum

/-- Sizes of the four sections of R123 for a configuration and a plan image. -/
def secState (h : Head) (plan : List Byte) : Nat := roundUp (stateCols plan * stateWidth h) 4096
def secOffsets (h : Head) (plan : List Byte) : Nat := if h.rn then roundUp (stateChans plan) 4096 else 0
def secPending (h : Head) (plan : List Byte) : Nat := roundUp ((h.l - 1) * planX plan) 4096

def imageSize (h : Head) (plan : List Byte) : Nat := 4096 + secState h plan + secOffsets h plan + secPending h plan

/-- The image that STREAM_OPEN creates (R124). -/
def freshImage (h : Head) (plan : List Byte) : List Byte :=
  headBytes h ++ zeros (secState h plan + secOffsets h plan + secPending h plan)

/-- The home of the image is its Glasshouse slots until a move out commits, and its HBM pages until a move in does (R214,
R217). -/
def Stream.inGlass (x : Stream) : Bool := x.res == .resident || x.res == .movingOut

/-- Bytes of a unit of damage in the image's home: a granule, or an HBM code word (R12). -/
def Stream.unit (x : Stream) : Nat := if x.inGlass then 16 else 32

/-- The first granule or code word of the image, which holds the header's fields, cannot be read (R325, R326). -/
def headDamaged (x : Stream) : Bool :=
  match mget x.bad 0 with
  | some .uncorrectable => true
  | some .poisoned => true
  | _ => false

/-- Some granule or code word of a range of the image cannot be read (R212). -/
def imageDamaged (x : Stream) (off n : Nat) : Option Nat :=
  let u := x.unit
  ((x.bad.filter fun p => !(p.2 == .correctable) && decide (off < u * p.1 + u) && decide (u * p.1 < off + n)).head?).map
    fun p => u * p.1

/-- Damage as a copy in the same memory carries it (R217): what cannot be read is poison, what could be corrected is clean. -/
def copyDamage (m : Map GState) : Map GState :=
  m.filterMap fun p => match p.2 with
    | .correctable => none
    | _ => some (p.1, .poisoned)

/-- Damage carried by a completed move (R217): a code word poisons its two granules in the Glasshouse (`glass`), and a granule the
code word that it fills half of in HBM. -/
def moveDamage (glass : Bool) (m : Map GState) : Map GState :=
  (copyDamage m).foldl (fun r p =>
    if glass then mput (mput r (2 * p.1) .poisoned) (2 * p.1 + 1) .poisoned else mput r (p.1 / 2) .poisoned) []

/-! ## Glasshouse slots and residency (R213 to R217) -/

/-- Slots that the images of a plot hold (R214, Table 1). -/
def imageSlots (p : Plot) : Nat := (p.streams.map fun x => if x.2.res == .nonresident then 0 else x.2.slots).sum

/-- The command that asked for the image has not ended (R216). -/
def asked (s : State) (x : Stream) : Bool := x.wanted.any fun a => s.cmds.any fun c => c.acc == a

/-- Slots promised to images that accepted commands need and that are not on their way in yet (R216). -/
def promised (s : State) (p : Plot) : Nat :=
  (p.streams.map fun x => if asked s x.2 && (x.2.res == .nonresident || x.2.res == .movingOut) then x.2.slots else 0).sum

/-- Shadow slots of the commands of a plot (R125). -/
def shadowSlots (s : State) (plot : Nat) : Nat := ((s.cmds.filter fun c => c.plot == some plot).map (·.shadowSlots)).sum

/-- Everything that holds or is promised slots fits the plot's slots. -/
def slotsFit (s : State) (plot : Nat) (p : Plot) : Bool :=
  decide (imageSlots p + promised s p + shadowSlots s plot ≤ p.slots)

/-- An accepted command that has not ended names the stream (R216). -/
def streamNamed (s : State) (plot st : Nat) : Bool :=
  s.cmds.any fun c => c.plot == some plot && c.namesStream && c.stream == st

/-- Images that may be moved out, by ascending stamp and then stream ID (R216). -/
def moveCandidates (s : State) (plot : Nat) (p : Plot) (asking : Nat) : List (Nat × Stream) :=
  sortBy (fun x => x.2.stamp)
    (p.streams.filter fun x => x.2.res == .resident && x.1 != asking && !streamNamed s plot x.1)

/-- Streams moved out, in order, until the slots gained cover the shortage. -/
def moveOutList : List (Nat × Stream) → Nat → List Nat
  | [], _ => []
  | (i, x) :: r, short => if short = 0 then [] else i :: moveOutList r (short - x.slots)

/-- Wanted images that may start in: NONRESIDENT, and everything promised fits (R214). The image of a paused stream starts only
once its STREAM_RESUME (`also`) has read the header (R326). -/
def startMoves (s : State) (plot : Nat) (also : Option Nat) : State :=
  match mget s.plots plot with
  | none => s
  | some p =>
    let due (i : Nat) (x : Stream) : Bool := asked s x && x.res == .nonresident && (!x.paused || also == some i)
    if slotsFit s plot p then
      s.setPlot plot { p with
        streams := p.streams.map fun x => (x.1, if due x.1 x.2 then { x.2 with res := .movingIn, wanted := none } else x.2) }
    else s

/-- R216 for the command `acc` of a plot, which names stream `st`: `shadow` shadow slots and, when `image` holds, the image's own
slots where it counts as not resident. None is NO_SPACE. -/
def askSlots (s : State) (plot st acc shadow : Nat) (image : Bool) : Option State :=
  match mget s.plots plot with
  | none => none
  | some p =>
    match mget p.streams st with
    | none => none
    | some x =>
      let mine := if image && (x.res == .nonresident || x.res == .movingOut) && !asked s x then x.slots else 0
      let need := mine + shadow
      let free := p.slots - (imageSlots p + promised s p + shadowSlots s plot)
      let cs := moveCandidates s plot p st
      let want (y : Plot) : Plot :=
        if image && (x.res == .nonresident || x.res == .movingOut) then
          { y with streams := mmod y.streams st fun z => { z with wanted := some acc } }
        else y
      if need ≤ free then some (s.setPlot plot (want p))
      else if need ≤ free + (cs.map fun c => c.2.slots).sum then
        let out := moveOutList cs (need - free)
        let p' := { p with streams := p.streams.map fun z => if out.contains z.1 then (z.1, { z.2 with res := .movingOut }) else z }
        some (s.setPlot plot (want p'))
      else none

/-! ## Zeroing on change of owner (R352) -/

/-- An engine's scratchpad, tags, banks, buffers, caches and counters zeroed (R352, Table 3, R471). -/
def Engine.zeroed (e : Engine) : Engine :=
  { e with spad := Spad.clear, bank0 := AccBank.clear, bank1 := AccBank.clear, wfu := Wfu.clear, ops := [], stuck := [],
           scalars := [], note := none, footprint := [], overdue := false, descCache := [], tel := EngTel.zero, telSnap := EngTel.zero }

/-- Engine numbers of a mask. -/
def maskList (m : Nat) : List Nat := (List.range 6).filter fun e => bitOf m e

def zeroEngines (s : State) (m : Nat) : State :=
  (maskList m).foldl (fun t e => t.modEng e Engine.zeroed) s

/-- The contents of a plot destroyed, as PLOT_CONFIG, a plot reset and PLOT_RELEASE leave them (R345, R350, R352). -/
def Plot.emptied (p : Plot) : Plot :=
  { p with scalars := [], idx4 := [], idx4Pending := [], clock := 0, key := none, tensors := [], plans := [], streams := [],
           log := Log.empty, eclkTarget := 18, epochs := 0, epochsSnap := 0, gkSlices := 0, gkForced := 0, gkAbandoned := 0,
           gkFailed := 0 }

/-- PLOT_RESET (R350): every page of the plot, held or free, is zeroed in the background (R353). -/
def plotReset (s : State) (plot : Nat) : State :=
  match mget s.plots plot with
  | none => s
  | some p =>
    let t := s.setPlot plot { p.emptied with zeroing := p.quota, ownedAt := s.lclk }
    let u := zeroEngines t p.engmask
    p.fids.foldl (fun v f => v.modFn f fun y => { y with logNew := false, lost := false, ce := false }) u

/-! ## Scalars (R141) -/

def Plot.scalarList (p : Plot) : List Word := (List.range 64).map fun i => BitVec.ofNat 64 ((mget p.scalars i).getD 0)

/-! ## Engines and their holders -/

/-- The plot that holds an engine (R343). -/
def holderIn : Map Plot → Nat → Option Nat
  | [], _ => none
  | (p, x) :: m, e => if bitOf x.engmask e then some p else holderIn m e

def State.holder (s : State) (e : Nat) : Option Nat := holderIn s.plots e

/-- A plot of an engine changed, when one holds it. -/
def State.modHolder (s : State) (e : Nat) (g : Plot → Plot) : State :=
  match s.holder e with
  | some p => s.modPlot p g
  | none => s

/-- UNIT and LOC of a scratchpad (R375). -/
def spadLoc : Nat := 7

/-- Corrections counted and poison logged for an engine's accesses (R211, R376, R377). -/
def applyTrace (s : State) (plot : Option Nat) (e : Nat) (c : Option Cmd) (tr : Trace) : State :=
  let t := tr.corrected.foldl (fun u a => countCorrected u plot false a) s
  tr.poisonedAt.foldl (fun u a =>
    addRecord u plot (match c with
      | some d => cmdEvent 0x0001 0 e spadLoc a d
      | none => deviceEvent 0x0001 0 e spadLoc a)) t

/-- The combining buffer of an engine leaves (R207, R208, R210). -/
def drainEngine (s : State) (e : Nat) (c : Option Cmd) : State :=
  let x := s.eng e
  let r := x.spad.drain
  applyTrace (s.setEng e { x with spad := r.1 }) (s.holder e) e c r.2

/-- Every buffer that the WFU has filled or is filling is empty again, and the schedule is gone (R97). -/
def clearWfu (e : Engine) : Engine :=
  let sp := e.wfu.sched.foldl (fun (sp : Spad) f => if f.issued && !f.freed then sp.setTags false f.slotFirst f.slotCount else sp) e.spad
  { e with spad := sp, wfu := Wfu.clear }

/-- A command that runs a plan's epochs. -/
def runsPlan (op : Nat) : Bool := op == 0x22 || op == 0x31 || op == 0x32

/-- What a command has in an engine that its end cancels: operations that wait for tags, captured scalars, and for a run of a
plan the buffers that the WFU fills for it; the combining buffer leaves (R97, R210, R310). -/
def endOn (c : Cmd) (s : State) (e : Nat) : State :=
  let x := s.eng e
  let mine := runsPlan c.opcode && x.wfu.plan == some c.handle
  let used := mine || (x.ops.any fun o => o.acc == c.acc) || (mget x.scalars c.acc).isSome
  if used then
    let y := if mine then clearWfu x else x
    drainEngine (s.setEng e { y with
      ops := y.ops.filter fun o => !(o.acc == c.acc)
      stuck := mdel y.stuck c.acc
      scalars := mdel y.scalars c.acc }) e (some c)
  else s

/-- The engines of a command's plot when the command ends before its commit point (R97, R198, R210). -/
def endWork (s : State) (c : Cmd) : State :=
  match c.plot.bind (mget s.plots) with
  | some p => (maskList p.engmask).foldl (endOn c) s
  | none => s

/-! ## Effective clocks (R404, R421) -/

/-- The target of an engine's holder; 0.4 GHz while no plot holds it. -/
def State.target (s : State) (e : Nat) : Nat :=
  ((s.holder e).bind fun p => (mget s.plots p).map (·.eclkTarget)).getD 4

/-- The ECLK of a slice: 1.0 GHz, or the ceiling below it (R387). -/
def State.sliceClock (s : State) : Nat := min 10 s.power.ceiling

/-- The effective ECLK of an engine (R404); a slice has its own (R387). -/
def State.effective (s : State) (e : Nat) : Nat :=
  if (s.eng e).slice.isSome then s.sliceClock else min (s.target e) s.power.ceiling

/-- A command that a fault of an engine can meet: accepted whole, of the plot that holds the engine. -/
def onHolder (s : State) (e : Nat) (c : Cmd) : Bool := !c.isOpen && c.plot.isSome && c.plot == s.holder e

end Sys2Proof.Machine
end

