-- ==== Sys2Proof/Machine/Rms.lean ====
section
/-!
DEFINITION. RMS normalisation (R167 to R170, file 07).
-/

namespace Sys2Proof.Machine

structure RmsOp where
  x : Desc
  y : Desc
  gamma : Option Desc
  md : Modes
  eps : Nat
  deriving DecidableEq, Repr

/-- The lanes after every square, in ascending i; the lane of i is i mod 256 (R168). -/
def laneAdd (md : Modes) (lanes : List (Option Sv)) (l : Nat) (q : Val) : Num (List (Option Sv)) := do
  match (lanes.drop l).head? with
  | some (some old) => do
    let s ← add32 md old.val q
    return lanes.take l ++ [some (.flt s)] ++ lanes.drop (l + 1)
  | _ => return lanes.take l ++ [some (.flt q)] ++ lanes.drop (l + 1)

def laneFill (md : Modes) : List Val → Nat → List (Option Sv) → Num (List (Option Sv))
  | [], _, ls => return ls
  | x :: r, i, ls => do
    let q ← mul32 md x x
    let ls' ← laneAdd md ls (i % 256) q
    laneFill md r (i + 1) ls'

/-- round(FP32, S / N), the exact quotient with one rounding. -/
def divBy (md : Modes) (s : Val) (n : Nat) : Num Val :=
  match s with
  | .fin sg m e => if m = 0 then return roundZero md sg else roundPos specFp32 md sg m n e
  | v => rnd32 md v

/-- The r of one row: RSQRT of the mean square plus EPS (R168). -/
def rmsScale (md : Modes) (iah : Bool) (eps : Val) (xs : List Val) : Num Val := do
  let ls ← laneFill md xs 0 (List.replicate (min 256 xs.length) none)
  let s ← tree md .fp32 8 (padAbsent 256 ls)
  let m ← divBy md ((s.map Sv.val).getD (.fin false 0 0)) xs.length
  let v ← add32 md m eps
  sfu32 .rsqrt iah md v

/-- EPS read under R49 (R167). -/
def rmsEps (sat : Bool) (eps : Nat) : Val :=
  match readFloat specFp32 sat eps with
  | .fin _ 0 _ => .fin false 0 0
  | v => v

/-- One row: the exact values handed to convert. -/
def rmsRow (o : RmsOp) (iah : Bool) (row : List Nat) : OpM (List (List Nat × Res)) := do
  let md := { o.md with rtz := false }
  let ixs := (List.range (o.x.count 0)).map fun i => i :: row.drop 1
  let vs ← opElems md.sat o.x ixs
  let xs ← liftNum (numMap (fun v => rnd32 md v.val) vs)
  let r ← liftNum (rmsScale md iah (rmsEps md.sat o.eps) xs)
  let ts ← liftNum (numMap (fun x => mul32 md x r) xs)
  match o.gamma with
  | some g => do
    let gs ← opElems md.sat g ixs
    let ys ← liftNum (numMap (fun p => mulExact p.1 p.2) (ts.zip (gs.map Sv.val)))
    return ixs.zip (ys.map fun y => .val (.flt y))
  | none => return ixs.zip (ts.map fun y => .val (.flt y))

def runRms (o : RmsOp) (iah nt : Bool) : OpM Unit := do
  if o.y.numel = 0 then return ()
  let rs ← opMap (rmsRow o iah) o.x.rows
  opResults nt 256 o.y { o.md with rtz := false } rs.flatten

/-- Offending fields of the 16-byte section of OP_RMSNORM (R134, R138, R167, R312, R504). -/
def rmsBad (t : DescTab) (off : Nat) (dOff : Nat → Nat) (r : List Byte) : Bad :=
  let f (o : Nat) : Nat := fieldAt r o 2
  let named := f 4 != 0xFFFF
  let eps := fieldAt r 8 4
  let epsBad := match readFloat specFp32 false eps with
    | .nan => true
    | .inf _ => true
    | .fin s m _ => s && m != 0
  let own : Bad :=
    badIf (t.length ≤ f 0) 0 ++ badIf (t.length ≤ f 2) 2 ++ badIf (named && t.length ≤ f 4) 4
    ++ badIf (bitOf (byteAt r 6) 2 || 16 ≤ byteAt r 6) 6 ++ badIf (byteAt r 7 != 0) 7 ++ badIf epsBad 8
    ++ (match firstNonzero (r.drop 12) 12 with
        | some i => [i]
        | none => [])
  let idx := [f 0, f 2] ++ (if named then [f 4] else [])
  let db : Bad := idx.flatMap fun i => match tabAt t i with
    | some b => (descBad b).map (dOff i + ·)
    | none => []
  if own != [] || db != [] then own.map (off + ·) ++ db
  else
      let d (o : Nat) : Option Desc := (tabAt t (f o)).map descOf
      match d 0, d 2 with
      | some x, some y =>
        let g := if named then d 4 else none
        let lap := match g with
          | some g => y.overlaps g
          | none => false
        (badIf (!(y.same x) && y.overlaps x) 0 ++ badIf lap 4).map (off + ·)
          ++ (badIf (7 < x.fmt.code) 4).map (dOff (f 0) + ·)
          ++ (countBad y x.counts ++ strideZeroBad y).map (dOff (f 2) + ·)
          ++ (match g with
              | some g => (badIf (g.mx || !(g.fmt == .fp32 || g.fmt == .fp16 || g.fmt == .bf16)) 4
                  ++ countBad g x.counts).map (dOff (f 4) + ·)
              | none => [])
      | _, _ => [off]

def rmsOf (t : DescTab) (r : List Byte) : Option RmsOp :=
  let f (o : Nat) : Nat := fieldAt r o 2
  match tabAt t (f 0), tabAt t (f 2) with
  | some x, some y => some
    { x := descOf x, y := descOf y, gamma := if f 4 = 0xFFFF then none else (tabAt t (f 4)).map descOf
      md := ⟨bitOf (byteAt r 6) 0, bitOf (byteAt r 6) 1, false⟩, eps := fieldAt r 8 4 }
  | _, _ => none

end Sys2Proof.Machine
end

