-- ==== Sys2Proof/Machine/Scan.lean ====
section
/-!
DEFINITION. The chunked scan, the short sequential path, state storage and renormalisation
(R106 to R122, R312, file 05).
-/

namespace Sys2Proof.Machine

def valAt (l : List Val) (i : Nat) : Val := (l.drop i).head?.getD (.fin false 0 0)

/-- level_sum of R113; `i` and `i - d` are the positions whose terms are real. -/
def levelSum (md : Modes) (ai : Val) (bv : List Val) (i d : Nat) : Num Val := do
  let p ← mul32 md ai (valAt bv (i - d))
  let v ← add32 md p (valAt bv i)
  let pos := bv.zipIdx.any fun q => q.2 != i && q.2 + d != i && !q.1.sign
  return match v with
  | .fin true 0 e => .fin (!pos) 0 e
  | v => v

/-- One level of the prefix at distance d (R113): the new A and B. -/
def scanLevel (md : Modes) (sf : FloatSpec) (a bv : List Val) (d : Nat) : Num (List Val × List Val) := do
  let ps ← numMap (fun i =>
    if i < d then return (valAt a i, valAt bv i)
    else do
      let p ← mul32 md (valAt a i) (valAt a (i - d))
      let x ← roundTo sf md p
      let q ← levelSum md (valAt a i) bv i d
      let y ← roundTo sf md q
      return (x, y)) (List.range a.length)
  return (ps.map (·.1), ps.map (·.2))

/-- The levels d, 2d, 4d … below the chunk length. -/
def scanLevels (md : Modes) (sf : FloatSpec) : Nat → Nat → List Val → List Val → Num (List Val × List Val)
  | 0, _, a, bv => return (a, bv)
  | n + 1, d, a, bv =>
    if d < a.length then do
      let r ← scanLevel md sf a bv d
      scanLevels md sf n (2 * d) r.1 r.2
    else return (a, bv)

/-- A list cut or padded to `n` entries. -/
def fitTo (n : Nat) (pad : Val) (l : List Val) : List Val := l.take n ++ List.replicate (n - l.length) pad

/-- reference_chunk of R113: a and b hold the real positions; the rest is the identity padding. -/
def referenceChunk (md : Modes) (sf : FloatSpec) (len : Nat) (a b : List Val) (hs : Val) (o : Int) : Num (List Val) := do
  let r ← scanLevels md sf 12 1 (fitTo len (.fin false 1 0) a) (fitTo len (.fin false 0 0) b)
  numMap (fun p => do
    let x ← mul32 md p.1 hs
    let y ← rnd32 md (p.2.scale (-o))
    add32 md x y) (r.1.zip r.2)

/-- short_chunk of R118 over the real positions. -/
def shortChunk (md : Modes) (o : Int) : List (Val × Val) → Val → Num (List Val)
  | [], _ => return []
  | (a, b) :: r, h => do
    let x ← mul32 md a h
    let y ← rnd32 md (b.scale (-o))
    let g ← add32 md x y
    let t ← shortChunk md o r g
    return g :: t

/-- The evaluation of one state column: R113 for L ≥ 16, R118 for L ≤ 8; the first `n` values of g. -/
def scanColumn (md : Modes) (sf : FloatSpec) (len n : Nat) (a b : List Val) (hs : Val) (o : Int) : Num (List Val) := do
  if len ≤ 8 then shortChunk md o ((a.take n).zip (b.take n)) hs
  else do
    let g ← referenceChunk md sf len (a.take n) (b.take n) hs o
    return g.take n

/-- The output of one channel at one position (R115). -/
def scanOutput (md : Modes) (o : Int) (c g : List Val) : Num (Option Sv) := do
  let ts ← numMap (fun p => do
    let x ← mulExact p.1 p.2
    let t ← rnd32 md (x.scale o)
    return some (Sv.flt t)) (c.zip g)
  reduce md .fp32 ts none

/-- The legal chunk lengths of R108. -/
def chunkLenOk (l : Nat) : Bool := (1 ≤ l && l ≤ 8) || [16, 32, 64, 128, 256, 512, 1024, 2048].contains l

/-- renormalise of R122 for one channel. -/
def renormalise (md : Modes) (s : List Val) (o : Int) : Num (List Val × Int) :=
  if s.any (fun v => v.isNaN || v.isInf) then return (s, o)
  else
    let m := maxMag s
    if m.1 = 0 then return (s, o)
    else do
      let e0 := (m.1.log2 : Int) + m.2
      let e := if 127 < o + e0 then 127 - o else if o + e0 < -128 then -128 - o else e0
      let r ← numMap (fun v => roundTo specBf16 md (v.scale (-e))) s
      return (r, o + e)

/-! OP_SCAN (R312). -/

structure ScanOp where
  len : Nat
  n : Nat
  sf : Fmt
  md : Modes
  a : Desc
  b : Desc
  hs : Desc
  o : Option Desc
  g : Desc
  deriving DecidableEq, Repr

/-- One column of OP_SCAN. -/
def scanOne (x : ScanOp) (c : Nat) : OpM (List Out) := do
  let ixs := (List.range x.n).map fun i => [i, c, 0, 0]
  let a ← opElems x.md.sat x.a ixs
  let b ← opElems x.md.sat x.b ixs
  let h ← opElem x.md.sat x.hs [c, 0, 0, 0]
  let o ← match x.o with
    | some d => opElem x.md.sat d [c, 0, 0, 0]
    | none => pure (.int 0)
  let off : Int := match o with
    | .int i => i
    | .flt _ => 0
  let sf := (x.sf.float).getD specBf16
  let g ← liftNum (scanColumn x.md sf x.len x.n (a.map Sv.val) (b.map Sv.val) h.val off)
  let cs ← liftNum (numMap (fun v => convertCode .fp32 x.md (.flt v)) g)
  return cs.zipIdx.map fun p => ⟨[p.2, c, 0, 0], some p.1, none⟩

/-- OP_SCAN: every column, then the stores (R504: g overlaps no source). DESIGN CHOICE (log entry 95): R505 lists no store of the
Pergola, and its outputs are cut in stores of 256 elements. -/
def runScan (x : ScanOp) (nt : Bool) : OpM Unit := do
  let os ← opMap (scanOne x) (List.range (x.a.count 1))
  opWrite nt 256 x.g os.flatten

/-- Counts of a descriptor whose other counts are 1. -/
def countsAre (d : Desc) (c0 c1 : Nat) : Bool := d.counts == [c0, c1, 1, 1]

/-- Offending fields of the 32-byte section of OP_SCAN (R108, R134, R312, R504). -/
def scanBad (t : DescTab) (off : Nat) (dOff : Nat → Nat) (r : List Byte) : Bad :=
  let f (o : Nat) : Nat := fieldAt r o 2
  let len := f 0
  let n := f 2
  let named := f 14 != 0xFFFF
  let own : Bad :=
    badIf (!chunkLenOk len) 0 ++ badIf (len < n) 2 ++ badIf (byteAt r 4 != 1 && byteAt r 4 != 2) 4
    ++ badIf (4 ≤ byteAt r 5) 5 ++ badIf (byteAt r 6 != 0) 6 ++ badIf (byteAt r 7 != 0) 7
    ++ badIf (t.length ≤ f 8) 8 ++ badIf (t.length ≤ f 10) 10 ++ badIf (t.length ≤ f 12) 12
    ++ badIf (named && t.length ≤ f 14) 14 ++ badIf (t.length ≤ f 16) 16
    ++ (match firstNonzero (r.drop 18) 18 with
        | some i => [i]
        | none => [])
  let idx := [f 8, f 10, f 12, f 16] ++ (if named then [f 14] else [])
  let db : Bad := idx.flatMap fun i => match tabAt t i with
    | some b => (descBad b).map (dOff i + ·)
    | none => []
  if own != [] || db != [] then own.map (off + ·) ++ db
  else
      let d (o : Nat) : Option Desc := (tabAt t (f o)).map descOf
      match d 8, d 10, d 12, d 16 with
      | some a, some b, some h, some g =>
        let sf := (Fmt.ofCode (byteAt r 4)).getD .bf16
        let cols := a.count 1
        let plain (x : Desc) (ft : Fmt) : Bad := badIf (x.fmt != ft || x.mx) 4
        let o := if named then d 14 else none
        let lap (x : Option Desc) : Bool := match x with
          | some x => g.overlaps x
          | none => false
        (badIf (lap (some a)) 8 ++ badIf (lap (some b)) 10 ++ badIf (lap (some h)) 12 ++ badIf (lap o) 14).map (off + ·)
        ++ (plain a sf ++ countBad a [len, cols, 1, 1]).map (dOff (f 8) + ·)
        ++ (plain b sf ++ countBad b [len, cols, 1, 1]).map (dOff (f 10) + ·)
        ++ (badIf (h.mx || !(h.fmt == .fp32 || h.fmt == .fp16 || h.fmt == .bf16)) 4
            ++ countBad h [cols, 1, 1, 1]).map (dOff (f 12) + ·)
        ++ (match o with
            | some x => (plain x .int8 ++ countBad x [cols, 1, 1, 1]).map (dOff (f 14) + ·)
            | none => [])
        ++ (plain g .fp32 ++ countBad g [n, cols, 1, 1] ++ strideZeroBad g).map (dOff (f 16) + ·)
      | _, _, _, _ => [off + 8]

def scanOf (t : DescTab) (r : List Byte) : Option ScanOp :=
  let f (o : Nat) : Nat := fieldAt r o 2
  let d (o : Nat) : Option Desc := (tabAt t (f o)).map descOf
  match d 8, d 10, d 12, d 16 with
  | some a, some b, some h, some g => some
    { len := f 0, n := f 2, sf := (Fmt.ofCode (byteAt r 4)).getD .bf16
      md := ⟨bitOf (byteAt r 5) 0, bitOf (byteAt r 5) 1, false⟩
      a := a, b := b, hs := h, o := if f 14 = 0xFFFF then none else d 14, g := g }
  | _, _, _, _ => none

end Sys2Proof.Machine
end

