-- ==== Sys2Proof/Machine/Select.lean ====
section
/-!
DEFINITION. Selection, ranking and counting (R171 to R181, file 08).
-/

namespace Sys2Proof.Machine

/-- The operations of Table 1 of R171. -/
inductive Sop where
  | topk | merge | unique | umerge
  deriving DecidableEq, Repr

def Sop.ofCode : Nat → Option Sop
  | 1 => some .topk | 2 => some .merge | 3 => some .unique | 4 => some .umerge | _ => none

/-- MERGE and UMERGE name SRCI (R172). -/
def Sop.hasIndex : Sop → Bool
  | .merge | .umerge => true
  | _ => false

/-- A candidate entry: its value, its 32-bit tag, and its position in the row. -/
structure Entry where
  v : Sv
  tag : Nat
  pos : Nat
  deriving DecidableEq, Repr

/-- A selection ready to run. -/
structure SelOp where
  sop : Sop
  md : Modes
  small : Bool
  srcv : Desc
  srci : Option Desc
  dstv : Desc
  dsti : Desc
  dstn : Option Desc
  ibase : Nat
  deriving DecidableEq, Repr

/-- The order of R174; ties by the unspecified choice of R175. DESIGN CHOICE (log entry 92): the choice is a free function of the
row's codes and of the position, so equal rows break their ties alike whatever k, the direction or the formats are. -/
def ranksBefore (small : Bool) (row : List Nat) (x y : Entry) : Bool :=
  match x.v.val.cmp y.v.val with
  | .gt => !small
  | .lt => small
  | .eq =>
    let a := Config.tieRank row x.pos
    let b := Config.tieRank row y.pos
    decide (a < b) || (a == b && decide (x.pos < y.pos))

def insertEntry (le : Entry → Entry → Bool) (x : Entry) : List Entry → List Entry
  | [] => [x]
  | y :: r => if le x y then x :: y :: r else y :: insertEntry le x r

def rankEntries (le : Entry → Entry → Bool) : List Entry → List Entry
  | [] => []
  | x :: r => insertEntry le x (rankEntries le r)

/-- R181: equal neighbours of a ranked list joined; a class of zeros is +0. -/
def joinClasses : List Entry → List Entry
  | [] => []
  | x :: r =>
    let z : Sv := match x.v with
      | .flt v => .flt (if v.isZero then .fin false 0 0 else v)
      | v => v
    match joinClasses r with
    | y :: t => if x.v.val.cmp y.v.val = .eq then y :: t else { x with v := z } :: y :: t
    | [] => [{ x with v := z }]

/-- R181: a class is ranked by its value alone, so it takes no tie rule. -/
def classBefore (small : Bool) (x y : Entry) : Bool :=
  match x.v.val.cmp y.v.val with
  | .gt => !small
  | .lt => small
  | .eq => true

/-- The outcome of one row: the selected entries, and the NaNs dropped (R176, R177). -/
structure RowSel where
  sel : List Entry
  dropped : Nat
  deriving DecidableEq, Repr

/-- One row: candidates after R176, ranked, at most k. -/
def selectRow (o : SelOp) (codes : List Nat) (es : List Entry) (k : Nat) : RowSel :=
  let live := if o.sop == .merge then es.filter fun e => e.tag != 0xFFFFFFFF else es
  let ok := live.filter fun e => !e.v.val.isNaN
  let dropped := if o.sop == .umerge then 0 else live.length - ok.length
  let ranked := match o.sop with
    | .topk | .merge => rankEntries (ranksBefore o.small codes) ok
    | .unique | .umerge => joinClasses (rankEntries (classBefore o.small) ok)
  ⟨ranked.take k, dropped⟩

/-- The canonical NaN code of a format, or 0 for an integer (R177). -/
def padCode (f : Fmt) : Nat :=
  match f.float with
  | some s => s.canonNaN
  | none => 0

/-- The tag code written: an index, or a count saturated under R56 (R181). -/
def tagCode (o : SelOp) (signedSum : Int) (tag : Nat) : Num Nat :=
  match o.sop with
  | .topk | .merge => return tag
  | .unique | .umerge => do
    let n ← toInt false (-2 ^ 31) (2 ^ 31 - 1) (Val.ofInt signedSum)
    return unsignedCode 32 n

/-- The totals that the reply carries (R177). -/
structure SelTotal where
  r : Nat
  dropped : Nat
  deriving DecidableEq, Repr

/-- The signed sum of a class's counts over the row (R181). -/
def classSum (raw : List (Sv × Int)) (e : Entry) : Int :=
  ((raw.filter fun p => !p.1.val.isNaN && p.1.val.cmp e.v.val = .eq).map (·.2)).sum

/-- One row of a selection: reads, ranks, and gives its outputs. DESIGN CHOICE (log entry 93): only the classes that the row writes
can raise OVERFLOW for their count sums (R181). -/
def selRow (o : SelOp) (row : List Nat) : OpM (List Out × List Out × RowSel) := do
  let ixs := (List.range (o.srcv.count 0)).map fun i => i :: row.drop 1
  let codes ← opMap (opElemCode o.srcv) ixs
  let vs := codes.map (readCode o.srcv.fmt o.md.sat)
  let tags ← match o.srci with
    | some d => opMap (opElemCode d) ixs
    | none => pure ((List.range ixs.length).map fun i => if o.sop == .topk then o.ibase + i else 1)
  let es := (vs.zip tags).zipIdx.map fun p => (⟨p.1.1, p.1.2, p.2⟩ : Entry)
  let k := o.dstv.count 0
  let r := selectRow o codes es k
  let raw := (vs.zip tags).map fun p => (p.1, if o.sop == .umerge then signed 32 p.2 else (p.2 : Int))
  let md := { o.md with rtz := false }
  let vals ← liftNum (numMap (fun e => convertCode o.dstv.fmt md e.v) r.sel)
  let tgs ← liftNum (numMap (fun e => tagCode o (classSum raw e) e.tag) r.sel)
  let place (i : Nat) : List Nat := i :: row.drop 1
  let pads := k - r.sel.length
  let vo := (vals ++ List.replicate pads (padCode o.dstv.fmt)).zipIdx.map fun p => (⟨place p.2, some p.1, none⟩ : Out)
  let padTag := if o.sop == .topk || o.sop == .merge then 0xFFFFFFFF else 0
  let tagOut := (tgs ++ List.replicate pads padTag).zipIdx.map fun p => (⟨place p.2, some p.1, none⟩ : Out)
  return (vo, tagOut, r)

/-- A selection (R171 to R181): every row is read before anything is written, for no destination overlaps a source. -/
def runSelect (o : SelOp) (nt : Bool) : OpM SelTotal := do
  if o.dstv.numel = 0 then return ⟨0, 0⟩
  let rows ← opMap (selRow o) o.dstv.rows
  opWrite nt 256 o.dstv (rows.flatMap fun r => r.1)
  opWrite nt 256 o.dsti (rows.flatMap fun r => r.2.1)
  match o.dstn with
  | some d => opWrite nt 256 d ((d.indices.zip rows).map fun p => ⟨p.1, some p.2.2.2.sel.length, none⟩)
  | none => pure ()
  return ⟨(rows.map fun r => r.2.2.sel.length).sum, (rows.map fun r => r.2.2.dropped).sum⟩

/-- The value formats of R173. -/
def selFmt (d : Desc) : Bool :=
  !d.mx && (match d.fmt with
    | .fp32 | .fp16 | .bf16 | .e4m3 | .e5m2 | .int32 | .int8 | .uint8 | .int4 | .uint4 => true
    | _ => false)

/-- Offending fields of a selection record (R17, R134, R172, R173, R179). -/
def selectBad (t : DescTab) (off : Nat) (dOff : Nat → Nat) (r : List Byte) : Bad :=
  let f (o : Nat) : Nat := fieldAt r o 2
  let named (o : Nat) : Bool := f o != 0xFFFF
  let miss (o : Nat) : Bool := t.length ≤ f o
  match Sop.ofCode (byteAt r 0) with
  | none => [off]
  | some s =>
    let own : Bad :=
      badIf (4 ≤ byteAt r 1) 1 ++ badIf (2 ≤ byteAt r 2) 2 ++ badIf (byteAt r 3 != 0) 3
      ++ badIf (miss 4) 4 ++ badIf (if s.hasIndex then miss 6 else named 6) 6
      ++ badIf (miss 8) 8 ++ badIf (miss 10) 10 ++ badIf (named 12 && miss 12) 12
      ++ badIf (f 14 != 0) 14 ++ badIf (s != .topk && fieldAt r 16 4 != 0) 16
      ++ (match firstNonzero (r.drop 20) 20 with
          | some i => [i]
          | none => [])
    let idx := [f 4, f 8, f 10] ++ (if s.hasIndex then [f 6] else []) ++ (if named 12 then [f 12] else [])
    let db : Bad := idx.flatMap fun i => match tabAt t i with
      | some b => (descBad b).map (dOff i + ·)
      | none => []
    if own != [] || db != [] then own.map (off + ·) ++ db
    else
        let d (o : Nat) : Option Desc := (tabAt t (f o)).map descOf
        match d 4, d 8, d 10 with
        | some sv, some dv, some di =>
          let si := if s.hasIndex then d 6 else none
          let dn := if named 12 then d 12 else none
          let dests := [some dv, some di, dn].filterMap id
          let lap (x : Option Desc) (ds : List Desc) : Bool := match x with
            | some x => ds.any fun y => y.overlaps x
            | none => false
          let int32 (x : Desc) : Bad := badIf (x.fmt != .int32 || x.mx) 4
          let rest (c0 : Nat) : List Nat := c0 :: sv.counts.drop 1
          (badIf (lap (some sv) dests) 4 ++ badIf (lap si dests) 6 ++ badIf (lap (some di) [dv]) 10
            ++ badIf (lap dn [dv, di]) 12
            ++ badIf (s == .topk && 0xFFFFFFFF < fieldAt r 16 4 + sv.count 0) 16).map (off + ·)
          ++ (badIf (!selFmt sv) 4).map (dOff (f 4) + ·)
          ++ (match si with
              | some x => (int32 x ++ countBad x sv.counts).map (dOff (f 6) + ·)
              | none => [])
          ++ (badIf (!selFmt dv) 4 ++ countBad dv (rest (dv.count 0)) ++ strideZeroBad dv).map (dOff (f 8) + ·)
          ++ (int32 di ++ countBad di dv.counts ++ strideZeroBad di).map (dOff (f 10) + ·)
          ++ (match dn with
              | some x => (int32 x ++ countBad x (rest 1) ++ strideZeroBad x).map (dOff (f 12) + ·)
              | none => [])
        | _, _, _ => [off + 4]

/-- The selection of a record that passed its checks. -/
def selectOf (t : DescTab) (r : List Byte) : Option SelOp :=
  let d (o : Nat) : Option Desc := if fieldAt r o 2 = 0xFFFF then none else (tabAt t (fieldAt r o 2)).map descOf
  match Sop.ofCode (byteAt r 0), d 4, d 8, d 10 with
  | some s, some sv, some dv, some di => some
    { sop := s, md := ⟨bitOf (byteAt r 1) 0, bitOf (byteAt r 1) 1, false⟩, small := bitOf (byteAt r 2) 0
      srcv := sv, srci := d 6, dstv := dv, dsti := di, dstn := d 12, ibase := fieldAt r 16 4 }
  | _, _, _, _ => none

end Sys2Proof.Machine
end

