-- ==== Sys2Proof/Machine/Plans.lean ====
section
/-!
DEFINITION. Plan images: their sections, the checks of PLAN_LOAD, and the admission resources
(R79, R93 to R95, R107, R191 to R197, R200, R229, R247, R299 to R303, R503, R504).
-/

namespace Sys2Proof.Machine

/-! ## Sections (Table 5 of R300, R301) -/

/-- A part entry. -/
structure Part where
  nfoot : Nat
  nbuf : Nat
  ndesc : Nat
  nstep : Nat
  npf : Nat
  nbind : Nat
  bank : Nat
  banks : Nat
  footOff : Nat
  bufOff : Nat
  descOff : Nat
  stepOff : Nat
  pfOff : Nat
  bindOff : Nat
  deriving DecidableEq, Repr

def partBase (img : List Byte) (i : Nat) : Nat := fieldAt img 40 8 + 64 * i

def partAt (img : List Byte) (i : Nat) : Part :=
  let b := partBase img i
  { nfoot := fieldAt img b 2, nbuf := fieldAt img (b + 2) 2, ndesc := fieldAt img (b + 4) 2,
    nstep := fieldAt img (b + 6) 2, npf := fieldAt img (b + 8) 2, nbind := fieldAt img (b + 10) 2,
    bank := byteAt img (b + 12), banks := byteAt img (b + 13), footOff := fieldAt img (b + 16) 8,
    bufOff := fieldAt img (b + 24) 8, descOff := fieldAt img (b + 32) 8, stepOff := fieldAt img (b + 40) 8,
    pfOff := fieldAt img (b + 48) 8, bindOff := fieldAt img (b + 56) 8 }

/-- A step: its place in the image, header fields, body and tag actions (R301). -/
structure PStep where
  at' : Nat
  /-- Its number in its part, in plan order. -/
  no : Nat
  kind : Nat
  nt : Bool
  units : Nat
  body : List Byte
  tags : List (Nat × Nat × Nat × Nat)
  deriving DecidableEq, Repr

/-- Bytes of the step at an offset. -/
def stepLen (img : List Byte) (o : Nat) : Nat := 16 + fieldAt img (o + 2) 2 + 8 * byteAt img (o + 4)

def stepAt (img : List Byte) (no o : Nat) : PStep :=
  let bl := fieldAt img (o + 2) 2
  { at' := o, no := no, kind := byteAt img o, nt := bitOf (byteAt img (o + 1)) 0, units := byteAt img (o + 5),
    body := slice img (o + 16) bl
    tags := (List.range (byteAt img (o + 4))).map fun j =>
      let t := o + 16 + bl + 8 * j
      (byteAt img t, byteAt img (t + 1), fieldAt img (t + 4) 2, fieldAt img (t + 6) 2) }

def stepsFrom (img : List Byte) : Nat → Nat → Nat → List PStep
  | 0, _, _ => []
  | n + 1, no, o => stepAt img no o :: stepsFrom img n (no + 1) (o + stepLen img o)

def Part.steps (p : Part) (img : List Byte) : List PStep := stepsFrom img p.nstep 0 p.stepOff

/-- A range list of 4-byte entries: first slot and count. -/
def rangesAt (img : List Byte) (off n : Nat) : List (Nat × Nat) :=
  (List.range n).map fun i => (fieldAt img (off + 4 * i) 2, fieldAt img (off + 4 * i + 2) 2)

def Part.foot (p : Part) (img : List Byte) : List (Nat × Nat) := rangesAt img p.footOff p.nfoot
def Part.bufs (p : Part) (img : List Byte) : List (Nat × Nat) := rangesAt img p.bufOff p.nbuf
def Part.descs (p : Part) (img : List Byte) : List (List Byte) :=
  (List.range p.ndesc).map fun i => slice img (p.descOff + 48 * i) 48
def Part.pfs (p : Part) (img : List Byte) : List (List Byte) :=
  (List.range p.npf).map fun i => slice img (p.pfOff + 32 * i) 32
def Part.bindings (p : Part) (img : List Byte) : List (List Byte) :=
  (List.range p.nbind).map fun i => slice img (p.bindOff + 16 * i) 16

/-- The staging area in slots: whole banks of 128 slots (R93, R183). -/
def Part.staging (p : Part) : Nat × Nat := (128 * p.bank, 128 * p.banks)

/-- A slot range lies in one of the ranges, or in several that cover it slot by slot. -/
def slotsIn (rs : List (Nat × Nat)) (first count : Nat) : Bool :=
  (List.range count).all fun i => rs.any fun r => decide (r.1 ≤ first + i) && decide (first + i < r.1 + r.2)

/-- A byte range lies in the slots of a footprint (R200). -/
def bytesIn (rs : List (Nat × Nat)) (a n : Nat) : Bool :=
  n == 0 || slotsIn rs (a / 4096) ((a + n - 1) / 4096 + 1 - a / 4096)

/-- Slots that the descriptors address: the footprint of a direct operation (R200). -/
def dirFootprint (t : DescTab) : List (Nat × Nat) :=
  t.flatMap fun b => if descBad b != [] then [] else ((descOf b).spans.filter fun q => 0 < q.2).map fun q =>
    (q.1.toNat / 4096, (q.1.toNat + q.2 - 1) / 4096 + 1 - q.1.toNat / 4096)

/-- A slot range meets the staging area. -/
def meetsStaging (p : Part) (first count : Nat) : Bool :=
  decide (0 < count) && decide (first < p.staging.1 + p.staging.2) && decide (p.staging.1 < first + count)

/-- A byte range meets the staging area. -/
def bytesMeetStaging (p : Part) (a n : Nat) : Bool :=
  decide (0 < n) && decide (a < (p.staging.1 + p.staging.2) * 4096) && decide (p.staging.1 * 4096 < a + n)

/-! ## Operands of a step -/

/-- Descriptor indices that a step reads (R312, Table 6 of R301). -/
def stepSources (st : PStep) : List Nat :=
  let f (o : Nat) : Nat := fieldAt st.body o 2
  let opt (o : Nat) : List Nat := if f o = 0xFFFF then [] else [f o]
  match st.kind with
  | 0x40 => f 0 :: opt 2 ++ opt 6
  | 0x41 => (chunks 16 256 st.body).flatMap fun r =>
      ((List.range 3).filterMap fun k => if recKind r k = 1 then some (recSrc r k) else none) ++
        (if bitOf (byteAt r 1) 4 then [fieldAt r 12 2] else [])
  | 0x43 => f 4 :: (if byteAt st.body 0 = 2 || byteAt st.body 0 = 4 then [f 6] else [])
  | 0x44 => opt 0 ++ [f 2]
  | 0x45 => (List.range 3).filterMap fun k => if recKind st.body k = 1 then some (recSrc st.body k) else none
  | 0x46 => f 0 :: opt 4
  | 0x81 => [f 2, f 4, f 6]
  | _ => []

/-- Descriptor indices that a step writes. -/
def stepDests (st : PStep) : List Nat :=
  let f (o : Nat) : Nat := fieldAt st.body o 2
  match st.kind with
  | 0x40 => [f 4]
  | 0x41 => (chunks 16 256 st.body).map fun r => fieldAt r 4 2
  | 0x43 => [f 8, f 10] ++ (if f 12 = 0xFFFF then [] else [f 12])
  | 0x44 => [f 4]
  | 0x45 => [f 4]
  | 0x46 => [f 2]
  | 0x81 => [f 8]
  | _ => []

/-- The weight of an OP_MATMUL step that comes through the WFU. -/
def stepWeight (st : PStep) : Option Nat :=
  if st.kind = 0x40 && fieldAt st.body 2 2 = 0xFFFF then some (fieldAt st.body 12 4) else none

/-! ## Checks -/

/-- A pair of formats that the MA multiplies with A (R63, R64). -/
def anyWeightShape (a c : Desc) : Option Shape :=
  let fs : List Fmt := [a.fmt, .fp16, .bf16, .e4m3, .e5m2, .e3m2, .e2m3, .e2m1, .int8, .uint8, .int4, .uint4]
  (fs.find? fun f => (pairAcc a.fmt f false).isSome).map fun f =>
    { fmt := f, mx := false, grouped := false, gshift := 0, itable := 0, c := [a.count 0, c.count 0, 1, 1] }

/-- The shape that a plan's weight or gather source has at PLAN_LOAD: that of the present tensor, or, when it is absent,
one that fits the operation. -/
def declShape (p : Plot) (h : Nat) (guess : Option Shape) : Option Shape :=
  match mget p.tensors h with
  | some t => some t.shape
  | none => guess

/-- The offending fields of one step's body, as image offsets (R142, R171, R200, R301, R312 to R314, R503, R504). -/
def stepBodyBad (p : Plot) (img : List Byte) (pt : Part) (t : DescTab) (sfum : Bool) (st : PStep) : Bad :=
  let o := st.at' + 16
  let dOff (i : Nat) : Nat := pt.descOff + 48 * i
  let ok (a n : Nat) : Bool := bytesIn (pt.foot img) a n
  let d (k : Nat) : Option Desc := (tabAt t (fieldAt st.body k 2)).map descOf
  match st.kind with
  | 0x40 =>
    let guess := match d 0, d 4 with
      | some a, some c => anyWeightShape a c
      | _, _ => none
    let wsh := match stepWeight st with
      | some h => if (declsOf img).any (fun x => x.handle == h && x.role == 0) then declShape p h guess else none
      | none => none
    matmulBad t wsh o dOff ok st.body
  | 0x41 => ((chunks 16 256 st.body).zipIdx).flatMap fun r => recordBad t sfum (fun _ => true) (o + 16 * r.2) dOff r.1
  | 0x43 => selectBad t o dOff st.body
  | 0x44 =>
    let i := fieldAt st.body 16 2
    let dec := declAt img i
    let legal := decide (i < planDecls img) && (dec.role == 0 || dec.role == 2) && !dec.compressed
    let guess := (d 4).map fun y => ({ fmt := y.fmt, mx := false, grouped := false, gshift := 0, itable := 0, c := y.counts } : Shape)
    let tsh := if fieldAt st.body 0 2 = 0xFFFF && legal then declShape p dec.handle guess else none
    badIf (fieldAt st.body 0 2 == 0xFFFF && !legal) (o + 16) ++ gatherBad t tsh true (o + 16) o dOff st.body
  | 0x45 => recordBad t sfum Vop.isConvert o dOff st.body
  | 0x46 => rmsBad t o dOff st.body
  | _ => []

/-- The offending fields of a scan-layer step (R107, R301, R503, R504). -/
def scanStepBad (img : List Byte) (pt : Part) (t : DescTab) (st : PStep) : Bad :=
  let o := st.at' + 16
  let f (k : Nat) : Nat := fieldAt st.body k 2
  let own := badIf (planLayers img ≤ f 0 || !(layerAt img (f 0)).scan) 0 ++ badIf (t.length ≤ f 2) 2 ++
    badIf (t.length ≤ f 4) 4 ++ badIf (t.length ≤ f 6) 6 ++ badIf (t.length ≤ f 8) 8 ++
    resvIn st.body 10 6
  if own != [] then own.map (o + ·)
  else
    let idx := [f 2, f 4, f 6, f 8]
    let db : Bad := idx.flatMap fun i => ((tabAt t i).map fun b => (descBad b).map (pt.descOff + 48 * i + ·)).getD []
    if db != [] then db
    else
      let d (i : Nat) : Option Desc := (tabAt t i).map descOf
      match d (f 2), d (f 4), d (f 6), d (f 8) with
      | some a, some b, some c, some y =>
        let y0 := layerAt img (f 0)
        let l := a.count 0
        let sf (x : Desc) : Bad := badIf (x.mx || !(x.fmt == .bf16 || x.fmt == .fp16)) 4
        let shape := badIf (!chunkLenOk l || b.count 0 != l || c.count 1 != l || y.count 1 != l) 8
        let alike := badIf (b.fmt != a.fmt || c.fmt != a.fmt) 4
        (badIf (y.overlaps a) 2 ++ badIf (y.overlaps b) 4 ++ badIf (y.overlaps c) 6).map (o + ·) ++
          [(f 2, a, shape ++ alike ++ sf a ++ countBad a [l, y0.d * y0.s / y0.w, 1, 1]),
           (f 4, b, sf b ++ countBad b [b.count 0, y0.d * y0.s, 1, 1]),
           (f 6, c, sf c ++ countBad c [y0.s, c.count 1, 1, 1]),
           (f 8, y, countBad y [y0.d, y.count 1, 1, 1])].flatMap fun q =>
              (q.2.2 ++ strideZeroBad q.2.1).map (pt.descOff + 48 * q.1 + ·)
      | _, _, _, _ => [o]

/-- The offending fields of a cross-part move (R301, R503). -/
def moveStepBad (img : List Byte) (pt : Part) (st : PStep) : Bad :=
  let o := st.at' + 16
  let n := fieldAt st.body 4 4
  let dst := byteAt st.body 8
  let other := partAt img dst
  badIf (!bytesIn (pt.foot img) (fieldAt st.body 0 4) n) o ++ badIf (planParts img ≤ dst) (o + 8) ++
    (resvIn st.body 9 3).map (o + ·) ++
    badIf (dst < planParts img && (!bytesIn (other.foot img) (fieldAt st.body 12 4) n ||
      bytesMeetStaging other (fieldAt st.body 12 4) n)) (o + 12)

/-- The BODYLEN that a step kind fixes (R503). -/
def bodyLenOk (kind bl : Nat) : Bool :=
  match kind with
  | 0x40 => bl == 48
  | 0x41 => bl % 16 == 0 && 16 ≤ bl && bl ≤ 4096
  | 0x43 => bl == 32
  | 0x44 => bl == 32
  | 0x45 => bl == 16
  | 0x46 => bl == 16
  | 0x80 => bl == 0
  | 0x81 => bl == 16
  | 0x82 => bl == 16
  | _ => false

/-- The offending fields of a step's tag actions (R192, R196, R197, R301). -/
def tagsBad (img : List Byte) (pt : Part) (tagsMode : Bool) (st : PStep) : Bad :=
  let o := st.at' + 16 + st.body.length
  if !tagsMode then badIf (!st.tags.isEmpty) o
  else (st.tags.zipIdx).flatMap fun q =>
    let (act, opd, first, count) := q.1
    let home := if st.kind = 0x82 && opd = 0 then partAt img (byteAt st.body 8) else pt
    let b := o + 8 * q.2
    badIf (3 < act || (opd == 0 && (act == 0 || act == 3)) || (1 ≤ opd && opd ≤ 3 && (act == 1 || act == 2))) b ++
      badIf (3 < opd) (b + 1) ++ resvIn img (b + 2) 2 ++
      badIf (!slotsIn (home.foot img) first count || meetsStaging home first count) (b + 4)

/-- The offending fields of one step. -/
def stepBad (p : Plot) (img : List Byte) (pt : Part) (st : PStep) : Bad :=
  let o := st.at'
  let flags := planFlags img
  let hdr := badIf (! [0x40, 0x41, 0x43, 0x44, 0x45, 0x46, 0x80, 0x81, 0x82].contains st.kind) o ++
    badIf (2 ≤ byteAt img (o + 1)) (o + 1) ++ badIf (!bodyLenOk st.kind st.body.length) (o + 2) ++
    badIf (8 < byteAt img (o + 4)) (o + 4) ++
    badIf (if st.kind = 0x80 then 32 ≤ st.units else st.units != 0) (o + 5) ++ resvIn img (o + 6) 10 ++
    badIf (st.kind == 0x81 && planKind img == 0) o ++
    badIf (st.kind == 0x82 && !bitOf flags 0 && 1 < planParts img) o
  if hdr != [] then hdr
  else
    let t := pt.descs img
    let body := match st.kind with
      | 0x81 => scanStepBad img pt t st
      | 0x82 => moveStepBad img pt st
      | _ => stepBodyBad p img pt t (bitOf flags 1) st
    let writes := (stepDests st).flatMap fun i => match tabAt t i with
      | some b => badIf ((descOf b).spans.any fun q => bytesMeetStaging pt q.1.toNat q.2) (pt.descOff + 48 * i)
      | none => []
    body ++ (if body = [] then writes else []) ++ tagsBad img pt (bitOf flags 0) st

/-- The declaration that a prefetch entry's source stands for: its own, or that of a TRANSIENT layer's weight (R94). -/
def pfDecl (img : List Byte) (e : List Byte) : Decl :=
  declAt img (if byteAt e 0 = 0 then fieldAt e 2 2 else (layerAt img (fieldAt e 2 2)).wdecl)

/-- The entry names no source that the plan pins or the payload carries (R94, R96, R300). -/
def pfNoSource (img : List Byte) (extra : List Nat) (e : List Byte) : Bool :=
  let ix := fieldAt e 2 2
  match byteAt e 0 with
  | 0 => planDecls img ≤ ix || (declAt img ix).role != 0
  | 1 => planLayers img ≤ ix || !((layerAt img ix).transient || extra.contains ix) || planDecls img ≤ (layerAt img ix).wdecl
  | _ => true

/-- The entry's data stand in its buffer when a step begins that runs between its issue and release points (R94); with NEXT
the issue point lies before the epoch (log entry 82). -/
def pfServes (e : List Byte) (k : Nat) : Bool :=
  (byteAt e 1 == 1 || decide (fieldAt e 22 2 ≤ k)) && decide (k ≤ fieldAt e 24 2)

/-- The decoded bytes that an entry fills in its buffer: whole blocks of a compressed tensor (R247, R248). -/
def pfSpan (img : List Byte) (e : List Byte) : Nat × Nat :=
  (fieldAt e 8 8, if (pfDecl img e).compressed then roundUp (fieldAt e 16 4) 4096 else fieldAt e 16 4)

/-- The offending fields of one prefetch entry (R93, R94, R247, R284, R300). A length of a compressed tensor whose DSIZE is
not known can be judged only by its multiple of 4,096 (DESIGN CHOICE, log entry 83). -/
def pfEntryBad (img : List Byte) (extra : List Nat) (pt : Part) (dsizeOf : Nat → Option Nat) (e : List Byte) : Bad :=
  let dec := pfDecl img e
  let off := fieldAt e 8 8
  let len := fieldAt e 16 4
  let span := if dec.compressed then off % 4096 != 0 || (len % 4096 != 0 && (match dsizeOf dec.handle with
      | some n => off + len != n
      | none => false))
    else dec.ssize < off + len
  let room : Bad := match (pt.bufs img).drop (fieldAt e 20 2) with
    | b :: _ => badIf (4096 * b.2 < len) 16
    | [] => [20]
  badIf (1 < byteAt e 0) 0 ++ badIf (1 < byteAt e 1) 1 ++ badIf (byteAt e 0 ≤ 1 && pfNoSource img extra e) 2 ++ resvIn e 4 4 ++
    badIf (!pfNoSource img extra e && span) 8 ++ room ++
    badIf (pt.nstep ≤ fieldAt e 22 2 || (byteAt e 1 == 0 && fieldAt e 24 2 < fieldAt e 22 2)) 22 ++
    badIf (pt.nstep ≤ fieldAt e 24 2) 24 ++ resvIn e 26 6

/-- A step consumes an entry: it feeds the entry's weight between the issue and release points. -/
def pfConsumes (img : List Byte) (st : PStep) (e : List Byte) : Bool :=
  stepWeight st == some (pfDecl img e).handle && pfServes e st.no

/-- An entry whose buffer no step can release (R95): the step at its release point waits for a later entry, and that entry, or
one before it in the schedule, waits for this buffer. -/
def pfStuck (img : List Byte) (steps : List PStep) (e : List Byte) (later : List (List Byte)) : Bool :=
  let same := later.dropWhile fun g => !(fieldAt g 20 2 == fieldAt e 20 2 && byteAt g 1 == byteAt e 1)
  (same.head?.any fun g => decide (fieldAt g 24 2 ≤ fieldAt e 24 2)) ||
    same.any fun g => steps.any fun st => pfConsumes img st g &&
      (st.no == fieldAt e 24 2 || (decide (st.no < fieldAt e 24 2) &&
        (steps.any fun r => r.no == fieldAt e 24 2 && r.kind == 0x40)))

/-- The offending fields of the prefetch schedule (R93 to R96, R219, R247, R300): every byte that a step's weight needs stands
in a buffer that an earlier entry fills, as far as the weight's form is known. -/
def scheduleBad (p : Plot) (img : List Byte) (extra : List Nat) (pt : Part) (dsizeOf : Nat → Option Nat) : Bad :=
  let es := pt.pfs img
  let steps := pt.steps img
  let good := es.filter fun e => !pfNoSource img extra e
  let perEntry := (es.zipIdx).flatMap fun q => (pfEntryBad img extra pt dsizeOf q.1).map (pt.pfOff + 32 * q.2 + ·)
  let stuck := (es.zipIdx).flatMap fun q => badIf (pfStuck img steps q.1 (es.drop (q.2 + 1))) (pt.pfOff + 32 * q.2 + 24)
  let unfed := steps.flatMap fun st => match stepWeight st with
    | some h =>
      let segs := (good.filter (pfConsumes img st)).map fun e => ((pfSpan img e).1, (pfSpan img e).2, 0)
      let short := match (mget p.tensors h).map Tensor.shape with
        | some sh => !(sh.needs.all (stagedCovers segs))
        | none => segs.isEmpty
      badIf short (match es.findIdx? fun e => (pfDecl img e).handle == h && !pfNoSource img extra e && decide (st.no ≤ fieldAt e 24 2) with
        | some k => pt.pfOff + 32 * k + 22
        | none => st.at')
    | none => []
  perEntry ++ stuck ++ unfed

/-- Every chunk length and scan format that the scan-layer steps name (R503). -/
def scanShapes (img : List Byte) : List (Nat × Fmt) :=
  (List.range (planParts img)).flatMap fun i =>
    let pt := partAt img i
    ((pt.steps img).filter fun st => st.kind == 0x81).filterMap fun st =>
      (tabAt (pt.descs img) (fieldAt st.body 2 2)).map fun b => ((descOf b).count 0, (descOf b).fmt)

/-- The chunk length that a STREAM plan fixes (R503). -/
def scanLen (img : List Byte) : Option Nat := (scanShapes img).head?.map (·.1)

/-- The offending fields of a part's bindings (R93, R302, R313, R504); a declared tensor has its declared stored size. -/
def bindingsBad (img : List Byte) (pt : Part) : Bad :=
  let t := pt.descs img
  ((pt.bindings img).zipIdx).flatMap fun q =>
    let b := q.1
    let o := pt.bindOff + 16 * q.2
    let dir := byteAt b 2
    let kind := byteAt b 3
    let decl := (declsOf img).find? fun d => d.handle == fieldAt b 4 4
    let dd := (tabAt t (fieldAt b 0 2)).map descOf
    let reach : Nat := match decl with
      | some d => if d.role = 1 then roundUp d.ssize 16 else d.ssize
      | none => 0
    let beyond := kind == 1 && decl.isSome && (match dd with
      | some d => reach < fieldAt b 8 8 + d.streamBytes
      | none => false)
    let fills := dir == 0 && (match dd with
      | some d => d.spans.any fun s => bytesMeetStaging pt s.1.toNat s.2
      | none => false)
    let handleBad := if kind = 0 then fieldAt b 4 4 != 0 else match decl with
      | some d => d.compressed || (if dir = 1 then !(d.role == 1 || d.role == 3) else false)
      | none => true
    let zero : Bad := match dd with
      | some d => if dir = 0 then (strideZeroBad d).map (pt.descOff + 48 * fieldAt b 0 2 + ·) else []
      | none => []
    let block := match scanLen img with
      | some l => l * (if dir = 0 then planX img else planY img)
      | none => 0
    let past := planKind img == 1 && kind == 0 && (match dd with
      | some d => block < fieldAt b 8 8 + d.streamBytes
      | none => false)
    badIf (past || beyond) (o + 8) ++ badIf fills (pt.descOff + 48 * fieldAt b 0 2) ++ badIf dd.isNone o ++
    badIf (1 < dir) (o + 2) ++ badIf (1 < kind) (o + 3) ++ badIf handleBad (o + 4) ++
      badIf (kind == 0 && fieldAt b 8 8 != 0 && dir == 1) (o + 8) ++ zero

/-- A section of `n` bytes at an offset does not lie in the image at a multiple of 16 (R300). A section without entries lies
nowhere. -/
def sectionBad (img : List Byte) (off n : Nat) : Bool := 0 < n && (off % 16 != 0 || img.length < off + n)

/-- The offending fields of a part entry and its sections (R93, R200, R300). -/
def partBad (p : Plot) (img : List Byte) (extra : List Nat) (dsizeOf : Nat → Option Nat) (i : Nat) : Bad :=
  let pt := partAt img i
  let b := partBase img i
  let own := badIf (16 < pt.nfoot) b ++ badIf (pt.banks < 2 || 16 < pt.banks) (b + 13) ++
    badIf (40 < pt.bank + pt.banks) (b + 12) ++ resvIn img (b + 14) 2 ++
    badIf (sectionBad img pt.footOff (4 * pt.nfoot)) (b + 16) ++ badIf (sectionBad img pt.bufOff (4 * pt.nbuf)) (b + 24) ++
    badIf (sectionBad img pt.descOff (48 * pt.ndesc)) (b + 32) ++ badIf (sectionBad img pt.stepOff (16 * pt.nstep)) (b + 40) ++
    badIf (sectionBad img pt.pfOff (32 * pt.npf)) (b + 48) ++ badIf (sectionBad img pt.bindOff (16 * pt.nbind)) (b + 56)
  if own != [] then own
  else
    let foot := pt.foot img
    let steps := pt.steps img
    let past := match steps.find? fun st => img.length < st.at' + 16 + st.body.length + 8 * byteAt img (st.at' + 4) with
      | some st => [if img.length < st.at' + 16 then b + 40 else st.at' + 2]
      | none => []
    let ranges := (foot.zipIdx).flatMap fun r => badIf (spadSlots < r.1.1 + r.1.2) (pt.footOff + 4 * r.2)
    let bufs := ((pt.bufs img).zipIdx).flatMap fun r =>
      badIf (r.1.1 < pt.staging.1 || pt.staging.1 + pt.staging.2 < r.1.1 + r.1.2) (pt.bufOff + 4 * r.2)
    let descs := ((pt.descs img).zipIdx).flatMap fun d =>
      let bad := descBad d.1
      if bad = [] then badIf (!(descOf d.1).within (bytesIn foot)) (pt.descOff + 48 * d.2) else bad.map (pt.descOff + 48 * d.2 + ·)
    let first := ranges ++ badIf (!slotsIn foot pt.staging.1 pt.staging.2) (b + 12) ++ bufs ++ descs ++ past
    if first != [] then first
    else steps.flatMap (stepBad p img pt) ++ bindingsBad img pt ++ scheduleBad p img extra pt dsizeOf

/-- Layers that the scan-layer steps name, in order of parts and steps. -/
def scanStepLayers (img : List Byte) : List Nat :=
  (List.range (planParts img)).flatMap fun i =>
    (((partAt img i).steps img).filter fun st => st.kind == 0x81).map fun st => fieldAt st.body 0 2

/-- The offending fields of a plan image, as image offsets (R300). `p` is the plot, `extra` PLAN_LOAD's TRANSIENT
list. -/
def planBad (p : Plot) (img : List Byte) (extra : List Nat) (engines : Nat) : Bad :=
  if img.length < 64 then [0]
  else
    let hdr := badIf (1 < planKind img) 6 ++ badIf (3 < planFlags img) 7 ++
      badIf (planParts img < 1 || 6 < planParts img || engines < planParts img) 8 ++
      badIf (planLayers img < 1 || 1024 < planLayers img) 10 ++ badIf (4096 < planDecls img) 12 ++
      resvIn img 14 2 ++ badIf (sectionBad img (fieldAt img 24 8) (32 * planDecls img)) 24 ++
      badIf (sectionBad img (fieldAt img 32 8) (16 * planLayers img)) 32 ++
      badIf (sectionBad img (fieldAt img 40 8) (64 * planParts img)) 40 ++ resvIn img 48 16
    if hdr != [] then hdr
    else
      let decls := ((List.range (planDecls img))).flatMap fun i =>
        let d := declAt img i
        let b := fieldAt img 24 8 + 32 * i
        badIf (badHandle d.handle) b ++ badIf (3 < d.role) (b + 4) ++
          badIf (1 < byteAt img (b + 5) || (d.compressed && d.role != 0)) (b + 5) ++
          badIf (d.layer != 0xFFFF && planLayers img ≤ d.layer) (b + 6) ++ resvIn img (b + 16) 16
      let layers := (List.range (planLayers img)).flatMap fun i =>
        let y := layerAt img i
        let b := fieldAt img 32 8 + 16 * i
        let wOk := y.w == 1 || y.w == y.s || (y.s != 0 && y.w % y.s == 0 && y.w != 0 && (y.d * y.s) % y.w == 0)
        badIf (y.wdecl != 0xFFFF && (planDecls img ≤ y.wdecl || (declAt img y.wdecl).role != 0)) b ++
          badIf (1 < byteAt img (b + 2)) (b + 2) ++ badIf (1 < byteAt img (b + 3)) (b + 3) ++
          badIf (if y.scan then !wOk else y.w != 0) (b + 4) ++ badIf (if y.scan then y.d == 0 else y.d != 0) (b + 8) ++
          badIf (if y.scan then y.s == 0 else y.s != 0) (b + 12)
      let scans := badIf (planKind img == 1 && (scanLayers img).isEmpty) 6
      let top := decls ++ layers ++ scans
      if top != [] then top
      else
        let dsizeOf (h : Nat) : Option Nat := (mget p.tensors h).map fun t => if t.compressed then wDsize t.img else t.img.length
        let parts := (List.range (planParts img)).flatMap (partBad p img extra dsizeOf)
        if parts != [] then parts
        else
          let sh := scanShapes img
          let named := scanStepLayers img
          let once := (List.range (planLayers img)).flatMap fun i =>
            badIf (planKind img == 1 && (layerAt img i).scan && named.count i != 1) (fieldAt img 32 8 + 16 * i)
          once ++ badIf (sh.any fun x => sh.head? != some x) (fieldAt img 40 8)

/-! ## Admission (R229) -/

/-- Bytes of the descriptor cache that a part needs: its table, records and blocks, and the IDX4 tables of its present
weights. The form of a weight that is absent, or only carried by a payload, is not known at PLAN_LOAD: it counts as referencing
no IDX4 table (DESIGN CHOICE, log entry 84). -/
def cacheNeed (p : Plot) (img : List Byte) (pt : Part) : Nat :=
  let steps := pt.steps img
  let recs := (steps.map fun st => match st.kind with
    | 0x40 => 16
    | 0x41 => st.body.length
    | 0x43 => st.body.length
    | 0x45 => st.body.length
    | _ => 0).sum
  let tabs := (steps.filterMap stepWeight).filterMap fun h => (mget p.tensors h).bind fun t =>
    if t.fmt = 0xE then some t.itable else none
  48 * pt.ndesc + recs + 32 * tabs.eraseDups.length

def cacheNeeds (p : Plot) (img : List Byte) : Nat :=
  ((List.range (planParts img)).map fun i => cacheNeed p img (partAt img i)).foldl max 0

/-- The first declaration of each handle of a list. -/
def onePerHandle (ds : List Decl) : List Decl :=
  ds.foldl (fun r d => if r.any fun e => e.handle == d.handle then r else r ++ [d]) []

/-- Declared weights that are not TRANSIENT and not present, each once (R229). -/
def absentWeights (p : Plot) (img : List Byte) (extra : List Nat) : List Decl :=
  onePerHandle <| (declsOf img).filter fun d => d.role == 0 && (mget p.tensors d.handle).isNone &&
    !(d.layer != 0xFFFF && ((layerAt img d.layer).transient || extra.contains d.layer))

/-- ROLE 1 tensors that an OUT binding of the plan writes: each needs a shadow (R219, R223). -/
def writtenBy (img : List Byte) (h : Nat) : Bool :=
  (List.range (planParts img)).any fun i => ((partAt img i).bindings img).any fun b =>
    byteAt b 2 == 1 && byteAt b 3 == 1 && fieldAt b 4 4 == h

/-- Pages of the image and shadows, which the plan holds while it is loaded (R229). -/
def planOwnPages (img : List Byte) : Nat :=
  pagesFor img.length + ((onePerHandle ((declsOf img).filter fun d => d.role == 1 || d.role == 3)).map fun d =>
    if d.role = 3 || (d.role = 1 && writtenBy img d.handle) then pagesFor d.ssize else 0).sum

/-- The HBM need of R229 in pages. -/
def planNeed (p : Plot) (img : List Byte) (extra : List Nat) : Nat :=
  planOwnPages img + ((declsOf img).map fun d => if d.role = 1 then pagesFor d.ssize else 0).sum +
    ((absentWeights p img extra).map fun d => pagesFor d.ssize).sum

/-- Stored weight bytes of a layer (R229). -/
def layerBytes (img : List Byte) (i : Nat) : Nat :=
  let y := layerAt img i
  if y.wdecl = 0xFFFF then 0 else (declAt img y.wdecl).ssize

/-- The TRANSIENT layers of a loaded plan in layer order, with their image bytes (R231, R250). -/
def transientLayers (p : Plan) : List (Nat × Nat) :=
  ((List.range (planLayers p.img)).filter fun i => isTransient p i && (layerAt p.img i).wdecl != 0xFFFF).map fun i =>
    (i, layerBytes p.img i)

def transientBytes (p : Plan) : Nat := ((transientLayers p).map (·.2)).sum

end Sys2Proof.Machine
end

