-- ==== Sys2Proof/Machine/Accept.lean ====
section
/-!
DEFINITION. The acceptance checks of R269, opcode by opcode, and the largest reply of each command
(R225, R264, R270, R284 to R319, R342, R347).
-/

namespace Sys2Proof.Machine

/-! ## Packets (R259 to R261) -/

/-- The header fields of a packet (Table 3 of R259), and its CRC field. -/
structure Hdr where
  opcode : Nat
  cont : Bool
  irq : Bool
  stream : Nat
  tlen : Nat
  seq : Nat
  tag : Nat
  plen : Nat
  handle : Nat
  deriving DecidableEq, Repr

def hdrOf (b : List Byte) : Hdr :=
  let w := fieldAt b 0 4
  ⟨w % 256, bitOf w 8, bitOf w 9, bitsOf w 27 16, fieldAt b 4 4, fieldAt b 8 8, fieldAt b 16 8, fieldAt b 24 4, fieldAt b 28 4⟩

def crcField (b : List Byte) (tlen : Nat) : Nat := fieldAt b (tlen - 4) 4

/-- The payload data of a packet, without its padding (R259, R260). -/
def payloadOf (b : List Byte) (h : Hdr) : List Byte :=
  slice b (32 + h.plen) (h.tlen - 48 - h.plen - byteAt b (h.tlen - 16))

/-- TLEN obeys R261 for a ring of a size. -/
def tlenOk (tlen ring : Nat) : Bool := 48 ≤ tlen && tlen % 16 == 0 && tlen ≤ min 4194304 ring

/-! ## The table of opcodes (Table 1 of R286) -/

def opcodeListed (op : Nat) : Bool :=
  [0x01, 0x02, 0x03, 0x04, 0x10, 0x11, 0x12, 0x13, 0x14, 0x15, 0x20, 0x21, 0x22, 0x30, 0x31, 0x32, 0x33, 0x34, 0x35, 0x36,
    0x37, 0x40, 0x41, 0x42, 0x43, 0x44, 0x45, 0x46, 0x50, 0x60, 0x61, 0x62, 0x63, 0x70, 0x71].contains op

def chainable (op : Nat) : Bool := [0x10, 0x14, 0x20, 0x22, 0x31, 0x32].contains op || isDirect op

/-- Admin opcodes (R316 to R318) and those of the management authority (R319). -/
def adminOp (op : Nat) : Bool := decide (0x60 ≤ op) && decide (op ≤ 0x63)
def authorityOp (op : Nat) : Bool := op == 0x70 || op == 0x71

/-- The opcode names a handle in the header (R284). -/
def namesHandle (op : Nat) (ps : List Byte) : Bool :=
  [0x10, 0x11, 0x12, 0x13, 0x20, 0x21, 0x22, 0x30, 0x31, 0x32, 0x36, 0x37].contains op ||
    (op == 0x04 && byteAt ps 0 == 3) || ((op == 0x14 || op == 0x15) && byteAt ps 0 == 1) ||
    (op == 0x44 && fieldAt ps 16 2 == 0xFFFF)

/-- OPLEN of Table 7 of R312, or for OP_VECTOR the rule it obeys. -/
def oplenOk (op n : Nat) : Bool :=
  match op with
  | 0x40 => n == 48
  | 0x41 => n % 16 == 0 && n ≤ 4096
  | 0x42 => n == 32
  | 0x43 => n == 32
  | 0x44 => n == 32
  | 0x45 => n == 16
  | _ => n == 16

/-- PLEN of Table 1 of R286, from the parameters where it depends on them. -/
def plenOf (op : Nat) (ps : List Byte) : Nat :=
  match op with
  | 0x01 => 0 | 0x12 => 0 | 0x21 => 0 | 0x32 => 0 | 0x33 => 0 | 0x36 => 0
  | 0x10 => 64 | 0x60 => 64
  | 0x20 => 16 + 16 * ceilDiv (fieldAt ps 8 2) 8
  | 0x50 => 16 + 16 * ceilDiv (byteAt ps 1) 2
  | 0x70 => 32 + 16 * byteAt ps 16
  | _ => if isDirect op then 16 + dirOplen ps + 48 * dirNdesc ps + 16 * dirNbind ps else 16

/-! ## Checks 4 to 8 of Table 5 -/

/-- Check 4: the lengths inside the packet (R269). -/
def checkLengths (b : List Byte) (h : Hdr) : Option Nat :=
  if h.plen % 16 != 0 || h.tlen < 32 + h.plen + 16 then some 24
  else
    let pad := byteAt b (h.tlen - 16)
    let room := h.tlen - 48 - h.plen
    if 15 < pad || room < pad then some (h.tlen - 16)
    else match firstNonzero (slice b (h.tlen - 16 - pad) pad) (h.tlen - 16 - pad) with
      | some o => some o
      | none => firstNonzero (slice b (h.tlen - 15) 11) (h.tlen - 15)

/-- Check 6: the opcode on this queue and function (R269, R341, R342). -/
def opcodeAllowed (s : State) (src : Src) (op : Nat) : Bool :=
  let admin := isAdmin src
  let auth := s.hasAuthority src
  if s.stores.life == .retired then admin && (op == 0x01 || op == 0x04)
  else if authorityOp op then auth
  else if (s.plotOf src).isNone then admin && (op == 0x01 || op == 0x02 || op == 0x04)
  else !adminOp op || admin

/-- Check 7: reserved header bits, CONT, and the fields an opcode does not use (R17, R263). -/
def headerBad (b : List Byte) (h : Hdr) (ps : List Byte) : Bad :=
  badIf (decide (4 ≤ byteAt b 1) || (h.cont && !chainable h.opcode)) 1 ++
    badIf (h.stream != 0 && !namesStream h.opcode (byteAt ps 0)) 2 ++ badIf (decide (16 ≤ byteAt b 3)) 3 ++
    badIf (h.handle != 0 && !namesHandle h.opcode ps) 28

/-- The chain rules of R263 for a later packet. -/
def chainBad (ch : Chain) (b : List Byte) (h : Hdr) : Bad :=
  badIf (h.opcode != ch.opcode) 0 ++ badIf (decide (4 ≤ byteAt b 1) || (h.cont && 65536 ≤ ch.count + 1)) 1 ++
    badIf (h.stream != ch.stream) 2 ++ badIf (decide (16 ≤ byteAt b 3)) 3 ++ badIf (h.tag != ch.tag) 16 ++
    badIf (h.plen != 0) 24 ++ badIf (h.handle != ch.handle) 28

/-- Check 8: the stream belongs to the queue's plot (R347). -/
def streamAllowed (s : State) (src : Src) (st : Nat) : Bool :=
  match (s.plotOf src).bind (mget s.plots) with
  | some p => decide (p.streamFirst ≤ st) && decide (st < p.streamFirst + p.streamCount)
  | none => false

/-! ## Check 9: the parameters alone -/

/-- Reserved parameter bytes: the packet offset of the first nonzero one (R17, R284). -/
def resv (ps : List Byte) (off n : Nat) : Bad := (resvIn ps off n).map (32 + ·)

/-- The creating form of TENSOR_PUT (R222, R236, R292). -/
def putBad (ps : List Byte) : Bad :=
  let a := byteAt ps 0
  let fmt := byteAt ps 1
  let grp := bitOf a 3
  let mx := bitOf a 4
  let c := [fieldAt ps 8 4, fieldAt ps 12 4, fieldAt ps 16 4, fieldAt ps 20 4]
  let sh := shapeOf a fmt (byteAt ps 2) (fieldAt ps 4 2) c
  let fmtBad := fmt == 8 || 15 ≤ fmt
  badIf (64 ≤ a || (grp && !(0xA ≤ fmt && fmt ≤ 0xD)) || (mx && !(3 ≤ fmt && fmt ≤ 7)) || (grp && mx) ||
      (bitOf a 0 && bitOf a 1) || (bitOf a 0 && bitOf a 2) || (5 ≤ fmt && fmt ≤ 7 && !mx)) 32 ++ badIf fmtBad 33 ++
    badIf (if grp then !(5 ≤ byteAt ps 2 && byteAt ps 2 ≤ 7) else byteAt ps 2 != 0) 34 ++ badIf (byteAt ps 3 != 0) 35 ++
    badIf (if fmt = 0xE then 1024 ≤ fieldAt ps 4 2 else fieldAt ps 4 2 != 0) 36 ++ resv ps 6 2 ++
    badIf (!fmtBad && !bitOf a 2 && fieldAt ps 24 8 != sh.size) 56 ++ badIf (fieldAt ps 32 8 != 0) 64 ++
    badIf (fieldAt ps 40 8 != 0) 72 ++ resv ps 48 16

/-- The WRITE form of TENSOR_PUT (R292). -/
def putWriteBad (ps : List Byte) : Bad :=
  badIf (byteAt ps 0 != 0x20) 32 ++ badIf (byteAt ps 1 != 0) 33 ++ badIf (byteAt ps 2 != 0) 34 ++ badIf (byteAt ps 3 != 0) 35 ++
    badIf (fieldAt ps 4 2 != 0) 36 ++ resv ps 6 2 ++ badIf (fieldAt ps 8 4 != 0) 40 ++ badIf (fieldAt ps 12 4 != 0) 44 ++
    badIf (fieldAt ps 16 4 != 0) 48 ++ badIf (fieldAt ps 20 4 != 0) 52 ++ badIf (fieldAt ps 24 8 != 0) 56 ++ resv ps 48 16

/-- A ring size of Table 1 of R252. -/
def ringSizeOk (n : Nat) : Bool := (List.range 11).any fun k => n == 65536 * 2 ^ k

/-- The windows of a queue obey Table 1 of R252 and end below 2^64. -/
def windowsBad (sqBase sqSize cqBase cqSize shadow : Nat) : Bool × Bool × Bool × Bool × Bool :=
  (sqBase % 4096 != 0 || 2 ^ 64 < sqBase + sqSize, !ringSizeOk sqSize, cqBase % 4096 != 0 || 2 ^ 64 < cqBase + cqSize,
    !ringSizeOk cqSize, shadow % 64 != 0 || 2 ^ 64 < shadow + 64)

/-- QUEUE_CREATE's fields (R252, R281, R316). -/
def queueCreateBad (s : State) (f : FuncId) (ps : List Byte) : Bad :=
  let q := fieldAt ps 0 2
  let w := windowsBad (fieldAt ps 8 8) (fieldAt ps 16 4) (fieldAt ps 24 8) (fieldAt ps 20 4) (fieldAt ps 32 8)
  badIf (q == 0 || s.allot f ≤ q || (mget (s.fn f).queues q).isSome) 32 ++ badIf (4 ≤ byteAt ps 2) 34 ++
    badIf (vecLimit f ≤ byteAt ps 3) 35 ++ resv ps 5 1 ++ badIf w.1 40 ++ badIf w.2.1 48 ++ badIf w.2.2.2.1 52 ++
    badIf w.2.2.1 56 ++ badIf w.2.2.2.2 64 ++ resv ps 48 16

/-- The descriptors and the section of a direct operation (R134, R142, R171, R200, R312 to R314, R504): offsets in the packet.
`wsh` and `tsh` are the shapes of the weight and of the gathered tensor, once their handles have been looked up. -/
def directBad (op : Nat) (ps : List Byte) (wsh tsh : Option Shape) : Bad :=
  let t := dirTable ps
  let sec := dirSection ps
  let dOff (i : Nat) : Nat := 48 + dirOplen ps + 48 * i
  let listed : Bad := (t.zipIdx).flatMap fun d => (descBad d.1).map (dOff d.2 + ·)
  let sfum := bitOf (byteAt ps 1) 1
  let wfu := op == 0x40 && fieldAt sec 2 2 == 0xFFFF
  let staged (a n : Nat) : Bool := decide (a < 40 * 524288) && decide (38 * 524288 < a + n) && decide (0 < n)
  let foot := dirFootprint t
  let ok (a n : Nat) : Bool := bytesIn foot a n && !(wfu && staged a n)
  let bank := if wfu then (t.zipIdx).flatMap fun d =>
      if descBad d.1 = [] then badIf (!(descOf d.1).within ok) (dOff d.2) else []
    else []
  listed ++ match op with
  | 0x40 => matmulBad t wsh 48 dOff ok sec ++ bank
  | 0x41 => ((chunks 16 256 sec).zipIdx).flatMap fun r => recordBad t sfum (fun _ => true) (48 + 16 * r.2) dOff r.1
  | 0x42 => scanBad t 48 dOff sec
  | 0x43 => selectBad t 48 dOff sec
  | 0x44 => gatherBad t tsh false 28 48 dOff sec
  | 0x45 => recordBad t sfum Vop.isConvert 48 dOff sec
  | _ => rmsBad t 48 dOff sec

/-- The header of a direct operation's parameters (R312). -/
def directHeadBad (p : Plot) (ps : List Byte) : Bad :=
  let inpl := bitOf (byteAt ps 1) 0
  badIf (if inpl then !(byteAt ps 0 < 6 && bitOf p.engmask (byteAt ps 0)) else byteAt ps 0 != 0) 32 ++
    badIf (4 ≤ byteAt ps 1) 33 ++ badIf (64 < dirNdesc ps) 34 ++
    badIf (16 < dirNbind ps) 36 ++ resv ps 6 2 ++ resv ps 12 4

/-- One binding of a direct operation, but for its ranges; an in-place operation has none (R313, R504). -/
def bindBad (ps : List Byte) (b : List Byte) (i : Nat) : Bad :=
  let o := 32 + dirBindOff ps + 16 * i
  let dir := byteAt b 2
  let kind := byteAt b 3
  let dd := tabAt (dirTable ps) (fieldAt b 0 2)
  let zero : Bad := match dd with
    | some d => if dir = 0 then (strideZeroBad (descOf d)).map (48 + dirOplen ps + 48 * fieldAt b 0 2 + ·) else []
    | none => []
  badIf (dd.isNone || bitOf (byteAt ps 1) 0) o ++ badIf (1 < dir) (o + 2) ++ badIf (1 < kind) (o + 3) ++
  badIf (kind == 0 && fieldAt b 4 4 != 0) (o + 4) ++
    badIf (kind == 0 && dir == 1 && fieldAt b 8 8 != 0) (o + 8) ++ zero

/-- Offending parameters of an opcode, as packet offsets (R288 to R319). -/
def paramBad (s : State) (c : Cmd) : Bad :=
  let ps := c.params
  match c.opcode with
  | 0x02 => badIf (1 < byteAt ps 0) 32 ++ resv ps 1 15
  | 0x03 => resv ps 2 6
  | 0x04 => badIf (4 < byteAt ps 0) 32 ++ resv ps 1 1 ++ (if byteAt ps 0 = 4 then [] else badIf (fieldAt ps 2 2 != 0) 34) ++
      resv ps 4 12
  | 0x10 => if bitOf (byteAt ps 0) 5 then putWriteBad ps else putBad ps
  | 0x13 => badIf (1 < byteAt ps 0) 32 ++ resv ps 2 2 ++ resv ps 8 8
  | 0x14 => badIf (1 < byteAt ps 0) 32 ++ badIf (1 < byteAt ps 1) 33 ++
      badIf (byteAt ps 0 == 0 && 1024 ≤ fieldAt ps 2 2) 34 ++
      badIf (byteAt ps 0 == 0 && 16 < fieldAt ps 4 2 + fieldAt ps 6 2) 36 ++ resv ps 8 8
  | 0x15 => badIf (1 < byteAt ps 0) 32 ++ resv ps 1 1 ++ badIf (byteAt ps 0 == 0 && 1024 ≤ fieldAt ps 2 2) 34 ++ resv ps 4 12
  | 0x20 => badIf (1024 < fieldAt ps 8 2) 40 ++ resv ps 10 6 ++
      resv ps (16 + 2 * fieldAt ps 8 2) (16 * ceilDiv (fieldAt ps 8 2) 8 - 2 * fieldAt ps 8 2)
  | 0x22 => resv ps 4 12
  | 0x30 =>
    let rn := bitOf (byteAt ps 3) 0
    badIf (!chunkLenOk (fieldAt ps 0 2)) 32 ++ badIf (!(byteAt ps 2 == 1 || byteAt ps 2 == 2)) 34 ++
      badIf (8 ≤ byteAt ps 3) 35 ++ badIf (if rn then byteAt ps 4 != 2 else 2 < byteAt ps 4) 36 ++
      badIf (if rn then !(1 ≤ byteAt ps 5 && byteAt ps 5 ≤ 64) else byteAt ps 5 != 0) 37 ++ resv ps 6 10
  | 0x31 => resv ps 4 12
  | 0x34 => badIf (1 < byteAt ps 0) 32 ++ resv ps 1 15
  | 0x35 => badIf (1 < byteAt ps 0) 32 ++ resv ps 1 15
  | 0x37 => resv ps 4 12
  | 0x50 => badIf (63 < byteAt ps 0 || 64 < byteAt ps 0 + byteAt ps 1) 32 ++ resv ps 2 14 ++
      (if byteAt ps 1 % 2 = 1 then resv ps (16 + 8 * byteAt ps 1) 8 else [])
  | 0x60 => match c.src with
    | .ring f _ => queueCreateBad s f ps
    | .bmc => [32]
  | 0x61 => badIf (fieldAt ps 0 2 == 0) 32 ++ resv ps 2 14
  | 0x62 => badIf (fieldAt ps 0 2 == 0) 32 ++ resv ps 2 14
  | 0x63 => resv ps 8 8
  | 0x70 => badIf (5 < byteAt ps 0) 32 ++ badIf (64 ≤ byteAt ps 1) 33 ++ badIf (768 < fieldAt ps 2 2) 34 ++
      badIf (fieldAt ps 4 4 == 0 || 73216 < fieldAt ps 4 4) 36 ++ badIf (64 < byteAt ps 16) 48 ++ resv ps 14 2 ++
      resv ps 17 15 ++ (List.range (byteAt ps 16)).flatMap fun i => resv ps (33 + 16 * i) 1 ++ resv ps (38 + 16 * i) 10
  | 0x71 => badIf (5 < byteAt ps 0) 32 ++ resv ps 1 15
  | _ => []

/-! ## Check 9: handles, payload lengths and resources -/

/-- What check 9 comes to. -/
abbrev Chk (α : Type) := Except Reply α

def chkBad (b : Bad) : Chk Unit :=
  match minOff b with
  | some o => .error (Reply.badParam o)
  | none => .ok ()

def chk (ok : Bool) (r : Reply) : Chk Unit := if ok then .ok () else .error r

/-- A handle that must name a tensor (R221, R225). -/
def needTensor (p : Plot) (h off : Nat) : Chk Tensor :=
  if badHandle h || (mget p.plans h).isSome then .error (Reply.badParam off)
  else match mget p.tensors h with
    | some t => .ok t
    | none => .error (Reply.absent h)

/-- A tensor homed in scratchpad (Table 4 of R225). -/
def notMoved (h : Nat) (t : Tensor) : Chk Unit :=
  match t.home with
  | some (e, a) => .error (Reply.moved h e a)
  | none => .ok ()

/-- A handle that must name a loaded plan (R221, R225). -/
def needPlan (p : Plot) (h off : Nat) : Chk Plan :=
  if badHandle h || (mget p.tensors h).isSome then .error (Reply.badParam off)
  else match mget p.plans h with
    | some q => .ok q
    | none => .error (Reply.absent h)

/-- Pages for an accepted command: eviction and the command's hold (R219, R227, R353). -/
def takePages (s : State) (plot n : Nat) : Chk State :=
  match mget s.plots plot with
  | none => .ok s
  | some p =>
    match allocate s plot p n with
    | .ok hs => .ok (evict s plot hs)
    | .scrubbing => .error (Reply.bare .pagesScrubbing)
    | .noSpace => .error (Reply.noSpace 1)

/-- Declared tensors or weights that a run of the plan needs and that are absent, first in plan order (R225). -/
def absentDecl (p : Plot) (q : Plan) : Option Nat :=
  ((declsOf q.img).find? fun d => (mget p.tensors d.handle).isNone &&
    !(d.role == 0 && d.layer != 0xFFFF && isTransient q d.layer)).map (·.handle)

/-- A declared tensor that is homed in scratchpad. -/
def movedDecl (p : Plot) (q : Plan) : Option (Nat × Nat × Nat) :=
  (declsOf q.img).findSome? fun d => match (mget p.tensors d.handle).bind (·.home) with
    | some (e, a) => some (d.handle, e, a)
    | none => none

/-- The plan can run: its declarations are present and homed in HBM (R225). DESIGN CHOICE (log entry 96): an absent tensor is
reported before a moved one, whichever the plan declares first. -/
def chkPlanReady (p : Plot) (q : Plan) : Chk Unit :=
  match absentDecl p q, movedDecl p q with
  | some h, _ => .error (Reply.absent h)
  | none, some (h, e, a) => .error (Reply.moved h e a)
  | none, none => .ok ()

/-- Bytes of the bindings of KIND 0 of one pass, each padded to 16 (R304). -/
def kindBytes (img : List Byte) (dir : Nat) : Nat :=
  ((List.range (planParts img)).map fun i =>
    let pt := partAt img i
    (((pt.bindings img).filter fun b => byteAt b 2 == dir && byteAt b 3 == 0).map fun b =>
      roundUp (((tabAt (pt.descs img) (fieldAt b 0 2)).map fun d => (descOf d).streamBytes).getD 0) 16).sum).sum

/-- The TRANSIENT images of one pass or chunk step are well-formed as far as step 2 of R33 looks (Table 6 of R249). -/
def transientOk (q : Plan) (bs : List Byte) : Bool :=
  ((transientLayers q).foldl (fun (st : Nat × Bool) x =>
    let d := declAt q.img (layerAt q.img x.1).wdecl
    (st.1 + x.2, st.2 && (!d.compressed || wShapeOk (slice bs st.1 x.2)))) (0, true)).2

/-- Bytes of the reply payload that the KIND 0 OUT bindings of a direct operation give (R313). -/
def directOut (ps : List Byte) : Nat :=
  ((dirBinds ps).filter fun b => byteAt b 2 == 1 && byteAt b 3 == 0).foldl (fun n b =>
    n + roundUp (((tabAt (dirTable ps) (fieldAt b 0 2)).map fun d => (descOf d).streamBytes).getD 0) 16) 0

/-- Bytes of the block and payload of the largest reply of a command (R264, R270). -/
def replyNeed (s : State) (c : Cmd) : Nat :=
  let ps := c.params
  let pl := (c.plot.bind (mget s.plots)).bind fun p => (mget p.plans c.handle).map fun q => (p, q)
  let body := match c.opcode with
    | 0x04 => 64
    | 0x11 => roundUp (fieldAt ps 8 8) 16
    | 0x20 => 16 + 16 * ceilDiv (planLayers c.payload) 2
    | 0x22 => 16 + (match pl with
      | some (_, q) => fieldAt ps 0 4 * kindBytes q.img 1
      | none => 0)
    | 0x31 => 32 + (match pl with
      | some (_, q) => roundUp (((scanLen q.img).getD 1 - 1 + fieldAt ps 0 4) * planY q.img) 16
      | none => 0)
    | 0x32 => 32 + (match pl with
      | some (_, q) => roundUp ((scanLen q.img).getD 1 * planY q.img) 16
      | none => 0)
    | 0x37 => 32
    | op => if isDirect op then 32 + directOut ps else 16
  64 + body

/-- R264: the reply fits one packet of the completion ring; the offset is that of the length field. -/
def chkReply (s : State) (c : Cmd) (limit off : Nat) : Chk Unit :=
  chk (replyNeed s c ≤ limit) (Reply.at .badLength off)

/-- The tensors that a direct operation's bindings write (R223, R313). -/
def outHandles (ps : List Byte) : List Nat :=
  (((dirBinds ps).filter fun b => byteAt b 2 == 1 && byteAt b 3 == 1).map fun b => fieldAt b 4 4).eraseDups

/-- A direct operation with no destination element (Table 1 of R286). -/
def directNoop (op : Nat) (ps : List Byte) : Bool :=
  let sec := dirSection ps
  let f (o : Nat) : Nat := fieldAt sec o 2
  let ds := match op with
    | 0x40 => [f 4]
    | 0x41 => (chunks 16 256 sec).map fun r => fieldAt r 4 2
    | 0x42 => [f 16]
    | 0x43 => [f 8]
    | 0x44 => [f 4]
    | 0x45 => [f 4]
    | _ => [f 2]
  ds.all fun i => ((tabAt (dirTable ps) i).map fun b => (descOf b).numel == 0).getD true

/-- Bytes of a binding's packed stream (R313). -/
def bindLen (ps b : List Byte) : Nat := ((tabAt (dirTable ps) (fieldAt b 0 2)).map fun d => (descOf d).streamBytes).getD 0

/-- IN bindings of KIND 0 whose range reaches beyond the payload (R313). -/
def bindShort (c : Cmd) : Bad :=
  ((dirBinds c.params).zipIdx).flatMap fun q =>
    badIf (byteAt q.1 3 == 0 && byteAt q.1 2 == 0 && c.payload.length < fieldAt q.1 8 8 + bindLen c.params q.1)
      (32 + dirBindOff c.params + 16 * q.2 + 8)

/-- The tensors of the bindings of a direct operation, and the ranges in them (R313). -/
def chkBinds (p : Plot) (c : Cmd) : List (List Byte × Nat) → Chk Unit
  | [] => .ok ()
  | (b, i) :: rest => do
    let o := 32 + dirBindOff c.params + 16 * i
    if byteAt b 3 = 1 then do
      let t ← needTensor p (fieldAt b 4 4) (o + 4)
      notMoved (fieldAt b 4 4) t
      chk (!t.compressed && (byteAt b 2 == 0 || t.movable)) (Reply.badParam (o + 4))
      chk (fieldAt b 8 8 + bindLen c.params b ≤ t.img.length) (Reply.badParam (o + 8))
    chkBinds p c rest

/-- A reserved weight is declared COMPRESSED (R230, R236). -/
def reservedCompressed (s : State) (plot : Nat) (p : Plot) (h : Nat) : Bool :=
  let imgs := (p.plans.filter fun q => (mget q.2.reserved h).isSome).map (·.2.img) ++
    (s.cmds.filter fun c => c.plot == some plot && (mget c.reserved h).isSome).map (·.payload)
  imgs.any fun i => (declsOf i).any fun d => d.handle == h && d.role == 0 && d.compressed

/-- TENSOR_PUT that creates a tensor (R221, R230, R236, R249, R292, R294): a form that creates nothing makes every check
(R286). -/
def chkPut (s : State) (plot : Nat) (p : Plot) (c : Cmd) : Chk (State × Cmd) := do
  let ps := c.params
  let a := byteAt ps 0
  let sh := shapeOf a (byteAt ps 1) (byteAt ps 2) (fieldAt ps 4 2) [fieldAt ps 8 4, fieldAt ps 12 4, fieldAt ps 16 4, fieldAt ps 20 4]
  let size := fieldAt ps 24 8
  chk (!badHandle c.handle && !handleInUse { s with cmds := s.cmds.filter fun d => !(d.acc == c.acc) } plot p c.handle) (Reply.badParam 28)
  chk (c.payload.length == size) (Reply.at .badLength 56)
  if bitOf a 2 then do
    chk (c.payload.length < 64 || wSsize c.payload == size) (Reply.at .badLength 56)
    chk (wHeaderOk c.payload && wDsize c.payload == sh.size) (Reply.badParam noField)
    chk (wDecode c.payload).isSome (Reply.badParam noField)
  let others := { s with cmds := s.cmds.filter fun d => !(d.acc == c.acc) }
  let none' := sh.rows * sh.count 0 = 0
  match reservedAt s plot p c.handle with
  | some r => do
    chk (!bitOf a 0) (Reply.badParam 32)
    chk (bitOf a 2 == reservedCompressed s plot p c.handle) (Reply.badParam 32)
    chk (r.2 == size) (Reply.badParam 56)
    if none' then return (s, c)
    chk (tensorCount others plot p < 16384) (Reply.noSpace 2)
    return (s, c)
  | none => do
    if none' then return (s, c)
    chk (tensorCount others plot p < 16384) (Reply.noSpace 2)
    let t ← takePages s plot (pagesFor size)
    return (t, { c with pages := pagesFor size })

/-- TENSOR_PUT with WRITE (R223, R225, R292). -/
def chkPutWrite (s : State) (plot : Nat) (p : Plot) (c : Cmd) : Chk (State × Cmd) := do
  let t ← needTensor p c.handle 28
  notMoved c.handle t
  chk t.movable (Reply.badParam 28)
  chk (fieldAt c.params 32 8 + fieldAt c.params 40 8 ≤ t.img.length) (Reply.badParam 64)
  chk (c.payload.length == fieldAt c.params 40 8) (Reply.at .badLength 72)
  if fieldAt c.params 40 8 = 0 then return (s, c)
  let u ← takePages s plot t.pages
  return (u, { c with pages := t.pages })

/-- TENSOR_MOVE (R222, R225, R236, R296); a move back needs no page (R224). -/
def chkMove (s : State) (plot : Nat) (p : Plot) (c : Cmd) : Chk (State × Cmd) := do
  let ps := c.params
  let t ← needTensor p c.handle 28
  let e := byteAt ps 1
  let a := fieldAt ps 4 4
  let store := byteAt ps 0 == 1
  let fromHome := store && t.home == some (e, a)
  if !fromHome then notMoved c.handle t
  chkBad (badIf t.compressed 28 ++ badIf (store && !t.movable) 32 ++ badIf (!(e < 6 && bitOf p.engmask e)) 33 ++
    badIf (a % 16 != 0 || spadSize < a + t.img.length) 36)
  if store && !fromHome then do
    let u ← takePages s plot t.pages
    return (u, { c with pages := t.pages })
  else return (s, c)

/-- TABLE_WRITE and DESC_INVALIDATE: the table exists (R233, R234, R297). -/
def chkTable (p : Plot) (c : Cmd) : Chk Unit := do
  let ps := c.params
  if byteAt ps 0 = 1 then do
    let q ← needPlan p c.handle 28
    let part := fieldAt ps 2 2
    chk (part < planParts q.img) (Reply.badParam 34)
    if c.opcode = 0x14 then
      chk (fieldAt ps 4 2 + fieldAt ps 6 2 ≤ (partAt q.img part).ndesc) (Reply.badParam 36)

/-- The entries of a TABLE_WRITE payload: 2 or 48 bytes each (R297). -/
def entrySize (c : Cmd) : Nat := if byteAt c.params 0 = 1 then 48 else 2

/-- TABLE_WRITE's payload and new descriptors (R134, R200, R233, R297). A field of the payload of a chain lies in no one
packet. -/
def chkTableWrite (p : Plot) (c : Cmd) : Chk Unit := do
  let ps := c.params
  let n := fieldAt ps 6 2
  chk (c.payload.length == roundUp (n * entrySize c) 16) (Reply.at .badLength 38)
  let place (o : Nat) : Nat := if c.seqs.length = 1 then 48 + o else noField
  chkBad ((resvIn c.payload (n * entrySize c) (c.payload.length - n * entrySize c)).map place)
  match mget p.plans c.handle with
  | some q =>
    if byteAt ps 0 = 1 then
      let pt := partAt q.img (fieldAt ps 2 2)
      chkBad ((List.range n).flatMap fun i =>
        let d := slice c.payload (48 * i) 48
        let bad := descBad d
        (if bad = [] then badIf (!(descOf d).within (bytesIn (pt.foot q.img))) 0 else bad).map fun o => place (48 * i + o))
  | none => .ok ()

/-- One declaration against the plot: handles in use, kinds of tensor and stored sizes (R221, R222, R230, R300). -/
def declBad (s : State) (plot : Nat) (p : Plot) (own : Nat) (ds : List Decl) (d : Decl) : Bad :=
  badIf ((mget p.plans d.handle).isSome || d.handle == own || (d.role == 1 && (handleInUse s plot p d.handle ||
      (reservedAt s plot p d.handle).isSome || 1 < (ds.filter fun e => e.handle == d.handle).length))) 0 ++
    match mget p.tensors d.handle with
    | some t => if d.role = 1 then [] else
        badIf (t.movable != (d.role != 0)) 0 ++ badIf (t.compressed != d.compressed) 5 ++ badIf (t.img.length != d.ssize) 8
    | none => []

/-- Pages reserved for absent weights, by handle, with their stored sizes (R230). -/
def reserveFor (ds : List Decl) : Map (Nat × Nat) := ds.foldl (fun m d => mput m d.handle (pagesFor d.ssize, d.ssize)) []

/-- PLAN_LOAD (R221, R222, R229, R230, R299, R300). -/
def chkPlanLoad (s : State) (plot : Nat) (p : Plot) (c : Cmd) : Chk (State × Cmd) := do
  let img := c.payload
  let extra := (List.range (fieldAt c.params 8 2)).map fun i => fieldAt c.params (16 + 2 * i) 2
  let base := if c.seqs.length = 1 then some (32 + plenOf 0x20 c.params) else none
  let others := { s with cmds := s.cmds.filter fun d => !(d.acc == c.acc) }
  chk (!badHandle c.handle && !handleInUse others plot p c.handle && (reservedAt others plot p c.handle).isNone) (Reply.badParam 28)
  chk (img.length == fieldAt c.params 0 8) (Reply.at .badLength 32)
  let place (o : Nat) : Nat := (base.map (· + o)).getD noField
  chk (64 ≤ img.length) (Reply.badParam noField)
  chk (fieldAt img 0 4 == 0x4E414C50) (Reply.badParam (place 0))
  chk (fieldAt img 4 2 == 1) (Reply.bare .versionMismatch)
  chkBad ((extra.zipIdx).flatMap fun x => badIf (planLayers img ≤ x.1 || (extra.take x.2).contains x.1) (48 + 2 * x.2))
  let ds := declsOf img
  let bad := planBad p img extra (maskList p.engmask).length
  let named := if bad.any (· < 64) then [] else (ds.zipIdx).flatMap fun d =>
    (declBad others plot p c.handle ds d.1).map (fieldAt img 24 8 + 32 * d.2 + ·)
  chkBad ((bad ++ named).map place)
  chk (planCount others plot p < 64) (Reply.noSpace 3)
  chk (tensorCount others plot p + (ds.filter fun d => d.role == 1).length ≤ 16384) (Reply.noSpace 2)
  let need := planNeed p img extra
  let gain := ((candidates s plot p).map fun x => x.2.pages).sum
  let avail := p.quota + gain - pagesHeld s plot p
  let cache := cacheNeeds p img
  let block := toLe 8 ((need - avail) * pageBytes) ++ toLe 8 (cache - 262144) ++
    (List.range (planLayers img)).flatMap fun i => toLe 8 (layerBytes img i)
  chk (need ≤ avail && cache ≤ 262144) (Reply.withBlock .planExceeds block)
  let t ← takePages s plot need
  return (t, { c with pages := need, reserved := reserveFor (absentWeights p img extra) })

/-! ## STREAM_IMPORT (R334) -/

/-- The plan fixes another L or SF (R503). -/
def planClash (q : Plan) (h : Head) (offL offSf : Nat) : Bad :=
  match (scanShapes q.img).head? with
  | some (l, f) => badIf (l != h.l) offL ++ badIf (f.code != h.sf) offSf
  | none => []

/-- The entries of SHAPECRC (Table 2 of R330). -/
def shapeBytes (plan : List Byte) : List Byte := (scanLayers plan).flatMap fun y => toLe 4 y.w ++ toLe 4 y.d ++ toLe 4 y.s

/-- Check 3 of R334: the kind of the plan and the blob tensor. -/
def blobTensorOk (t : Tensor) : Bool :=
  t.home.isNone && !t.movable && !t.compressed && t.fmt == 0xB && t.c1 == 1 && t.c2 == 1 && t.c3 == 1 &&
    decide (80 ≤ t.img.length)

/-- Check 3 of R334: the blob itself, which lies in no packet. -/
def blobShapeOk (t : Tensor) : Bool :=
  t.img.length == fieldAt t.img 24 8 + 80 && fieldAt t.img 0 4 == 0x31425453 &&
    byteAt t.img 7 == 0 && allZero (slice t.img 48 16)

/-- Check 4 of R334. -/
def blobVersionOk (q : Plan) (t : Tensor) : Bool :=
  fieldAt t.img 4 2 == 1 && byteAt t.img 6 == 1 && fieldAt t.img 32 4 == (scanLayers q.img).length &&
    fieldAt t.img 36 4 == planX q.img && fieldAt t.img 40 4 == planY q.img && fieldAt t.img 44 4 == crc32c (shapeBytes q.img)

/-- Checks 2 to 6 of R334, made at acceptance when the stream is CLOSED then, otherwise at its turn (log entry 21). -/
def importChecks (s : State) (n : Nat) (p : Plot) (c : Cmd) : Chk (State × Nat) := do
  let t ← needTensor p c.handle 28
  let q ← needPlan p (fieldAt c.params 0 4) 32
  chkBad (badIf (!blobTensorOk t) 28 ++ badIf (planKind q.img != 1) 32)
  chk (blobShapeOk t) (Reply.badParam noField)
  chk (blobVersionOk q t) (Reply.bare .versionMismatch)
  chk p.key.isSome (Reply.bare .authFail)
  let u ← takePages s n (pagesFor (fieldAt t.img 24 8))
  return (u, pagesFor (fieldAt t.img 24 8))

/-- Pending positions that a stream will have when the command begins, if every earlier command that names it succeeds (R111,
R116). -/
def pendingThen (s : State) (plot l : Nat) (c : Cmd) (pend : Nat) : Nat :=
  (s.cmds.filter fun d => d.plot == some plot && d.namesStream && d.stream == c.stream && decide (d.acc < c.acc)).foldl (fun n d =>
    match d.opcode with
    | 0x31 => (n + fieldAt d.params 0 4) % l
    | 0x32 => 0
    | 0x35 => 0
    | 0x36 => 0
    | _ => n) pend

/-- A flush will find nothing pending, and so needs no slot (R116). -/
def nothingPending (s : State) (plot : Nat) (p : Plot) (q : Plan) (c : Cmd) : Bool :=
  match mget p.streams c.stream with
  | some x => pendingThen s plot ((scanLen q.img).getD 1) c (headOf x.img).pend == 0
  | none => true

/-- Slots that a command asks for at its acceptance; a stream that is CLOSED then is asked for at the command's turn (R216, log
entry 16). -/
def askFor (s : State) (plot : Nat) (c : Cmd) (shadow image : Bool) : Chk (State × Cmd) :=
  match (mget s.plots plot).bind fun p => mget p.streams c.stream with
  | none => .ok (s, c)
  | some x =>
    let n := if shadow then x.slots else 0
    match askSlots s plot c.stream c.acc n image with
    | some t => .ok (t, { c with shadowSlots := n })
    | none => .error (Reply.noSpace 0)

/-- TENSOR_GET (R223, R225, R264, R293). -/
def chkGet (s : State) (p : Plot) (c : Cmd) (limit : Nat) : Chk Unit := do
  let ps := c.params
  let t ← needTensor p c.handle 28
  notMoved c.handle t
  chkBad (badIf (t.img.length < fieldAt ps 0 8) 32 ++ badIf (t.img.length < fieldAt ps 0 8 + fieldAt ps 8 8) 40)
  chk (fieldAt ps 8 8 ≤ 4194240) (Reply.at .badLength 40)
  chkReply s c limit 40

/-- TENSOR_FREE (R230, R295). -/
def chkFree (p : Plot) (c : Cmd) : Chk Unit := do
  let _ ← needTensor p c.handle 28
  chk (!planDeclares p c.handle) (Reply.badParam 28)

/-- Every IN binding of KIND 0 of a RUN plan reads inside the `n` bytes of a pass's payload (R302, R313). -/
def inRanges (img : List Byte) (n : Nat) : Bool :=
  (List.range (planParts img)).all fun i =>
    let pt := partAt img i
    (pt.bindings img).all fun b => byteAt b 2 != 0 || byteAt b 3 != 0 ||
      decide (fieldAt b 8 8 + ((tabAt (pt.descs img) (fieldAt b 0 2)).map fun d => (descOf d).streamBytes).getD 0 ≤ n)

/-- PLAN_RUN (R231, R264, R302, R313). -/
def chkPlanRun (s : State) (p : Plot) (c : Cmd) (limit : Nat) : Chk Unit := do
  let q ← needPlan p c.handle 28
  chk (planKind q.img == 0) (Reply.badParam 28)
  chkPlanReady p q
  let n := fieldAt c.params 0 4
  let one := kindBytes q.img 0 + transientBytes q
  chk (c.payload.length == n * one && (n == 0 || inRanges q.img one)) (Reply.at .badLength 32)
  chk ((List.range n).all fun i => transientOk q (c.payload.drop (i * one + kindBytes q.img 0))) (Reply.badParam noField)
  chkReply s c limit 32

/-- STREAM_OPEN: the plan, L and SF, and the pages of the image (R304, R503). -/
def chkOpen (s : State) (plot : Nat) (p : Plot) (c : Cmd) : Chk (State × Cmd) := do
  let ps := c.params
  let q ← needPlan p c.handle 28
  chk (planKind q.img == 1) (Reply.badParam 28)
  match (scanShapes q.img).head? with
  | some (l, f) => chkBad (badIf (l != fieldAt ps 0 2) 32 ++ badIf (f.code != byteAt ps 2) 34)
  | none => .ok ()
  let n := pagesFor (imageSize ⟨fieldAt ps 0 2, byteAt ps 2, bitOf (byteAt ps 3) 0, false, false, byteAt ps 4, byteAt ps 5, 0, 0, 0⟩ q.img)
  let t ← takePages s plot n
  return (t, { c with pages := n })

/-- STREAM_FEED and STREAM_FLUSH: the plan is ready, every whole set of TRANSIENT images in the payload is well-formed, and the
reply fits (R225, R249, R264). -/
def chkStep (s : State) (p : Plot) (c : Cmd) (limit off : Nat) : Chk Plan := do
  let q ← needPlan p c.handle 28
  chkPlanReady p q
  let trs := c.payload.drop (if c.opcode = 0x32 then 0 else fieldAt c.params 0 4 * planX q.img)
  let one := transientBytes q
  chk ((List.range (if one = 0 then 0 else trs.length / one)).all fun i => transientOk q (trs.drop (i * one))) (Reply.badParam noField)
  chkReply s c limit off
  return q

/-- STREAM_EXPORT: the new handle, the key and the pages of the blob (R329, R333). -/
def chkExport (s : State) (plot : Nat) (p : Plot) (c : Cmd) : Chk (State × Cmd) := do
  let others := { s with cmds := s.cmds.filter fun d => !(d.acc == c.acc) }
  chk (!badHandle c.handle && !handleInUse others plot p c.handle && (reservedAt others plot p c.handle).isNone) (Reply.badParam 28)
  chk p.key.isSome (Reply.bare .authFail)
  let n := match mget p.streams c.stream with
    | some x => pagesFor (x.img.length + 80)
    | none => 0
  chk (tensorCount others plot p < 16384) (Reply.noSpace 2)
  let t ← takePages s plot n
  return (t, { c with pages := n })

/-- A tensor that a direct operation reads whole: a weight or the source of a gather (R225, R313, R314). -/
def chkSource (p : Plot) (h off : Nat) (bad : Tensor → Bool) : Chk Shape := do
  let t ← needTensor p h off
  notMoved h t
  chk (!bad t) (Reply.badParam off)
  return t.shape

/-- The weight and the gathered tensor that a direct operation names, against its operands. -/
def chkSources (p : Plot) (c : Cmd) : Chk Unit := do
  let ps := c.params
  let sec := dirSection ps
  if c.opcode = 0x40 && fieldAt sec 2 2 = 0xFFFF then do
    let w ← chkSource p (fieldAt sec 12 4) 60 Tensor.movable
    chkBad (directBad c.opcode ps (some w) none)
  if c.opcode = 0x44 && fieldAt sec 0 2 = 0xFFFF then do
    let w ← chkSource p c.handle 28 Tensor.compressed
    chkBad (directBad c.opcode ps none (some w))

/-- A direct operation: its own fields, then its weight, source tensor and bindings, then the shadows of its outputs
(R219, R221, R269, R313, R314). -/
def chkDirect (s : State) (plot : Nat) (p : Plot) (c : Cmd) (limit : Nat) : Chk (State × Cmd) := do
  let ps := c.params
  chkBad (directBad c.opcode ps none none ++ ((dirBinds ps).zipIdx).flatMap fun b => bindBad ps b.1 b.2)
  match minOff (bindShort c) with
  | some o => .error (Reply.at .badLength o)
  | none => .ok ()
  chkSources p c
  chkBinds p c ((dirBinds ps).zipIdx)
  chkReply s c limit 4
  let n := ((outHandles ps).map fun h => ((mget p.tensors h).map Tensor.pages).getD 0).sum
  let t ← takePages s plot n
  return (t, { c with pages := n })

/-- A check that asks for nothing. -/
def Chk.only (s : State) (c : Cmd) (x : Chk Unit) : Chk (State × Cmd) := x.map fun _ => (s, c)

/-- The final checks of an opcode at the acceptance of its last packet. The command itself stands in `s.cmds`. -/
def finalCheck (s : State) (plot : Nat) (p : Plot) (c : Cmd) (limit : Nat) : Chk (State × Cmd) :=
  let ps := c.params
  match c.opcode with
  | 0x04 => Chk.only s c (if byteAt ps 0 = 3 then (needTensor p c.handle 28).map fun _ => () else .ok ())
  | 0x10 => if bitOf (byteAt ps 0) 5 then chkPutWrite s plot p c else chkPut s plot p c
  | 0x11 => Chk.only s c (chkGet s p c limit)
  | 0x12 => Chk.only s c (chkFree p c)
  | 0x13 => chkMove s plot p c
  | 0x14 => Chk.only s c (do
    chkTable p c
    chkTableWrite p c)
  | 0x15 => Chk.only s c (chkTable p c)
  | 0x20 => chkPlanLoad s plot p c
  | 0x21 => Chk.only s c ((needPlan p c.handle 28).map fun _ => ())
  | 0x22 => Chk.only s c (chkPlanRun s p c limit)
  | 0x30 => chkOpen s plot p c
  | 0x31 => do
    let _ ← chkStep s p c limit 32
    if fieldAt ps 0 4 = 0 then return (s, c) else askFor s plot c true true
  | 0x32 => do
    let q ← chkStep s p c limit 4
    if nothingPending s plot p q c then return (s, c) else askFor s plot c true true
  | 0x34 => if byteAt ps 0 = 1 && ((mget p.streams c.stream).map (·.paused)).getD false then askFor s plot c false true
    else .ok (s, c)
  | 0x36 => chkExport s plot p c
  | 0x37 =>
    if (mget p.streams c.stream).isSome then .ok (s, c)
    else do
      let r ← importChecks s plot p c
      return (r.1, { c with pages := r.2 })
  | op => if isDirect op then chkDirect s plot p c limit else .ok (s, c)

/-- The checks that the first packet's parameters allow: PLEN, parameter values, and what R342 excludes (R269, R284). -/
def firstCheck (s : State) (c : Cmd) (plen : Nat) : Chk Unit := do
  let ps := c.params
  chk (plen == plenOf c.opcode ps) (Reply.at .badLength 24)
  if isDirect c.opcode then
    chk (oplenOk c.opcode (dirOplen ps)) (Reply.at .badLength 40)
  chkBad (paramBad s c)
  if c.plot.isNone then do
    chk (!(c.opcode == 0x02 && byteAt ps 0 == 1)) (Reply.at .notPermitted 32)
    chk (!(c.opcode == 0x04 && (byteAt ps 0 == 1 || byteAt ps 0 == 2 || byteAt ps 0 == 3))) (Reply.at .notPermitted 32)
  match c.plot.bind (mget s.plots) with
  | some p => if isDirect c.opcode then chkBad (directHeadBad p ps)
  | none => .ok ()

end Sys2Proof.Machine
end

