-- ==== Sys2Proof/Machine/Packet.lean ====
section
/-!
DEFINITION. Packets on their way in: ring reads and ring faults, duplicates, refusals, acceptance and chains, the
decision of an ABORT, and coalesced interrupts (R253, R262 to R276, R282, R290, file 12).
-/

namespace Sys2Proof.Machine

/-! ## Ring faults (R253, R275) -/

/-- A reply slot that answers a packet. -/
def slotFor (h : Hdr) (kind : SlotKind) (acc space : Nat) (named ordering untrusted chainPart : Bool) : Slot :=
  { kind := kind, seq := h.seq, tag := h.tag, stream := h.stream, handle := h.handle, irq := h.irq, untrusted := untrusted,
    chainPart := chainPart, ordering := ordering, named := named, target := none, acc := acc, space := space,
    withHalt := false, staged := false, reply := none }

/-- A refusal's slot, answered at once (R268, R275). -/
def refusalSlot (h : Hdr) (untrusted halt : Bool) (r : Reply) : Slot :=
  { slotFor h .refusal 0 0 false false untrusted false with withHalt := halt, reply := some r }

/-- The accepted packets of an open chain end with a status that breaks the chain (R265). -/
def breakChain (s : State) (src : Src) (r : Reply) : State :=
  match s.queue src with
  | none => s
  | some x =>
    match x.chain with
    | none => s
    | some ch =>
      let t := match s.cmds.find? fun d => d.acc == ch.acc with
        | some c => finish s c r true
        | none => s
      t.modQueue src fun y => { y with chain := none }

/-- RING_FAULT (R275): the queue halts in either mode, packets up to the latched tail are discarded, and the refusal's
reply, the shadow and the interrupt follow. -/
def ringFault (s : State) (src : Src) (h : Hdr) (untrusted : Bool) (r : Reply) : State :=
  let t := breakChain s src r
  let u := t.modQueue src fun x =>
    { x with qstate := .halted, byRing := true, haltSeq := x.e, sqHead := x.sqTail, staged := none,
             slots := x.slots ++ [refusalSlot h untrusted true r] }
  touchShadow (drain u src) src

/-- The RING_FAULT record of R376. -/
def ringRecord (s : State) (src : Src) : State :=
  let (q, f) := match src with
    | .ring f q => (q, funcField f)
    | .bmc => (0xFFFF, 0xFFFF)
  addRecord s (s.plotOf src) ⟨0x000E, 0, 0x17, 0, 0, 2 ^ 64 - 1, q, f, 0⟩

/-- QUEUE_BROKEN (R253, R265, R275): an open chain ends with the ring fault's status; one last shadow write, unless the
shadow's own check failed, and the error vector. -/
def breakQueue (s : State) (f : FuncId) (q : Nat) (shadowFailed : Bool) : State :=
  let t := (breakChain s (.ring f q) (Reply.bare .controlFault)).modQueue (.ring f q) fun x =>
    { x with qstate := .broken, staged := none, mute := shadowFailed, shown := if shadowFailed then .broken else x.shown }
  let u := if shadowFailed then signalQueue t f q else writeShadow t f q
  signalErr (ringRecord u (.ring f q)) f

/-! ## Checks 1 to 3 of Table 5 -/

/-- The sequence number lies in the window and has an entry (R267). -/
def inWindow (x : Queue) (seq : Nat) : Option WinEntry :=
  let d := (x.e + 2 ^ 64 - seq) % 2 ^ 64
  if 1 ≤ d ∧ d ≤ 4096 then mget x.window seq else none

/-- Check 3 on a packet whose length and CRC are right: staged, a duplicate, or refused (R267, R268, R273). -/
def sequenceCheck (s : State) (src : Src) (x : Queue) (bs : List Byte) : State :=
  let h := hdrOf bs
  if h.seq = x.e then s.setQueue src { x with staged := some bs }
  else match inWindow x h.seq with
    | some w =>
      if w.crc = crcField bs h.tlen then
        s.setQueue src { x with slots := x.slots ++ [slotFor h .duplicate w.acc 0 false false false false] }
      else staleAt h 1
    | none => staleAt h 0
where
  staleAt (h : Hdr) (d : Nat) : State :=
    let r : Reply := ⟨.staleSequence, 0, d, x.e, [], []⟩
    let sl := refusalSlot h false (!x.unordered) r
    let y := { x with slots := x.slots ++ [sl] }
    if x.unordered then drain (s.setQueue src y) src
    else drain (s.setQueue src { y with qstate := .halted, byRing := true, haltSeq := x.e }) src

/-- A whole packet inside the device: check 2, SQ_HEAD, then check 3 (R262, R269). -/
def takePacket (s : State) (src : Src) (x : Queue) (bs : List Byte) : State :=
  let h := hdrOf bs
  let crc := (crc32c (bs.take (h.tlen - 4)))
  if leNat (toLe 4 crc) != crcField bs h.tlen then
    ringFault s src h true ⟨.badCrc, 0, crc, x.e, [], []⟩
  else
    let y := { x with sqHead := (x.sqHead + h.tlen / 16) % 2 ^ 32 }
    let t := sequenceCheck (s.setQueue src y) src y bs
    touchShadow t src

/-! ## PACKET_FETCH -/

/-- A reply that the Gatehouse writes before it fetches again: a refusal's, or a duplicate's, but for a copy of a packet of the open
chain, whose reply follows the chain's later packets (R267, R270, Table 5 of R269; log entry 86). -/
def holdsFetch (x : Queue) (sl : Slot) : Bool :=
  sl.kind == .refusal || (sl.kind == .duplicate && !(x.chain.any fun ch => ch.acc == sl.acc))

/-- The Gatehouse may fetch from the queue (R33, R262, R270, R273, R275, R317, R351, R414). -/
def mayFetch (s : State) (f : FuncId) (x : Queue) : Bool :=
  s.gatehouseUp && s.dmaOk f && x.qstate == .active && !x.closing && !releasing s (.ring f 0) && x.staged.isNone &&
    !(x.slots.any (holdsFetch x)) && decide (2 ≤ x.sqOcc)

/-- The Gatehouse may access the queue's windows: to fetch, or to write replies and the shadow (R253). -/
def mayAccess (s : State) (f : FuncId) (x : Queue) : Bool := s.gatehouseUp && s.dmaOk f && x.qstate != .broken

/-- Ring staging counted in TEL_PKT_IN and TEL_BYTES_IN (R472). -/
def countIn (s : State) (f : FuncId) (n : Nat) : State :=
  (touchPort s f.port.val).modFn f fun y => { y with tel := { y.tel with pktIn := y.tel.pktIn + 1, bytesIn := y.tel.bytesIn + n } }

def fetchPacket (f : FuncId) (q : Nat) (rd : RingRead) (s : State) : State :=
  let src := Src.ring f q
  match s.queue src with
  | none => s
  | some x =>
    match rd with
    | .window shadow => if mayAccess s f x then breakQueue s f q shadow else s
    | _ =>
    if !mayFetch s f x then s
    else match rd with
      | .window _ => s
      | .failed header =>
        let h := match header with
          | some b => { hdrOf b with irq := false }
          | none => hdrOf []
        ringRecord (ringFault s src h true (Reply.bare .controlFault)) src
      | .bytes bs =>
        let h := hdrOf bs
        if bs.length < 32 then s
        else if !tlenOk h.tlen x.sqSize then
          ringFault s src h true ⟨.badLength, 0, 4, x.e, [], []⟩
        else if x.sqOcc * 16 < h.tlen then s
        else if bs.length != h.tlen || (48 + h.plen < h.tlen && !s.hbmUp) then s
        else takePacket (countIn s f h.tlen) src x bs

/-- PACKET_FETCH (R262): the ring read of the next packet returns, and checks 1 to 3 of R269 are made. -/
def execPacketFetch (f : FuncId) (q : Nat) (rd : RingRead) (s : State) : Host.Outcome State Fault Refusal :=
  .next (fetchPacket f q rd s)

/-- COMPLETION_TIMEOUT (R454): the ring read's completion timer expires, a ring fault of the queue (R275). -/
def execCompletionTimeout (f : FuncId) (q : Nat) (header : Option (List Byte)) (s : State) :
    Host.Outcome State Fault Refusal :=
  .next (fetchPacket f q (.failed header) s)

/-! ## PACKET_ACCEPT -/

/-- The verdict of checks 4 to 8 on a packet that starts a command. -/
def headVerdict (s : State) (c : Cmd) (bs : List Byte) (h : Hdr) : Chk Unit := do
  match checkLengths bs h with
  | some o => .error (Reply.at .badLength o)
  | none => .ok ()
  chk (opcodeListed h.opcode) (Reply.at .badOpcode h.opcode)
  chk (opcodeAllowed s c.src h.opcode) (Reply.at .notPermitted 0)
  chkBad (headerBad bs h c.params)
  if c.namesStream && c.plot.isSome then
    chk (streamAllowed s c.src h.stream) (Reply.at .notPermitted 2)

/-- The verdict on a later packet of a chain (R263, R269). -/
def laterVerdict (s : State) (ch : Chain) (src : Src) (bs : List Byte) (h : Hdr) : Chk Unit := do
  match checkLengths bs h with
  | some o => .error (Reply.at .badLength o)
  | none => .ok ()
  chk (opcodeListed h.opcode) (Reply.at .badOpcode h.opcode)
  chk (opcodeAllowed s src h.opcode) (Reply.at .notPermitted 0)
  chkBad (chainBad ch bs h)

/-- The replay window of a queue with one more entry, and without the one that leaves it; that one stays while a duplicate waits for
its status (R267, R278). -/
def windowPut (y : Queue) (seq : Nat) (x : WinEntry) : Map WinEntry :=
  let old := (seq + 2 ^ 64 - 4096) % 2 ^ 64
  if y.slots.any fun sl => sl.kind == .duplicate && sl.seq == old then mput y.window seq x else mdel (mput y.window seq x) old

/-- PLAN_RUN, STREAM_FEED and STREAM_FLUSH advance the epoch clock at acceptance (R226). -/
def advancesClock (op : Nat) : Bool := op == 0x22 || op == 0x31 || op == 0x32

/-- The clock's value that a command carries (R226): none but those three carries one. -/
def clockFor (s : State) (c : Cmd) : Nat :=
  if advancesClock c.opcode then ((c.plot.bind (mget s.plots)).map fun p => p.clock + 1).getD 0 else 0

/-- The plot's clock just after the acceptance of a command (R226). -/
def clockAfter (s : State) (c : Cmd) : Nat :=
  ((c.plot.bind (mget s.plots)).map fun p => p.clock + (if advancesClock c.opcode then 1 else 0)).getD 0

/-- What acceptance does to the plot, whatever later check the command fails (R226, R266): the clock advances, and, when the
fields that name objects stand in the packet as they should, those objects are stamped. -/
def noteAccepted (s : State) (c : Cmd) (known : Bool) : State :=
  let t := match c.plot with
    | some p => if advancesClock c.opcode then s.modPlot p fun x => { x with clock := x.clock + 1 } else s
    | none => s
  if known then stampFor t c else t

/-- An accepted PLAN_LOAD stamps every tensor that its plan pins or declares (R226). -/
def stampDecls (s : State) (c : Cmd) : State :=
  if c.opcode = 0x20 then
    match c.plot with
    | some p => s.modPlot p fun x => { x with tensors := stampTensors x.clock ((declsOf c.payload).map (·.handle)) x.tensors }
    | none => s
  else s

/-- The target of an ABORT in the replay window of a queue of the same function (R289). -/
def abortTarget (s : State) (c : Cmd) : Chk WinEntry :=
  match c.src with
  | .bmc => .error (Reply.badParam 32)
  | .ring f _ =>
    match s.queue (.ring f (fieldAt c.params 0 2)) with
    | none => .error (Reply.badParam 32)
    | some y =>
      match inWindow y (fieldAt c.params 8 8) with
      | none => .error (Reply.badParam 40)
      | some w => if w.opcode = 0x03 then .error (Reply.badParam 40) else .ok w

/-- The ABORT is accepted first: the target, when it has not ended, ends ABORTED; otherwise its status is noted (R35, R290). -/
def decideAbort (s : State) (c : Cmd) (w : WinEntry) : State :=
  let t := s.modQueue c.src fun x =>
    { x with slots := x.slots.map fun sl => if sl.acc == c.acc && sl.kind == .command then { sl with target := some w.acc } else sl }
  match t.cmds.find? fun d => d.acc == w.acc with
  | some d =>
    let u := { t with cmds := t.cmds.map fun e => if e.acc == c.acc then { e with won := true } else e }
    endCmd (endWork u d) d (Reply.bare .aborted)
  | none => { t with cmds := t.cmds.map fun e => if e.acc == c.acc then { e with tooLate := w.status } else e }

/-- A command in `s.cmds` replaced by its new form. -/
def State.putCmd (s : State) (c : Cmd) : State :=
  { s with cmds := s.cmds.map fun d => if d.acc == c.acc then c else d }

/-- The open chain of a queue ends ABORTED (R317, R351). -/
def abortOpen (s : State) (src : Src) : State :=
  match (s.queue src).bind (·.chain) with
  | none => s
  | some ch => match s.cmds.find? fun d => d.acc == ch.acc with
    | some d => if d.isOpen then endCmd s d (Reply.bare .aborted) else s
    | none => s

/-- A QUEUE_DELETE is accepted (R317): the queue fetches no more, and its open chain ends ABORTED. -/
def beginDelete (s : State) (f : FuncId) (q : Nat) : State :=
  let src := Src.ring f q
  abortOpen (s.modQueue src fun x => { x with closing := true }) src

/-- The queues of a plot's functions. -/
def plotQueues (s : State) (p : Plot) : List Src := p.fids.flatMap fun f => (s.fn f).queues.map fun q => Src.ring f q.1

/-- A PLOT_RELEASE is accepted (step 1 of R351). -/
def beginRelease (s : State) (p acc : Nat) : State :=
  match mget s.plots p with
  | none => s
  | some x => if x.releasing.isSome then s else (plotQueues s x).foldl abortOpen (stopPlot s p (some acc))

/-- What the acceptance of an admin command does at once (R317, R351). -/
def acceptAdmin (s : State) (c : Cmd) : State :=
  match c.opcode, c.src with
  | 0x61, .ring f _ => beginDelete s f (fieldAt c.params 0 2)
  | 0x71, _ => beginRelease s (byteAt c.params 0) c.acc
  | _, _ => s

/-- The final checks of a command whose last packet has been accepted. -/
def completeAccept (s : State) (c : Cmd) (limit : Nat) : State :=
  let t := s.putCmd c
  if c.opcode = 0x03 then
    match abortTarget t c with
    | .error r => endCmd t c r
    | .ok w => decideAbort t c w
  else if adminOp c.opcode || authorityOp c.opcode then acceptAdmin t c
  else match c.plot.bind fun p => (mget t.plots p).map fun x => (p, x) with
    | none => t
    | some (p, x) =>
      match finalCheck t p x c limit with
      | .error r => endCmd t c r
      | .ok (u, c') => startMoves (stampDecls (u.putCmd c') c') p none

/-- R264: the longest reply of a source's completion ring. -/
def replyLimit (x : Queue) : Nat := min 4194304 x.cqSize

/-- Acceptance of a packet that starts a command; none while completion ring space is short (R266, R270). -/
def acceptNew (s : State) (src : Src) (x : Queue) (bs : List Byte) : Option State :=
  let h := hdrOf bs
  let ps := slice bs 32 (min h.plen (h.tlen - 48))
  let acc := s.accNo
  let c : Cmd :=
    { src := src, acc := acc, plot := s.plotOf src, opcode := h.opcode, stream := h.stream, handle := h.handle, tag := h.tag,
      irq := h.irq, seqs := [h.seq], params := ps, payload := payloadOf bs h, isOpen := h.cont, clock := 0, stampAt := 0,
      reserved := [], pages := 0, shadowSlots := 0, won := false, tooLate := none, placed := [], olds := [] }
  let c := { c with clock := clockFor s c, stampAt := clockAfter s c }
  let space := if h.cont then 4 else min (replyNeed s c) (replyLimit x) / 16
  if x.cqFree < space then none
  else
    let head := headVerdict s c bs h
    let verdict := head.bind fun _ => firstCheck s c h.plen
    let named := namesStream h.opcode (byteAt ps 0)
    let sl := { slotFor h .command acc space named (orderingPoint c) false h.cont with target := none }
    let y := { x with
      e := (x.e + 1) % 2 ^ 64, staged := none
      window := windowPut x h.seq ⟨crcField bs h.tlen, h.tag, h.opcode, acc, none⟩
      chain := if h.cont then some ⟨h.opcode, h.stream, h.tag, h.handle, acc, 1, none⟩ else none
      slots := x.slots ++ [sl] }
    let t := noteAccepted { s.setQueue src y with accNo := acc + 1, cmds := s.cmds ++ [c], p2Cond := none } c head.toBool
    match verdict with
    | .error r => some (endCmd t c r)
    | .ok () => some (if h.cont then t else completeAccept t c (replyLimit x))
where
  /-- NOP, FENCE, a no-op form by its counts, and a feed or flush with nothing to run order replies (R279, R280). -/
  orderingPoint (c : Cmd) : Bool :=
    let ps := c.params
    match c.opcode with
    | 0x01 => true
    | 0x02 => true
    | 0x10 => if bitOf (byteAt ps 0) 5 then fieldAt ps 40 8 == 0
        else fieldAt ps 8 4 * fieldAt ps 12 4 * fieldAt ps 16 4 * fieldAt ps 20 4 == 0
    | 0x11 => fieldAt ps 8 8 == 0
    | 0x14 => fieldAt ps 6 2 == 0
    | 0x15 => true
    | 0x22 => fieldAt ps 0 4 == 0
    | 0x31 => fieldAt ps 0 4 == 0
    | 0x32 => true
    | 0x33 => true
    | 0x34 => true
    | 0x50 => byteAt ps 1 == 0
    | op => isDirect op && directNoop op ps

/-- A chain that ended early answers its later packets at once, and halts at its last (R265). -/
def acceptEnded (s : State) (src : Src) (x : Queue) (ch : Chain) (r : Reply) (bs : List Byte) : Option State :=
  let h := hdrOf bs
  if x.cqFree < 4 then none
  else
    let halt := !h.cont && haltsHere s src r.status
    let sl := { slotFor h .command ch.acc 4 (namesStream ch.opcode 0) false false h.cont with
      reply := some { r with block := if h.cont then [] else r.block, payload := if h.cont then [] else r.payload } }
    let y := { x with
      e := (x.e + 1) % 2 ^ 64, staged := none
      window := windowPut x h.seq ⟨crcField bs h.tlen, h.tag, ch.opcode, ch.acc, some r.status⟩
      chain := if h.cont then some { ch with count := ch.count + 1 } else none
      slots := (x.slots ++ [sl]).map fun z => if halt && z.acc == ch.acc && z.kind == .command then { z with withHalt := true } else z }
    let t := s.setQueue src y
    some (drain (if halt then haltQueue t src ch.acc h.seq else t) src)

/-- A later packet of an open chain (R263). -/
def acceptLater (s : State) (src : Src) (x : Queue) (ch : Chain) (c : Cmd) (bs : List Byte) : Option State :=
  let h := hdrOf bs
  let verdict := laterVerdict s ch src bs h
  let ok := match verdict with
    | .ok () => true
    | .error _ => false
  let c' := { c with seqs := c.seqs ++ [h.seq], payload := if ok then c.payload ++ payloadOf bs h else c.payload, isOpen := h.cont }
  let space := if h.cont then 4 else min (replyNeed s c') (replyLimit x) / 16
  if x.cqFree < space then none
  else
    let sl := slotFor h .command ch.acc space (namesStream ch.opcode 0) false false h.cont
    let y := { x with
      e := (x.e + 1) % 2 ^ 64, staged := none
      window := windowPut x h.seq ⟨crcField bs h.tlen, h.tag, ch.opcode, ch.acc, none⟩
      chain := if h.cont then some { ch with count := ch.count + 1 } else none
      slots := x.slots ++ [sl] }
    let t := (s.setQueue src y).putCmd c'
    match verdict with
    | .error r => some (endCmd t c' r)
    | .ok () => some (if h.cont then t else completeAccept t c' (replyLimit x))

/-- Acceptance of the staged packet of a source; none while it must wait for space (R266, R270). -/
def acceptStaged (s : State) (src : Src) (x : Queue) (bs : List Byte) : Option State :=
  match x.chain with
  | none => acceptNew s src x bs
  | some ch =>
    match ch.ended, s.cmds.find? fun d => d.acc == ch.acc with
    | some r, _ => acceptEnded s src x ch r bs
    | none, some c => acceptLater s src x ch c bs
    | none, none => acceptNew s src x bs

/-- A packet may be accepted: none is while a latent divergence waits (R369). -/
def mayAccept (s : State) (src : Src) (x : Queue) : Bool :=
  s.gatehouseUp && s.latent.isNone && x.qstate == .active && !x.closing && !releasing s src

def acceptAt (s : State) (src : Src) : State :=
  match s.queue src with
  | none => s
  | some x =>
    match x.staged with
    | none => s
    | some bs => if mayAccept s src x then (acceptStaged s src x bs).getD s else s

/-- PACKET_ACCEPT (R270): checks 4 to 9 and the reservation, E advances, and the command is in flight or ends. -/
def execPacketAccept (f : FuncId) (q : Nat) (s : State) : Host.Outcome State Fault Refusal :=
  .next (acceptAt s (.ring f q))

/-! ## OK_DUPLICATE and coalesced interrupts -/

def answerDuplicates (s : State) (src : Src) : State :=
  match s.queue src with
  | none => s
  | some x => drain (s.setQueue src { x with slots := x.slots.map (dupReply x) }) src

/-- OK_DUPLICATE (R267): duplicates whose original has ended are answered, after the original's reply. -/
def execOkDuplicate (f : FuncId) (q : Nat) (s : State) : Host.Outcome State Fault Refusal :=
  .next (if s.gatehouseUp then answerDuplicates s (.ring f q) else s)

/-- CTIME µs have passed since the first counted reply (R282). -/
def coalesceDue (s : State) (x : Queue) : Bool :=
  match x.timer with
  | some t => decide (t + usec x.ctime ≤ s.lclk)
  | none => false

/-- IRQ_COALESCE_TIMEOUT (R282). -/
def execIrqCoalesceTimeout (f : FuncId) (q : Nat) (s : State) : Host.Outcome State Fault Refusal :=
  .next (match s.queue (.ring f q) with
    | some x => if coalesceDue s x && s.alive then signalQueue s f q else s
    | none => s)

end Sys2Proof.Machine
end

