-- ==== Sys2Proof/Machine/Units.lean ====
section
/-!
DEFINITION. Running accepted commands: the command at its turn, engines in service and their wake, and operations run on
an engine's scratchpad (R33, R200, R212, R310, R360, R364, R390, R406, R407).
-/

namespace Sys2Proof.Machine

/-! ## A command at its turn -/

/-- The accepted command that a row names, when it has the row's opcode and may begin; otherwise nothing changes
(log entry 17). -/
def atTurn (c : CmdRef) (op : Nat) (s : State) (k : Cmd → State) : State :=
  match s.cmd c with
  | some d => if d.opcode = op && mayBegin s d then k d else s
  | none => s

/-- A commit: only after every earlier command of an ORDERED queue has ended (R271). -/
def commitAt (s : State) (c : Cmd) (k : State) : State := if inOrder s c then k else s

/-- The command ends without effect. -/
def failCmd (s : State) (c : Cmd) (r : Reply) : State := endCmd s c r

/-- The plot of a command. -/
def plotFor (s : State) (c : Cmd) : Option (Nat × Plot) := c.plot.bind fun p => (mget s.plots p).map fun x => (p, x)

/-! ## Engines (R364, R390, R404 to R407, R419) -/

/-- The engine takes work now. -/
def engineReady (s : State) (e : Nat) : Bool :=
  let x := s.eng e
  x.power == .running && x.relock.isNone && !x.failed && !x.overdue && !x.halted && !s.power.hold &&
    (match x.slice with
      | some sl => sl.kind == .opportunistic
      | none => true)

/-- ENGINE_WAKE (R407): unless a thermal hold lasts (R419), a gated engine's rail and PLL start, at its plot's effective ECLK;
TEL_WAKE counts it. -/
def wakeEngine (s : State) (e : Nat) : State :=
  let x := s.eng e
  if x.power == .gated && !x.failed && !s.power.hold then
    s.setEng e { x with power := .waking s.lclk, tel := { x.tel with wake := x.tel.wake + 1 } }
  else s

/-- A 16-bit count that saturates (R398). -/
def sat16 (n : Nat) : Nat := min 65535 n

/-- SLICE_ABANDON (R390): work for the engine, or entry to P2, ends an opportunistic slice, and its time does not count. The
engine is at its own clock again at once (log entry 87). -/
def abandonSlice (s : State) (e : Nat) : State :=
  let x := s.eng e
  match x.slice with
  | some sl =>
    if sl.kind == .opportunistic then
      let t := s.setEng e { x with slice := none, idleSince := s.lclk, eclk := min (s.target e) s.power.ceiling }
      let u := { t with keeper := { t.keeper with abandoned := sat16 (t.keeper.abandoned + 1) } }
      u.modHolder e fun p => { p with gkAbandoned := sat16 (p.gkAbandoned + 1) }
    else s
  | none => s

/-- The engines of a list are made ready: opportunistic slices give way and gated engines start to wake. -/
def prepare (s : State) (es : List Nat) : State := es.foldl (fun t e => wakeEngine (abandonSlice t e) e) s

/-- Engines of a plot in service, lowest first (R364). -/
def inService (s : State) (p : Plot) : List Nat := (maskList p.engmask).filter fun e => !(s.eng e).failed

/-- Work on engines: it runs when all are ready; otherwise their wake begins and the command waits (R33 step 3). -/
def onEngines (s : State) (es : List Nat) (k : State → State) : State :=
  let t := prepare s es
  if es.all (engineReady t) then k t else t

/-- The engine has worked: its idle time starts again (R406). TEL_RUN and the stall counts rise by what only timing
decides (R102, R472, log entry 22). -/
def touchEngine (s : State) (e : Nat) : State :=
  let i := s.freeIx
  let t := s.modEng e fun x =>
    { x with
      idleSince := s.lclk
      tel := { x.tel with run := x.tel.run + Config.freeCount i, stallWeight := x.tel.stallWeight + Config.freeCount (i + 1),
                          stallOperand := x.tel.stallOperand + Config.freeCount (i + 2),
                          stallDrain := x.tel.stallDrain + Config.freeCount (i + 3),
                          stallClock := x.tel.stallClock + Config.freeCount (i + 4) } }
  { t with freeIx := i + 5 }

/-- MA steps counted in TEL_MA_BUSY (R472). -/
def countSteps (s : State) (e n : Nat) : State :=
  s.modEng e fun x => { x with tel := { x.tel with maBusy := x.tel.maBusy + n } }

/-! ## What accesses found -/

/-- The record of an operation's failure on an engine (R212, R376). -/
def errRecord (e : Nat) (c : Cmd) : OpErr → Option Rec
  | .uncorrectable a => some (cmdEvent 0x0002 0 e spadLoc a c)
  | .hbmWord h off => some (cmdEvent 0x0002 0 0x11 0 (h * 2 ^ 32 + off % 2 ^ 32) c)
  | .blockCheck h off => some (cmdEvent 0x0006 0 0x11 0 (h * 2 ^ 32 + off % 2 ^ 32) c)
  | .gatherFault _ _ => none

/-- The status an operation's failure gives (R100, R212, R287, R314). -/
def errReply : OpErr → Reply
  | .uncorrectable _ => Reply.bare .uncorrectableData
  | .hbmWord _ _ => Reply.bare .uncorrectableData
  | .blockCheck _ _ => Reply.bare .uncorrectableData
  | .gatherFault a b => Reply.withBlock .gatherFault (toLe 4 a ++ toLe 4 b)

/-- An operation run on an engine: the scratchpad as the operation leaves it, what its accesses found, and its outcome. -/
def runOn {α : Type} (s : State) (e : Nat) (c : Cmd) (m : OpM α) : Except OpErr α × OpSt × State :=
  let x := s.eng e
  let r := m (opStart x.spad)
  let t := applyTrace (s.setEng e { x with spad := r.2.sp }) c.plot e (some c) r.2.tr
  (r.1, r.2, touchEngine t e)

/-- A command that an operation's failure ends: the record, then the reply. -/
def failOp (s : State) (c : Cmd) (e : Nat) (err : OpErr) : State :=
  let t := match errRecord e c err with
    | some r => addRecord s c.plot r
    | none => s
  failCmd t c (errReply err)

end Sys2Proof.Machine
end

