-- ==== Sys2Proof/Machine/Basic.lean ====
section
/-!
DEFINITION. NOP, FENCE, ABORT, QUERY and SCALAR_SET (R279, R280, R288 to R291, R315).
-/

namespace Sys2Proof.Machine

/-- NOP (R280): it ends OK; its slot orders its reply. -/
def execNop (c : CmdRef) (s : State) : Host.Outcome State Fault Refusal :=
  .next (atTurn c 0x01 s fun d => commitAt s d (endCmd s d (Reply.ok [] [])))

/-! ## FENCE (R208, R288) -/

/-- Every command accepted earlier in the FENCE's scope has ended. -/
def fenceClear (s : State) (c : Cmd) : Bool :=
  s.cmds.all fun d => !(decide (d.acc < c.acc) &&
    (d.src == c.src || (byteAt c.params 0 == 1 && d.plot == c.plot && d.plot.isSome)))

/-- R208: every engine of the plot drains its combining buffer. -/
def drainPlot (s : State) (c : Cmd) : State :=
  match plotFor s c with
  | some (_, p) => (maskList p.engmask).foldl (fun t e => drainEngine t e (some c)) s
  | none => s

/-- FENCE (R288). -/
def execFence (c : CmdRef) (s : State) : Host.Outcome State Fault Refusal :=
  .next (atTurn c 0x02 s fun d => if fenceClear s d then endCmd (drainPlot s d) d (Reply.ok [] []) else s)

/-! ## ABORT (R289, R290) -/

/-- The ABORT's own end: OK when it won at its acceptance, otherwise ABORT_TOO_LATE with the status that its target had ended with
then. -/
def abortReply (c : Cmd) : Reply :=
  if c.won then Reply.ok [] [] else Reply.withBlock .abortTooLate (toLe 2 ((c.tooLate.map Status.code).getD 0))

/-- ABORT (R290). -/
def execAbort (c : CmdRef) (s : State) : Host.Outcome State Fault Refusal :=
  .next (atTurn c 0x03 s fun d => commitAt s d (endCmd s d (abortReply d)))

/-! ## QUERY (R291, Table 3) -/

/-- Queues in use on the device. -/
def queuesInUse (s : State) : Nat := (s.funcs.map fun f => f.2.queues.length).sum

/-- The Device ID of a function (R291, R445, R476). -/
def deviceId (f : FuncId) : Nat := if f.fn = 0 then 0x0600 else 0x0601

/-- FWVER (R476): 0 while FWFAIL is set. -/
def fwVer (s : State) : Nat := if s.boot.fwFail then 0 else Config.fwVersion s.boot.fwImage % 2 ^ 32

def queryDevice (s : State) (src : Src) : List Byte :=
  let dev := match src with
    | .ring f _ => deviceId f
    | .bmc => 0x0600
  toLe 2 0x1F5C ++ toLe 2 dev ++ toLe 4 (fwVer s) ++ toLe 1 6 ++ zeros 1 ++ toLe 2 s.plots.length ++ toLe 4 (queuesInUse s)

/-- Slots that a plot holds: images, and the shadow slots of its commands (R291, R479). -/
def slotsHeld (s : State) (plot : Nat) (p : Plot) : Nat := imageSlots p + shadowSlots s plot

def queryPlot (s : State) (plot : Nat) (p : Plot) : List Byte :=
  toLe 1 p.engmask ++ zeros 1 ++ toLe 2 (slotsHeld s plot p) ++ toLe 2 (p.slots - slotsHeld s plot p) ++ zeros 2 ++
    toLe 4 p.quota ++ toLe 4 (pagesHeld s plot p) ++ toLe 8 p.clock ++ toLe 4 p.tensors.length ++ toLe 2 p.plans.length ++
    toLe 2 p.streams.length

def Residency.code : Residency → Nat
  | .nonresident => 0 | .movingIn => 1 | .resident => 2 | .movingOut => 3

def queryStream (p : Plot) (st : Nat) : List Byte :=
  match mget p.streams st with
  | none => zeros 32
  | some x =>
    let h := headOf x.img
    toLe 1 (1 + (if x.paused then 2 else 0)) ++ toLe 1 x.res.code ++ toLe 2 h.pend ++ toLe 1 h.k ++ zeros 3 ++ toLe 8 h.pos ++
      toLe 8 x.img.length ++ toLe 4 x.plan

def queryTensor (t : Tensor) : List Byte :=
  let home := match t.home with
    | some (e, _) => e
    | none => 0xFF
  let addr := match t.home with
    | some (_, a) => a
    | none => 0
  toLe 1 t.attr ++ toLe 1 t.fmt ++ toLe 1 t.gshift ++ zeros 1 ++ toLe 2 t.itable ++ zeros 2 ++ toLe 4 t.c0 ++ toLe 4 t.c1 ++
    toLe 4 t.c2 ++ toLe 4 t.c3 ++ toLe 8 t.img.length ++ toLe 1 home ++ zeros 3 ++ toLe 4 addr ++ toLe 8 t.stamp ++ toLe 4 t.lost

def queryQueue (q : Queue) : List Byte :=
  toLe 1 q.qstate.code ++ toLe 1 (if q.unordered then 1 else 0) ++ zeros 6 ++ toLe 8 q.e ++ toLe 8 q.haltSeq

/-- The reply of QUERY at its commit point; a queue that does not exist is BAD_PARAM at QID. -/
def queryReply (s : State) (c : Cmd) : Reply :=
  match byteAt c.params 0, plotFor s c with
  | 0, _ => Reply.ok (queryDevice s c.src) []
  | 1, some (n, p) => Reply.ok (queryPlot s n p) []
  | 2, some (_, p) => Reply.ok (queryStream p c.stream) []
  | 3, some (_, p) => match mget p.tensors c.handle with
    | some t => Reply.ok (queryTensor t) []
    | none => Reply.absent c.handle
  | 4, _ =>
    let q := match c.src with
      | .ring f _ => mget (s.fn f).queues (fieldAt c.params 2 2)
      | .bmc => if fieldAt c.params 2 2 = 0 then some s.pcp else none
    match q with
    | some x => Reply.ok (queryQueue x) []
    | none => Reply.badParam 34
  | _, _ => Reply.at .notPermitted 32

/-- QUERY (R291). -/
def execQuery (c : CmdRef) (s : State) : Host.Outcome State Fault Refusal :=
  .next (atTurn c 0x04 s fun d =>
    if d.namesStream && !streamTurn s d then s else commitAt s d (endCmd s d (queryReply s d)))

/-! ## SCALAR_SET (R141, R315) -/

/-- Scalar registers written from FIRST. -/
def setScalars (m : Map Nat) (first : Nat) : List Nat → Map Nat
  | [] => m
  | v :: r => setScalars (if v = 0 then mdel m first else mput m first v) (first + 1) r

def scalarValues (ps : List Byte) : List Nat := (List.range (byteAt ps 1)).map fun i => fieldAt ps (16 + 8 * i) 8

/-- SCALAR_SET (R315): the plot's registers are written at the commit point. -/
def execScalarSet (c : CmdRef) (s : State) : Host.Outcome State Fault Refusal :=
  .next (atTurn c 0x50 s fun d => commitAt s d (match plotFor s d with
    | some (n, p) =>
      endCmd (s.setPlot n { p with scalars := setScalars p.scalars (byteAt d.params 0) (scalarValues d.params) }) d (Reply.ok [] [])
    | none => endCmd s d (Reply.at .notPermitted 0)))

end Sys2Proof.Machine
end

