-- ==== Sys2Proof/Machine/Ecdsa.lean ====
section
/-!
DEFINITION. ECDSA verification on the P-384 curve with SHA-384 (R427, R438), and public keys of scalars (R429).
-/

namespace Sys2Proof.Machine

def p384 : Nat := 2 ^ 384 - 2 ^ 128 - 2 ^ 96 + 2 ^ 32 - 1
def p384n : Nat := 0xFFFFFFFFFFFFFFFFFFFFFFFFFFFFFFFFFFFFFFFFFFFFFFFFC7634D81F4372DDF581A0DB248B0A77AECEC196ACCC52973
def p384b : Nat := 0xB3312FA7E23EE7E4988E056BE3F82D19181D9C6EFE8141120314088F5013875AC656398D8A2ED19D2A85C8EDD3EC2AEF
def p384gx : Nat := 0xAA87CA22BE8B05378EB1C71EF320AD746E1D3B628BA79B9859F741E082542A385502F25DBF55296C3A545E3872760AB7
def p384gy : Nat := 0x3617DE4A96262C6F5D9E98BF9292DC29F8F41DBD289A147CE9DA3113B5F0B8C00A60B1CE1D7E819D7A431D7C90EA0E5F

/-- A point in Jacobian coordinates; z = 0 is the point at infinity. -/
structure EcPoint where
  x : Nat
  y : Nat
  z : Nat
  deriving DecidableEq, Repr

def ecInf : EcPoint := ⟨1, 1, 0⟩
def ecG : EcPoint := ⟨p384gx, p384gy, 1⟩

/-- a - b modulo p. -/
def subP (a b : Nat) : Nat := (a + p384 - b % p384) % p384

def ecDouble (a : EcPoint) : EcPoint :=
  if a.z = 0 ∨ a.y = 0 then ecInf
  else
    let z2 := a.z * a.z % p384
    let m := 3 * (subP a.x z2 * ((a.x + z2) % p384) % p384) % p384
    let y2 := a.y * a.y % p384
    let s := 4 * (a.x * y2 % p384) % p384
    let x' := subP (m * m % p384) (2 * s)
    ⟨x', subP (m * subP s x' % p384) (8 * (y2 * y2 % p384)), 2 * (a.y * a.z % p384) % p384⟩

def ecAdd (a b : EcPoint) : EcPoint :=
  if a.z = 0 then b
  else if b.z = 0 then a
  else
    let z1 := a.z * a.z % p384
    let z2 := b.z * b.z % p384
    let u1 := a.x * z2 % p384
    let u2 := b.x * z1 % p384
    let s1 := a.y * (b.z * z2 % p384) % p384
    let s2 := b.y * (a.z * z1 % p384) % p384
    let h := subP u2 u1
    let r := subP s2 s1
    if h = 0 then (if r = 0 then ecDouble a else ecInf)
    else
      let h2 := h * h % p384
      let h3 := h * h2 % p384
      let v := u1 * h2 % p384
      let x' := subP (subP (r * r % p384) h3) (2 * v)
      ⟨x', subP (r * subP v x' % p384) (s1 * h3 % p384), h * (a.z * b.z % p384) % p384⟩

/-- k · P over the low `n` bits of k, most significant first. -/
def ecMul : Nat → Nat → EcPoint → EcPoint → EcPoint
  | 0, _, _, acc => acc
  | n + 1, k, p, acc =>
    let d := ecDouble acc
    ecMul n k p (if bitOf k n then ecAdd d p else d)

/-- b^e modulo m over the low `n` bits of e. -/
def powMod (m : Nat) : Nat → Nat → Nat → Nat → Nat
  | 0, _, _, acc => acc
  | n + 1, b, e, acc => powMod m n b e (if bitOf e n then (acc * acc % m) * b % m else acc * acc % m)

def invMod (m a : Nat) : Nat := powMod m 384 (a % m) (m - 2) 1

/-- The affine x coordinate of a point that is not at infinity. -/
def ecX (a : EcPoint) : Nat :=
  let i := invMod p384 a.z
  a.x * (i * i % p384) % p384

def ecY (a : EcPoint) : Nat :=
  let i := invMod p384 a.z
  a.y * (i * (i * i % p384) % p384) % p384

/-- The point of an uncompressed 97-byte public key, when it lies on the curve. -/
def ecParse (key : List Byte) : Option EcPoint :=
  let x := beNat ((key.drop 1).take 48)
  let y := beNat ((key.drop 49).take 48)
  if key.length = 97 ∧ key.head? = some 4 ∧ x < p384 ∧ y < p384 ∧
      y * y % p384 = (x * x % p384 * x + (p384 - 3) * x + p384b) % p384 then some ⟨x, y, 1⟩ else none

/-- The uncompressed encoding of a point. -/
def ecEncode (a : EcPoint) : List Byte := 4 :: (toBe 48 (ecX a) ++ toBe 48 (ecY a))

/-- ECDSA P-384 with SHA-384; the signature is r, then s, 48 bytes each (R438). -/
def ecdsaVerify (key msg sig : List Byte) : Bool :=
  match ecParse key with
  | none => false
  | some q =>
    let r := beNat (sig.take 48)
    let s := beNat ((sig.drop 48).take 48)
    if sig.length = 96 ∧ 0 < r ∧ r < p384n ∧ 0 < s ∧ s < p384n then
      let e := beNat (sha384 msg)
      let w := invMod p384n s
      let t := ecAdd (ecMul 384 (e * w % p384n) ecG ecInf) (ecMul 384 (r * w % p384n) q ecInf)
      if t.z = 0 then false else decide (ecX t % p384n = r)
    else false

/-- ECDSA signature by private key `d` with the per-message value `k`. -/
def ecdsaSign (d k : Nat) (msg : List Byte) : List Byte :=
  let k := k % (p384n - 1) + 1
  let r := ecX (ecMul 384 k ecG ecInf) % p384n
  let s := invMod p384n k * (beNat (sha384 msg) + r * d) % p384n
  toBe 48 r ++ toBe 48 s

end Sys2Proof.Machine
end

