-- ==== Sys2Proof/Machine/Firmware.lean ====
section
/-!
DEFINITION. The firmware store: slot images, their validity and the choice of the slot that boots (R427, R464).
-/

namespace Sys2Proof.Machine

/-! ## Slot images (Table 8 of R464) -/

def imgSvn (img : List Byte) : Nat := byteAt img 6
def fwLength (img : List Byte) : Nat := fieldAt img 8 8
def fwKey (img : List Byte) : List Byte := slice img 32 97
def fwSig (img : List Byte) : List Byte := slice img 416 96

/-- The header with LENGTH bytes of body. -/
def fwWhole (img : List Byte) : List Byte := img.take (512 + fwLength img)

/-- The bytes that the signature covers: header bytes 0 to 415, then the body. -/
def fwSigned (img : List Byte) : List Byte := img.take 416 ++ (fwWhole img).drop 512

/-- The header obeys Table 8 of R464, and the body is there. -/
def fwHeaderOk (img : List Byte) : Bool :=
  decide (512 ≤ img.length) && fieldAt img 0 4 == 0x4D495746 && fieldAt img 4 2 == 1 && decide (imgSvn img ≤ 64) &&
    decide (byteAt img 7 < 2) && decide (fwLength img ≤ 33554432 - 512) && decide (512 + fwLength img ≤ img.length) &&
    allZero (slice img 129 287)

/-- A slot is valid (R427). -/
def fwValid (st : Stores) (img : List Byte) : Bool :=
  fwHeaderOk img && sha384 (fwKey img) == st.fvkHash && decide (st.minSvn ≤ imgSvn img) &&
    ecdsaVerify (fwKey img) (fwSigned img) (fwSig img)

/-- The slot that boots: the valid one with the higher SVN, or slot A when they are equal (R427). -/
def fwChoose (st : Stores) : Option (Nat × List Byte) :=
  match fwValid st st.slotA, fwValid st st.slotB with
  | true, true => if imgSvn st.slotA < imgSvn st.slotB then some (1, st.slotB) else some (0, st.slotA)
  | true, false => some (0, st.slotA)
  | false, true => some (1, st.slotB)
  | false, false => none

/-- The verified image is placed in Lodge retention (R427). -/
def Boot.withImage (b : Boot) (slot : Nat) (img : List Byte) : Boot :=
  { b with slot := slot, fwImage := fwWhole img, fwSvn := imgSvn img, commitSvn := byteAt img 7 % 2 }

/-- A fresh read and verification of the firmware by a Gatehouse that restarts or wakes (R441): with no valid slot FWFAIL is
set, and the device is not ready (R427). -/
def reloadFirmware (s : State) : State :=
  if s.secure.reload then
    let t := { s with secure := { s.secure with reload := false } }
    match fwChoose t.stores with
    | some (slot, img) => { t with boot := t.boot.withImage slot img }
    | none => { t with boot := { t.boot with fwFail := true, ready := false } }
  else s

end Sys2Proof.Machine
end

