-- ==== Sys2Proof/Machine/Tensors.lean ====
section
/-!
DEFINITION. TENSOR_PUT, TENSOR_GET, TENSOR_FREE, TENSOR_MOVE, TABLE_WRITE and DESC_INVALIDATE
(R222 to R225, R232 to R235, R292 to R298).
-/

namespace Sys2Proof.Machine

/-! ## HBM code words (R212, R223, R357) -/

/-- ADDR of an HBM code word of a tensor or plan (R375). -/
def hbmAddr (h off : Nat) : Nat := h * 2 ^ 32 + off % 2 ^ 32

/-- Corrections and UNCORR_WRITE records of a partial write of a tensor (R223). -/
def noteTensorWrite (s : State) (c : Cmd) (h : Nat) (t : Tensor) (off n : Nat) : State :=
  let u := (t.writeCorrects off n).foldl (fun v w => countCorrected v c.plot true (hbmAddr h (32 * w))) s
  (t.writePoisons off n).foldl (fun v w => addRecord v c.plot (cmdEvent 0x0001 0 0x11 0 (hbmAddr h (32 * w)) c)) u

/-- A tensor of a plot changed. -/
def setTensor (s : State) (plot h : Nat) (t : Tensor) : State :=
  s.modPlot plot fun p => { p with tensors := mput p.tensors h t }

/-- Correctable words that a read of a range meets are corrected and counted (R357, log entry 18). -/
def noteTensorRead (s : State) (plot h : Nat) (t : Tensor) (off n : Nat) : State :=
  let ws := (t.bad.filter fun p => p.2 == .correctable && decide (32 * p.1 < off + n) && decide (off < 32 * p.1 + 32)).map (·.1)
  if ws.isEmpty then s
  else ws.foldl (fun v w => countCorrected v (some plot) true (hbmAddr h (32 * w)))
    (setTensor s plot h { t with bad := t.bad.filter fun p => !ws.contains p.1 })

/-- A command ends on a damaged code word (R212, R360). -/
def failHbm (s : State) (c : Cmd) (h off : Nat) : State :=
  failCmd (addRecord s c.plot (cmdEvent 0x0002 0 0x11 0 (hbmAddr h off) c)) c (Reply.bare .uncorrectableData)

/-! ## TENSOR_PUT (R292, R294) -/

/-- The tensor that a creating TENSOR_PUT makes. -/
def putTensor (c : Cmd) (clock : Nat) : Tensor :=
  let ps := c.params
  { attr := byteAt ps 0, fmt := byteAt ps 1, gshift := byteAt ps 2, itable := fieldAt ps 4 2, c0 := fieldAt ps 8 4,
    c1 := fieldAt ps 12 4, c2 := fieldAt ps 16 4, c3 := fieldAt ps 20 4, img := c.payload, bad := [], home := none,
    stamp := clock, lost := 0 }

/-- A reservation that the new tensor fills (R230). -/
def fillReservation (p : Plot) (h : Nat) : Map Plan := p.plans.map fun q => (q.1, { q.2 with reserved := mdel q.2.reserved h })

/-- The same for an accepted PLAN_LOAD, which holds the pages of its reservations until it commits. -/
def fillPromised (s : State) (n h : Nat) : State :=
  { s with cmds := s.cmds.map fun c => match mget c.reserved h with
    | some r => if c.plot == some n then { c with reserved := mdel c.reserved h, pages := c.pages - r.1 } else c
    | none => c }

def commitPut (s : State) (n : Nat) (p : Plot) (c : Cmd) : State :=
  let t := putTensor c c.stampAt
  if t.c0 * t.c1 * t.c2 * t.c3 = 0 then endCmd s c (Reply.ok [] [])
  else endCmd ((fillPromised s n c.handle).setPlot n { p with tensors := mput p.tensors c.handle t, plans := fillReservation p c.handle }) c (Reply.ok [] [])

def commitPutWrite (s : State) (n : Nat) (p : Plot) (c : Cmd) : State :=
  match mget p.tensors c.handle with
  | none => endCmd s c (Reply.absent c.handle)
  | some t =>
    let off := fieldAt c.params 32 8
    if c.payload.isEmpty then endCmd s c (Reply.ok [] [])
    else
      let u := noteTensorWrite s c c.handle t off c.payload.length
      endCmd (setTensor u n c.handle { t.write off c.payload with lost := 0 }) c (Reply.ok [] [])

/-- TENSOR_PUT (R292): creates a tensor, or writes a range of a MOVABLE one through shadow pages. -/
def execTensorPut (c : CmdRef) (s : State) : Host.Outcome State Fault Refusal :=
  .next (atTurn c 0x10 s fun d => commitAt s d (match plotFor s d with
    | some (n, p) => if bitOf (byteAt d.params 0) 5 then commitPutWrite s n p d else commitPut s n p d
    | none => s))

/-! ## TENSOR_GET and TENSOR_FREE (R295) -/

/-- TENSOR_GET (R295): bytes of the image as stored. -/
def getTensor (s : State) (n : Nat) (p : Plot) (c : Cmd) : State :=
  match mget p.tensors c.handle with
  | none => endCmd s c (Reply.absent c.handle)
  | some t =>
    let off := fieldAt c.params 0 8
    let len := fieldAt c.params 8 8
    match t.readBad off len with
    | some a => failHbm s c c.handle a
    | none => commitAt s c (endCmd (noteTensorRead s n c.handle t off len) c (Reply.ok [] ((t.img.drop off).take len)))

def execTensorGet (c : CmdRef) (s : State) : Host.Outcome State Fault Refusal :=
  .next (atTurn c 0x11 s fun d => match plotFor s d with
    | some (n, p) => getTensor s n p d
    | none => s)

/-- Every earlier-accepted command that names the handle has ended, a PLAN_LOAD that declares it among them (R225, R303). -/
def nameFree (s : State) (c : Cmd) : Bool :=
  s.cmds.all fun d => !(decide (d.acc < c.acc) && d.plot == c.plot && ((cmdHandles d).any fun x => x.1 == c.handle)) &&
    !(decide (d.acc < c.acc) && d.plot == c.plot && d.opcode == 0x20 && (declsOf d.payload).any fun x => x.handle == c.handle)

/-- TENSOR_FREE (R225, R295). -/
def execTensorFree (c : CmdRef) (s : State) : Host.Outcome State Fault Refusal :=
  .next (atTurn c 0x12 s fun d => match plotFor s d with
    | some (n, p) => if nameFree s d then
        if planDeclares p d.handle then commitAt s d (failCmd s d (Reply.badParam 28))
        else commitAt s d (endCmd (s.setPlot n { p with tensors := mdel p.tensors d.handle }) d (Reply.ok [] []))
      else s
    | none => s)

/-! ## TENSOR_MOVE (R222, R224, R296, R364) -/

/-- LOAD: the image goes into the range, and a MOVABLE tensor's home moves there. -/
def moveLoad (s : State) (n : Nat) (c : Cmd) (t : Tensor) (e a : Nat) : State :=
  match t.readBad 0 t.img.length with
  | some o => failHbm s c c.handle o
  | none =>
    let u := noteTensorRead s n c.handle t 0 t.img.length
    let r := runOn u e c (opStores false (rangeStores a t.img))
    endCmd (if t.movable then setTensor r.2.2 n c.handle { t with home := some (e, a) } else r.2.2) c (Reply.ok [] [])

/-- STORE: the range's bytes become the contents; from the home range the home moves back to HBM. -/
def moveStore (s : State) (n : Nat) (c : Cmd) (t : Tensor) (e a : Nat) : State :=
  let r := runOn s e c (opRead a t.img.length)
  match r.1 with
  | .error err => failOp r.2.2 c e err
  | .ok bs => endCmd (setTensor r.2.2 n c.handle { t with img := bs, bad := [], home := none, lost := 0 }) c (Reply.ok [] [])

def moveTensor (s : State) (n : Nat) (p : Plot) (c : Cmd) : State :=
  match mget p.tensors c.handle with
  | none => endCmd s c (Reply.absent c.handle)
  | some t =>
    let e := byteAt c.params 1
    let a := fieldAt c.params 4 4
    let store := byteAt c.params 0 == 1
    if (s.eng e).failed then
      failCmd s c (Reply.bare (if store && t.home == some (e, a) then .uncorrectableData else .datapathFault))
    else
      let d := { c with placed := [e] }
      commitAt s c (onEngines s [e] fun u => if store then moveStore u n d t e a else moveLoad u n d t e a)

/-- TENSOR_MOVE (R296). -/
def execTensorMove (c : CmdRef) (s : State) : Host.Outcome State Fault Refusal :=
  .next (atTurn c 0x13 s fun d => match plotFor s d with
    | some (n, p) => moveTensor s n p d
    | none => s)

/-! ## Tables (R232 to R235, R297, R298) -/

/-- The published descriptor table of a plan's part (R232). -/
def Plan.table (q : Plan) (part : Nat) : List (List Byte) := (mget q.tables part).getD ((partAt q.img part).descs q.img)

/-- Entries replaced from FIRST. -/
def putEntries {α : Type} (t : List α) (first : Nat) (es : List α) : List α :=
  t.take first ++ es ++ t.drop (first + es.length)

def idxEntries (c : Cmd) : List Nat := (List.range (fieldAt c.params 6 2)).map fun i => fieldAt c.payload (2 * i) 2
def descEntries (c : Cmd) : List (List Byte) := (List.range (fieldAt c.params 6 2)).map fun i => slice c.payload (48 * i) 48

/-- A write of a table's versions under DEFER (R233): the published version, and the pending one. -/
def writeVersions {α : Type} (pub : α) (pend : Option α) (defer : Bool) (g : α → α) : α × Option α :=
  if defer then (pub, some (g (pend.getD pub))) else (g pub, pend.map g)

/-- An optional value in a map. -/
def mset {α : Type} (m : Map α) (k : Nat) (v : Option α) : Map α :=
  match v with
  | some x => mput m k x
  | none => mdel m k

def writeTable (p : Plot) (c : Cmd) : Plot :=
  let tab := fieldAt c.params 2 2
  let first := fieldAt c.params 4 2
  let defer := byteAt c.params 1 == 1
  if fieldAt c.params 6 2 = 0 then p
  else if byteAt c.params 0 = 0 then
    let v := writeVersions (p.table tab) (mget p.idx4Pending tab) defer fun t => putEntries t first (idxEntries c)
    { p with idx4 := if defer then p.idx4 else mput p.idx4 tab v.1, idx4Pending := mset p.idx4Pending tab v.2 }
  else
    { p with plans := mmod p.plans c.handle fun q =>
      let v := writeVersions (q.table tab) (mget q.pending tab) defer fun t => putEntries t first (descEntries c)
      { q with tables := if defer then q.tables else mput q.tables tab v.1, pending := mset q.pending tab v.2 } }

/-- The form of a TRANSIENT weight whose handle names no tensor: ATTR, format, group shift and table (log entry 32). -/
def transientForm (h : Nat) : List Nat := (Config.transientForm h ++ [0, 0, 0, 0]).take 4

/-- A command's epochs or direct operation reference the table that a DESC_INVALIDATE names (R232, R234). -/
def refsTable (p : Plot) (inv c : Cmd) : Bool :=
  let runs := c.opcode == 0x22 || c.opcode == 0x31 || c.opcode == 0x32
  if byteAt inv.params 0 = 1 then runs && c.handle == inv.handle
  else
    let uses (h : Nat) : Bool := match mget p.tensors h with
      | some t => t.fmt == 0xE && t.itable == fieldAt inv.params 2 2
      | none => natAt (transientForm h) 1 == 0xE && natAt (transientForm h) 3 == fieldAt inv.params 2 2
    (c.opcode == 0x40 && (matHandle (dirSection c.params)).any uses) ||
      (runs && ((mget p.plans c.handle).map fun q => (declsOf q.img).any fun d => uses d.handle).getD false)

/-- An earlier DESC_INVALIDATE of a table that the command references has not committed (R234). -/
def tableBlocked (s : State) (p : Plot) (c : Cmd) : Bool :=
  s.cmds.any fun d => d.opcode == 0x15 && decide (d.acc < c.acc) && d.plot == c.plot && refsTable p d c

/-! ## Straddling epochs (R235) -/

/-- An epoch or a direct operation of the command is in computation as a TABLE_WRITE publishes a table that it references:
it may have begun, and whether it has is free (log entry 19). -/
def straddles (s : State) (p : Plot) (w c : Cmd) : Bool :=
  byteAt w.params 1 == 0 && fieldAt w.params 6 2 != 0 && c.plot == w.plot && refsTable p w c && mayBegin s c && inOrder s c &&
    !tableBlocked s p c && Config.inComputation c.acc w.acc

/-- The version that a TABLE_WRITE replaces, under its number. -/
def oldVersion (p : Plot) (w : Cmd) : Nat × List (List Byte) :=
  let tab := fieldAt w.params 2 2
  if byteAt w.params 0 = 0 then (64 + tab, (p.table tab).map fun v => toLe 2 v)
  else (tab, ((mget p.plans w.handle).map fun q => q.table tab).getD [])

/-- Straddling commands keep the version that engines may have fetched before the publication. -/
def markStraddles (s : State) (p : Plot) (w : Cmd) : State :=
  { s with cmds := s.cmds.map fun c => if straddles s p w c then { c with olds := c.olds ++ [oldVersion p w] } else c }

/-- TABLE_WRITE (R233, R235, R297): the reply counts the straddling epochs. -/
def execTableWrite (c : CmdRef) (s : State) : Host.Outcome State Fault Refusal :=
  .next (atTurn c 0x14 s fun d => commitAt s d (match plotFor s d with
    | some (n, p) =>
      endCmd ((markStraddles s p d).setPlot n (writeTable p d)) d (Reply.ok (toLe 4 (s.cmds.countP (straddles s p d))) [])
    | none => s))

/-- The version of a table that an engine fetches in an epoch: the published one; in a command that straddled publications of it,
that one or one before (R232, R235). -/
def Cmd.version (c : Cmd) (key eng epoch : Nat) (now : List (List Byte)) : List (List Byte) :=
  match c.olds.filter fun o => o.1 == key with
  | [] => now
  | os => (os.map (·.2) ++ [now]).getD (Config.fetchedVersion c.acc eng epoch % (os.length + 1)) now

/-- The pending version is published whole (R233, R234). -/
def publish (p : Plot) (c : Cmd) : Plot × Bool :=
  let tab := fieldAt c.params 2 2
  if byteAt c.params 0 = 0 then
    match mget p.idx4Pending tab with
    | some t => ({ p with idx4 := mput p.idx4 tab t, idx4Pending := mdel p.idx4Pending tab }, true)
    | none => (p, false)
  else match (mget p.plans c.handle).bind fun q => (mget q.pending tab).map fun t => (q, t) with
    | some (q, t) =>
      ({ p with plans := mput p.plans c.handle { q with tables := mput q.tables tab t, pending := mdel q.pending tab } }, true)
    | none => (p, false)

/-- DESC_INVALIDATE (R234, R298). -/
def execDescInvalidate (c : CmdRef) (s : State) : Host.Outcome State Fault Refusal :=
  .next (atTurn c 0x15 s fun d => match plotFor s d with
    | some (n, p) =>
      if s.cmds.any fun e => decide (e.acc < d.acc) && e.plot == d.plot && refsTable p d e then s
      else commitAt s d (let r := publish p d
        endCmd (s.setPlot n r.1) d (Reply.ok (toLe 1 (if r.2 then 1 else 0)) []))
    | none => s)

end Sys2Proof.Machine
end

