-- ==== Sys2Proof/Machine/Epoch.lean ====
section
/-!
DEFINITION. One plan epoch or chunk step: placement, bindings, steps with their tag actions, the scan layers, the weight
staging it leaves, and what a run's failure is
(R93 to R100, R109 to R122, R192 to R201, R207, R300 to R304, R313, R503).
-/

namespace Sys2Proof.Machine

/-! ## What a run works on -/

/-- The inputs of a run, fixed when its command begins computation (R141, R223). -/
structure RunCtx where
  cmd : Cmd
  plot : Plot
  plan : Plan
  handle : Nat
  sc : List Word
  /-- The engine of each part (R79, R364). -/
  engs : List Nat
  /-- The stream's configuration; unused in a RUN plan. -/
  head : Head

/-- One part in progress: its steps in plan order, the working state on its engine, MXU_LOST by descriptor (R60). -/
structure PartSt where
  eng : Nat
  idx : Nat
  todo : List PStep
  st : OpSt
  lost : Map Nat
  /-- The prefetch schedule of the epoch (R95). -/
  wfu : Wfu
  /-- The tables that the engine has fetched in this epoch: the part's under its number, an IDX4 table under 64 plus its
  number (R232). -/
  cache : Map (List (List Byte))
  /-- The number of the epoch within the command, which tells what its engines fetched (R235). -/
  epoch : Nat
  /-- What the WFU has read in HBM: tensor, first byte and count. -/
  reads : List (Nat × Nat × Nat)

/-- An epoch in progress: its parts, and the image in the stream's shadow slots (R125). -/
structure EpochSt where
  parts : List PartSt
  img : List Byte

/-- How a run fails (R100, R198, R212, R249, R313). -/
inductive RunErr where
  | op (e : Nat) (err : OpErr)
  | image (off : Nat)
  | tensor (h off : Nat)
  | timeout (e : Nat)
  /-- A step that its table or weight no longer fits (log entry 20). -/
  | unfit
  deriving DecidableEq, Repr

def Plan.part (q : Plan) (i : Nat) : Part := partAt q.img i

/-- The union of the flags of the parts (R51), and the sum of their MXU_LOST (R286). -/
def EpochSt.flags (es : EpochSt) : Flags := es.parts.foldl (fun f p => f.union p.st.fl) Flags.zero
def EpochSt.lost (es : EpochSt) : Nat := es.parts.foldl (fun n p => lostAdd n p.st.lost) 0

/-- The state of one part replaced. -/
def putPart (ps : List PartSt) (x : PartSt) : List PartSt := ps.map fun p => if p.idx = x.idx then x else p

/-! ## Weights (R92, R96, R231, R250) -/

/-- The TRANSIENT images of one pass or chunk step, by layer. -/
def transientImages (q : Plan) (bs : List Byte) : Map (List Byte) :=
  ((transientLayers q).foldl (fun (st : Nat × Map (List Byte)) x => (st.1 + x.2, mput st.2 x.1 (slice bs st.1 x.2))) (0, [])).2

/-- The weight declaration of a handle. -/
def weightDecl (q : Plan) (h : Nat) : Option Decl := (declsOf q.img).find? fun d => d.handle == h && d.role == 0

/-- The TRANSIENT layer that carries a handle's bytes. -/
def transientLayerOf (q : Plan) (h : Nat) : Option Nat :=
  ((transientLayers q).find? fun x => (declAt q.img (layerAt q.img x.1).wdecl).handle == h).map (·.1)

/-- A TRANSIENT weight: the payload's image in the form of the tensor present under its handle, or in a free form with
the K and N of its operation. -/
def transientTensor (p : Plot) (d : Decl) (bs : List Byte) (k n : Nat) : Tensor :=
  let form := match mget p.tensors d.handle with
    | some t => [t.attr, t.fmt, t.gshift, t.itable, t.c0, t.c1, t.c2, t.c3]
    | none => transientForm d.handle ++ [k, n, 1, 1]
  let attr := natAt form 0 % 4 + (if d.compressed then 4 else 0) + 8 * (natAt form 0 / 8)
  { attr := attr, fmt := natAt form 1, gshift := natAt form 2, itable := natAt form 3, c0 := natAt form 4, c1 := natAt form 5,
    c2 := natAt form 6, c3 := natAt form 7, img := bs, bad := [], home := none, stamp := 0, lost := 0 }

/-- The form of the weight of a handle, for an operation of K and N (R92, R250). -/
def weightForm (x : RunCtx) (tr : Map (List Byte)) (k n h : Nat) : Option Tensor :=
  match weightDecl x.plan h with
  | none => none
  | some d => match (transientLayerOf x.plan h).bind (mget tr) with
    | some bs => some (transientTensor x.plot d bs k n)
    | none => mget x.plot.tensors h

/-- The buffers that hold a handle's decoded bytes now: filled and not yet released (R93). -/
def Wfu.segs (w : Wfu) (h : Nat) : List (Nat × Nat × Nat) :=
  (w.sched.filter fun f => f.handle == h && f.done && !f.freed).map fun f => (f.off, f.bytes.length, f.addr)

/-- A table as the engine has fetched it in this epoch, or as it fetches it now (R232, R233, R235). -/
def PartSt.fetched (p : PartSt) (x : RunCtx) (key : Nat) (now : List (List Byte)) : List (List Byte) :=
  (mget p.cache key).getD (x.cmd.version key p.eng p.epoch now)

/-- An IDX4 table as the engine reads it. -/
def PartSt.idx4 (p : PartSt) (x : RunCtx) (i : Nat) : List Nat :=
  (p.fetched x (64 + i) ((x.plot.table i).map fun v => toLe 2 v)).map leNat

/-- The descriptor table as the engine reads it. -/
def PartSt.table (p : PartSt) (x : RunCtx) : DescTab := p.fetched x p.idx (x.plan.table p.idx)

/-- The weight that the expander reads for a handle in an operation of K and N: the staging buffers of the part (R92, R93). -/
def runWeight (x : RunCtx) (tr : Map (List Byte)) (p : PartSt) (k n h : Nat) : Option Weight :=
  (weightForm x tr k n h).map fun t => { handle := h, shape := t.shape, src := .staged (p.wfu.segs h), table := p.idx4 x t.itable }

/-- The source tensor of a gather step (R314). -/
def runSource (x : RunCtx) (st : PStep) : Option Weight :=
  if st.kind = 0x44 && fieldAt st.body 0 2 = 0xFFFF then
    let h := (declAt x.plan.img (fieldAt st.body 16 2)).handle
    (mget x.plot.tensors h).bind fun t => if t.compressed then none else some (t.weight h [])
  else none

/-! ## The prefetch schedule of an epoch (R93 to R98, R247, R248) -/

/-- What an entry's source gives: a tensor of the plot, or a layer's image in the payload (R94, R96). -/
def pfSource (x : RunCtx) (tr : Map (List Byte)) (e : List Byte) : Option Tensor :=
  let d := pfDecl x.plan.img e
  if byteAt e 0 = 1 then (mget tr (fieldAt e 2 2)).map fun bs => transientTensor x.plot d bs 0 0
  else mget x.plot.tensors d.handle

/-- The stored bytes that the WFU reads for an entry: of a compressed tensor the header, and the index entry and the whole of
each block that the entry covers (R247). -/
def pfReads (t : Tensor) (off n : Nat) : List (Nat × Nat) :=
  if t.compressed then
    (0, 64) :: (((List.range (ceilDiv n 4096)).map (off / 4096 + ·)).filter (decide <| · < wNblk t.img)).flatMap fun j =>
      [(64 + 4 * j, 4), (wOff t.img j, (wBlock t.img j).length)]
  else [(off, n)]

/-- One entry of the schedule, with what it delivers: poison covers the slot of a damaged block, and of an uncompressed tensor
the granules that damaged words fill (R100, R248). Without its source it cannot issue. -/
def pfEntry (x : RunCtx) (tr : Map (List Byte)) (pt : Part) (e : List Byte) : PfEntry :=
  let h := (pfDecl x.plan.img e).handle
  let buf := ((pt.bufs x.plan.img).drop (fieldAt e 20 2)).head?.getD (0, 0)
  let addr := 4096 * buf.1
  let blank : PfEntry :=
    { bytes := [], poison := [], malformed := false, handle := h, off := fieldAt e 8 8, reads := [], addr := addr, slotFirst := buf.1,
      slotCount := buf.2, issued := false, done := false, freed := false, issueStep := pt.nstep + 1, release := fieldAt e 24 2 }
  match pfSource x tr e with
  | none => blank
  | some t =>
    let off := (pfSpan x.plan.img e).1
    let len := if t.compressed then roundUp (fieldAt e 16 4) 4096 else fieldAt e 16 4
    let d := t.decoded
    let raw := (d.1.drop off).take len
    let hurt := d.2.filter fun (b : Nat × Nat × Bool) => decide (b.1 < off + len) && decide (off < b.1 + b.2.1)
    let gran (b : Nat × Nat × Bool) : List Nat :=
      if t.compressed then
        (List.range (256 * ceilDiv (min (b.1 + b.2.1) (off + len) - max b.1 off) 4096)).map fun k => (addr + (max b.1 off - off) / 4096 * 4096) / 16 + k
      else granulesOf (addr + (max b.1 off - off)) (min (b.1 + b.2.1) (off + len) - max b.1 off)
    { blank with
      bytes := if t.compressed then padTo 4096 raw else raw
      poison := (hurt.flatMap gran).eraseDups
      malformed := hurt.any (·.2.2)
      reads := if byteAt e 0 = 0 then pfReads t off len else []
      issueStep := if byteAt e 1 = 1 then 0 else 1 + fieldAt e 22 2 }

/-- The schedule of a part for one epoch (R94). -/
def partSchedule (x : RunCtx) (tr : Map (List Byte)) (i : Nat) : List PfEntry :=
  ((x.plan.part i).pfs x.plan.img).map (pfEntry x tr (x.plan.part i))

/-- What was issued and delivered ahead stays so while the plan stays on the engine (R97). -/
def resumeSchedule (old new : List PfEntry) : List PfEntry :=
  new.zipIdx.map fun q => match old[q.2]? with
    | some f => if f.issued then { f with release := q.1.release } else q.1
    | none => q.1

/-- The decoded bytes of an entry in its buffer: one store for each transfer block, poison where its source was damaged,
and its slots full (R93, R100, R248, R505). -/
def deliver (p : PfEntry) (sp : Spad) : Spad × Trace :=
  let r := sp.storeAll (rangeStores p.addr p.bytes)
  let q := { r.1 with gran := p.poison.foldl (fun (m : Map GState) g => mput m g .poisoned) r.1.gran }
  (q.setTags true p.slotFirst p.slotCount, r.2)

/-- Entry `i` of a part's schedule issued and complete. -/
def PartSt.delivered (p : PartSt) (i : Nat) (f : PfEntry) : PartSt :=
  let d := deliver f p.st.sp
  { p with
    st := { p.st with sp := d.1, tr := p.st.tr.append d.2 }
    wfu := { p.wfu with sched := p.wfu.sched.set i { f with issued := true, done := true } }
    reads := p.reads ++ f.reads.map fun r => (f.handle, r.1, r.2) }

/-- The next entry issues and completes, when its issue point is reached and its buffer is empty (R95). -/
def PartSt.pump (p : PartSt) : Option PartSt :=
  match p.wfu.sched[p.wfu.nextEntry]? with
  | some f =>
    if decide (f.issueStep ≤ p.wfu.step) && p.st.sp.tagsAre false f.slotFirst f.slotCount then
      let q := p.delivered p.wfu.nextEntry f
      some { q with wfu := { q.wfu with nextEntry := p.wfu.nextEntry + 1 } }
    else none
  | none => none

/-- The buffers whose release step is complete return to empty, whether a step consumed them or not (R93, R94, R100). -/
def PartSt.release (p : PartSt) : PartSt :=
  let due (f : PfEntry) : Bool := f.done && !f.freed && !(p.todo.any fun s => s.no == f.release)
  { p with
    st := { p.st with sp := (p.wfu.sched.filter due).foldl (fun (sp : Spad) f => sp.setTags false f.slotFirst f.slotCount) p.st.sp }
    wfu := { p.wfu with sched := p.wfu.sched.map fun f => if due f then { f with freed := true } else f } }

/-- The WFU goes on as far as it can. -/
def PartSt.settle : Nat → PartSt → PartSt
  | 0, p => p.release
  | n + 1, p => match p.release.pump with
    | some q => PartSt.settle n q
    | none => p.release

/-- A step starts: its issue point is reached, and the tables that it references are fetched (R94, R232). -/
def PartSt.started (x : RunCtx) (p : PartSt) (st : PStep) : PartSt :=
  let c0 := if st.kind = 0x80 || st.kind = 0x82 then p.cache else mput p.cache p.idx (p.table x)
  let c1 := match stepWeight st with
    | some h =>
      let form := match mget x.plot.tensors h with
        | some t => (t.fmt, t.itable)
        | none => (natAt (transientForm h) 1, natAt (transientForm h) 3)
      if form.1 = 0xE then mput c0 (64 + form.2) ((p.idx4 x form.2).map fun v => toLe 2 v) else c0
    | none => c0
  PartSt.settle (p.wfu.sched.length + 1) { p with cache := c1, wfu := { p.wfu with step := max p.wfu.step (st.no + 1) } }

/-- K and N of a step that the weight feeds (R312). -/
def stepKn (t : DescTab) (st : PStep) : Nat × Nat :=
  let countOf (o : Nat) : Nat := ((tabAt t (fieldAt st.body o 2)).map fun b => (descOf b).count 0).getD 0
  (countOf 0, countOf 4)

/-- Once the step has started, its weight stands in full buffers: the MA waits until then (R93, R102). -/
def fed (x : RunCtx) (tr : Map (List Byte)) (p : PartSt) (st : PStep) : Bool :=
  match stepWeight st with
  | none => true
  | some h =>
    let q := p.started x st
    let kn := stepKn (q.table x) st
    match weightForm x tr kn.1 kn.2 h with
    | none => true
    | some t => t.shape.needs.all (stagedCovers (q.wfu.segs h))

/-! ## The scan layers (R106 to R122) -/

/-- The stored format of a state value (R108). -/
def stateSpec (h : Head) : FloatSpec := if h.rn then specBf16 else if h.stf = 0 then specFp32 else if h.stf = 1 then specFp16 else specBf16

def Head.modes (h : Head) : Modes := ⟨h.sat, h.canon, false⟩

/-- First state column and first channel of a layer (R123). -/
def layerCols (plan : List Byte) (li : Nat) : Nat := (((List.range li).map (layerAt plan)).map fun y => if y.scan then y.d * y.s else 0).sum
def layerChans (plan : List Byte) (li : Nat) : Nat := (((List.range li).map (layerAt plan)).map fun y => if y.scan then y.d else 0).sum

/-- A channel's offset in an image: 0 under ACT (R113, R120). -/
def chanOffset (h : Head) (plan img : List Byte) (ch : Nat) : Int :=
  if h.rn then signed 8 (byteAt img (4096 + secState h plan + ch)) else 0

def stateVal (h : Head) (img : List Byte) (col : Nat) : Val :=
  readFloat (stateSpec h) h.sat (fieldAt img (4096 + col * stateWidth h) (stateWidth h))

/-- The states of one layer after each real position: one list for each column (R113, R118). -/
def layerStates (h : Head) (plan img : List Byte) (n li : Nat) (a b : Desc) : OpM (List (List Val)) :=
  let ly := layerAt plan li
  let sf := (a.fmt.float).getD specBf16
  opMap (fun j => do
    let as ← opElems h.sat a ((List.range n).map fun i => [i, j / ly.w, 0, 0])
    let bs ← opElems h.sat b ((List.range n).map fun i => [i, j, 0, 0])
    liftNum (scanColumn h.modes sf h.l n (as.map Sv.val) (bs.map Sv.val) (stateVal h img (layerCols plan li + j))
      (chanOffset h plan img (layerChans plan li + j / ly.s)))) (List.range (ly.d * ly.s))

/-- The outputs of one layer for its real positions (R115). -/
def layerOutputs (h : Head) (plan img : List Byte) (n li : Nat) (c : Desc) (g : List (List Val)) :
    OpM (List (List Nat × Res)) := do
  let ly := layerAt plan li
  let rows ← opMap (fun i => do
    let cs ← opElems h.sat c ((List.range ly.s).map fun s => [s, i, 0, 0])
    opMap (fun d => do
      let gs := ((g.drop (d * ly.s)).take ly.s).map fun col => valAt col i
      let r ← liftNum (scanOutput h.modes (chanOffset h plan img (layerChans plan li + d)) (cs.map Sv.val) gs)
      return ([d, i, 0, 0], match r with
        | some v => Res.val v
        | none => .keep)) (List.range ly.d)) (List.range n)
  return rows.flatten

/-- A scan-layer step over `n` real positions: y is written and the new state goes into the shadow image (R119, R120). -/
def scanStep (h : Head) (plan img : List Byte) (nt : Bool) (n li : Nat) (a b c y : Desc) : OpM (List Byte) := do
  let g ← layerStates h plan img n li a b
  let ys ← layerOutputs h plan img n li c g
  opResults nt 256 y h.modes ys
  let new ← liftNum (numMap (fun p => do
    let v ← roundTo (stateSpec h) h.modes (valAt p (n - 1))
    return encodeFloat (stateSpec h) v) g)
  return overwrite img (4096 + layerCols plan li * stateWidth h) (new.flatMap (toLe (stateWidth h)))

/-- RENORMALISE (R121, R122): every channel of every scan layer. -/
def renormChans (h : Head) (plan : List Byte) (s : Nat) (col ch : Nat) : Nat → List Byte → Num (List Byte)
  | 0, img => return img
  | n + 1, img => do
    let vs := (List.range s).map fun j => stateVal h img (col + j)
    let r ← renormalise h.modes vs (chanOffset h plan img ch)
    let img1 := overwrite img (4096 + 2 * col) (r.1.flatMap fun v => toLe 2 (encodeFloat specBf16 v))
    let img2 := overwrite img1 (4096 + secState h plan + ch) (toLe 1 (unsignedCode 8 r.2))
    renormChans h plan s (col + s) (ch + 1) n img2

def renormLayers (h : Head) (plan : List Byte) : List Layer → Nat → Nat → List Byte → Num (List Byte)
  | [], _, _, img => return img
  | y :: r, col, ch, img => do
    let img1 ← renormChans h plan y.s col ch y.d img
    renormLayers h plan r (col + y.d * y.s) (ch + y.d) img1

/-- The boundary counter after a chunk step (R121). -/
def nextK (h : Head) : Nat := if h.rn then (if h.period ≤ h.k + 1 then 0 else h.k + 1) else 0

/-! ## Steps -/

/-- The units of an engine that R301 numbers for a barrier; the Mover is 5 and no barrier waits for it. -/
def stepUnit (kind : Nat) : Nat :=
  match kind with
  | 0x40 => 0
  | 0x43 => 2
  | 0x81 => 3
  | 0x82 => 5
  | 0x80 => 6
  | _ => 1

/-- The part whose slots a tag action names (R301). -/
def tagHome (i : Nat) (st : PStep) (opd : Nat) : Nat := if st.kind = 0x82 && opd = 0 then byteAt st.body 8 else i

def partOf (ps : List PartSt) (i : Nat) : Option PartSt := ps.find? fun p => p.idx = i

/-- Every acquire of a step is satisfied (R192, R194). -/
def acquired (es : EpochSt) (i : Nat) (st : PStep) : Bool :=
  st.tags.all fun (act, opd, first, count) => match partOf es.parts (tagHome i st opd) with
    | some p => if act < 2 then p.st.sp.tagsAre (act == 0) first count else true
    | none => true

/-- The releases of a step (R192, R193). -/
def released (es : EpochSt) (i : Nat) (st : PStep) : EpochSt :=
  st.tags.foldl (fun (x : EpochSt) t => match partOf x.parts (tagHome i st t.2.1) with
    | some p =>
      if 2 ≤ t.1 then
        { x with parts := putPart x.parts { p with st := { p.st with sp := p.st.sp.setTags (t.1 == 2) t.2.2.1 t.2.2.2 } } }
      else x
    | none => x) es

/-- The first step of a part that may start: its unit's earlier steps and every earlier barrier are done, its acquires are
satisfied and its weight is staged; a barrier waits for earlier steps of its units (R102, R139, R194, R207). Of several steps
that nothing orders, the first in plan order takes effect first (R205; DESIGN CHOICE, log entry 85). -/
def firstEnabled (x : RunCtx) (tr : Map (List Byte)) (es : EpochSt) (p : PartSt) : List PStep → List Nat → Option PStep
  | [], _ => none
  | st :: rest, busy =>
    let u := stepUnit st.kind
    if st.kind = 0x80 then
      if busy.all fun b => !(b < 5 && bitOf st.units b) then some st else none
    else if !busy.contains u && acquired es p.idx st && fed x tr p st then some st
    else firstEnabled x tr es p rest (u :: busy)

/-- The first step of any part that may start, in plan order over the parts (log entry 85). -/
def nextStep (x : RunCtx) (tr : Map (List Byte)) (es : EpochSt) : List PartSt → Option (PartSt × PStep)
  | [] => none
  | p :: rest => match firstEnabled x tr es p p.todo [] with
    | some st => some (p, st)
    | none => nextStep x tr es rest

/-- MXU_LOST of a descriptor's writes added up (R60). -/
def addLost (p : PartSt) (ds : List Nat) (before : Nat) : PartSt :=
  { p with lost := ds.foldl (fun m d => mput m d (lostAdd ((mget m d).getD 0) (p.st.lost - before))) p.lost }

/-- An operation of one step on its part; the descriptors it writes take its MXU_LOST. -/
def opOn {α : Type} (p : PartSt) (ds : List Nat) (m : OpM α) : Except OpErr α × PartSt :=
  let r := m p.st
  (r.1, addLost { p with st := r.2 } ds p.st.lost)

/-- The records of an OP_VECTOR step in order (R139). -/
def recordsOn (t : DescTab) (iah nt : Bool) (sc : List Word) : List (List Byte) → PartSt → Except OpErr Unit × PartSt
  | [], p => (.ok (), p)
  | r :: rs, p =>
    let x := opOn p [fieldAt r 4 2] (runRecords t iah sc nt [r])
    match x.1 with
    | .ok _ => recordsOn t iah nt sc rs x.2
    | .error e => (.error e, x.2)

/-- A poisoned granule of a staging buffer that a run read is the weight's own damage (R98, R100, Table 6 of R249). -/
def weightErr (w : Wfu) (err : OpErr) : OpErr :=
  match err with
  | .uncorrectable a =>
    match w.sched.find? fun p => p.done && !p.freed && p.poison.contains (a / 16) with
    | some p => if p.malformed then .blockCheck p.handle p.off else .hbmWord p.handle p.off
    | none => err
  | _ => err

/-- The effect of one step of a direct operation's kind (R301). None is a step that its table or weight does not fit. -/
def kindOn (x : RunCtx) (tr : Map (List Byte)) (t : DescTab) (p : PartSt) (st : PStep) : Option (Except OpErr Unit × PartSt) :=
  let iah := bitOf (planFlags x.plan.img) 1
  let one {α : Type} (m : OpM α) : Except OpErr Unit × PartSt :=
    let r := opOn p (stepDests st) m
    (r.1.map fun _ => (), r.2)
  let kn := stepKn t st
  match st.kind with
  | 0x40 => (matmulOf t ((stepWeight st).bind (runWeight x tr p kn.1 kn.2)) st.body).map fun o => one (runMatmul o iah x.sc st.nt)
  | 0x41 => some (recordsOn t iah st.nt x.sc (chunks 16 256 st.body) p)
  | 0x43 => (selectOf t st.body).map fun o => one (runSelect o st.nt)
  | 0x44 => (gatherOf t (runSource x st) st.body).map fun o => one (runGather o st.nt)
  | 0x45 => some (recordsOn t iah st.nt x.sc [st.body] p)
  | 0x46 => (rmsOf t st.body).map fun o => one (runRms o iah st.nt)
  | _ => some (one (pure ()))

/-- The combining buffer leaves at a barrier and at the end of the epoch (R207, R210). -/
def drainOp (s : OpSt) : OpSt := let r := s.sp.drain; { s with sp := r.1, tr := s.tr.append r.2 }

/-- A cross-part move by the Mover (R301, R505). -/
def crossMove (es : EpochSt) (p : PartSt) (st : PStep) : EpochSt × Option RunErr :=
  let r := opRead (fieldAt st.body 0 4) (fieldAt st.body 4 4) p.st
  let src := { p with st := r.2 }
  let es1 := { es with parts := putPart es.parts src }
  match r.1 with
  | .error e => (es1, some (.op p.eng e))
  | .ok bs => match partOf es1.parts (byteAt st.body 8) with
    | none => (es1, some .unfit)
    | some d => ({ es1 with parts := putPart es1.parts { d with st := (opStores false (rangeStores (fieldAt st.body 12 4) bs) d.st).2 } }, none)

/-- One scan-layer step of a part. -/
def scanOn (x : RunCtx) (n : Nat) (t : DescTab) (es : EpochSt) (p : PartSt) (st : PStep) : EpochSt × Option RunErr :=
  let d (k : Nat) : Option Desc := (tabAt t (fieldAt st.body k 2)).map descOf
  match d 2, d 4, d 6, d 8 with
  | some a, some b, some c, some y =>
    let r := opOn p (stepDests st) (scanStep x.head x.plan.img es.img st.nt n (fieldAt st.body 0 2) a b c y)
    let es1 := { es with parts := putPart es.parts r.2 }
    match r.1 with
    | .ok img => ({ es1 with img := img }, none)
    | .error e => (es1, some (.op p.eng e))
  | _, _, _, _ => (es, some .unfit)

/-- The step still fits its table and weight (R233, log entry 20). -/
def stepFits (x : RunCtx) (t : DescTab) (p : PartSt) (st : PStep) : Bool :=
  let pt := x.plan.part p.idx
  match st.kind with
  | 0x80 => true
  | 0x81 => scanStepBad x.plan.img pt t st == []
  | 0x82 => true
  | _ => stepBodyBad x.plot x.plan.img pt t (bitOf (planFlags x.plan.img) 1) st == []

/-- A step of a part is complete: the buffers released at it are empty again, and the WFU goes on (R93, R94). -/
def EpochSt.complete (es : EpochSt) (i : Nat) (st : PStep) : EpochSt :=
  { es with parts := es.parts.map fun p => if p.idx = i then
      PartSt.settle (p.wfu.sched.length + 1) { p with todo := p.todo.filter fun s => !(s.no == st.no) } else p }

/-- One step of a part runs whole. -/
def runStep (x : RunCtx) (tr : Map (List Byte)) (n : Nat) (es : EpochSt) (p : PartSt) (st : PStep) : EpochSt × Option RunErr :=
  let p1 := p.started x st
  let t := p1.table x
  let es1 := { es with parts := putPart es.parts p1 }
  if !stepFits x t p st then (es, some .unfit)
  else
    let r : EpochSt × Option RunErr := match st.kind with
      | 0x80 => ({ es1 with parts := putPart es1.parts { p1 with st := drainOp p1.st } }, none)
      | 0x81 => scanOn x n t es1 p1 st
      | 0x82 => crossMove es1 p1 st
      | _ => match kindOn x tr t p1 st with
        | none => (es1, some .unfit)
        | some k => ({ es1 with parts := putPart es1.parts k.2 }, match k.1 with
          | .ok _ => none
          | .error e => some (.op p.eng (weightErr p1.wfu e)))
    match r.2 with
    | some e => (r.1, some e)
    | none => (released (r.1.complete p.idx st) p.idx st, none)

/-- A step of the part waits for an acquire (R198). -/
def acquireWaits (es : EpochSt) (p : PartSt) : Bool := p.todo.any fun st => !acquired es p.idx st

/-- Steps run while one may start; when none may and some wait, an acquire is never satisfied (R198, R199). -/
def runSteps (x : RunCtx) (tr : Map (List Byte)) (n : Nat) : Nat → EpochSt → EpochSt × Option RunErr
  | 0, es => (es, none)
  | m + 1, es => match nextStep x tr es es.parts with
    | some (p, st) =>
      let r := runStep x tr n es p st
      match r.2 with
      | some e => (r.1, some e)
      | none => runSteps x tr n m r.1
    | none => (es, match es.parts.find? (acquireWaits es) with
      | some p => some (.timeout p.eng)
      | none => if es.parts.any fun p => !p.todo.isEmpty then some .unfit else none)

/-! ## Bindings (R302, R304, R313) -/

/-- The bytes of an IN binding: from the input block, or from a tensor as it stood when the command began (R223). -/
def bindBytes (x : RunCtx) (b : List Byte) (block : List Byte) (off n : Nat) : Except RunErr (List Byte) :=
  if byteAt b 3 = 0 then .ok (slice block off n)
  else
    let h := fieldAt b 4 4
    match mget x.plot.tensors h with
    | none => .error .unfit
    | some t =>
      if t.compressed || t.img.length < fieldAt b 8 8 + n then .error .unfit
      else match t.readBad (fieldAt b 8 8) n with
        | some a => .error (.tensor h a)
        | none => .ok (slice t.img (fieldAt b 8 8) n)

/-- The IN bindings of one part. A binding of KIND 0 reads byte OFFSET of the pass's payload or of the chunk's input block (R302,
R313). -/
def fillPart (x : RunCtx) (block : List Byte) : List (List Byte) → PartSt → PartSt × Option RunErr
  | [], p => (p, none)
  | b :: rest, p =>
    if byteAt b 2 != 0 then fillPart x block rest p
    else match (tabAt (p.table x) (fieldAt b 0 2)).map descOf with
      | none => (p, some .unfit)
      | some d => match bindBytes x b block (fieldAt b 8 8) d.streamBytes with
        | .error e => (p, some e)
        | .ok bs => fillPart x block rest { p with st := (opStores false (unpackStores d bs) p.st).2 }

def fillParts (x : RunCtx) (block : List Byte) : List PartSt → List PartSt × Option RunErr
  | [] => ([], none)
  | p :: rest =>
    let r := fillPart x block ((x.plan.part p.idx).bindings x.plan.img) p
    match r.2 with
    | some e => (r.1 :: rest, some e)
    | none => let t := fillParts x block rest; (r.1 :: t.1, t.2)

/-- A write of an OUT binding to a tensor. -/
structure OutWrite where
  handle : Nat
  off : Nat
  bytes : List Byte
  lost : Nat
  deriving DecidableEq, Repr

/-- What the OUT bindings of an epoch give: reply or output block bytes, and tensor writes. -/
structure OutSt where
  block : List Byte
  writes : List OutWrite
  deriving DecidableEq, Repr

/-- The OUT bindings of one part. -/
def packPart (x : RunCtx) : List (List Byte) → OutSt → PartSt → PartSt × OutSt × Option RunErr
  | [], o, p => (p, o, none)
  | b :: rest, o, p =>
    if byteAt b 2 != 1 then packPart x rest o p
    else match (tabAt (p.table x) (fieldAt b 0 2)).map descOf with
      | none => (p, o, some .unfit)
      | some d =>
        let r := opPack d p.st
        let q := { p with st := r.2 }
        match r.1 with
        | .error e => (q, o, some (.op p.eng e))
        | .ok bs =>
          let lost := if d.mx then (mget p.lost (fieldAt b 0 2)).getD 0 else 0
          let o' := if byteAt b 3 = 0 then { o with block := o.block ++ padTo 16 bs }
            else { o with writes := o.writes ++ [⟨fieldAt b 4 4, fieldAt b 8 8, bs, lost⟩] }
          packPart x rest o' q

def packParts (x : RunCtx) : List PartSt → OutSt → List PartSt × OutSt × Option RunErr
  | [], o => ([], o, none)
  | p :: rest, o =>
    let r := packPart x ((x.plan.part p.idx).bindings x.plan.img) o p
    match r.2.2 with
    | some e => (r.1 :: rest, r.2.1, some e)
    | none => let t := packParts x rest r.2.1; (r.1 :: t.1, t.2)

/-! ## One epoch -/

/-- Slot numbers of ranges. -/
def slotList (rs : List (Nat × Nat)) : List Nat := rs.flatMap fun r => (List.range r.2).map (r.1 + ·)

/-- The parts of slot ranges outside the staging area. -/
def outsideStaging (pt : Part) (rs : List (Nat × Nat)) : List (Nat × Nat) :=
  let lo := pt.staging.1
  let hi := pt.staging.1 + pt.staging.2
  rs.flatMap fun r => [(r.1, min (r.1 + r.2) lo - r.1), (max r.1 hi, r.1 + r.2 - max r.1 hi)]

/-- Tags of a part's footprint, other than those of the staging area, set empty (R195, R198). -/
def emptyFoot (img : List Byte) (pt : Part) (sp : Spad) : Spad :=
  (outsideStaging pt (pt.foot img)).foldl (fun (sp : Spad) r => sp.setTags false r.1 r.2) sp

/-- The start of an epoch on an engine: the tags and the descriptor cache are empty (R195, R232), and the schedule stands,
with what was fetched ahead (R95, R97). -/
def startPart (x : RunCtx) (tr : Map (List Byte)) (p : PartSt) : PartSt :=
  let pt := x.plan.part p.idx
  let sched := resumeSchedule p.wfu.sched (partSchedule x tr p.idx)
  let q : PartSt :=
    { p with
      todo := pt.steps x.plan.img
      cache := []
      epoch := p.epoch + 1
      wfu := { p.wfu with sched := sched, step := 0, plan := some x.handle }
      st := { p.st with sp := emptyFoot x.plan.img pt p.st.sp } }
  let late := sched.zipIdx.filter fun f => f.1.issued && !f.1.done
  PartSt.settle (sched.length + 1) (late.foldl (fun (r : PartSt) f => r.delivered f.2 f.1) q)

/-- The end of an epoch on an engine: the combining buffer leaves, and the next epoch begins the schedule anew (R95, R210). -/
def endPart (p : PartSt) : PartSt := { p with st := drainOp p.st, wfu := Wfu.clear }

/-- One plan epoch or chunk step (R111, R302): the plan's image is read (R357), then IN bindings, steps,
OUT bindings, and the drain that ends it. `n` counts the real positions of a chunk step. -/
def runEpoch (x : RunCtx) (n : Nat) (block : List Byte) (tr : Map (List Byte)) (es : EpochSt) :
    EpochSt × OutSt × Option RunErr :=
  let ps := es.parts.map (startPart x tr)
  let f := match x.plan.readBad with
    | some o => (ps, some (RunErr.tensor x.handle o))
    | none => fillParts x block ps
  let es1 := { es with parts := f.1 }
  match f.2 with
  | some e => (es1, ⟨[], []⟩, some e)
  | none =>
    let total := (es1.parts.map fun p => p.todo.length).sum
    let r := runSteps x tr n (total + 1) es1
    match r.2 with
    | some e => (r.1, ⟨[], []⟩, some e)
    | none =>
      let o := packParts x (r.1.parts.map endPart) ⟨[], []⟩
      ({ r.1 with parts := o.1 }, o.2.1, o.2.2)

/-! ## Starting and ending a run -/

/-- An engine as a run of a plan finds it: buffers that another plan filled are empty (R97). -/
def Engine.forPlan (e : Engine) (h : Nat) : Engine := if e.wfu.plan == some h then e else clearWfu e

/-- The parts of a run on their engines. -/
def startParts (s : State) (x : RunCtx) : List PartSt :=
  x.engs.zipIdx.map fun q =>
    let e := (s.eng q.1).forPlan x.handle
    { eng := q.1, idx := q.2, todo := [], st := opStart e.spad, lost := [], wfu := e.wfu, cache := [], epoch := 0, reads := [] }

/-- Preparation of a run on engines that are not ready yet (step 3 of R33): the schedule of its first epoch stands, and entries
whose issue point is step 0 may issue (log entry 82). -/
def prefetchFirst (s : State) (x : RunCtx) (tr : Map (List Byte)) : State :=
  x.engs.zipIdx.foldl (fun (t : State) q => t.modEng q.1 fun e =>
    let y := e.forPlan x.handle
    { y with wfu := { y.wfu with sched := resumeSchedule y.wfu.sched (partSchedule x tr q.2), step := 1, plan := some x.handle } }) s

/-- A run leaves an engine: its scratchpad, what its accesses found, its cache, and the schedule of the plan's next epoch. After
a failure every buffer that it filled is empty (R97); the combining buffer leaves with the epoch in any case (R210). -/
def leavePart (s : State) (x : RunCtx) (ok : Bool) (p : PartSt) : State :=
  let pt := x.plan.part p.idx
  let st := drainOp p.st
  let t := s.modEng p.eng fun e =>
    let y : Engine := { e with spad := st.sp, footprint := pt.foot x.plan.img, descCache := p.cache, wfu := p.wfu }
    if ok then { y with wfu := { sched := partSchedule x [] p.idx, nextEntry := 0, step := 0, plan := some x.handle } } else clearWfu y
  countSteps (touchEngine (applyTrace t x.cmd.plot p.eng (some x.cmd) st.tr) p.eng) p.eng p.st.steps

def leaveParts (s : State) (x : RunCtx) (ok : Bool) (ps : List PartSt) : State :=
  ps.foldl (fun t p => leavePart t x ok p) s

/-- SLOT_TIMEOUT empties the tags of the epoch's footprint outside the staging area (R198). -/
def emptyTags (x : RunCtx) (ps : List PartSt) : List PartSt :=
  ps.map fun p => { p with st := { p.st with sp := emptyFoot x.plan.img (x.plan.part p.idx) p.st.sp } }

/-- A failing byte of a TRANSIENT image is the payload's own (Table 6 of R249). -/
def isTransientErr (x : RunCtx) : RunErr → Bool
  | .op _ (.blockCheck h _) => (transientLayerOf x.plan h).isSome
  | _ => false

/-- The record of a run's failure (R376). -/
def runRecord (x : RunCtx) : RunErr → Option Rec
  | .op e err => if isTransientErr x (.op e err) then none else errRecord e x.cmd err
  | .image off => some (cmdEvent 0x0002 0 0x10 0 (x.cmd.stream * 2 ^ 52 + off) x.cmd)
  | .tensor h off => some (cmdEvent 0x0002 0 0x11 0 (hbmAddr h off) x.cmd)
  | _ => none

/-- The status of a run's failure (R100, R198, R212, R249). -/
def runReply (x : RunCtx) : RunErr → Reply
  | .op e err => if isTransientErr x (.op e err) then Reply.badParam noField else errReply err
  | .image _ => Reply.bare .uncorrectableData
  | .tensor _ _ => Reply.bare .uncorrectableData
  | .timeout _ => Reply.bare .slotTimeout
  | .unfit => Reply.badParam noField

/-- A run ends without reaching its commit point (R97, R126). -/
def failRun (s : State) (x : RunCtx) (es : EpochSt) (e : RunErr) : State :=
  let ps := match e with
    | .timeout _ => emptyTags x es.parts
    | _ => es.parts
  let t := leaveParts s x false ps
  let u := match runRecord x e with
    | some r => addRecord t x.cmd.plot r
    | none => t
  failCmd u x.cmd (runReply x e)

/-- Tensor writes of a run at its commit point (R223). -/
def commitWrites (s : State) (c : Cmd) (plot : Nat) (ws : List OutWrite) : State :=
  ws.foldl (fun (t : State) w => match (mget t.plots plot).bind fun p => mget p.tensors w.handle with
    | none => t
    | some x =>
      let u := noteTensorWrite t c w.handle x w.off w.bytes.length
      setTensor u plot w.handle { x.write w.off w.bytes with lost := w.lost }) s

end Sys2Proof.Machine
end

