-- ==== Sys2Proof/Machine/Runs.lean ====
section
/-!
DEFINITION. PLAN_LOAD, PLAN_UNLOAD and PLAN_RUN (R96, R97, R126, R199, R229 to R235, R286, R299 to R304, R364).
-/

namespace Sys2Proof.Machine

/-! ## PLAN_LOAD (R229, R230, R299, R300) -/

/-- ROLE 1 tensors created with every byte 0x00 (R230, R300). -/
def workTensors (clock : Nat) (ds : List Decl) (m : Map Tensor) : Map Tensor :=
  ds.foldl (fun m d => if d.role = 1 then mput m d.handle (rawTensor 1 (zeros (roundUp d.ssize 16)) clock) else m) m

/-- The TRANSIENT list of PLAN_LOAD (R299). -/
def loadExtra (c : Cmd) : List Nat := (List.range (fieldAt c.params 8 2)).map fun i => fieldAt c.params (16 + 2 * i) 2

/-- The plan that a PLAN_LOAD makes: its reservations stand since its acceptance (R230). -/
def planOf (c : Cmd) : Plan :=
  { img := c.payload, extra := loadExtra c, tables := [], pending := [], reserved := c.reserved, pages := planOwnPages c.payload,
    bad := [] }

/-- PLAN_LOAD (R230): the plan and its working tensors exist from the commit point. -/
def execPlanLoad (c : CmdRef) (s : State) : Host.Outcome State Fault Refusal :=
  .next (atTurn c 0x20 s fun d => commitAt s d (match plotFor s d with
    | some (n, p) =>
      let q := planOf d
      let p' := { p with plans := mput p.plans d.handle q, tensors := workTensors d.stampAt (declsOf d.payload) p.tensors }
      endCmd (s.setPlot n p') d (Reply.ok (toLe 4 q.held) [])
    | none => s))

/-! ## PLAN_UNLOAD (R97, R303) -/

/-- The engines of a plot whose WFU runs a plan lose its schedule. -/
def dropPlan (s : State) (p : Plot) (h : Nat) : State :=
  (maskList p.engmask).foldl (fun t e => if (t.eng e).wfu.plan == some h then t.modEng e clearWfu else t) s

/-- A TENSOR_PUT that fills a reservation of the plan holds its pages itself once the plan is gone (R219, R303). -/
def keepFills (s : State) (n : Nat) (q : Plan) : State :=
  { s with cmds := s.cmds.map fun c => match mget q.reserved c.handle with
    | some r => if c.plot == some n && c.opcode == 0x10 && c.pages == 0 then { c with pages := r.1 } else c
    | none => c }

/-- Pins, reservations and the plan's ROLE 1 tensors are released (R303). -/
def unloadPlan (p : Plot) (h : Nat) : Plot :=
  match mget p.plans h with
  | none => p
  | some q =>
    let own := ((declsOf q.img).filter fun d => d.role == 1).map (·.handle)
    { p with plans := mdel p.plans h, tensors := p.tensors.filter fun t => !own.contains t.1 }

/-- PLAN_UNLOAD (R303). -/
def execPlanUnload (c : CmdRef) (s : State) : Host.Outcome State Fault Refusal :=
  .next (atTurn c 0x21 s fun d => match plotFor s d with
    | some (n, p) =>
      if !nameFree s d then s
      else if p.streams.any fun x => x.2.plan == d.handle then commitAt s d (failCmd s d (Reply.badParam 28))
      else match mget p.plans d.handle with
        | none => commitAt s d (failCmd s d (Reply.absent d.handle))
        | some q => commitAt s d (endCmd ((keepFills (dropPlan s p d.handle) n q).setPlot n (unloadPlan p d.handle)) d (Reply.ok [] []))
    | none => s)

/-! ## PLAN_RUN (R304) -/

/-- The engines that a plan's parts are placed on: the lowest in service; none when they are too few (R364). -/
def placeParts (s : State) (p : Plot) (q : Plan) : Option (List Nat) :=
  let es := (inService s p).take (planParts q.img)
  if es.length = planParts q.img then some es else none

/-- A configuration for RUN plans, which no step reads. -/
def Head.none : Head := ⟨1, 2, false, false, false, 0, 0, 0, 0, 0⟩

def runCtx (p : Plot) (q : Plan) (c : Cmd) (es : List Nat) (h : Head) : RunCtx :=
  { cmd := { c with placed := es }, plot := p, plan := q, handle := c.handle, sc := p.scalarList, engs := es, head := h }

/-- Correctable words of the plan's image that its run corrects and counts (R357). -/
def notePlanReads (s : State) (plot h : Nat) (q : Plan) : State :=
  let ws := q.bad.filter fun p => p.2 == .correctable
  if ws.isEmpty then s
  else ws.foldl (fun v w => countCorrected v (some plot) true (hbmAddr h (32 * w.1)))
    (s.modPlot plot fun p => { p with plans := mmod p.plans h fun y => { y with bad := y.bad.filter fun b => !(b.2 == .correctable) } })

/-- Correctable words that the run's tensor reads and its prefetch correct and count (R247, R357, log entry 18). -/
def noteRunReads (s : State) (x : RunCtx) (plot : Nat) (ps : List PartSt) : State :=
  let note (u : State) (h off n : Nat) : State := match (mget u.plots plot).bind fun p => mget p.tensors h with
    | some z => noteTensorRead u plot h z off n
    | none => u
  ps.foldl (fun (t : State) q =>
    let t1 := ((x.plan.part q.idx).bindings x.plan.img).foldl (fun (u : State) b =>
      if byteAt b 2 = 0 && byteAt b 3 = 1 then
        note u (fieldAt b 4 4) (fieldAt b 8 8) (((tabAt (q.table x) (fieldAt b 0 2)).map fun d => (descOf d).streamBytes).getD 0)
      else u) t
    q.reads.foldl (fun (u : State) r => note u r.1 r.2.1 r.2.2) t1) (notePlanReads s plot x.handle x.plan)

/-- The passes of a run in order (R304): the epoch state, the outputs, the tensor writes, or the failure. -/
def runPasses (x : RunCtx) (inLen trLen : Nat) : Nat → List Byte → EpochSt → OutSt → EpochSt × OutSt × Option RunErr
  | 0, _, es, o => (es, o, none)
  | n + 1, payload, es, o =>
    let tr := transientImages x.plan ((payload.drop inLen).take trLen)
    let r := runEpoch x 0 (payload.take (inLen + trLen)) tr es
    match r.2.2 with
    | some e => (r.1, o, some e)
    | none => runPasses x inLen trLen n (payload.drop (inLen + trLen)) r.1 ⟨o.block ++ r.2.1.block, o.writes ++ r.2.1.writes⟩

/-- The run of a PLAN_RUN on ready engines. -/
def planRunOn (s : State) (plot : Nat) (x : RunCtx) (passes : Nat) : State :=
  let r := runPasses x (kindBytes x.plan.img 0) (transientBytes x.plan) passes x.cmd.payload ⟨startParts s x, []⟩ ⟨[], []⟩
  match r.2.2 with
  | some e => failRun s x r.1 e
  | none =>
    let t := leaveParts (noteRunReads s x plot r.1.parts) x true r.1.parts
    let u := commitWrites t x.cmd plot r.2.1.writes
    let v := u.modPlot plot fun p => { p with epochs := p.epochs + passes }
    endCmd v x.cmd (Reply.ok (resultBlock r.1.flags r.1.lost x.cmd.clock) r.2.1.block)

/-! ## Footprints (R200) -/

/-- The engines that a command is to run on, with its footprint on each. -/
def Cmd.feet (s : State) (p : Plot) (c : Cmd) : List (Nat × List (Nat × Nat)) :=
  if isDirect c.opcode then
    let es := if bitOf (byteAt c.params 1) 0 then [byteAt c.params 0] else (inService s p).take 1
    let wfu := c.opcode == 0x40 && fieldAt (dirSection c.params) 2 2 == 0xFFFF
    es.map fun e => (e, dirFootprint (dirTable c.params) ++ (if wfu then [(4864, 256)] else []))
  else if c.opcode = 0x22 || c.opcode = 0x31 || c.opcode = 0x32 then
    match mget p.plans c.handle with
    | none => []
    | some q => ((placeParts s p q).getD []).zipIdx.map fun e => (e.1, (q.part e.2).foot q.img)
  else []

/-- Two footprints share a slot of an engine. -/
def feetMeet (a b : List (Nat × List (Nat × Nat))) : Bool :=
  a.any fun x => b.any fun y => x.1 == y.1 && x.2.any fun r => y.2.any fun q => rangesMeet r.1 r.2 q.1 q.2

/-- An earlier command of the same queue whose footprint is not disjoint has still to run (R200). -/
def feetWait (s : State) (p : Plot) (c : Cmd) : Bool :=
  s.cmds.any fun d => d.src == c.src && d.plot == c.plot && decide (d.acc < c.acc) && !d.isOpen && feetMeet (d.feet s p) (c.feet s p)

/-- PLAN_RUN at its turn. -/
def planRun (s : State) (n : Nat) (p : Plot) (c : Cmd) : State :=
  match mget p.plans c.handle with
  | none => failCmd s c (Reply.absent c.handle)
  | some q =>
    let passes := fieldAt c.params 0 4
    if passes = 0 then commitAt s c (endCmd s c (Reply.ok (resultBlock Flags.zero 0 c.clock) []))
    else if tableBlocked s p c then s
    else match placeParts s p q with
      | none => failCmd s c (Reply.bare .datapathFault)
      | some es =>
        let x := runCtx p q c es Head.none
        let tr := transientImages q ((c.payload.drop (kindBytes q.img 0)).take (transientBytes q))
        if feetWait s p c then s
        else commitAt s c (onEngines (prefetchFirst s x tr) es fun t => planRunOn t n x passes)

/-- PLAN_RUN (R304). -/
def execPlanRun (c : CmdRef) (s : State) : Host.Outcome State Fault Refusal :=
  .next (atTurn c 0x22 s fun d => match plotFor s d with
    | some (n, p) => planRun s n p d
    | none => s)

end Sys2Proof.Machine
end

