-- ==== Sys2Proof/Machine/Direct.lean ====
section
/-!
DEFINITION. The direct operations: OP_MATMUL, OP_VECTOR, OP_SCAN, OP_SELECT, OP_GATHER, OP_CONVERT and OP_RMSNORM, in place
and staged (R15, R100, R177, R200, R223, R232, R286, R310 to R314, R360, R364, files 06 to 08).
-/

namespace Sys2Proof.Machine

/-! ## What a direct operation works on -/

def dirInPlace (ps : List Byte) : Bool := bitOf (byteAt ps 1) 0

/-- Order lets the command compute: an in-place operation of an ORDERED queue, and a stream's command, only after those before it
(R34, R271). -/
def orderLets (s : State) (c : Cmd) : Bool :=
  (!(isDirect c.opcode && dirInPlace c.params) || inOrder s c) && (!c.namesStream || streamTurn s c)
def dirSfum (ps : List Byte) : Bool := bitOf (byteAt ps 1) 1

/-- The descriptors that an operation writes. -/
def dirDests (op : Nat) (sec : List Byte) : List Nat :=
  if op = 0x42 then [fieldAt sec 16 2] else stepDests { at' := 0, no := 0, kind := op, nt := false, units := 0, body := sec, tags := [] }

/-- The weight tensor of OP_MATMUL, or the source tensor of OP_GATHER (R313, R314). -/
def dirTensor (p : Plot) (c : Cmd) : Option (Nat × Tensor) :=
  let sec := dirSection c.params
  let h := if c.opcode = 0x40 && fieldAt sec 2 2 = 0xFFFF then some (fieldAt sec 12 4)
    else if c.opcode = 0x44 && fieldAt sec 0 2 = 0xFFFF then some c.handle
    else none
  h.bind fun h => (mget p.tensors h).map fun t => (h, t)

/-- An IDX4 table as an engine fetches it for an operation (R232, R235). -/
def dirIdx4 (p : Plot) (c : Cmd) (e i : Nat) : List (List Byte) := c.version (64 + i) e 0 ((p.table i).map fun v => toLe 2 v)

def dirWeight (p : Plot) (c : Cmd) (e : Nat) : Option Weight :=
  (dirTensor p c).map fun q => q.2.weight q.1 ((dirIdx4 p c e q.2.itable).map leNat)

/-- What an operation adds to its result block: nothing, the counts of a selection, or FIRST and FCOUNT (R177, R314). -/
inductive DirOut where
  | plain
  | sel (t : SelTotal)
  | gather (first count : Nat) (stop : Bool)
  deriving DecidableEq, Repr

/-- The operation of a section over a part state; none is a section that does not fit its operands. -/
def directOn (p : Plot) (c : Cmd) (t : DescTab) (x : PartSt) : Option (Except OpErr DirOut × PartSt) :=
  let sec := dirSection c.params
  let iah := dirSfum c.params
  let one {α : Type} (m : OpM α) (g : α → DirOut) : Except OpErr DirOut × PartSt :=
    let r := opOn x (dirDests c.opcode sec) m
    (r.1.map g, r.2)
  let recs (rs : List (List Byte)) : Except OpErr DirOut × PartSt :=
    let r := recordsOn t iah false p.scalarList rs x
    (r.1.map fun _ => .plain, r.2)
  match c.opcode with
  | 0x40 => (matmulOf t (dirWeight p c x.eng) sec).map fun o => one (runMatmul o iah p.scalarList false) fun _ => .plain
  | 0x41 => some (recs (chunks 16 256 sec))
  | 0x42 => (scanOf t sec).map fun o => one (runScan o false) fun _ => .plain
  | 0x43 => (selectOf t sec).map fun o => one (runSelect o false) .sel
  | 0x44 => (gatherOf t (dirWeight p c x.eng) sec).map fun o => one (runGather o false) fun r => .gather r.1 r.2 o.stop
  | 0x45 => some (recs [sec])
  | _ => (rmsOf t sec).map fun o => one (runRms o iah false) fun _ => .plain

/-! ## Staging (R311, R313) -/

/-- A weight staged from bank 38: its bytes, with the granules of its damage poisoned (R100, R313). -/
def stageWeight (sp : Spad) (t : Tensor) : Spad :=
  let base := 38 * 524288
  let d := t.decoded
  let bs := d.1.take 1048576
  let r := sp.storeAll (rangeStores base bs)
  let gs := (d.2.filter fun b => decide (b.1 < bs.length)).flatMap fun b => granulesOf (base + b.1) (min b.2.1 (bs.length - b.1))
  { r.1 with gran := gs.foldl (fun m g => mput m g GState.poisoned) r.1.gran }

/-- The IN bindings of a direct operation (R313). -/
def dirFill (p : Plot) (c : Cmd) (t : DescTab) : List (List Byte) → PartSt → Except (Nat × Nat) PartSt
  | [], x => .ok x
  | b :: rest, x =>
    if byteAt b 2 != 0 then dirFill p c t rest x
    else match (tabAt t (fieldAt b 0 2)).map descOf with
      | none => dirFill p c t rest x
      | some d =>
        let n := d.streamBytes
        let off := fieldAt b 8 8
        let put (bs : List Byte) : PartSt := { x with st := (opStores false (unpackStores d bs) x.st).2 }
        if byteAt b 3 = 0 then dirFill p c t rest (put (slice c.payload off n))
        else match mget p.tensors (fieldAt b 4 4) with
          | none => dirFill p c t rest x
          | some z => match z.readBad off n with
            | some a => .error (fieldAt b 4 4, a)
            | none => dirFill p c t rest (put (slice z.img off n))

/-- The OUT bindings of a direct operation, in binding order (R313). -/
def dirPack (t : DescTab) : List (List Byte) → OutSt → PartSt → Except OpErr OutSt × PartSt
  | [], o, x => (.ok o, x)
  | b :: rest, o, x =>
    if byteAt b 2 != 1 then dirPack t rest o x
    else match (tabAt t (fieldAt b 0 2)).map descOf with
      | none => dirPack t rest o x
      | some d =>
        let r := opPack d x.st
        let y := { x with st := r.2 }
        match r.1 with
        | .error e => (.error e, y)
        | .ok bs =>
          let lost := if d.mx then (mget x.lost (fieldAt b 0 2)).getD 0 else 0
          let o' := if byteAt b 3 = 0 then { o with block := o.block ++ padTo 16 bs }
            else { o with writes := o.writes ++ [⟨fieldAt b 4 4, fieldAt b 8 8, bs, lost⟩] }
          dirPack t rest o' y

/-! ## The end of a direct operation -/

/-- The footprint of an operation: banks 38 and 39 belong to it when it stages a weight (R200, R313). -/
def dirFoot (c : Cmd) (t : DescTab) : List (Nat × Nat) :=
  dirFootprint t ++ (if c.opcode == 0x40 && fieldAt (dirSection c.params) 2 2 == 0xFFFF then [(4864, 256)] else [])

/-- Buffers that a plan's schedule filled ahead do not outlast an operation whose footprint holds them (R93, R97, log entry
82). -/
def Engine.yieldTo (e : Engine) (foot : List (Nat × Nat)) : Engine :=
  if e.wfu.sched.any fun f => f.issued && foot.any fun r => rangesMeet r.1 r.2 f.slotFirst f.slotCount then clearWfu e else e

/-- An operation leaves its engine: it is a barrier for its non-temporal stores (R205, R210, R232, R313). -/
def leaveDirect (s : State) (p : Plot) (c : Cmd) (t : DescTab) (x : PartSt) : State :=
  let wfu := c.opcode == 0x40 && (dirTensor p c).isSome
  let cache : Map (List (List Byte)) := match dirTensor p c with
    | some (_, z) => if wfu && z.fmt = 0xE then [(64 + z.itable, dirIdx4 p c x.eng z.itable)] else []
    | none => []
  let st := drainOp x.st
  let u := s.modEng x.eng fun e =>
    let y := e.yieldTo (dirFoot c t)
    { y with spad := { st.sp with full := if wfu then clearRange y.spad.full 4864 256 else y.spad.full }, footprint := dirFoot c t, descCache := cache }
  countSteps (touchEngine (applyTrace u c.plot x.eng (some c) st.tr) x.eng) x.eng st.steps

/-- Bytes that R310 leaves undefined in the sense of R15: each takes a free value. -/
def freeBytes (s : State) (e : Nat) (spans : List (Int × Nat)) : State :=
  spans.foldl (fun (t : State) q =>
    let u := t.modEng e fun x => { x with spad := { x.spad with mem := x.spad.mem.fillFree q.1.toNat q.2 t.freeIx } }
    { u with freeIx := t.freeIx + q.2 }) s

/-- The destination bytes of an in-place operation, undefined after a failing status (R310). -/
def spoilDests (s : State) (c : Cmd) : State :=
  let t := dirTable c.params
  let ds := (dirDests c.opcode (dirSection c.params)).filterMap (tabAt t)
  freeBytes s (byteAt c.params 0) ((ds.filter fun b => descBad b == []).flatMap fun b => (descOf b).spans)

/-- A direct operation ends with a failing status (R310, R360). -/
def failDirect (s : State) (c : Cmd) (e : Nat) (err : OpErr) : State :=
  failOp (if dirInPlace c.params then spoilDests s c else s) c e err

/-- The reply of an operation that ends OK or OK_PARTIAL (R286, R314). -/
def dirReply (st : OpSt) (o : DirOut) (payload : List Byte) : Reply :=
  let block := resultBlock st.fl st.lost 0
  match o with
  | .plain => Reply.ok block payload
  | .sel t => Reply.ok (block ++ toLe 4 t.r ++ toLe 4 t.dropped) payload
  | .gather first count _ =>
    { Reply.ok (block ++ toLe 4 first ++ toLe 4 count) payload with status := if count = 0 then .ok else .okPartial }

/-- An operation that has run: a STOP gather with a fault ends GATHER_FAULT without payload or tensor writes. -/
def endDirect (s : State) (n : Nat) (p : Plot) (c : Cmd) (t : DescTab) (x : PartSt) (o : DirOut) : State :=
  match o with
  | .gather first count true =>
    if count != 0 then failCmd (leaveDirect s p c t x) c (errReply (.gatherFault first count)) else finishOk
  | _ => finishOk
where
  finishOk : State :=
    let r := dirPack t (dirBinds c.params) ⟨[], []⟩ x
    let u := leaveDirect s p c t r.2
    match r.1 with
    | .error e => failDirect u c x.eng e
    | .ok out => endCmd (commitWrites u c n out.writes) c (dirReply r.2.st o out.block)

/-- Correctable HBM words that the operation's reads correct and count (R357, log entry 18). -/
def noteDirReads (s : State) (n : Nat) (p : Plot) (c : Cmd) : State :=
  let t := (dirBinds c.params).foldl (fun (u : State) b =>
    match byteAt b 2, byteAt b 3, (mget u.plots n).bind fun q => mget q.tensors (fieldAt b 4 4) with
    | 0, 1, some z =>
      let k := ((tabAt (dirTable c.params) (fieldAt b 0 2)).map fun d => (descOf d).streamBytes).getD 0
      noteTensorRead u n (fieldAt b 4 4) z (fieldAt b 8 8) k
    | _, _, _ => u) s
  match dirTensor p c with
  | some (h, _) => match (mget t.plots n).bind fun q => mget q.tensors h with
    | some z => noteTensorRead t n h z 0 z.img.length
    | none => t
  | none => t

/-- The part state in which an operation begins: the scratchpad of its engine, with a staged weight (R313). -/
def dirStart (s : State) (p : Plot) (c : Cmd) (e : Nat) : PartSt :=
  let sp := match c.opcode, dirTensor p c with
    | 0x40, some t => stageWeight (s.eng e).spad t.2
    | _, _ => (s.eng e).spad
  { eng := e, idx := 0, todo := [], st := opStart sp, lost := [], wfu := Wfu.clear, cache := [], epoch := 0, reads := [] }

/-- The operation on its ready engine. -/
def directRun (s : State) (n : Nat) (p : Plot) (c : Cmd) (e : Nat) : State :=
  let t := dirTable c.params
  match dirFill p c t (dirBinds c.params) (dirStart s p c e) with
  | .error (h, a) => failHbm s c h a
  | .ok x => match directOn p c t x with
    | none => failCmd s c (Reply.badParam noField)
    | some (.error err, y) => failDirect (leaveDirect s p c t y) c e err
    | some (.ok o, y) => endDirect (noteDirReads s n p c) n p c t y o

/-- The engine of a direct operation: the one named in place, the lowest in service when staged (R310, R364). -/
def dirEngine (s : State) (p : Plot) (c : Cmd) : Option Nat :=
  if dirInPlace c.params then
    (if (s.eng (byteAt c.params 0)).failed then none else some (byteAt c.params 0))
  else (inService s p).head?

/-- A direct operation at its turn. -/
def directAt (c : CmdRef) (op : Nat) (s : State) : State :=
  atTurn c op s fun d => match plotFor s d with
    | none => s
    | some (n, p) =>
      if directNoop op d.params then commitAt s d (endCmd s d (dirReply (opStart Spad.clear) (noop op d) []))
      else if tableBlocked s p d || feetWait s p d then s
      else match dirEngine s p d with
        | none => failCmd s d (Reply.bare .datapathFault)
        | some e => commitAt s d (onEngines s [e] fun t => match mget t.plots n with
          | some p' => directRun t n p' { d with placed := [e] } e
          | none => t)
where
  /-- What a no-op reports beside its result block: no row, or no faulting index. -/
  noop (op : Nat) (_ : Cmd) : DirOut :=
    if op = 0x43 then .sel ⟨0, 0⟩ else if op = 0x44 then .gather 0xFFFFFFFF 0 false else .plain

/-- OP_MATMUL (R84 to R92, R127 to R130, R313). -/
def execOpMatmul (c : CmdRef) (s : State) : Host.Outcome State Fault Refusal := .next (directAt c 0x40 s)

/-- OP_VECTOR (R131 to R150). -/
def execOpVector (c : CmdRef) (s : State) : Host.Outcome State Fault Refusal := .next (directAt c 0x41 s)

/-- OP_SCAN (R113, R118, R313). -/
def execOpScan (c : CmdRef) (s : State) : Host.Outcome State Fault Refusal := .next (directAt c 0x42 s)

/-- OP_SELECT (R171 to R182). -/
def execOpSelect (c : CmdRef) (s : State) : Host.Outcome State Fault Refusal := .next (directAt c 0x43 s)

/-- OP_GATHER (R314). -/
def execOpGather (c : CmdRef) (s : State) : Host.Outcome State Fault Refusal := .next (directAt c 0x44 s)

/-- OP_CONVERT (R55 to R57, R143, R146). -/
def execOpConvert (c : CmdRef) (s : State) : Host.Outcome State Fault Refusal := .next (directAt c 0x45 s)

/-- OP_RMSNORM (R167 to R170). -/
def execOpRmsnorm (c : CmdRef) (s : State) : Host.Outcome State Fault Refusal := .next (directAt c 0x46 s)

end Sys2Proof.Machine
end

