-- ==== Sys2Proof/Machine/Aes.lean ====
section
/-!
DEFINITION. AES-256-GCM (R331, R433): the blob of an exported stream and the secured record of KEY_SET.
-/

namespace Sys2Proof.Machine

/-- The S-box, byte x in bits 8x+7:8x. -/
def aesSboxN : Nat := 0x16BB54B00F2D99416842E6BF0D89A18CDF2855CEE9871E9B948ED9691198F8E19E1DC186B95735610EF6034866B53E708A8BBD4B1F74DDE8C6B4A61C2E2578BA08AE7A65EAF4566CA94ED58D6D37C8E779E4959162ACD3C25C2406490A3A32E0DB0B5EDE14B8EE4688902A22DC4F816073195D643D7EA7C41744975FEC130CCDD2F3FF1021DAB6BCF5389D928F40A351A89F3C507F02F94585334D43FBAAEFD0CF584C4A39BECB6A5BB1FC20ED00D153842FE329B3D63B52A05A6E1B1A2C830975B227EBE28012079A059618C323C7041531D871F1E5A534CCF73F362693FDB7C072A49CAFA2D4ADF04759FA7DC982CA76ABD7FE2B670130C56F6BF27B777C63

def aesSub (b : Nat) : Nat := (aesSboxN / 2 ^ (8 * b)) % 256

def xtime (b : Nat) : Nat := if b < 128 then 2 * b else Nat.xor (2 * b) 0x11B

def xorL : List Nat → List Nat → List Nat
  | a :: as, b :: bs => Nat.xor a b :: xorL as bs
  | _, _ => []

/-- The key schedule from word `i`: `win` holds the last eight words, oldest first. -/
def aesWords : Nat → Nat → Nat → List (List Nat) → List (List Nat)
  | 0, _, _, _ => []
  | n + 1, i, rc, win =>
    let old := win.head?.getD []
    let t := win.getLast?.getD []
    let g := if i % 8 = 0 then
        match (t.drop 1 ++ t.take 1).map aesSub with
        | a :: r => Nat.xor a rc :: r
        | [] => []
      else if i % 8 = 4 then t.map aesSub else t
    let w := xorL old g
    w :: aesWords n (i + 1) (if i % 8 = 0 then xtime rc else rc) (win.drop 1 ++ [w])

/-- The fifteen round keys of AES-256, 16 bytes each. -/
def aesRoundKeys (key : List Byte) : List (List Nat) :=
  let k := chunks 4 8 (key.map BitVec.toNat)
  (chunks 4 15 (k ++ aesWords 52 8 1 k)).map List.flatten

def aesAt (s : List Nat) (i : Nat) : Nat := (s.drop i).head?.getD 0

def shiftRows (s : List Nat) : List Nat := (List.range 16).map fun i => aesAt s ((4 * (i / 4 + i % 4) + i % 4) % 16)

def mixCol : List Nat → List Nat
  | [a, b, c, d] =>
    let t := Nat.xor (Nat.xor a b) (Nat.xor c d)
    [Nat.xor (Nat.xor a t) (xtime (Nat.xor a b)), Nat.xor (Nat.xor b t) (xtime (Nat.xor b c)),
     Nat.xor (Nat.xor c t) (xtime (Nat.xor c d)), Nat.xor (Nat.xor d t) (xtime (Nat.xor d a))]
  | l => l

def aesRounds : List (List Nat) → List Nat → List Nat
  | [], s => s
  | [k], s => xorL (shiftRows (s.map aesSub)) k
  | k :: ks, s => aesRounds ks (xorL ((chunks 4 4 (shiftRows (s.map aesSub))).flatMap mixCol) k)

/-- One block under the round keys. -/
def aesBlock (rk : List (List Nat)) (blk : List Byte) : List Byte :=
  match rk with
  | [] => blk
  | k :: ks => (aesRounds ks (xorL (blk.map BitVec.toNat) k)).map (BitVec.ofNat 8)

/-- Multiplication in GF(2^128) as GCM numbers bits (bit 0 is the most significant). -/
def ghashMul : Nat → Nat → Nat → Nat → Nat
  | 0, _, _, z => z
  | n + 1, x, v, z =>
    let z' := if bitOf x n then Nat.xor z v else z
    let v' := if v % 2 = 1 then Nat.xor (v / 2) (0xE1 * 2 ^ 120) else v / 2
    ghashMul n x v' z'

def ghash (h : Nat) (blks : List (List Byte)) : Nat :=
  blks.foldl (fun y b => ghashMul 128 (Nat.xor y (beNat b)) h 0) 0

def gcmCtr (rk : List (List Nat)) (iv : List Byte) : Nat → List (List Byte) → List Byte
  | _, [] => []
  | c, p :: ps =>
    let ks := aesBlock rk (iv ++ toBe 4 c)
    (List.zipWith (fun a b => a ^^^ b) p ks) ++ gcmCtr rk iv (c + 1) ps

def blocks16 (bs : List Byte) : List (List Byte) := chunks 16 (ceilDiv bs.length 16) bs

def gcmTag (rk : List (List Nat)) (iv aad ct : List Byte) : List Byte :=
  let h := beNat (aesBlock rk (zeros 16))
  let s := ghash h (blocks16 (padTo 16 aad) ++ blocks16 (padTo 16 ct) ++ [toBe 8 (8 * aad.length) ++ toBe 8 (8 * ct.length)])
  List.zipWith (fun a b => a ^^^ b) (toBe 16 s) (aesBlock rk (iv ++ toBe 4 1))

/-- Encryption: the ciphertext and the 128-bit tag. -/
def gcmSeal (key iv aad pt : List Byte) : List Byte × List Byte :=
  let rk := aesRoundKeys key
  let ct := gcmCtr rk iv 2 (blocks16 pt)
  (ct, gcmTag rk iv aad ct)

/-- Decryption: the plaintext when the tag verifies. -/
def gcmOpen (key iv aad ct tag : List Byte) : Option (List Byte) :=
  let rk := aesRoundKeys key
  if gcmTag rk iv aad ct = tag then some (gcmCtr rk iv 2 (blocks16 ct)) else none

end Sys2Proof.Machine
end

