-- ==== Sys2Proof/Machine/Streams.lean ====
section
/-!
DEFINITION. Stream commands and the moves of stream images
(R34, R36, R108 to R126, R213 to R217, R305 to R309, R320 to R335, R358, R433 to R435).
-/

namespace Sys2Proof.Machine

/-! ## A stream command at its turn (R34, R214, R321, R322) -/

/-- A stream command in its plot, when no earlier command that names the stream is left (R34). -/
def streamAt (c : CmdRef) (op : Nat) (s : State) (k : Cmd → Nat → Plot → State) : State :=
  atTurn c op s fun d => match plotFor s d with
    | some (n, p) => if streamTurn s d then k d n p else s
    | none => s

/-- The state check of R321 fails: BAD_PARAM at the STREAM field. -/
def wrongState (s : State) (c : Cmd) : State := commitAt s c (failCmd s c (Reply.badParam 2))

/-- A no-op (R279, R280). -/
def noOp (s : State) (c : Cmd) : State := commitAt s c (endCmd s c (Reply.ok [] []))

def setStream (s : State) (plot st : Nat) (x : Stream) : State :=
  s.modPlot plot fun p => { p with streams := mput p.streams st x }

/-- The image is between two homes (R214). -/
def Stream.moving (x : Stream) : Bool := x.res == .movingIn || x.res == .movingOut

/-- The plot has the stream, and its image is moving: a stream command waits (R214, R325). -/
def streamMoves (p : Plot) (st : Nat) : Bool := (mget p.streams st).any Stream.moving

/-- ADDR of a byte of a stream's image (R375). -/
def imageAddr (st off : Nat) : Nat := (st % 4096) * 2 ^ 52 + off

/-- UNCORRECTABLE_DATA on a granule of the image (R212, R376): in Glasshouse slots, or in HBM. -/
def failImage (s : State) (c : Cmd) (x : Stream) (off : Nat) : State :=
  let unit := if x.inGlass then 0x10 else 0x11
  failCmd (addRecord s c.plot (cmdEvent 0x0002 0 unit 0 (imageAddr c.stream off) c)) c (Reply.bare .uncorrectableData)

/-- Correctable granules of an image are corrected and counted when it is read (R357). -/
def noteImage (s : State) (plot st : Nat) (x : Stream) : State :=
  let ws := (x.bad.filter fun p => p.2 == .correctable).map (·.1)
  if ws.isEmpty then s
  else ws.foldl (fun (t : State) g => countCorrected t (some plot) (!x.inGlass) (imageAddr st (x.unit * g)))
    (setStream s plot st { x with bad := x.bad.filter fun p => !(p.2 == .correctable) })

/-- Slots that a command asks for when it begins computation, not having asked at its acceptance (log entry 16). -/
def askLate (s : State) (n : Nat) (c : Cmd) (x : Stream) (shadow : Bool) : Option State :=
  let need := if shadow && c.shadowSlots = 0 then x.slots else 0
  if (x.res == .nonresident && !asked s x) || 0 < need then
    (askSlots s n c.stream c.acc need true).map fun t => t.putCmd { c with shadowSlots := c.shadowSlots + need }
  else some s

/-- The image resident and the slots at hand (R36, R125, R216): then `k`; otherwise the move begins and the command
waits, or it ends with NO_SPACE. -/
def withImage (s : State) (n : Nat) (c : Cmd) (x : Stream) (shadow : Bool) (k : State → Plot → State) : State :=
  match askLate s n c x shadow with
  | none => failCmd s c (Reply.noSpace 0)
  | some t => match mget t.plots n with
    | none => t
    | some p => match mget p.streams c.stream with
      | some y => if y.res == .resident && slotsFit t n p then k t p else startMoves t n (some c.stream)
      | none => t

/-! ## STREAM_OPEN (R108, R124, R215, R305) -/

/-- The configuration that STREAM_OPEN's parameters set. -/
def openHead (c : Cmd) : Head :=
  let f := byteAt c.params 3
  ⟨fieldAt c.params 0 2, byteAt c.params 2, bitOf f 0, bitOf f 1, bitOf f 2, byteAt c.params 4, byteAt c.params 5, 0, 0, 0⟩

def newStream (q : Nat) (img : List Byte) (clock : Nat) : Stream :=
  { paused := false, plan := q, img := img, bad := [], res := .nonresident, stamp := clock, wanted := none }

/-- STREAM_OPEN (R305). -/
def execStreamOpen (c : CmdRef) (s : State) : Host.Outcome State Fault Refusal :=
  .next (streamAt c 0x30 s fun d n p =>
    if streamMoves p d.stream then s
    else if (mget p.streams d.stream).isSome then wrongState s d
    else match mget p.plans d.handle with
      | none => failCmd s d (Reply.absent d.handle)
      | some q =>
        match planKind q.img != 1, minOff (planClash q (openHead d) 32 34) with
        | true, _ => failCmd s d (Reply.badParam 28)
        | false, some o => failCmd s d (Reply.badParam o)
        | false, none =>
          let img := freshImage (openHead d) q.img
          let reply := Reply.ok (toLe 8 img.length ++ toLe 4 (pagesFor img.length)) []
          commitAt s d (endCmd (s.setPlot n { p with streams := mput p.streams d.stream (newStream d.handle img d.stampAt) }) d reply))

/-! ## STREAM_FEED and STREAM_FLUSH (R111 to R126, R306) -/

/-- The pending positions of an image. -/
def pendingBytes (h : Head) (plan img : List Byte) : List Byte :=
  slice img (4096 + secState h plan + secOffsets h plan) (h.pend * planX plan)

/-- The image with new counters and pending positions (R123, R332). -/
def rebuild (h : Head) (plan img : List Byte) (pend : List Byte) : List Byte :=
  headBytes h ++ slice img 4096 (secState h plan + secOffsets h plan) ++
    (pend ++ zeros (secPending h plan - pend.length))

/-- CHUNK_STEP (R113): one chunk of `n` real positions; RENORMALISE at the period's end (R121, R122). -/
def chunkStep (x : RunCtx) (n : Nat) (positions : List Byte) (tr : Map (List Byte)) (es : EpochSt) :
    EpochSt × OutSt × Option RunErr :=
  let block := positions ++ zeros (x.head.l * planX x.plan.img - positions.length)
  let r := runEpoch x n block tr es
  if r.2.2 == none && x.head.rn && nextK x.head = 0 then
    match r.1.parts with
    | p :: rest =>
      let m := renormLayers x.head x.plan.img (scanLayers x.plan.img) 0 0 r.1.img p.st.fl
      ({ r.1 with parts := { p with st := { p.st with fl := m.2 } } :: rest, img := m.1 }, r.2)
    | [] => r
  else r

/-- Chunk steps in order: each takes the L oldest positions, or for a flush all of them (R111, R116). -/
def runChunks (x : RunCtx) (flush : Bool) : Nat → List Byte → List Byte → EpochSt → OutSt →
    RunCtx × EpochSt × OutSt × Option RunErr
  | 0, _, _, es, o => (x, es, o, none)
  | m + 1, positions, trs, es, o =>
    let xb := planX x.plan.img
    let n := if flush then x.head.pend else x.head.l
    let one := transientBytes x.plan
    let r := chunkStep x n (positions.take (n * xb)) (transientImages x.plan (trs.take one)) es
    match r.2.2 with
    | some e => (x, r.1, o, some e)
    | none =>
      let x' := { x with head := { x.head with k := nextK x.head, pos := x.head.pos + n } }
      let out : OutSt := ⟨o.block ++ slice r.2.1.block 0 (n * planY x.plan.img), o.writes ++ r.2.1.writes⟩
      runChunks x' flush m (positions.drop (n * xb)) (trs.drop one) r.1 out

/-- Damage that the chunk steps, or a feed that runs none, would read (R212). -/
def feedDamage (x : Stream) (h : Head) (plan : List Byte) (steps : Nat) : Option Nat :=
  let st := 4096 + secState h plan
  let rs := (0, 24) :: (if steps = 0 then [] else
    [(4096, stateCols plan * stateWidth h), (st, if h.rn then stateChans plan else 0),
      (st + secOffsets h plan, h.pend * planX plan)])
  rs.findSome? fun r => if r.2 = 0 then none else imageDamaged x r.1 r.2

/-- Damage of the new image: none after a chunk step, which writes it all; otherwise what the feed does not overwrite is
carried as poison (R217). -/
def feedBad (x : Stream) (h : Head) (plan : List Byte) (steps len : Nat) : Map GState :=
  let off := 4096 + secState h plan + secOffsets h plan + h.pend * planX plan
  if steps = 0 then (copyDamage x.bad).filter fun p =>
    decide (256 ≤ p.1) && !(decide (off ≤ 16 * p.1) && decide (16 * p.1 + 16 ≤ off + len))
  else []

/-- The reply of a feed or flush (R286, R306). -/
def feedReply (fl : Flags) (lost clock steps nout pos : Nat) (out : List Byte) : Reply :=
  Reply.ok (resultBlock fl lost clock ++ toLe 4 steps ++ toLe 4 nout ++ toLe 8 pos) out

/-- The run of a feed or flush on ready engines with its image resident: everything commits together (R125, R126). -/
def feedOn (s : State) (plot : Nat) (x : RunCtx) (st : Stream) (flush : Bool) (steps : Nat) (fed trs : List Byte) : State :=
  let plan := x.plan.img
  let positions := pendingBytes x.head plan st.img ++ fed
  let r := runChunks x flush steps positions trs ⟨startParts s x, st.img⟩ ⟨[], []⟩
  match r.2.2.2 with
  | some e => failRun s x r.2.1 e
  | none =>
    let used := if steps = 0 then 0 else if flush then x.head.pend else steps * x.head.l
    let rest := positions.drop (used * planX plan)
    let h' := { r.1.head with pend := x.head.pend + (if flush then 0 else fieldAt x.cmd.params 0 4) - used }
    let st' := { st with img := rebuild h' plan r.2.1.img rest, bad := feedBad st x.head plan steps fed.length, wanted := none }
    let t := leaveParts (noteRunReads (noteImage s plot x.cmd.stream st) x plot r.2.1.parts) x true r.2.1.parts
    let u := commitWrites t x.cmd plot r.2.2.1.writes
    let v := setStream (u.modPlot plot fun p => { p with epochs := p.epochs + steps }) plot x.cmd.stream st'
    endCmd v x.cmd (feedReply r.2.1.flags r.2.1.lost x.cmd.clock steps used h'.pos r.2.2.1.block)

/-- A feed or flush whose stream, plan and payload are right. Engines wake and fetch their first weights while the image moves in
(step 3 of R33); damage is met once the image is resident (R217). -/
def feedReady (s : State) (n : Nat) (p : Plot) (q : Plan) (c : Cmd) (x : Stream) (flush : Bool) (steps : Nat)
    (fed trs : List Byte) : State :=
  match placeParts s p q with
  | none => failCmd s c (Reply.bare .datapathFault)
  | some es =>
    let h := headOf x.img
    let used := if steps = 0 then [] else es
    let ahead := prefetchFirst (prepare s used) (runCtx p q c used h) (transientImages q (trs.take (transientBytes q)))
    if feetWait s p c then s
    else commitAt s c (withImage ahead n c x true fun t p' =>
      match mget p'.streams c.stream with
      | none => t
      | some y => match feedDamage y h q.img steps with
        | some o => failImage t c y o
        | none => onEngines t used fun u => feedOn u n (runCtx p' q c used h) y flush steps fed trs)

/-- The common part of STREAM_FEED and STREAM_FLUSH. -/
def feedAt (s : State) (c : Cmd) (n : Nat) (p : Plot) (flush : Bool) : State :=
  match mget p.streams c.stream with
  | none => wrongState s c
  | some x =>
    if x.moving then s
    else if x.paused then wrongState s c
    else if x.plan != c.handle then commitAt s c (failCmd s c (Reply.badParam 28))
    else match mget p.plans x.plan with
      | none => failCmd s c (Reply.absent c.handle)
      | some q =>
        let h := headOf x.img
        let t := if flush then 0 else fieldAt c.params 0 4
        let steps := if flush then (if h.pend = 0 then 0 else 1) else (h.pend + t) / h.l
        let fed := t * planX q.img
        let trs := c.payload.drop fed
        if c.payload.length != fed + steps * transientBytes q then failCmd s c (Reply.at .badLength (if flush then 4 else 32))
        else if t = 0 && steps = 0 then
          commitAt s c (endCmd s c (feedReply Flags.zero 0 c.clock 0 0 h.pos []))
        else if !((List.range steps).all fun i => transientOk q (trs.drop (i * transientBytes q))) then
          failCmd s c (Reply.badParam noField)
        else if tableBlocked s p c then s
        else feedReady s n p q c x flush steps (c.payload.take fed) trs

/-- STREAM_FEED (R306). -/
def execStreamFeed (c : CmdRef) (s : State) : Host.Outcome State Fault Refusal :=
  .next (streamAt c 0x31 s fun d n p => feedAt s d n p false)

/-- STREAM_FLUSH (R116, R306). -/
def execStreamFlush (c : CmdRef) (s : State) : Host.Outcome State Fault Refusal :=
  .next (streamAt c 0x32 s fun d n p => feedAt s d n p true)

/-! ## STREAM_PAUSE, STREAM_RESUME and STREAM_CLOSE (R307, R308, R325 to R327) -/

/-- STREAM_PAUSE (R325): the paused mark, and a resident image begins to move out. -/
def execStreamPause (c : CmdRef) (s : State) : Host.Outcome State Fault Refusal :=
  .next (streamAt c 0x33 s fun d n p => match mget p.streams d.stream with
    | none => wrongState s d
    | some x =>
      if x.moving then s
      else if x.paused then noOp s d
      else if headDamaged x then failImage s d x 0
      else
        let res := if x.res == .resident then Residency.movingOut else x.res
        commitAt s d (endCmd (setStream s n d.stream { x with paused := true, res := res, wanted := none }) d (Reply.ok [] [])))

/-- The mark is cleared (R326). -/
def clearPause (s : State) (n : Nat) (c : Cmd) (x : Stream) : State :=
  commitAt s c (endCmd (setStream s n c.stream { x with paused := false }) c (Reply.ok [] []))

/-- STREAM_RESUME (R326). -/
def execStreamResume (c : CmdRef) (s : State) : Host.Outcome State Fault Refusal :=
  .next (streamAt c 0x34 s fun d n p => match mget p.streams d.stream with
    | none => wrongState s d
    | some x =>
      if x.moving then s
      else if !x.paused then noOp s d
      else if headDamaged x then failImage s d x 0
      else if byteAt d.params 0 = 0 then clearPause s n d x
      else withImage s n d x false fun t p' => match mget p'.streams d.stream with
        | some y => clearPause t n d y
        | none => t)

/-- The stream becomes CLOSED: its slots are released, with those that later commands hold for it, and its reservation (R327). -/
def closeStream (s : State) (n st : Nat) : State :=
  { s.modPlot n fun p => { p with streams := mdel p.streams st } with
    cmds := s.cmds.map fun c => if c.plot == some n && c.namesStream && c.stream == st then { c with shadowSlots := 0 } else c }

/-- STREAM_CLOSE (R308, R327). -/
def execStreamClose (c : CmdRef) (s : State) : Host.Outcome State Fault Refusal :=
  .next (streamAt c 0x35 s fun d n p => match mget p.streams d.stream with
    | none => wrongState s d
    | some x =>
      if x.moving then s
      else if (headOf x.img).pend != 0 && byteAt d.params 0 = 0 then commitAt s d (failCmd s d (Reply.badParam 32))
      else commitAt s d (endCmd (closeStream s n d.stream) d (Reply.ok [] [])))

/-! ## Export (R328 to R332, R434, R435) -/

/-- The blob header (Table 2 of R330). -/
def blobHeader (plan : List Byte) (ctr serial size : Nat) : List Byte :=
  toLe 4 0x31425453 ++ toLe 2 1 ++ toLe 1 1 ++ zeros 1 ++ toLe 8 ctr ++ toLe 8 serial ++ toLe 8 size ++
    toLe 4 (scanLayers plan).length ++ toLe 4 (planX plan) ++ toLe 4 (planY plan) ++ toLe 4 (crc32c (shapeBytes plan)) ++ zeros 16

/-- The blob key of R331. -/
def blobKey (key : List Byte) (serial ctr : Nat) : List Byte :=
  hkdf sha256Spec (toLe 8 serial ++ toLe 8 ctr) key (ascii "LOIVO-SHASTAL-BLOB-1") 32

def blobIv (ctr : Nat) : List Byte := toLe 8 ctr ++ zeros 4

/-- The blob of an image (R330, R331). -/
def blobOf (key plan img : List Byte) (ctr serial : Nat) : List Byte :=
  let hd := blobHeader plan ctr serial img.length
  let r := gcmSeal (blobKey key serial ctr) (blobIv ctr) hd img
  hd ++ r.1 ++ r.2

/-- Pages for the blob that acceptance did not reserve: the stream was CLOSED then (log entry 16). -/
def morePages (s : State) (n : Nat) (c : Cmd) (need : Nat) : Chk State :=
  if need ≤ c.pages then .ok s
  else match takePages s n (need - c.pages) with
    | .ok t => .ok t
    | .error r => .error r

/-- The commit of an export: blob tensor, stream CLOSED, counter advanced (R328, R329). -/
def commitExport (s : State) (n : Nat) (c : Cmd) (x : Stream) (key plan : List Byte) : State :=
  let ctr := s.expCtr + 1
  let blob := blobOf key plan x.img ctr s.stores.serial
  let t := noteImage s n c.stream x
  let u := t.modPlot n fun y => { y with tensors := mput y.tensors c.handle (rawTensor 0 blob c.stampAt) }
  endCmd { closeStream u n c.stream with expCtr := ctr } c (Reply.ok (toLe 8 blob.length ++ toLe 8 ctr) [])

/-- An export under a key and a reserved counter value: the image, the pages, the commit (R212, R328, R329). -/
def exportGo (s : State) (n : Nat) (c : Cmd) (x : Stream) (key plan : List Byte) : State :=
  match imageDamaged x 0 x.img.length with
  | some o => failImage s c x o
  | none => match morePages s n c (pagesFor (x.img.length + 80)) with
    | .error r => failCmd s c r
    | .ok t => commitAt s c (commitExport t n c x key plan)

/-- The counter's reservation is used up (R435): the export waits for a write of it, or no write is left. -/
def exportWaits (s : State) (c : Cmd) : State :=
  if s.stores.writesLeft = 0 then failCmd s c (Reply.bare .authFail)
  else { s with nvsWait := if s.nvsWait.isNone then some c.acc else s.nvsWait }

/-- Computation of an export: the key, the counter's reservation, the image (R328, R434, R435). -/
def exportAt (s : State) (n : Nat) (p : Plot) (c : Cmd) (x : Stream) : State :=
  match p.key, mget p.plans x.plan with
  | none, _ => failCmd s c (Reply.bare .authFail)
  | _, none => s
  | some key, some q => if s.stores.limit < s.expCtr + 1 then exportWaits s c else exportGo s n c x key q.img

/-- STREAM_EXPORT (R309, R328). -/
def execStreamExport (c : CmdRef) (s : State) : Host.Outcome State Fault Refusal :=
  .next (streamAt c 0x36 s fun d n p => match mget p.streams d.stream with
    | none => wrongState s d
    | some x => if x.moving then s else exportAt s n p d x)

/-- The reservation write of a waiting export succeeded or failed (R435). -/
def nvsWrite (ok : Bool) (s : State) : State :=
  match s.nvsWait with
  | none => s
  | some acc =>
    let t := { s with nvsWait := none }
    if ok then { t with stores := t.stores.reserve }
    else match t.cmds.find? fun d => d.acc == acc with
      | some d => failCmd t d (Reply.bare .controlFault)
      | none => t

/-- NVS_RESERVATION_WRITE (R435). -/
def execNvsReservationWrite (ok : Bool) (s : State) : Host.Outcome State Fault Refusal := .next (if s.alive then nvsWrite ok s else s)

/-! ## Import (R333 to R335) -/

/-- Check 8 of R334: the decrypted header. -/
def importHeadOk (q : Plan) (img : List Byte) : Bool :=
  let h := headOf img
  chunkLenOk h.l && (h.sf == 1 || h.sf == 2) && decide (byteAt img 3 < 8) && (if h.rn then h.stf == 2 else decide (h.stf ≤ 2)) &&
    (if h.rn then decide (1 ≤ h.period) && decide (h.period ≤ 64) && decide (h.k < h.period) else h.period == 0 && h.k == 0) &&
    byteAt img 7 == 0 && allZero (slice img 12 4) && allZero (slice img 24 4072) && decide (h.pend < h.l) &&
    img.length == imageSize h q.img && planClash q h 0 0 == []

/-- Checks 7 and 8, and the commit of R335. -/
def importBody (s : State) (n : Nat) (p : Plot) (c : Cmd) (t : Tensor) (q : Plan) : State :=
  let size := fieldAt t.img 24 8
  let ctr := fieldAt t.img 8 8
  let serial := fieldAt t.img 16 8
  match t.readBad 0 t.img.length with
  | some o => failCmd (addRecord s c.plot (cmdEvent 0x0002 0 0x11 0 (hbmAddr c.handle o) c)) c (Reply.bare .authFail)
  | none =>
    match p.key.bind fun key => gcmOpen (blobKey key serial ctr) (blobIv ctr) (t.img.take 64) (slice t.img 64 size) (slice t.img (64 + size) 16) with
    | none => failCmd s c (Reply.bare .authFail)
    | some img =>
      if !importHeadOk q img then failCmd s c (Reply.badParam noField)
      else
        let u := (noteTensorRead s n c.handle t 0 t.img.length).modPlot n fun y =>
          { y with streams := mput y.streams c.stream (newStream (fieldAt c.params 0 4) img c.stampAt) }
        commitAt s c (endCmd u c (Reply.ok (toLe 8 size ++ toLe 8 ctr ++ toLe 8 serial ++ toLe 4 (pagesFor size)) []))

/-- Checks 7 and 8 of an import whose pages are held. -/
def importGo (n : Nat) (c : Cmd) (t : State) : State :=
  match mget t.plots n with
  | none => t
  | some y => match mget y.tensors c.handle, mget y.plans (fieldAt c.params 0 4) with
    | some b, some q => importBody t n y c b q
    | none, _ => failCmd t c (Reply.absent c.handle)
    | _, none => failCmd t c (Reply.absent (fieldAt c.params 0 4))

/-- STREAM_IMPORT (R309, R333, R334). -/
def execStreamImport (c : CmdRef) (s : State) : Host.Outcome State Fault Refusal :=
  .next (streamAt c 0x37 s fun d n p =>
    if streamMoves p d.stream then s
    else if (mget p.streams d.stream).isSome then wrongState s d
    else if d.pages != 0 then importGo n d s
    else match importChecks s n p d with
      | .error r => failCmd s d r
      | .ok (t, _) => importGo n d t)

/-! ## MOVE_COMMIT (R214, R217, R358) -/

/-- The command that a move serves: the earliest of the plot that names the stream, or for a move out one that waits for
slots. -/
def moveUser (s : State) (plot st : Nat) (out : Bool) : Option Cmd :=
  s.cmds.find? fun c => c.plot == some plot && c.namesStream &&
    (c.stream == st || (out && (0 < c.shadowSlots || ((mget s.plots plot).bind fun p => mget p.streams c.stream).any fun y => y.wanted == some c.acc)))

/-- A move whose block failed four times (R358): it ends, and the command that needed it ends DATAPATH_FAULT. -/
def moveFailed (s : State) (plot st : Nat) (x : Stream) : State :=
  let back := if x.res == .movingIn then Residency.nonresident else .resident
  let t := { setStream s plot st { x with res := back, wanted := none } with moverRetry := s.moverRetry + 3 }
  match moveUser s plot st (x.res == .movingOut) with
  | some c => failCmd (addRecord t (some plot) (cmdEvent 0x0007 0 0x12 0 0 c)) c (Reply.bare .datapathFault)
  | none => addRecord t (some plot) (deviceEvent 0x0007 0 0x12 0 0)

/-- A move commits at one instant (R217); images that wait for slots may then start in. -/
def moveDone (s : State) (plot st : Nat) (x : Stream) : State :=
  let into := x.res == .movingIn
  let t := noteImage s plot st x
  startMoves (setStream t plot st { x with res := if into then .resident else .nonresident, bad := moveDamage into x.bad }) plot none

/-- MOVE_COMMIT (R217, R358). -/
def execMoveCommit (plot : Fin 6) (stream : Nat) (blocksOk : Bool) (s : State) : Host.Outcome State Fault Refusal :=
  .next (match (mget s.plots plot.val).bind fun p => mget p.streams stream with
    | some x =>
      if x.moving && s.gatehouseUp && s.hbmUp && !s.secure.moverHalted then
        if blocksOk then moveDone s plot.val stream x else moveFailed s plot.val stream x
      else s
    | none => s)

end Sys2Proof.Machine
end

