-- ==== Sys2Proof/Machine/Queues.lean ====
section
/-!
DEFINITION. Queues and functions that come and go: QUEUE_CREATE, QUEUE_DELETE, QUEUE_RESUME, the admin queue through
registers, function resets, and the wake events and clock targets that several commands share
(R274, R316, R317, R348 to R350, R404, R410, R481 to R483).
-/

namespace Sys2Proof.Machine

/-! ## Effective clocks (R404, R421) -/

/-- A new effective value: a running engine relocks to it, and a change during a relock retargets that relock (R404). -/
def retarget (s : State) (e : Nat) : State :=
  let x := s.eng e
  let v := s.effective e
  if x.power == .running then
    if x.eclk = v && x.relock.isNone then s else s.setEng e { x with relock := some v }
  else s.setEng e { x with eclk := v }

def retargetAll (s : State) : State := (List.range 6).foldl retarget s

/-! ## Wake events (R410, R411) -/

/-- A wake event: in P2 the wake begins and FAB_RET goes low (R411, R494). Otherwise the conditions of P2 entry start
over, since a wake event abandons an entry (R409). -/
def wakeEvent (s : State) : State :=
  if s.p2 == .inP2 then { s with p2 := .waking s.lclk, pins := { s.pins with fabRet := false } }
  else { s with p2Cond := none }

/-- A doorbell's wake also starts every gated engine of the function's plot (R411). -/
def wakePlot (s : State) (f : FuncId) : State :=
  match (boundIn s.plots (fidNat f)).bind (mget s.plots) with
  | some p => (inService s p).foldl wakeEngine s
  | none => s

def doorbellWake (s : State) (f : FuncId) : State :=
  if s.p2 == .inP2 then wakePlot (wakeEvent s) f else wakeEvent s

/-! ## Admin commands at their turn -/

/-- An admin command of a ring, at its turn and after every earlier command of its queue (R271). -/
def adminAt (c : CmdRef) (op : Nat) (s : State) (k : Cmd → FuncId → State) : State :=
  atTurn c op s fun d => commitAt s d (match d.src with
    | .ring f _ => k d f
    | .bmc => failCmd s d (Reply.at .notPermitted 0))

/-- The queue that QUEUE_CREATE makes (R281, R316). -/
def newQueue (ps : List Byte) : Queue :=
  let e := fieldAt ps 40 8
  { Queue.blank with
    sqBase := fieldAt ps 8 8, sqSize := fieldAt ps 16 4, cqSize := fieldAt ps 20 4, cqBase := fieldAt ps 24 8,
    shadow := fieldAt ps 32 8, unordered := bitOf (byteAt ps 2) 0, ien := bitOf (byteAt ps 2) 1, vector := byteAt ps 3,
    cthresh := byteAt ps 4, ctime := fieldAt ps 6 2, e := e, firstE := e }

/-- QUEUE_CREATE at its commit point (R316). -/
def createQueue (s : State) (c : Cmd) (f : FuncId) : State :=
  let q := fieldAt c.params 0 2
  if s.allot f ≤ q || (mget (s.fn f).queues q).isSome then failCmd s c (Reply.badParam 32)
  else if 2048 ≤ queuesInUse s then failCmd s c (Reply.noSpace 4)
  else endCmd (s.modFn f fun x => { x with queues := mput x.queues q (newQueue c.params) }) c (Reply.ok [] [])

/-- QUEUE_CREATE (R316). -/
def execQueueCreate (c : CmdRef) (s : State) : Host.Outcome State Fault Refusal :=
  .next (adminAt c 0x60 s fun d f => createQueue s d f)

/-! ## QUEUE_DELETE (R317) -/

/-- Every accepted command of a queue has ended, and its replies and shadow have been written, but for a BROKEN queue,
which writes nothing more (R275). -/
def queueQuiet (s : State) (src : Src) : Bool :=
  !(s.cmds.any fun d => d.src == src) && match s.queue src with
    | some x => x.qstate == .broken || (!x.owed && !(x.slots.any fun sl => sl.kind == .command))
    | none => true

def eraseQueue (s : State) (f : FuncId) (q : Nat) : State := s.modFn f fun x => { x with queues := mdel x.queues q }

/-- QUEUE_DELETE: it waits for the queue's commands, and the queue is gone at its commit point (R317). -/
def deleteQueue (s : State) (c : Cmd) (f : FuncId) : State :=
  let q := fieldAt c.params 0 2
  match s.queue (.ring f q) with
  | none => failCmd s c (Reply.badParam 32)
  | some x =>
    let t := if x.closing then s else beginDelete s f q
    if queueQuiet t (.ring f q) then endCmd (eraseQueue t f q) c (Reply.ok [] []) else t

/-- QUEUE_DELETE (R317). -/
def execQueueDelete (c : CmdRef) (s : State) : Host.Outcome State Fault Refusal :=
  .next (adminAt c 0x61 s fun d f => deleteQueue s d f)

/-! ## QUEUE_RESUME (R274, R317) -/

/-- A HALTED queue is ACTIVE again, and continues from SQ_HEAD with E unchanged (R274). Its shadow is written by the
Gatehouse, so it is owed while that does not run. -/
def resumeQueue (s : State) (src : Src) : State :=
  let t := s.modQueue src fun x => { x with qstate := .active, byRing := false, owed := x.owed || !s.gatehouseUp }
  if s.gatehouseUp then touchShadow t src else t

/-- QUEUE_RESUME at its commit point: a queue that is not HALTED is BAD_PARAM (R317). -/
def resumeAt (s : State) (c : Cmd) (f : FuncId) : State :=
  let src := Src.ring f (fieldAt c.params 0 2)
  match s.queue src with
  | some x => if x.qstate == .halted then endCmd (resumeQueue s src) c (Reply.ok [] []) else failCmd s c (Reply.badParam 32)
  | none => failCmd s c (Reply.badParam 32)

/-- QUEUE_RESUME (R274). -/
def execQueueResume (c : CmdRef) (s : State) : Host.Outcome State Fault Refusal :=
  .next (adminAt c 0x62 s fun d f => resumeAt s d f)

/-! ## Deletion of a function's queues and function resets (R348 to R350, R482) -/

/-- The command is one of the function's ring queues. -/
def Cmd.ofFn (c : Cmd) (f : FuncId) : Bool :=
  match c.src with
  | .ring g _ => g == f
  | .bmc => false

/-- A command that had not committed ends without effect; an in-place operation that had begun leaves its destination
undefined (R310, R349). -/
def dropCmd (s : State) (c : Cmd) : State :=
  let t := endWork s c
  undoStop (if isDirect c.opcode && dirInPlace c.params && Config.hadBegun c.acc then spoilDests t c else t) c

/-- R349: the function's commands end, and its queues are gone; no reply, shadow write or message is sent for them. -/
def deleteQueues (s : State) (f : FuncId) : State :=
  let mine := s.cmds.filter fun c => c.ofFn f
  let t := mine.foldl dropCmd s
  { t.modFn f fun x => { x with queues := [] } with
    cmds := t.cmds.filter fun c => !c.ofFn f
    nvsWait := t.nvsWait.bind fun a => if mine.any (·.acc == a) then none else some a }

/-- The SPDM connection and sessions of a function's DOE mailbox end (R431). -/
def endDoe (s : State) (f : FuncId) : State :=
  { s with spdm := s.spdm.filter fun x => !(x.transport == .doe f), sessions := s.sessions.filter fun x => !(x.2.transport == .doe f) }

/-- The fields of a function that a function reset resets (Table 4 of R458); those of plot scope are kept. -/
def Func.afterReset (x : Func) : Func := { Func.reset with flr := x.flr, logNew := x.logNew, lost := x.lost, ce := x.ce }

/-- A function is active while its admin queue is enabled (R348). -/
def anyActive (s : State) (p : Plot) : Bool := p.fids.any fun f => (s.fn f).enable

/-- PLOT_RESET of the plot that binds the function, when none of its functions is active (R350). -/
def maybePlotReset (s : State) (f : FuncId) : State :=
  match boundIn s.plots (fidNat f) with
  | none => s
  | some n => match mget s.plots n with
    | some p => if anyActive s p then s else retargetAll (plotReset s n)
    | none => s

/-- A function reset (R348 to R350). -/
def functionReset (s : State) (f : FuncId) : State :=
  maybePlotReset ((endDoe (deleteQueues s f) f).modFn f Func.afterReset) f

/-- The VFs that a port presents (R445). -/
def enabledVfs (s : State) (port : Fin 4) : List FuncId :=
  let c := (s.fn ⟨port, 0⟩).cfg
  if c.vfEnable then ((List.range 63).filter fun i => decide (i < c.numVfs)).map fun i => ⟨port, Fin.ofNat 64 (i + 1)⟩ else []

/-- Function resets of several functions, in one instant. -/
def resetAll (s : State) (fs : List FuncId) : State := fs.foldl functionReset s

/-! ## What a function may send again (R414) -/

/-- Shadow writes that a function owes are made (R414). -/
def payShadows (s : State) (f : FuncId) : State :=
  (s.fn f).queues.foldl (fun (t : State) q => if q.2.owed then writeShadow t f q.1 else t) s

/-- A queue of the function has packets that are not read (R410, R456). -/
def unread (s : State) (f : FuncId) : Bool := (s.fn f).queues.any fun q => q.2.qstate == .active && decide (0 < q.2.sqOcc)

/-- What a function may send again is sent: staged replies, then the shadow, then the pending interrupts (R414); in the fatal state
only a pending error vector (R371). Queued work wakes a device in P2 (R456). -/
def resumeFn (s : State) (f : FuncId) : State :=
  if s.dmaOk f && s.lodgeUp then
    let t := flushVecs (if s.gatehouseUp then payShadows (drainFn f (waiting (s.fn f)) s) f else s) f
    if unread t f && t.alive && t.p2 == .inP2 then wakeEvent t else t
  else s

/-- What every function may send again is sent. -/
def resumeFns (s : State) : State := s.funcs.foldl (fun (t : State) f => resumeFn t (fidOf f.1)) s

end Sys2Proof.Machine
end

