-- ==== Sys2Proof/Machine/Faults.lean ====
section
/-!
DEFINITION. Faults and their recovery: engine, route, clock and rail faults, Gatehouse restarts, latent divergence and the
ways into the fatal state (R356 to R373, R391, R393, R418, R493).
-/

namespace Sys2Proof.Machine

/-! ## Engines in fault (R360, R363, R364) -/

/-- A slice starts on an engine, which is RUNNING at the slice's clock (R387, R388, R406). P2 waits for any but an opportunistic one
(R390, R408). -/
def startSlice (s : State) (e : Nat) (k : SliceKind) : State :=
  let t := s.modEng e fun x => { x with slice := some ⟨k, s.lclk, 0⟩, power := .running, relock := none, eclk := s.sliceClock }
  if k == .opportunistic then t else { t with p2Cond := none }

/-- The diagnostic slice of R363, run at once. -/
def startDiagnostic (s : State) (e : Nat) : State :=
  if (s.eng e).failed then s else startSlice s e .diagnostic

/-- ENGINE_FAILED (R364): the engine takes no work, and each such change is a device event. -/
def failEngine (s : State) (e : Nat) : State :=
  if (s.eng e).failed then s
  else
    addRecord (s.modEng e fun x => { x with failed := true, slice := none, overdue := false, relock := none })
      (s.holder e) (deviceEvent 0x0008 2 e 0 0)

/-- LOC of a unit of an engine; row and column for the MA only (R375). -/
def unitCode : EUnit → Nat
  | .ma => 0 | .arbour => 1 | .ve => 2 | .sfu => 3 | .selection => 4 | .pergola => 5 | .wfu => 6 | .scratchpad => 7

def unitLoc (u : EUnit) (row col : BitVec 8) : Nat :=
  unitCode u + (if u == .ma then 256 * row.toNat + 65536 * col.toNat else 0)

/-- The status that a fault gives a command at the instant of its detection (R360): an in-place operation that had begun
leaves its destination undefined (R310). -/
def faultCmd (s : State) (c : Cmd) (st : Status) : State :=
  let t := endWork s c
  failCmd (if isDirect c.opcode && dirInPlace c.params then spoilDests t c else t) c (Reply.bare st)

/-- The checks of an engine's units work: its clock runs, and no restart has cancelled its work (R357, R365). -/
def checksRun (s : State) (e : Nat) : Bool :=
  let x := s.eng e
  s.alive && s.restart.isNone && x.power == .running && !x.failed && !s.power.hold

/-- The failed check is recorded, and the command's pending drains and spills are cancelled (R105). -/
def Engine.checked (x : Engine) (n : CheckNote) (hit : Bool) : Engine :=
  { x with note := some n, bank0 := if hit then AccBank.clear else x.bank0, bank1 := if hit then AccBank.clear else x.bank1 }

/-- A mismatch in a unit of a clocked engine (R105, R360, R363): the record, the end of the affected command, the diagnostic
slice. -/
def engineFault (type e : Nat) (n : CheckNote) (row col : BitVec 8) (c : Option CmdRef) (s : State) : State :=
  if !checksRun s e then s
  else
    let hit := (c.bind s.cmd).filter (onHolder s e)
    let u := s.modEng e fun x => x.checked n hit.isSome
    let t := match hit with
      | some d => faultCmd (addRecord u d.plot (cmdEvent type 0 e (unitLoc n.unit row col) 0 d)) d .datapathFault
      | none => addRecord u (s.holder e) (deviceEvent type 0 e (unitLoc n.unit row col) 0)
    startDiagnostic t e

/-- An error in a word of a memory that no address names (R357, R385): corrected and counted, or the command that reads it
ends. -/
def wordError (unit loc : Nat) (corrected : Bool) (plot : Option Nat) (hit : Option Cmd) (s : State) : State :=
  if corrected then countCorrected s plot false 0
  else match hit with
    | some d => faultCmd (addRecord s d.plot (cmdEvent 0x0002 0 unit loc 0 d)) d .uncorrectableData
    | none => addRecord s plot (deviceEvent 0x0002 0 unit loc 0)

/-- A fault of the Mover (R358, R360): the record, and the end of the command that needed the move. -/
def moverFault (type : Nat) (c : Option CmdRef) (s : State) : State :=
  if !(s.gatehouseUp && s.hbmUp && !s.secure.moverHalted) then s
  else match (c.bind s.cmd).filter fun d => !d.isOpen && d.plot.isSome with
    | some d => faultCmd (addRecord s d.plot (cmdEvent type 0 0x12 0 0 d)) d .datapathFault
    | none => addRecord s none (deviceEvent type 0 0x12 0 0)

/-- A copy of a record in Lodge retention fails: the other one serves until the next patrol rewrites it (R357, R384). A record with
no good copy is beyond the single-fault model (R370). -/
def lodgeCopyFails (r : Nat) (b : Bool) (s : State) : State :=
  if !s.alive then s
  else if s.keeper.lodgeBad.contains (r, !b) then enterFatal 0x15 s
  else { s with keeper := { s.keeper with lodgeBad := (r, b) :: s.keeper.lodgeBad } }

/-- DATAPATH_FAULT (R356 to R360, R376): a block that fails four times was read again three times. -/
def datapathFault (e : Nat) (u : EUnit) (k : CheckKind) (row col : BitVec 8) (v : CheckedValue) (pass : Nat) (c : Option CmdRef)
    (s : State) : State :=
  let n : CheckNote := ⟨u, row.toNat, col.toNat, v, pass⟩
  match k with
  | .residue => engineFault 0x0004 e n row col c s
  | .duplication => engineFault 0x0005 e n row col c s
  | .moverDuplication => moverFault 0x0005 c s
  | .moverBlock => moverFault 0x0007 c (if s.gatehouseUp && s.hbmUp && !s.secure.moverHalted then
      { s with moverRetry := s.moverRetry + 3 } else s)
  | .engineWord b => if checksRun s e then wordError e (unitCode u) b (s.holder e) ((c.bind s.cmd).filter (onHolder s e)) s else s
  | .gatehouseWord b =>
    let hit := (c.bind s.cmd).filter fun d => !d.isOpen
    if s.gatehouseUp then wordError 0x14 0 b (hit.bind (·.plot)) hit s else s
  | .secondFault => if s.alive then enterFatal e s else s
  | .lodgeCopy r b => lodgeCopyFails r b s

/-- DATAPATH_FAULT (R360). -/
def execDatapathFault (e : Fin 6) (u : EUnit) (k : CheckKind) (p : CheckSite) (v : CheckedValue) (c : Option CmdRef) (s : State) :
    Host.Outcome State Fault Refusal :=
  .next (datapathFault e.val u k p.row p.col v p.pass c s)

/-! ## Promenade routes (R358) -/

/-- ROUTE_LOST (R358): 16 failed retries take the route out of use, logged once; a second route between the same units
leads to the fatal state. -/
def routeLost (a b : Nat) (s : State) : State :=
  let r := (min a b, max a b)
  let t := { s with fabRetry := s.fabRetry + 16 }
  if !(s.alive && s.fclk == .running) then s
  else if s.routesLost.contains r then enterFatal 0x13 t
  else addRecord { t with routesLost := t.routesLost ++ [r] } none (deviceEvent 0x000B 2 0x13 0 0)

/-- ROUTE_LOST (R358). -/
def execRouteLost (a b : BitVec 8) (s : State) : Host.Outcome State Fault Refusal :=
  .next (routeLost a.toNat b.toNat s)

/-! ## Gatehouse restart (R365 to R367) -/

/-- The work of an engine in flight is cancelled; entries prefetched stay (R97, R365). -/
def Engine.cancelled (x : Engine) : Engine := { x with ops := [], stuck := [], scalars := [] }

/-- A Gatehouse restart begins: every pair stops, the engines' work is cancelled, and three begun within one second lead to the
fatal state (R365, R367). -/
def startRestart (cause : RestartCause) (s : State) : State :=
  let times := (s.restartTimes.filter fun t => decide (s.lclk < t + msec 1000)) ++ [s.lclk]
  let t := { s with restart := some cause, restarts := sat16 (s.restarts + 1), restartTimes := times, latent := none,
                    engines := s.engines.map fun e => (e.1, e.2.cancelled) }
  if 3 ≤ times.length then enterFatal 0x14 t else t

/-- GH_LOCKSTEP (R365): the mismatch of an active pair begins a restart. -/
def ghLockstep (pair : Nat) (s : State) : State :=
  if s.alive && s.fclk == .running && (s.pair pair).active && s.restart.isNone then startRestart (.lockstep pair) s else s

/-- GH_LOCKSTEP (R365). -/
def execGhLockstep (pair : Fin 4) (s : State) : Host.Outcome State Fault Refusal := .next (ghLockstep pair.val s)

/-- The queue halts on a RETRY_SAFE or EFFECT_UNKNOWN: it is ORDERED, and no admin queue (R273, R366). -/
def skipsAfter (s : State) (src : Src) : Bool :=
  !isAdmin src && match s.queue src with
    | some x => !x.unordered
    | none => false

/-- An accepted command that ends RETRY_SAFE or EFFECT_UNKNOWN when nothing before it in its queue does. -/
def Cmd.retried (c : Cmd) : Bool := !c.won && !c.isOpen

/-- Table 4 of R366 for one command: an ABORT that has won ends OK; an in-place operation that has begun is
EFFECT_UNKNOWN; a later command of an ORDERED queue is SKIPPED; any other is RETRY_SAFE. -/
def restartStatus (s : State) (c : Cmd) : Status :=
  if c.won then .ok
  else if isDirect c.opcode && dirInPlace c.params && !c.isOpen && inOrder s c && Config.hadBegun c.acc then .effectUnknown
  else if !c.isOpen && skipsAfter s c.src && s.cmds.any fun d => d.src == c.src && decide (d.acc < c.acc) && d.retried then
    .skipped
  else .retrySafe

/-- One command ends at a restart (R366). -/
def restartOne (s0 : State) (t : State) (c : Cmd) : State :=
  let st := restartStatus s0 c
  let u := if st == .effectUnknown then spoilDests t c else t
  finish u c (if st == .ok then Reply.ok [] [] else Reply.bare st) (skipsAfter s0 c.src)

/-- The queue of a command that begins a halt at a restart (R273, R366). -/
def restartHalt (s0 : State) (t : State) (c : Cmd) : State :=
  let st := restartStatus s0 c
  if skipsAfter s0 c.src && c.retried && (st == .retrySafe || st == .effectUnknown) then
    t.modQueue c.src fun x =>
      if x.qstate == .active then { x with qstate := .halted, byRing := false, haltSeq := c.seqs.getLastD 0 } else x
  else t

/-- The Mover's moves in for commands in flight are cancelled: the image keeps its home (R217, R365). -/
def Plot.cancelMoves (p : Plot) : Plot :=
  { p with streams := p.streams.map fun x =>
      (x.1, { x.2 with wanted := none, res := if x.2.res == .movingIn then .nonresident else x.2.res }) }

/-- Pairs that fail their self-test are retired in the cycle before RESTART clears (R365, R478). -/
def retirePairs (s : State) (failed : List (Fin 4)) : State :=
  failed.foldl (fun (t : State) i => t.setPair i.val { t.pair i.val with active := false, retired := true }) s

def anyPair (s : State) : Bool := (List.range 4).any fun i => (s.pair i).active

/-- LOC of GH_LOCKSTEP: the pair, and bit 7 when it was retired (R375, R376). -/
def restartLoc (cause : RestartCause) (failed : List (Fin 4)) : Nat :=
  match cause with
  | .lockstep p => p % 4 + (if failed.any (·.val == p) then 128 else 0)
  | _ => match failed with
    | p :: _ => p.val + 128
    | [] => 0

/-- All sources of replies are drained. -/
def drainAll (s : State) : State :=
  drain (resumeFns s) .bmc

/-- Steps 1 to 5 of R365 and R366. -/
def finishRestart (cause : RestartCause) (failed : List (Fin 4)) (s : State) : State :=
  let t := retirePairs s failed
  if !anyPair t then enterFatal 0x14 t
  else
    let u := t.cmds.foldl (restartOne t) t
    let v := t.cmds.foldl (restartHalt t) u
    let w := { v with
      restart := none, nvsWait := none
      plots := v.plots.map fun p => (p.1, p.2.cancelMoves) }
    let x := t.cmds.foldl (fun (y : State) c => if skipsAfter t c.src then touchShadow (drain y c.src) c.src else drain y c.src) w
    reloadFirmware (addRecord (drainAll x) none (deviceEvent 0x0009 2 0x14 (restartLoc cause failed) 0))

/-- GATEHOUSE_RESTART_DONE (R365, R366). -/
def execGatehouseRestartDone (failed : List (Fin 4)) (s : State) : Host.Outcome State Fault Refusal :=
  .next (match s.restart with
    | some c => if s.alive && s.fclk == .running && s.hbmUp then finishRestart c failed s else s
    | none => s)

/-! ## Latent divergence (R368, R369, R393) -/

/-- A latent divergence is logged; the restart begins at once when no command is in flight, and otherwise waits. -/
def latentFound (pair : Nat) (s : State) : State :=
  let t := addRecord s none (deviceEvent 0x000A 2 0x14 pair 0)
  if t.cmds.isEmpty then startRestart .latent t else { t with latent := some (t.latent.getD t.lclk) }

/-- No command in flight is assigned to the pair (R368, R393). -/
def pairIdle (s : State) (i : Nat) : Bool := !(s.cmds.any fun c => Config.pairOf c.acc % 4 == i)

/-- The compare runs on a pair: it is in service, COMPARE is enabled, FCLK runs, and the compare of the period is not complete
(R380, R386, R393). -/
def comparing (s : State) (i : Nat) : Bool :=
  s.alive && s.fclk == .running && s.boot.ready && s.restart.isNone && (s.pair i).active && !(s.pair i).halted &&
    bitOf s.keeper.ctl 4 && decide ((s.pair i).compared ≤ Config.compareSegments)

/-- The segment in progress has had its 1 µs, and no command was assigned to the pair since it began (R393). -/
def segmentDone (s : State) (i : Nat) : Bool :=
  match (s.pair i).segment with
  | some (t, a) => decide (t + usec 1 ≤ s.lclk) && ((List.range (s.accNo - a)).all fun k => Config.pairOf (a + k) % 4 != i)
  | none => false

/-- FULL_STATE_COMPARE (R393): a segment on an idle pair ends, and the next begins; a difference is a latent divergence. -/
def fullStateCompare (pair : Nat) (differs : Bool) (s : State) : State :=
  if comparing s pair && pairIdle s pair && segmentDone s pair then
    let x := s.pair pair
    let t := s.setPair pair { x with compared := x.compared + 1, segment := some (s.lclk, s.accNo) }
    if differs then latentFound pair t else t
  else s

/-- One LCLK cycle of a pair: its idle time, the start or the abandonment of a segment, and a new period after 100 ms of idle time
(R386, R393). -/
def pairTick (s : State) (i : Nat) (x : Pair) : Pair :=
  let runs := s.alive && s.fclk == .running && s.boot.ready && s.restart.isNone && x.active
  let y := if runs && pairIdle s i then { x with idle := x.idle + 1 } else x
  let kept := y.segment.isSome && pairIdle s i && comparing s i &&
    (y.segment.all fun g => (List.range (s.accNo - g.2)).all fun k => Config.pairOf (g.2 + k) % 4 != i)
  let z := { y with segment := if kept then y.segment
    else if pairIdle s i && comparing s i then some (s.lclk, s.accNo) else none }
  if msec 100 ≤ z.idle then { z with idle := 0, compared := 0 } else z

/-- FULL_STATE_COMPARE (R393). -/
def execFullStateCompare (pair : Fin 4) (differs : Bool) (s : State) : Host.Outcome State Fault Refusal :=
  .next (fullStateCompare pair.val differs s)

/-- LATENT_RESTART_TIMEOUT (R369): after 1 ms the restart begins even with commands in flight. -/
def execLatentRestartTimeout (s : State) : Host.Outcome State Fault Refusal :=
  .next (match s.latent with
    | some t => if decide (t + msec 1 ≤ s.lclk) && s.alive && s.restart.isNone then startRestart .latent s else s
    | none => s)

/-- A waiting divergence restarts the Gatehouse at the first cycle with no command in flight (R369). -/
def latentTick (s : State) : State :=
  if s.latent.isSome && s.cmds.isEmpty && s.alive && s.restart.isNone then startRestart .latent s else s

/-! ## Clock errors (R357, R360, R362, R371) -/

/-- The commands that use an engine when its clock or rail fails (R360). Which commands had begun on it is free. -/
def engineUsers (s : State) (e : Nat) : List Cmd :=
  s.cmds.filter fun c => onHolder s e c && !c.isOpen && !fenced s c && orderLets s c &&
    (isDirect c.opcode || runsPlan c.opcode || c.opcode == 0x13) && !(c.opcode == 0x13 && byteAt c.params 1 != e) &&
    !(isDirect c.opcode && dirInPlace c.params && byteAt c.params 0 != e) && Config.hadBegun c.acc && Config.onEngine c.acc e

/-- One command that an engine's clock or rail ends, with its CONTAINED record, which names the engine (R360, R375, R376). -/
def endUser (type e : Nat) (s : State) (c : Cmd) : State :=
  if s.cmds.any (·.acc == c.acc) then faultCmd (addRecord s c.plot (cmdEvent type 0 e 0 0 c)) c .datapathFault else s

/-- What a clock or rail error does on an engine (R360, R363): its users end, and it runs a diagnostic slice or is FAILED. -/
def engineHit (type e : Nat) (restored : Bool) (s : State) : State :=
  let u := (engineUsers s e).foldl (endUser type e) s
  if restored then startDiagnostic u e else failEngine u e

/-- A clock or rail error of an engine (R360, R363, R376). -/
def engineError (type unit e : Nat) (restored : Bool) (s : State) : State :=
  engineHit type e restored (addRecord s (s.holder e) (deviceEvent type 2 unit 0 0))

/-- A port reset's effect on the functions of the port (R348, R457). -/
def resetPort (s : State) (port : Fin 4) : State :=
  resetAll s (⟨port, 0⟩ :: enabledVfs s port)

/-- The link of a port goes down: a function reset of every function on it (R348, R455). -/
def linkDown (s : State) (port : Fin 4) : State :=
  if port.val < s.portCount then
    let t := resetPort s port
    t.setPort port.val { t.port port.val with link := .down }
  else s

/-- CLOCK (R360, R362, R365, R370). -/
def clockError (c : ClockId) (s : State) : State :=
  if !s.alive then s
  else match c with
    | .eclk e restored => if (s.eng e.val).failed || !((s.eng e.val).power == .running) then s else engineError 0x000C 0x18 e.val restored s
    | .fclk =>
      if s.fclk == .running then addRecord { snapshot s with fclk := .relocking } none (deviceEvent 0x000C 2 0x18 0 0) else s
    | .hbm i =>
      if s.stack i.val == .ready then addRecord (s.setStack i.val .relocking) none (deviceEvent 0x000C 2 0x18 0 0) else s
    | .phy p => linkDown (addRecord s none (deviceEvent 0x000C 2 0x18 0 0)) p
    | .lclk => enterFatal 0x18 (addRecord { s with backup := true } none (deviceEvent 0x000C 2 0x18 0 0))

/-- CLOCK (R360). -/
def execClock (c : ClockId) (s : State) : Host.Outcome State Fault Refusal := .next (clockError c s)

/-- FCLK_RELOCK_DONE (R365): FCLK runs again, and the Gatehouse restart begins. -/
def execFclkRelockDone (s : State) : Host.Outcome State Fault Refusal :=
  .next (if s.alive && s.fclk == .relocking then startRestart .fclk { s with fclk := .running } else s)

/-- HBM_RELOCK_DONE (R362): the stack is accessed again, or the device enters the fatal state. -/
def hbmRelockDone (i : Nat) (ok : Bool) (s : State) : State :=
  if s.alive && s.stack i == .relocking then
    if ok then s.setStack i .ready else enterFatal 0x11 s
  else s

/-- HBM_RELOCK_DONE (R362). -/
def execHbmRelockDone (stack : Fin 4) (ok : Bool) (s : State) : Host.Outcome State Fault Refusal :=
  .next (hbmRelockDone stack.val ok s)

/-! ## Rail errors (R360, R370, R493) -/

/-- The record of a rail error, a DEVICE event (R376). -/
def railRecord (s : State) : State := addRecord s none (deviceEvent 0x000D 2 0x19 0 0)

/-- RAIL (R360, R370, R371, R493). -/
def railError (r : RailId) (s : State) : State :=
  if !s.alive then s
  else match r with
    | .engine e restored => if (s.eng e.val).failed then s else engineError 0x000D 0x19 e.val restored s
    | .sram restored =>
      (List.range 6).foldl (fun t e => if (t.eng e).failed then t else engineHit 0x000D e restored t) (railRecord s)
    | .pcie => [0, 1, 2, 3].foldl linkDown (railRecord s)
    | .vaon =>
      let t := enterFatal 0x19 (railRecord s)
      { t with ports := t.ports.map fun p => (p.1, { p.2 with link := .down }) }
    | _ => enterFatal 0x19 (railRecord s)

/-- RAIL (R360). -/
def execRail (r : RailId) (s : State) : Host.Outcome State Fault Refusal := .next (railError r s)

/-- LODGE_LOGIC_MISMATCH (R370). -/
def execLodgeLogicMismatch (s : State) : Host.Outcome State Fault Refusal :=
  .next (if s.lodgeUp then enterFatal 0x15 s else s)

end Sys2Proof.Machine
end

