-- ==== Sys2Proof/Machine/Resets.lean ====
section
/-!
DEFINITION. Bring-up, power sequencing and the reset kinds (R338, R348, R413, R435, R457 to R463, R491 to R498), and the
PCI Express events of file 20: D-states, links, configuration writes and unsupported requests (R414, R446 to R456).
-/

namespace Sys2Proof.Machine

/-! ## Power-on and cold reset (R457, R458, R460, R495, R497) -/

/-- The device at the end of a power-on or cold reset, with straps as sampled: fuses, NVS and firmware store are kept, and
so are the pins that others drive. -/
def resetState (s : State) (lanes smbadr : Nat) (testN : Bool) : State :=
  { State.reset with
    pending := s.pending, out := s.out, freeIx := s.freeIx, accNo := s.accNo, lclk := s.lclk, upSince := s.lclk,
    stores := s.stores,
    ports := s.ports.map fun p => (p.1, { Port.reset with perstN := p.2.perstN })
    pins := { Pins.reset with lanes := lanes, smbadr := smbadr, testN := testN }
    boot := { Boot.reset with enSince := s.lclk } }

/-- A cold reset: the straps are not sampled again (R457, R495). -/
def coldReset (s : State) : State := resetState s s.pins.lanes s.pins.smbadr s.pins.testN

/-- BIF 0b11 is treated as x16 (R497). -/
def bifMode (lanes : Nat) : Nat := if lanes = 3 then 0 else lanes

/-- POWER_ON_RESET (R460, R495): SYS_RST_N deasserts with the supplies present, and the straps are sampled. -/
def execPowerOnReset (lanes : BitVec 2) (smbadr : BitVec 3) (testN : Bool) (s : State) : Host.Outcome State Fault Refusal :=
  .next (if s.pins.vaon && s.pins.mainSupply && !s.pins.sysRstN then resetState s (bifMode lanes.toNat) smbadr.toNat testN else s)

/-- The supplies are present and no power-down runs: a cold reset can take place, also in the fatal state (R371, R498). -/
def State.resettable (s : State) : Bool := s.pins.vaon && s.pins.mainSupply && s.pins.sysRstN && s.pins.pwrDnN

/-- COLD_RESET (R457): SYS_RST_N was held for 1 ms and deasserts. -/
def execColdReset (s : State) : Host.Outcome State Fault Refusal := .next (if s.resettable then coldReset s else s)

/-! ## The steps of bring-up (R460 to R463, R496) -/

/-- Step 2 ends: the firmware is verified and EN_FAB is asserted, or FWFAIL stops bring-up (R427, R462, R496). -/
def configReady (s : State) : State :=
  let b := { s.boot with configReady := true }
  match fwChoose s.stores with
  | some (slot, img) =>
    { s with boot := { b.withImage slot img with stage := 3, enSince := s.lclk }, pins := { s.pins with enFab := true } }
  | none => { s with boot := { b with stage := 2, fwFail := true } }

/-- CONFIG_READY (R462). A device whose TEST_N was sampled low does not leave step 1 (R497). -/
def execConfigReady (s : State) : Host.Outcome State Fault Refusal :=
  .next (if s.alive && s.pins.testN && !s.boot.configReady then configReady s else s)

/-- The power-good input of a rail, and its enable. -/
def Pins.pg (p : Pins) : PgId → Bool
  | .pcie => p.pgPcie | .fab => p.pgFab | .sram => p.pgSram | .core => p.pgCore | .hbm => p.pgHbm

def Pins.en (p : Pins) : PgId → Bool
  | .pcie => p.enPcie | .fab => p.enFab | .sram => p.enSram | .core => p.enCore | .hbm => p.enHbm

def Pins.setPg (p : Pins) (r : PgId) (b : Bool) : Pins :=
  match r with
  | .pcie => { p with pgPcie := b }
  | .fab => { p with pgFab := b }
  | .sram => { p with pgSram := b }
  | .core => { p with pgCore := b }
  | .hbm => { p with pgHbm := b }

/-- An engine in its bring-up slice, its scratchpad zeroed and its tags empty (step 4 of R460). -/
def bringUpEngine (now : Nat) : Engine :=
  { Engine.reset with power := .running, eclk := 10, slice := some ⟨.bringUp, now, 0⟩ }

/-- Step 3 ends: FCLK and the Gatehouse pairs run, the counter takes its reservation, and HBM is powered (R435, R460,
R478, R496). -/
def startCore (s : State) : State :=
  { s with
    engines := (List.range 6).map fun e => (e, bringUpEngine s.lclk)
    fclk := .running, expCtr := s.stores.limit, pairs := (List.range 4).map fun i => (i, ⟨true, false, 0, 0, none, false⟩)
    pins := { s.pins with enHbm := true }, boot := { s.boot with stage := 5, enSince := s.lclk } }

/-- What follows a power-good in bring-up (R496). -/
def nextEnable (s : State) (r : PgId) : State :=
  match r with
  | .fab => if s.boot.stage = 3 && !s.pins.enSram then
      { s with pins := { s.pins with enSram := true }, boot := { s.boot with enSince := s.lclk } } else s
  | .sram => if s.boot.stage = 3 && s.pins.enSram && !s.pins.enCore then
      { s with pins := { s.pins with enCore := true }, boot := { s.boot with enSince := s.lclk } } else s
  | .core => if s.boot.stage = 3 && s.pins.enCore then startCore s else s
  | .hbm => if s.boot.stage = 5 && s.pins.enHbm && s.hbm.isEmpty then
      { s with hbm := (List.range 4).map fun i => (i, Hbm.training) } else s
  | .pcie => s

/-- The power-down order of R498: each enable falls after the rail before it has lost its power-good, and PDN_READY asserts
at the end. -/
def powerDown (p : Pins) : Pins :=
  let a := { p with enHbm := false }
  let b := if a.pgHbm then a else { a with enCore := false }
  let c := if b.enCore || b.pgCore then b else { b with enSram := false }
  let d := if c.enSram || c.pgSram then c else { c with enFab := false }
  let e := if d.enFab || d.pgFab then d else { d with enPcie := false }
  if e.enPcie || e.pgPcie then e else { e with pdnReady := true }

/-- POWER_GOOD (R496, R498): a PG_ input changes. -/
def powerGood (r : PgId) (b : Bool) (s : State) : State :=
  let t := { s with pins := s.pins.setPg r b }
  if !(s.pins.vaon && s.pins.mainSupply && s.pins.sysRstN) then s
  else if !s.pins.pwrDnN then { t with pins := powerDown t.pins }
  else if b && !s.fatal && s.pins.en r then nextEnable t r
  else t

/-- POWER_GOOD (R496). -/
def execPowerGood (r : PgId) (asserted : Bool) (s : State) : Host.Outcome State Fault Refusal := .next (powerGood r asserted s)

/-- When the enable of a rail was asserted. -/
def State.enabledAt (s : State) : PgId → Nat
  | .pcie => s.upSince
  | _ => s.boot.enSince

/-- POWER_GOOD_TIMEOUT (R463, R496): 20 ms after its enable the input has not asserted. -/
def execPowerGoodTimeout (r : PgId) (s : State) : Host.Outcome State Fault Refusal :=
  .next (if s.alive && !s.boot.ready && s.pins.en r && !s.pins.pg r && decide (s.enabledAt r + msec 20 ≤ s.lclk) then
    enterFatal 0x19 s else s)

/-- HBM_TRAINING_DONE (R460, R463): a stack trains, or a third failed attempt leads to the fatal state. -/
def hbmTrainingDone (i : Nat) (ok : Bool) (s : State) : State :=
  if !(s.alive && s.boot.stage = 5 && s.stack i == .training) then s
  else if ok then
    let t := s.setStack i .ready
    { t with boot := { t.boot with stackMask := Nat.lor t.boot.stackMask (2 ^ i), stage := if t.hbmUp then 6 else 5 } }
  else
    let n := (mget s.boot.attempts i).getD 0 + 1
    let t := { s with boot := { s.boot with attempts := mput s.boot.attempts i n } }
    if 3 ≤ n then enterFatal 0x11 t else t

/-- HBM_TRAINING_DONE (R463). -/
def execHbmTrainingDone (stack : Fin 4) (ok : Bool) (s : State) : Host.Outcome State Fault Refusal :=
  .next (hbmTrainingDone stack.val ok s)

/-- Each engine has had its bring-up slice, and its sweeps begin (R381, R388). -/
def startEngine (now : Nat) (s : State) (e : Nat) : State :=
  s.setEng e { Engine.reset with sliceTimer := now, idleSince := now, sweepStart := now, sweepNext := now }

/-- Step 7 (R460): engines whose bring-up slice failed are FAILED, MINSVN is burned up to the image's SVN where the image
asks it (a burn that does not read back is a DEVICE event, R425), and READY is set (R427, R461). -/
def readyState (failed : List (Fin 6)) (burned : Bool) (s : State) : State :=
  let t := (List.range 6).foldl (startEngine s.lclk) s
  let u := failed.foldl (fun (v : State) e => failEngine v e.val) t
  let burn := u.boot.commitSvn = 1 && decide (u.stores.minSvn < u.boot.fwSvn)
  let v := if burn && !burned then addRecord u none (deviceEvent Config.burnEvent 2 0x15 0 0) else u
  retargetAll { v with
    boot := { u.boot with stage := 7, ready := true }
    stores := if burn && burned then { u.stores with minSvn := u.boot.fwSvn } else u.stores
    keeper := { u.keeper with slices := 6, failed := failed.length, ghSweep := u.lclk, hbmSweep := u.lclk, lodgeSweep := u.lclk, ghNext := u.lclk,
                              hbmNext := u.lclk, lodgeNext := u.lclk } }

/-- READY (R460, R463). -/
def execReady (r : ReadyInfo) (s : State) : Host.Outcome State Fault Refusal :=
  .next (if s.alive && s.boot.stage = 6 && !s.boot.ready && s.hbmUp then readyState r.failed r.svnBurned s else s)

/-! ## Power-down, P3 and the return of supplies (R413, R492, R498) -/

/-- The NVS write in progress is completed (R435, R498). -/
def finishNvs (s : State) : State :=
  if s.nvsWait.isSome then
    { s with nvsWait := none, stores := s.stores.reserve }
  else s

/-- Every link goes down: a port reset of each port that is not held by its PERST# (R457, R498). -/
def dropLinks (s : State) : State := ([0, 1, 2, 3] : List (Fin 4)).foldl linkDown s

/-- PWR_DN_N (R498). -/
def execPwrDnN (s : State) : Host.Outcome State Fault Refusal :=
  .next (if s.pins.vaon && s.pins.mainSupply && s.pins.sysRstN && s.pins.pwrDnN then
    let t := dropLinks (finishNvs s)
    { t with pins := powerDown { t.pins with pwrDnN := false } }
  else s)

/-- PWR_DN_N_DEASSERT (R498): before VAON is removed, bring-up runs as after a cold reset. -/
def execPwrDnNDeassert (s : State) : Host.Outcome State Fault Refusal :=
  .next (if s.pins.vaon && s.pins.mainSupply && !s.pins.pwrDnN then coldReset s else s)

/-- Pins while the supplies are off or SYS_RST_N is held (R492). -/
def Pins.off (vaon : Bool) (p : Pins) : Pins :=
  { Pins.reset with vaon := vaon, mainSupply := vaon, sysRstN := false, enPcie := false, pdnReady := false, lanes := p.lanes,
                    smbadr := p.smbadr, testN := p.testN }

/-- A loss of power during the write of a reservation: whether its first copy was whole is free (R422, R435). -/
def tearNvs (s : State) : State :=
  match s.nvsWait with
  | some acc => { s with stores := s.stores.tornReserve (Config.hadBegun acc) }
  | none => s

/-- MAIN_SUPPLY_REMOVAL (R413, R498): P3; everything but fuses, NVS and the firmware store is lost. -/
def execMainSupplyRemoval (s : State) : Host.Outcome State Fault Refusal :=
  .next (if s.pins.vaon then
    { resetState (tearNvs s) s.pins.lanes s.pins.smbadr s.pins.testN with
      pins := Pins.off false s.pins, ports := s.ports.map fun p => (p.1, { Port.reset with perstN := p.2.perstN }) }
  else s)

/-- SUPPLY_RETURN (R492): the device holds its enables low until SYS_RST_N deasserts. -/
def execSupplyReturn (s : State) : Host.Outcome State Fault Refusal :=
  .next (if s.pins.vaon then s else { s with pins := Pins.off true s.pins })

/-! ## Function, port and VF resets (R348, R349, R457, R459) -/

/-- The function serves configuration requests: its link is in L0, and no FLR runs (R459, R462). -/
def cfgServed (s : State) (f : FuncId) : Bool :=
  s.lodgeUp && s.boot.configReady && s.present f && (s.fn f).flr.isNone && (s.port f.port.val).link == .l0

/-- FUNCTION_LEVEL_RESET (R348, R457): an FLR of a PF clears VF Enable and resets its VFs. -/
def flr (f : FuncId) (s : State) : State :=
  let fs := f :: (if f.fn = 0 then enabledVfs s f.port else [])
  (resetAll s fs).modFn f fun x => { x with flr := some s.lclk }

/-- FUNCTION_LEVEL_RESET (R349). -/
def execFunctionLevelReset (f : FuncId) (s : State) : Host.Outcome State Fault Refusal :=
  .next (if cfgServed s f then flr f s else s)

/-- FLR_COMPLETE (R459). -/
def execFlrComplete (f : FuncId) (s : State) : Host.Outcome State Fault Refusal :=
  .next (if s.lodgeUp && (s.fn f).flr.isSome then s.modFn f fun x => { x with flr := none } else s)

/-- PORT_RESET (R348, R457): the link is down until LINK_UP. -/
def portReset (port : Fin 4) (k : PortResetKind) (s : State) : State :=
  let t := resetPort s port
  let x := t.port port.val
  t.setPort port.val { x with link := .down, perstN := match k with
    | .perst => false
    | _ => x.perstN }

/-- PORT_RESET (R457). -/
def execPortReset (port : Fin 4) (k : PortResetKind) (s : State) : Host.Outcome State Fault Refusal :=
  .next (if s.lodgeUp && decide (port.val < s.portCount) && (k == .perst || !((s.port port.val).link == .down)) then
    portReset port k s else s)

/-- LINK_UP (R459): PERST# is deasserted and the link has trained. -/
def execLinkUp (port : Fin 4) (s : State) : Host.Outcome State Fault Refusal :=
  .next (if s.lodgeUp && decide (port.val < s.portCount) && (s.port port.val).link == .down then
    { s.setPort port.val { s.port port.val with link := .l0, perstN := true, idleSince := s.lclk } with p2Cond := none }
  else s)

/-- VFs that a change of VF Enable or NumVFs removes (R348). -/
def removedVfs (s : State) (port : Fin 4) (numVfs : Nat) (enable : Bool) : List FuncId :=
  (enabledVfs s port).filter fun f => !enable || decide (numVfs < f.fn.val)

/-- VF_REMOVAL (R348). -/
def vfRemoval (port : Fin 4) (numVfs : Nat) (enable : Bool) (s : State) : State :=
  let t := resetAll s (removedVfs s port numVfs enable)
  t.modFn ⟨port, 0⟩ fun x => { x with cfg := { x.cfg with vfEnable := enable, numVfs := numVfs } }

/-- VF_REMOVAL (R348): the write removes some enabled VF. -/
def execVfRemoval (port : Fin 4) (numVfs : Nat) (enable : Bool) (s : State) : Host.Outcome State Fault Refusal :=
  .next (if cfgServed s ⟨port, 0⟩ && decide (numVfs ≤ 63) && !(removedVfs s port numVfs enable).isEmpty then
    vfRemoval port numVfs enable s else s)

/-! ## D-states and links (R410, R414, R456) -/

/-- The functions that a port presents. -/
def presentFns (s : State) (port : Fin 4) : List FuncId := ⟨port, 0⟩ :: enabledVfs s port

/-- A port whose functions are all in D3hot brings its link to L1 (R408). -/
def allD3 (s : State) (port : Fin 4) : Bool := (presentFns s port).all fun f => (s.fn f).cfg.d3hot

/-- D3HOT_ENTRY (R414). -/
def execD3hotEntry (f : FuncId) (bmeLost : Bool) (s : State) : Host.Outcome State Fault Refusal :=
  .next (if cfgServed s f then
    if bmeLost then s.modFn f fun x => { x with cfg := { x.cfg with busMaster := false } }
    else
      let t := s.modFn f fun x => { x with cfg := { x.cfg with d3hot := true } }
      if allD3 t f.port then t.setPort f.port.val { t.port f.port.val with link := .l1 } else t
  else s)

/-- D0_RETURN (R414). -/
def execD0Return (f : FuncId) (s : State) : Host.Outcome State Fault Refusal :=
  .next (if cfgServed s f then
    resumeFn (s.modFn f fun x => { x with cfg := { x.cfg with d3hot := false, busMaster := true } }) f
  else s)

/-- ASPM_L1_REQUEST (R456): L1 is enabled, and the port has been without a pending transaction for 16 µs. -/
def execAspmL1Request (port : Fin 4) (s : State) : Host.Outcome State Fault Refusal :=
  let x := s.port port.val
  .next (if s.lodgeUp && decide (port.val < s.portCount) && x.link == .l0 && (s.fn ⟨port, 0⟩).cfg.aspmL1 &&
      decide (x.idleSince + usec 16 ≤ s.lclk) then
    let t := s.setPort port.val { x with link := .l1 }
    { t with out := t.out ++ [.l1Request port.val] }
  else s)

/-- LINK_RETURNS_TO_L0 (R410): it breaks the conditions of P2 entry and wakes nothing. -/
def execLinkReturnsToL0 (port : Fin 4) (s : State) : Host.Outcome State Fault Refusal :=
  let x := s.port port.val
  .next (if s.lodgeUp && (x.link == .l1 || x.link == .l2) then
    { s.setPort port.val { x with link := .l0, idleSince := s.lclk } with p2Cond := none }
  else s)

/-! ## Configuration writes and unsupported requests (R445, R446, R450, R451, R454) -/

/-- One field of a function's configuration space. Values that the device does not support leave the field (R445). -/
def Cfg.write (c : Cfg) (fld : CfgField) (v : Nat) : Cfg :=
  match fld with
  | .memorySpace => { c with memorySpace := v % 2 == 1 }
  | .busMaster => { c with busMaster := v % 2 == 1 }
  | .vfEnable => { c with vfEnable := v % 2 == 1 }
  | .numVfs => if v ≤ 63 then { c with numVfs := v } else c
  | .relaxedOrdering => { c with relaxed := v % 2 == 1 }
  | .maxPayload => if v ≤ 2 then { c with maxPayload := v } else c
  | .maxRead => if v ≤ 5 then { c with maxRead := v } else c
  | .timeoutRange => if v < 16 then { c with timeoutRange := v } else c
  | .msixEnable => { c with msixEnable := v % 2 == 1 }
  | .msixMask => { c with msixMask := v % 2 == 1 }
  | .aspmL1 => { c with aspmL1 := v % 2 == 1 }

/-- SR-IOV fields stand in the PF only (R445, R448). -/
def cfgFieldThere (f : FuncId) : CfgField → Bool
  | .vfEnable => f.fn == 0
  | .numVfs => f.fn == 0
  | _ => true

/-- CONFIGURATION_WRITE (R451): a change that removes VFs is their function reset (R348). -/
def configWrite (f : FuncId) (fld : CfgField) (v : Nat) (s : State) : State :=
  let c := (s.fn f).cfg.write fld v
  let t := if f.fn = 0 then resetAll s (removedVfs s f.port c.numVfs c.vfEnable) else s
  resumeFn (t.modFn f fun x => { x with cfg := c }) f

/-- CONFIGURATION_WRITE (R451). -/
def execConfigurationWrite (f : FuncId) (fld : CfgField) (value : Nat) (s : State) : Host.Outcome State Fault Refusal :=
  .next (if cfgServed s f && cfgFieldThere f fld then configWrite f fld value s else s)

/-- The function serves memory requests (R451). -/
def mmioServed (s : State) (f : FuncId) : Bool :=
  s.lodgeUp && s.present f && (s.port f.port.val).link == .l0 && (s.fn f).cfg.memorySpace && !(s.fn f).cfg.d3hot &&
    (s.fn f).flr.isNone

/-- A request that the port completes with Unsupported Request (R446, R450, R451). -/
def isUr (s : State) : UrReq → Bool
  | .read f _ off len => !mmioServed s f || decide (64 < len) || off / 64 != (off + len - 1) / 64
  | .write f _ _ _ => !mmioServed s f
  | .unsupported _ => true

def urPort : UrReq → Nat
  | .read f _ _ _ => f.port.val
  | .write f _ _ _ => f.port.val
  | .unsupported p => p.val

/-- UNSUPPORTED_REQUEST (R446). -/
def execUnsupportedRequest (r : UrReq) (s : State) : Host.Outcome State Fault Refusal :=
  .next (if s.lodgeUp && decide (urPort r < s.portCount) && (s.port (urPort r)).link == .l0 && isUr s r then
    { s with out := s.out ++ [.unsupported (urPort r)] } else s)

end Sys2Proof.Machine
end

