-- ==== Sys2Proof/Machine/Keeper.lean ====
section
/-!
DEFINITION. The Groundskeeper: patrol sweeps and scrub accesses, logic test slices and HBM calibration
(R187, R188, R380 to R392, R397, R398).
-/

namespace Sys2Proof.Machine

/-- The Groundskeeper runs: after READY, on FCLK, so not in P2 (R380, R386). -/
def keeperRuns (s : State) : Bool := s.alive && s.boot.ready && s.fclk == .running

/-- A function of GK_CTL is enabled (Table 4 of R397). -/
def keeperOn (s : State) (bit : Nat) : Bool := keeperRuns s && bitOf s.keeper.ctl bit

/-! ## Patrol of the scratchpads (R187, R188, R381) -/

/-- One damaged granule that the scrub reads: corrected and counted, poisoned and logged once, or left (R188). -/
def scrubGranule (e : Nat) (s : State) (g : Nat × GState) : State :=
  match g.2 with
  | .correctable =>
    countCorrected (s.modEng e fun x => { x with spad := { x.spad with gran := mdel x.spad.gran g.1 } }) (s.holder e) false (16 * g.1)
  | .uncorrectable =>
    addRecord (s.modEng e fun x => { x with spad := { x.spad with gran := mput x.spad.gran g.1 .poisoned } }) (s.holder e)
      (deviceEvent 0x0003 1 e spadLoc (16 * g.1))
  | .poisoned => s

/-- The scrub reads the granules of a range of addresses (R188). -/
def scrubRange (s : State) (e lo hi : Nat) : State :=
  ((s.eng e).spad.gran.filter fun g => decide (lo ≤ 16 * g.1) && decide (16 * g.1 < hi)).foldl (scrubGranule e) s

/-- Errors that arise in granules of a range which had none. -/
def upsetGranules (p : Spad) (lo hi : Nat) (us : List (Nat × GState)) : Spad :=
  us.foldl (fun (q : Spad) u =>
    if decide (lo ≤ u.1) && decide (u.1 < hi) && decide (u.1 < spadSize) && (mget q.gran (u.1 / 16)).isNone then
      { q with gran := mput q.gran (u.1 / 16) u.2 } else q) p

/-- The cycles of an engine's banks occur: its ECLK runs (R187, R419). -/
def eclkRuns (s : State) (e : Nat) : Bool :=
  (s.eng e).power == .running && (s.eng e).relock.isNone && !(s.eng e).failed && !s.power.hold

/-- SCRUB_ACCESS (R187, R188): in a reserved cycle of a bank the scrub reads the next 32 blocks, one of each sub-bank. -/
def scrubAccess (e bank : Nat) (upset : List (Nat × GState)) (s : State) : State :=
  if keeperOn s 0 && eclkRuns s e then
    let pos := (mget (s.eng e).scrub bank).getD 0
    let lo := bank * 524288 + pos * 2048
    let t := s.modEng e fun x =>
      { x with scrub := mput x.scrub bank ((pos + 1) % 256), spad := upsetGranules x.spad lo (lo + 2048) upset }
    scrubRange t e lo (lo + 2048)
  else s

/-- SCRUB_ACCESS (R188). -/
def execScrubAccess (e : Fin 6) (bank : Fin 40) (upset : List (Nat × GState)) (s : State) : Host.Outcome State Fault Refusal :=
  .next (scrubAccess e.val bank.val upset s)

/-- SP_PATROL_SWEEP (R381): a sweep that is due reads every granule of one engine; an engine that is gated stays so. -/
def spSweep (e : Nat) (s : State) : State :=
  if keeperOn s 0 && decide ((s.eng e).sweepNext ≤ s.lclk) && !(s.eng e).failed && !s.power.hold then
    (scrubRange s e 0 spadSize).modEng e fun x => { x with sweepStart := s.lclk, sweepNext := s.lclk + msec 32 }
  else s

/-- SP_PATROL_SWEEP (R381). -/
def execSpPatrolSweep (e : Fin 6) (s : State) : Host.Outcome State Fault Refusal := .next (spSweep e.val s)

/-! ## Patrol of the Glasshouse and of HBM (R382, R383) -/

/-- A map of damage with an error that arises where there was none. -/
def upsetMap (m : Map GState) (k : Nat) (st : GState) : Map GState := if (mget m k).isSome then m else mput m k st

/-- Damage as patrol leaves it: correctable errors corrected, uncorrectable ones poisoned. -/
def patrolled (m : Map GState) : Map GState :=
  m.filterMap fun p => match p.2 with
    | .correctable => none
    | _ => some (p.1, .poisoned)

/-- What patrol counts and logs of an object's damage: `unit` bytes to an entry, at an ADDR of R375. -/
def notePatrol (plot code unit : Nat) (hbm : Bool) (addr : Nat → Nat) (s : State) (m : Map GState) : State :=
  m.foldl (fun (t : State) p => match p.2 with
    | .correctable => countCorrected t (some plot) hbm (addr (unit * p.1))
    | .uncorrectable => addRecord t (some plot) (deviceEvent 0x0003 1 code 0 (addr (unit * p.1)))
    | .poisoned => t) s

/-- One stream image patrolled where its home is: by granule in the Glasshouse, by code word in HBM (R12, R214). -/
def patrolStream (glass : Bool) (plot : Nat) (s : State) (st : Nat × Stream) : State :=
  if st.2.inGlass == glass then
    notePatrol plot (if glass then 0x10 else 0x11) st.2.unit (!glass) (imageAddr st.1)
      (setStream s plot st.1 { st.2 with bad := patrolled st.2.bad }) st.2.bad
  else s

/-- One tensor patrolled in HBM. -/
def patrolTensor (plot : Nat) (s : State) (t : Nat × Tensor) : State :=
  notePatrol plot 0x11 32 true (hbmAddr t.1) (setTensor s plot t.1 { t.2 with bad := patrolled t.2.bad }) t.2.bad

/-- One plan image patrolled in HBM. -/
def patrolPlan (plot : Nat) (s : State) (q : Nat × Plan) : State :=
  notePatrol plot 0x11 32 true (hbmAddr q.1)
    (s.modPlot plot fun p => { p with plans := mput p.plans q.1 { q.2 with bad := patrolled q.2.bad } }) q.2.bad

/-- An error in a slot or page that no object holds: counted or logged for the device, with ADDR 0 (R375, log entry 89). -/
def noteFree (code : Nat) (s : State) (st : GState) : State :=
  match st with
  | .correctable => countCorrected s none (code == 0x11) 0
  | .uncorrectable => addRecord s none (deviceEvent 0x0003 1 code 0 0)
  | .poisoned => s

/-- An error that a sweep finds in a stream image. -/
def upsetImage (glass : Bool) (s : State) (plot : Nat) (f : Found) : State :=
  s.modPlot plot fun p =>
    let g (x : Stream) : Stream :=
      if x.inGlass == glass && decide (f.off < x.img.length) then { x with bad := upsetMap x.bad (f.off / x.unit) f.st } else x
    { p with streams := mmod p.streams f.obj g }

/-- An error that a Glasshouse sweep finds: in an image, or in a slot that none holds. -/
def upsetGlass (s : State) (f : Found) : State :=
  match f.plot with
  | none => noteFree 0x10 s f.st
  | some n => upsetImage true s n.val f

/-- An error that an HBM sweep finds: in a tensor, a plan or the image of a stream of a plot, or in a page that none holds. -/
def upsetHbm (s : State) (f : Found) : State :=
  match f.plot with
  | none => noteFree 0x11 s f.st
  | some n => match mget s.plots n.val with
    | none => s
    | some p => match mget p.tensors f.obj, mget p.plans f.obj with
      | some t, _ =>
        if decide (f.off < t.img.length) then setTensor s n.val f.obj { t with bad := upsetMap t.bad (f.off / 32) f.st } else s
      | none, some q =>
        if decide (f.off < q.img.length) then
          s.setPlot n.val { p with plans := mput p.plans f.obj { q with bad := upsetMap q.bad (f.off / 32) f.st } }
        else s
      | none, none => upsetImage false s n.val f

/-- GH_PATROL_SWEEP (R382). -/
def ghSweep (found : List Found) (s : State) : State :=
  if keeperOn s 1 && decide (s.keeper.ghNext ≤ s.lclk) then
    let t := found.foldl upsetGlass s
    let u := t.plots.foldl (fun (v : State) p => p.2.streams.foldl (patrolStream true p.1) v) t
    { u with keeper := { u.keeper with ghSweep := s.lclk, ghNext := s.lclk + msec 32 } }
  else s

/-- GH_PATROL_SWEEP (R382). -/
def execGhPatrolSweep (found : List Found) (s : State) : Host.Outcome State Fault Refusal := .next (ghSweep found s)

/-- HBM_PATROL_SWEEP (R383): a sweep that began when it fell due is complete, and the next begins 16 s after it began; in catch-up
while it is more than 1 s behind an even pace (log entry 89). -/
def hbmSweep (found : List Found) (behind : Bool) (s : State) : State :=
  if keeperOn s 2 && s.hbmUp && decide (s.keeper.hbmNext ≤ s.lclk) then
    let t := found.foldl upsetHbm s
    let u := t.plots.foldl (fun (v : State) p =>
      p.2.streams.foldl (patrolStream false p.1) (p.2.plans.foldl (patrolPlan p.1) (p.2.tensors.foldl (patrolTensor p.1) v))) t
    let k := s.keeper.hbmNext
    { u with keeper := { u.keeper with hbmSweep := k, hbmNext := max s.lclk (k + msec 16000), catchup := behind } }
  else s

/-- HBM_PATROL_SWEEP (R383). -/
def execHbmPatrolSweep (found : List Found) (behind : Bool) (s : State) : Host.Outcome State Fault Refusal :=
  .next (hbmSweep found behind s)

/-- LODGE_PATROL_SWEEP (R357, R384): the copies of each retention record are compared, and a failing one is rewritten from the good
one, which has the record's content. -/
def lodgeSweep (s : State) : State :=
  if keeperRuns s && decide (s.keeper.lodgeNext ≤ s.lclk) then
    { s with keeper := { s.keeper with lodgeBad := [], lodgeSweep := s.lclk, lodgeNext := s.lclk + msec 1000 } }
  else s

/-- LODGE_PATROL_SWEEP (R384). -/
def execLodgePatrolSweep (s : State) : Host.Outcome State Fault Refusal := .next (lodgeSweep s)

/-! ## Logic test slices (R387 to R391) -/

/-- Engines in an opportunistic slice. -/
def oppCount (s : State) : Nat :=
  ((List.range 6).filter fun e => ((s.eng e).slice.map (·.kind)) == some SliceKind.opportunistic).length

/-- An engine at a chunk boundary: no epoch and no direct operation is in computation on it (R389). -/
def Engine.atBoundary (x : Engine) : Bool := x.ops.isEmpty && x.scalars.isEmpty

/-- A WFU prefetch entry is outstanding (R406). -/
def Wfu.outstanding (w : Wfu) : Bool := w.sched.any fun p => p.issued && !p.done

/-- OPPORTUNISTIC_SLICE (R388): the timer has reached 150 ms, and the engine has had no work for 50 µs. -/
def opportunisticSlice (e : Nat) (s : State) : State :=
  let x := s.eng e
  if keeperOn s 3 && !x.failed && x.slice.isNone && !s.power.hold && decide (x.sliceTimer + msec 150 ≤ s.lclk) &&
      x.atBoundary && !x.wfu.outstanding && !x.isWaking &&
      decide (x.idleSince + usec 50 ≤ s.lclk) && decide (oppCount s < 2) then startSlice s e .opportunistic
  else s

/-- OPPORTUNISTIC_SLICE (R388). -/
def execOpportunisticSlice (e : Fin 6) (s : State) : Host.Outcome State Fault Refusal := .next (opportunisticSlice e.val s)

/-- FORCED_SLICE_DUE (R389): the timer reaches 245 ms. -/
def forcedSliceDue (e : Nat) (s : State) : State :=
  let x := s.eng e
  if keeperOn s 3 && !x.failed && !x.overdue && decide (x.sliceTimer + msec 245 ≤ s.lclk) then
    s.setEng e { x with overdue := true } else s

/-- FORCED_SLICE_DUE (R389). -/
def execForcedSliceDue (e : Fin 6) (s : State) : Host.Outcome State Fault Refusal := .next (forcedSliceDue e.val s)

/-- FORCED_SLICE_START (R389): at a chunk boundary of the engine. -/
def forcedSliceStart (e : Nat) (s : State) : State :=
  let x := (abandonSlice s e).eng e
  if keeperOn s 3 && !(s.eng e).failed && (s.eng e).overdue && !s.power.hold && x.slice.isNone && x.atBoundary then
    startSlice (abandonSlice s e) e .forced else s

/-- FORCED_SLICE_START (R389). -/
def execForcedSliceStart (e : Fin 6) (s : State) : Host.Outcome State Fault Refusal := .next (forcedSliceStart e.val s)

/-- GK_COUNT of the device and of the plot that holds the engine (R398). -/
def countSlice (s : State) (e : Nat) (forced pass : Bool) : State :=
  let k := s.keeper
  let t := { s with keeper := { k with
    slices := sat16 (k.slices + 1), forced := if forced then sat16 (k.forced + 1) else k.forced
    failed := if pass then k.failed else sat16 (k.failed + 1) } }
  t.modHolder e fun p =>
    { p with
      gkSlices := sat16 (p.gkSlices + 1), gkForced := if forced then sat16 (p.gkForced + 1) else p.gkForced
      gkFailed := if pass then p.gkFailed else sat16 (p.gkFailed + 1) }

/-- SLICE_COMPLETE (R387, R391), but for the bring-up slices, which READY ends: after its 200,000 cycles a slice that passes resets the timer, and one that fails makes
the engine FAILED. The engine is at its own clock again at once (log entry 87). -/
def sliceComplete (e : Nat) (pass : Bool) (s : State) : State :=
  match (s.eng e).slice with
  | none => s
  | some sl =>
    if s.alive && !s.power.hold && !(sl.kind == .bringUp) && decide (200000 ≤ sl.cycles) then
      let t := countSlice s e (sl.kind == .forced) pass
      if pass then
        t.modEng e fun x =>
          { x with slice := none, sliceTimer := s.lclk, overdue := false, idleSince := s.lclk, relock := none
                   eclk := min (s.target e) s.power.ceiling }
      else failEngine t e
    else s

/-- SLICE_COMPLETE (R391). -/
def execSliceComplete (e : Fin 6) (pass : Bool) (s : State) : Host.Outcome State Fault Refusal := .next (sliceComplete e.val pass s)

/-! ## HBM calibration (R392) -/

def Sensors.hbm (x : Sensors) (i : Nat) : Nat :=
  match i with
  | 0 => x.hbm0 | 1 => x.hbm1 | 2 => x.hbm2 | _ => x.hbm3

/-- A channel is due: 32 ms have passed since its last calibration, or its stack's temperature has moved by 5 °C. -/
def calibrationDue (s : State) (i ch : Nat) : Bool :=
  match mget s.keeper.calib (16 * i + ch) with
  | none => true
  | some (t, c) => decide (t + msec 32 ≤ s.lclk) || decide (c + 5 ≤ s.sensors.hbm i) || decide (s.sensors.hbm i + 5 ≤ c)

/-- Channels that fall due are noted, from which their 4 ms count (R392). -/
def calibrationTick (s : State) : Map Nat :=
  if keeperRuns s then
    (List.range 64).foldl (fun (m : Map Nat) k =>
      if s.stack (k / 16) == .ready && calibrationDue s (k / 16) (k % 16) && (mget m k).isNone then mput m k s.lclk else m)
      s.keeper.calibDue
  else s.keeper.calibDue

/-- A calibration step of a channel; one that cannot reach valid timing retrains the stack as R362 describes. -/
def calibrate (i ch : Nat) (valid : Bool) (s : State) : State :=
  let t := { s with keeper := { s.keeper with
    calib := mput s.keeper.calib (16 * i + ch) (s.lclk, s.sensors.hbm i), calibDue := mdel s.keeper.calibDue (16 * i + ch) } }
  if valid then t else t.setStack i .relocking

/-- HBM_CALIBRATION (R392), whatever GK_CTL holds (R397): the event says that a window without requests arose (log entry 89). -/
def execHbmCalibration (stack : Fin 4) (ch : Fin 16) (valid : Bool) (s : State) : Host.Outcome State Fault Refusal :=
  .next (if keeperRuns s && s.stack stack.val == .ready && calibrationDue s stack.val ch.val then
    calibrate stack.val ch.val valid s else s)

/-- The calibration of a channel has been due for 4 ms (R392). -/
def calibrationLate (s : State) (k : Nat) : Bool := (mget s.keeper.calibDue k).any fun t => decide (t + msec 4 ≤ s.lclk)

/-- CALIBRATION_WINDOW_TIMEOUT (R392): no window arose within 4 ms, and the calibration takes the channel. -/
def execCalibrationWindowTimeout (stack : Fin 4) (ch : Fin 16) (valid : Bool) (s : State) : Host.Outcome State Fault Refusal :=
  .next (if keeperRuns s && s.stack stack.val == .ready && calibrationLate s (16 * stack.val + ch.val) then
    calibrate stack.val ch.val valid s else s)

end Sys2Proof.Machine
end

