-- ==== Sys2Proof/Machine/Power.lean ====
section
/-!
DEFINITION. Power states, engine gating and wakes, P2, limiting and thermal protection, telemetry refresh, and one LCLK
cycle (R369, R399 to R421, R471).
-/

namespace Sys2Proof.Machine

/-! ## Engines: race to sleep and wake on work (R404, R406, R407, R419) -/

/-- The engine is IDLE, and has been for GATE_DELAY, with nothing outstanding (R406). After a wake from P2 the delay counts
from the instant HBM is ready (R411), and no engine gates in a thermal hold (R419). -/
def mayGate (s : State) (e : Nat) : Bool :=
  let x := s.eng e
  s.alive && s.p2 == .awake && x.power == .running && !x.failed && x.relock.isNone && x.slice.isNone && x.atBoundary &&
    !x.wfu.outstanding && !s.power.hold && !x.halted && decide (x.idleSince + usec s.power.gateDelay ≤ s.lclk)

/-- A gated engine: the scratchpad and its tags are retained, banks and descriptor cache hold nothing (R28, R406); the copies of
its counters keep their last values (R400). -/
def Engine.gate (x : Engine) : Engine :=
  { x with power := .gated, bank0 := AccBank.clear, bank1 := AccBank.clear, descCache := [], telSnap := x.tel }

/-- ENGINE_GATE (R406). -/
def execEngineGate (e : Fin 6) (s : State) : Host.Outcome State Fault Refusal :=
  .next (if mayGate s e.val then s.modEng e.val Engine.gate else s)

/-- ENGINE_WAKE_DONE (R407): the engine's clock runs at its effective value; none wakes during a thermal hold (R419). -/
def engineWakeDone (e : Nat) (s : State) : State :=
  match (s.eng e).power with
  | .waking _ =>
    if s.alive && !s.power.hold then
      s.modEng e fun x => { x with power := .running, relock := none, eclk := s.effective e, idleSince := s.lclk }
    else s
  | _ => s

/-- ENGINE_WAKE_DONE (R407). -/
def execEngineWakeDone (e : Fin 6) (s : State) : Host.Outcome State Fault Refusal := .next (engineWakeDone e.val s)

/-- ECLK_RELOCK_DONE (R404). -/
def eclkRelockDone (e : Nat) (s : State) : State :=
  match (s.eng e).relock with
  | some v => if s.alive then s.modEng e fun x => { x with eclk := v, relock := none } else s
  | none => s

/-- ECLK_RELOCK_DONE (R404). -/
def execEclkRelockDone (e : Fin 6) (s : State) : Host.Outcome State Fault Refusal := .next (eclkRelockDone e.val s)

/-! ## P2 (R386, R408 to R412, R441) -/

/-- The conditions of R408 hold now, and have held for P2_DELAY, in units of 10 µs. -/
def p2Due (s : State) : Bool :=
  p2Ready s && match s.p2Cond with
    | some t => decide (t + usec (10 * s.power.p2Delay) ≤ s.lclk)
    | none => false

/-- Every halt of a debugger is released (R441). -/
def releaseHalts (s : State) : State :=
  { s with
    pairs := s.pairs.map fun p => (p.1, { p.2 with halted := false })
    engines := s.engines.map fun e => (e.1, { e.2 with halted := false })
    secure := { s.secure with moverHalted := false } }

/-- An INVASIVE session ends: the level is CLOSED, halts are released, and the firmware is to be read and verified again the
next time the Gatehouse runs (R441). -/
def endInvasive (s : State) : State :=
  if s.secure.level == .invasive then
    let t := releaseHalts s
    { t with secure := { t.secure with level := .closed, reload := true, trace := [] } }
  else s

/-- P2_ENTRY (R409): an INVASIVE session ends, opportunistic slices are abandoned, the Lodge takes the last copies of what stops
(R29, R400), every stack enters self-refresh, FCLK stops, and FAB_RET goes high (R494). -/
def enterP2 (s : State) : State :=
  let t := snapshot ((List.range 6).foldl abandonSlice (endInvasive s))
  { t with
    p2 := .inP2, p2Since := t.lclk, p2Cond := none, fclk := .stopped, hbm := t.hbm.map fun h => (h.1, Hbm.selfRefresh)
    pins := { t.pins with fabRet := true } }

/-- P2_ENTRY (R409). -/
def execP2Entry (s : State) : Host.Outcome State Fault Refusal := .next (if p2Due s then enterP2 s else s)

/-- Sweeps start again, and slice timers go on from the values they held (R386). -/
def resumeKeeper (s : State) : State :=
  let d := s.lclk - s.p2Since
  { s with
    engines := s.engines.map fun e => (e.1, { e.2 with sliceTimer := e.2.sliceTimer + d, sweepNext := s.lclk, scrub := [] })
    keeper := { s.keeper with ghNext := s.lclk, hbmNext := s.lclk, lodgeNext := s.lclk, catchup := false, calibDue := [] } }

/-- FCLK_START (R411, R494): 10 µs after FAB_RET went low FCLK and the HBM PLLs start, and the Gatehouse restores its state;
after an INVASIVE session it reads and verifies its firmware first (R441). -/
def fclkStart (s : State) : State :=
  match s.p2 with
  | .waking t =>
    if s.alive && s.fclk == .stopped && decide (t + usec 10 ≤ s.lclk) then
      let u := resumeKeeper { s with fclk := .running, hbm := s.hbm.map fun h => (h.1, Hbm.exiting) }
      resumeFns (reloadFirmware u)
    else s
  | _ => s

/-- FCLK_START (R411). -/
def execFclkStart (s : State) : Host.Outcome State Fault Refusal := .next (fclkStart s)

/-- HBM_READY (R411): the stacks are ready, and a running engine's GATE_DELAY counts from now. -/
def hbmReady (s : State) : State :=
  match s.p2 with
  | .waking _ =>
    if s.alive && s.fclk == .running then
      { s with
        p2 := .awake, p2Cond := none, hbm := s.hbm.map fun h => (h.1, if h.2 == .exiting then Hbm.ready else h.2)
        engines := s.engines.map fun e => (e.1, { e.2 with idleSince := s.lclk }) }
    else s
  | _ => s

/-! ## Limiting (R416, R417, R420) -/

/-- Over a limit the ceiling falls by 100 MHz; at 0.4 GHz and over PLIMIT, one pulse in eight more is omitted, down to one
pulse in four (R416, R417). -/
def lower (p : Power) (overP overT : Bool) : Power :=
  let q := { p with underSince := none, limP := p.limP || overP, limT := p.limT || overT }
  if 4 < p.ceiling then { q with ceiling := p.ceiling - 1 }
  else if overP then { q with omitted := min 6 (p.omitted + 1) }
  else q

/-- Within both limits for 1 ms the ceiling rises by 100 MHz (R416); omitted pulses come back one eighth a period. -/
def relax (now : Nat) (p : Power) : Power :=
  let since := p.underSince.getD now
  let q := { p with underSince := some since, omitted := p.omitted - 1 }
  if p.ceiling < 18 && decide (since + msec 1 ≤ now) then
    let c := p.ceiling + 1
    { q with ceiling := c, underSince := some now, limP := q.limP && decide (c < 18), limT := q.limT && decide (c < 18) }
  else q

/-- One control period of R416 with the power, in W, and the hottest die temperature, in °C. -/
def control (now power temp : Nat) (p : Power) : Power :=
  if p.plimit < power || p.tlimit < temp then lower p (decide (p.plimit < power)) (decide (p.tlimit < temp))
  else if decide (power * 100 < 95 * p.plimit) && decide (temp + 3 < p.tlimit) then relax now p
  else { p with underSince := none }

/-- LIMIT_CONTROL_PERIOD (R402, R416): once 100 µs have passed since the last; 100 µs at a power are 0.1 mJ for each W (R472). -/
def limitPeriod (power temp : Nat) (s : State) : State :=
  if s.alive && decide (s.power.period + usec 100 ≤ s.lclk) then
    retargetAll { s with power := { control s.lclk power temp s.power with period := s.lclk }, energy := s.energy + power,
                         sensors := { s.sensors with watts := power, die := temp } }
  else s

/-- LIMIT_CONTROL_PERIOD (R416). -/
def execLimitControlPeriod (power temp : Nat) (s : State) : Host.Outcome State Fault Refusal := .next (limitPeriod power temp s)

/-- OVERCURRENT_ALARM (R417). -/
def execOvercurrentAlarm (s : State) : Host.Outcome State Fault Refusal :=
  .next (if s.alive then { s with power := { s.power with halfPulse := true } } else s)

/-- OVERCURRENT_ALARM_CLEAR (R417). -/
def execOvercurrentAlarmClear (s : State) : Host.Outcome State Fault Refusal :=
  .next (if s.alive then { s with power := { s.power with halfPulse := false } } else s)

/-! ## Thermal protection (R418, R419, R492) -/

def setDie (s : State) (temp : Nat) : State := { s with sensors := { s.sensors with die := temp } }

/-- THERMAL_HOLD (R418): at 110 °C every engine is held and THERMTRIP_N asserts. -/
def execThermalHold (temp : Nat) (s : State) : Host.Outcome State Fault Refusal :=
  .next (if s.alive && decide (110 ≤ temp) then
    { setDie s temp with power := { s.power with hold := true }, pins := { s.pins with thermtrip := true } } else s)

/-- THERMAL_RELEASE (R418): below 100 °C the hold ends and the output deasserts, in the fatal state too (R371). -/
def execThermalRelease (temp : Nat) (s : State) : Host.Outcome State Fault Refusal :=
  .next (if s.lodgeUp && decide (temp < 100) && (s.power.hold || s.pins.thermtrip) then
    { setDie s temp with power := { s.power with hold := false }, pins := { s.pins with thermtrip := false } } else s)

/-- THERMAL_TRIP (R418): at 120 °C the core rail is removed, a rail error that leads to the fatal state. -/
def execThermalTrip (temp : Nat) (s : State) : Host.Outcome State Fault Refusal :=
  .next (if s.alive && decide (120 ≤ temp) then
    enterFatal 0x19 (railRecord { setDie s temp with pins := { s.pins with enCore := false, thermtrip := true } }) else s)

/-! ## Telemetry (R400, R471) -/

/-- Retries that masked a fault since the last refresh, on the Promenade, in the Mover and on each link: how many is free
(R358, R379, R472, log entry 90). -/
def countRetries (s : State) : State :=
  let i := s.freeIx
  { s with
    freeIx := i + 14
    fabRetry := s.fabRetry + Config.freeCount i
    moverRetry := s.moverRetry + Config.freeCount (i + 1)
    ports := s.ports.map fun p =>
      let k := i + 2 + 3 * (p.1 % 4)
      (p.1, { p.2 with replay := p.2.replay + Config.freeCount k, fec := p.2.fec + Config.freeCount (k + 1),
                       recov := p.2.recov + Config.freeCount (k + 2) }) }

/-- The counters rise by what was masked, and the Lodge copies them (R400, R471). -/
def refresh (s : State) : State := snapshot (countRetries s)

/-- TELEMETRY_REFRESH (R471): while the units run. -/
def execTelemetryRefresh (s : State) : Host.Outcome State Fault Refusal :=
  .next (if s.alive && s.fclk == .running then refresh s else s)

/-! ## One LCLK cycle (log entry 14) -/

/-- ECLK cycles of an engine in one LCLK cycle: omitted pulses are none (R402, R404, R417). -/
def eclkCycles (p : Power) (x : Engine) : Nat :=
  4 * x.eclk * (8 - p.omitted) / 8 / (if p.halfPulse then 2 else 1)

/-- The no-progress counts of R198 of the epochs with operations here; they stand while ECLK is stopped. -/
def countStuck (n : Nat) (x : Engine) : Map Nat :=
  ((x.ops.map (·.acc)).eraseDups).foldl (fun (m : Map Nat) a => mput m a ((mget m a).getD 0 + n)) x.stuck

/-- One LCLK cycle of an engine: the cycles of a slice (R387, R420), and the no-progress counts (R198). -/
def engineTick (s : State) (e : Nat) (x : Engine) : Engine :=
  if s.alive && eclkRuns s e then
    let n := eclkCycles s.power x
    { x with slice := x.slice.map fun sl => { sl with cycles := sl.cycles + n }, stuck := countStuck n x }
  else x

/-- One LCLK cycle with no command: time passes, the conditions of P2 entry are sampled (R402, R408), slices, pairs and channels
count (R198, R387, R392, R393), and a latent divergence restarts the Gatehouse once no command is in flight (R369). -/
def tick (s : State) : State :=
  latentTick { s with
    lclk := s.lclk + 1
    p2Cond := if p2Ready s then some (s.p2Cond.getD s.lclk) else none
    engines := s.engines.map fun e => (e.1, engineTick s e.1 e.2)
    pairs := s.pairs.map fun p => (p.1, pairTick s p.1 p.2)
    keeper := { s.keeper with calibDue := calibrationTick s } }

end Sys2Proof.Machine
end

