-- ==== Sys2Proof/Machine/EngineSteps.lean ====
section
/-!
DEFINITION. The steps inside an engine: the weight prefetch, MA passes, tag acquires and barriers, scratchpad accesses and
SLOT_TIMEOUT (R84 to R100, R183 to R212, R248, R505).
-/

namespace Sys2Proof.Machine

/-- A slice holds the engine's units: any but one that gives way to work (R387, R390, R394). -/
def Engine.inTest (x : Engine) : Bool := x.slice.any fun sl => !(sl.kind == .opportunistic)

/-- The engine's units run: its ECLK and the Promenade's FCLK do, no restart, test slice or debugger holds it (R28, R365, R387,
R419, R436). -/
def unitsRun (s : State) (e : Nat) : Bool :=
  s.alive && s.fclk == .running && s.restart.isNone && eclkRuns s e && !(s.eng e).halted && !(s.eng e).inTest

/-- The engine works: an opportunistic slice gives way (R390), and it is not idle (R406). -/
def atWork (s : State) (e : Nat) : State := (abandonSlice s e).modEng e fun x => { x with idleSince := s.lclk }

/-- Epochs of an engine have made progress: their counts begin again (R198). -/
def progress (s : State) (e : Nat) (mine : Nat → Bool) : State :=
  (atWork s e).modEng e fun x => { x with stuck := x.stuck.filter fun c => !mine c.1 }

/-- A command that works in an engine: a plan epoch's or a direct operation's, of the plot that holds the engine. -/
def worksOn (s : State) (e : Nat) (c : Cmd) : Bool :=
  onHolder s e c && mayBegin s c && orderLets s c && (isDirect c.opcode || runsPlan c.opcode)

/-- The command that a step names, when it may be in computation on the engine. -/
def workCmd (s : State) (e : Nat) (c : CmdRef) : Option Cmd := (s.cmd c).filter (worksOn s e)

/-- The command whose epoch a step belongs to: only plan epochs have tags (R192, R198). -/
def epochCmd (s : State) (e : Nat) (c : CmdRef) : Option Cmd := (workCmd s e c).filter fun d => runsPlan d.opcode

/-! ## The WFU (R93 to R100, R248) -/

/-- Entries that are issued and not complete. -/
def Wfu.inFlight (w : Wfu) : List PfEntry := w.sched.filter fun p => p.issued && !p.done

/-- The buffer of an entry is empty, and no outstanding entry fills it (R93, R95). -/
def bufferEmpty (x : Engine) (p : PfEntry) : Bool :=
  x.spad.tagsAre false p.slotFirst p.slotCount && !(x.wfu.inFlight.any fun q => q.slotFirst == p.slotFirst)

/-- The next entry of the schedule may issue (R95). -/
def mayIssue (x : Engine) (p : PfEntry) : Bool :=
  decide (p.issueStep ≤ x.wfu.step) && bufferEmpty x p && decide (x.wfu.inFlight.length < 16)

/-- An entry of the schedule changed. -/
def Wfu.setEntry (w : Wfu) (i : Nat) (p : PfEntry) : Wfu := { w with sched := w.sched.set i p }

/-- WFU_PREFETCH_ISSUE (R95). -/
def wfuIssue (e : Nat) (s : State) : State :=
  let x := s.eng e
  match x.wfu.sched[x.wfu.nextEntry]? with
  | some p =>
    if unitsRun s e && s.hbmUp && mayIssue x p then
      (atWork s e).modEng e fun x => { x with wfu := { x.wfu.setEntry x.wfu.nextEntry { p with issued := true } with nextEntry := x.wfu.nextEntry + 1 } }
    else s
  | none => s

/-- WFU_PREFETCH_ISSUE (R95). -/
def execWfuPrefetchIssue (e : Fin 6) (s : State) : Host.Outcome State Fault Refusal := .next (wfuIssue e.val s)

/-- Correctable code words that the WFU reads for an entry are corrected and counted (R247, R357, log entry 18). -/
def noteEntry (s : State) (plot : Option Nat) (p : PfEntry) : State :=
  p.reads.foldl (fun (t : State) r => match plot with
    | none => t
    | some n => match (mget t.plots n).bind fun x => mget x.tensors p.handle with
      | some z => noteTensorRead t n p.handle z r.1 r.2
      | none => t) s

/-- A command that runs the plan whose schedule the engine's WFU holds. -/
def Wfu.serves (w : Wfu) (s : State) (acc : Nat) : Bool :=
  s.cmds.any fun c => c.acc == acc && runsPlan c.opcode && w.plan == some c.handle

/-- WFU_ENTRY_COMPLETE (R248): entries may complete out of order (R95). -/
def wfuComplete (e i : Nat) (s : State) : State :=
  let x := s.eng e
  match x.wfu.sched[i]? with
  | some p =>
    if unitsRun s e && s.hbmUp && p.issued && !p.done then
      let d := deliver p x.spad
      let t := s.setEng e { x with spad := d.1, wfu := x.wfu.setEntry i { p with done := true } }
      progress (applyTrace (noteEntry t (s.holder e) p) (s.holder e) e none d.2) e (x.wfu.serves s)
    else s
  | none => s

/-- WFU_ENTRY_COMPLETE (R248). -/
def execWfuEntryComplete (e : Fin 6) (entry : Nat) (s : State) : Host.Outcome State Fault Refusal := .next (wfuComplete e.val entry s)

/-! ## Errors that end a command in an engine (R97, R212, R310) -/

/-- The command that an error ends: what it has in the engines is cancelled, and an in-place destination is undefined. -/
def failWork (s : State) (e : Nat) (c : Option Cmd) (err : OpErr) : State :=
  match c with
  | some d => if isDirect d.opcode then failDirect (endWork s d) d e err else failOp (endWork s d) d e err
  | none => match err with
    | .uncorrectable a => addRecord s (s.holder e) (deviceEvent 0x0002 0 e spadLoc a)
    | _ => s

/-! ## MA passes (R84 to R92) -/

/-- A pass, resolved: operands, accumulator format, gate and modes. -/
structure MaPass where
  op : MatOp
  kc : Nat
  desc : PassDesc
  deriving DecidableEq, Repr

/-- The modes of a pass: those of its gate control block, or the stream's where it has none (R128). -/
def passModes (p : PassDesc) : Modes :=
  match p.fin with
  | .drain g _ => (gateOf g).md
  | .spill _ => ⟨p.ovf, p.zmode, false⟩

/-- The gate of a pass: a spill has none (R88). -/
def passGate (p : PassDesc) : Gate :=
  match p.fin with
  | .drain g _ => gateOf g
  | .spill _ => { gateOf (zeros 16) with md := passModes p }

/-- The weight that a pass takes through the WFU expander, from the staging buffers of its engine (R92, R93): the form of a weight
whose handle names no tensor is that of a TRANSIENT layer (R231). -/
def stagedWeight (p : Plot) (x : Engine) (k n h : Nat) : Weight :=
  let f := transientForm h
  let shape : Shape × Nat := match mget p.tensors h with
    | some t => (t.shape, t.itable)
    | none => (shapeOf (natAt f 0) (natAt f 1) (natAt f 2) (natAt f 3) [k, n, 1, 1], natAt f 3)
  { handle := h, shape := shape.1, src := .staged (x.wfu.segs h), table := p.table shape.2 }

/-- The B operand of a pass. -/
def passB (p : Plot) (x : Engine) (d : PassDesc) : BSrc :=
  match d.b with
  | .spad b => .spad (descOf b)
  | .staged h => .weight (stagedWeight p x ((descOf d.a).count 0) ((descOf d.c).count 0) h)

/-- K and N of a B operand, and Kc of its format after expansion (R25, R91). -/
def BSrc.kn : BSrc → Nat × Nat
  | .spad d => (d.count 0, d.count 1)
  | .weight w => (w.shape.count 0, w.shape.count 1)

def BSrc.dpu : BSrc → Nat
  | .spad d => dpuLen d.fmt
  | .weight w => if w.shape.grouped then 32 else dpuLen w.shape.fmt

/-- The pass of a descriptor, when its operands are a legal pair in the layout of R91 (R63, R92). -/
def passOf (q : Plot) (y : Engine) (p : PassDesc) : Option MaPass :=
  let a := descOf p.a
  let b := passB q y p
  let c := descOf p.c
  let x := p.bias.map descOf
  let rows := match b with
    | .spad d => rowsAligned d
    | .weight _ => true
  match accOf a b with
  | some acc =>
    let add : Addend := match x with
      | some d => .bias d
      | none => if p.accumulate then .existing else .none
    if rowsAligned a && rows && b.kn == (a.count 0, c.count 0) && c.count 1 == a.count 1 && p.mcount ≤ 64 then
      some ⟨⟨a, b, c, add, acc, passGate p⟩, min (dpuLen a.fmt) b.dpu, p⟩
    else none
  | none => none

/-- The positions of K, the rows and the columns that a pass covers; absent ones are not there (R86, R87). -/
def MaPass.ks (p : MaPass) : List Nat :=
  (List.range (p.op.a.count 0)).filter fun k => decide (p.kc * p.desc.kfirst ≤ k) && decide (k < p.kc * (p.desc.klast + 1))

def MaPass.rows (p : MaPass) : List Nat :=
  (List.range (p.op.a.count 1)).filter fun m =>
    decide (32 * p.desc.mfirst ≤ m) && decide (m < 32 * (p.desc.mfirst + p.desc.mcount))

def MaPass.cols (p : MaPass) : List Nat :=
  (List.range (p.op.c.count 0)).filter fun n => decide (32 * p.desc.nt ≤ n) && decide (n < 32 * (p.desc.nt + 1))

/-- The accumulator format. -/
def MaPass.accFmt (p : MaPass) : Fmt := if p.op.acc == .int32 then .int32 else .fp32

/-- The bit pattern of an accumulator value, and the value of a pattern: no conversion (R88). -/
def accCode : Sv → Nat
  | .int i => unsignedCode 32 i
  | .flt v => encodeFloat specFp32 v

def accValue (p : MaPass) (code : Nat) : Sv := readCode p.accFmt false code

/-- Where the value of a row and column lies from a spill address on: entry by entry, 32 rows of 32 values each. -/
def MaPass.spillAt (p : MaPass) (addr m n : Nat) : Nat := addr + 128 * (m - 32 * p.desc.mfirst) + 4 * (n - 32 * p.desc.nt)

/-- The accumulator before the first step: a reloaded value, or the addend (R88, R89). -/
def MaPass.start (p : MaPass) (m n : Nat) : OpM (Option Sv) :=
  match p.desc.reload with
  | some a => do
    let b ← opRead (p.spillAt a m n) 4
    return some (accValue p (leNat b))
  | none => matAddend p.op m n

/-- One accumulator after the steps of the pass (R84, R87). -/
def MaPass.accOne (p : MaPass) (m n : Nat) : OpM Sv := do
  let md := passModes p.desc
  let init ← p.start m n
  let xs ← opElems md.sat p.op.a (p.ks.map fun k => [k, m, 0, 0])
  let ys ← opMap (fun k => p.op.b.elem md n k) p.ks
  let r ← liftNum (dot md p.op.acc xs ys init)
  return r.getD (.int 0)

/-- One row at the end of a pass: drained through the Arbour, or spilled; each row is one store (R88, R130, R505). -/
def MaPass.endRow (p : MaPass) (sc : List Word) (m : Nat) (vs : List (Nat × Sv)) : OpM Unit :=
  match p.desc.fin with
  | .drain _ iah => do
    let rs ← opMap (fun v => do
      let r ← gateElem iah sc p.op.gate m v.1 v.2
      return ([v.1, m, 0, 0], Res.val r)) vs
    opResults false 32 p.op.c (passModes p.desc) rs
  | .spill a =>
    opStore false (vs.foldl (fun (st : Store) v => storeBytes st (p.spillAt a m v.1) (toLe 4 (accCode v.2))) [])

/-- The whole pass: its accumulators, by row; nothing when M, N or K is absent (R86). -/
def MaPass.run (p : MaPass) (sc : List Word) : OpM (List (Nat × List Nat)) := do
  if p.ks.isEmpty || p.rows.isEmpty || p.cols.isEmpty then return []
  opSteps (ceilDiv p.ks.length p.kc * ceilDiv p.rows.length 32)
  let acc ← opMap (fun m => do
    let vs ← opMap (fun n => do
      let v ← p.accOne m n
      return (n, v)) p.cols
    return (m, vs)) p.rows
  acc.forM fun r => p.endRow sc r.1 r.2
  return acc.map fun r => (r.1, r.2.map fun v => accCode v.2)

/-- The entries of a bank after a pass. -/
def MaPass.entries (p : MaPass) (rows : List (Nat × List Nat)) : Map (List Nat) :=
  (List.range p.desc.mcount).filterMap fun e =>
    let mine := rows.filter fun r => decide (r.1 / 32 = p.desc.mfirst + e)
    if mine.isEmpty then none else some (e, mine.flatMap (·.2))

/-- LCLK cycles that the drain or spill of a bank takes: 32 ECLK cycles for each entry (R88). -/
def drainTime (s : State) (x : Engine) (entries : Nat) : Nat := ceilDiv (32 * entries) (max 1 (eclkCycles s.power x))

/-- Byte ranges that a pass may touch. -/
def passSpans (p : PassDesc) : List (Int × Nat) :=
  let d := fun (b : List Byte) => (descOf b).spans
  let ends : List (Int × Nat) := match p.fin with
    | .drain g _ => d p.c ++ ((gateOf g).ranges ((descOf p.a).count 1) ((descOf p.c).count 0)).map fun r => ((r.1 : Int), r.2)
    | .spill a => [((a : Int), 4096 * p.mcount)]
  let rel : List (Int × Nat) := match p.reload with
    | some a => [((a : Int), 4096 * p.mcount)]
    | none => []
  d p.a ++ (match p.b with
    | .spad b => d b
    | .staged _ => []) ++ ends ++ rel ++ (match p.bias with
    | some x => d x
    | none => [])

/-- The first address beyond the scratchpad that a list of ranges names (R134, R183). -/
def beyondSpad : List (Int × Nat) → Option Nat
  | [] => none
  | (a, n) :: r => if (spadSize : Int) < a + n then some (max a.toNat spadSize) else beyondSpad r

/-- The bank of a pass. -/
def Engine.bank (x : Engine) (b : Bool) : AccBank := if b then x.bank1 else x.bank0
def Engine.setBank (x : Engine) (b : Bool) (k : AccBank) : Engine := if b then { x with bank1 := k } else { x with bank0 := k }

/-- Scalar registers as the command reads them on the engine: those it captured when it began there, or the plot's (R141). -/
def scalarsOf (x : Engine) (p : Plot) (c : Cmd) : List Word :=
  (mget x.scalars c.acc).getD p.scalarList

/-- Why the MA waits (Table 5 of R102). -/
inductive Stall where
  | weight | operand | drain | clock
  deriving DecidableEq, Repr

/-- The weight of the pass stands in full buffers, for its columns and K range (R93, R102). -/
def MaPass.weightIn (p : MaPass) (x : Engine) : Bool :=
  match p.op.b with
  | .spad _ => true
  | .weight w =>
    let k0 := min (w.shape.count 0) (p.kc * p.desc.kfirst)
    let k1 := min (w.shape.count 0) (p.kc * (p.desc.klast + 1))
    (w.shape.needsOf p.cols k0 k1).all (stagedCovers (x.wfu.segs w.handle))

/-- The condition that holds a pass, if one does. -/
def MaPass.stall (p : MaPass) (s : State) (x : Engine) : Option Stall :=
  if !p.weightIn x then some .weight
  else if !(p.desc.full.all fun r => x.spad.tagsAre true r.1 r.2) then some .operand
  else if !decide ((x.bank p.desc.bank).busyTill ≤ s.lclk) then some .drain
  else none

/-- Stall cycles counted for their cause: how many is a matter of timing (R102, R472, log entry 22). -/
def countStall (s : State) (e : Nat) (k : Stall) : State :=
  let n := Config.freeCount s.freeIx
  let t := s.modEng e fun x => { x with tel := match k with
    | .weight => { x.tel with stallWeight := x.tel.stallWeight + n }
    | .operand => { x.tel with stallOperand := x.tel.stallOperand + n }
    | .drain => { x.tel with stallDrain := x.tel.stallDrain + n }
    | .clock => { x.tel with stallClock := x.tel.stallClock + n } }
  { t with freeIx := s.freeIx + 1 }

/-- A pass that nothing holds (R87, R88): the accumulators, the drain or spill, and what the command's failure leaves. -/
def passRun (s : State) (e : Nat) (q : Plot) (c : Cmd) (d : PassDesc) (p : MaPass) : State :=
  let x := s.eng e
  let sc := scalarsOf x q c
  let r := p.run sc (opStart x.spad)
  let t := applyTrace (s.setEng e { x with spad := r.2.sp, scalars := mput x.scalars c.acc sc }) (s.holder e) e (some c) r.2.tr
  match r.1 with
  | .error err => failWork t e (some c) (weightErr x.wfu err)
  | .ok rows =>
    let u := t.modEng e fun y =>
      y.setBank d.bank ⟨p.entries rows, s.lclk + drainTime s y (p.entries rows).length⟩
    progress (countSteps u e r.2.steps) e (· == c.acc)

/-- The engine's clock alone holds its units (R102, R419). -/
def clockHeld (s : State) (e : Nat) : Bool :=
  s.alive && (s.eng e).power == .running && !(s.eng e).failed && ((s.eng e).relock.isSome || s.power.hold)

/-- One pass of a command on an engine; it waits while a condition of R102 holds. -/
def maPass (e : Nat) (d : PassDesc) (c : CmdRef) (s : State) : State :=
  match workCmd s e c, (s.holder e).bind (mget s.plots) with
  | some w, some q =>
    match passOf q (s.eng e) d with
    | none => s
    | some p =>
      if unitsRun s e then
        match p.stall s (s.eng e) with
        | some k => countStall s e k
        | none => passRun (atWork s e) e q w d p
      else if clockHeld s e then countStall s e .clock else s
  | _, _ => s

/-- MA_PASS (R87): an address beyond the scratchpad does not exist (R134, R183). -/
def execMaPass (e : Fin 6) (p : PassDesc) (s : State) : Host.Outcome State Fault Refusal :=
  match beyondSpad (passSpans p) with
  | some a => .fault (.scratchpadAddress a)
  | none => .next (maPass e.val p p.cmd s)

/-! ## Slot tags (R192 to R198) -/

/-- Every acquire of an operation is satisfied, in whatever order it tests them (R192, R194). -/
def acquiresMet (sp : Spad) (acts : List TagAct) : Bool :=
  acts.all fun a => match a.kind with
    | .acqFull => sp.tagsAre true a.first a.count
    | .acqEmpty => sp.tagsAre false a.first a.count
    | _ => true

/-- The releases of an operation (R192, R193). -/
def releaseTags (sp : Spad) (acts : List TagAct) : Spad :=
  acts.foldl (fun (p : Spad) a => match a.kind with
    | .relFull => p.setTags true a.first a.count
    | .relEmpty => p.setTags false a.first a.count
    | _ => p) sp

/-- Slots that exist (R183). -/
def actsOk (acts : List TagAct) : Bool := acts.all fun a => decide (a.first + a.count ≤ spadSlots)

/-- The operation stands in the engine's list. -/
def findOp (x : Engine) (acc : Nat) (u : EUnit) (id : Nat) : Option PendOp :=
  x.ops.find? fun o => o.acc == acc && o.unit == u && o.id == id

/-- The same operation of the same epoch. -/
def PendOp.same (o q : PendOp) : Bool := q.acc == o.acc && q.unit == o.unit && q.id == o.id

/-- An operation that waits is tested, and one that runs completes with its releases (log entry 51); either is progress of its
epoch (R198). -/
def tagStep (x : Engine) (o : PendOp) : Engine :=
  if o.started then
    { x with ops := x.ops.filter fun q => !o.same q, spad := releaseTags x.spad o.acts, stuck := mdel x.stuck o.acc }
  else if acquiresMet x.spad o.acts then
    { x with ops := x.ops.map fun q => if o.same q then { q with started := true } else q, stuck := mdel x.stuck o.acc }
  else x

/-- TAG_ACQUIRE (R192): an operation of a unit arrives at its turn, waits and proceeds; one that proceeded completes. -/
def tagAcquire (e : Nat) (u : EUnit) (id : Nat) (acts : List TagAct) (c : CmdRef) (s : State) : State :=
  match epochCmd s e c with
  | some d =>
    if unitsRun s e && actsOk acts then
      (atWork s e).modEng e fun x => match findOp x d.acc u id with
        | some o => tagStep x o
        | none =>
          let o : PendOp := ⟨d.acc, id, u, acts, false⟩
          tagStep { x with ops := x.ops ++ [o] } o
    else s
  | none => s

/-- TAG_ACQUIRE (R192). -/
def execTagAcquire (e : Fin 6) (unit : EUnit) (op : OpRef) (acts : List TagAct) (s : State) :
    Host.Outcome State Fault Refusal :=
  .next (tagAcquire e.val unit op.id acts op.cmd s)

/-- The bit of UNITS that covers a unit (R301). -/
def barrierBit : EUnit → Nat
  | .ma => 0 | .arbour => 0 | .ve => 1 | .sfu => 1 | .selection => 2 | .pergola => 3 | .wfu => 4 | .scratchpad => 5

/-- The barrier names the unit. -/
def covered (units : BitVec 5) (u : EUnit) : Bool := bitOf units.toNat (barrierBit u)

/-- DESCRIPTOR_BARRIER (R207) of an epoch: once none of its operations in the named units waits, those that run complete, and the
combining buffer leaves. -/
def barrier (e : Nat) (units : BitVec 5) (c : CmdRef) (s : State) : State :=
  match epochCmd s e c with
  | some d =>
    let mine (o : PendOp) : Bool := o.acc == d.acc && covered units o.unit
    let os := (s.eng e).ops.filter mine
    if unitsRun s e && os.all (·.started) then
      let t := (atWork s e).modEng e fun x =>
        { x with ops := x.ops.filter fun o => !mine o, spad := os.foldl (fun (p : Spad) o => releaseTags p o.acts) x.spad,
                 stuck := if os.isEmpty then x.stuck else mdel x.stuck d.acc }
      drainEngine t e (some d)
    else s
  | none => s

/-- DESCRIPTOR_BARRIER (R207). -/
def execDescriptorBarrier (e : Fin 6) (b : BarrierRef) (s : State) : Host.Outcome State Fault Refusal :=
  .next (barrier e.val b.units b.cmd s)

/-- The tags of the epoch's footprint on the engine, outside the staging area, are empty (R198). -/
def emptyEpoch (s : State) (e : Nat) (c : Cmd) : State :=
  match c.plot.bind (mget s.plots) with
  | none => s
  | some p => match mget p.plans c.handle with
    | none => s
    | some q => match ((placeParts s p q).getD []).findIdx? (· == e) with
      | some i => s.modEng e fun x => { x with spad := emptyFoot q.img (q.part i) x.spad }
      | none => s

/-- SLOT_TIMEOUT (R198): 2^22 cycles without progress of an epoch while an acquire of it waits. The command ends without reaching
its commit point. -/
def slotTimeout (e : Nat) (c : CmdRef) (s : State) : State :=
  match epochCmd s e c with
  | some d =>
    let x := s.eng e
    let waits := x.ops.any fun o => o.acc == d.acc && !o.started
    if s.restart.isNone && waits && decide (2 ^ 22 ≤ (mget x.stuck d.acc).getD 0) then
      failCmd (emptyEpoch (endWork s d) e d) d (Reply.bare .slotTimeout)
    else s
  | none => s

/-- SLOT_TIMEOUT (R198). -/
def execSlotTimeout (p : EpochRef) (s : State) : Host.Outcome State Fault Refusal := .next (slotTimeout p.eng.val p.cmd s)

/-! ## Scratchpad accesses (R185, R186, R203, R209 to R212) -/

/-- The command that an access serves, when it is one of the engine's. -/
def accessCmd (s : State) (e : Nat) (c : Option CmdRef) : Option Cmd := (c.bind s.cmd).filter (onHolder s e)

/-- A read of named bytes (R212). -/
def accessRead (e a n : Nat) (c : Option Cmd) (s : State) : State :=
  match (s.eng e).spad.read a n with
  | .ok _ p t => applyTrace (s.modEng e fun x => { x with spad := p }) (s.holder e) e c t
  | .bad b p t =>
    failWork (applyTrace (s.modEng e fun x => { x with spad := p }) (s.holder e) e c t) e c (.uncorrectable b)

/-- One store (R186, R209, R211). -/
def accessWrite (e : Nat) (bs : List (Nat × Byte)) (nt : Bool) (c : Option Cmd) (s : State) : State :=
  let r := (s.eng e).spad.storeNt nt (storeOf bs [])
  applyTrace (s.modEng e fun x => { x with spad := r.1 }) (s.holder e) e c r.2

/-- SCRATCHPAD_ACCESS on an engine whose ECLK runs; errors that arise before it stand in granules that had none. -/
def access (e : Nat) (a : Access) (c : Option CmdRef) (upset : List (Nat × GState)) (s : State) : State :=
  if unitsRun s e then
    let d := accessCmd s e c
    let t := progress (s.modEng e fun x => { x with spad := upsetGranules x.spad 0 spadSize upset }) e fun a => d.any (·.acc == a)
    match a with
    | .read addr n => accessRead e addr n d t
    | .write bs nt => accessWrite e bs nt d t
  else s

/-- The first address of an access that does not exist (R183). -/
def accessBeyond : Access → Option Nat
  | .read addr n => if n = 0 then none else beyondSpad [((addr : Int), n)]
  | .write bs _ => (bs.find? fun b => decide (spadSize ≤ b.1)).map (·.1)

/-- SCRATCHPAD_ACCESS (R185). -/
def execScratchpadAccess (e : Fin 6) (a : Access) (c : Option CmdRef) (upset : List (Nat × GState)) (s : State) :
    Host.Outcome State Fault Refusal :=
  match accessBeyond a with
  | some x => .fault (.scratchpadAddress x)
  | none => .next (access e.val a c upset s)

end Sys2Proof.Machine
end

