-- ==== Sys2Proof/Machine/Plots.lean ====
section
/-!
DEFINITION. KEY_SET, PLOT_CONFIG, PLOT_RELEASE and the zeroing of pages (R318, R319, R343 to R353, R433, R440).
-/

namespace Sys2Proof.Machine

/-! ## KEY_SET (R318, R433) -/

/-- The session of a KEY_SET: established on the DOE mailbox of the function (R433). -/
def keySession (s : State) (f : FuncId) (id : Nat) : Option (Nat × Session) :=
  s.sessions.find? fun x => x.2.transport == .doe f && x.2.id == id && x.2.established

/-- The DOE header: vendor 0x0001, the Secured CMA-SPDM type 0x02, and the length in dwords (R433, log entry 31). -/
def doeHeaderOk (obj : List Byte) : Bool :=
  fieldAt obj 0 2 == 1 && byteAt obj 2 == 2 && byteAt obj 3 == 0 && fieldAt obj 4 4 * 4 == obj.length

/-- The AEAD nonce of a record: the request IV with the sequence number in its first eight bytes (R433, log entry 31). -/
def recordNonce (iv : List Byte) (seq : Nat) : List Byte :=
  (List.range 12).map fun i => BitVec.ofNat 8 (Nat.xor (byteAt iv i) (if i < 8 then seq / 2 ^ (8 * i) % 256 else 0))

/-- The application data of a secured record that fills the object, when the record decrypts and authenticates. -/
def openRecord (x : Session) (obj : List Byte) : Option (List Byte) :=
  let rc := obj.drop 8
  let n := rc.length - 22
  if rc.length < 22 || fieldAt rc 4 2 + 6 != rc.length || fieldAt rc 0 4 != x.id then none
  else (gcmOpen x.key (recordNonce x.iv x.seq) (rc.take 6) ((rc.drop 6).take n) (rc.drop (6 + n))).map fun pt =>
    (pt.drop 2).take (fieldAt pt 0 2)

/-- Table 6 of R433. -/
def keyDataOk (d : List Byte) (seq : Nat) : Bool :=
  d.length == 48 && fieldAt d 0 4 == 0x5445534B && fieldAt d 4 2 == 1 && fieldAt d 6 2 == 0 && fieldAt d 8 8 == seq

/-- A new key, or none for 32 zero bytes (R433). -/
def keyOf (d : List Byte) : Option (List Byte) := if allZero (d.drop 16) then none else some (d.drop 16)

/-- KEY_SET (R433): a record that authenticates consumes its sequence number whatever becomes of the command. -/
def setKey (s : State) (c : Cmd) (f : FuncId) : State :=
  if fieldAt c.params 4 4 != c.payload.length then failCmd s c (Reply.at .badLength 36)
  else match keySession s f (fieldAt c.params 0 4) with
    | none => failCmd s c (Reply.bare .authFail)
    | some (k, x) =>
      if !doeHeaderOk c.payload then failCmd s c (Reply.bare .authFail)
      else match openRecord x c.payload with
        | none => failCmd s c (Reply.bare .authFail)
        | some d =>
          let t := { s with sessions := mput s.sessions k { x with seq := (x.seq + 1) % 2 ^ 64 } }
          if keyDataOk d (c.seqs.getLastD 0) then
            endCmd (match c.plot with
              | some n => t.modPlot n fun p => { p with key := keyOf d }
              | none => t) c (Reply.ok [] [])
          else failCmd t c (Reply.bare .authFail)

/-- KEY_SET (R433). -/
def execKeySet (c : CmdRef) (s : State) : Host.Outcome State Fault Refusal :=
  .next (adminAt c 0x63 s fun d f => setKey s d f)

/-! ## PLOT_CONFIG (R319, R343 to R345) -/

/-- One function binding of PLOT_CONFIG (R319): port, function and allotment. -/
def bindingAt (ps : List Byte) (i : Nat) : Nat × Nat × Nat :=
  (byteAt ps (32 + 16 * i), fieldAt ps (34 + 16 * i) 2, fieldAt ps (36 + 16 * i) 2)

def bindingsOf (ps : List Byte) : List (Nat × Nat × Nat) := (List.range (byteAt ps 16)).map (bindingAt ps)

/-- One binding: its port exists, its function is one of the port and free, and it has an allotment (R344). -/
def bindingBad (s : State) (ps : List Byte) (i : Nat) : Bad :=
  let b := bindingAt ps i
  let fid := b.1 * 64 + b.2.1
  let twice := ((bindingsOf ps).take i).any fun d => d.1 == b.1 && d.2.1 == b.2.1
  badIf (s.portCount ≤ b.1) (64 + 16 * i) ++
    badIf (63 < b.2.1 || twice || (boundIn s.plots fid).isSome) (66 + 16 * i) ++ badIf (b.2.2 == 0) (68 + 16 * i)

/-- Step 1 of R344. -/
def configBad (s : State) (ps : List Byte) : Bad :=
  let held := s.plots.map (·.2)
  let mask := byteAt ps 1
  let sum := ((bindingsOf ps).map fun b => b.2.2).sum
  badIf (mget s.plots (byteAt ps 0)).isSome 32 ++
    badIf (mask == 0 || (maskList mask).any fun e => (s.holder e).isSome || (s.eng e).failed) 33 ++
    badIf (fieldAt ps 8 2 < sum) 40 ++
    badIf (4096 < fieldAt ps 10 2 + fieldAt ps 12 2 ||
      held.any fun p => rangesMeet (fieldAt ps 10 2) (fieldAt ps 12 2) p.streamFirst p.streamCount) 42 ++
    (List.range (byteAt ps 16)).flatMap (bindingBad s ps)

/-- Functions that the ports can present (Table 1 of R338). -/
def State.functions (s : State) : Nat := 64 * s.portCount

/-- Step 2 of R344: the resource that falls short. -/
def configShort (s : State) (ps : List Byte) : Option Nat :=
  let held := s.plots.map (·.2)
  let bound := (held.map fun p => p.binds.length).sum + byteAt ps 16
  if 768 < (held.map (·.slots)).sum + fieldAt ps 2 2 then some 0
  else if 73216 < (held.map (·.quota)).sum + fieldAt ps 4 4 then some 1
  else if 2048 < (held.map (·.queues)).sum + fieldAt ps 8 2 + (s.functions - bound) then some 4
  else none

/-- Free pages of the device that are already zeroed (R353). -/
def State.zeroedFree (s : State) : Nat := 73216 - (s.plots.map fun p => p.2.quota).sum - s.devZeroing

/-- The plot that PLOT_CONFIG makes (R345). -/
def newPlot (now : Nat) (ps : List Byte) : Plot :=
  { engmask := byteAt ps 1 % 64, slots := fieldAt ps 2 2, quota := fieldAt ps 4 4, queues := fieldAt ps 8 2,
    streamFirst := fieldAt ps 10 2, streamCount := fieldAt ps 12 2,
    binds := (bindingsOf ps).map fun b => ⟨b.1 * 64 + b.2.1, b.2.2⟩,
    scalars := [], idx4 := [], idx4Pending := [], clock := 0, key := none, tensors := [], plans := [], streams := [],
    zeroing := 0, eclkTarget := 18, log := Log.empty, releasing := none, epochs := 0, epochsSnap := 0, gkSlices := 0,
    gkForced := 0, gkAbandoned := 0, gkFailed := 0, ownedAt := now }

/-- The error bits of a plot's functions are zeroed on a change of owner (R352, R377). -/
def clearErrBits (s : State) (fs : List FuncId) : State :=
  fs.foldl (fun (t : State) f => t.modFn f fun y => { y with logNew := false, lost := false, ce := false }) s

/-- The commit of PLOT_CONFIG (R345). -/
def commitConfig (s : State) (ps : List Byte) : State :=
  let p := newPlot s.lclk ps
  retargetAll (clearErrBits (zeroEngines (s.setPlot (byteAt ps 0) p) p.engmask) p.fids)

/-- PLOT_CONFIG at its commit point, its checks in the order of R344, after that of R440. -/
def configPlot (s : State) (c : Cmd) : State :=
  let ps := c.params
  if s.secure.level == .invasive && s.stores.life == .field then failCmd s c (Reply.at .notPermitted 0)
  else match minOff (configBad s ps) with
    | some o => failCmd s c (Reply.badParam o)
    | none => match configShort s ps with
      | some r => failCmd s c (Reply.noSpace r)
      | none =>
        if s.zeroedFree < fieldAt ps 4 4 then failCmd s c (Reply.bare .pagesScrubbing)
        else endCmd (commitConfig s ps) c (Reply.ok [] [])

/-- PLOT_CONFIG (R344). -/
def execPlotConfig (c : CmdRef) (s : State) : Host.Outcome State Fault Refusal :=
  .next (atTurn c 0x70 s fun d => commitAt s d (configPlot s d))

/-! ## PLOT_RELEASE (R351) -/

/-- Step 2 of R351: every other accepted command of the plot has ended, and the replies of its queues are written. -/
def plotDrained (s : State) (c : Cmd) (n : Nat) (p : Plot) : Bool :=
  !(s.cmds.any fun d => d.plot == some n && d.acc != c.acc) &&
    (plotQueues s p).all fun src => match s.queue src with
      | some x => x.qstate == .broken || !(x.slots.any fun sl => sl.kind == .command && sl.acc != c.acc)
      | none => true

/-- Step 3 of R351 for one function: every queue but queue 0 is deleted, and queue 0, unbound with the plot's end, fetches
again. -/
def unbindFn (s : State) (f : FuncId) : State :=
  s.modFn f fun x => { x with queues := x.queues.filter fun q => q.1 == 0 }

/-- Steps 3 and 4 of R351: every page of the plot leaves it, held or free, and is zeroed (R353). -/
def commitRelease (s : State) (n : Nat) (p : Plot) : State :=
  let t := clearErrBits (p.fids.foldl unbindFn (zeroEngines s p.engmask)) p.fids
  retargetAll { t with plots := mdel t.plots n, devZeroing := t.devZeroing + p.quota }

/-- PLOT_RELEASE at its turn (R351). -/
def releasePlot (s : State) (c : Cmd) : State :=
  let n := byteAt c.params 0
  match mget s.plots n with
  | none => failCmd s c (Reply.badParam 32)
  | some p =>
    let t := if p.releasing.isSome then s else beginRelease s n c.acc
    if plotDrained t c n p then endCmd (commitRelease t n p) c (Reply.ok [] []) else t

/-- PLOT_RELEASE (R351). -/
def execPlotRelease (c : CmdRef) (s : State) : Host.Outcome State Fault Refusal :=
  .next (atTurn c 0x71 s fun d => commitAt s d (releasePlot s d))

/-! ## PAGE_ZEROING_DONE (R353) -/

/-- Zeroing of pages is work of the Mover over HBM: it goes on while both run (R217, R353, R436). -/
def zeroingRuns (s : State) : Bool := s.alive && s.fclk == .running && s.hbmUp && !s.secure.moverHalted

/-- PAGE_ZEROING_DONE (R353): one page more counts as zeroed free. -/
def execPageZeroingDone (o : ZeroOwner) (s : State) : Host.Outcome State Fault Refusal :=
  .next (if zeroingRuns s then match o with
    | .device => { s with devZeroing := s.devZeroing - 1 }
    | .plot p => s.modPlot p.val fun x => { x with zeroing := x.zeroing - 1 }
  else s)

end Sys2Proof.Machine
end

