-- ==== Sys2Proof/Machine/Secure.lean ====
section
/-!
DEFINITION. Lifecycle, authority, debug levels, nonces and tokens, and the full tenant erase (R422 to R427, R436 to R442,
R467).
-/

namespace Sys2Proof.Machine

/-! ## Codes -/

def Life.code : Life → Nat
  | .blank => 0 | .provisioned => 1 | .field => 2 | .retired => 3

def DebugLevel.code : DebugLevel → Nat
  | .closed => 0 | .observe => 1 | .invasive => 2

/-- The hash of the debug authorisation key of a lifecycle state (Table 2 of R423). -/
def Stores.debugKey (st : Stores) : List Byte :=
  match st.life with
  | .provisioned => st.odkHash
  | .field => st.odkHash
  | _ => st.tdkHash

/-- SMBus and I3C: the sideband. -/
def sideband : Endpoint → Bool
  | .smbus => true
  | .i3c => true
  | .pcie _ => false

/-- The endpoint is the management authority's (R340, log entry 41). -/
def fromAuthority (s : State) (ep : Endpoint) : Bool :=
  match s.stores.authority, ep with
  | .bmc, ep => sideband ep
  | .pf p, .pcie q => p == q.val
  | _, _ => false

/-! ## Messages (R465, R467) -/

/-- The answer of a security message: operation, result, and what follows (Table 9 of R465). -/
def secAnswer (s : State) (ep : Endpoint) (op result : Nat) (more : List Byte) : State :=
  sendMctp s ep (vendorMsg 2 (toLe 1 op ++ toLe 1 result ++ more))

def accepted (s : State) (ep : Endpoint) (op : Nat) : State := secAnswer s ep op 0 []

/-- A refusal is answered LOCKOUT while LOCKOUT is set (R467). -/
def refused (s : State) (ep : Endpoint) (op : Nat) : State := secAnswer s ep op (if s.secure.lockout then 2 else 1) []

/-- A message of the endpoint reaches the device: over PCIe the port's link is in L0 (R465). -/
def epUp (s : State) : Endpoint → Bool
  | .smbus => true
  | .i3c => true
  | .pcie p => decide (p.val < s.portCount) && (s.port p.val).link == .l0

/-- Security messages are served once the device is ready, and are BUSY while a full tenant erase runs (R467). -/
def secAt (s : State) (ep : Endpoint) (op : Nat) (k : State → State) : State :=
  if !(s.alive && s.boot.ready && epUp s ep) then s
  else if s.secure.erasing.isSome then secAnswer s ep op 3 []
  else k s

/-- A lifecycle operation runs only in P0 or P1; in P2 its request is a wake event, and it runs after the wake (R425). -/
def awakeAt (s : State) (r : SecReq) (k : State → State) : State :=
  if s.p2 == .awake then k s
  else
    let t := wakeEvent s
    { t with secure := { t.secure with deferred := t.secure.deferred ++ [r] } }

/-- A fuse burn that does not read back is a DEVICE event of the Lodge, whose type Table 6 of R376 does not give (R425). -/
def burnFailed (s : State) : State := addRecord s none (deviceEvent Config.burnEvent 2 0x15 0 0)

/-! ## Nonces (R439) -/

/-- 32 free bytes (log entry 4). -/
def freeNonce (ix : Nat) : List Byte := (List.range 32).map fun i => Config.freeByte (ix + i)

/-- A fresh nonce replaces the old one. -/
def makeNonce (s : State) : State :=
  { s with secure := { s.secure with nonce := some (freeNonce s.freeIx, s.lclk) }, freeIx := s.freeIx + 32 }

/-- The nonce that is valid now: a nonce lasts 60 s. -/
def currentNonce (s : State) : Option (List Byte) :=
  match s.secure.nonce with
  | some (b, t) => if s.lclk < t + msec 60000 then some b else none
  | none => none

/-- NONCE (R439, R467). -/
def execNonce (ep : Endpoint) (s : State) : Host.Outcome State Fault Refusal :=
  .next (secAt s ep 0x10 fun s => let t := makeNonce s; secAnswer t ep 0x10 0 ((currentNonce t).getD []))

/-- DBG_NONCE (R439, R442): always available on JTAG. -/
def execDbgNonce (s : State) : Host.Outcome State Fault Refusal :=
  .next (if s.lodgeUp then let t := makeNonce s; { t with out := t.out ++ [.jtag ((currentNonce t).getD [])] } else s)

/-- NONCE_EXPIRY (R439). -/
def execNonceExpiry (s : State) : Host.Outcome State Fault Refusal :=
  .next (if s.secure.nonce.isSome && (currentNonce s).isNone then { s with secure := { s.secure with nonce := none } } else s)

/-! ## Tokens (R438, R439) -/

def tokArg0 (t : List Byte) : Nat := byteAt t 145
def tokArg1 (t : List Byte) : Nat := byteAt t 146

/-- ARG0 and ARG1 of Table 9. -/
def tokArgsOk (t : List Byte) (op : Nat) : Bool :=
  if op = 0x12 then (tokArg0 t == 1 && tokArg1 t == 0) || (tokArg0 t == 2 && decide (tokArg1 t ≤ 3))
  else tokArg0 t == 0 && tokArg1 t == 0

/-- The path of a token: an MCTP endpoint, or JTAG (none). -/
def pathIsAuthority (s : State) : Option Endpoint → Bool
  | some ep => fromAuthority s ep
  | none => false

/-- OP is allowed from the current state and path under Table 3 and Table 8. -/
def opAllowed (s : State) (path : Option Endpoint) (op : Nat) : Bool :=
  match op with
  | 1 => s.secure.level == .closed
  | 2 => !(s.secure.level == .invasive) && (path.isNone || pathIsAuthority s path)
  | 0x10 => s.stores.life == .provisioned && pathIsAuthority s path
  | 0x11 => s.stores.inUse && (path.isNone || pathIsAuthority s path)
  | 0x12 => s.stores.inUse && pathIsAuthority s path
  | _ => false

/-- R439: everything a token must meet. -/
def tokenGood (s : State) (path : Option Endpoint) (op : Nat) (t : List Byte) : Bool :=
  t.length == 256 && fieldAt t 0 4 == 0x4B544244 && fieldAt t 4 2 == 1 && byteAt t 6 == op && byteAt t 7 == s.stores.life.code &&
    fieldAt t 8 8 == s.stores.serial % 2 ^ 64 && currentNonce s == some (slice t 16 32) && tokArgsOk t op &&
    allZero (slice t 147 13) && opAllowed s path op && sha384 (slice t 48 97) == s.stores.debugKey &&
    ecdsaVerify (slice t 48 97) (t.take 160) (slice t 160 96)

/-- A token is presented: the nonce is spent, and a rejection counts; eight in a row set LOCKOUT (R439). -/
def present (s : State) (path : Option Endpoint) (op : Nat) (t : List Byte) : State × Bool :=
  let ok := !s.secure.lockout && tokenGood s path op t
  let n := if ok then 0 else s.secure.failCount + 1
  ({ s with secure := { s.secure with nonce := none, failCount := n, lockout := s.secure.lockout || decide (8 ≤ n) } }, ok)

/-! ## Debug levels (R436, R437, R440, R441) -/

/-- OBSERVE is entered from CLOSED; its trace starts empty. -/
def openObserve (s : State) : State := { s with secure := { s.secure with level := .observe, trace := [] } }

/-- An INVASIVE session opens; DEBUGGED stays set, and measurement 6 counts the session (R428, R440). -/
def openInvasive (s : State) : State :=
  let x := s.secure
  { s with secure := { x with
    level := .invasive, debugged := true, invSessions := (x.invSessions + 1) % 65536
    trace := if x.level == .observe then x.trace else [] } }

/-- Any session ends (R441). An INVASIVE session's end restarts a Gatehouse that is running, with a fresh read of its
firmware. -/
def closeDebug (s : State) : State :=
  if s.secure.level == .invasive then
    let t := endInvasive s
    if t.alive && t.boot.ready && t.fclk == .running && t.restart.isNone then startRestart .reload t else t
  else { s with secure := { s.secure with level := .closed, trace := [] } }

/-! ## Full tenant erase (R426) -/

/-- Every function's queues are deleted, and ENABLE is cleared (step 1 of R426). -/
def eraseFn (s : State) (f : FuncId) : State := (deleteQueues s f).modFn f fun x => { x with enable := false }

/-- Steps 1 to 4 of R426 begin; the pages' zeroing ends with the erase. -/
def startErase (a : AfterErase) (s : State) : State :=
  let t := (s.funcs.map fun f => fidOf f.1).foldl eraseFn s
  let u := t.plots.foldl (fun (v : State) p => clearErrBits v p.2.fids) t
  retargetAll { u with
    plots := [], engines := u.engines.map fun e => (e.1, e.2.zeroed), secure := { u.secure with erasing := some a } }

/-- RETIRE after its erase: CLOSED, sessions end, the authority record is none, IDOFF and then RETIRED are burned (Table 3 of R424,
R425). The Bool tells that every fuse reads back. -/
def retireNow (b : Burn) (s : State) : State × Bool :=
  let t := closeDebug s
  let x := t.stores.setAuthority .none
  if b.others then
    let y := { x with idOff := true }.burn .retired b.state
    let u := { t with sessions := [], stores := y }
    if y.life == .retired then (u, true) else (burnFailed u, false)
  else (burnFailed { t with sessions := [], stores := x }, false)

def answerEp (s : State) (ep : Option Endpoint) (op : Nat) : State :=
  match ep with
  | some e => accepted s e op
  | none => s

def refuseEp (s : State) (ep : Option Endpoint) (op : Nat) : State :=
  match ep with
  | some e => refused s e op
  | none => s

/-- TENANT_ERASE_DONE (R426): every page is zero, ERASING clears, and what waited for the erase follows. -/
def tenantEraseDone (s : State) : State :=
  match s.secure.erasing with
  | none => s
  | some a =>
    if s.alive && s.fclk == .running && s.hbmUp then
      let t := { s with devZeroing := 0, secure := { s.secure with erasing := none } }
      match a with
      | .retire ep b =>
        let r := retireNow b t
        if r.2 then answerEp r.1 ep 0x03 else refuseEp r.1 ep 0x03
      | .invasive ep => answerEp (openInvasive t) ep 0x12
    else s

/-- TENANT_ERASE_DONE (R426). -/
def execTenantEraseDone (s : State) : Host.Outcome State Fault Refusal := .next (tenantEraseDone s)

/-! ## Lifecycle operations (R424, R425) -/

/-- The authority that PROVISION and AUTHORITY name: 1 the BMC, 2 the PF of a port. -/
def authorityOf (kind port : Nat) : Option Authority :=
  if kind = 1 && port = 0 then some .bmc else if kind = 2 && decide (port ≤ 3) then some (.pf port) else none

/-- The ODK hash after its burn: fuses change only from 0 to 1, and which of them a failed burn reached is free. -/
def burnHash (old new : List Byte) (ok : Bool) (ix : Nat) : List Byte :=
  (List.range 48).map fun i =>
    let n := byteAt new i
    BitVec.ofNat 8 (Nat.lor (byteAt old i) (if ok then n else Nat.land n (Config.freeByte (ix + i)).toNat))

/-- PROVISION (R424, R425): from BLANK, over the sideband, at CLOSED: the authority record, the ODK hash, then PROVISIONED. -/
def provisionNow (ep : Endpoint) (body : List Byte) (b : Burn) (s : State) : State :=
  match authorityOf (byteAt body 48) (byteAt body 49) with
  | none => refused s ep 0x01
  | some a =>
    if s.stores.life == .blank && sideband ep && s.secure.level == .closed && body.length == 50 then
      let x := { s.stores with odkHash := burnHash s.stores.odkHash body b.others s.freeIx }.setAuthority a
      let t := { s with freeIx := if b.others then s.freeIx else s.freeIx + 48 }
      if b.others then
        let y := x.burn .provisioned b.state
        if y.life == .provisioned then accepted { t with stores := y } ep 0x01
        else refused (burnFailed { t with stores := y }) ep 0x01
      else refused (burnFailed { t with stores := x }) ep 0x01
    else refused s ep 0x01

/-- PROVISION (R424, R467). -/
def execProvision (ep : Endpoint) (m : BurnMsg) (s : State) : Host.Outcome State Fault Refusal :=
  .next (secAt s ep 0x01 fun s => awakeAt s (.provision ep m.bytes m.burn) (provisionNow ep m.bytes m.burn))

/-- FIELD (R424): no plot configured, debug CLOSED. -/
def fieldNow (ep : Endpoint) (tok : List Byte) (b : Burn) (s : State) : State :=
  let r := present s (some ep) 0x10 tok
  if r.2 && s.plots.isEmpty && s.secure.level == .closed then
    let y := r.1.stores.burn .field b.state
    if y.life == .field then accepted { r.1 with stores := y } ep 0x02 else refused (burnFailed { r.1 with stores := y }) ep 0x02
  else refused r.1 ep 0x02

/-- FIELD (R424, R467). -/
def execField (ep : Endpoint) (m : BurnMsg) (s : State) : Host.Outcome State Fault Refusal :=
  .next (secAt s ep 0x02 fun s => awakeAt s (.field ep m.bytes m.burn) (fieldNow ep m.bytes m.burn))

/-- RETIRE (R424): the erase runs first, and the rest follows at its end. -/
def retireStart (ep : Endpoint) (tok : List Byte) (b : Burn) (s : State) : State :=
  let r := present s (some ep) 0x11 tok
  if r.2 then startErase (.retire (some ep) b) r.1 else refused r.1 ep 0x03

/-- RETIRE (R424, R467). -/
def execRetire (ep : Endpoint) (m : BurnMsg) (s : State) : Host.Outcome State Fault Refusal :=
  .next (secAt s ep 0x03 fun s => awakeAt s (.retire ep m.bytes m.burn) (retireStart ep m.bytes m.burn))

/-- AUTHORITY (R424): no plot configured; a lifecycle operation ends any debug session (R441). -/
def authorityNow (ep : Endpoint) (tok : List Byte) (s : State) : State :=
  let r := present s (some ep) 0x12 tok
  match authorityOf (tokArg0 tok) (tokArg1 tok) with
  | some a =>
    if r.2 && s.plots.isEmpty then
      let t := closeDebug r.1
      accepted { t with stores := t.stores.setAuthority a } ep 0x04
    else refused r.1 ep 0x04
  | none => refused r.1 ep 0x04

/-- AUTHORITY (R424, R467). -/
def execAuthority (ep : Endpoint) (token : List Byte) (s : State) : Host.Outcome State Fault Refusal :=
  .next (secAt s ep 0x04 fun s => awakeAt s (.authority ep token) (authorityNow ep token))

/-! ## Debug entries (R437, R441, R467) -/

/-- OBSERVE without a token: the management authority, in PROVISIONED or FIELD, from CLOSED. -/
def observeFree (s : State) (ep : Endpoint) : Bool :=
  s.stores.inUse && s.secure.level == .closed && fromAuthority s ep

def observeNow (ep : Endpoint) (tok : List Byte) (s : State) : State :=
  if tok.isEmpty then
    if observeFree s ep then accepted (openObserve s) ep 0x11 else refused s ep 0x11
  else
    let r := present s (some ep) 1 tok
    if r.2 then accepted (openObserve r.1) ep 0x11 else refused r.1 ep 0x11

/-- OBSERVE (R437). -/
def execObserve (ep : Endpoint) (token : List Byte) (s : State) : Host.Outcome State Fault Refusal :=
  .next (secAt s ep 0x11 (observeNow ep token))

/-- An accepted INVASIVE request: in FIELD a full tenant erase runs first (R437). -/
def invade (s : State) (ep : Option Endpoint) : State :=
  if s.stores.life == .field then startErase (.invasive ep) s else answerEp (openInvasive s) ep 0x12

def invasiveNow (ep : Endpoint) (tok : List Byte) (s : State) : State :=
  let r := present s (some ep) 2 tok
  if r.2 then invade r.1 (some ep) else refused r.1 ep 0x12

/-- INVASIVE (R437). The combination with P2 cannot stand (R443), so in P2 the request wakes the device first. -/
def execInvasive (ep : Endpoint) (token : List Byte) (s : State) : Host.Outcome State Fault Refusal :=
  .next (secAt s ep 0x12 fun s => awakeAt s (.invasive ep token) (invasiveNow ep token))

/-- CLOSE (R441, R467). -/
def execClose (ep : Endpoint) (s : State) : Host.Outcome State Fault Refusal :=
  .next (secAt s ep 0x13 fun s => accepted (closeDebug s) ep 0x13)

/-- DBG_AUTH (R439, R442): OBSERVE, INVASIVE or RETIRE from JTAG. -/
def dbgAuth (tok : List Byte) (b : Burn) (s : State) : State :=
  let op := byteAt tok 6
  let r := present s none op tok
  if !r.2 then r.1
  else if op = 1 then openObserve r.1
  else if op = 2 then invade r.1 none
  else startErase (.retire none b) r.1

/-- DBG_AUTH (R439). While an erase runs no token is taken; OBSERVE can be entered in P2, the others wake the device. -/
def execDbgAuth (m : BurnMsg) (s : State) : Host.Outcome State Fault Refusal :=
  .next (if !(s.alive && s.boot.ready) || s.secure.erasing.isSome then s
    else if byteAt m.bytes 6 = 1 then dbgAuth m.bytes m.burn s
    else awakeAt s (.dbgAuth m.bytes m.burn) (dbgAuth m.bytes m.burn))

/-- TEST_LOGIC_RESET (R441, R442): the session ends, and boundary scan releases the pins. -/
def execTestLogicReset (s : State) : Host.Outcome State Fault Refusal :=
  .next (if s.lodgeUp then
    let t := closeDebug s
    { t with pins := { t.pins with drive := none } }
  else s)

/-- EXTEST, CLAMP and HIGHZ (R442): they take effect only while PERST# is asserted on every port. -/
def execExtest (i : ScanInstr) (s : State) : Host.Outcome State Fault Refusal :=
  .next (if (List.range s.portCount).all fun p => !(s.port p).perstN then { s with pins := { s.pins with drive := some i } } else s)

end Sys2Proof.Machine
end

