-- ==== Sys2Proof/Machine/RegRead.lean ====
section
/-!
DEFINITION. What each register of BAR0 and BAR2, and the MSI-X table, returns (files 16 to 21). Reading changes nothing
(R6), so reads are functions of the state and no commands.
-/

namespace Sys2Proof.Machine

/-- A bit at a position. -/
def flag (b : Bool) (i : Nat) : Nat := if b then 2 ^ i else 0

/-- A mask over the six engines. -/
def maskOf (g : Nat → Bool) : Nat := ((List.range 6).map fun e => flag (g e) e).sum

/-! ## The scope of a reading function (R398, R474) -/

/-- The plot that binds a function. -/
def State.plotFn (s : State) (f : FuncId) : Option (Nat × Plot) :=
  (boundIn s.plots (fidNat f)).bind fun n => (mget s.plots n).map fun p => (n, p)

/-- The engines a function sees: all in the designated PF, those of its plot when bound, else none. -/
def State.scopeMask (s : State) (f : FuncId) : Nat :=
  if s.designated f then 63
  else match s.plotFn f with
    | some (_, p) => p.engmask
    | none => 0

def inScope (s : State) (f : FuncId) (e : Nat) : Bool := bitOf (s.scopeMask f) e

/-- A field of the designated PF only. -/
def onlyDesig (s : State) (f : FuncId) (v : Nat) : Nat := if s.designated f then v else 0

/-! ## Lodge and Gatehouse (R463, R476, R478) -/

def ldgId (s : State) (f : FuncId) : Nat := 0x1F5C + 65536 * deviceId f + 2 ^ 32 * fwVer s

def ldgFunc (s : State) (f : FuncId) : Nat :=
  let plot := match s.plotFn f with
    | some (n, _) => 2 ^ 18 + 2 ^ 24 * n
    | none => 0
  f.port.val + 4 * s.pins.lanes + 256 * f.fn.val + flag (f.fn == 0) 16 + flag (s.designated f) 17 + plot + 2 ^ 32 * s.allot f

def ldgStatus (s : State) (f : FuncId) : Nat :=
  flag s.boot.ready 0 + 2 * s.boot.slot + 16 * s.boot.stage +
    256 * maskOf (fun e => inScope s f e && (s.eng e).failed) + 65536 * s.boot.stackMask

def ldgAccErr (s : State) (f : FuncId) : Nat := (s.fn f).dbCnt + 2 ^ 32 * (s.fn f).regCnt

def pairMask (g : Nat → Bool) : Nat := ((List.range 4).map fun e => flag (g e) e).sum

def ghStatus (s : State) : Nat :=
  pairMask (fun i => (s.pair i).active) + 16 * pairMask (fun i => (s.pair i).retired) + flag s.restart.isSome 8 +
    65536 * s.restarts

/-! ## The plot view (R479) -/

def plotReg (s : State) (n : Nat) (p : Plot) (i : Nat) : Nat :=
  match i with
  | 0 => n + 8 + 256 * p.engmask + 65536 * maskOf (fun e => bitOf p.engmask e && !(s.eng e).failed) + 2 ^ 32 * p.slots
  | 1 => p.quota + 2 ^ 32 * pagesHeld s n p
  | 2 => slotsHeld s n p + 65536 * (p.slots - slotsHeld s n p)
  | 3 => p.streamFirst + 65536 * p.streamCount + 2 ^ 32 * p.streams.length
  | 4 => p.queues + 65536 * (p.fids.map fun f => (s.fn f).queues.length).sum
  | 5 => p.tensors.length + 65536 * p.plans.length + flag p.key.isSome 32
  | _ => p.clock

def plotView (s : State) (f : FuncId) (i : Nat) : Nat :=
  match s.plotFn f with
  | some (n, p) => plotReg s n p i
  | none => 0

/-! ## Queue registers (R480, R484) -/

def qAdminCtl (x : Func) : Nat := flag x.enable 0 + flag x.busy 2 + flag x.cfgErr 3

def qErrStatus (x : Func) : Nat :=
  let bad := x.queues.filter fun q => q.2.dberr
  flag (!bad.isEmpty) 0 + flag (x.queues.any fun q => q.2.qstate == .broken) 1 + 65536 * ((bad.head?.map (·.1)).getD 0)

/-- Q_QSTATE_q: QSTATE as the shadow shows it. -/
def qState (s : State) (f : FuncId) (q : Nat) : Nat :=
  match mget (s.fn f).queues q with
  | none => 0
  | some x =>
    if s.allot f ≤ q then 0
    else 1 + 2 * x.shown.code + flag x.unordered 3 + flag x.ien 4 + flag x.dberr 8 + 65536 * x.vector + 2 ^ 24 * x.cthresh +
      2 ^ 32 * x.ctime

def adminReg (s : State) (f : FuncId) (i : Nat) : Nat :=
  let x := s.fn f
  match i with
  | 0 => x.sqBase
  | 1 => x.cqBase
  | 2 => x.shadow
  | 3 => x.sqLog + 256 * x.cqLog
  | 4 => flag x.ien 0 + 256 * x.cthresh + 65536 * x.ctime
  | 5 => qAdminCtl x
  | 6 => x.errVec
  | _ => qErrStatus x

/-! ## The Groundskeeper (R397, R398) -/

/-- A slice that INSLICE shows: to a plot only one that began since its contents last changed owner (R352, R398). -/
def shownSlice (s : State) (f : FuncId) (e : Nat) : Bool :=
  (s.eng e).slice.any fun sl => s.designated f || decide ((((s.plotFn f).map fun p => p.2.ownedAt).getD 0) ≤ sl.since)

def gkStatus (s : State) (f : FuncId) : Nat :=
  maskOf (fun e => inScope s f e && shownSlice s f e) + 256 * maskOf (fun e => inScope s f e && (s.eng e).overdue) +
    onlyDesig s f (flag s.keeper.catchup 16)

/-- The time that ages are taken at: the Lodge keeps its copy while FCLK stands (R29, R386). -/
def keeperNow (s : State) : Nat := if s.fclk == .stopped && !(s.p2 == .awake) then s.p2Since else s.lclk

/-- Milliseconds since a time, and no more than since the plot's contents changed owner (R352, R398). -/
def ageMs (s : State) (f : FuncId) (since width : Nat) : Nat :=
  let base := if s.designated f then since else max since (((s.plotFn f).map fun p => p.2.ownedAt).getD 0)
  min (2 ^ width - 1) ((keeperNow s - base) / 25000)

/-- Engines in service that a function sees. -/
def scopeEngines (s : State) (f : FuncId) : List Nat := (maskList (s.scopeMask f)).filter fun e => !(s.eng e).failed

def gkAge (s : State) (f : FuncId) : Nat :=
  if s.scopeMask f = 0 || !s.boot.ready then 0
  else
    let es := scopeEngines s f
    let sram := es.foldl (fun m e => min m (s.eng e).sweepStart) s.keeper.ghSweep
    let slices := (es.map fun e => ageMs s f (s.eng e).sliceTimer 16).foldl max 0
    ageMs s f sram 16 + 65536 * slices + onlyDesig s f (2 ^ 32 * ageMs s f s.keeper.hbmSweep 32)

def gkCount (s : State) (f : FuncId) : Nat :=
  let v := fun (a b c d : Nat) => a + 65536 * b + 2 ^ 32 * c + 2 ^ 48 * d
  if s.designated f then v s.keeper.slices s.keeper.forced s.keeper.abandoned s.keeper.failed
  else match s.plotFn f with
    | some (_, p) => v p.gkSlices p.gkForced p.gkAbandoned p.gkFailed
    | none => 0

/-! ## Power (R404, R405, R421) -/

def pwrCtl (s : State) : Nat :=
  flag s.power.p2en 0 + 256 * s.power.gateDelay + 65536 * s.power.p2Delay + 2 ^ 32 * s.power.plimit + 2 ^ 48 * s.power.tlimit

def eclkTgt (s : State) (f : FuncId) : Nat :=
  match s.plotFn f with
  | some (_, p) => p.eclkTarget
  | none => 0

/-- PSTATE (R405): P2 until FCLK runs again, then P1 until an engine leaves GATED (R411). -/
def pstate (s : State) : Nat :=
  if s.fclk == .stopped && !(s.p2 == .awake) then 2
  else if s.boot.ready && (List.range 6).all fun e => (s.eng e).isGated then 1
  else 0

/-- An engine omits ECLK pulses (R417). -/
def omitting (s : State) : Bool := s.power.halfPulse || decide (0 < s.power.omitted)

def limited (s : State) (e : Nat) : Bool :=
  let x := s.eng e
  x.power == .running && !x.failed && (decide (x.eclk < s.target e) || omitting s)

/-- GATED: the engine does not run, a wake in progress included. -/
def gatedBit (s : State) (e : Nat) : Bool := !((s.eng e).power == .running)

def pwrStatus (s : State) (f : FuncId) : Nat :=
  if s.scopeMask f = 0 then 0
  else
    pstate s + 256 * maskOf (fun e => inScope s f e && gatedBit s e) + 65536 * maskOf (fun e => inScope s f e && limited s e) +
      onlyDesig s f (flag s.power.limP 24 + flag (s.power.limT || s.power.hold) 25 + flag (omitting s) 26 +
        2 ^ 32 * s.power.ceiling)

/-! ## Security (R444) -/

def Authority.code : Authority → Nat
  | .none => 0 | .bmc => 1 | .pf _ => 2

def Authority.port : Authority → Nat
  | .pf p => p
  | _ => 0

def secStateReg (s : State) : Nat :=
  s.stores.life.code + 4 * s.secure.level.code + flag s.secure.debugged 4 + flag s.secure.lockout 5 +
    flag s.secure.erasing.isSome 6 + flag s.boot.fwFail 7 + 256 * s.stores.authority.code + 1024 * s.stores.authority.port +
    65536 * s.boot.fwSvn + 2 ^ 24 * s.stores.minSvn

def nonceWord (s : State) (k : Nat) : Nat :=
  match currentNonce s with
  | some b => fieldAt b (8 * k) 8
  | none => 0

/-! ## Error registers (R377, R477) -/

def errBits (new lost ce engFail : Bool) (s : State) : Nat :=
  flag new 0 + flag lost 1 + flag ce 2 + flag engFail 3 + flag s.restart.isSome 4 + flag s.fatal 5

def logReg (l : Log) (top : Nat) (i : Nat) : Nat :=
  match i with
  | 1 => min top l.recs.length + 256 * l.lost
  | 2 => (l.recs.head?.map fun r => fieldAt r.bytes 0 8).getD 0
  | 3 => (l.recs.head?.map fun r => fieldAt r.bytes 8 8).getD 0
  | 4 => (l.recs.head?.map fun r => fieldAt r.bytes 16 8).getD 0
  | 5 => (l.recs.head?.map fun r => fieldAt r.bytes 24 8).getD 0
  | 7 => l.ceSram + 2 ^ 32 * l.ceHbm
  | 8 => l.ceLast
  | _ => 0

/-- The ERR_ registers of a function, numbered from ERR_STATUS; an unbound one sees only FATAL. -/
def errReg (s : State) (f : FuncId) (i : Nat) : Nat :=
  match s.plotFn f with
  | none => if i = 0 then flag s.fatal 5 else 0
  | some (_, p) =>
    let x := s.fn f
    if i = 0 then errBits x.logNew x.lost x.ce ((maskList p.engmask).any fun e => (s.eng e).failed) s
    else logReg p.log 64 i

/-- The ERR_DEV_ registers. -/
def devReg (s : State) (i : Nat) : Nat :=
  if i = 0 then errBits s.devNew s.devLost s.devCe ((List.range 6).any fun e => (s.eng e).failed) s
  else logReg s.devLog 255 i

/-! ## Telemetry (R471, R472, R485) -/

/-- The telemetry register at an offset, or none where the layout has none. -/
def telReg (s : State) (f : FuncId) (off : Nat) : Option Nat :=
  let t := (s.fn f).snap
  let wrap := fun (n : Nat) => n % 2 ^ 64
  if off = 0x1000 then some (wrap s.telSnap)
  else if off = 0x1008 then some (wrap t.pktIn)
  else if off = 0x1010 then some (wrap t.pktOut)
  else if off = 0x1018 then some (wrap t.bytesIn)
  else if off = 0x1020 then some (wrap t.bytesOut)
  else if off = 0x1028 then some (wrap (if s.designated f then (s.plots.map fun p => p.2.epochsSnap).sum
    else ((s.plotFn f).map fun p => p.2.epochsSnap).getD 0))
  else if off = 0x1030 then some (onlyDesig s f (wrap s.devSnap.energy))
  else if off = 0x1038 then some (onlyDesig s f (wrap s.devSnap.fabRetry))
  else if off = 0x1040 then some (onlyDesig s f (wrap s.devSnap.routesLost))
  else if off = 0x1048 then some (onlyDesig s f (wrap s.devSnap.moverRetry))
  else if 0x1100 ≤ off && off < 0x1280 then
    let e := (off - 0x1100) / 64
    let x := (s.eng e).telSnap
    let v := fun (n : Nat) => some (if inScope s f e then wrap n else 0)
    match (off - 0x1100) % 64 / 8 with
    | 0 => v x.maBusy
    | 1 => v x.stallWeight
    | 2 => v x.stallOperand
    | 3 => v x.stallDrain
    | 4 => v x.stallClock
    | 5 => v x.run
    | 6 => v x.wake
    | _ => none
  else if 0x1300 ≤ off && off < 0x1380 then
    let x := s.port ((off - 0x1300) / 32)
    match (off - 0x1300) % 32 / 8 with
    | 0 => some (onlyDesig s f (wrap x.replay))
    | 1 => some (onlyDesig s f (wrap x.fec))
    | 2 => some (onlyDesig s f (wrap x.recov))
    | _ => none
  else none

/-! ## The map of BAR0 (R473 to R475) -/

/-- The 64-bit register at an 8-byte aligned offset of BAR0, or none where the function holds none (R474, R475). -/
def bar0Reg (s : State) (f : FuncId) (off : Nat) : Option Nat :=
  let desig := fun (v : Nat) => if s.designated f then some v else none
  if 0x200 ≤ off && off ≤ 0x230 then some (plotView s f ((off - 0x200) / 8))
  else if 0x400 ≤ off && off ≤ 0x438 then some (adminReg s f ((off - 0x400) / 8))
  else if 0x900 ≤ off && off ≤ 0x940 then some (errReg s f ((off - 0x900) / 8))
  else if 0x980 ≤ off && off ≤ 0x9C0 then desig (devReg s ((off - 0x980) / 8))
  else if 0x1000 ≤ off && off < 0x1400 then telReg s f off
  else if 0x4000 ≤ off && off < 0x8000 then some (qState s f ((off - 0x4000) / 8))
  else match off with
    | 0x0000 => some (ldgId s f)
    | 0x0008 => some 0x1060055F
    | 0x0010 => some (ldgFunc s f)
    | 0x0020 => some (ldgStatus s f)
    | 0x0028 => some 0
    | 0x0030 => some (ldgAccErr s f)
    | 0x0100 => some (ghStatus s)
    | 0x0600 => some s.keeper.ctl
    | 0x0608 => some (gkStatus s f)
    | 0x0610 => some (gkAge s f)
    | 0x0618 => some (gkCount s f)
    | 0x0700 => some (pwrCtl s)
    | 0x0708 => some (eclkTgt s f)
    | 0x0710 => some (pwrStatus s f)
    | 0x0800 => some (secStateReg s)
    | 0x0808 => desig 0
    | 0x0810 => desig (nonceWord s 0)
    | 0x0818 => desig (nonceWord s 1)
    | 0x0820 => desig (nonceWord s 2)
    | 0x0828 => desig (nonceWord s 3)
    | _ => none

/-- What a read of an 8-byte aligned word of BAR0 returns (R450, R473). -/
def bar0Read (s : State) (f : FuncId) (off : Nat) : Nat := (bar0Reg s f off).getD 0

/-- What a read of an 8-byte aligned word of BAR2 returns (R255, R486). -/
def bar2Read (s : State) (f : FuncId) (off : Nat) : Nat :=
  if 0x8000 ≤ off then 0
  else match mget (s.fn f).queues (off / 16) with
    | some x => if off % 16 = 0 then x.sqTail else x.cqHead
    | none => 0

/-- What a read of an 8-byte aligned word of BAR4 returns: the MSI-X table, and the Pending Bit Array (R449). -/
def bar4Read (s : State) (f : FuncId) (off : Nat) : Nat :=
  if off < 16 * vecLimit f then
    let e := (s.fn f).vec (off / 16)
    if off % 16 = 0 then e.addr else e.data + flag e.masked 32
  else if 0x8000 ≤ off && off < 0x8000 + vecLimit f / 8 + 7 then
    ((List.range 64).map fun i =>
      let v := 8 * (off - 0x8000) + i
      flag (decide (v < vecLimit f) && ((s.fn f).vec v).pend) i).sum
  else 0

end Sys2Proof.Machine
end

