-- ==== Sys2Proof/Machine/Regs.lean ====
section
/-!
DEFINITION. Host writes: doorbells in BAR2, registers in BAR0 and the MSI-X table in BAR4 (R5 to R8, R30, R255 to R257,
R283, R397, R404, R421, R439, R441, R449 to R451, R473 to R487).
-/

namespace Sys2Proof.Machine

/-! ## Doorbells (R255 to R257, R486) -/

/-- A discarded doorbell write (R255). -/
def countDb (s : State) (f : FuncId) : State := s.modFn f fun x => { x with dbCnt := sat32 (x.dbCnt + 1) }

/-- The doorbell that a write names: its queue, and whether it is the completion head (R255). -/
def doorbellOf (off size : Nat) : Option (Nat × Bool) :=
  if (size == 4 || size == 8) && decide (off < 0x8000) && off % 8 == 0 then some (off / 16, off % 16 == 8) else none

/-- R256. -/
def tailValid (x : Queue) (t : Nat) : Bool :=
  decide (x.sqOcc ≤ (t + 2 ^ 32 - x.sqHead) % 2 ^ 32) && decide ((t + 2 ^ 32 - x.sqHead) % 2 ^ 32 ≤ x.sqSize / 16)

/-- R257. -/
def headValid (x : Queue) (t : Nat) : Bool := decide ((t + 2 ^ 32 - x.cqHead) % 2 ^ 32 ≤ x.cqOcc)

/-- An invalid position: DBERR is set and the error vector signalled (R256). -/
def badDoorbell (s : State) (f : FuncId) (q : Nat) : State :=
  signalErr (s.modQueue (.ring f q) fun x => { x with dberr := true, dberrAt := some s.lclk }) f

/-- A submission tail (R256). -/
def writeTail (s : State) (f : FuncId) (q : Nat) (x : Queue) (t : Nat) : State :=
  if tailValid x t then doorbellWake (s.setQueue (.ring f q) { x with sqTail := t }) f else badDoorbell s f q

/-- A completion head; the granules it frees let waiting replies be written (R257, R270). -/
def writeHead (s : State) (f : FuncId) (q : Nat) (x : Queue) (t : Nat) : State :=
  if headValid x t then
    let u := doorbellWake (s.setQueue (.ring f q) { x with cqHead := t }) f
    if u.gatehouseUp then drain u (.ring f q) else u
  else badDoorbell s f q

/-- A write to BAR2. -/
def bar2Write (s : State) (f : FuncId) (off size v : Nat) : State :=
  match doorbellOf off size with
  | none => countDb s f
  | some (q, isHead) =>
    match mget (s.fn f).queues q with
    | none => countDb s f
    | some x => if isHead then writeHead s f q x (v % 2 ^ 32) else writeTail s f q x (v % 2 ^ 32)

/-! ## Writes within a register -/

/-- A discarded BAR0 write (R450, R473). -/
def countReg (s : State) (f : FuncId) : State := s.modFn f fun x => { x with regCnt := sat32 (x.regCnt + 1) }

/-- The register's bits after a write that covers `mask`. -/
def merge (cur mask v : Nat) : Nat := Nat.lor (Nat.land cur (2 ^ 64 - 1 - mask)) (Nat.land v mask)

/-- The write covers a field's bit and carries 1 there: W1C and WO fields act (R5, R450). -/
def hits (mask v i : Nat) : Bool := bitOf mask i && bitOf v i

/-- A field's new value, or the old one for a reserved encoding (R8). -/
def field (old new : Nat) (legal : Bool) : Nat := if legal then new else old

/-! ## The admin queue (R480 to R483) -/

/-- The registers that R482 protects. -/
def adminWindow (x : Func) (i w : Nat) : Func :=
  match i with
  | 0 => { x with sqBase := w }
  | 1 => { x with cqBase := w }
  | 2 => { x with shadow := w }
  | 3 => { x with sqLog := field x.sqLog (bitsOf w 4 0) (16 ≤ bitsOf w 4 0 && bitsOf w 4 0 ≤ 26),
                  cqLog := field x.cqLog (bitsOf w 12 8) (16 ≤ bitsOf w 12 8 && bitsOf w 12 8 ≤ 26) }
  | _ => { x with ien := bitOf w 0, cthresh := bitsOf w 15 8, ctime := bitsOf w 31 16 }

/-- The windows pass Table 1 of R252 (R481). -/
def adminWindowsOk (x : Func) : Bool :=
  let w := windowsBad x.sqBase (2 ^ x.sqLog) x.cqBase (2 ^ x.cqLog) x.shadow
  !(w.1 || w.2.1 || w.2.2.1 || w.2.2.2.1 || w.2.2.2.2)

/-- Queue 0 as ENABLE creates it (R481). -/
def adminQueue (x : Func) : Queue :=
  { Queue.blank with
    sqBase := x.sqBase, sqSize := 2 ^ x.sqLog, cqBase := x.cqBase, cqSize := 2 ^ x.cqLog, shadow := x.shadow, ien := x.ien,
    cthresh := x.cthresh, ctime := x.ctime }

/-- ENABLE = 1 while ENABLE and BUSY are 0 (R481). -/
def adminCreate (x : Func) : Func :=
  if adminWindowsOk x then { x with enable := true, queues := mput x.queues 0 (adminQueue x) } else { x with cfgErr := true }

/-- ENABLE = 0 while ENABLE is 1: every queue of the function is deleted, which is no function reset (R348, R482). -/
def adminDisable (s : State) (f : FuncId) : State :=
  (deleteQueues s f).modFn f fun x => { x with enable := false, busy := true }

/-- RESUME = 1 with ENABLE 1 after the write: queue 0 resumes from a ring fault or STALE_SEQUENCE only (R274, R483). -/
def adminResume (s : State) (f : FuncId) : State :=
  match mget (s.fn f).queues 0 with
  | some x => if (s.fn f).enable && x.qstate == .halted && x.byRing then resumeQueue s (.ring f 0) else s
  | none => s

/-- The ENABLE field of a write to Q_ADMIN_CTL. -/
def adminEnable (s : State) (f : FuncId) (v : Nat) : State :=
  let x := s.fn f
  if bitOf v 0 then (if x.enable then s else s.modFn f adminCreate)
  else if x.enable then adminDisable s f else s

/-- A write to Q_ADMIN_CTL (R481 to R483). A write that touches only bits 63:32 changes nothing. -/
def adminCtl (s : State) (f : FuncId) (mask v : Nat) : State :=
  if !bitOf mask 0 then s
  else if bitOf v 0 && ((s.fn f).busy || s.secure.erasing.isSome) then countReg s f
  else
    let t := if bitOf v 3 then s.modFn f fun x => { x with cfgErr := false } else s
    let u := adminEnable t f v
    if bitOf v 1 then adminResume u f else u

/-- A write to one of the Q_ registers from 0x0400 on (R480, R482). -/
def adminRegWrite (s : State) (f : FuncId) (i mask v : Nat) : State :=
  let x := s.fn f
  let w := merge (adminReg s f i) mask v
  if i ≤ 4 then
    if x.enable || x.busy then countReg s f else s.setFn f (adminWindow x i w)
  else if i = 5 then adminCtl s f mask v
  else if i = 6 then s.setFn f { x with errVec := field x.errVec (bitsOf w 7 0) (decide (bitsOf w 7 0 < vecLimit f)) }
  else s

/-- A W1C bit after a write that hits it or not: it stays set where the hardware set it in the same LCLK cycle (R7). -/
def w1c (bit : Bool) (at' : Option Nat) (now : Nat) (hit : Bool) : Bool := bit && (!hit || at' == some now)

/-- A write to Q_QSTATE_q: DBERR is W1C (R484). -/
def qStateWrite (s : State) (f : FuncId) (q mask v : Nat) : State :=
  if hits mask v 8 then s.modQueue (.ring f q) fun x => { x with dberr := w1c x.dberr x.dberrAt s.lclk true } else s

/-! ## Error registers (R377, R378) -/

/-- A function's own LOGNEW, LOST and CE. -/
def errStatusWrite (s : State) (f : FuncId) (mask v : Nat) : State :=
  s.modFn f fun x =>
    { x with logNew := w1c x.logNew (mget x.setAt 0) s.lclk (hits mask v 0), lost := w1c x.lost (mget x.setAt 1) s.lclk (hits mask v 1)
             ce := w1c x.ce (mget x.setAt 2) s.lclk (hits mask v 2) }

def devStatusWrite (s : State) (mask v : Nat) : State :=
  { s with devNew := w1c s.devNew (mget s.devSetAt 0) s.lclk (hits mask v 0)
           devLost := w1c s.devLost (mget s.devSetAt 1) s.lclk (hits mask v 1), devCe := w1c s.devCe (mget s.devSetAt 2) s.lclk (hits mask v 2) }

/-- The oldest record is removed (R378). -/
def Log.popped (l : Log) : Log := { l with recs := l.recs.drop 1 }

def errPop (s : State) (f : FuncId) (mask v : Nat) : State :=
  if hits mask v 0 then match s.plotFn f with
    | some (n, p) => s.setPlot n { p with log := p.log.popped }
    | none => s
  else s

def devPop (s : State) (mask v : Nat) : State := if hits mask v 0 then { s with devLog := s.devLog.popped } else s

/-! ## GK_CTL (R397) -/

/-- A slice that a cleared SLICES bit stops: the engine is at its own clock again at once (log entry 87). -/
def stopSlice (s : State) (e : Nat) : State :=
  let t := abandonSlice s e
  let forced := (s.eng e).slice.any fun sl => sl.kind == .forced
  t.modEng e fun x =>
    if forced then
      { x with overdue := false, slice := none, idleSince := s.lclk, relock := none, eclk := min (s.target e) s.power.ceiling }
    else { x with overdue := false }

/-- What a change of one bit of GK_CTL does: a cleared function stops, and a set one starts a new sweep or period. -/
def keeperBit (old new : Nat) (s : State) (bit : Nat) : State :=
  if bitOf old bit && !bitOf new bit then
    match bit with
    | 2 => { s with keeper := { s.keeper with catchup := false } }
    | 3 => (List.range 6).foldl stopSlice s
    | _ => s
  else if !bitOf old bit && bitOf new bit then
    match bit with
    | 0 => { s with engines := s.engines.map fun e => (e.1, { e.2 with sweepNext := s.lclk, scrub := [] }) }
    | 1 => { s with keeper := { s.keeper with ghNext := s.lclk } }
    | 2 => { s with keeper := { s.keeper with hbmNext := s.lclk } }
    | 3 => { s with engines := s.engines.map fun e => (e.1, { e.2 with sliceTimer := s.lclk }) }
    | _ => { s with pairs := s.pairs.map fun p => (p.1, { p.2 with compared := 0, idle := 0, segment := none }) }
  else s

/-- GK_CTL takes a value (R397). -/
def setKeeperCtl (s : State) (v : Nat) : State :=
  let w := v % 32
  let t := (List.range 5).foldl (keeperBit s.keeper.ctl w) s
  { t with keeper := { t.keeper with ctl := w } }

/-! ## Power registers (R404, R410, R421) -/

/-- The fields of PWR_CTL after a write. -/
def Power.write (p : Power) (w : Nat) : Power :=
  { p with
    p2en := bitOf w 0
    gateDelay := bitsOf w 15 8
    p2Delay := field p.p2Delay (bitsOf w 31 16) (bitsOf w 31 16 != 0)
    plimit := field p.plimit (bitsOf w 41 32) (150 ≤ bitsOf w 41 32 && bitsOf w 41 32 ≤ 700)
    tlimit := field p.tlimit (bitsOf w 55 48) (70 ≤ bitsOf w 55 48 && bitsOf w 55 48 ≤ 100) }

/-- A wake event that has no effect outside P2 (R410, R421). -/
def wakeFromP2 (s : State) : State := if s.p2 == .inP2 then wakeEvent s else s

/-- PWR_CTL in the designated PF (R421): WAKE and P2EN = 0 wake a device in P2, and P2EN = 0 ends a spell of R408. -/
def pwrCtlWrite (s : State) (mask v : Nat) : State :=
  let w := s.power.write (merge (pwrCtl s) mask v)
  let t := { s with power := w, p2Cond := if w.p2en then s.p2Cond else none }
  if hits mask v 1 || (bitOf mask 0 && !bitOf v 0) then wakeFromP2 t else t

/-- PWR_ECLK_TGT in a bound function (R404, R421): each running engine of the plot relocks. -/
def eclkWrite (s : State) (f : FuncId) (mask v : Nat) : State :=
  match s.plotFn f with
  | none => s
  | some (n, p) =>
    let w := bitsOf (merge p.eclkTarget mask v) 4 0
    if 4 ≤ w && w ≤ 18 then retargetAll (s.setPlot n { p with eclkTarget := w }) else s

/-! ## SEC_DBG_CTL and LDG_RESET (R437, R439, R441, R444, R457, R463) -/

/-- OBS_ENTER: OBSERVE from CLOSED in PROVISIONED or FIELD. -/
def obsEnterBit (s : State) : State := if s.secure.level == .closed && s.stores.inUse then openObserve s else s

/-- SEC_DBG_CTL, its bits in ascending order. -/
def secCtlWrite (s : State) (mask v : Nat) : State :=
  let t := if hits mask v 0 then makeNonce s else s
  let u := if hits mask v 1 then obsEnterBit t else t
  if hits mask v 2 then closeDebug u else u

/-- COLD: 0xC01D in the designated PF starts a cold reset. -/
def ldgResetWrite (s : State) (f : FuncId) (mask v : Nat) : State :=
  if s.designated f && bitsOf mask 15 0 == 0xFFFF && bitsOf v 15 0 == 0xC01D && s.resettable then coldReset s else s

/-! ## A write to BAR0 (R450, R473, R474, R487) -/

/-- A write to a register that the function holds. -/
def regWrite (s : State) (f : FuncId) (off mask v : Nat) : State :=
  if 0x400 ≤ off && off ≤ 0x438 then adminRegWrite s f ((off - 0x400) / 8) mask v
  else if 0x4000 ≤ off && off < 0x8000 then qStateWrite s f ((off - 0x4000) / 8) mask v
  else match off with
    | 0x0028 => ldgResetWrite s f mask v
    | 0x0600 => if s.designated f then setKeeperCtl s (merge s.keeper.ctl mask v) else s
    | 0x0700 => if s.designated f then pwrCtlWrite s mask v else s
    | 0x0708 => eclkWrite s f mask v
    | 0x0808 => secCtlWrite s mask v
    | 0x0900 => errStatusWrite s f mask v
    | 0x0930 => errPop s f mask v
    | 0x0980 => devStatusWrite s mask v
    | 0x09B0 => devPop s mask v
    | _ => s

/-- The bits of an 8-byte register that an aligned write covers, and the write's value in place (R450). -/
def writeMask (off size : Nat) : Nat := if size = 8 then 2 ^ 64 - 1 else (2 ^ 32 - 1) * 2 ^ (8 * (off % 8))
def writeValue (off size v : Nat) : Nat := if size = 8 then v % 2 ^ 64 else v % 2 ^ 32 * 2 ^ (8 * (off % 8))

/-- The size and alignment that take effect. -/
def alignedWrite (off size : Nat) : Bool := (size == 4 || size == 8) && off % size == 0

/-- A write to BAR0. -/
def bar0Write (s : State) (f : FuncId) (off size v : Nat) : State :=
  if !alignedWrite off size || (bar0Reg s f (off / 8 * 8)).isNone then countReg s f
  else regWrite s f (off / 8 * 8) (writeMask off size) (writeValue off size v)

/-! ## MSI-X (R283, R449; base specification: log entry 9) -/

/-- A table entry after a write; only the mask bit of its control dword is kept. -/
def MsixEntry.write (e : MsixEntry) (half mask v : Nat) : MsixEntry :=
  if half = 0 then { e with addr := merge e.addr mask v }
  else
    let w := merge (e.data + flag e.masked 32) mask v
    { e with data := w % 2 ^ 32, masked := bitOf w 32 }

/-- A vector's entry takes a value, and a pending message of an unmasked vector goes out once (R283). -/
def setVec (s : State) (f : FuncId) (v : Nat) (e : MsixEntry) : State :=
  flushVec (s.modFn f fun x => { x with msix := mput x.msix v e }) f v

/-- A write to BAR4: offsets beyond the table ignore writes (R449). -/
def bar4Write (s : State) (f : FuncId) (off size v : Nat) : State :=
  if alignedWrite off size && decide (off < 16 * vecLimit f) then
    setVec s f (off / 16) (((s.fn f).vec (off / 16)).write (off / 8 % 2) (writeMask off size) (writeValue off size v))
  else s

/-! ## The host's writes -/

/-- A write that the Lodge serves is a transaction of the port (R451, R456); any other is UNSUPPORTED_REQUEST's. -/
def served (s : State) (f : FuncId) (k : State → State) : State :=
  if mmioServed s f then k (touchPort s f.port.val) else s

/-- A poisoned write is discarded and reported (R450). -/
def mmioWrite (w : MmioWrite) (s : State) : State :=
  if w.poisoned then { s with out := s.out ++ [.poisoned w.f.port.val] }
  else match w.bar with
    | .bar0 => bar0Write s w.f w.off w.size w.data.toNat
    | .bar2 => bar2Write s w.f w.off w.size w.data.toNat
    | .bar4 => bar4Write s w.f w.off w.size w.data.toNat

/-- REGISTER_WRITE (R5, R450). -/
def execRegisterWrite (w : MmioWrite) (s : State) : Host.Outcome State Fault Refusal := .next (served s w.f (mmioWrite w))

/-- SQ_TAIL_DOORBELL (R256). -/
def execSqTailDoorbell (f : FuncId) (off size : Nat) (data : Word) (s : State) : Host.Outcome State Fault Refusal :=
  .next (served s f fun t => bar2Write t f off size data.toNat)

/-- CQ_HEAD_DOORBELL (R257). -/
def execCqHeadDoorbell (f : FuncId) (off size : Nat) (data : Word) (s : State) : Host.Outcome State Fault Refusal :=
  .next (served s f fun t => bar2Write t f off size data.toNat)

/-- The row's own bit set in the value written. -/
def withBit (v : Word) (i : Nat) : Nat := Nat.lor v.toNat (2 ^ i)

/-- The row's own bit clear in the value written. -/
def withoutBit (v : Word) (i : Nat) : Nat := v.toNat - flag (bitOf v.toNat i) i

/-- Q_ADMIN_ENABLE (R481). -/
def execQAdminEnable (f : FuncId) (v : Word) (s : State) : Host.Outcome State Fault Refusal :=
  .next (served s f fun t => bar0Write t f 0x428 8 (withBit v 0))

/-- Q_ADMIN_DISABLE (R482). -/
def execQAdminDisable (f : FuncId) (v : Word) (s : State) : Host.Outcome State Fault Refusal :=
  .next (served s f fun t => bar0Write t f 0x428 8 (withoutBit v 0))

/-- ADMIN_DELETION_DONE (R482). -/
def execAdminDeletionDone (f : FuncId) (s : State) : Host.Outcome State Fault Refusal :=
  .next (if s.lodgeUp && (s.fn f).busy then s.modFn f fun x => { x with busy := false } else s)

/-- Q_ADMIN_RESUME (R483). -/
def execQAdminResume (f : FuncId) (v : Word) (s : State) : Host.Outcome State Fault Refusal :=
  .next (served s f fun t => bar0Write t f 0x428 8 (withBit v 1))

/-- ERR_LOG_POP (R378). -/
def execErrLogPop (f : FuncId) (v : Word) (s : State) : Host.Outcome State Fault Refusal :=
  .next (served s f fun t => bar0Write t f 0x930 8 (withBit v 0))

/-- ERR_DEV_LOG_POP (R477). -/
def execErrDevLogPop (f : FuncId) (v : Word) (s : State) : Host.Outcome State Fault Refusal :=
  .next (served s f fun t => bar0Write t f 0x9B0 8 (withBit v 0))

/-- LDG_RESET_COLD (R457). -/
def execLdgResetCold (f : FuncId) (v : Word) (s : State) : Host.Outcome State Fault Refusal :=
  .next (served s f fun t => bar0Write t f 0x28 8 (v.toNat / 65536 * 65536 + 0xC01D))

/-- PWR_WAKE (R410). -/
def execPwrWake (f : FuncId) (v : Word) (s : State) : Host.Outcome State Fault Refusal :=
  .next (served s f fun t => bar0Write t f 0x700 8 (withBit v 1))

/-- P2EN_CLEAR (R410). -/
def execP2enClear (f : FuncId) (v : Word) (s : State) : Host.Outcome State Fault Refusal :=
  .next (served s f fun t => bar0Write t f 0x700 8 (withoutBit v 0))

/-- PWR_ECLK_TGT_WRITE (R404). -/
def execPwrEclkTgtWrite (f : FuncId) (v : Word) (s : State) : Host.Outcome State Fault Refusal :=
  .next (served s f fun t => bar0Write t f 0x708 8 v.toNat)

/-- GK_CTL_WRITE (R397). -/
def execGkCtlWrite (f : FuncId) (v : Word) (s : State) : Host.Outcome State Fault Refusal :=
  .next (served s f fun t => bar0Write t f 0x600 8 v.toNat)

/-- NEWNONCE (R439). -/
def execNewNonce (f : FuncId) (v : Word) (s : State) : Host.Outcome State Fault Refusal :=
  .next (served s f fun t => bar0Write t f 0x808 8 (withBit v 0))

/-- OBS_ENTER (R437). -/
def execObsEnter (f : FuncId) (v : Word) (s : State) : Host.Outcome State Fault Refusal :=
  .next (served s f fun t => bar0Write t f 0x808 8 (withBit v 1))

/-- DBG_CLOSE (R441). -/
def execDbgClose (f : FuncId) (v : Word) (s : State) : Host.Outcome State Fault Refusal :=
  .next (served s f fun t => bar0Write t f 0x808 8 (withBit v 2))

/-- MSIX_UNMASK (R283). -/
def execMsixUnmask (f : FuncId) (vec : Nat) (s : State) : Host.Outcome State Fault Refusal :=
  .next (served s f fun t => if vec < vecLimit f then setVec t f vec { (t.fn f).vec vec with masked := false } else t)

end Sys2Proof.Machine
end

