-- ==== Sys2Proof/Machine/Spdm.lean ====
section
/-!
DEFINITION. SPDM: connections, measurements, signed responses and sessions (R428 to R431). The message codes are those of the
SPDM standard (log entry 43); bytes that only the standard fixes are `Config.stdBytes`.
-/

namespace Sys2Proof.Machine

/-! ## Who is served (R431, R461) -/

/-- The connection's messages reach the Lodge. -/
def spdmUp (s : State) : Transport → Bool
  | .doe f => cfgServed s f
  | .mctp ep => s.lodgeUp && s.boot.configReady && epUp s ep

def spdmSend (s : State) (t : Transport) (b : List Byte) : State := { s with out := s.out ++ [.spdm t b] }

/-- ERROR with its code and data. -/
def spdmError (s : State) (t : Transport) (code data : Nat) : State := spdmSend s t (toLe 1 0x7F ++ toLe 1 code ++ toLe 1 data)

def errInvalid : Nat := 0x01
def errSession : Nat := 0x02
def errUnexpected : Nat := 0x04
def errDecrypt : Nat := 0x06
def errUnsupported : Nat := 0x07
def errLimit : Nat := 0x0A

/-- A request of a transport. In RETIRED only the requests of `open` kind are answered (Table 2 of R423). -/
def spdmAt (s : State) (t : Transport) (code : Nat) (open_ : Bool) (k : State → State) : State :=
  if !spdmUp s t then s
  else if s.stores.life == .retired && !open_ then spdmError s t errUnsupported code
  else k s

/-! ## Connections -/

def connOf (s : State) (t : Transport) : SpdmConn := (s.spdm.find? fun c => c.transport == t).getD ⟨t, false, false, false⟩
def setConn (s : State) (c : SpdmConn) : State := { s with spdm := (s.spdm.filter fun d => !(d.transport == c.transport)) ++ [c] }

/-- A request that comes out of order is unexpected. -/
def needs (s : State) (t : Transport) (ok : Bool) (k : State → State) : State := if ok then k s else spdmError s t errUnexpected 0

/-- GET_VERSION: 1.2 and 1.3; the connection starts over. -/
def getVersion (t : Transport) (s : State) : State :=
  spdmSend (setConn s ⟨t, true, false, false⟩) t (toLe 1 0x04 ++ toLe 1 2 ++ toLe 2 0x1200 ++ toLe 2 0x1300)

/-- GET_VERSION (R430). -/
def execGetVersion (t : Transport) (s : State) : Host.Outcome State Fault Refusal := .next (spdmAt s t 0x84 true (getVersion t))

/-- GET_CAPABILITIES (R430). -/
def execGetCapabilities (t : Transport) (s : State) : Host.Outcome State Fault Refusal :=
  .next (spdmAt s t 0xE1 true fun s =>
    let c := connOf s t
    needs s t c.version fun s => spdmSend (setConn s { c with capabilities := true, algorithms := false }) t
      (toLe 1 0x61 ++ Config.stdBytes 0x61 0))

/-- NEGOTIATE_ALGORITHMS (R430): the algorithms of Table 5, and no other. -/
def execNegotiateAlgorithms (t : Transport) (s : State) : Host.Outcome State Fault Refusal :=
  .next (spdmAt s t 0xE3 true fun s =>
    let c := connOf s t
    needs s t c.capabilities fun s => spdmSend (setConn s { c with algorithms := true }) t
      (toLe 1 0x63 ++ Config.stdBytes 0x63 0))

/-- The connection has negotiated. -/
def negotiated (s : State) (t : Transport) (k : State → State) : State := needs s t (connOf s t).algorithms k

/-- GET_DIGESTS (R430): slot 0 only. -/
def execGetDigests (t : Transport) (s : State) : Host.Outcome State Fault Refusal :=
  .next (spdmAt s t 0x81 true fun s => negotiated s t fun s =>
    spdmSend s t (toLe 1 0x01 ++ toLe 1 1 ++ sha384 s.stores.certChain))

/-- GET_CERTIFICATE (R430): a part of the slot 0 chain, and how much follows it. -/
def execGetCertificate (t : Transport) (slot off len : Nat) (s : State) : Host.Outcome State Fault Refusal :=
  .next (spdmAt s t 0x82 true fun s => negotiated s t fun s =>
    if slot = 0 && off < s.stores.certChain.length then
      let part := (s.stores.certChain.drop off).take len
      spdmSend s t (toLe 1 0x02 ++ toLe 2 part.length ++ toLe 2 (s.stores.certChain.length - off - part.length) ++ part)
    else spdmError s t errInvalid 0)

/-! ## The identity key and measurements (R428, R429) -/

/-- The private scalar of the identity key, from the UDS (R429); none with IDOFF set. -/
def identityKey (st : Stores) : Option Nat :=
  if st.idOff then none
  else some (beNat (hkdf sha384Spec [] st.uds (ascii "LOIVO-SHASTAL-ID-1") 48) % (p384n - 1) + 1)

/-- 32 random bytes of a response, or 48 of a signature. -/
def freeBytesAt (ix n : Nat) : List Byte := (List.range n).map fun i => Config.freeByte (ix + i)

/-- A response signed with the identity key over the transcript, whose form the standard gives (R429, R430). -/
def signed384 (s : State) (code : Nat) (request body : List Byte) : List Byte × State :=
  let nonce := freeBytesAt s.freeIx 32
  let whole := toLe 1 code ++ body ++ nonce
  let k := beNat (freeBytesAt (s.freeIx + 32) 48)
  let sig := match identityKey s.stores with
    | some d => ecdsaSign d k (Config.stdBytes code 1 ++ request ++ whole)
    | none => []
  (whole ++ sig, { s with freeIx := s.freeIx + 80 })

def boolNat (b : Bool) : Nat := if b then 1 else 0

/-- The value of a measurement, and its value type (Table 4 of R428). -/
def measurement (s : State) (i : Nat) : Option (Nat × List Byte) :=
  let st := s.stores
  match i with
  | 1 => some (0x00, Config.bootRomDigest)
  | 2 => some (0x01, sha384 s.boot.fwImage)
  | 3 => some (0x87, toLe 1 s.boot.fwSvn ++ toLe 1 s.boot.slot)
  | 4 => some (0x82, toLe 1 st.life.code ++ toLe 1 st.minSvn ++ toLe 1 (boolNat st.idOff) ++ st.fvkHash ++ st.tdkHash ++ st.odkHash)
  | 5 => some (0x03, Config.authorityDigest (st.record.code + 4 * st.record.port))
  | 6 => some (0x85, toLe 1 s.secure.level.code ++ toLe 1 (boolNat s.secure.debugged) ++ toLe 2 s.secure.invSessions)
  | _ => none

/-- The block of one measurement. -/
def measureBlock (s : State) (i : Nat) : List Byte :=
  match measurement s i with
  | some (ty, v) => toLe 1 i ++ toLe 1 1 ++ toLe 2 (v.length + 3) ++ toLe 1 ty ++ toLe 2 v.length ++ v
  | none => []

/-- The indices that a request names: 0xFF is all six, and 0 asks for their number alone. -/
def measureList (index : Nat) : Option (List Nat) :=
  if index = 0 then some []
  else if index = 0xFF then some [1, 2, 3, 4, 5, 6]
  else if index ≤ 6 then some [index] else none

def getMeasurements (t : Transport) (index : Nat) (nonce : List Byte) (s : State) : State :=
  match measureList index with
  | none => spdmError s t errInvalid 0
  | some l =>
    let record := l.flatMap (measureBlock s)
    let r := signed384 s 0x60 nonce (toLe 1 (if index = 0 then 6 else 0) ++ toLe 1 l.length ++ toLe 3 record.length ++ record)
    spdmSend r.2 t r.1

/-- GET_MEASUREMENTS (R428), always signed (R430). -/
def execGetMeasurements (t : Transport) (index : Nat) (nonce : List Byte) (s : State) : Host.Outcome State Fault Refusal :=
  .next (spdmAt s t 0xE0 false fun s => negotiated s t (getMeasurements t index nonce))

def challenge (t : Transport) (slot : Nat) (nonce : List Byte) (s : State) : State :=
  if slot = 0 then
    let r := signed384 s 0x03 nonce (sha384 s.stores.certChain)
    spdmSend r.2 t r.1
  else spdmError s t errInvalid 0

/-- CHALLENGE (R430). -/
def execChallenge (t : Transport) (slot : Nat) (nonce : List Byte) (s : State) : Host.Outcome State Fault Refusal :=
  .next (spdmAt s t 0x83 false fun s => negotiated s t (challenge t slot nonce))

/-! ## Sessions (R431, R433) -/

def isDoe : Transport → Bool
  | .doe _ => true
  | .mctp _ => false

/-- Sessions that count against the limit of a transport: 4 for each DOE mailbox, and 8 over MCTP. -/
def sessionCount (s : State) (t : Transport) : Nat :=
  (s.sessions.filter fun x => if isDoe t then x.2.transport == t else !isDoe x.2.transport).length

def sessionLimit (t : Transport) : Nat := if isDoe t then 4 else 8

/-- The responder half of a session ID: a value of the device's own that makes the ID unused. -/
def responderId (s : State) (reqId : Nat) : Nat :=
  let base := Config.freeId s.freeIx
  let used := s.sessions.map fun x => x.2.id
  (((List.range 64).map fun j => (base + j) % 65536).find? fun r => !used.contains (reqId + 65536 * r)).getD (base % 65536)

/-- The key of a new session in the table. -/
def freshKey (s : State) : Nat := (s.sessions.map (·.1)).foldl (fun m k => max m (k + 1)) 0

def keyExchange (t : Transport) (reqId heartbeat : Nat) (s : State) : State :=
  if sessionLimit t ≤ sessionCount s t then spdmError s t errLimit 0
  else
    let rsp := responderId s reqId
    let x : Session := ⟨t, reqId + 65536 * rsp, false, [], [], 0, heartbeat, s.lclk⟩
    let u := { s with sessions := mput s.sessions (freshKey s) x, freeIx := s.freeIx + 1 }
    let r := signed384 u 0x64 (toLe 2 reqId) (toLe 1 heartbeat ++ toLe 2 rsp ++ Config.stdBytes 0x64 0)
    spdmSend r.2 t r.1

/-- KEY_EXCHANGE (R430). -/
def execKeyExchange (t : Transport) (reqId : BitVec 16) (heartbeat : Nat) (s : State) : Host.Outcome State Fault Refusal :=
  .next (spdmAt s t 0xE4 false fun s => negotiated s t (keyExchange t reqId.toNat (heartbeat % 256)))

/-- The session of a transport with an ID, established or not. -/
def sessionOf (s : State) (t : Transport) (id : Nat) (established : Bool) : Option (Nat × Session) :=
  s.sessions.find? fun x => x.2.transport == t && x.2.id == id && x.2.established == established

def putSession (s : State) (k : Nat) (x : Session) : State := { s with sessions := mput s.sessions k x }
def dropSession (s : State) (k : Nat) : State := { s with sessions := mdel s.sessions k }

/-- A message of a session that does not stand is an invalid-session error. -/
def inSession (s : State) (t : Transport) (id : Nat) (established : Bool) (k : Nat → Session → State) : State :=
  match sessionOf s t id established with
  | some (n, x) => k n x
  | none => spdmError s t errSession 0

/-- FINISH: the session is established with its keys, or ends when the requester's check fails. -/
def finishSession (t : Transport) (id : Nat) (ok : Bool) (key iv : List Byte) (s : State) : State :=
  inSession s t id false fun n x =>
    if ok then spdmSend (putSession s n { x with established := true, key := key, iv := iv, seq := 0, lastBeat := s.lclk }) t (toLe 1 0x65)
    else spdmError (dropSession s n) t errDecrypt 0

/-- FINISH (R430). -/
def execFinish (t : Transport) (id : Nat) (ok : Bool) (key iv : List Byte) (s : State) : Host.Outcome State Fault Refusal :=
  .next (spdmAt s t 0xE5 false (finishSession t id ok key iv))

/-- The session with one more request consumed (R433). -/
def Session.consumed (x : Session) : Session := { x with seq := (x.seq + 1) % 2 ^ 64 }

/-- HEARTBEAT (R431). -/
def execHeartbeat (t : Transport) (id : Nat) (s : State) : Host.Outcome State Fault Refusal :=
  .next (spdmAt s t 0xE8 false fun s => inSession s t id true fun n x =>
    spdmSend (putSession s n { x.consumed with lastBeat := s.lclk }) t (toLe 1 0x68))

/-- A session without a HEARTBEAT for twice its period (log entry 44). -/
def beatLost (s : State) (x : Session) : Bool :=
  decide (0 < x.heartbeat) && decide (x.lastBeat + msec (2000 * x.heartbeat) ≤ s.lclk)

/-- HEARTBEAT_TIMEOUT (R431). -/
def execHeartbeatTimeout (t : Transport) (id : Nat) (s : State) : Host.Outcome State Fault Refusal :=
  .next (match sessionOf s t id true with
    | some (n, x) => if s.lodgeUp && beatLost s x then dropSession s n else s
    | none => s)

/-- KEY_UPDATE (R430): the requester's new keys, from sequence number 0 on. -/
def execKeyUpdate (t : Transport) (id : Nat) (key iv : List Byte) (s : State) : Host.Outcome State Fault Refusal :=
  .next (spdmAt s t 0xE9 false fun s => inSession s t id true fun n x =>
    spdmSend (putSession s n { x with key := key, iv := iv, seq := 0 }) t (toLe 1 0x69))

/-- END_SESSION (R431). -/
def execEndSession (t : Transport) (id : Nat) (s : State) : Host.Outcome State Fault Refusal :=
  .next (spdmAt s t 0xEC false fun s => inSession s t id true fun n _ => spdmSend (dropSession s n) t (toLe 1 0x6C))

/-- SPDM_UNSUPPORTED_REQUEST (R430). -/
def execSpdmUnsupportedRequest (t : Transport) (code : BitVec 8) (s : State) : Host.Outcome State Fault Refusal :=
  .next (if spdmUp s t then spdmError s t errUnsupported code.toNat else s)

end Sys2Proof.Machine
end

