-- ==== Sys2Proof/Machine/Manage.lean ====
section
/-!
DEFINITION. MCTP, the PCP channel and PLDM (R341, R379, R461, R465 to R470). Codes of PLDM and of MCTP control messages are
those of their standards (log entry 45).
-/

namespace Sys2Proof.Machine

/-! ## The PCP channel (R466) -/

/-- A reply slot of the channel that answers a packet at once. -/
def answerPcp (s : State) (h : Hdr) (untrusted : Bool) (r : Reply) : State :=
  drain { s with pcp := { s.pcp with slots := s.pcp.slots ++ [refusalSlot h untrusted false r] } } .bmc

/-- PLOT_CONFIG and PLOT_RELEASE are accepted over the sideband alone: over PCIe the channel has no authority. -/
def acceptPcp (s : State) (ep : Endpoint) : State :=
  let t := if sideband ep then s else { s with stores := s.stores.setAuthority .none }
  { acceptAt t .bmc with stores := s.stores }

/-- Packets that the channel has accepted and not answered. -/
def pcpAhead (x : Queue) : Nat := (x.slots.filter fun sl => sl.kind == .command).length

/-- One packet: check 1 and check 2 are answered and halt nothing; a halted channel refuses; the rest is an ORDERED admin
queue's. -/
def pcpPacket (s : State) (ep : Endpoint) (bs : List Byte) : State :=
  let x := s.pcp
  let h := hdrOf bs
  if !tlenOk h.tlen 65536 || h.tlen != bs.length then answerPcp s h true ⟨.badLength, 0, 4, x.e, [], []⟩
  else if crc32c (bs.take (h.tlen - 4)) != crcField bs h.tlen then
    answerPcp s h true ⟨.badCrc, 0, crc32c (bs.take (h.tlen - 4)), x.e, [], []⟩
  else if x.qstate == .halted then answerPcp s h false ⟨.staleSequence, 0, 0, x.e, [], []⟩
  else if 16 ≤ pcpAhead x then s
  else acceptPcp (drain (sequenceCheck s .bmc x bs) .bmc) ep

/-- The BMC channel is served by the Gatehouse (R401). -/
def channelAt (s : State) (ep : Endpoint) (k : State → State) : State :=
  if s.alive && s.boot.ready && epUp s ep && s.gatehouseUp && s.latent.isNone then k s else s

/-- In P2 a message of the channel is a wake event, and it is served after the wake, in the order of arrival (R401, R410). -/
def channelAwake (s : State) (ep : Endpoint) (r : SecReq) (k : State → State) : State :=
  if !(s.alive && s.boot.ready && epUp s ep) then s
  else awakeAt s r fun s => channelAt s ep k

/-- PCP_CHANNEL (R466). -/
def execPcpChannel (ep : Endpoint) (packet : List Byte) (s : State) : Host.Outcome State Fault Refusal :=
  .next (channelAwake s ep (.pcp ep packet) fun s => pcpPacket s ep packet)

/-- A channel reset, at once or when the channel's last command ends (R466). -/
def channelResetNow (s : State) (ep : Endpoint) (newE : Nat) : State := resetChannel { s with pcpReset := some (ep, newE) }

/-- CHANNEL_RESET (R466). -/
def execChannelReset (ep : Endpoint) (newE : Nat) (s : State) : Host.Outcome State Fault Refusal :=
  .next (channelAwake s ep (.channelReset ep newE) fun s => channelResetNow s ep newE)

/-! ## Requests that waited for a wake (R410, R425) -/

/-- A request that waited runs as one that has just come. -/
def runRequest (s : State) (r : SecReq) : State :=
  match r with
  | .provision ep b x => secAt s ep 0x01 (provisionNow ep b x)
  | .field ep t x => secAt s ep 0x02 (fieldNow ep t x)
  | .retire ep t x => secAt s ep 0x03 (retireStart ep t x)
  | .authority ep t => secAt s ep 0x04 (authorityNow ep t)
  | .invasive ep t => secAt s ep 0x12 (invasiveNow ep t)
  | .pcp ep b => channelAt s ep fun s => pcpPacket s ep b
  | .channelReset ep e => channelAt s ep fun s => channelResetNow s ep e
  | .dbgAuth t x => if s.alive && s.boot.ready && s.secure.erasing.isNone then dbgAuth t x s else s

/-- The requests that came in P2 run once the device has woken. -/
def runDeferred (s : State) : State :=
  if s.p2 == .awake then s.secure.deferred.foldl runRequest { s with secure := { s.secure with deferred := [] } } else s

/-- HBM_READY (R411, R425). -/
def execHbmReady (s : State) : Host.Outcome State Fault Refusal := .next (runDeferred (hbmReady s))

/-! ## MCTP (R465) -/

/-- A message of the endpoint reaches a Lodge that serves messages (R461). -/
def mctpUp (s : State) (ep : Endpoint) : Bool := s.lodgeUp && s.boot.configReady && epUp s ep

/-- MCTP_CONTROL (R465): the message types are PLDM, SPDM, secured messages and vendor-defined PCI. -/
def execMctpControl (ep : Endpoint) (code : BitVec 8) (s : State) : Host.Outcome State Fault Refusal :=
  .next (if mctpUp s ep then
    sendMctp s ep (toLe 1 0 ++ toLe 1 code.toNat ++
      (if code = 5 then toLe 1 0 ++ toLe 1 4 ++ toLe 1 0x01 ++ toLe 1 0x05 ++ toLe 1 0x06 ++ toLe 1 0x7E
       else Config.stdBytes 0x100 code.toNat))
  else s)

/-- UNKNOWN_VENDOR_SUBTYPE (R465): no response, and one more in the device log's LOST count. -/
def execUnknownVendorSubtype (sub : BitVec 8) (s : State) : Host.Outcome State Fault Refusal :=
  .next (if s.lodgeUp && s.boot.configReady && !([1, 2, 3].contains sub.toNat) then
    { s with devLog := { s.devLog with lost := sat32 (s.devLog.lost + 1) } } else s)

/-! ## PLDM monitoring (R468, R469) -/

/-- A PLDM response: message type, PLDM type, command, completion code, data. -/
def pldmReply (s : State) (ep : Endpoint) (type cmd cc : Nat) (more : List Byte) : State :=
  sendMctp s ep (toLe 1 0x01 ++ toLe 1 type ++ toLe 1 cmd ++ toLe 1 cc ++ more)

/-- The device state of sensor 12. -/
def deviceState (s : State) : Nat := if s.fatal then 3 else if s.boot.fwFail then 2 else if s.boot.ready then 1 else 0

/-- The reading of a sensor of Table 10. -/
def sensorValue (s : State) (id : Nat) : Option Nat :=
  let x := s.sensors
  match id with
  | 1 => some x.die
  | 2 => some x.hbm0
  | 3 => some x.hbm1
  | 4 => some x.hbm2
  | 5 => some x.hbm3
  | 6 => some x.watts
  | 7 => some (s.energy / 10)
  | 8 => some x.coreMv
  | 9 => some x.coreA
  | 10 => some (100 * s.power.ceiling)
  | 11 => some (pstate s)
  | 12 => some (deviceState s)
  | 13 => some s.stores.life.code
  | 14 => some ((List.range 6).filter fun e => (s.eng e).failed).length
  | _ => none

/-- PLDM_SENSOR_READ (R468): to any endpoint, from the Lodge's own copies. -/
def execPldmSensorRead (ep : Endpoint) (id : Nat) (s : State) : Host.Outcome State Fault Refusal :=
  .next (if mctpUp s ep then match sensorValue s id with
    | some v => pldmReply s ep 2 0x11 0 (toLe 4 v)
    | none => pldmReply s ep 2 0x11 0x80 []
  else s)

/-- PLDM_DISCOVERY (R468): types 0, 2 and 5. -/
def execPldmDiscovery (ep : Endpoint) (code : BitVec 8) (s : State) : Host.Outcome State Fault Refusal :=
  .next (if mctpUp s ep then
    if code = 4 then pldmReply s ep 0 4 0 (toLe 8 0x25)
    else if 1 ≤ code.toNat && code.toNat ≤ 5 then pldmReply s ep 0 code.toNat 0 (Config.stdBytes 0x200 code.toNat)
    else pldmReply s ep 0 code.toNat 5 []
  else s)

/-- A sensor of Table 10 that the surroundings drive, with a new reading. -/
def Sensors.set (x : Sensors) (id v : Nat) : Sensors :=
  match id with
  | 1 => { x with die := v }
  | 2 => { x with hbm0 := v }
  | 3 => { x with hbm1 := v }
  | 4 => { x with hbm2 := v }
  | 5 => { x with hbm3 := v }
  | 6 => { x with watts := v }
  | 8 => { x with coreMv := v }
  | 9 => { x with coreA := v }
  | _ => x

/-- SENSOR_THRESHOLD_CROSSING (R469): a sensor event to the receiver. -/
def execSensorThresholdCrossing (sensor : Nat) (value : Nat) (s : State) : Host.Outcome State Fault Refusal :=
  .next (if s.lodgeUp && s.boot.configReady then
    sendEvent { s with sensors := s.sensors.set sensor value } (toLe 2 sensor ++ toLe 4 value) else s)

/-! ## Effecters (R461, R468, R487) -/

/-- Effecters and event settings are served to the authority, or, while none exists, over the sideband. -/
def mayEffect (s : State) (ep : Endpoint) : Bool :=
  if s.stores.authority == .none then sideband ep else fromAuthority s ep

/-- Effecters are accepted from step 3 (R461). -/
def effectersOn (s : State) : Bool := decide (3 ≤ s.boot.stage) && !s.boot.fwFail

/-- The field of PWR_CTL or GK_CTL that an effecter sets, with its legal values; none for any other. -/
def effect (s : State) (id v : Nat) : Option State :=
  let p := s.power
  match id with
  | 32 => if 150 ≤ v && v ≤ 700 then some { s with power := { p with plimit := v } } else none
  | 33 => if 70 ≤ v && v ≤ 100 then some { s with power := { p with tlimit := v } } else none
  | 34 => if v ≤ 255 then some { s with power := { p with gateDelay := v } } else none
  | 35 => if 1 ≤ v && v ≤ 65535 then some { s with power := { p with p2Delay := v } } else none
  | 36 => if v < 32 then some (setKeeperCtl s v) else none
  | _ => none

/-- An effecter's request: refused to others than R468 allows, or before step 3. -/
def effecterAt (s : State) (ep : Endpoint) (cmd : Nat) (k : State → State) : State :=
  if !mctpUp s ep then s
  else if mayEffect s ep && effectersOn s then k s
  else pldmReply s ep 2 cmd 1 []

/-- PLDM_EFFECTER_WRITE (R468): an illegal value leaves the field (R8). -/
def execPldmEffecterWrite (ep : Endpoint) (id value : Nat) (s : State) : Host.Outcome State Fault Refusal :=
  .next (effecterAt s ep 0x31 fun s => match effect s id value with
    | some t => pldmReply t ep 2 0x31 0 []
    | none => pldmReply s ep 2 0x31 (if 32 ≤ id && id ≤ 36 then 2 else 0x80) [])

/-- P2EN takes a value, and 0 in P2 is a wake event (R410). -/
def setP2en (s : State) (b : Bool) : State :=
  let t := { s with power := { s.power with p2en := b }, p2Cond := if b then s.p2Cond else none }
  if b then t else wakeFromP2 t

/-- PLDM_P2EN_EFFECTER (R468). -/
def execPldmP2enEffecter (ep : Endpoint) (value : Bool) (s : State) : Host.Outcome State Fault Refusal :=
  .next (effecterAt s ep 0x39 fun s => pldmReply (setP2en s value) ep 2 0x39 0 [])

/-- PLDM_COLD_RESET_EFFECTER (R457, R468). -/
def execPldmColdResetEffecter (ep : Endpoint) (value : Nat) (s : State) : Host.Outcome State Fault Refusal :=
  .next (effecterAt s ep 0x39 fun s =>
    if value = 1 then (let t := pldmReply s ep 2 0x39 0 []; if t.resettable then coldReset t else t)
    else pldmReply s ep 2 0x39 2 [])

/-- SET_EVENT_RECEIVER (R469). -/
def execSetEventReceiver (ep : Endpoint) (eid : BitVec 8) (s : State) : Host.Outcome State Fault Refusal :=
  .next (if !mctpUp s ep then s
    else if mayEffect s ep then pldmReply { s with eventReceiver := some eid.toNat } ep 2 0x04 0 []
    else pldmReply s ep 2 0x04 1 [])

/-! ## Firmware update (R461, R470) -/

/-- Who may update: the authority, or over the sideband while none exists or FWFAIL is set. -/
def mayUpdate (s : State) (ep : Endpoint) : Bool :=
  fromAuthority s ep || (sideband ep && (s.stores.authority == .none || s.boot.fwFail))

/-- The slot that an update writes: the one that did not boot, or slot A when none did. -/
def updateSlot (s : State) : Nat := if s.boot.fwFail then 0 else 1 - s.boot.slot

/-- Update requests are accepted from step 3, and with FWFAIL set (R461, R462). -/
def updateAt (s : State) (ep : Endpoint) (cmd : Nat) (k : State → State) : State :=
  if !mctpUp s ep then s
  else if mayUpdate s ep && (decide (3 ≤ s.boot.stage) || s.boot.fwFail) then k s
  else pldmReply s ep 5 cmd 1 []

/-- REQUEST_UPDATE (R470): a second one receives ALREADY_IN_UPDATE_MODE. -/
def execRequestUpdate (ep : Endpoint) (s : State) : Host.Outcome State Fault Refusal :=
  .next (updateAt s ep 0x10 fun s =>
    if s.update.isSome then pldmReply s ep 5 0x10 0x81 []
    else pldmReply { s with update := some ⟨updateSlot s, false⟩ } ep 5 0x10 0 [])

/-- A slot's contents. -/
def Stores.slotOf (st : Stores) (i : Nat) : List Byte := if i = 0 then st.slotA else st.slotB
def Stores.setSlot (st : Stores) (i : Nat) (b : List Byte) : Stores := if i = 0 then { st with slotA := b } else { st with slotB := b }

/-- UPDATE_COMPONENT (R470): the slot is erased, then written with an image that fits it. -/
def execUpdateComponent (ep : Endpoint) (image : List Byte) (s : State) : Host.Outcome State Fault Refusal :=
  .next (updateAt s ep 0x14 fun s => match s.update with
    | some u =>
      if image.length ≤ 33554432 then
        pldmReply { s with stores := s.stores.setSlot u.slot image, update := some { u with written := true } } ep 5 0x14 0 []
      else pldmReply { s with stores := s.stores.setSlot u.slot [], update := some { u with written := false } } ep 5 0x14 2 []
    | none => pldmReply s ep 5 0x14 0x80 [])

/-- VERIFY_COMPLETE (R470): success only when the slot passes every test of R427 against the current fuses; the update
ends. -/
def execVerifyComplete (ep : Endpoint) (s : State) : Host.Outcome State Fault Refusal :=
  .next (updateAt s ep 0x17 fun s => match s.update with
    | some u =>
      pldmReply { s with update := none } ep 5 0x17 0
        (toLe 1 (if u.written && fwValid s.stores (s.stores.slotOf u.slot) then 0 else 1))
    | none => pldmReply s ep 5 0x17 0x80 [])

end Sys2Proof.Machine
end

