-- ==== Sys2Proof/Machine/Debug.lean ====
section
/-!
DEFINITION. What a debugger does at INVASIVE level: halts, single steps, and reads and writes of memories (R436, R440, R442,
R443).
-/

namespace Sys2Proof.Machine

/-- Bytes shifted out. -/
def jtagOut (s : State) (b : List Byte) : State := { s with out := s.out ++ [.jtag b] }

/-- A memory of an engine: a gated engine wakes first, and a FAILED engine or a stopped ECLK gives no access (R364, R443). -/
def spadAt (s : State) (e : Nat) (k : State → State) : State :=
  if (s.eng e).failed then s
  else if (s.eng e).power == .running then (if s.power.hold then s else k s)
  else wakeEngine s e

/-- A read of a scratchpad: nothing is shifted out for bytes that cannot be corrected (R212). -/
def debugReadSpad (e a n : Nat) (s : State) : State :=
  match (s.eng e).spad.read a n with
  | .ok bs p t => jtagOut (applyTrace (s.modEng e fun x => { x with spad := p }) (s.holder e) e none t) bs
  | .bad _ p t => jtagOut (applyTrace (s.modEng e fun x => { x with spad := p }) (s.holder e) e none t) []

def debugWriteSpad (e a : Nat) (bs : List Byte) (s : State) : State := accessWrite e (bs.zipIdx.map fun b => (a + b.2, b.1)) false none s

/-- Glasshouse and HBM contents are reached while FCLK runs and no stack is away (R217). -/
def poolAt (s : State) (k : State → State) : State := if s.fclk == .running && s.hbmUp then k s else s

/-- The image of a stream. -/
def debugImage (s : State) (plot st : Nat) (k : Plot → Stream → State) : State :=
  match mget s.plots plot with
  | some p => match mget p.streams st with
    | some x => k p x
    | none => s
  | none => s

/-- What a handle of a plot names in HBM: a tensor, or a plan's image. -/
def debugHbm (s : State) (plot h : Nat) (k : Plot → Tensor → State) (m : Plot → Plan → State) : State :=
  match mget s.plots plot with
  | some p => match mget p.tensors h, mget p.plans h with
    | some t, _ => k p t
    | none, some q => m p q
    | none, none => s
  | none => s

def setHalt (s : State) (p : Nat) (b : Bool) : State := s.setPair p { s.pair p with halted := b }
def setEngHalt (s : State) (e : Nat) (b : Bool) : State := s.modEng e fun x => { x with halted := b }
def setMoverHalt (s : State) (b : Bool) : State := { s with secure := { s.secure with moverHalted := b } }

/-- The bytes of an image or a tensor with a range overwritten, when the range lies inside. -/
def patch (img : List Byte) (off : Nat) (bs : List Byte) : List Byte := if off + bs.length ≤ img.length then overwrite img off bs else img

/-- One debug operation. A single step advances a unit by less than any step of the model, so it changes nothing here
(log entry 46). -/
def debugDo (op : DebugOp) (s : State) : State :=
  match op with
  | .haltPair p => setHalt s p.val true
  | .stepPair _ => s
  | .releasePair p => setHalt s p.val false
  | .haltEngine e => setEngHalt s e.val true
  | .stepEngine _ => s
  | .releaseEngine e => setEngHalt s e.val false
  | .haltMover => setMoverHalt s true
  | .stepMover => s
  | .releaseMover => setMoverHalt s false
  | .readSpad e a n => spadAt s e.val (debugReadSpad e.val a n)
  | .writeSpad e a bs => spadAt s e.val (debugWriteSpad e.val a bs)
  | .readImage p st off n => poolAt s fun s => debugImage s p.val st fun _ x =>
      jtagOut s (if (imageDamaged x off n).isSome then [] else (x.img.drop off).take n)
  | .writeImage p st off bs => poolAt s fun s => debugImage s p.val st fun q x =>
      s.setPlot p.val { q with streams := mput q.streams st { x with img := patch x.img off bs } }
  | .readTensor p h off n => poolAt s fun s => debugHbm s p.val h
      (fun _ t => jtagOut s (if (t.readBad off n).isSome then [] else (t.img.drop off).take n))
      (fun _ q => jtagOut s (if q.readBad.isSome then [] else (q.img.drop off).take n))
  | .writeTensor p h off bs => poolAt s fun s => debugHbm s p.val h
      (fun _ t => if off + bs.length ≤ t.img.length then setTensor s p.val h (t.write off bs) else s)
      (fun y q => s.setPlot p.val { y with plans := mput y.plans h { q with img := patch q.img off bs } })
  | .readScalar p r => match mget s.plots p.val with
    | some q => jtagOut s (toLe 8 ((mget q.scalars r.val).getD 0))
    | none => s
  | .writeScalar p r v => s.modPlot p.val fun q => { q with scalars := setScalars q.scalars r.val [v.toNat] }

/-- The first scratchpad address that an operation names and that does not exist (R183). -/
def debugBeyond : DebugOp → Option Nat
  | .readSpad _ a n => if n = 0 then none else beyondSpad [((a : Int), n)]
  | .writeSpad _ a bs => if bs.isEmpty then none else beyondSpad [((a : Int), bs.length)]
  | _ => none

/-- DEBUG_ACCESS (R436): at any other level, and while the device does not run, the instruction does nothing (R442). -/
def execDebugAccess (op : DebugOp) (s : State) : Host.Outcome State Fault Refusal :=
  if s.secure.level == .invasive && s.alive && s.fclk == .running then
    match debugBeyond op with
    | some a => .fault (.scratchpadAddress a)
    | none => .next (debugDo op s)
  else .next s

end Sys2Proof.Machine
end

