-- ==== Sys2Proof/Machine/Dispatch.lean ====
section
/-! DEFINITION. One arm per command: the meaning it calls. -/

namespace Sys2Proof.Machine

open Sys2Proof

def exec (i : Instr) (s : State) : Host.Outcome State Fault Refusal :=
  match i with
  | .sqTailDoorbell a0 a1 a2 a3 => Sys2Proof.Machine.execSqTailDoorbell a0 a1 a2 a3 s
  | .cqHeadDoorbell a0 a1 a2 a3 => Sys2Proof.Machine.execCqHeadDoorbell a0 a1 a2 a3 s
  | .qAdminEnable a0 a1 => Sys2Proof.Machine.execQAdminEnable a0 a1 s
  | .qAdminDisable a0 a1 => Sys2Proof.Machine.execQAdminDisable a0 a1 s
  | .adminDeletionDone a0 => Sys2Proof.Machine.execAdminDeletionDone a0 s
  | .qAdminResume a0 a1 => Sys2Proof.Machine.execQAdminResume a0 a1 s
  | .errLogPop a0 a1 => Sys2Proof.Machine.execErrLogPop a0 a1 s
  | .errDevLogPop a0 a1 => Sys2Proof.Machine.execErrDevLogPop a0 a1 s
  | .ldgResetCold a0 a1 => Sys2Proof.Machine.execLdgResetCold a0 a1 s
  | .pwrWake a0 a1 => Sys2Proof.Machine.execPwrWake a0 a1 s
  | .p2enClear a0 a1 => Sys2Proof.Machine.execP2enClear a0 a1 s
  | .pwrEclkTgtWrite a0 a1 => Sys2Proof.Machine.execPwrEclkTgtWrite a0 a1 s
  | .gkCtlWrite a0 a1 => Sys2Proof.Machine.execGkCtlWrite a0 a1 s
  | .newNonce a0 a1 => Sys2Proof.Machine.execNewNonce a0 a1 s
  | .obsEnter a0 a1 => Sys2Proof.Machine.execObsEnter a0 a1 s
  | .dbgClose a0 a1 => Sys2Proof.Machine.execDbgClose a0 a1 s
  | .msixUnmask a0 a1 => Sys2Proof.Machine.execMsixUnmask a0 a1 s
  | .registerWrite a0 => Sys2Proof.Machine.execRegisterWrite a0 s
  | .packetFetch a0 a1 a2 => Sys2Proof.Machine.execPacketFetch a0 a1 a2 s
  | .okDuplicate a0 a1 => Sys2Proof.Machine.execOkDuplicate a0 a1 s
  | .packetAccept a0 a1 => Sys2Proof.Machine.execPacketAccept a0 a1 s
  | .irqCoalesceTimeout a0 a1 => Sys2Proof.Machine.execIrqCoalesceTimeout a0 a1 s
  | .nop a0 => Sys2Proof.Machine.execNop a0 s
  | .fence a0 => Sys2Proof.Machine.execFence a0 s
  | .abort a0 => Sys2Proof.Machine.execAbort a0 s
  | .query a0 => Sys2Proof.Machine.execQuery a0 s
  | .tensorPut a0 => Sys2Proof.Machine.execTensorPut a0 s
  | .tensorGet a0 => Sys2Proof.Machine.execTensorGet a0 s
  | .tensorFree a0 => Sys2Proof.Machine.execTensorFree a0 s
  | .tensorMove a0 => Sys2Proof.Machine.execTensorMove a0 s
  | .tableWrite a0 => Sys2Proof.Machine.execTableWrite a0 s
  | .descInvalidate a0 => Sys2Proof.Machine.execDescInvalidate a0 s
  | .planLoad a0 => Sys2Proof.Machine.execPlanLoad a0 s
  | .planUnload a0 => Sys2Proof.Machine.execPlanUnload a0 s
  | .planRun a0 => Sys2Proof.Machine.execPlanRun a0 s
  | .streamOpen a0 => Sys2Proof.Machine.execStreamOpen a0 s
  | .streamFeed a0 => Sys2Proof.Machine.execStreamFeed a0 s
  | .streamFlush a0 => Sys2Proof.Machine.execStreamFlush a0 s
  | .streamPause a0 => Sys2Proof.Machine.execStreamPause a0 s
  | .streamResume a0 => Sys2Proof.Machine.execStreamResume a0 s
  | .streamClose a0 => Sys2Proof.Machine.execStreamClose a0 s
  | .streamExport a0 => Sys2Proof.Machine.execStreamExport a0 s
  | .streamImport a0 => Sys2Proof.Machine.execStreamImport a0 s
  | .moveCommit a0 a1 a2 => Sys2Proof.Machine.execMoveCommit a0 a1 a2 s
  | .opMatmul a0 => Sys2Proof.Machine.execOpMatmul a0 s
  | .opVector a0 => Sys2Proof.Machine.execOpVector a0 s
  | .opScan a0 => Sys2Proof.Machine.execOpScan a0 s
  | .opSelect a0 => Sys2Proof.Machine.execOpSelect a0 s
  | .opGather a0 => Sys2Proof.Machine.execOpGather a0 s
  | .opConvert a0 => Sys2Proof.Machine.execOpConvert a0 s
  | .opRmsnorm a0 => Sys2Proof.Machine.execOpRmsnorm a0 s
  | .scalarSet a0 => Sys2Proof.Machine.execScalarSet a0 s
  | .queueCreate a0 => Sys2Proof.Machine.execQueueCreate a0 s
  | .queueDelete a0 => Sys2Proof.Machine.execQueueDelete a0 s
  | .queueResume a0 => Sys2Proof.Machine.execQueueResume a0 s
  | .keySet a0 => Sys2Proof.Machine.execKeySet a0 s
  | .plotConfig a0 => Sys2Proof.Machine.execPlotConfig a0 s
  | .plotRelease a0 => Sys2Proof.Machine.execPlotRelease a0 s
  | .pageZeroingDone a0 => Sys2Proof.Machine.execPageZeroingDone a0 s
  | .wfuPrefetchIssue a0 => Sys2Proof.Machine.execWfuPrefetchIssue a0 s
  | .wfuEntryComplete a0 a1 => Sys2Proof.Machine.execWfuEntryComplete a0 a1 s
  | .maPass a0 a1 => Sys2Proof.Machine.execMaPass a0 a1 s
  | .tagAcquire a0 a1 a2 a3 => Sys2Proof.Machine.execTagAcquire a0 a1 a2 a3 s
  | .descriptorBarrier a0 a1 => Sys2Proof.Machine.execDescriptorBarrier a0 a1 s
  | .scratchpadAccess a0 a1 a2 a3 => Sys2Proof.Machine.execScratchpadAccess a0 a1 a2 a3 s
  | .slotTimeout a0 => Sys2Proof.Machine.execSlotTimeout a0 s
  | .scrubAccess a0 a1 a2 => Sys2Proof.Machine.execScrubAccess a0 a1 a2 s
  | .spPatrolSweep a0 => Sys2Proof.Machine.execSpPatrolSweep a0 s
  | .ghPatrolSweep a0 => Sys2Proof.Machine.execGhPatrolSweep a0 s
  | .hbmPatrolSweep a0 a1 => Sys2Proof.Machine.execHbmPatrolSweep a0 a1 s
  | .lodgePatrolSweep => Sys2Proof.Machine.execLodgePatrolSweep s
  | .opportunisticSlice a0 => Sys2Proof.Machine.execOpportunisticSlice a0 s
  | .forcedSliceDue a0 => Sys2Proof.Machine.execForcedSliceDue a0 s
  | .forcedSliceStart a0 => Sys2Proof.Machine.execForcedSliceStart a0 s
  | .sliceComplete a0 a1 => Sys2Proof.Machine.execSliceComplete a0 a1 s
  | .hbmCalibration a0 a1 a2 => Sys2Proof.Machine.execHbmCalibration a0 a1 a2 s
  | .calibrationWindowTimeout a0 a1 a2 => Sys2Proof.Machine.execCalibrationWindowTimeout a0 a1 a2 s
  | .fullStateCompare a0 a1 => Sys2Proof.Machine.execFullStateCompare a0 a1 s
  | .latentRestartTimeout => Sys2Proof.Machine.execLatentRestartTimeout s
  | .datapathFault a0 a1 a2 a3 a4 a5 => Sys2Proof.Machine.execDatapathFault a0 a1 a2 a3 a4 a5 s
  | .routeLost a0 a1 => Sys2Proof.Machine.execRouteLost a0 a1 s
  | .ghLockstep a0 => Sys2Proof.Machine.execGhLockstep a0 s
  | .gatehouseRestartDone a0 => Sys2Proof.Machine.execGatehouseRestartDone a0 s
  | .clock a0 => Sys2Proof.Machine.execClock a0 s
  | .hbmRelockDone a0 a1 => Sys2Proof.Machine.execHbmRelockDone a0 a1 s
  | .rail a0 => Sys2Proof.Machine.execRail a0 s
  | .engineGate a0 => Sys2Proof.Machine.execEngineGate a0 s
  | .engineWakeDone a0 => Sys2Proof.Machine.execEngineWakeDone a0 s
  | .eclkRelockDone a0 => Sys2Proof.Machine.execEclkRelockDone a0 s
  | .p2Entry => Sys2Proof.Machine.execP2Entry s
  | .hbmReady => Sys2Proof.Machine.execHbmReady s
  | .limitControlPeriod a0 a1 => Sys2Proof.Machine.execLimitControlPeriod a0 a1 s
  | .overcurrentAlarm => Sys2Proof.Machine.execOvercurrentAlarm s
  | .thermalHold a0 => Sys2Proof.Machine.execThermalHold a0 s
  | .thermalRelease a0 => Sys2Proof.Machine.execThermalRelease a0 s
  | .thermalTrip a0 => Sys2Proof.Machine.execThermalTrip a0 s
  | .functionLevelReset a0 => Sys2Proof.Machine.execFunctionLevelReset a0 s
  | .portReset a0 a1 => Sys2Proof.Machine.execPortReset a0 a1 s
  | .vfRemoval a0 a1 a2 => Sys2Proof.Machine.execVfRemoval a0 a1 a2 s
  | .d3hotEntry a0 a1 => Sys2Proof.Machine.execD3hotEntry a0 a1 s
  | .d0Return a0 => Sys2Proof.Machine.execD0Return a0 s
  | .aspmL1Request a0 => Sys2Proof.Machine.execAspmL1Request a0 s
  | .powerOnReset a0 a1 a2 => Sys2Proof.Machine.execPowerOnReset a0 a1 a2 s
  | .coldReset => Sys2Proof.Machine.execColdReset s
  | .configReady => Sys2Proof.Machine.execConfigReady s
  | .ready a0 => Sys2Proof.Machine.execReady a0 s
  | .powerGoodTimeout a0 => Sys2Proof.Machine.execPowerGoodTimeout a0 s
  | .pwrDnN => Sys2Proof.Machine.execPwrDnN s
  | .telemetryRefresh => Sys2Proof.Machine.execTelemetryRefresh s
  | .pcpChannel a0 a1 => Sys2Proof.Machine.execPcpChannel a0 a1 s
  | .channelReset a0 a1 => Sys2Proof.Machine.execChannelReset a0 a1 s
  | .mctpControl a0 a1 => Sys2Proof.Machine.execMctpControl a0 a1 s
  | .provision a0 a1 => Sys2Proof.Machine.execProvision a0 a1 s
  | .field a0 a1 => Sys2Proof.Machine.execField a0 a1 s
  | .retire a0 a1 => Sys2Proof.Machine.execRetire a0 a1 s
  | .authority a0 a1 => Sys2Proof.Machine.execAuthority a0 a1 s
  | .nonce a0 => Sys2Proof.Machine.execNonce a0 s
  | .observe a0 a1 => Sys2Proof.Machine.execObserve a0 a1 s
  | .invasive a0 a1 => Sys2Proof.Machine.execInvasive a0 a1 s
  | .close a0 => Sys2Proof.Machine.execClose a0 s
  | .dbgNonce => Sys2Proof.Machine.execDbgNonce s
  | .dbgAuth a0 => Sys2Proof.Machine.execDbgAuth a0 s
  | .testLogicReset => Sys2Proof.Machine.execTestLogicReset s
  | .nonceExpiry => Sys2Proof.Machine.execNonceExpiry s
  | .tenantEraseDone => Sys2Proof.Machine.execTenantEraseDone s
  | .nvsReservationWrite a0 => Sys2Proof.Machine.execNvsReservationWrite a0 s
  | .getVersion a0 => Sys2Proof.Machine.execGetVersion a0 s
  | .getCapabilities a0 => Sys2Proof.Machine.execGetCapabilities a0 s
  | .negotiateAlgorithms a0 => Sys2Proof.Machine.execNegotiateAlgorithms a0 s
  | .getDigests a0 => Sys2Proof.Machine.execGetDigests a0 s
  | .getCertificate a0 a1 a2 a3 => Sys2Proof.Machine.execGetCertificate a0 a1 a2 a3 s
  | .challenge a0 a1 a2 => Sys2Proof.Machine.execChallenge a0 a1 a2 s
  | .getMeasurements a0 a1 a2 => Sys2Proof.Machine.execGetMeasurements a0 a1 a2 s
  | .keyExchange a0 a1 a2 => Sys2Proof.Machine.execKeyExchange a0 a1 a2 s
  | .finish a0 a1 a2 a3 a4 => Sys2Proof.Machine.execFinish a0 a1 a2 a3 a4 s
  | .heartbeat a0 a1 => Sys2Proof.Machine.execHeartbeat a0 a1 s
  | .heartbeatTimeout a0 a1 => Sys2Proof.Machine.execHeartbeatTimeout a0 a1 s
  | .keyUpdate a0 a1 a2 a3 => Sys2Proof.Machine.execKeyUpdate a0 a1 a2 a3 s
  | .endSession a0 a1 => Sys2Proof.Machine.execEndSession a0 a1 s
  | .spdmUnsupportedRequest a0 a1 => Sys2Proof.Machine.execSpdmUnsupportedRequest a0 a1 s
  | .pldmSensorRead a0 a1 => Sys2Proof.Machine.execPldmSensorRead a0 a1 s
  | .pldmEffecterWrite a0 a1 a2 => Sys2Proof.Machine.execPldmEffecterWrite a0 a1 a2 s
  | .pldmP2enEffecter a0 a1 => Sys2Proof.Machine.execPldmP2enEffecter a0 a1 s
  | .pldmColdResetEffecter a0 a1 => Sys2Proof.Machine.execPldmColdResetEffecter a0 a1 s
  | .setEventReceiver a0 a1 => Sys2Proof.Machine.execSetEventReceiver a0 a1 s
  | .pldmDiscovery a0 a1 => Sys2Proof.Machine.execPldmDiscovery a0 a1 s
  | .requestUpdate a0 => Sys2Proof.Machine.execRequestUpdate a0 s
  | .updateComponent a0 a1 => Sys2Proof.Machine.execUpdateComponent a0 a1 s
  | .verifyComplete a0 => Sys2Proof.Machine.execVerifyComplete a0 s
  | .fclkRelockDone => Sys2Proof.Machine.execFclkRelockDone s
  | .fclkStart => Sys2Proof.Machine.execFclkStart s
  | .hbmTrainingDone a0 a1 => Sys2Proof.Machine.execHbmTrainingDone a0 a1 s
  | .powerGood a0 a1 => Sys2Proof.Machine.execPowerGood a0 a1 s
  | .linkUp a0 => Sys2Proof.Machine.execLinkUp a0 s
  | .flrComplete a0 => Sys2Proof.Machine.execFlrComplete a0 s
  | .completionTimeout a0 a1 a2 => Sys2Proof.Machine.execCompletionTimeout a0 a1 a2 s
  | .unsupportedRequest a0 => Sys2Proof.Machine.execUnsupportedRequest a0 s
  | .configurationWrite a0 a1 a2 => Sys2Proof.Machine.execConfigurationWrite a0 a1 a2 s
  | .linkReturnsToL0 a0 => Sys2Proof.Machine.execLinkReturnsToL0 a0 s
  | .mainSupplyRemoval => Sys2Proof.Machine.execMainSupplyRemoval s
  | .supplyReturn => Sys2Proof.Machine.execSupplyReturn s
  | .pwrDnNDeassert => Sys2Proof.Machine.execPwrDnNDeassert s
  | .overcurrentAlarmClear => Sys2Proof.Machine.execOvercurrentAlarmClear s
  | .sensorThresholdCrossing a0 a1 => Sys2Proof.Machine.execSensorThresholdCrossing a0 a1 s
  | .lodgeLogicMismatch => Sys2Proof.Machine.execLodgeLogicMismatch s
  | .debugAccess a0 => Sys2Proof.Machine.execDebugAccess a0 s
  | .extest a0 => Sys2Proof.Machine.execExtest a0 s
  | .unknownVendorSubtype a0 => Sys2Proof.Machine.execUnknownVendorSubtype a0 s

end Sys2Proof.Machine
end

