-- ==== Sys2Proof/Machine/CfgSpace.lean ====
section
/-!
DEFINITION. What a memory read of a BAR returns (R450), and what a configuration-space read returns: identity, the
capabilities of Table 2 of R448, and the fields that rules give
(R445 to R449, R456). Reading changes nothing (R6), so reads are functions of the state and no commands.
-/

namespace Sys2Proof.Machine

/-- One capability: its offset, the ID that the base specification gives it (PRESUMED, log entry 99), and whether a VF has it. -/
structure Cap where
  off : Nat
  id : Nat
  vf : Bool
  deriving DecidableEq, Repr

/-- The capabilities of Table 2 of R448 below offset 0x100: Power Management, PCI Express and MSI-X. -/
def caps : List Cap := [⟨0x40, 0x01, true⟩, ⟨0x50, 0x10, true⟩, ⟨0x90, 0x11, true⟩]

/-- The extended capabilities of Table 2 of R448, in its order. -/
def extCaps : List Cap :=
  [⟨0x100, 0x01, true⟩, ⟨0x148, 0x03, false⟩, ⟨0x158, 0x0E, true⟩, ⟨0x160, 0x10, false⟩, ⟨0x1A0, 0x19, false⟩,
   ⟨0x1D0, 0x25, false⟩, ⟨0x1E0, 0x26, false⟩, ⟨0x210, 0x2A, false⟩, ⟨0x240, 0x31, false⟩, ⟨0x260, 0x27, false⟩,
   ⟨0x2B0, 0x1E, false⟩, ⟨0x2C0, 0x18, false⟩, ⟨0x2D0, 0x2E, true⟩, ⟨0x300, 0x32, false⟩]

/-- The capabilities of a list that a function has. -/
def capsOf (l : List Cap) (f : FuncId) : List Cap := l.filter fun c => f.fn == 0 || c.vf

/-- The offset of the capability that follows one at `off`, or 0 at the end of the list. -/
def nextCap (l : List Cap) (off : Nat) : Nat := ((l.find? fun c => decide (off < c.off)).map (·.off)).getD 0

/-- A dword of which the manual gives the bits of `mask`. -/
structure Known where
  mask : Nat
  value : Nat
  deriving DecidableEq, Repr

/-- Every bit of a dword. -/
def dwordMask : Nat := 2 ^ 32 - 1

/-- The dword at the start of a capability of the first list, with further bits of it. -/
def capHead (f : FuncId) (c : Cap) (more : Known) : Known :=
  ⟨0xFFFF + more.mask, c.id + 256 * nextCap (capsOf caps f) c.off + more.value⟩

/-- The further bits of a capability's first dword: no D1, D2, PME or immediate readiness (R446, R456); an Endpoint; the MSI-X
table size, Function Mask and Enable (R449). -/
def headMore (s : State) (f : FuncId) (off : Nat) : Known :=
  let c := (s.fn f).cfg
  match off with
  | 0x40 => ⟨0xFE100000, 0⟩
  | 0x50 => ⟨0x00F00000, 0⟩
  | _ => ⟨0xC7FF0000, 65536 * (vecLimit f - 1) + flag c.msixMask 30 + flag c.msixEnable 31⟩

/-- The header of an extended capability; its version is not given. -/
def extHead (f : FuncId) (c : Cap) : Known := ⟨0xFFF0FFFF, c.id + 2 ^ 20 * nextCap (capsOf extCaps f) c.off⟩

/-- The SR-IOV fields of a PF (R445, R447, R449). -/
def sriovField (s : State) (f : FuncId) (off : Nat) : Option Known :=
  let c := (s.fn f).cfg
  match off with
  | 0x168 => some ⟨1, flag c.vfEnable 0⟩
  | 0x16C => some ⟨dwordMask, 63 + 65536 * 63⟩
  | 0x170 => some ⟨0xFFFF, c.numVfs⟩
  | 0x174 => some ⟨dwordMask, 1 + 65536⟩
  | 0x178 => some ⟨0xFFFF0000, 65536 * 0x0601⟩
  | 0x17C => some ⟨dwordMask, 0x1F⟩
  | 0x184 => some ⟨0xFFFF, 4⟩
  | 0x18C => some ⟨0xFFFF, 4⟩
  | 0x194 => some ⟨0xFFFF, 4⟩
  | _ => none

/-- The header and capability fields that rules give, but for capability headers. -/
def cfgField (s : State) (f : FuncId) (off : Nat) : Option Known :=
  let c := (s.fn f).cfg
  let pf := f.fn == 0
  match off with
  | 0x00 => some (if pf then ⟨dwordMask, 0x1F5C + 65536 * deviceId f⟩ else ⟨0xFFFF, 0x1F5C⟩)
  | 0x04 => some ⟨4 + 2 ^ 20 + flag pf 1, flag (pf && c.memorySpace) 1 + flag c.busMaster 2 + 2 ^ 20⟩
  | 0x08 => some ⟨0xFFFFFF00, 0x12000000⟩
  | 0x10 => some ⟨0xFFFF, if pf then 4 else 0⟩
  | 0x18 => some ⟨0xFFFF, if pf then 4 else 0⟩
  | 0x20 => some ⟨0xFFFF, if pf then 4 else 0⟩
  | 0x2C => some ⟨0xFFFF, 0x1F5C⟩
  | 0x34 => some ⟨0xFF, 0x40⟩
  | 0x44 => some ⟨3, if c.d3hot then 3 else 0⟩
  | 0x54 => some ⟨0x10000007, 0x10000002⟩
  | 0x58 => some ⟨0xF0F0, flag c.relaxed 4 + 32 * c.maxPayload + 4096 * c.maxRead⟩
  | 0x5C => some ⟨0xC00, 0x800⟩
  | 0x60 => some ⟨3, if c.aspmL1 then 2 else 0⟩
  | 0x74 => some ⟨0x10, 0⟩
  | 0x78 => some ⟨0xF, c.timeoutRange⟩
  | 0x94 => some ⟨dwordMask, 4⟩
  | 0x98 => some ⟨dwordMask, 0x8004⟩
  | 0x14C => if pf then some ⟨dwordMask, s.stores.serial % 2 ^ 32⟩ else none
  | 0x150 => if pf then some ⟨dwordMask, s.stores.serial / 2 ^ 32 % 2 ^ 32⟩ else none
  | _ => if pf then sriovField s f off else none

/-- What the manual gives of the dword at an aligned offset: none of it where no rule says more than the base specification. -/
def cfgKnown (s : State) (f : FuncId) (off : Nat) : Known :=
  match (capsOf caps f).find? (·.off == off), (capsOf extCaps f).find? (·.off == off) with
  | some c, _ => capHead f c (headMore s f off)
  | none, some c => extHead f c
  | none, none => (cfgField s f off).getD ⟨0, 0⟩

/-- What a configuration read of an aligned dword returns (R447, R448): bits that the manual does not give are free. -/
def cfgRead (s : State) (f : FuncId) (off : Nat) : Nat :=
  let k := cfgKnown s f off
  merge (Config.cfgBits (fidNat f) off % 2 ^ 32) k.mask k.value

/-- A walk of a capability list from an offset: the offsets it meets (R448). -/
def capWalk (next : Nat → Nat) : Nat → Nat → List Nat
  | 0, _ => []
  | n + 1, off => if off = 0 then [] else off :: capWalk next n (next off)

/-- The offset of the next capability in a header's dword, and in an extended capability's. -/
def capPtr (v : Nat) : Nat := bitsOf v 15 8
def extPtr (v : Nat) : Nat := bitsOf v 31 20

/-- The latency tolerance that a port reports under LTR, in microseconds (R456). -/
def ltrTolerance (s : State) : Nat := if s.p2 == .awake then 40 else 1000

/-! ## Memory reads (R450) -/

/-- An aligned 8-byte word of a BAR, at one instant. -/
def barWord (s : State) (f : FuncId) : Bar → Nat → Nat
  | .bar0, off => bar0Read s f off
  | .bar2, off => bar2Read s f off
  | .bar4, off => bar4Read s f off

/-- What a memory read returns (R450): none is a completion with Unsupported Request. Every word is taken here at the instant of
`s`; a device may take each at its own (log entry 100). -/
def mmioRead (s : State) (f : FuncId) (b : Bar) (off len : Nat) : Option (List Byte) :=
  if mmioServed s f && decide (1 ≤ len) && decide (len ≤ 64) && off / 64 == (off + len - 1) / 64 then
    some ((List.range len).map fun i => BitVec.ofNat 8 (barWord s f b ((off + i) / 8 * 8) / 256 ^ ((off + i) % 8)))
  else none

end Sys2Proof.Machine
end

