-- ==== Sys2Proof/WellFormed.lean ====
section
/-!
DEFINITION. Which operands a command can have: the ranges that the spec gives them. The machine is total on every operand;
these checks say which commands can occur.
-/

namespace Sys2Proof

/-- At most 2,048 queues exist (R251). -/
def queueOk (q : Nat) : Bool := decide (q < 2048)

/-- A command is named by a queue and a 64-bit sequence number (R266). -/
def CmdRef.ok (c : CmdRef) : Bool :=
  decide (c.seq < 2 ^ 64) && match c.src with
    | .ring _ q => queueOk q
    | .bmc => true

/-- A write within one 64 KiB BAR, of at most 8 bytes, with no data beyond its size (R449, R450). -/
def writeOk (off size : Nat) (data : Word) : Bool :=
  decide (1 ≤ size) && decide (size ≤ 8) && decide (off + size ≤ 65536) && decide (data.toNat < 2 ^ (8 * size))

/-- A packet read returns whole 16-byte granules of one ring, at most 4 MiB; a header is 32 bytes (R259, R261). -/
def RingRead.ok : RingRead → Bool
  | .bytes bs => bs.length % 16 == 0 && decide (bs.length ≤ 0x400000)
  | .failed (some h) => h.length == 32
  | .failed none => true
  | .window _ => true

/-- Granules of an array: 16 bytes each, up to a number of them (R211). -/
def upsetOk (limit : Nat) (l : List (Nat × GState)) : Bool := l.all fun g => decide (g.1 < limit)

/-- The granules of a 20 MiB scratchpad (R183, R211). -/
def spadGranules : Nat := 1310720

/-- A tag action names slots of the scratchpad: 5,120 of them (R192, R195). -/
def TagAct.ok (a : TagAct) : Bool := decide (a.first + a.count ≤ 5120)

/-- B of a pass: a 48-byte descriptor, or a weight by its 64-bit handle (R92). -/
def PassB.ok : PassB → Bool
  | .spad d => d.length == 48
  | .staged h => decide (h < 2 ^ 64)

/-- A pass: the descriptors, 48 bytes each, a 16-byte gate control block, at most 64 accumulator entries (R87, R127, R132). -/
def PassDesc.ok (p : PassDesc) : Bool :=
  p.a.length == 48 && p.b.ok && p.c.length == 48 && (match p.bias with
    | some d => d.length == 48
    | none => true) && decide (p.mcount ≤ 64) && decide (p.kfirst ≤ p.klast) && (match p.fin with
    | .drain g _ => g.length == 16
    | .spill _ => true) && p.full.all fun r => decide (r.1 + r.2 ≤ 5120)

/-- A token is 256 bytes (R438); OBSERVE may come without one (R437). -/
def tokenOk (t : List Byte) : Bool := t.length == 256

/-- A session is named by 32 bits and keyed with an AES-256 key and a 96-bit IV (R430, R433). -/
def sessionOk (id : Nat) (key iv : List Byte) : Bool := decide (id < 2 ^ 32) && key.length == 32 && iv.length == 12

/-- The six engines that bring-up may find FAILED, each once (R460). -/
def failedOk (l : List (Fin 6)) : Bool := l.eraseDups == l

/-- The operands of a command lie in the ranges that the spec gives them. -/
def WellFormed : Instr → Bool
  | .sqTailDoorbell _ off size data => writeOk off size data
  | .cqHeadDoorbell _ off size data => writeOk off size data
  | .registerWrite w => writeOk w.off w.size w.data
  | .msixUnmask f vec => decide (vec < if f.fn = 0 then 256 else 16)
  | .packetFetch _ q rd => queueOk q && rd.ok
  | .okDuplicate _ q => queueOk q
  | .packetAccept _ q => queueOk q
  | .irqCoalesceTimeout _ q => queueOk q
  | .completionTimeout _ q h => queueOk q && RingRead.ok (.failed h)
  | .nop c => c.ok
  | .fence c => c.ok
  | .abort c => c.ok
  | .query c => c.ok
  | .tensorPut c => c.ok
  | .tensorGet c => c.ok
  | .tensorFree c => c.ok
  | .tensorMove c => c.ok
  | .tableWrite c => c.ok
  | .descInvalidate c => c.ok
  | .planLoad c => c.ok
  | .planUnload c => c.ok
  | .planRun c => c.ok
  | .streamOpen c => c.ok
  | .streamFeed c => c.ok
  | .streamFlush c => c.ok
  | .streamPause c => c.ok
  | .streamResume c => c.ok
  | .streamClose c => c.ok
  | .streamExport c => c.ok
  | .streamImport c => c.ok
  | .moveCommit _ st _ => decide (st < 4096)
  | .opMatmul c => c.ok
  | .opVector c => c.ok
  | .opScan c => c.ok
  | .opSelect c => c.ok
  | .opGather c => c.ok
  | .opConvert c => c.ok
  | .opRmsnorm c => c.ok
  | .scalarSet c => c.ok
  | .queueCreate c => c.ok
  | .queueDelete c => c.ok
  | .queueResume c => c.ok
  | .keySet c => c.ok
  | .plotConfig c => c.ok
  | .plotRelease c => c.ok
  | .maPass _ p => p.ok && p.cmd.ok
  | .tagAcquire _ _ op acts => acts.all TagAct.ok && op.cmd.ok
  | .descriptorBarrier _ b => b.cmd.ok
  | .slotTimeout p => p.cmd.ok
  | .scratchpadAccess _ _ c upset => (match c with
    | some r => r.ok
    | none => true) && upsetOk spadGranules upset
  | .scrubAccess _ _ upset => upsetOk spadGranules upset
  | .datapathFault _ _ _ _ _ c => match c with
    | some r => r.ok
    | none => true
  | .gatehouseRestartDone l => l.eraseDups == l
  | .vfRemoval _ n _ => decide (n ≤ 63)
  | .ready r => failedOk r.failed
  | .pcpChannel _ p => decide (p.length ≤ 65536)
  | .channelReset _ e => decide (e < 2 ^ 64)
  | .field _ m => tokenOk m.bytes
  | .retire _ m => tokenOk m.bytes
  | .authority _ t => tokenOk t
  | .observe _ t => t.isEmpty || tokenOk t
  | .invasive _ t => tokenOk t
  | .dbgAuth m => tokenOk m.bytes
  | .challenge _ slot n => decide (slot < 8) && n.length == 32
  | .getMeasurements _ i n => decide (i < 256) && n.length == 32
  | .getCertificate _ slot off len => decide (slot < 8) && decide (off < 65536) && decide (len < 65536)
  | .keyExchange _ _ hb => decide (hb < 256)
  | .finish _ id _ key iv => sessionOk id key iv
  | .keyUpdate _ id key iv => sessionOk id key iv
  | .configurationWrite _ _ v => decide (v < 2 ^ 32)
  | .wfuEntryComplete _ i => decide (i < 65536)
  | .forcedSliceDue _ | .forcedSliceStart _ | .opportunisticSlice _ | .sliceComplete _ _ => true
  | .qAdminEnable _ _ | .qAdminDisable _ _ | .adminDeletionDone _ | .qAdminResume _ _ | .errLogPop _ _
  | .errDevLogPop _ _ | .ldgResetCold _ _ | .pwrWake _ _ | .p2enClear _ _ | .pwrEclkTgtWrite _ _ | .gkCtlWrite _ _
  | .newNonce _ _ | .obsEnter _ _ | .dbgClose _ _ | .pageZeroingDone _ | .wfuPrefetchIssue _ | .spPatrolSweep _ | .ghPatrolSweep _ | .hbmPatrolSweep _ _ | .lodgePatrolSweep
  | .hbmCalibration _ _ _ | .calibrationWindowTimeout _ _ _ | .fullStateCompare _ _ | .latentRestartTimeout
  | .routeLost _ _ | .ghLockstep _ | .clock _ | .hbmRelockDone _ _ | .rail _ | .engineGate _ | .engineWakeDone _
  | .eclkRelockDone _ | .p2Entry | .hbmReady | .limitControlPeriod _ _ | .overcurrentAlarm | .thermalHold _
  | .thermalRelease _ | .thermalTrip _ | .functionLevelReset _ | .portReset _ _ | .d3hotEntry _ _ | .d0Return _
  | .aspmL1Request _ | .powerOnReset _ _ _ | .coldReset | .configReady | .powerGoodTimeout _ | .pwrDnN
  | .telemetryRefresh | .mctpControl _ _ | .provision _ _ | .nonce _ | .close _ | .dbgNonce | .testLogicReset
  | .nonceExpiry | .tenantEraseDone | .nvsReservationWrite _ | .getVersion _ | .getCapabilities _
  | .negotiateAlgorithms _ | .getDigests _ | .heartbeat _ _ | .heartbeatTimeout _ _ | .endSession _ _
  | .spdmUnsupportedRequest _ _ | .pldmSensorRead _ _ | .pldmEffecterWrite _ _ _ | .pldmP2enEffecter _ _
  | .pldmColdResetEffecter _ _ | .setEventReceiver _ _ | .pldmDiscovery _ _ | .requestUpdate _ | .updateComponent _ _
  | .verifyComplete _ | .fclkRelockDone | .fclkStart | .hbmTrainingDone _ _ | .powerGood _ _ | .linkUp _ | .flrComplete _
  | .unsupportedRequest _ | .linkReturnsToL0 _ | .mainSupplyRemoval | .supplyReturn | .pwrDnNDeassert
  | .overcurrentAlarmClear | .sensorThresholdCrossing _ _ | .lodgeLogicMismatch | .debugAccess _ | .extest _
  | .unknownVendorSubtype _ => true

end Sys2Proof
end

