-- ==== Sys2Proof/Safety.lean ====
section
/-!
DEFINITION. What a safe run keeps: the export counter within its reservation, fuses and the lifecycle only forward, and
scratchpad bytes in their canonical form.
-/

namespace Sys2Proof.Machine

/-- The outcome is a next state. -/
def goesOn (o : Host.Outcome State Fault Refusal) : Bool :=
  match o with
  | .next _ => true
  | .fault _ => false
  | .refused _ => false

/-- The place of a lifecycle state in the order BLANK, PROVISIONED, FIELD, RETIRED (Table 2 of R423). -/
def Life.rank : Life → Nat
  | .blank => 0 | .provisioned => 1 | .field => 2 | .retired => 3

/-- The fuses of the key hashes, the UDS and the serial number never change; the lifecycle, MINSVN, IDOFF and the export
counter's reservation only move forward (R422 to R425, R427, R435). -/
structure Stores.Forward (a b : Stores) : Prop where
  fvk : b.fvkHash = a.fvkHash
  tdk : b.tdkHash = a.tdkHash
  uds : b.uds = a.uds
  serial : b.serial = a.serial
  life : a.life.rank ≤ b.life.rank
  minSvn : a.minSvn ≤ b.minSvn
  idOff : a.idOff = true → b.idOff = true
  limit : a.limit ≤ b.limit

/-- The commands that may write the fuses and the NVS: the lifecycle operations and the end of an erase, READY's burn of MINSVN,
a reservation write, its completion at power-down or its loss with the supply, a firmware update, and the end of a wake, which
runs the lifecycle operations that waited for it (R422 to R427, R435, R461, R463). -/
def writesStores (c : Instr) : Bool :=
  match c with
  | .provision _ _ | .field _ _ | .authority _ _ | .tenantEraseDone | .ready _ | .nvsReservationWrite _ | .pwrDnN
  | .mainSupplyRemoval | .updateComponent _ _ | .hbmReady => true
  | _ => false

/-- The export counter never passes the reservation that the NVS holds (R435). -/
def State.reserved (s : State) : Prop := s.expCtr ≤ s.stores.limit

/-- Every scratchpad's bytes are in the canonical form of a sparse memory. -/
def State.spadsWf (s : State) : Bool := s.engines.all fun e => e.2.spad.mem.wf

/-- A command that a row names is accepted whole, has the row's opcode, and is at its turn: the Gatehouse runs, no FENCE
stands before it, and every earlier command of an ORDERED queue has ended (R33, R271, R288). -/
def Turn (s : State) (c : CmdRef) (op : Nat) (d : Cmd) : Prop :=
  s.cmd c = some d ∧ d.opcode = op ∧ mayBegin s d = true ∧ inOrder s d = true

/-- A command's plot, by number and as it stands (R284). -/
def InPlot (s : State) (d : Cmd) (n : Nat) (p : Plot) : Prop := d.plot = some n ∧ mget s.plots n = some p

/-- A command has ended with a reply: it is no longer in flight, the replay window of its queue has the reply's status, and
each of its reply slots still to be written carries the reply (R264, R267). -/
def EndedWith (t : State) (d : Cmd) (r : Reply) : Prop :=
  (∀ e ∈ t.cmds, e.acc ≠ d.acc) ∧
    ∀ y, t.queue d.src = some y →
      (∀ w ∈ y.window, w.2.acc = d.acc → w.2.status = some r.status) ∧
        ∀ sl ∈ y.slots, sl.kind = .command → sl.acc = d.acc → sl.reply = some r

/-- The fields of a queue that neither sending nor the end of a command changes: its rings, its submission side, its
interrupt settings and E. -/
def Queue.core (q : Queue) : Queue :=
  { q with cqTail := 0, slots := [], counted := 0, timer := none, shown := .active, owed := false, mute := false, window := [],
           chain := none, closing := false, qstate := .active, byRing := false, haltSeq := 0 }

/-- The fields of a function that sending leaves alone: all but its pending bits, its packet counters and its queues. -/
def Func.still (x : Func) : Func := { x with msix := [], tel := FnTel.zero, queues := [] }

/-- Nothing differs but what a command's end and its replies change: the outputs, the commands in flight, the trace, the ports'
idle times, and in functions and queues the completion side, the pending bits and the counters. The end of the BMC channel's
last command lets a reset of the channel that waited take place (R466). -/
structure RepliesOnly (s t : State) : Prop where
  rest : t = { s with
    out := t.out, funcs := t.funcs, ports := t.ports, pcp := t.pcp, pcpReset := t.pcpReset, cmds := t.cmds,
    secure := { s.secure with trace := t.secure.trace } }
  fns : ∀ f, (t.fn f).still = (s.fn f).still
  queues : ∀ src, (src = .bmc → s.pcpReset = none) → (t.queue src).map Queue.core = (s.queue src).map Queue.core

/-- The step completes: exec answers a next state in which the command has ended with a reply, and which differs from `u` in
nothing but what the end and its replies change. -/
def Done (i : Instr) (s u : State) (d : Cmd) (r : Reply) : Prop :=
  ∃ t, exec i s = .next t ∧ EndedWith t d r ∧ RepliesOnly u t

/-- A plot without the mark of a release in progress. -/
def Plot.unmarked (p : Plot) : Plot := { p with releasing := none }

/-- Nothing differs but what the end of a command, whatever its status, and the replies change: as `RepliesOnly`, and a plot
may lose the mark of a PLOT_RELEASE that ends without effect (R351). -/
structure EndsOnly (s t : State) : Prop where
  rest : t = { s with
    out := t.out, funcs := t.funcs, ports := t.ports, pcp := t.pcp, pcpReset := t.pcpReset, cmds := t.cmds, plots := t.plots,
    secure := { s.secure with trace := t.secure.trace } }
  fns : ∀ f, (t.fn f).still = (s.fn f).still
  queues : ∀ src, (src = .bmc → s.pcpReset = none) → (t.queue src).map Queue.core = (s.queue src).map Queue.core
  plots : ∀ n, (mget t.plots n).map Plot.unmarked = (mget s.plots n).map Plot.unmarked

/-- The step completes: exec answers a next state in which the command has ended with a reply, and which differs from `u` in
nothing but what a command's end changes. -/
def EndsFrom (i : Instr) (s u : State) (d : Cmd) (r : Reply) : Prop :=
  ∃ t, exec i s = .next t ∧ EndedWith t d r ∧ EndsOnly u t

/-- The command ends with a reply and has no other effect. -/
def EndsAs (i : Instr) (s : State) (d : Cmd) (r : Reply) : Prop := EndsFrom i s s d r

/-- A plot without its log and the mark of a release. -/
def Plot.bare (p : Plot) : Plot := { p with log := Log.empty, releasing := none }

/-- A run that fails ends its command and leaves alone every plot's tensors, plans, streams and registers, the stores, and
every engine but those it ran on (R97, R126). -/
def RunFails (i : Instr) (s : State) (d : Cmd) (es : List Nat) (r : Reply) : Prop :=
  ∃ t, exec i s = .next t ∧ EndedWith t d r ∧ (∀ n, (mget t.plots n).map Plot.bare = (mget s.plots n).map Plot.bare) ∧
    t.stores = s.stores ∧ ∀ e, e ∉ es → t.eng e = s.eng e

/-- What tenants and the stores hold is untouched: every plot, every command in flight, the fuses and the NVS, the sessions, and
every byte and tag of every scratchpad. -/
structure Untouched (s t : State) : Prop where
  plots : t.plots = s.plots
  cmds : t.cmds = s.cmds
  stores : t.stores = s.stores
  sessions : t.sessions = s.sessions
  spads : ∀ e, (t.eng e).spad = (s.eng e).spad

/-- What tenants hold is the same: every plot, every command in flight, and every byte and tag of every scratchpad. -/
structure TenantsKept (s t : State) : Prop where
  plots : t.plots = s.plots
  cmds : t.cmds = s.cmds
  spads : ∀ e, (t.eng e).spad = (s.eng e).spad

/-- Commands of the links, of limiting and wakes, of the Lodge's messages, and of SPDM, which no tenant's work depends on. A
PROVISION whose fuses do not read back is none, for every plot's log tells it (R376, R425). -/
def managementOnly (c : Instr) : Bool :=
  match c with
  | .lodgePatrolSweep => true
  | .adminDeletionDone _ | .msixUnmask _ _ | .opportunisticSlice _ | .forcedSliceDue _ | .hbmCalibration _ _ _
  | .calibrationWindowTimeout _ _ _ | .engineWakeDone _ | .eclkRelockDone _ | .hbmReady | .limitControlPeriod _ _ | .overcurrentAlarm
  | .overcurrentAlarmClear | .thermalHold _ | .thermalRelease _ | .aspmL1Request _ | .linkUp _ | .linkReturnsToL0 _
  | .flrComplete _ | .unsupportedRequest _ => true
  | .mctpControl _ _ | .pldmDiscovery _ _ | .pldmSensorRead _ _ | .pldmP2enEffecter _ _ | .setEventReceiver _ _ | .requestUpdate _
  | .updateComponent _ _ | .verifyComplete _ | .unknownVendorSubtype _ | .sensorThresholdCrossing _ _ => true
  | .provision _ m => m.burn.others && m.burn.state == (true, true)
  | .nonce _ | .dbgNonce | .nonceExpiry | .observe _ _ | .extest _ => true
  | .getVersion _ | .getCapabilities _ | .negotiateAlgorithms _ | .getDigests _ | .getCertificate _ _ _ _ | .challenge _ _ _
  | .getMeasurements _ _ _ | .keyExchange _ _ _ | .finish _ _ _ _ _ | .heartbeat _ _ | .heartbeatTimeout _ _ | .keyUpdate _ _ _ _
  | .endSession _ _ | .spdmUnsupportedRequest _ _ => true
  | _ => false

/-- No engine, store or session has changed: a step of the queues (R262 to R275). -/
structure QueueStep (s t : State) : Prop where
  engines : t.engines = s.engines
  stores : t.stores = s.stores
  sessions : t.sessions = s.sessions

/-- A ring read has returned a whole packet of a queue: its length field obeys R261 and lies in the ring, and the bytes are all
there. A packet with a payload goes to an HBM reply page, so the stacks are up (R262). -/
def WholePacket (s : State) (x : Queue) (bs : List Byte) : Prop :=
  32 ≤ bs.length ∧ tlenOk (hdrOf bs).tlen x.sqSize = true ∧ (hdrOf bs).tlen ≤ x.sqOcc * 16 ∧ bs.length = (hdrOf bs).tlen ∧
    (48 + (hdrOf bs).plen < (hdrOf bs).tlen → s.hbmUp = true)

/-- The packet's CRC field is the CRC32C of the bytes before it (R246, R260). -/
def CrcRight (bs : List Byte) : Prop :=
  leNat (toLe 4 (crc32c (bs.take ((hdrOf bs).tlen - 4)))) = crcField bs (hdrOf bs).tlen

/-- A queue that a ring fault or a STALE_SEQUENCE refusal has halted: HALTED, to be resumed from either, at E, with E and the
latched tail unchanged. -/
def RingHalted (x y : Queue) : Prop :=
  y.qstate = .halted ∧ y.byRing = true ∧ y.haltSeq = x.e ∧ y.e = x.e ∧ y.sqTail = x.sqTail

/-- A plot without its log. -/
def Plot.sansLog (p : Plot) : Plot := { p with log := Log.empty }

/-- A write to a completion ring or a shadow area, or a reply of the BMC channel (R258, R276, R466). -/
def Emit.isReply : Emit → Bool
  | .ring .. => true
  | .shadow .. => true
  | .pcp _ => true
  | _ => false

/-- Two states have sent the same replies and shadow writes. -/
def State.sameReplies (s t : State) : Prop := t.out.filter Emit.isReply = s.out.filter Emit.isReply

/-- Nothing differs but logs, status bits of functions, and what is sent beside replies and shadow writes; queues and the rest
of each plot are the same. -/
structure Notes (s t : State) : Prop where
  rest : ∃ o fs pt pl dl a b c m, t = { s with
    out := o, funcs := fs, ports := pt, plots := pl, devLog := dl, devNew := a, devLost := b, devCe := c, devSetAt := m }
  queues : ∀ src, t.queue src = s.queue src
  plots : ∀ n, (mget t.plots n).map Plot.sansLog = (mget s.plots n).map Plot.sansLog
  replies : s.sameReplies t

/-- An error record was added: it stands in the device log with the time, or is counted as lost when the log is full, and
nothing but logs, status bits and messages differs (R374, R376). -/
structure Logged (s t : State) (r : Rec) : Prop where
  notes : Notes s t
  dev : t.devLog = (s.devLog.add 256 { r with time := s.timeMs }).1

/-- A command that occurs: its operands lie in the ranges the spec gives them. -/
def mayOccur (c : Instr) : Bool := WellFormed c

end Sys2Proof.Machine
end

