-- ==== Sys2Proof/Certificates/Slice0/Obligations.lean ====
section
/-!
DEFINITION. The statements, by part of the device: the step and reset, doorbells and registers, packets, the opcodes, the engines,
background work, faults, power, management, functions and bring-up, lifecycle, debug and SPDM, and what holds of every step.
-/

open Sys2Proof Sys2Proof.Machine

/-- The block's step: the command at the front of the queue runs on the state with the queue's rest. On an empty queue one
LCLK cycle passes, and while no latent divergence waits nothing is sent and no command, plot, function or store changes
(DESIGN CHOICE, log entry 14). -/
def Obligations.StepTakesTheFrontCommand : Prop :=
  (∀ (s : State) (c : Instr) (rest : List Instr), s.pending = c :: rest → step s = exec c { s with pending := rest }) ∧
  (∀ s : State, s.pending = [] → s.latent = none → ∃ t, step s = .next t ∧ t.lclk = s.lclk + 1 ∧ t.pending = [] ∧
    t.out = s.out ∧ t.cmds = s.cmds ∧ t.plots = s.plots ∧ t.funcs = s.funcs ∧ t.stores = s.stores)

/-- The reset values that the spec gives: bring-up stands in step 1 with EN_PCIE asserted (R460, R495, R496), no function has
an enabled queue (R480), the admin windows are 65,536 bytes (R480), GK_CTL is 0x1F (R397), PWR_CTL has P2EN 1, GATE_DELAY 4,
P2_DELAY 10, PLIMIT 700 and TLIMIT 100 (R421), every engine is GATED at 0.4 GHz with empty tags (R201, R421), the level is
CLOSED (R437), no plot is configured (R343), and nothing is in flight. The levels of the input pins and what a scratchpad
reads before bring-up are the model's choices (log entries 6 and 10). -/
def Obligations.ResetState : Prop :=
  State.reset.pending = [] ∧ State.reset.cmds = [] ∧ State.reset.plots = [] ∧ State.reset.fatal = false ∧
  State.reset.boot.stage = 1 ∧ State.reset.boot.ready = false ∧ State.reset.boot.fwFail = false ∧
  State.reset.pins.enPcie = true ∧ State.reset.pins.enFab = false ∧ State.reset.pins.enSram = false ∧
  State.reset.pins.enCore = false ∧ State.reset.pins.enHbm = false ∧ State.reset.pins.pdnReady = false ∧
  State.reset.pins.thermtrip = false ∧ State.reset.keeper.ctl = 0x1F ∧ State.reset.power.p2en = true ∧
  State.reset.power.gateDelay = 4 ∧ State.reset.power.p2Delay = 10 ∧ State.reset.power.plimit = 700 ∧
  State.reset.power.tlimit = 100 ∧ State.reset.power.ceiling = 18 ∧ State.reset.secure.level = .closed ∧
  State.reset.secure.lockout = false ∧ State.reset.devLog.recs = [] ∧
  (∀ f : FuncId, (State.reset.fn f).enable = false ∧ (State.reset.fn f).busy = false ∧ (State.reset.fn f).cfgErr = false ∧
    (State.reset.fn f).sqLog = 16 ∧ (State.reset.fn f).cqLog = 16 ∧ (State.reset.fn f).queues = []) ∧
  (∀ e : Nat, (State.reset.eng e).power = .gated ∧ (State.reset.eng e).eclk = 4 ∧ (State.reset.eng e).failed = false ∧
    (State.reset.eng e).spad.full = [] ∧ ∀ a, (State.reset.eng e).spad.mem.read a = 0) ∧
  State.reset.reserved

/-- R256: a tail write to a queue that exists. A valid position is latched; an invalid one is not latched, sets DBERR and
signals the function's error vector, and the queue's state stays. Completes: SQ_TAIL_DOORBELL. -/
def Obligations.SubmissionTailDoorbell : Prop :=
  ∀ (f : FuncId) (off size : Nat) (data : Word) (s : State) (q : Nat) (x : Queue),
    mmioServed s f = true → doorbellOf off size = some (q, false) → mget (s.fn f).queues q = some x →
    ∀ T, T = data.toNat % 2 ^ 32 →
    ((x.sqTail + 2 ^ 32 - x.sqHead) % 2 ^ 32 ≤ (T + 2 ^ 32 - x.sqHead) % 2 ^ 32 →
      (T + 2 ^ 32 - x.sqHead) % 2 ^ 32 ≤ x.sqSize / 16 →
      ∃ t, exec (.sqTailDoorbell f off size data) s = .next t ∧ t.queue (.ring f q) = some { x with sqTail := T } ∧
        (∀ src, src ≠ .ring f q → t.queue src = s.queue src) ∧ Untouched s t) ∧
    ((T + 2 ^ 32 - x.sqHead) % 2 ^ 32 < (x.sqTail + 2 ^ 32 - x.sqHead) % 2 ^ 32 ∨
      x.sqSize / 16 < (T + 2 ^ 32 - x.sqHead) % 2 ^ 32 →
      exec (.sqTailDoorbell f off size data) s =
        .next (signalErr ((touchPort s f.port.val).setQueue (.ring f q) { x with dberr := true, dberrAt := some s.lclk }) f))

/-- R257: a completion head write to a queue that exists. A valid position is latched; an invalid one is treated as an
invalid tail is. Completes: CQ_HEAD_DOORBELL. -/
def Obligations.CompletionHeadDoorbell : Prop :=
  ∀ (f : FuncId) (off size : Nat) (data : Word) (s : State) (q : Nat) (x : Queue),
    mmioServed s f = true → doorbellOf off size = some (q, true) → mget (s.fn f).queues q = some x →
    ∀ T, T = data.toNat % 2 ^ 32 →
    ((T + 2 ^ 32 - x.cqHead) % 2 ^ 32 ≤ (x.cqTail + 2 ^ 32 - x.cqHead) % 2 ^ 32 → ∃ t y, exec (.cqHeadDoorbell f off size data) s = .next t ∧ t.queue (.ring f q) = some y ∧ y.cqHead = T ∧
      y.sqTail = x.sqTail ∧ y.sqHead = x.sqHead ∧ y.e = x.e ∧ y.qstate = x.qstate ∧ y.dberr = x.dberr ∧
      Untouched s t) ∧
    ((x.cqTail + 2 ^ 32 - x.cqHead) % 2 ^ 32 < (T + 2 ^ 32 - x.cqHead) % 2 ^ 32 → exec (.cqHeadDoorbell f off size data) s =
        .next (signalErr ((touchPort s f.port.val).setQueue (.ring f q) { x with dberr := true, dberrAt := some s.lclk }) f))

/-- R481, R482: ENABLE = 1 while ENABLE and BUSY are 0 checks the windows: it creates queue 0, or sets CFGERR. ENABLE = 0
while ENABLE is 1 deletes every queue and sets BUSY, which ADMIN_DELETION_DONE clears; no reply is written for the deleted
queues. Completes: Q_ADMIN_ENABLE, Q_ADMIN_DISABLE, ADMIN_DELETION_DONE. -/
def Obligations.AdminQueueLifecycle : Prop :=
  (∀ (f : FuncId) (v : Word) (s : State), mmioServed s f = true → (s.fn f).enable = false → (s.fn f).busy = false →
    s.secure.erasing = none →
    (adminWindowsOk (s.fn f) = true → ∃ t, exec (.qAdminEnable f v) s = .next t ∧ (t.fn f).enable = true ∧
      mget (t.fn f).queues 0 = some (adminQueue (s.fn f)) ∧ t.out = s.out ∧ Untouched s t) ∧
    (adminWindowsOk (s.fn f) = false → ∃ t, exec (.qAdminEnable f v) s = .next t ∧ (t.fn f).enable = false ∧
      (t.fn f).cfgErr = true ∧ (t.fn f).queues = (s.fn f).queues ∧ Untouched s t)) ∧
  (∀ (f : FuncId) (v : Word) (s : State), mmioServed s f = true → (s.fn f).enable = true →
    ∃ t, exec (.qAdminDisable f v) s = .next t ∧ (t.fn f).enable = false ∧ (t.fn f).busy = true ∧ (t.fn f).queues = [] ∧
      s.sameReplies t) ∧
  (∀ (f : FuncId) (s : State), s.lodgeUp = true → (s.fn f).busy = true →
    exec (.adminDeletionDone f) s = .next (s.setFn f { s.fn f with busy := false }))

/-- R483: a write of RESUME = 1 with ENABLE 1 after it makes a queue 0 that a ring fault or a STALE_SEQUENCE refusal halted
ACTIVE again, E unchanged; in every other case, a BROKEN queue 0 among them, RESUME leaves the queue as it is, and no case is
counted. With ENABLE = 0 the write only deletes the queues, or does nothing where ENABLE is 0 already. Completes:
Q_ADMIN_RESUME. -/
def Obligations.AdminResume : Prop :=
  (∀ (f : FuncId) (v : Word) (s : State) (x : Queue), mmioServed s f = true → (s.fn f).enable = true → (s.fn f).busy = false →
    s.secure.erasing = none → bitOf v.toNat 0 = true → mget (s.fn f).queues 0 = some x →
    (x.qstate = .halted ∧ x.byRing = true → ∃ t y, exec (.qAdminResume f v) s = .next t ∧ t.queue (.ring f 0) = some y ∧
      y.qstate = .active ∧ y.byRing = false ∧ y.e = x.e ∧ y.sqHead = x.sqHead ∧ (t.fn f).regCnt = (s.fn f).regCnt) ∧
    (¬(x.qstate = .halted ∧ x.byRing = true) → ∃ t, exec (.qAdminResume f v) s = .next t ∧ t.queue (.ring f 0) = some x ∧
      (t.fn f).regCnt = (s.fn f).regCnt)) ∧
  (∀ (f : FuncId) (v : Word) (s : State), mmioServed s f = true → bitOf v.toNat 0 = false →
    ((s.fn f).enable = true → ∃ t, exec (.qAdminResume f v) s = .next t ∧ (t.fn f).enable = false ∧ (t.fn f).queues = [] ∧
      (t.fn f).regCnt = (s.fn f).regCnt) ∧
    ((s.fn f).enable = false → ∃ t, exec (.qAdminResume f v) s = .next t ∧ (t.fn f).enable = false ∧
      (t.fn f).queues = (s.fn f).queues ∧ (t.fn f).regCnt = (s.fn f).regCnt))

/-- R377, R378: POP removes the oldest record of the function's plot's log, or of the device log, and nothing else.
Completes: ERR_LOG_POP, ERR_DEV_LOG_POP. -/
def Obligations.PopRemovesTheOldestRecord : Prop :=
  (∀ (f : FuncId) (v : Word) (s : State) (n : Nat) (p : Plot), mmioServed s f = true →
    boundIn s.plots (fidNat f) = some n → mget s.plots n = some p →
    exec (.errLogPop f v) s =
      .next ((touchPort s f.port.val).setPlot n { p with log := { p.log with recs := p.log.recs.drop 1 } })) ∧
  (∀ (f : FuncId) (v : Word) (s : State), mmioServed s f = true → s.designated f = true →
    exec (.errDevLogPop f v) s =
      .next { touchPort s f.port.val with devLog := { s.devLog with recs := s.devLog.recs.drop 1 } })

/-- R397, R404, R410, R421: in the designated PF, WAKE = 1 and P2EN = 0 are wake events in P2: the wake begins and FAB_RET
goes low; P2EN takes the value written. A legal PWR_ECLK_TGT becomes the plot's target. GK_CTL is written in the designated
PF; in every other function its fields are read-only and nothing changes. Completes: PWR_WAKE, P2EN_CLEAR,
PWR_ECLK_TGT_WRITE, GK_CTL_WRITE. -/
def Obligations.PowerAndKeeperRegisters : Prop :=
  (∀ (f : FuncId) (v : Word) (s : State), mmioServed s f = true → s.designated f = true → s.p2 = .inP2 →
    (∃ t, exec (.pwrWake f v) s = .next t ∧ t.p2 = .waking s.lclk ∧ t.pins.fabRet = false ∧ Untouched s t) ∧
      ∃ t, exec (.p2enClear f v) s = .next t ∧ t.p2 = .waking s.lclk ∧ t.pins.fabRet = false ∧ t.power.p2en = false ∧
        Untouched s t) ∧
  (∀ (f : FuncId) (v : Word) (s : State) (n : Nat) (p : Plot), mmioServed s f = true →
    boundIn s.plots (fidNat f) = some n → mget s.plots n = some p → 4 ≤ v.toNat % 32 → v.toNat % 32 ≤ 18 →
    ∃ t, exec (.pwrEclkTgtWrite f v) s = .next t ∧ mget t.plots n = some { p with eclkTarget := v.toNat % 32 } ∧
      (∀ m, m ≠ n → mget t.plots m = mget s.plots m) ∧ t.cmds = s.cmds ∧ t.stores = s.stores) ∧
  (∀ (f : FuncId) (v : Word) (s : State), mmioServed s f = true →
    (s.designated f = true → ∃ t, exec (.gkCtlWrite f v) s = .next t ∧ t.keeper.ctl = v.toNat % 32 ∧ t.cmds = s.cmds ∧
      t.stores = s.stores ∧ ∀ e, (t.eng e).spad = (s.eng e).spad) ∧
    (s.designated f = false → exec (.gkCtlWrite f v) s = .next (touchPort s f.port.val)))

/-- R437, R439, R441, R457: in the designated PF, NEWNONCE replaces the nonce by 32 free bytes that are valid for 60 s;
OBS_ENTER opens OBSERVE from CLOSED in PROVISIONED and FIELD; CLOSE ends an OBSERVE session; 0xC01D in COLD is a cold reset:
every register and store but the non-volatile ones is as after power-on. In any other function LDG_RESET is not held and
nothing changes. Completes: NEWNONCE, OBS_ENTER, DBG_CLOSE, LDG_RESET_COLD. -/
def Obligations.DebugControlAndColdReset : Prop :=
  ∀ (f : FuncId) (v : Word) (s : State), mmioServed s f = true →
    (s.designated f = true → v.toNat / 2 % 4 = 0 → ∃ t, exec (.newNonce f v) s = .next t ∧
      currentNonce t = some (freeNonce s.freeIx) ∧ t.secure = { s.secure with nonce := t.secure.nonce } ∧ Untouched s t) ∧
    (s.designated f = true → v.toNat % 8 = 0 → s.secure.level = .closed → s.stores.inUse = true →
      exec (.obsEnter f v) s =
        .next { touchPort s f.port.val with secure := { s.secure with level := .observe, trace := [] } }) ∧
    (s.designated f = true → v.toNat % 8 = 0 → s.secure.level ≠ .invasive →
      exec (.dbgClose f v) s =
        .next { touchPort s f.port.val with secure := { s.secure with level := .closed, trace := [] } }) ∧
    (s.designated f = true → ∃ t, exec (.ldgResetCold f v) s = .next t ∧ t.stores = s.stores ∧ t.plots = [] ∧ t.funcs = [] ∧
      t.cmds = [] ∧ t.fatal = false ∧ t.boot.stage = 1 ∧ t.boot.ready = false ∧ t.keeper = Keeper.reset ∧
      t.power = Power.reset ∧ t.secure = Secure.reset) ∧
    (s.designated f = false → exec (.ldgResetCold f v) s = .next (touchPort s f.port.val))

/-- R283, R371, R449: MSIX_UNMASK clears a vector's mask bit, and a pending message of a vector that may now be sent goes out
once: with MSI-X enabled and the function not masked whole, and in the fatal state only the error vector's. Pending bits are
presumed to work as the base specification has them (log entry 9). Completes: MSIX_UNMASK. -/
def Obligations.UnmaskSendsThePendingMessage : Prop :=
  (∀ (f : FuncId) (v : Nat) (s : State), mmioServed s f = true → v < vecLimit f →
    ((s.fn f).vec v).pend = true → s.dmaOk f = true → (s.fn f).cfg.msixEnable = true → (s.fn f).cfg.msixMask = false →
    s.fatal = false ∨ v = (s.fn f).errVec →
    ∃ t, exec (.msixUnmask f v) s = .next t ∧
      (t.fn f).vec v = { (s.fn f).vec v with masked := false, pend := false } ∧
      t.out = s.out ++ [.msix f v ((s.fn f).vec v).addr ((s.fn f).vec v).data] ∧ Untouched s t) ∧
  (∀ (f : FuncId) (v : Nat) (s : State), mmioServed s f = true → v < vecLimit f → ((s.fn f).vec v).pend = false →
    ∃ t, exec (.msixUnmask f v) s = .next t ∧ (t.fn f).vec v = { (s.fn f).vec v with masked := false } ∧ t.out = s.out ∧
      Untouched s t)

/-- R5, R255, R450, R480, R482: a register write of 8 bytes at an aligned offset writes the admin queue's base while ENABLE
and BUSY are 0, and is discarded and counted in REGCNT while either is 1; so is a write of another size or alignment. A
poisoned write is discarded and reported. A doorbell write of another size or alignment, to a reserved offset, or to a queue
that does not exist, is ignored and counted in DBCNT. Completes: REGISTER_WRITE. -/
def Obligations.RegisterWrites : Prop :=
  (∀ (f : FuncId) (v : Word) (s : State), mmioServed s f = true → (s.fn f).enable = false → (s.fn f).busy = false →
    exec (.registerWrite ⟨f, .bar0, 0x400, 8, v, false⟩) s =
      .next ((touchPort s f.port.val).setFn f { s.fn f with sqBase := v.toNat })) ∧
  (∀ (f : FuncId) (v : Word) (s : State), mmioServed s f = true → (s.fn f).enable = true ∨ (s.fn f).busy = true →
    exec (.registerWrite ⟨f, .bar0, 0x400, 8, v, false⟩) s =
      .next ((touchPort s f.port.val).setFn f { s.fn f with regCnt := min (2 ^ 32 - 1) ((s.fn f).regCnt + 1) })) ∧
  (∀ (f : FuncId) (off size : Nat) (v : Word) (s : State), mmioServed s f = true →
    ¬((size = 4 ∨ size = 8) ∧ off % size = 0) →
    exec (.registerWrite ⟨f, .bar0, off, size, v, false⟩) s =
      .next ((touchPort s f.port.val).setFn f { s.fn f with regCnt := min (2 ^ 32 - 1) ((s.fn f).regCnt + 1) })) ∧
  (∀ (w : MmioWrite) (s : State), mmioServed s w.f = true → w.poisoned = true →
    exec (.registerWrite w) s =
      .next { touchPort s w.f.port.val with out := s.out ++ [.poisoned w.f.port.val] }) ∧
  (∀ (f : FuncId) (off size : Nat) (data : Word) (s : State), mmioServed s f = true →
    (((size ≠ 4 ∧ size ≠ 8) ∨ 0x8000 ≤ off ∨ off % 8 ≠ 0) ∨ mget (s.fn f).queues (off / 16) = none) →
    ∀ t, t = (touchPort s f.port.val).setFn f { s.fn f with dbCnt := min (2 ^ 32 - 1) ((s.fn f).dbCnt + 1) } →
    exec (.sqTailDoorbell f off size data) s = .next t ∧ exec (.cqHeadDoorbell f off size data) s = .next t)

/-- R262, R267 to R269: PACKET_FETCH of a whole packet with a right CRC advances SQ_HEAD past it, and never E. A packet whose
SEQ is E is staged. A packet whose SEQ is neither E nor in the window is refused, which halts an ORDERED queue. Completes:
PACKET_FETCH. -/
def Obligations.PacketFetchChecksSequence : Prop :=
  ∀ (f : FuncId) (q : Nat) (bs : List Byte) (s : State) (x : Queue), s.queue (.ring f q) = some x → mayFetch s f x = true →
    WholePacket s x bs → CrcRight bs →
    ((hdrOf bs).seq = x.e → ∃ t y, exec (.packetFetch f q (.bytes bs)) s = .next t ∧ t.queue (.ring f q) = some y ∧
      y.staged = some bs ∧ y.sqHead = (x.sqHead + (hdrOf bs).tlen / 16) % 2 ^ 32 ∧ y.e = x.e ∧ y.qstate = x.qstate ∧ Untouched s t) ∧
    ((hdrOf bs).seq ≠ x.e → inWindow x (hdrOf bs).seq = none → x.unordered = false →
      ∃ t y, exec (.packetFetch f q (.bytes bs)) s = .next t ∧ t.queue (.ring f q) = some y ∧ RingHalted x y ∧
        y.sqHead = (x.sqHead + (hdrOf bs).tlen / 16) % 2 ^ 32 ∧ Untouched s t) ∧
    ((hdrOf bs).seq ≠ x.e → inWindow x (hdrOf bs).seq = none → x.unordered = true →
      ∃ t y, exec (.packetFetch f q (.bytes bs)) s = .next t ∧ t.queue (.ring f q) = some y ∧ y.qstate = x.qstate ∧
        y.e = x.e ∧ y.staged = none ∧ Untouched s t)

/-- R275, R454: a wrong CRC, a bad length field and a read that fails or times out are ring faults in either mode: the queue
is HALTED at E, packets up to the latched tail are discarded, nothing stays staged, and E does not change. A window check
that fails on any access of a queue that is not BROKEN makes it BROKEN, with nothing staged and its positions as they were
(R253). Completes: COMPLETION_TIMEOUT. -/
def Obligations.RingFaultHaltsTheQueue : Prop :=
  (∀ (f : FuncId) (q : Nat) (b : Bool) (s : State) (x : Queue), s.queue (.ring f q) = some x → mayAccess s f x = true →
    ∃ t y, exec (.packetFetch f q (.window b)) s = .next t ∧ t.queue (.ring f q) = some y ∧ y.qstate = .broken ∧
      y.staged = none ∧ y.e = x.e ∧ y.sqHead = x.sqHead ∧ y.sqTail = x.sqTail ∧ QueueStep s t) ∧
  ∀ (f : FuncId) (q : Nat) (s : State) (x : Queue), s.queue (.ring f q) = some x → mayFetch s f x = true →
    (∀ bs, WholePacket s x bs → ¬CrcRight bs → ∃ t y, exec (.packetFetch f q (.bytes bs)) s = .next t ∧
      t.queue (.ring f q) = some y ∧ RingHalted x y ∧ y.sqHead = x.sqTail ∧ y.staged = none ∧ QueueStep s t) ∧
    (∀ bs, 32 ≤ bs.length → tlenOk (hdrOf bs).tlen x.sqSize = false → ∃ t y, exec (.packetFetch f q (.bytes bs)) s = .next t ∧
      t.queue (.ring f q) = some y ∧ RingHalted x y ∧ y.sqHead = x.sqTail ∧ y.staged = none ∧ QueueStep s t) ∧
    (∀ h, ∃ t y, exec (.packetFetch f q (.failed h)) s = .next t ∧ exec (.completionTimeout f q h) s = .next t ∧
      t.queue (.ring f q) = some y ∧ RingHalted x y ∧ y.sqHead = x.sqTail ∧ y.staged = none ∧ QueueStep s t)

/-- R266, R267, R270: PACKET_ACCEPT of a staged packet, with the longest reply's space free in the completion ring, advances
E by 1 modulo 2^64, whatever verdict the later checks give, and leaves nothing staged; a packet that starts a command takes
the next acceptance number. No fuse, NVS record or session changes, and no engine unless the packet starts an ABORT. While
the space is short the packet waits and nothing changes. A command that has to wait, or whose occasion does not hold, changes
nothing (log entry 17). Completes: PACKET_ACCEPT. -/
def Obligations.AcceptanceAdvancesE : Prop :=
  ∀ (f : FuncId) (q : Nat) (s : State) (x : Queue) (bs : List Byte), s.queue (.ring f q) = some x → x.staged = some bs →
    mayAccept s (.ring f q) x = true → 64 ≤ x.cqSize →
    (replyLimit x / 16 ≤ x.cqFree → ∃ t y, exec (.packetAccept f q) s = .next t ∧ t.queue (.ring f q) = some y ∧
      y.e = (x.e + 1) % 2 ^ 64 ∧ y.staged = none ∧ y.sqHead = x.sqHead ∧ t.stores = s.stores ∧ t.sessions = s.sessions ∧
      (x.chain = none → t.accNo = s.accNo + 1 ∧ ((hdrOf bs).opcode ≠ 0x03 → t.engines = s.engines))) ∧
    (x.cqFree < 4 → exec (.packetAccept f q) s = .next s)

/-- R267, R276, R277: OK_DUPLICATE answers every duplicate whose original has ended: what remains of the queue's slots holds,
for such a duplicate, a reply; a newly answered one says OK_DUPLICATE with the original's status. E and the window do not
change. Where such a duplicate is the one reply that the function owes, and there is space and DMA, its 64 bytes are written
to the completion ring at once, CQ_TAIL moves past them, and nothing waits. Completes: OK_DUPLICATE. -/
def Obligations.DuplicatesAreAnswered : Prop :=
  ∀ (f : FuncId) (q : Nat) (s : State) (x : Queue), s.queue (.ring f q) = some x → s.gatehouseUp = true →
    ∃ t y, exec (.okDuplicate f q) s = .next t ∧ t.queue (.ring f q) = some y ∧ y.e = x.e ∧ y.window = x.window ∧
      Untouched s t ∧ t.engines = s.engines ∧
      (∀ sl ∈ y.slots, sl.kind = .duplicate → ∀ st, (mget x.window sl.seq).bind (·.status) = some st →
        (∃ z ∈ x.slots, z.reply.isSome ∧ sl = { z with staged := sl.staged }) ∨
          sl.reply = some { Reply.bare .okDuplicate with orig := st.code }) ∧
      ∀ (sl : Slot) (st : Status) (r : Reply), (s.fn f).queues = [(q, x)] → x.slots = [sl] → sl.kind = .duplicate →
        sl.reply = none → sl.target = none → sl.staged = false → (mget x.window sl.seq).bind (·.status) = some st →
        s.mayReply = true → s.dmaOk f = true → x.qstate ≠ .broken → 4 ≤ x.cqFree + sl.space →
        r = { Reply.bare .okDuplicate with orig := st.code } →
        y.slots = [] ∧ y.cqTail = (x.cqTail + (replyBytes { sl with reply := some r } r).length / 16) % 2 ^ 32 ∧
          ∃ es, t.out = s.out ++ ringWrites (s.payload f) f q x (replyBytes { sl with reply := some r } r) (s.fn f).cfg.relaxed ++ es

/-- R282, R283, R371: when CTIME has passed since the first counted reply, the queue's count and timer clear, and with IEN
its vector is signalled: the message goes out when the function may send it and neither the vector nor the function is
masked; else its pending bit is set. A queue whose timer is not due is left as it is. A command that has to wait, or whose
occasion does not hold, changes nothing (log entry 17). Completes: IRQ_COALESCE_TIMEOUT. -/
def Obligations.CoalescedInterrupt : Prop :=
  ∀ (f : FuncId) (q : Nat) (s : State) (x : Queue) (t₀ : Nat), s.queue (.ring f q) = some x → s.alive = true →
    x.timer = some t₀ →
    (t₀ + usec x.ctime ≤ s.lclk → x.ien = true → s.dmaOk f = true → (s.fn f).cfg.msixEnable = true →
      (s.fn f).cfg.msixMask = false → ((s.fn f).vec x.vector).masked = false →
      ∃ t, exec (.irqCoalesceTimeout f q) s = .next t ∧ t.queue (.ring f q) = some { x with counted := 0, timer := none } ∧
        t.out = s.out ++ [.msix f x.vector ((s.fn f).vec x.vector).addr ((s.fn f).vec x.vector).data] ∧ Untouched s t) ∧
    (t₀ + usec x.ctime ≤ s.lclk → x.ien = true →
      s.dmaOk f = false ∨ (s.fn f).cfg.msixMask = true ∨ ((s.fn f).vec x.vector).masked = true →
      ∃ t, exec (.irqCoalesceTimeout f q) s = .next t ∧ t.queue (.ring f q) = some { x with counted := 0, timer := none } ∧
        t.out = s.out ∧ ((t.fn f).vec x.vector).pend = true ∧ Untouched s t) ∧
    (s.lclk < t₀ + usec x.ctime → exec (.irqCoalesceTimeout f q) s = .next s)

/-- R280, R288: NOP ends OK and changes nothing else. A FENCE ends OK once every command in its scope accepted before it has
ended, and changes nothing while one has not; it drains the combining buffer of every engine of its plot (R208). A command
that has to wait, or whose occasion does not hold, changes nothing (log entry 17). Completes: NOP, FENCE. -/
def Obligations.NopAndFence : Prop :=
  (∀ (c : CmdRef) (s : State) (d : Cmd), Turn s c 0x01 d → Done (.nop c) s s d (Reply.ok [] [])) ∧
  (∀ (c : CmdRef) (s : State) (d : Cmd) (n : Nat) (p : Plot), s.cmd c = some d → d.opcode = 0x02 → mayBegin s d = true →
    InPlot s d n p → fenceClear s d = true → ∃ t, exec (.fence c) s = .next t ∧ EndedWith t d (Reply.ok [] []) ∧
      ∀ e, e < 6 → (t.eng e).spad = if bitOf p.engmask e then (s.eng e).spad.drain.1 else (s.eng e).spad) ∧
  (∀ (c : CmdRef) (s : State) (d : Cmd), s.cmd c = some d → fenceClear s d = false → exec (.fence c) s = .next s)

/-- R35, R290: an ABORT that was accepted before its target's commit point ends OK; one accepted later ends ABORT_TOO_LATE
and carries the status that the target ended with, as it was noted when the ABORT was accepted. Neither changes anything
else. Completes: ABORT. -/
def Obligations.AbortAnswers : Prop :=
  (∀ (c : CmdRef) (s : State) (d : Cmd), Turn s c 0x03 d → d.won = true → Done (.abort c) s s d (Reply.ok [] [])) ∧
  (∀ (c : CmdRef) (s : State) (d : Cmd) (st : Status), Turn s c 0x03 d → d.won = false → d.tooLate = some st →
    EndsAs (.abort c) s d (Reply.withBlock .abortTooLate (toLe 2 st.code)))

/-- R34, R291: each form of QUERY ends OK with its block of Table 3 and changes nothing; a tensor that the plot does not hold
is TENSOR_ABSENT with its handle, and a queue that does not exist is BAD_PARAM at QID. WHAT = STREAM waits for every earlier
command that names its stream, and changes nothing meanwhile. A command that has to wait, or whose occasion does not hold,
changes nothing (log entry 17). Completes: QUERY. -/
def Obligations.QueryReports : Prop :=
  (∀ (c : CmdRef) (s : State) (d : Cmd), Turn s c 0x04 d → byteAt d.params 0 = 0 →
    Done (.query c) s s d (Reply.ok (queryDevice s d.src) [])) ∧
  (∀ (c : CmdRef) (s : State) (d : Cmd) (n : Nat) (p : Plot), Turn s c 0x04 d → InPlot s d n p →
    (byteAt d.params 0 = 1 → Done (.query c) s s d (Reply.ok (queryPlot s n p) [])) ∧
    (byteAt d.params 0 = 2 → streamTurn s d = true → Done (.query c) s s d (Reply.ok (queryStream p d.stream) [])) ∧
    (byteAt d.params 0 = 2 → streamTurn s d = false → exec (.query c) s = .next s) ∧
    (byteAt d.params 0 = 3 → ∀ t, mget p.tensors d.handle = some t → Done (.query c) s s d (Reply.ok (queryTensor t) [])) ∧
    (byteAt d.params 0 = 3 → mget p.tensors d.handle = none →
      EndsAs (.query c) s d (Reply.withBlock .tensorAbsent (toLe 4 d.handle)))) ∧
  (∀ (c : CmdRef) (s : State) (d : Cmd) (f : FuncId) (q : Nat), Turn s c 0x04 d → byteAt d.params 0 = 4 → d.src = .ring f q →
    (∀ x, mget (s.fn f).queues (fieldAt d.params 2 2) = some x →
      Done (.query c) s s d (Reply.ok (toLe 1 x.qstate.code ++ toLe 1 (if x.unordered then 1 else 0) ++ zeros 6 ++ toLe 8 x.e ++
        toLe 8 x.haltSeq) [])) ∧
    (mget (s.fn f).queues (fieldAt d.params 2 2) = none → EndsAs (.query c) s d (Reply.at .badParam 34)))

/-- R315: SCALAR_SET writes COUNT values to the plot's scalar registers from FIRST at its commit point, leaves every other
register, and changes nothing else. Completes: SCALAR_SET. -/
def Obligations.ScalarSetWrites : Prop :=
  ∀ (c : CmdRef) (s : State) (d : Cmd) (n : Nat) (p : Plot), Turn s c 0x50 d → InPlot s d n p → mwf p.scalars = true →
    ∃ m : Map Nat,
      Done (.scalarSet c) s (s.setPlot n { p with scalars := m }) d (Reply.ok [] []) ∧
      ∀ i, (mget m i).getD 0 =
        if byteAt d.params 0 ≤ i ∧ i < byteAt d.params 0 + byteAt d.params 1
        then fieldAt d.params (16 + 8 * (i - byteAt d.params 0)) 8 else (mget p.scalars i).getD 0

/-- R292, R294: at its commit point a creating TENSOR_PUT with no count 0 makes the tensor of its parameters, its payload the
stored bytes, stamped with the epoch clock at its acceptance (R226, R228), and takes the pages that a plan, or a PLAN_LOAD
that has not committed, reserved for it (R230); a count of 0 makes none. Completes: TENSOR_PUT. -/
def Obligations.TensorPutCreates : Prop :=
  ∀ (c : CmdRef) (s : State) (d : Cmd) (n : Nat) (p : Plot), Turn s c 0x10 d → InPlot s d n p →
    bitOf (byteAt d.params 0) 5 = false →
    ∀ z : Tensor, z = { attr := byteAt d.params 0, fmt := byteAt d.params 1, gshift := byteAt d.params 2,
                        itable := fieldAt d.params 4 2, c0 := fieldAt d.params 8 4, c1 := fieldAt d.params 12 4,
                        c2 := fieldAt d.params 16 4, c3 := fieldAt d.params 20 4, img := d.payload, bad := [], home := none,
                        stamp := d.stampAt, lost := 0 } →
    (fieldAt d.params 8 4 * fieldAt d.params 12 4 * fieldAt d.params 16 4 * fieldAt d.params 20 4 ≠ 0 →
      Done (.tensorPut c) s
        ((fillPromised s n d.handle).setPlot n { p with tensors := mput p.tensors d.handle z, plans := fillReservation p d.handle })
        d (Reply.ok [] [])) ∧
    (fieldAt d.params 8 4 * fieldAt d.params 12 4 * fieldAt d.params 16 4 * fieldAt d.params 20 4 = 0 →
      Done (.tensorPut c) s s d (Reply.ok [] []))

/-- R223, R292: a writing TENSOR_PUT replaces the bytes of its range in the tensor's image, and no other byte of it; a handle
that names no tensor is TENSOR_ABSENT. -/
def Obligations.TensorPutWritesARange : Prop :=
  ∀ (c : CmdRef) (s : State) (d : Cmd) (n : Nat) (p : Plot), Turn s c 0x10 d → InPlot s d n p →
    bitOf (byteAt d.params 0) 5 = true →
    (∀ z, mget p.tensors d.handle = some z → d.payload ≠ [] → z.bad = [] →
      Done (.tensorPut c) s
        (setTensor s n d.handle { z with img := overwrite z.img (fieldAt d.params 32 8) d.payload, lost := 0 }) d (Reply.ok [] [])) ∧
    (mget p.tensors d.handle = none → EndsAs (.tensorPut c) s d (Reply.withBlock .tensorAbsent (toLe 4 d.handle)))

/-- R212, R295: TENSOR_GET of an undamaged range carries its bytes as stored and changes nothing; a damaged one ends
UNCORRECTABLE_DATA. TENSOR_FREE waits for every earlier command that names the handle, and then the handle names no tensor,
unless a plan loaded meanwhile declares it, which is BAD_PARAM at the handle (R230). A command that has to wait, or whose
occasion does not hold, changes nothing (log entry 17). Completes: TENSOR_GET, TENSOR_FREE. -/
def Obligations.TensorGetAndFree : Prop :=
  (∀ (c : CmdRef) (s : State) (d : Cmd) (n : Nat) (p : Plot) (z : Tensor), Turn s c 0x11 d → InPlot s d n p →
    mget p.tensors d.handle = some z →
    (z.bad = [] → Done (.tensorGet c) s s d
      (Reply.ok [] ((z.img.drop (fieldAt d.params 0 8)).take (fieldAt d.params 8 8)))) ∧
    (∀ a, z.readBad (fieldAt d.params 0 8) (fieldAt d.params 8 8) = some a →
      RunFails (.tensorGet c) s d [] (Reply.bare .uncorrectableData))) ∧
  (∀ (c : CmdRef) (s : State) (d : Cmd) (n : Nat) (p : Plot), Turn s c 0x12 d → InPlot s d n p →
    (nameFree s d = true → planDeclares p d.handle = true → EndsAs (.tensorFree c) s d (Reply.badParam 28)) ∧
    (nameFree s d = true → planDeclares p d.handle = false →
      Done (.tensorFree c) s (s.setPlot n { p with tensors := mdel p.tensors d.handle }) d (Reply.ok [] [])) ∧
    (nameFree s d = false → exec (.tensorFree c) s = .next s))

/-- R296: on a ready engine a TENSOR_MOVE LOAD of an undamaged tensor ends OK, stores the image from its address on, and
makes that range the home of a MOVABLE tensor; a STORE from a range with no error ends OK, makes the range's bytes the
tensor's image with its home in HBM, and leaves the scratchpad as it is. On a FAILED engine a LOAD ends DATAPATH_FAULT, and
so does a STORE from a range that is not the tensor's home; from its home it ends UNCORRECTABLE_DATA (R364). Completes:
TENSOR_MOVE. -/
def Obligations.TensorMoveMovesTheImage : Prop :=
  ∀ (c : CmdRef) (s : State) (d : Cmd) (n : Nat) (p : Plot) (z : Tensor) (e a : Nat), Turn s c 0x13 d → InPlot s d n p →
    mget p.tensors d.handle = some z → e = byteAt d.params 1 → a = fieldAt d.params 4 4 →
    ((s.eng e).failed = true → EndsAs (.tensorMove c) s d
      (Reply.bare (if byteAt d.params 0 = 1 ∧ z.home = some (e, a) then .uncorrectableData else .datapathFault))) ∧
    (byteAt d.params 0 = 0 → z.bad = [] → engineReady s e = true → (s.eng e).slice = none →
      ∃ t, exec (.tensorMove c) s = .next t ∧ EndedWith t d (Reply.ok [] []) ∧
        (t.eng e).spad = (opStores false (rangeStores a z.img) (opStart (s.eng e).spad)).2.sp ∧
        (∀ g, g ≠ e → t.eng g = s.eng g) ∧
        (mget t.plots n).bind (fun y => mget y.tensors d.handle) = some (if z.movable then { z with home := some (e, a) } else z)) ∧
    (byteAt d.params 0 = 1 → (∀ g ∈ granulesOf a z.img.length, mget (s.eng e).spad.gran g = none) → engineReady s e = true →
      (s.eng e).slice = none →
      ∃ t, exec (.tensorMove c) s = .next t ∧ EndedWith t d (Reply.ok [] []) ∧ (t.eng e).spad = (s.eng e).spad ∧
        (∀ g, g ≠ e → t.eng g = s.eng g) ∧
        (mget t.plots n).bind (fun y => mget y.tensors d.handle) =
          some { z with img := (s.eng e).spad.mem.readBytes a z.img.length, bad := [], home := none, lost := 0 })

/-- R233, R297: TABLE_WRITE with DEFER = 0 replaces COUNT entries of the published IDX4 table from FIRST; with DEFER = 1 the
published version stays, and the entries go to the pending one. R235: the reply counts the commands of which an epoch or a direct
operation straddles the publication, each of which keeps the old version as one that its engines may have fetched; which ones do
is free (log entry 19). Completes: TABLE_WRITE. -/
def Obligations.TableWriteVersions : Prop :=
  ∀ (c : CmdRef) (s : State) (d : Cmd) (n : Nat) (p : Plot), Turn s c 0x14 d → InPlot s d n p → byteAt d.params 0 = 0 →
    fieldAt d.params 6 2 ≠ 0 →
    ∀ tab first, tab = fieldAt d.params 2 2 → first = fieldAt d.params 4 2 →
    (byteAt d.params 1 = 0 → mget p.idx4Pending tab = none → ∀ m, m = mput p.idx4 tab (putEntries (p.table tab) first (idxEntries d)) →
      Done (.tableWrite c) s ((markStraddles s p d).setPlot n { p with idx4 := m, idx4Pending := mdel p.idx4Pending tab }) d
        (Reply.ok (toLe 4 (s.cmds.countP (straddles s p d))) []) ∧
      ∀ e ∈ (markStraddles s p d).cmds, ∃ e0 ∈ s.cmds, e = { e0 with olds := e.olds } ∧
        e.olds = e0.olds ++ (if straddles s p d e0 then [(64 + tab, (p.table tab).map fun v => toLe 2 v)] else [])) ∧
    (byteAt d.params 1 = 1 →
      ∀ m, m = mput p.idx4Pending tab (putEntries ((mget p.idx4Pending tab).getD (p.table tab)) first (idxEntries d)) →
      Done (.tableWrite c) s (s.setPlot n { p with idx4Pending := m }) d (Reply.ok (toLe 4 0) []))

/-- R234, R298: DESC_INVALIDATE waits for every earlier command that references the table; then it publishes a pending
version whole and reports 1, or reports 0 where there is none. A command that has to wait, or whose occasion does not hold,
changes nothing (log entry 17). Completes: DESC_INVALIDATE. -/
def Obligations.DescInvalidatePublishes : Prop :=
  ∀ (c : CmdRef) (s : State) (d : Cmd) (n : Nat) (p : Plot), Turn s c 0x15 d → InPlot s d n p →
    ((s.cmds.any fun e => decide (e.acc < d.acc) && e.plot == d.plot && refsTable p d e) = true →
      exec (.descInvalidate c) s = .next s) ∧
    ((s.cmds.any fun e => decide (e.acc < d.acc) && e.plot == d.plot && refsTable p d e) = false →
      byteAt d.params 0 = 0 →
      (∀ v tab, tab = fieldAt d.params 2 2 → mget p.idx4Pending tab = some v →
        Done (.descInvalidate c) s
          (s.setPlot n { p with idx4 := mput p.idx4 tab v, idx4Pending := mdel p.idx4Pending tab }) d (Reply.ok (toLe 1 1) [])) ∧
      (mget p.idx4Pending (fieldAt d.params 2 2) = none →
        Done (.descInvalidate c) s (s.setPlot n p) d (Reply.ok (toLe 1 0) [])))

/-- R230, R299, R303: PLAN_LOAD makes the plan of its payload under its handle, in no other plot, and reports the pages it
holds; the plan takes the reservations that the command has held since its acceptance. PLAN_UNLOAD waits for every earlier
command that names the plan, is BAD_PARAM while a stream is bound to it, and otherwise releases the plan, its ROLE 1 tensors
and its pages, but for those that a TENSOR_PUT is about to fill. A command that has to wait, or whose occasion does not hold,
changes nothing (log entry 17). Completes: PLAN_LOAD, PLAN_UNLOAD. -/
def Obligations.PlanLoadAndUnload : Prop :=
  (∀ (c : CmdRef) (s : State) (d : Cmd) (n : Nat) (p : Plot), Turn s c 0x20 d → InPlot s d n p →
    ∃ q m, q.img = d.payload ∧ q.tables = [] ∧ q.pending = [] ∧ q.reserved = d.reserved ∧ q.bad = [] ∧
      (∀ h, (∀ e ∈ declsOf d.payload, e.role = 1 → e.handle ≠ h) → mget m h = mget p.tensors h) ∧
      Done (.planLoad c) s (s.setPlot n { p with plans := mput p.plans d.handle q, tensors := m }) d (Reply.ok (toLe 4 q.held) [])) ∧
  (∀ (c : CmdRef) (s : State) (d : Cmd) (n : Nat) (p : Plot), Turn s c 0x21 d → InPlot s d n p →
    (nameFree s d = false → exec (.planUnload c) s = .next s) ∧
    (nameFree s d = true → (p.streams.any fun x => x.2.plan == d.handle) = true →
      EndsAs (.planUnload c) s d (Reply.badParam 28)) ∧
    (nameFree s d = true → (p.streams.any fun x => x.2.plan == d.handle) = false → ∀ q, mget p.plans d.handle = some q →
      Done (.planUnload c) s
        ((keepFills (dropPlan s p d.handle) n q).setPlot n
          { p with plans := mdel p.plans d.handle,
                   tensors := p.tensors.filter fun t => !((declsOf q.img).any fun e => e.role == 1 && e.handle == t.1) })
        d (Reply.ok [] [])))

/-- R126, R200, R234, R286, R304: PLAN_RUN with 0 passes ends OK and changes nothing. It waits while an earlier
DESC_INVALIDATE of its tables has not committed, and while an earlier command of its queue has a footprint that meets its
own. On ready engines whose passes all run, it ends OK with its result block and outputs, adds the passes to the plot's
epochs, and changes no engine but its own; when a pass fails it ends with the failure's status. Placement, and the status
when too few engines are in service, are log entries 29 and 30. A command that has to wait, or whose occasion does not hold,
changes nothing (log entry 17). Completes: PLAN_RUN. -/
def Obligations.PlanRunCompletes : Prop :=
  ∀ (c : CmdRef) (s : State) (d : Cmd) (n : Nat) (p : Plot) (q : Plan), Turn s c 0x22 d → InPlot s d n p →
    mget p.plans d.handle = some q →
    (fieldAt d.params 0 4 = 0 → Done (.planRun c) s s d (Reply.ok (resultBlock Flags.zero 0 d.clock) [])) ∧
    (fieldAt d.params 0 4 ≠ 0 → tableBlocked s p d = true → exec (.planRun c) s = .next s) ∧
    (fieldAt d.params 0 4 ≠ 0 → tableBlocked s p d = false → placeParts s p q = none →
      EndsAs (.planRun c) s d (Reply.bare .datapathFault)) ∧
    (fieldAt d.params 0 4 ≠ 0 → tableBlocked s p d = false → placeParts s p q ≠ none → feetWait s p d = true →
      exec (.planRun c) s = .next s) ∧
    (fieldAt d.params 0 4 ≠ 0 → tableBlocked s p d = false → feetWait s p d = false →
      ∀ es x u r, placeParts s p q = some es → (∀ e ∈ es, engineReady s e = true ∧ (s.eng e).slice = none) →
      x = runCtx p q d es Head.none →
      u = prefetchFirst s x (transientImages q ((d.payload.drop (kindBytes q.img 0)).take (transientBytes q))) →
      r = runPasses x (kindBytes q.img 0) (transientBytes q) (fieldAt d.params 0 4) d.payload ⟨startParts u x, []⟩ ⟨[], []⟩ →
      (r.2.2 = none → ∃ t y, exec (.planRun c) s = .next t ∧
        EndedWith t d (Reply.ok (resultBlock r.1.flags r.1.lost d.clock) r.2.1.block) ∧ mget t.plots n = some y ∧
        y.epochs = p.epochs + fieldAt d.params 0 4 ∧ y.scalars = p.scalars ∧ y.streams = p.streams ∧
        (y.plans.map fun z => (z.1, { z.2 with bad := [] })) = (p.plans.map fun z => (z.1, { z.2 with bad := [] })) ∧
        t.stores = s.stores ∧ ∀ e, e ∉ es → (∀ z ∈ r.1.parts, z.eng ≠ e) → t.eng e = s.eng e) ∧
      (∀ err, r.2.2 = some err → RunFails (.planRun c) s d (es ++ r.1.parts.map (·.eng)) (runReply x err)))

/-- R124, R214, R305, R321, R325: STREAM_OPEN of a CLOSED stream makes it OPEN with the image of R124 and reports its size
and pages; of a stream whose image moves it waits; a stream that is open otherwise is BAD_PARAM at STREAM. A command that has
to wait, or whose occasion does not hold, changes nothing (log entry 17). Completes: STREAM_OPEN. -/
def Obligations.StreamOpenCreates : Prop :=
  ∀ (c : CmdRef) (s : State) (d : Cmd) (n : Nat) (p : Plot), Turn s c 0x30 d → InPlot s d n p → streamTurn s d = true →
    (∀ q img, mget p.streams d.stream = none → mget p.plans d.handle = some q → planKind q.img = 1 →
      planClash q (openHead d) 32 34 = [] → img = freshImage (openHead d) q.img →
      Done (.streamOpen c) s (s.setPlot n { p with streams := mput p.streams d.stream (newStream d.handle img d.stampAt) }) d
        (Reply.ok (toLe 8 img.length ++ toLe 4 (pagesFor img.length)) [])) ∧
    (∀ x, mget p.streams d.stream = some x → x.moving = false → EndsAs (.streamOpen c) s d (Reply.badParam 2)) ∧
    (∀ x, mget p.streams d.stream = some x → x.moving = true → exec (.streamOpen c) s = .next s)

/-- R214, R307, R325, R326: STREAM_PAUSE marks the stream paused, and the move out of a resident image begins. A feed or
flush of a paused stream is BAD_PARAM with DETAIL32 = 2. STREAM_RESUME clears the mark; with PREFETCH it also moves the image
in, and the mark is cleared once it is resident. A resume of a stream that is not paused is a no-op. All four wait for a move
in progress. A command that has to wait, or whose occasion does not hold, changes nothing (log entry 17). Completes:
STREAM_PAUSE, STREAM_RESUME. -/
def Obligations.StreamPauseAndResume : Prop :=
  ∀ (c : CmdRef) (s : State) (d : Cmd) (n : Nat) (p : Plot) (x : Stream), InPlot s d n p → streamTurn s d = true →
    mget p.streams d.stream = some x →
    (x.moving = true →
      (Turn s c 0x31 d → exec (.streamFeed c) s = .next s) ∧ (Turn s c 0x32 d → exec (.streamFlush c) s = .next s) ∧
      (Turn s c 0x33 d → exec (.streamPause c) s = .next s) ∧ (Turn s c 0x34 d → exec (.streamResume c) s = .next s)) ∧
    (Turn s c 0x33 d → x.moving = false →
      (x.paused = true → Done (.streamPause c) s s d (Reply.ok [] [])) ∧
      (x.paused = false → headDamaged x = false →
        ∀ r, r = (if x.res = .resident then Residency.movingOut else x.res) →
        Done (.streamPause c) s (setStream s n d.stream { x with paused := true, res := r, wanted := none }) d (Reply.ok [] []))) ∧
    (x.moving = false → x.paused = true →
      (Turn s c 0x31 d → EndsAs (.streamFeed c) s d (Reply.badParam 2)) ∧
      (Turn s c 0x32 d → EndsAs (.streamFlush c) s d (Reply.badParam 2))) ∧
    (Turn s c 0x34 d → x.moving = false →
      (x.paused = false → Done (.streamResume c) s s d (Reply.ok [] [])) ∧
      (x.paused = true → headDamaged x = false → (byteAt d.params 0 = 0 ∨ (x.res = .resident ∧ slotsFit s n p = true)) →
        Done (.streamResume c) s (setStream s n d.stream { x with paused := false }) d (Reply.ok [] [])) ∧
      (x.paused = true → x.res = .nonresident → headDamaged x = false → byteAt d.params 0 ≠ 0 → asked s x = true →
        slotsFit s n p = true → ∃ t y, exec (.streamResume c) s = .next t ∧ mget t.plots n = some y ∧
          mget y.streams d.stream = some { x with res := .movingIn, wanted := none }))

/-- R308, R327: STREAM_CLOSE makes the stream CLOSED, and the slots that later commands hold for it are released; while
pending positions remain and DISCARD is 0 it is BAD_PARAM. A command that has to wait, or whose occasion does not hold,
changes nothing (log entry 17). Completes: STREAM_CLOSE. -/
def Obligations.StreamCloseReleases : Prop :=
  ∀ (c : CmdRef) (s : State) (d : Cmd) (n : Nat) (p : Plot) (x : Stream), Turn s c 0x35 d → InPlot s d n p →
    streamTurn s d = true → mget p.streams d.stream = some x →
    (x.moving = true → exec (.streamClose c) s = .next s) ∧
    (x.moving = false → (headOf x.img).pend ≠ 0 → byteAt d.params 0 = 0 → EndsAs (.streamClose c) s d (Reply.badParam 32)) ∧
    (x.moving = false → ¬((headOf x.img).pend ≠ 0 ∧ byteAt d.params 0 = 0) →
      Done (.streamClose c) s
        { s.setPlot n { p with streams := mdel p.streams d.stream } with
          cmds := s.cmds.map fun e =>
            if e.plot == some n && e.namesStream && e.stream == d.stream then { e with shadowSlots := 0 } else e } d (Reply.ok [] []))

/-- R111 to R116, R125, R200, R306: STREAM_FEED and STREAM_FLUSH. A flush of a stream with nothing pending ends OK and
changes nothing. A command whose operands are right, on ready engines that no earlier command of its queue is to use in the
same places, and with its image resident, runs its chunk steps; when they run it ends OK with its result block, its counts
and its outputs, and the image holds the new counters and the positions still pending. Completes: STREAM_FEED, STREAM_FLUSH.
-/
def Obligations.FeedAndFlushRun : Prop :=
  ∀ (c : CmdRef) (s : State) (d : Cmd) (n : Nat) (p : Plot) (x : Stream) (q : Plan) (h : Head), InPlot s d n p →
    streamTurn s d = true → mget p.streams d.stream = some x → x.moving = false → x.paused = false → x.plan = d.handle →
    mget p.plans d.handle = some q → h = headOf x.img →
    (Turn s c 0x32 d → h.pend = 0 → d.payload = [] →
      Done (.streamFlush c) s s d (feedReply Flags.zero 0 d.clock 0 0 h.pos [])) ∧
    (∀ (flush : Bool) (i : Instr) (t steps used : Nat) (es : List Nat), Turn s c (if flush then 0x32 else 0x31) d →
      i = (if flush then .streamFlush c else .streamFeed c) → t = (if flush then 0 else fieldAt d.params 0 4) →
      steps = (if flush then (if h.pend = 0 then 0 else 1) else (h.pend + t) / h.l) → ¬(t = 0 ∧ steps = 0) →
      d.payload.length = t * planX q.img + steps * transientBytes q →
      (∀ j, j < steps → transientOk q (d.payload.drop (t * planX q.img + j * transientBytes q)) = true) →
      tableBlocked s p d = false → feetWait s p d = false → placeParts s p q = some es → x.bad = [] → x.res = .resident →
      d.shadowSlots ≠ 0 → slotsFit s n p = true → (∀ e ∈ es, engineReady s e = true ∧ (s.eng e).slice = none) →
      ∀ y v r, y = runCtx p q d (if steps = 0 then [] else es) h →
      v = prefetchFirst s y (transientImages q ((d.payload.drop (t * planX q.img)).take (transientBytes q))) →
      r = runChunks y flush steps (pendingBytes h q.img x.img ++ d.payload.take (t * planX q.img))
            (d.payload.drop (t * planX q.img)) ⟨startParts v y, x.img⟩ ⟨[], []⟩ →
      used = (if steps = 0 then 0 else if flush then h.pend else steps * h.l) →
      (r.2.2.2 = none → ∃ u z w, exec i s = .next u ∧
        EndedWith u d (feedReply r.2.1.flags r.2.1.lost d.clock steps used r.1.head.pos r.2.2.1.block) ∧
        mget u.plots n = some z ∧ mget z.streams d.stream = some w ∧ z.epochs = p.epochs + steps ∧
        w.paused = false ∧ w.plan = x.plan ∧ w.res = x.res ∧
        w.img = rebuild { r.1.head with pend := h.pend + t - used } q.img r.2.1.img
          ((pendingBytes h q.img x.img ++ d.payload.take (t * planX q.img)).drop (used * planX q.img))) ∧
      (∀ err, r.2.2.2 = some err → RunFails i s d (es ++ r.2.1.parts.map (·.eng)) (runReply y err)))

/-- R328, R331, R434, R435: STREAM_EXPORT with a key set and the counter within its reservation makes the blob of the image
under the next counter value as a tensor and CLOSES the stream; without a key, or with no reservation write left, it is
AUTH_FAIL; otherwise it waits for the reservation. NVS_RESERVATION_WRITE raises the reservation by 4096, or the export ends
CONTROL_FAULT. A command that has to wait, or whose occasion does not hold, changes nothing (log entry 17). Completes:
STREAM_EXPORT, NVS_RESERVATION_WRITE. -/
def Obligations.StreamExportAndItsCounter : Prop :=
  (∀ (c : CmdRef) (s : State) (d : Cmd) (n : Nat) (p : Plot) (x : Stream) (q : Plan), Turn s c 0x36 d → InPlot s d n p →
    streamTurn s d = true → mget p.streams d.stream = some x → x.moving = false → mget p.plans x.plan = some q →
    (p.key = none → EndsAs (.streamExport c) s d (Reply.bare .authFail)) ∧
    (∀ key, p.key = some key → s.stores.limit < s.expCtr + 1 →
      (s.stores.writesLeft = 0 → EndsAs (.streamExport c) s d (Reply.bare .authFail)) ∧
      (s.stores.writesLeft ≠ 0 → s.nvsWait = none → exec (.streamExport c) s = .next { s with nvsWait := some d.acc })) ∧
    (∀ key blob, p.key = some key → s.expCtr + 1 ≤ s.stores.limit → x.bad = [] → pagesFor (x.img.length + 80) ≤ d.pages →
      blob = blobOf key q.img x.img (s.expCtr + 1) s.stores.serial →
      Done (.streamExport c) s
        { s.setPlot n { p with tensors := mput p.tensors d.handle (rawTensor 0 blob d.stampAt), streams := mdel p.streams d.stream } with
          cmds := s.cmds.map fun e =>
            if e.plot == some n && e.namesStream && e.stream == d.stream then { e with shadowSlots := 0 } else e
          expCtr := s.expCtr + 1 } d (Reply.ok (toLe 8 blob.length ++ toLe 8 (s.expCtr + 1)) []))) ∧
  (∀ (s : State) (a : Nat), s.alive = true → s.nvsWait = some a →
    (∃ r, exec (.nvsReservationWrite true) s = .next { s with nvsWait := none, stores := r } ∧
      r = { s.stores with reservation := r.reservation, writesLeft := s.stores.writesLeft - 1 } ∧
      r.limit = s.stores.limit + 4096) ∧
    ∀ d, s.cmds.find? (fun e => e.acc == a) = some d → EndsFrom (.nvsReservationWrite false) s { s with nvsWait := none } d (Reply.bare .controlFault))

/-- R333 to R335: STREAM_IMPORT of an undamaged blob whose seal opens under the plot's key makes the stream OPEN with the
image that the blob holds; a blob whose seal does not open is AUTH_FAIL. Of a stream whose image moves it waits, and a stream
that is open otherwise is BAD_PARAM at STREAM. A command that has to wait, or whose occasion does not hold, changes nothing
(log entry 17). Completes: STREAM_IMPORT. -/
def Obligations.StreamImportOpensTheBlob : Prop :=
  ∀ (c : CmdRef) (s : State) (d : Cmd) (n : Nat) (p : Plot), Turn s c 0x37 d → InPlot s d n p → streamTurn s d = true →
    (∀ x, mget p.streams d.stream = some x → x.moving = false → EndsAs (.streamImport c) s d (Reply.badParam 2)) ∧
    (∀ x, mget p.streams d.stream = some x → x.moving = true → exec (.streamImport c) s = .next s) ∧
    (∀ t q key size ctr serial, mget p.streams d.stream = none → d.pages ≠ 0 → mget p.tensors d.handle = some t → t.bad = [] →
      mget p.plans (fieldAt d.params 0 4) = some q → p.key = some key → size = fieldAt t.img 24 8 → ctr = fieldAt t.img 8 8 →
      serial = fieldAt t.img 16 8 →
      ∀ o, o = gcmOpen (blobKey key serial ctr) (blobIv ctr) (t.img.take 64) (slice t.img 64 size) (slice t.img (64 + size) 16) →
      (o = none → EndsAs (.streamImport c) s d (Reply.bare .authFail)) ∧
      (∀ img, o = some img → importHeadOk q img = true →
        Done (.streamImport c) s
          (s.setPlot n { p with streams := mput p.streams d.stream (newStream (fieldAt d.params 0 4) img d.stampAt) }) d
          (Reply.ok (toLe 8 size ++ toLe 8 ctr ++ toLe 8 serial ++ toLe 4 (pagesFor size)) [])))

/-- R217, R358: MOVE_COMMIT ends the move of an image at one instant: an image moving in is resident, one moving out that no
command wants is not, and its bytes stay; after four failed copies of a block it is where it was, and the command that needed
it ends DATAPATH_FAULT. The command that a failed move ends is log entry 38's. A command that has to wait, or whose occasion
does not hold, changes nothing (log entry 17). Completes: MOVE_COMMIT. -/
def Obligations.MoveCommitEndsTheMove : Prop :=
  ∀ (a : Fin 6) (st : Nat) (s : State) (p : Plot) (x : Stream), mget s.plots a.val = some p → mget p.streams st = some x →
    s.gatehouseUp = true → s.hbmUp = true → s.secure.moverHalted = false →
    (x.res = .movingIn ∨ (x.res = .movingOut ∧ asked s x = false) → ∃ t y z, exec (.moveCommit a st true) s = .next t ∧
      mget t.plots a.val = some y ∧ mget y.streams st = some z ∧ z.img = x.img ∧ z.paused = x.paused ∧
      z.res = (if x.res = .movingIn then Residency.resident else .nonresident)) ∧
    (x.moving = true → ∀ d, moveUser s a.val st (x.res == .movingOut) = some d →
      ∃ t y z, exec (.moveCommit a st false) s = .next t ∧ EndedWith t d (Reply.bare .datapathFault) ∧
        mget t.plots a.val = some y ∧ mget y.streams st = some z ∧ z.img = x.img ∧
        z.res = (if x.res = .movingIn then Residency.nonresident else .resident)) ∧
    (x.moving = false → ∀ b, exec (.moveCommit a st b) s = .next s)

/-- R279, R310 to R313: the seven direct operations. One whose destinations are empty ends OK with a result block of zeros
and changes nothing; it waits while an earlier DESC_INVALIDATE of its tables has not committed, or an earlier command of its
queue has a footprint that meets its own (R200); with no engine in service it is DATAPATH_FAULT. On a ready engine it fills
its inputs, runs and packs its outputs: it ends with its result block and outputs, its engine's scratchpad holds the bytes
the run left, drained of what was buffered, and no other engine changes; damaged inputs in HBM, a faulting gather and a run
that fails end with their status. Placement, and the status when no engine is in service, are log entries 29 and 30. A
command that has to wait, or whose occasion does not hold, changes nothing (log entry 17). Completes: OP_MATMUL, OP_VECTOR,
OP_SCAN, OP_SELECT, OP_GATHER, OP_CONVERT, OP_RMSNORM. -/
def Obligations.DirectOperationsRun : Prop :=
  ∀ (i : CmdRef → Instr) (op : Nat), (i, op) ∈ [(Instr.opMatmul, 0x40), (.opVector, 0x41), (.opScan, 0x42), (.opSelect, 0x43),
      (.opGather, 0x44), (.opConvert, 0x45), (.opRmsnorm, 0x46)] →
  ∀ (c : CmdRef) (s : State) (d : Cmd) (n : Nat) (p : Plot), Turn s c op d → InPlot s d n p →
    (directNoop op d.params = true → ∃ r, r.status = .ok ∧ r.payload = [] ∧ r.block.take 16 = resultBlock Flags.zero 0 0 ∧
      Done (i c) s s d r) ∧
    (directNoop op d.params = false → tableBlocked s p d = true ∨ feetWait s p d = true → exec (i c) s = .next s) ∧
    (directNoop op d.params = false → tableBlocked s p d = false → feetWait s p d = false → dirEngine s p d = none →
      EndsAs (i c) s d (Reply.bare .datapathFault)) ∧
    (directNoop op d.params = false → tableBlocked s p d = false → feetWait s p d = false → ∀ e k, dirEngine s p d = some e →
      engineReady s e = true → (s.eng e).slice = none → k = { d with placed := [e] } →
      (∀ h a, dirFill p k (dirTable d.params) (dirBinds d.params) (dirStart s p k e) = .error (h, a) →
        RunFails (i c) s d [] (Reply.bare .uncorrectableData)) ∧
      ∀ x, dirFill p k (dirTable d.params) (dirBinds d.params) (dirStart s p k e) = .ok x →
      (∀ o y out z, directOn p k (dirTable d.params) x = some (.ok o, y) → (∀ a b, o = .gather a b true → b = 0) →
        dirPack (dirTable d.params) (dirBinds d.params) ⟨[], []⟩ y = (.ok out, z) →
        ∃ t, exec (i c) s = .next t ∧ EndedWith t d (dirReply z.st o out.block) ∧ (t.eng e).spad.mem = (drainOp z.st).sp.mem ∧
          ∀ g, g ≠ e → t.eng g = s.eng g) ∧
      (∀ a b y, directOn p k (dirTable d.params) x = some (.ok (.gather a b true), y) → b ≠ 0 →
        ∃ t, exec (i c) s = .next t ∧ EndedWith t d (errReply (.gatherFault a b)) ∧ t.stores = s.stores ∧
          ∀ g, g ≠ e → t.eng g = s.eng g) ∧
      (∀ err y, directOn p k (dirTable d.params) x = some (.error err, y) → RunFails (i c) s d [e, byteAt d.params 0] (errReply err)))

/-- R274, R281, R316, R317: the queue commands of a function's ring. QUEUE_CREATE makes an ACTIVE queue at the parameters'
first sequence number; a number in use or beyond the allotment is BAD_PARAM at 32. QUEUE_DELETE waits until the queue is
quiet, and then the queue is gone. QUEUE_RESUME makes a HALTED queue ACTIVE at the same E; a queue that is not HALTED is
BAD_PARAM at 32. A command that has to wait, or whose occasion does not hold, changes nothing (log entry 17). Completes:
QUEUE_CREATE, QUEUE_DELETE, QUEUE_RESUME. -/
def Obligations.QueueCommands : Prop :=
  ∀ (c : CmdRef) (s : State) (d : Cmd) (f : FuncId) (q₀ q : Nat), d.src = .ring f q₀ → q = fieldAt d.params 0 2 →
    (Turn s c 0x60 d →
      (s.allot f ≤ q ∨ (mget (s.fn f).queues q).isSome = true → EndsAs (.queueCreate c) s d (Reply.badParam 32)) ∧
      (q < s.allot f → mget (s.fn f).queues q = none → queuesInUse s < 2048 → ∃ x, x.e = fieldAt d.params 40 8 ∧
        x.qstate = .active ∧ x.sqHead = 0 ∧ x.sqTail = 0 ∧ x.sqBase = fieldAt d.params 8 8 ∧ x.sqSize = fieldAt d.params 16 4 ∧
        Done (.queueCreate c) s (s.modFn f fun y => { y with queues := mput y.queues q x }) d (Reply.ok [] []))) ∧
    (Turn s c 0x61 d →
      (s.queue (.ring f q) = none → EndsAs (.queueDelete c) s d (Reply.badParam 32)) ∧
      (∀ x u, s.queue (.ring f q) = some x → u = (if x.closing then s else beginDelete s f q) →
        (queueQuiet u (.ring f q) = false → exec (.queueDelete c) s = .next u) ∧
        (queueQuiet u (.ring f q) = true →
          Done (.queueDelete c) s (u.modFn f fun y => { y with queues := mdel y.queues q }) d (Reply.ok [] [])))) ∧
    (Turn s c 0x62 d →
      (∀ x, s.queue (.ring f q) = some x → x.qstate = .halted → ∃ t y, exec (.queueResume c) s = .next t ∧
        EndedWith t d (Reply.ok [] []) ∧ t.queue (.ring f q) = some y ∧ y.core = x.core ∧ (q ≠ q₀ → y.qstate = .active)) ∧
      (∀ x, s.queue (.ring f q) = some x → x.qstate ≠ .halted → EndsAs (.queueResume c) s d (Reply.badParam 32)) ∧
      (s.queue (.ring f q) = none → EndsAs (.queueResume c) s d (Reply.badParam 32)))

/-- R318, R433: KEY_SET. A record of the function's session that opens is spent, whatever becomes of the command. With the
data of R433 and the command's own sequence number it sets or clears the key of the plot; otherwise, and when no session or
record opens, it is AUTH_FAIL and the keys stay. Completes: KEY_SET. -/
def Obligations.KeySetNeedsItsRecord : Prop :=
  ∀ (c : CmdRef) (s : State) (d : Cmd) (f : FuncId) (q : Nat) (n : Nat) (p : Plot), Turn s c 0x63 d → d.src = .ring f q →
    InPlot s d n p → fieldAt d.params 4 4 = d.payload.length →
    (keySession s f (fieldAt d.params 0 4) = none → EndsAs (.keySet c) s d (Reply.bare .authFail)) ∧
    (∀ k x, keySession s f (fieldAt d.params 0 4) = some (k, x) → doeHeaderOk d.payload = true →
      (openRecord x d.payload = none → ∃ t, exec (.keySet c) s = .next t ∧ EndedWith t d (Reply.bare .authFail) ∧
        t.sessions = s.sessions ∧ ∀ m, (mget t.plots m).map (·.key) = (mget s.plots m).map (·.key)) ∧
      (∀ b, openRecord x d.payload = some b → ∀ y, y = mput s.sessions k { x with seq := (x.seq + 1) % 2 ^ 64 } →
        (keyDataOk b (d.seqs.getLastD 0) = true →
          Done (.keySet c) s ({ s with sessions := y }.setPlot n { p with key := keyOf b }) d (Reply.ok [] [])) ∧
        (keyDataOk b (d.seqs.getLastD 0) = false → ∃ t, exec (.keySet c) s = .next t ∧
          EndedWith t d (Reply.bare .authFail) ∧ t.sessions = y ∧
          ∀ m, (mget t.plots m).map (·.key) = (mget s.plots m).map (·.key))))

/-- R319, R343 to R345: a PLOT_CONFIG that passes the checks of R344 makes the plot of its parameters, empty, and clears the
scratchpads of its engines; the first check that fails gives its status, and no plot changes. Completes: PLOT_CONFIG. -/
def Obligations.PlotConfigMakesThePlot : Prop :=
  ∀ (c : CmdRef) (s : State) (d : Cmd), Turn s c 0x70 d → ¬(s.secure.level = .invasive ∧ s.stores.life = .field) →
    (∀ o, minOff (configBad s d.params) = some o → EndsAs (.plotConfig c) s d (Reply.badParam o)) ∧
    (configBad s d.params = [] → (∀ r, configShort s d.params = some r → EndsAs (.plotConfig c) s d (Reply.noSpace r)) ∧
      (configShort s d.params = none → s.zeroedFree < fieldAt d.params 4 4 →
        EndsAs (.plotConfig c) s d (Reply.bare .pagesScrubbing)) ∧
      (configShort s d.params = none → fieldAt d.params 4 4 ≤ s.zeroedFree → ∃ t p, exec (.plotConfig c) s = .next t ∧
        EndedWith t d (Reply.ok [] []) ∧ mget t.plots (byteAt d.params 0) = some p ∧ p.slots = fieldAt d.params 2 2 ∧
        p.quota = fieldAt d.params 4 4 ∧ p.queues = fieldAt d.params 8 2 ∧ p.streamFirst = fieldAt d.params 10 2 ∧
        p.streamCount = fieldAt d.params 12 2 ∧ p.tensors = [] ∧ p.plans = [] ∧ p.streams = [] ∧ p.scalars = [] ∧ p.key = none ∧
        (∀ m, m ≠ byteAt d.params 0 → mget t.plots m = mget s.plots m) ∧
        ∀ e, e < 6 → bitOf p.engmask e = true → (t.eng e).spad.mem = []))

/-- R351, R353: PLOT_RELEASE of no plot is BAD_PARAM at 32. Otherwise the plot stops, and while it is not drained nothing
more happens; then it is gone, no other plot changes, and all its pages wait to be zeroed. PAGE_ZEROING_DONE makes one of
them free. A command that has to wait, or whose occasion does not hold, changes nothing (log entry 17). Completes:
PLOT_RELEASE, PAGE_ZEROING_DONE. -/
def Obligations.PlotReleaseAndZeroing : Prop :=
  (∀ (c : CmdRef) (s : State) (d : Cmd), Turn s c 0x71 d →
    (mget s.plots (byteAt d.params 0) = none → EndsAs (.plotRelease c) s d (Reply.badParam 32)) ∧
    (∀ p u, mget s.plots (byteAt d.params 0) = some p → u = (if p.releasing.isSome then s else beginRelease s (byteAt d.params 0) d.acc) →
      (plotDrained u d (byteAt d.params 0) p = false → exec (.plotRelease c) s = .next u) ∧
      (plotDrained u d (byteAt d.params 0) p = true → ∃ t, exec (.plotRelease c) s = .next t ∧
        EndedWith t d (Reply.ok [] []) ∧ t.plots = mdel u.plots (byteAt d.params 0) ∧
        t.devZeroing = u.devZeroing + p.quota))) ∧
  (∀ (s : State), zeroingRuns s = true →
    exec (.pageZeroingDone .device) s = .next { s with devZeroing := s.devZeroing - 1 } ∧
    ∀ (a : Fin 6) (p : Plot), mget s.plots a.val = some p →
      exec (.pageZeroingDone (.plot a)) s = .next (s.setPlot a.val { p with zeroing := p.zeroing - 1 }))

/-- R93 to R97, R248: the WFU issues the next entry of its schedule once the plan step lets it, its buffer is empty and fewer
than 16 entries are outstanding, and otherwise not. A completed entry's bytes stand in its buffer and its slots are full;
every other byte keeps its value. A command that has to wait, or whose occasion does not hold, changes nothing (log entry
17). Completes: WFU_PREFETCH_ISSUE, WFU_ENTRY_COMPLETE. -/
def Obligations.PrefetchFillsItsBuffer : Prop :=
  (∀ (e : Fin 6) (s : State) (w : Wfu) (p : PfEntry), unitsRun s e.val = true → s.hbmUp = true → (s.eng e.val).wfu = w →
    w.sched[w.nextEntry]? = some p →
    (p.issueStep ≤ w.step ∧ bufferEmpty (s.eng e.val) p = true ∧ w.inFlight.length < 16 →
      exec (.wfuPrefetchIssue e) s = .next ((atWork s e.val).modEng e.val fun x => { x with
        wfu := { w with sched := w.sched.set w.nextEntry { p with issued := true }, nextEntry := w.nextEntry + 1 } })) ∧
    (w.step < p.issueStep ∨ bufferEmpty (s.eng e.val) p = false ∨ 16 ≤ w.inFlight.length →
      exec (.wfuPrefetchIssue e) s = .next s)) ∧
  (∀ (e : Fin 6) (i : Nat) (s : State) (p : PfEntry), unitsRun s e.val = true → s.hbmUp = true →
    (s.eng e.val).wfu.sched[i]? = some p → p.issued = true → p.done = false → (s.eng e.val).spad.mem.wf = true →
    ∃ t, exec (.wfuEntryComplete e i) s = .next t ∧ t.cmds = s.cmds ∧
      (t.eng e.val).wfu.sched = (s.eng e.val).wfu.sched.set i { p with done := true } ∧
      (t.eng e.val).spad.tagsAre true p.slotFirst p.slotCount = true ∧
      (∀ k b, p.bytes[k]? = some b → (t.eng e.val).spad.mem.read (p.addr + k) = b) ∧
      (∀ a, a < p.addr ∨ p.addr + p.bytes.length ≤ a →
        (t.eng e.val).spad.mem.read a = (s.eng e.val).spad.mem.read a) ∧
      ∀ j, j ≠ e.val → t.eng j = s.eng j)

/-- R192 to R198, R207: an operation of a plan epoch whose acquires are met proceeds when it arrives, and otherwise waits
until they are; one that proceeded completes with its releases, and either is progress of its epoch. A barrier completes when
no operation of its epoch in its units waits, and empties the combining buffer. An acquire of an epoch that waits 2^22 cycles
without progress ends the epoch's command SLOT_TIMEOUT. The life of an operation and the units of a command are log entries
51 and 69. A command that has to wait, or whose occasion does not hold, changes nothing (log entry 17). Completes:
TAG_ACQUIRE, DESCRIPTOR_BARRIER, SLOT_TIMEOUT. -/
def Obligations.TagsOrderTheUnits : Prop :=
  (∀ (e : Fin 6) (u : EUnit) (id : Nat) (acts : List TagAct) (c : CmdRef) (s : State) (d : Cmd), unitsRun s e.val = true →
    actsOk acts = true → epochCmd s e.val c = some d →
    (findOp (s.eng e.val) d.acc u id = none →
      (acquiresMet (s.eng e.val).spad acts = true → exec (.tagAcquire e u ⟨id, c⟩ acts) s = .next ((atWork s e.val).modEng e.val fun x =>
        { x with ops := x.ops ++ [⟨d.acc, id, u, acts, true⟩], stuck := mdel x.stuck d.acc })) ∧
      (acquiresMet (s.eng e.val).spad acts = false → exec (.tagAcquire e u ⟨id, c⟩ acts) s = .next ((atWork s e.val).modEng e.val fun x =>
        { x with ops := x.ops ++ [⟨d.acc, id, u, acts, false⟩] }))) ∧
    (∀ o, findOp (s.eng e.val) d.acc u id = some o →
      (o.started = true → exec (.tagAcquire e u ⟨id, c⟩ acts) s = .next ((atWork s e.val).modEng e.val fun x =>
        { x with ops := x.ops.filter fun q => !o.same q, spad := releaseTags x.spad o.acts, stuck := mdel x.stuck d.acc })) ∧
      (o.started = false → acquiresMet (s.eng e.val).spad o.acts = true →
        exec (.tagAcquire e u ⟨id, c⟩ acts) s = .next ((atWork s e.val).modEng e.val fun x =>
          { x with ops := x.ops.map fun q => if o.same q then { q with started := true } else q, stuck := mdel x.stuck d.acc })) ∧
      (o.started = false → acquiresMet (s.eng e.val).spad o.acts = false → ∃ t, exec (.tagAcquire e u ⟨id, c⟩ acts) s = .next t ∧
        (t.eng e.val).ops = (s.eng e.val).ops ∧ (t.eng e.val).spad = (s.eng e.val).spad ∧
        (t.eng e.val).stuck = (s.eng e.val).stuck))) ∧
  (∀ (e : Fin 6) (units : BitVec 5) (c : CmdRef) (s : State) (d : Cmd), unitsRun s e.val = true → epochCmd s e.val c = some d →
    ((∃ o ∈ (s.eng e.val).ops, o.acc = d.acc ∧ covered units o.unit = true ∧ o.started = false) →
      exec (.descriptorBarrier e ⟨units, c⟩) s = .next s) ∧
    ((∀ o ∈ (s.eng e.val).ops, o.acc = d.acc → covered units o.unit = true → o.started = true) →
      ∃ t, exec (.descriptorBarrier e ⟨units, c⟩) s = .next t ∧ t.cmds = s.cmds ∧ (t.eng e.val).spad.comb = [] ∧
        (t.eng e.val).ops = (s.eng e.val).ops.filter fun o => !(o.acc == d.acc && covered units o.unit))) ∧
  (∀ (e : Fin 6) (c : CmdRef) (s : State) (d : Cmd), s.restart = none → epochCmd s e.val c = some d →
    ((mget (s.eng e.val).stuck d.acc).getD 0 < 2 ^ 22 → exec (.slotTimeout ⟨e, c⟩) s = .next s) ∧
    (2 ^ 22 ≤ (mget (s.eng e.val).stuck d.acc).getD 0 → (∃ o ∈ (s.eng e.val).ops, o.acc = d.acc ∧ o.started = false) →
      EndsFrom (.slotTimeout ⟨e, c⟩) s (emptyEpoch (endWork s d) e.val d) d (Reply.bare .slotTimeout)))

/-- R183, R185, R186, R211, R212: a store writes its bytes and no others; a read of undamaged bytes changes nothing, and one
of damaged bytes ends its command UNCORRECTABLE_DATA. An access or a pass that names an address beyond 0x013F_FFFF stops the
run. R87, R88, R90, R102: a pass that nothing holds leaves its accumulators in its bank and the scratchpad as its drain or
spill leaves it; over a scratchpad whose errors SECDED corrects it always does. A pass that waits for a weight, an operand, a
drain or the clock counts a stall. That such a run stops is the model's choice (log entry 68). A command that has to wait, or
whose occasion does not hold, changes nothing (log entry 17). Completes: SCRATCHPAD_ACCESS, MA_PASS. -/
def Obligations.ScratchpadAccesses : Prop :=
  (∀ (e : Fin 6) (bs : List (Nat × Byte)) (c : Option CmdRef) (upset : List (Nat × GState)) (s : State),
    unitsRun s e.val = true → (s.eng e.val).spad.mem.wf = true → (∀ b ∈ bs, b.1 < spadSize) → (bs.map (·.1)).Nodup →
    ∃ t, exec (.scratchpadAccess e (.write bs false) c upset) s = .next t ∧ t.cmds = s.cmds ∧
      (t.eng e.val).spad.mem.wf = true ∧ (∀ b ∈ bs, (t.eng e.val).spad.mem.read b.1 = b.2) ∧
      (∀ a, a ∉ bs.map (·.1) → (t.eng e.val).spad.mem.read a = (s.eng e.val).spad.mem.read a) ∧
      ∀ j, j ≠ e.val → t.eng j = s.eng j) ∧
  (∀ (e : Fin 6) (a n : Nat) (c : Option CmdRef) (s : State), unitsRun s e.val = true → a + n ≤ spadSize →
    ((s.eng e.val).spad.gran = [] → ∃ t, exec (.scratchpadAccess e (.read a n) c []) s = .next t ∧ t.cmds = s.cmds ∧
      (t.eng e.val).spad = (s.eng e.val).spad ∧ t.devLog = s.devLog) ∧
    (∀ r d b p w, c = some r → s.cmd r = some d → onHolder s e.val d = true → (s.eng e.val).spad.read a n = .bad b p w →
      isDirect d.opcode = false →
      ∃ t, exec (.scratchpadAccess e (.read a n) c []) s = .next t ∧ EndedWith t d (Reply.bare .uncorrectableData))) ∧
  (∀ (e : Fin 6) (a n : Nat) (c : Option CmdRef) (upset : List (Nat × GState)) (s : State), 0 < n → spadSize < a + n →
    exec (.scratchpadAccess e (.read a n) c upset) s = .fault (.scratchpadAddress (max a spadSize))) ∧
  (∀ (e : Fin 6) (p : PassDesc) (a : Nat) (s : State), beyondSpad (passSpans p) = some a →
    exec (.maPass e p) s = .fault (.scratchpadAddress a)) ∧
  (∀ (e : Fin 6) (d : PassDesc) (s : State) (w : Cmd) (n : Nat) (q : Plot) (p : MaPass),
    beyondSpad (passSpans d) = none → workCmd s e.val d.cmd = some w → s.holder e.val = some n → mget s.plots n = some q →
    passOf q (s.eng e.val) d = some p →
    (unitsRun s e.val = true → ∀ k, p.stall s (s.eng e.val) = some k → exec (.maPass e d) s = .next (countStall s e.val k)) ∧
    (unitsRun s e.val = false → clockHeld s e.val = true → exec (.maPass e d) s = .next (countStall s e.val .clock)) ∧
    (unitsRun s e.val = true → p.stall s (s.eng e.val) = none →
      (∀ g ∈ (s.eng e.val).spad.gran, g.2 = GState.correctable) → ∃ t rows,
        (p.run (scalarsOf (s.eng e.val) q w) (opStart (s.eng e.val).spad)).1 = .ok rows ∧ exec (.maPass e d) s = .next t ∧
        t.cmds = s.cmds ∧ ((t.eng e.val).bank d.bank).vals = p.entries rows ∧
        ((t.eng e.val).bank (!d.bank)) = ((s.eng e.val).bank (!d.bank)) ∧
        (t.eng e.val).spad = (p.run (scalarsOf (s.eng e.val) q w) (opStart (s.eng e.val).spad)).2.sp) ∧
    (unitsRun s e.val = true → p.stall s (s.eng e.val) = none → isDirect w.opcode = false → ∀ err,
      (p.run (scalarsOf (s.eng e.val) q w) (opStart (s.eng e.val).spad)).1 = .error err → ∃ t, exec (.maPass e d) s = .next t ∧
        EndedWith t w (errReply (weightErr (s.eng e.val).wfu err))))

/-- R187, R188, R381 to R384: the scrub reads the next 32 blocks of a bank; it changes no byte, and leaves no correctable or
uncorrectable granule in them. A sweep that is due does as much for the whole array and sets when it last ran and when the
next falls due; one that is not due does nothing. The sweep of the retention records rewrites every failing copy from the
good one. A command that has to wait, or whose occasion does not hold, changes nothing (log entry 17). Completes: SCRUB_ACCESS,
SP_PATROL_SWEEP, GH_PATROL_SWEEP, HBM_PATROL_SWEEP, LODGE_PATROL_SWEEP. -/
def Obligations.PatrolCorrectsAndPoisons : Prop :=
  (∀ (e : Fin 6) (bank : Fin 40) (upset : List (Nat × GState)) (s : State) (pos : Nat), keeperOn s 0 = true →
    eclkRuns s e.val = true → (mget (s.eng e.val).scrub bank.val).getD 0 = pos → mwf (s.eng e.val).spad.gran = true →
    ∃ t, exec (.scrubAccess e bank upset) s = .next t ∧ t.cmds = s.cmds ∧
      (t.eng e.val).spad.mem = (s.eng e.val).spad.mem ∧ (t.eng e.val).spad.full = (s.eng e.val).spad.full ∧
      mget (t.eng e.val).scrub bank.val = some ((pos + 1) % 256) ∧
      ∀ g, bank.val * 524288 + pos * 2048 ≤ 16 * g → 16 * g < bank.val * 524288 + pos * 2048 + 2048 →
        mget (t.eng e.val).spad.gran g = none ∨ mget (t.eng e.val).spad.gran g = some .poisoned) ∧
  (∀ (e : Fin 6) (s : State), keeperOn s 0 = true → (s.eng e.val).failed = false → s.power.hold = false →
    (s.lclk < (s.eng e.val).sweepNext → exec (.spPatrolSweep e) s = .next s) ∧
    ((s.eng e.val).sweepNext ≤ s.lclk → mwf (s.eng e.val).spad.gran = true →
      ∃ t, exec (.spPatrolSweep e) s = .next t ∧ t.cmds = s.cmds ∧ (t.eng e.val).power = (s.eng e.val).power ∧
        (t.eng e.val).spad.mem = (s.eng e.val).spad.mem ∧ (t.eng e.val).sweepStart = s.lclk ∧
        (t.eng e.val).sweepNext = s.lclk + msec 32 ∧
        ∀ g, 16 * g < spadSize →
          mget (t.eng e.val).spad.gran g = none ∨ mget (t.eng e.val).spad.gran g = some .poisoned)) ∧
  (∀ (found : List Found) (s : State), keeperOn s 1 = true → s.keeper.ghNext ≤ s.lclk →
    ∃ t, exec (.ghPatrolSweep found) s = .next t ∧ t.keeper.ghSweep = s.lclk ∧ t.keeper.ghNext = s.lclk + msec 32 ∧
      t.cmds = s.cmds ∧ t.engines = s.engines) ∧
  (∀ (found : List Found) (behind : Bool) (s : State), keeperOn s 2 = true → s.hbmUp = true → s.keeper.hbmNext ≤ s.lclk →
    ∃ t, exec (.hbmPatrolSweep found behind) s = .next t ∧ t.keeper.hbmSweep = s.keeper.hbmNext ∧
      t.keeper.hbmNext = max s.lclk (s.keeper.hbmNext + msec 16000) ∧ t.keeper.catchup = behind ∧ t.cmds = s.cmds ∧ t.engines = s.engines) ∧
  (∀ s : State, keeperRuns s = true →
    (s.lclk < s.keeper.lodgeNext → exec .lodgePatrolSweep s = .next s) ∧
    (s.keeper.lodgeNext ≤ s.lclk → exec .lodgePatrolSweep s =
      .next { s with keeper := { s.keeper with lodgeBad := [], lodgeSweep := s.lclk, lodgeNext := s.lclk + msec 1000 } }))

/-- R387 to R392: an opportunistic slice begins on an engine idle for 50 µs whose timer has reached 150 ms, at most two at a
time; at 245 ms a forced slice is due, and it begins at the chunk boundary, ending an opportunistic slice. A slice runs at
1.0 GHz, or the ceiling below it. One that passes after its 200,000 cycles restarts the timer, and one that fails makes the
engine FAILED. A calibration that is due is recorded with the stack's temperature, at a window or once it has been due for 4
ms, and one without valid timing takes the stack out of access. What is counted is log entry 58's, the clock after a slice
log entry 87's and a window log entry 89's. A command that has to wait, or whose occasion does not hold, changes nothing (log
entry 17). Completes: OPPORTUNISTIC_SLICE, FORCED_SLICE_DUE, FORCED_SLICE_START, SLICE_COMPLETE, HBM_CALIBRATION,
CALIBRATION_WINDOW_TIMEOUT. -/
def Obligations.SlicesAndCalibration : Prop :=
  (∀ (e : Fin 6) (s : State), keeperOn s 3 = true → (s.eng e.val).failed = false → s.power.hold = false →
    (s.eng e.val).slice = none →
    ((s.eng e.val).sliceTimer + msec 150 ≤ s.lclk → (s.eng e.val).ops = [] → (s.eng e.val).scalars = [] →
      (s.eng e.val).wfu.outstanding = false → (s.eng e.val).isWaking = false → (s.eng e.val).idleSince + usec 50 ≤ s.lclk → oppCount s < 2 →
      exec (.opportunisticSlice e) s = .next (s.setEng e.val { s.eng e.val with
        slice := some ⟨.opportunistic, s.lclk, 0⟩, power := .running, relock := none, eclk := min 10 s.power.ceiling })) ∧
    (2 ≤ oppCount s → exec (.opportunisticSlice e) s = .next s)) ∧
  (∀ (e : Fin 6) (s : State), keeperOn s 3 = true → (s.eng e.val).failed = false → (s.eng e.val).overdue = false →
    (s.eng e.val).sliceTimer + msec 245 ≤ s.lclk →
    exec (.forcedSliceDue e) s = .next (s.setEng e.val { s.eng e.val with overdue := true })) ∧
  (∀ (e : Fin 6) (s : State), keeperOn s 3 = true → (s.eng e.val).failed = false → (s.eng e.val).overdue = true →
    s.power.hold = false → (s.eng e.val).scalars = [] →
    ((s.eng e.val).ops ≠ [] → exec (.forcedSliceStart e) s = .next s) ∧
    ((s.eng e.val).ops = [] → ((s.eng e.val).slice = none ∨ ∃ n k, (s.eng e.val).slice = some ⟨.opportunistic, n, k⟩) →
      ∃ t, exec (.forcedSliceStart e) s = .next t ∧ (t.eng e.val).slice = some ⟨.forced, s.lclk, 0⟩ ∧
        (t.eng e.val).power = .running ∧ (t.eng e.val).eclk = min 10 s.power.ceiling ∧ t.cmds = s.cmds)) ∧
  (∀ (e : Fin 6) (pass : Bool) (s : State) (sl : Slice), s.alive = true → s.power.hold = false →
    (s.eng e.val).slice = some sl → sl.kind ≠ .bringUp → (s.eng e.val).failed = false →
    (sl.cycles < 200000 → exec (.sliceComplete e pass) s = .next s) ∧
    (200000 ≤ sl.cycles → ∃ t, exec (.sliceComplete e pass) s = .next t ∧ t.cmds = s.cmds ∧
      (t.eng e.val).slice = none ∧ t.keeper.slices = min 65535 (s.keeper.slices + 1) ∧
      (pass = true → (t.eng e.val).sliceTimer = s.lclk ∧ (t.eng e.val).overdue = false ∧ t.devLog = s.devLog) ∧
      (pass = false → (t.eng e.val).failed = true ∧ t.keeper.failed = min 65535 (s.keeper.failed + 1) ∧
        t.devLog = (s.devLog.add 256 { deviceEvent 0x0008 2 e.val 0 0 with time := s.timeMs }).1))) ∧
  (∀ (i : Fin 4) (ch : Fin 16) (valid : Bool) (s t : State), keeperRuns s = true → s.stack i.val = .ready →
    t = { s with keeper := { s.keeper with
      calib := mput s.keeper.calib (16 * i.val + ch.val) (s.lclk, s.sensors.hbm i.val),
      calibDue := mdel s.keeper.calibDue (16 * i.val + ch.val) } } →
    (mget s.keeper.calib (16 * i.val + ch.val) = none →
      exec (.hbmCalibration i ch valid) s = .next (if valid then t else t.setStack i.val .relocking)) ∧
    (∀ t₀ c, mget s.keeper.calib (16 * i.val + ch.val) = some (t₀, c) →
      (t₀ + msec 32 ≤ s.lclk ∨ c + 5 ≤ s.sensors.hbm i.val ∨ s.sensors.hbm i.val + 5 ≤ c →
        exec (.hbmCalibration i ch valid) s = .next (if valid then t else t.setStack i.val .relocking)) ∧
      (s.lclk < t₀ + msec 32 → s.sensors.hbm i.val < c + 5 → c < s.sensors.hbm i.val + 5 →
        exec (.hbmCalibration i ch valid) s = .next s)) ∧
    (∀ t₁, mget s.keeper.calibDue (16 * i.val + ch.val) = some t₁ →
      (s.lclk < t₁ + msec 4 → exec (.calibrationWindowTimeout i ch valid) s = .next s) ∧
      (t₁ + msec 4 ≤ s.lclk →
        exec (.calibrationWindowTimeout i ch valid) s = .next (if valid then t else t.setStack i.val .relocking))))

/-- R365 to R369, R393, R478: a mismatch of an active pair restarts the Gatehouse; a third restart within one second is the
fatal state. A compare that finds a difference restarts it at once when no command is in flight, and otherwise within 1 ms.
When the restart is done every command has ended, the pairs that failed their self-test are retired, and with no pair left
the device enters the fatal state. FCLK's relock ends in a restart. The segments of a compare are log entry 101's. A command
that has to wait, or whose occasion does not hold, changes nothing (log entry 17). Completes: GH_LOCKSTEP,
FULL_STATE_COMPARE, LATENT_RESTART_TIMEOUT, GATEHOUSE_RESTART_DONE, FCLK_RELOCK_DONE. -/
def Obligations.GatehouseRestarts : Prop :=
  (∀ (p : Fin 4) (s : State), s.alive = true → s.fclk = .running → (s.pair p.val).active = true → s.restart = none →
    ((s.restartTimes.filter fun t => decide (s.lclk < t + msec 1000)).length < 2 →
      ∃ t, exec (.ghLockstep p) s = .next t ∧ t.restart = some (.lockstep p.val) ∧
        t.restarts = min 65535 (s.restarts + 1) ∧ t.fatal = false ∧ t.cmds = s.cmds ∧ t.out = s.out ∧
        ∀ e, (t.eng e).ops = [] ∧ (t.eng e).spad = (s.eng e).spad) ∧
    (2 ≤ (s.restartTimes.filter fun t => decide (s.lclk < t + msec 1000)).length →
      ∃ t, exec (.ghLockstep p) s = .next t ∧ t.fatal = true ∧ t.cmds = [])) ∧
  (∀ (p : Fin 4) (s : State), s.alive = true → s.fclk = .running → s.boot.ready = true → s.restart = none →
    (s.pair p.val).active = true → (s.pair p.val).halted = false → bitOf s.keeper.ctl 4 = true →
    (s.pair p.val).compared ≤ Config.compareSegments → ∀ t₀ a, (s.pair p.val).segment = some (t₀, a) →
    (s.lclk < t₀ + usec 1 ∨ pairIdle s p.val = false → ∀ b, exec (.fullStateCompare p b) s = .next s) ∧
    (t₀ + usec 1 ≤ s.lclk → pairIdle s p.val = true → a = s.accNo →
      exec (.fullStateCompare p false) s = .next (s.setPair p.val { s.pair p.val with
        compared := (s.pair p.val).compared + 1, segment := some (s.lclk, s.accNo) }) ∧
      (s.cmds = [] → (s.restartTimes.filter fun t => decide (s.lclk < t + msec 1000)).length < 2 →
        ∃ t, exec (.fullStateCompare p true) s = .next t ∧ t.restart = some .latent) ∧
      (s.cmds ≠ [] → s.latent = none → ∃ t, exec (.fullStateCompare p true) s = .next t ∧ t.restart = none ∧
        t.latent = some s.lclk ∧ t.cmds = s.cmds ∧
        t.devLog = (s.devLog.add 256 { deviceEvent 0x000A 2 0x14 p.val 0 with time := s.timeMs }).1))) ∧
  (∀ (s : State) (n : Nat), s.latent = some n → s.alive = true → s.restart = none →
    (s.lclk < n + msec 1 → exec .latentRestartTimeout s = .next s) ∧
    (n + msec 1 ≤ s.lclk → (s.restartTimes.filter fun t => decide (s.lclk < t + msec 1000)).length < 2 →
      ∃ t, exec .latentRestartTimeout s = .next t ∧ t.restart = some .latent ∧ t.latent = none ∧ t.cmds = s.cmds)) ∧
  (∀ (failed : List (Fin 4)) (s : State) (c : RestartCause), s.restart = some c → s.alive = true → s.fclk = .running →
    s.hbmUp = true →
    ((∃ i : Fin 4, (s.pair i.val).active = true ∧ i ∉ failed) → ∃ t, exec (.gatehouseRestartDone failed) s = .next t ∧
      t.restart = none ∧ t.cmds = [] ∧ t.fatal = false ∧
      ∀ i ∈ failed, (t.pair i.val).retired = true ∧ (t.pair i.val).active = false) ∧
    ((∀ i : Fin 4, (s.pair i.val).active = true → i ∈ failed) →
      ∃ t, exec (.gatehouseRestartDone failed) s = .next t ∧ t.fatal = true)) ∧
  (∀ s : State, s.alive = true → s.fclk = .relocking →
    (s.restartTimes.filter fun t => decide (s.lclk < t + msec 1000)).length < 2 →
    ∃ t, exec .fclkRelockDone s = .next t ∧ t.fclk = .running ∧ t.restart = some .fclk ∧ t.cmds = s.cmds)

/-- R358 to R364, R370, R371, R376, R493: a datapath fault of an engine is noted with the value and the pass that were
checked, ends the affected command and runs a diagnostic slice on the engine; an error in a word that no address names is
corrected, or the command that reads it ends UNCORRECTABLE_DATA; a fault of the Mover ends the command that needed the move
and no engine takes a slice for it; a clock or rail error of an engine that cannot be restored makes it FAILED; an error of
FCLK or of an HBM clock stops that clock's domain until it relocks; an error of LCLK, of a rail that all engines share or of
the Lodge's logic is the fatal state, in which no command is left. A second fault beyond the single-fault model is the fatal
state, and so is a retention record with no good copy; one failing copy of a record is only noted. A lost route and an error of FCLK leave a record. Completes: DATAPATH_FAULT, ROUTE_LOST, CLOCK, HBM_RELOCK_DONE, RAIL,
LODGE_LOGIC_MISMATCH. -/
def Obligations.FaultsStayContained : Prop :=
  (∀ (e : Fin 6) (u : EUnit) (k : CheckKind) (row col : BitVec 8) (v : CheckedValue) (pass : Nat) (c : Option CmdRef)
    (s : State), s.alive = true →
    (k = .residue ∨ k = .duplication → checksRun s e.val = true →
      ∃ t, exec (.datapathFault e u k ⟨row, col, pass⟩ v c) s = .next t ∧ (t.eng e.val).slice = some ⟨.diagnostic, s.lclk, 0⟩ ∧
        (t.eng e.val).note = some ⟨u, row.toNat, col.toNat, v, pass⟩ ∧
        ∀ r d, c = some r → s.cmd r = some d → onHolder s e.val d = true → ∀ x ∈ t.cmds, x.acc ≠ d.acc) ∧
    (k = .moverDuplication ∨ k = .moverBlock → s.gatehouseUp = true → s.hbmUp = true → s.secure.moverHalted = false →
      ∃ t, exec (.datapathFault e u k ⟨row, col, pass⟩ v c) s = .next t ∧ (∀ i, (t.eng i).slice = (s.eng i).slice) ∧
        ∀ r d, c = some r → s.cmd r = some d → d.isOpen = false → d.plot ≠ none → ∀ x ∈ t.cmds, x.acc ≠ d.acc) ∧
    (k = .engineWord true ∧ checksRun s e.val = true ∨ k = .gatehouseWord true ∧ s.gatehouseUp = true →
      ∃ t, exec (.datapathFault e u k ⟨row, col, pass⟩ v c) s = .next t ∧ t.cmds = s.cmds ∧ ∀ i, t.eng i = s.eng i) ∧
    (k = .engineWord false → checksRun s e.val = true → ∀ r d, c = some r → s.cmd r = some d → onHolder s e.val d = true →
      ∃ t, exec (.datapathFault e u k ⟨row, col, pass⟩ v c) s = .next t ∧ EndedWith t d (Reply.bare .uncorrectableData)) ∧
    (k = .gatehouseWord false → s.gatehouseUp = true → ∀ r d, c = some r → s.cmd r = some d → d.isOpen = false →
      ∃ t, exec (.datapathFault e u k ⟨row, col, pass⟩ v c) s = .next t ∧ EndedWith t d (Reply.bare .uncorrectableData)) ∧
    (k = .secondFault → ∃ t, exec (.datapathFault e u k ⟨row, col, pass⟩ v c) s = .next t ∧ t.fatal = true ∧ t.cmds = []) ∧
    (∀ r b, k = .lodgeCopy r b →
      ((r, !b) ∉ s.keeper.lodgeBad → exec (.datapathFault e u k ⟨row, col, pass⟩ v c) s =
        .next { s with keeper := { s.keeper with lodgeBad := (r, b) :: s.keeper.lodgeBad } }) ∧
      ((r, !b) ∈ s.keeper.lodgeBad →
        ∃ t, exec (.datapathFault e u k ⟨row, col, pass⟩ v c) s = .next t ∧ t.fatal = true ∧ t.cmds = []))) ∧
  (∀ (a b : BitVec 8) (r : Nat × Nat) (s : State), s.alive = true → s.fclk = .running →
    r = (min a.toNat b.toNat, max a.toNat b.toNat) →
    (r ∉ s.routesLost → ∃ t, exec (.routeLost a b) s = .next t ∧ t.routesLost = s.routesLost ++ [r] ∧ t.cmds = s.cmds ∧
      t.devLog = (s.devLog.add 256 { deviceEvent 0x000B 2 0x13 0 0 with time := s.timeMs }).1) ∧
    (r ∈ s.routesLost → ∃ t, exec (.routeLost a b) s = .next t ∧ t.fatal = true ∧ t.cmds = [])) ∧
  (∀ (e : Fin 6) (s : State), s.alive = true → (s.eng e.val).power = .running → (s.eng e.val).failed = false →
    (∃ t, exec (.clock (.eclk e false)) s = .next t ∧ (t.eng e.val).failed = true) ∧
      ∃ t, exec (.clock (.eclk e true)) s = .next t ∧ (t.eng e.val).slice = some ⟨.diagnostic, s.lclk, 0⟩) ∧
  (∀ s : State, s.alive = true → s.fclk = .running →
    ∃ t, exec (.clock .fclk) s = .next t ∧ t.fclk = .relocking ∧ t.cmds = s.cmds ∧
      t.devLog = (s.devLog.add 256 { deviceEvent 0x000C 2 0x18 0 0 with time := s.timeMs }).1) ∧
  (∀ (i : Fin 4) (s : State), s.alive = true →
    (s.stack i.val = .ready → ∃ t, exec (.clock (.hbm i)) s = .next t ∧ t.stack i.val = .relocking ∧ t.cmds = s.cmds) ∧
    (s.stack i.val = .relocking → exec (.hbmRelockDone i true) s = .next (s.setStack i.val .ready) ∧
      ∃ t, exec (.hbmRelockDone i false) s = .next t ∧ t.fatal = true ∧ t.cmds = [])) ∧
  (∀ s : State, s.alive = true → (∃ t, exec (.clock .lclk) s = .next t ∧ t.fatal = true ∧ t.backup = true ∧ t.cmds = []) ∧
    (∀ r, r = .vaon ∨ r = .fab ∨ r = .core ∨ r = .hbm →
      ∃ t, exec (.rail r) s = .next t ∧ t.fatal = true ∧ t.cmds = []) ∧
    ∃ t, exec .lodgeLogicMismatch s = .next t ∧ t.fatal = true ∧ t.cmds = []) ∧
  (∀ (e : Fin 6) (s : State), s.alive = true → (s.eng e.val).failed = false →
    (∃ t, exec (.rail (.engine e false)) s = .next t ∧ (t.eng e.val).failed = true) ∧
      ∃ t, exec (.rail (.sram false)) s = .next t ∧ (t.eng e.val).failed = true)

/-- R386, R404, R406 to R411, R494: an engine idle for GATE_DELAY is gated and loses its banks and descriptor cache, not its
scratchpad; a wake and a relock end with the effective ECLK. P2 is entered when its conditions have held for P2_DELAY: every
stack is in self-refresh, FCLK stops, FAB_RET is high, and what the Lodge serves is the last copy. 10 µs after a wake event
FCLK runs again, and at HBM_READY the device is awake, and what was asked of it in P2 runs (R410, R425). The conditions of P2
are sampled as log entries 14 and 53 say. A command that has to wait, or whose occasion does not hold, changes nothing (log
entry 17). Completes: ENGINE_GATE, ENGINE_WAKE_DONE, ECLK_RELOCK_DONE, P2_ENTRY, FCLK_START, HBM_READY. -/
def Obligations.PowerStates : Prop :=
  (∀ (e : Fin 6) (s : State),
    (mayGate s e.val = true → ∃ t, exec (.engineGate e) s = .next t ∧ (t.eng e.val).power = .gated ∧
      (t.eng e.val).bank0.vals = [] ∧ (t.eng e.val).bank1.vals = [] ∧ (t.eng e.val).descCache = [] ∧
      (t.eng e.val).spad = (s.eng e.val).spad ∧ t.cmds = s.cmds ∧ ∀ j, j ≠ e.val → t.eng j = s.eng j) ∧
    (s.lclk < (s.eng e.val).idleSince + usec s.power.gateDelay → exec (.engineGate e) s = .next s)) ∧
  (∀ (e : Fin 6) (s : State) (n : Nat), s.alive = true → (s.eng e.val).power = .waking n →
    (s.power.hold = true → exec (.engineWakeDone e) s = .next s) ∧
    (s.power.hold = false → exec (.engineWakeDone e) s = .next (s.setEng e.val { s.eng e.val with
      power := .running, relock := none, eclk := s.effective e.val, idleSince := s.lclk }))) ∧
  (∀ (e : Fin 6) (s : State) (v : Nat), s.alive = true → (s.eng e.val).relock = some v →
    exec (.eclkRelockDone e) s = .next (s.setEng e.val { s.eng e.val with eclk := v, relock := none })) ∧
  (∀ s : State, (p2Due s = true → ∃ t, exec .p2Entry s = .next t ∧ t.p2 = .inP2 ∧ t.fclk = .stopped ∧
      t.pins.fabRet = true ∧ (∀ h ∈ t.hbm, h.2 = .selfRefresh) ∧ t.secure.level ≠ .invasive ∧ t.plots.length = s.plots.length) ∧
    (p2Ready s = false → exec .p2Entry s = .next s)) ∧
  (∀ (s : State) (n : Nat), s.alive = true → s.p2 = .waking n → s.fclk = .stopped →
    (s.lclk < n + usec 10 → exec .fclkStart s = .next s) ∧
    (n + usec 10 ≤ s.lclk → ∃ t, exec .fclkStart s = .next t ∧ t.fclk = .running ∧ t.keeper.ghNext = s.lclk ∧
      t.keeper.hbmNext = s.lclk ∧ t.keeper.catchup = false ∧ t.cmds = s.cmds ∧ ∀ h ∈ t.hbm, h.2 = .exiting)) ∧
  (∀ (s : State) (n : Nat), s.alive = true → s.p2 = .waking n → s.fclk = .running →
    ∃ t, exec .hbmReady s = .next (s.secure.deferred.foldl runRequest t) ∧ t.p2 = .awake ∧ t.cmds = s.cmds ∧
      t.secure = { s.secure with deferred := [] } ∧ (∀ h ∈ t.hbm, h.2 ≠ .exiting) ∧ ∀ e ∈ t.engines, e.2.idleSince = s.lclk)

/-- R400, R416 to R418, R471, R472: over PLIMIT or TLIMIT the ceiling falls by 100 MHz a control period and the limit that
holds it is shown; at the lowest ceiling pulses are omitted, and within both limits for 1 ms it rises again. The overcurrent
alarm halves the pulses while it lasts. A period is 100 µs, and within one nothing changes. At 110 °C every engine is held
and THERMTRIP_N asserts, below 100 °C both end, and at 120 °C the device enters the fatal state. A refresh copies the
counters, to which it adds the retries that masked a fault; how many is free (log entry 90). A command that has to wait, or
whose occasion does not hold, changes nothing (log entry 17). Completes: LIMIT_CONTROL_PERIOD, OVERCURRENT_ALARM,
OVERCURRENT_ALARM_CLEAR, THERMAL_HOLD, THERMAL_RELEASE, THERMAL_TRIP, TELEMETRY_REFRESH. -/
def Obligations.LimitsAndThermalProtection : Prop :=
  (∀ (power temp : Nat) (s : State), s.alive = true →
    (s.lclk < s.power.period + usec 100 → exec (.limitControlPeriod power temp) s = .next s) ∧
    (s.power.period + usec 100 ≤ s.lclk → ∃ t, exec (.limitControlPeriod power temp) s = .next t ∧ t.energy = s.energy + power ∧ t.sensors.watts = power ∧
      t.sensors.die = temp ∧ t.cmds = s.cmds ∧ t.plots = s.plots ∧
      (s.power.plimit < power → t.power.limP = true ∧ (4 < s.power.ceiling → t.power.ceiling = s.power.ceiling - 1) ∧
        (s.power.ceiling ≤ 4 → t.power.ceiling = s.power.ceiling ∧ t.power.omitted = min 6 (s.power.omitted + 1))) ∧
      (s.power.tlimit < temp → t.power.limT = true ∧ (4 < s.power.ceiling → t.power.ceiling = s.power.ceiling - 1)) ∧
      (∀ n, power * 100 < 95 * s.power.plimit → temp + 3 < s.power.tlimit → s.power.underSince = some n →
        s.power.ceiling < 18 →
        (n + msec 1 ≤ s.lclk → t.power.ceiling = s.power.ceiling + 1) ∧
        (s.lclk < n + msec 1 → t.power.ceiling = s.power.ceiling)))) ∧
  (∀ s : State, s.alive = true →
    exec .overcurrentAlarm s = .next { s with power := { s.power with halfPulse := true } } ∧
    exec .overcurrentAlarmClear s = .next { s with power := { s.power with halfPulse := false } }) ∧
  (∀ (temp : Nat) (s u : State), s.alive = true → u = { s with sensors := { s.sensors with die := temp } } →
    (110 ≤ temp → exec (.thermalHold temp) s =
      .next { u with power := { s.power with hold := true }, pins := { s.pins with thermtrip := true } }) ∧
    (temp < 110 → exec (.thermalHold temp) s = .next s) ∧
    (temp < 100 → s.power.hold = true ∨ s.pins.thermtrip = true → exec (.thermalRelease temp) s =
      .next { u with power := { s.power with hold := false }, pins := { s.pins with thermtrip := false } }) ∧
    (100 ≤ temp → exec (.thermalRelease temp) s = .next s) ∧
    (120 ≤ temp → ∃ t, exec (.thermalTrip temp) s = .next t ∧ t.fatal = true ∧ t.cmds = [] ∧ t.pins.enCore = false ∧
      t.pins.thermtrip = true) ∧
    (temp < 120 → exec (.thermalTrip temp) s = .next s)) ∧
  (∀ s : State, s.alive = true → s.fclk = .running →
    ∃ t, exec .telemetryRefresh s = .next t ∧ t.telSnap = (s.lclk - s.upSince) / 25000 ∧
      t.devSnap = ⟨s.energy / 10, t.fabRetry, s.routesLost.length, t.moverRetry⟩ ∧ s.fabRetry ≤ t.fabRetry ∧
      s.moverRetry ≤ t.moverRetry ∧ t.cmds = s.cmds ∧ t.out = s.out ∧
      (∀ n x, mget s.plots n = some x → mget t.plots n = some { x with epochsSnap := x.epochs }) ∧
      (∀ f x, mget s.funcs f = some x → mget t.funcs f = some { x with snap := x.tel }) ∧
      ∀ e x, mget s.engines e = some x → mget t.engines e = some { x with telSnap := x.tel })

/-- R348, R349, R408, R410, R414, R446, R448, R450, R451, R455 to R459: an FLR takes the function's queues and its registers
to their reset values and lasts until it is complete; a port reset does so for every function of the port and takes its link
down. VF_REMOVAL and a configuration write that removes VFs reset them. D3hot stops a function's DMA, and D0 with Bus Master
Enable allows it again. A port goes to L1 when it asks to, and returns to L0. A request that is not served is completed with
Unsupported Request. Configuration fields reset as log entry 9 presumes. A walk of the capability lists meets the offsets of
Table 2; a memory read of 1 to 64 bytes within a 64-byte line returns data, and any other is Unsupported Request (log entry
100). A command that has to wait, or whose occasion does not hold, changes nothing (log entry 17). Completes:
FUNCTION_LEVEL_RESET, FLR_COMPLETE, PORT_RESET, LINK_UP, VF_REMOVAL, D3HOT_ENTRY, D0_RETURN, ASPM_L1_REQUEST,
LINK_RETURNS_TO_L0, UNSUPPORTED_REQUEST, CONFIGURATION_WRITE. -/
def Obligations.FunctionsAndLinks : Prop :=
  (∀ (f : FuncId) (s : State), cfgServed s f = true →
    ∃ t, exec (.functionLevelReset f) s = .next t ∧ (t.fn f).flr = some s.lclk ∧ (t.fn f).queues = [] ∧
      (t.fn f).enable = false ∧ (t.fn f).cfg = Cfg.reset ∧ ∀ c ∈ t.cmds, c.ofFn f = false) ∧
  (∀ (f : FuncId) (s : State), s.lodgeUp = true → (s.fn f).flr.isSome = true →
    exec (.flrComplete f) s = .next (s.setFn f { s.fn f with flr := none })) ∧
  (∀ (p : Fin 4) (k : PortResetKind) (s : State), s.lodgeUp = true → p.val < s.portCount →
    (s.port p.val).link ≠ .down → ∃ t, exec (.portReset p k) s = .next t ∧ (t.port p.val).link = .down ∧
      (t.fn ⟨p, 0⟩).queues = [] ∧ (t.fn ⟨p, 0⟩).cfg = Cfg.reset ∧ (k = .perst → (t.port p.val).perstN = false)) ∧
  (∀ (p : Fin 4) (s : State), s.lodgeUp = true → p.val < s.portCount → (s.port p.val).link = .down →
    ∃ t, exec (.linkUp p) s = .next t ∧ t.port p.val = { s.port p.val with link := .l0, perstN := true, idleSince := s.lclk } ∧
      t.funcs = s.funcs ∧ t.p2Cond = none) ∧
  (∀ (p : Fin 4) (n : Nat) (enable : Bool) (s : State), cfgServed s ⟨p, 0⟩ = true → n ≤ 63 →
    removedVfs s p n enable ≠ [] → ∃ t, exec (.vfRemoval p n enable) s = .next t ∧
      (t.fn ⟨p, 0⟩).cfg.vfEnable = enable ∧ (t.fn ⟨p, 0⟩).cfg.numVfs = n ∧
      ∀ f ∈ removedVfs s p n enable, (t.fn f).queues = [] ∧ (t.fn f).cfg = Cfg.reset) ∧
  (∀ (f : FuncId) (s : State), cfgServed s f = true →
    (∃ t, exec (.d3hotEntry f false) s = .next t ∧ (t.fn f).cfg.d3hot = true ∧ t.dmaOk f = false ∧
      (t.fn f).queues = (s.fn f).queues ∧ (allD3 t f.port = true → (t.port f.port.val).link = .l1)) ∧
    (∃ t, exec (.d3hotEntry f true) s = .next t ∧ (t.fn f).cfg.busMaster = false ∧ t.dmaOk f = false) ∧
    ∃ t, exec (.d0Return f) s = .next t ∧ (t.fn f).cfg = { (s.fn f).cfg with d3hot := false, busMaster := true } ∧
      t.cmds = s.cmds) ∧
  (∀ (p : Fin 4) (s : State), s.lodgeUp = true → p.val < s.portCount → (s.port p.val).link = .l0 →
    (s.fn ⟨p, 0⟩).cfg.aspmL1 = true →
    (s.lclk < (s.port p.val).idleSince + usec 16 → exec (.aspmL1Request p) s = .next s) ∧
    ((s.port p.val).idleSince + usec 16 ≤ s.lclk → exec (.aspmL1Request p) s =
      .next { s.setPort p.val { s.port p.val with link := .l1 } with out := s.out ++ [.l1Request p.val] })) ∧
  (∀ (p : Fin 4) (s : State), s.lodgeUp = true → (s.port p.val).link = .l1 ∨ (s.port p.val).link = .l2 →
    exec (.linkReturnsToL0 p) s =
      .next { s.setPort p.val { s.port p.val with link := .l0, idleSince := s.lclk } with p2Cond := none }) ∧
  (∀ (r : UrReq) (s : State), s.lodgeUp = true → urPort r < s.portCount → (s.port (urPort r)).link = .l0 →
    isUr s r = true → exec (.unsupportedRequest r) s = .next { s with out := s.out ++ [.unsupported (urPort r)] }) ∧
  (∀ (f : FuncId) (fld : CfgField) (v : Nat) (s : State), cfgServed s f = true → cfgFieldThere f fld = true →
    ∃ t, exec (.configurationWrite f fld v) s = .next t ∧ (t.fn f).cfg = (s.fn f).cfg.write fld v ∧
      (f.fn ≠ 0 → t.cmds = s.cmds ∧ t.plots = s.plots)) ∧
  (∀ (f : FuncId) (s : State),
    capWalk (fun o => capPtr (cfgRead s f o)) 48 (bitsOf (cfgRead s f 0x34) 7 0) = [0x40, 0x50, 0x90] ∧
    capWalk (fun o => extPtr (cfgRead s f o)) 64 0x100 = (if f.fn = 0 then
      [0x100, 0x148, 0x158, 0x160, 0x1A0, 0x1D0, 0x1E0, 0x210, 0x240, 0x260, 0x2B0, 0x2C0, 0x2D0, 0x300]
      else [0x100, 0x158, 0x2D0])) ∧
  ∀ (f : FuncId) (b : Bar) (off len : Nat) (s : State), mmioServed s f = true →
    (64 < len ∨ off / 64 ≠ (off + len - 1) / 64 → mmioRead s f b off len = none) ∧
    (1 ≤ len → len ≤ 64 → off / 64 = (off + len - 1) / 64 → ∃ bs, mmioRead s f b off len = some bs ∧ bs.length = len ∧
      ∀ i, i < len → bs[i]? = some (BitVec.ofNat 8 (barWord s f b ((off + i) / 8 * 8) / 256 ^ ((off + i) % 8))))

/-- R338, R371, R413, R427, R435, R457 to R463, R491 to R498: a reset leaves bring-up in step 1 with the straps as sampled
and the non-volatile stores kept. Step 2 chooses a valid firmware slot and asserts EN_FAB, or sets FWFAIL. Each power-good
starts the next enable; one that does not come within 20 ms, and a stack that fails to train three times, is the fatal state.
READY ends the bring-up, and burns MINSVN where the image asks it. PWR_DN_N takes the links down and orders the enables; the
loss of the main supply loses every register, and a reservation that it cuts off is the old one or the new one. The order of
the stages is log entry 40's. A command that has to wait, or whose occasion does not hold, changes nothing (log entry 17).
Completes: POWER_ON_RESET, COLD_RESET, CONFIG_READY, POWER_GOOD, POWER_GOOD_TIMEOUT, HBM_TRAINING_DONE, READY, PWR_DN_N,
PWR_DN_N_DEASSERT, MAIN_SUPPLY_REMOVAL, SUPPLY_RETURN. -/
def Obligations.BringUpAndPowerDown : Prop :=
  (∀ (lanes : BitVec 2) (adr : BitVec 3) (testN : Bool) (s : State), s.pins.vaon = true → s.pins.mainSupply = true →
    s.pins.sysRstN = false → ∃ t, exec (.powerOnReset lanes adr testN) s = .next t ∧ t.pins.sysRstN = true ∧
      t.pins.lanes = (if lanes = 3 then 0 else lanes.toNat) ∧ t.pins.smbadr = adr.toNat ∧ t.pins.testN = testN ∧
      t.boot.stage = 1 ∧ t.stores = s.stores ∧ t.plots = [] ∧ t.pins.enPcie = true) ∧
  (∀ s : State, s.resettable = true → ∃ t, exec .coldReset s = .next t ∧ t.boot.stage = 1 ∧ t.boot.ready = false ∧
    t.stores = s.stores ∧ t.plots = [] ∧ t.cmds = [] ∧ t.fatal = false ∧ t.pins.lanes = s.pins.lanes) ∧
  (∀ s : State, s.alive = true → s.pins.testN = true → s.boot.configReady = false →
    (∀ slot img, fwChoose s.stores = some (slot, img) → ∃ t, exec .configReady s = .next t ∧ t.boot.stage = 3 ∧
      t.boot.slot = slot ∧ t.boot.fwSvn = imgSvn img ∧ t.pins.enFab = true ∧ t.boot.configReady = true) ∧
    (fwChoose s.stores = none → ∃ t, exec .configReady s = .next t ∧ t.boot.stage = 2 ∧ t.boot.fwFail = true ∧
      t.pins.enFab = s.pins.enFab)) ∧
  (∀ s : State, s.pins.vaon = true → s.pins.mainSupply = true → s.pins.sysRstN = true → s.pins.pwrDnN = true →
    s.fatal = false → s.boot.stage = 3 →
    (s.pins.enFab = true → s.pins.enSram = false → ∃ t, exec (.powerGood .fab true) s = .next t ∧ t.pins.enSram = true) ∧
    (s.pins.enSram = true → s.pins.enCore = false → ∃ t, exec (.powerGood .sram true) s = .next t ∧ t.pins.enCore = true) ∧
    (s.pins.enCore = true → ∃ t, exec (.powerGood .core true) s = .next t ∧ t.fclk = .running ∧ t.pins.enHbm = true ∧
      t.expCtr = s.stores.limit ∧ t.boot.stage = 5 ∧ ∀ e, e < 6 → (t.eng e).spad = Spad.clear)) ∧
  (∀ (r : PgId) (s : State), s.alive = true → s.boot.ready = false → s.pins.en r = true → s.pins.pg r = false →
    (s.enabledAt r + msec 20 ≤ s.lclk → ∃ t, exec (.powerGoodTimeout r) s = .next t ∧ t.fatal = true) ∧
    (s.lclk < s.enabledAt r + msec 20 → exec (.powerGoodTimeout r) s = .next s)) ∧
  (∀ (i : Fin 4) (s : State), s.alive = true → s.boot.stage = 5 → s.stack i.val = .training →
    (∃ t, exec (.hbmTrainingDone i true) s = .next t ∧ t.stack i.val = .ready ∧
      t.boot.stackMask = Nat.lor s.boot.stackMask (2 ^ i.val) ∧ (t.hbmUp = true → t.boot.stage = 6)) ∧
    (∀ n, (mget s.boot.attempts i.val).getD 0 = n →
      (2 ≤ n → ∃ t, exec (.hbmTrainingDone i false) s = .next t ∧ t.fatal = true) ∧
      (n < 2 → ∃ t, exec (.hbmTrainingDone i false) s = .next t ∧ t.fatal = false ∧ t.stack i.val = .training ∧
        mget t.boot.attempts i.val = some (n + 1)))) ∧
  (∀ (failed : List (Fin 6)) (burned : Bool) (s : State), s.alive = true → s.boot.stage = 6 → s.boot.ready = false →
    s.hbmUp = true → ∃ t, exec (.ready ⟨failed, burned⟩) s = .next t ∧ t.boot.stage = 7 ∧ t.boot.ready = true ∧
      (∀ e ∈ failed, (t.eng e.val).failed = true) ∧ (∀ e : Fin 6, e ∉ failed → (t.eng e.val).failed = false) ∧
      (s.boot.commitSvn = 1 → burned = true → t.stores = { s.stores with minSvn := max s.stores.minSvn s.boot.fwSvn }) ∧
      (s.boot.commitSvn ≠ 1 ∨ burned = false → t.stores = s.stores)) ∧
  (∀ s : State, s.pins.vaon = true → s.pins.mainSupply = true → s.pins.sysRstN = true → s.pins.pwrDnN = true →
    ∃ t, exec .pwrDnN s = .next t ∧ t.pins.pwrDnN = false ∧ t.pins.enHbm = false ∧
      (s.nvsWait ≠ none → t.stores.limit = s.stores.limit + 4096) ∧
      (s.pins.enPcie = true → s.pins.enFab = true → s.pins.enSram = true → s.pins.enCore = true → s.pins.pgHbm = true →
        t.pins = { s.pins with pwrDnN := false, enHbm := false }) ∧
      ∀ p : Fin 4, p.val < s.portCount → (t.port p.val).link = .down) ∧
  (∀ s : State, s.pins.vaon = true → s.pins.mainSupply = true → s.pins.pwrDnN = false →
    ∃ t, exec .pwrDnNDeassert s = .next t ∧ t.boot.stage = 1 ∧ t.pins.pwrDnN = true ∧ t.stores = s.stores) ∧
  (∀ s : State,
    (s.pins.vaon = true → ∃ t, exec .mainSupplyRemoval s = .next t ∧ t.pins.vaon = false ∧ t.pins.enPcie = false ∧
      (s.nvsWait = none → t.stores = s.stores) ∧ (∀ a, s.nvsWait = some a → (∃ w, t.stores = s.stores.tornReserve w) ∧
        (t.stores.limit = s.stores.limit ∨ t.stores.limit = s.stores.limit + 4096)) ∧ t.plots = [] ∧ t.cmds = []) ∧
    (s.pins.vaon = false → ∃ t, exec .supplyReturn s = .next t ∧ t.pins.vaon = true ∧ t.pins.sysRstN = false ∧
      t.pins.enPcie = false ∧ t.stores = s.stores))

/-- R466: over the sideband a whole packet with the next sequence number is accepted and advances E; one whose length or CRC
is wrong, and any packet while the channel is HALTED, is answered at once and changes neither E nor QSTATE. A reset of the
channel sets E and empties the window; while a channel command is in flight it is kept until that command ends. Both wait for
a Gatehouse that runs. The channel is a queue as log entries 37 and 72 have it, and message bytes are log entry 42's.
Completes: PCP_CHANNEL, CHANNEL_RESET. -/
def Obligations.ChannelToTheGatehouse : Prop :=
  ∀ (ep : Endpoint) (s : State), s.boot.ready = true → epUp s ep = true → s.p2 = .awake → s.gatehouseUp = true →
    s.latent = none →
    (∀ bs h u, h = hdrOf bs → sideband ep = true → s.pcpReset = none → s.pcp.slots = [] → s.pcp.chain = none → s.pcp.qstate = .active →
      tlenOk h.tlen 65536 = true → h.tlen = bs.length → crc32c (bs.take (h.tlen - 4)) = crcField bs h.tlen →
      h.seq = s.pcp.e → u = { s with pcp := { s.pcp with staged := some bs } } → s.pcp.closing = false →
      64 ≤ replyLimit s.pcp → replyLimit s.pcp / 16 ≤ s.pcp.cqFree →
      ∃ t, exec (.pcpChannel ep bs) s = .next t ∧ t.pcp.e = (s.pcp.e + 1) % 2 ^ 64 ∧ t.accNo = s.accNo + 1 ∧
        t.stores = s.stores) ∧
    (∀ bs, tlenOk (hdrOf bs).tlen 65536 = false ∨ (hdrOf bs).tlen ≠ bs.length ∨
        crc32c (bs.take ((hdrOf bs).tlen - 4)) ≠ crcField bs (hdrOf bs).tlen ∨ s.pcp.qstate = .halted → s.pcpReset = none →
      ∃ t, exec (.pcpChannel ep bs) s = .next t ∧ t.pcp.e = s.pcp.e ∧ t.pcp.qstate = s.pcp.qstate ∧ t.cmds = s.cmds ∧
        t.pcp.window = s.pcp.window) ∧
    (∀ n, (s.cmds.all fun c => !(c.src == .bmc)) = true → ∃ t, exec (.channelReset ep n) s = .next t ∧
      t.pcp.e = n % 2 ^ 64 ∧ t.pcp.window = [] ∧ t.pcp.qstate = .active ∧ t.pcp.chain = none ∧
      t.out = s.out ++ [.mctp ep (vendorMsg 3 (toLe 1 0))]) ∧
    (∀ n, (s.cmds.any fun c => c.src == .bmc) = true →
      exec (.channelReset ep n) s = .next { s with pcpReset := some (ep, n) })

/-- R461, R465, R468 to R470, R487: the Lodge answers MCTP control, discovery and sensor reads of any endpoint, and takes
effecter values, the event receiver and firmware updates from those that may set them. An illegal value leaves its field, and
a request that is refused changes nothing but the reply that is sent. Message bytes are those of log entries 42 and 45, and
who may set what is log entry 73's; an unknown vendor subtype only counts (log entry 74). Completes: MCTP_CONTROL,
PLDM_DISCOVERY, PLDM_SENSOR_READ, SET_EVENT_RECEIVER, PLDM_EFFECTER_WRITE, PLDM_P2EN_EFFECTER, PLDM_COLD_RESET_EFFECTER,
REQUEST_UPDATE, UPDATE_COMPONENT, VERIFY_COMPLETE, UNKNOWN_VENDOR_SUBTYPE, SENSOR_THRESHOLD_CROSSING. -/
def Obligations.ManagementMessages : Prop :=
  (∀ (ep : Endpoint) (s : State), mctpUp s ep = true →
    (∀ code, ∃ b, exec (.mctpControl ep code) s = .next { s with out := s.out ++ [.mctp ep b] }) ∧
    (∀ code, ∃ b, exec (.pldmDiscovery ep code) s = .next { s with out := s.out ++ [.mctp ep b] }) ∧
    (∀ id v, sensorValue s id = some v → exec (.pldmSensorRead ep id) s =
      .next { s with out := s.out ++ [.mctp ep ([0x01, 0x02, 0x11, 0x00] ++ toLe 4 v)] }) ∧
    (∀ id, sensorValue s id = none → exec (.pldmSensorRead ep id) s =
      .next { s with out := s.out ++ [.mctp ep [0x01, 0x02, 0x11, 0x80]] }) ∧
    (∀ eid, mayEffect s ep = true → ∃ b, exec (.setEventReceiver ep eid) s =
      .next { s with eventReceiver := some eid.toNat, out := s.out ++ [.mctp ep b] })) ∧
  (∀ (ep : Endpoint) (s : State), mctpUp s ep = true → mayEffect s ep = true → effectersOn s = true →
    (∀ v, 150 ≤ v → v ≤ 700 → ∃ t, exec (.pldmEffecterWrite ep 32 v) s = .next t ∧ t.power = { s.power with plimit := v } ∧
      t.out = s.out ++ [.mctp ep [0x01, 0x02, 0x31, 0x00]]) ∧
    (∀ v, v < 150 ∨ 700 < v → exec (.pldmEffecterWrite ep 32 v) s =
      .next { s with out := s.out ++ [.mctp ep [0x01, 0x02, 0x31, 0x02]] }) ∧
    (∀ v, 1 ≤ v → v ≤ 65535 → ∃ t, exec (.pldmEffecterWrite ep 35 v) s = .next t ∧ t.power = { s.power with p2Delay := v }) ∧
    (∀ b, ∃ t, exec (.pldmP2enEffecter ep b) s = .next t ∧ t.power = { s.power with p2en := b } ∧
      (b = false → s.p2 = .inP2 → t.p2 = .waking s.lclk)) ∧
    (s.resettable = true → ∃ t, exec (.pldmColdResetEffecter ep 1) s = .next t ∧ t.boot.stage = 1 ∧ t.stores = s.stores ∧
      t.plots = []) ∧
    ∀ v, v ≠ 1 → ∃ b, exec (.pldmColdResetEffecter ep v) s = .next { s with out := s.out ++ [.mctp ep b] }) ∧
  (∀ (ep : Endpoint) (id v : Nat) (s : State), mctpUp s ep = true → mayEffect s ep = false → exec (.pldmEffecterWrite ep id v) s =
    .next { s with out := s.out ++ [.mctp ep [0x01, 0x02, 0x31, 0x01]] }) ∧
  (∀ (ep : Endpoint) (s : State), mctpUp s ep = true → mayUpdate s ep = true → 3 ≤ s.boot.stage ∨ s.boot.fwFail = true →
    (s.update = none → exec (.requestUpdate ep) s =
      .next { s with update := some ⟨updateSlot s, false⟩, out := s.out ++ [.mctp ep [0x01, 0x05, 0x10, 0x00]] }) ∧
    (s.update ≠ none → exec (.requestUpdate ep) s = .next { s with out := s.out ++ [.mctp ep [0x01, 0x05, 0x10, 0x81]] }) ∧
    ∀ u, s.update = some u →
      (∀ img : List Byte, img.length ≤ 33554432 → ∃ t, exec (.updateComponent ep img) s = .next t ∧
        t.stores.slotOf u.slot = img ∧ t.update = some { u with written := true } ∧ t.stores.life = s.stores.life ∧
        t.stores.minSvn = s.stores.minSvn) ∧
      ∃ t, exec (.verifyComplete ep) s = .next t ∧ t.update = none ∧ t.stores = s.stores ∧
        t.out = s.out ++ [.mctp ep [0x01, 0x05, 0x17, 0x00,
          if u.written && fwValid s.stores (s.stores.slotOf u.slot) then 0 else 1]]) ∧
  (∀ (sub : BitVec 8) (s : State), s.lodgeUp = true → s.boot.configReady = true → 3 < sub.toNat ∨ sub = 0 →
    exec (.unknownVendorSubtype sub) s =
      .next { s with devLog := { s.devLog with lost := min (2 ^ 32 - 1) (s.devLog.lost + 1) } }) ∧
  (∀ (id v : Nat) (s : State), s.lodgeUp = true → s.boot.configReady = true →
    ∃ t, exec (.sensorThresholdCrossing id v) s = .next t ∧ t.sensors = s.sensors.set id v ∧
      (∀ r, s.eventReceiver = some r → t.out = s.out ++ [.event r (toLe 2 id ++ toLe 4 v)]) ∧
      (s.eventReceiver = none → t.out = s.out))

/-- R422 to R426, R439, R467: PROVISION, FIELD, RETIRE and AUTHORITY run from the states and paths that allow them and change
the lifecycle, or its authority, alone; RETIRE erases every tenant's state first, and its end leaves RETIRED. A token that
fails a check spends the nonce, counts, and changes nothing else in the stores; eight in a row set LOCKOUT. Every operation
is BUSY while a full tenant erase runs. The nonce is 32 free bytes (log entry 4) and lasts 60 s. Message bytes are log entry
42's, and a token that a later condition turns away is log entry 60's. A command that has to wait, or whose occasion does not
hold, changes nothing (log entry 17). A burn whose fuses do not read back is refused with a DEVICE record (log entry 98); of
a key hash it burns no bit that the new hash lacks. Completes: PROVISION, FIELD, RETIRE, AUTHORITY, NONCE, NONCE_EXPIRY,
TENANT_ERASE_DONE. -/
def Obligations.LifecycleOperations : Prop :=
  (∀ (ep : Endpoint) (s : State), s.alive = true → s.boot.ready = true → epUp s ep = true → s.p2 = .awake → s.fclk = .running →
    s.secure.erasing = none →
    (∀ (body : List Byte) (a : Authority), s.stores.life = .blank → sideband ep = true → s.secure.level = .closed →
      body.length = 50 → authorityOf (byteAt body 48) (byteAt body 49) = some a →
      (∃ t, exec (.provision ep ⟨body, ⟨(true, true), true⟩⟩) s = .next t ∧ t.stores.life = .provisioned ∧
        t.stores.authority = a ∧
        (∀ i, i < 48 → byteAt t.stores.odkHash i = Nat.lor (byteAt s.stores.odkHash i) (byteAt body i)) ∧
        t.stores.fvkHash = s.stores.fvkHash ∧ t.stores.minSvn = s.stores.minSvn ∧
        t.out = s.out ++ [.mctp ep (vendorMsg 2 [0x01, 0x00])]) ∧
      (∀ st, ∃ t, exec (.provision ep ⟨body, ⟨st, false⟩⟩) s = .next t ∧ t.stores.life = .blank ∧ t.stores.record = a ∧
        ∀ i, i < 48 → byteAt s.stores.odkHash i ≤ byteAt t.stores.odkHash i ∧
          Nat.lor (byteAt t.stores.odkHash i) (Nat.lor (byteAt s.stores.odkHash i) (byteAt body i)) =
            Nat.lor (byteAt s.stores.odkHash i) (byteAt body i)) ∧
      ∀ st, ∃ t, exec (.provision ep ⟨body, ⟨st, true⟩⟩) s = .next t ∧ t.stores.record = a ∧
        t.stores.lifeFuses = { s.stores.lifeFuses with provisioned := burnPair s.stores.lifeFuses.provisioned st }) ∧
    (∀ (body : List Byte) (b : Burn), s.stores.life ≠ .blank ∨ sideband ep = false ∨ s.secure.level ≠ .closed → ∃ r,
      exec (.provision ep ⟨body, b⟩) s = .next { s with out := s.out ++ [.mctp ep (vendorMsg 2 [0x01, r])] }) ∧
    (∀ (tok : List Byte) (b : Burn), tokenGood s (some ep) 0x10 tok = true → s.secure.lockout = false → s.plots = [] →
      s.secure.level = .closed →
      (b.state = (true, true) → ∃ t, exec (.field ep ⟨tok, b⟩) s = .next t ∧
        t.stores.life = .field ∧ t.stores = s.stores.burn .field b.state ∧
        t.secure = { s.secure with nonce := none, failCount := 0 } ∧
        t.out = s.out ++ [.mctp ep (vendorMsg 2 [0x02, 0x00])]) ∧
      ∃ t, exec (.field ep ⟨tok, b⟩) s = .next t ∧ t.stores = s.stores.burn .field b.state) ∧
    (∀ (tok : List Byte) (a : Authority), tokenGood s (some ep) 0x12 tok = true → s.secure.lockout = false → s.plots = [] →
      authorityOf (tokArg0 tok) (tokArg1 tok) = some a → ∃ t, exec (.authority ep tok) s = .next t ∧
        t.stores = s.stores.setAuthority a ∧ t.secure.level = .closed ∧ t.secure.nonce = none) ∧
    (∀ (tok : List Byte) (b : Burn), tokenGood s (some ep) 0x11 tok = true → s.secure.lockout = false →
      ∃ t, exec (.retire ep ⟨tok, b⟩) s = .next t ∧ t.secure.erasing = some (.retire (some ep) b) ∧ t.plots = [] ∧
        t.stores = s.stores) ∧
    (∀ (tok : List Byte) (op : Nat) (c : Instr),
      ((op = 0x10 ∧ ∃ b, c = .field ep ⟨tok, b⟩) ∨ (op = 0x11 ∧ ∃ b, c = .retire ep ⟨tok, b⟩) ∨ (op = 0x12 ∧ c = .authority ep tok) ∨
        (op = 2 ∧ c = .invasive ep tok) ∨ (op = 1 ∧ tok ≠ [] ∧ c = .observe ep tok)) →
      tokenGood s (some ep) op tok = false → ∃ t, exec c s = .next t ∧ t.stores = s.stores ∧ t.plots = s.plots ∧
        t.secure = { s.secure with
          nonce := none, failCount := s.secure.failCount + 1
          lockout := s.secure.lockout || decide (8 ≤ s.secure.failCount + 1) }) ∧
    ∃ t, exec (.nonce ep) s = .next t ∧ t.secure.nonce = some (freeNonce s.freeIx, s.lclk) ∧
      t.out = s.out ++ [.mctp ep (vendorMsg 2 ([0x10, 0x00] ++ freeNonce s.freeIx))]) ∧
  (∀ (ep : Endpoint) (bs : List Byte) (b : Burn) (c : Instr) (op : Nat) (s : State), s.alive = true → s.boot.ready = true →
    epUp s ep = true → s.secure.erasing ≠ none →
    ((op, c) ∈ [(1, Instr.provision ep ⟨bs, b⟩), (2, .field ep ⟨bs, b⟩), (3, .retire ep ⟨bs, b⟩), (4, .authority ep bs), (0x10, .nonce ep),
      (0x11, .observe ep bs), (0x12, .invasive ep bs), (0x13, .close ep)]) →
    exec c s = .next { s with out := s.out ++ [.mctp ep (vendorMsg 2 [BitVec.ofNat 8 op, 0x03])] }) ∧
  (∀ (s : State) (b : List Byte) (n : Nat), s.secure.nonce = some (b, n) →
    (s.lclk < n + 1500000000 → exec .nonceExpiry s = .next s) ∧
    (n + 1500000000 ≤ s.lclk → exec .nonceExpiry s = .next { s with secure := { s.secure with nonce := none } })) ∧
  ∀ s : State, s.alive = true → s.fclk = .running → s.hbmUp = true →
    (s.secure.erasing = none → exec .tenantEraseDone s = .next s) ∧
    (∀ ep, s.secure.erasing = some (.retire ep ⟨(true, true), true⟩) → ∃ t, exec .tenantEraseDone s = .next t ∧
      t.secure.erasing = none ∧ t.stores = { s.stores.setAuthority .none with idOff := true }.burn .retired (true, true) ∧
      t.stores.life = .retired ∧ t.sessions = [] ∧ t.secure.level = .closed) ∧
    (∀ ep st, s.secure.erasing = some (.retire ep ⟨st, false⟩) → ∃ t, exec .tenantEraseDone s = .next t ∧
      t.secure.erasing = none ∧ t.stores = s.stores.setAuthority .none ∧ t.sessions = [] ∧ t.secure.level = .closed) ∧
    ∀ ep, s.secure.erasing = some (.invasive ep) → ∃ t, exec .tenantEraseDone s = .next t ∧ t.secure.erasing = none ∧
      t.stores = s.stores ∧ t.secure.level = .invasive ∧ t.secure.debugged = true

/-- R436, R437, R440 to R443: who may enter a debug level, what entering and leaving it changes, and what a debugger does at
INVASIVE. From FIELD a full tenant erase runs before the session opens. A token that fails a check opens nothing. Boundary
scan drives the pins only while PERST# is asserted on every port. An access to a scratchpad address that does not exist stops
the run; a single step changes nothing (log entry 46). The stop is log entry 68's, and message bytes are log entry 42's. A
command that has to wait, or whose occasion does not hold, changes nothing (log entry 17). A read of bytes that cannot be
corrected shifts out nothing (log entry 75). Completes: OBSERVE, INVASIVE, CLOSE, DBG_NONCE, TEST_LOGIC_RESET, DBG_AUTH,
EXTEST, DEBUG_ACCESS. -/
def Obligations.DebugSessions : Prop :=
  (∀ (ep : Endpoint) (s : State), s.alive = true → s.boot.ready = true → epUp s ep = true → s.secure.erasing = none →
    (observeFree s ep = true → exec (.observe ep []) s = .next { s with
      secure := { s.secure with level := .observe, trace := [] }, out := s.out ++ [.mctp ep (vendorMsg 2 [0x11, 0x00])] }) ∧
    (observeFree s ep = false → ∃ r, exec (.observe ep []) s =
      .next { s with out := s.out ++ [.mctp ep (vendorMsg 2 [0x11, r])] }) ∧
    (∀ tok : List Byte, tok ≠ [] → tokenGood s (some ep) 1 tok = true → s.secure.lockout = false →
      ∃ t, exec (.observe ep tok) s = .next t ∧ t.secure.level = .observe ∧ t.stores = s.stores ∧ t.plots = s.plots) ∧
    (∀ tok : List Byte, s.p2 = .awake → s.fclk = .running → tokenGood s (some ep) 2 tok = true → s.secure.lockout = false →
      (s.stores.life ≠ .field → ∃ t, exec (.invasive ep tok) s = .next t ∧ t.secure.level = .invasive ∧
        t.secure.debugged = true ∧ t.secure.invSessions = (s.secure.invSessions + 1) % 65536 ∧ t.plots = s.plots) ∧
      (s.stores.life = .field → ∃ t, exec (.invasive ep tok) s = .next t ∧ t.plots = [] ∧
        t.secure = { s.secure with nonce := none, failCount := 0, erasing := some (.invasive (some ep)) })) ∧
    ∃ t, exec (.close ep) s = .next t ∧ t.secure.level = .closed ∧ t.stores = s.stores ∧
      (s.secure.level ≠ .invasive → t = { s with
        secure := { s.secure with level := .closed, trace := [] }, out := s.out ++ [.mctp ep (vendorMsg 2 [0x13, 0x00])] })) ∧
  (∀ s : State, s.lodgeUp = true → (∃ t, exec .dbgNonce s = .next t ∧ t.secure.nonce = some (freeNonce s.freeIx, s.lclk) ∧
      t.out = s.out ++ [.jtag (freeNonce s.freeIx)]) ∧
    ∃ t, exec .testLogicReset s = .next t ∧ t.secure.level = .closed ∧ t.pins.drive = none ∧ t.stores = s.stores) ∧
  (∀ (tok : List Byte) (b : Burn) (s : State), s.alive = true → s.boot.ready = true → s.secure.erasing = none →
    s.secure.lockout = false →
    (byteAt tok 6 = 1 → tokenGood s none 1 tok = true → ∃ t, exec (.dbgAuth ⟨tok, b⟩) s = .next t ∧ t.secure.level = .observe ∧
      t.stores = s.stores) ∧
    (byteAt tok 6 = 2 → tokenGood s none 2 tok = true → s.p2 = .awake → s.fclk = .running → s.stores.life ≠ .field →
      ∃ t, exec (.dbgAuth ⟨tok, b⟩) s = .next t ∧ t.secure.level = .invasive ∧ t.secure.debugged = true) ∧
    (byteAt tok 6 = 0x11 → tokenGood s none 0x11 tok = true → s.p2 = .awake → s.fclk = .running →
      ∃ t, exec (.dbgAuth ⟨tok, b⟩) s = .next t ∧ t.secure.erasing = some (.retire none b) ∧ t.plots = []) ∧
    (tokenGood s none (byteAt tok 6) tok = false → s.p2 = .awake → s.fclk = .running → ∃ t, exec (.dbgAuth ⟨tok, b⟩) s = .next t ∧
      t.stores = s.stores ∧ t.secure.level = s.secure.level ∧ t.secure.failCount = s.secure.failCount + 1 ∧
      t.secure.nonce = none)) ∧
  (∀ (i : ScanInstr) (s : State),
    ((∀ p, p < s.portCount → (s.port p).perstN = false) →
      exec (.extest i) s = .next { s with pins := { s.pins with drive := some i } }) ∧
    ((∃ p, p < s.portCount ∧ (s.port p).perstN = true) → exec (.extest i) s = .next s)) ∧
  (∀ (op : DebugOp) (s : State), s.secure.level ≠ .invasive → exec (.debugAccess op) s = .next s) ∧
  ∀ s : State, s.secure.level = .invasive → s.alive = true → s.fclk = .running →
    (exec (.debugAccess .haltMover) s = .next { s with secure := { s.secure with moverHalted := true } } ∧
      exec (.debugAccess .releaseMover) s = .next { s with secure := { s.secure with moverHalted := false } }) ∧
    (∀ p : Fin 4, exec (.debugAccess (.haltPair p)) s = .next (s.setPair p.val { s.pair p.val with halted := true }) ∧
      exec (.debugAccess (.releasePair p)) s = .next (s.setPair p.val { s.pair p.val with halted := false }) ∧
      exec (.debugAccess (.stepPair p)) s = .next s) ∧
    (∀ e : Fin 6, exec (.debugAccess (.haltEngine e)) s = .next (s.modEng e.val fun x => { x with halted := true }) ∧
      exec (.debugAccess (.releaseEngine e)) s = .next (s.modEng e.val fun x => { x with halted := false }) ∧
      exec (.debugAccess (.stepEngine e)) s = .next s ∧
      (∀ a n, 0 < n → spadSize < a + n →
        exec (.debugAccess (.readSpad e a n)) s = .fault (.scratchpadAddress (max a spadSize))) ∧
      (∀ a n, a + n ≤ spadSize → (s.eng e.val).failed = false → (s.eng e.val).power = .running → s.power.hold = false →
        (s.eng e.val).spad.gran = [] → ∃ t, exec (.debugAccess (.readSpad e a n)) s = .next t ∧ t.cmds = s.cmds ∧
          t.out = s.out ++ [.jtag ((s.eng e.val).spad.mem.readBytes a n)] ∧
          (t.eng e.val).spad = (s.eng e.val).spad)) ∧
    (∀ (p : Fin 6) (r : Fin 64) (v : Word) (q : Plot), mget s.plots p.val = some q →
      mwf q.scalars = true → exec (.debugAccess (.readScalar p r)) s =
        .next { s with out := s.out ++ [.jtag (toLe 8 ((mget q.scalars r.val).getD 0))] } ∧
      ∃ t, exec (.debugAccess (.writeScalar p r v)) s = .next t ∧ t.cmds = s.cmds ∧
        (mget t.plots p.val).map (fun x => (mget x.scalars r.val).getD 0) = some v.toNat) ∧
    (∀ (p : Fin 6) (h off n : Nat) (q : Plot), s.hbmUp = true → mget s.plots p.val = some q →
      (∀ x, mget q.tensors h = none → mget q.plans h = some x → exec (.debugAccess (.readTensor p h off n)) s = .next { s with
        out := s.out ++ [.jtag (if x.readBad.isSome then [] else (x.img.drop off).take n)] }) ∧
      ∀ x, mget q.streams h = some x → exec (.debugAccess (.readImage p h off n)) s = .next { s with
        out := s.out ++ [.jtag (if (imageDamaged x off n).isSome then [] else (x.img.drop off).take n)] } ∧
        ∀ bs, off + bs.length ≤ x.img.length → exec (.debugAccess (.writeImage p h off bs)) s = .next (s.setPlot p.val
          { q with streams := mput q.streams h { x with img := overwrite x.img off bs } })) ∧
    ∀ (p : Fin 6) (h off : Nat) (bs : List Byte) (q : Plot) (t : Tensor), s.hbmUp = true → mget s.plots p.val = some q →
      mget q.tensors h = some t → off + bs.length ≤ t.img.length →
      (∀ n, exec (.debugAccess (.readTensor p h off n)) s = .next { s with
        out := s.out ++ [.jtag (if (t.readBad off n).isSome then [] else (t.img.drop off).take n)] }) ∧
      ∃ u, exec (.debugAccess (.writeTensor p h off bs)) s = .next u ∧ u.cmds = s.cmds ∧
        ∃ q' t', mget u.plots p.val = some q' ∧ mget q'.tensors h = some t' ∧ t'.img = overwrite t.img off bs

/-- R423, R428 to R431, R461: an SPDM connection starts with GET_VERSION and negotiates before anything else is answered; the
signed answers carry the certificate chain's digest or the measurement record asked for. Sessions are held to the limit of
their transport, are established or ended by FINISH, and end with END_SESSION or when two heartbeat periods (log entry 44)
pass. In RETIRED nothing that needs the identity key is answered. Message codes are log entry 43's. Keys come as operands
(log entry 76). A command that has to wait, or whose occasion does not hold, changes nothing (log entry 17). Completes:
GET_VERSION, GET_CAPABILITIES, NEGOTIATE_ALGORITHMS, GET_DIGESTS, GET_CERTIFICATE, CHALLENGE, GET_MEASUREMENTS, KEY_EXCHANGE,
FINISH, HEARTBEAT, HEARTBEAT_TIMEOUT, KEY_UPDATE, END_SESSION, SPDM_UNSUPPORTED_REQUEST. -/
def Obligations.SpdmExchanges : Prop :=
  (∀ (r : Transport) (s : State), spdmUp s r = true →
    (∃ t b, exec (.getVersion r) s = .next t ∧ t = { setConn s ⟨r, true, false, false⟩ with out := s.out ++ [.spdm r b] }) ∧
    ((connOf s r).version = true → ∃ b, exec (.getCapabilities r) s = .next
      { setConn s { connOf s r with capabilities := true, algorithms := false } with out := s.out ++ [.spdm r b] }) ∧
    ((connOf s r).capabilities = true → ∃ b, exec (.negotiateAlgorithms r) s = .next
      { setConn s { connOf s r with algorithms := true } with out := s.out ++ [.spdm r b] }) ∧
    (∀ code : BitVec 8, exec (.spdmUnsupportedRequest r code) s = .next { s with
      out := s.out ++ [.spdm r [0x7F, 0x07, code]] }) ∧
    ((connOf s r).algorithms = true →
      exec (.getDigests r) s = .next { s with out := s.out ++ [.spdm r ([0x01, 0x01] ++ sha384 s.stores.certChain)] } ∧
      (∀ off len part, off < s.stores.certChain.length → part = (s.stores.certChain.drop off).take len →
        exec (.getCertificate r 0 off len) s = .next { s with out := s.out ++ [.spdm r ([0x02] ++ toLe 2 part.length ++
          toLe 2 (s.stores.certChain.length - off - part.length) ++ part)] })) ∧
    ((connOf s r).algorithms = false →
      ∀ c ∈ [Instr.getDigests r, .getCertificate r 0 0 0], exec c s = .next { s with out := s.out ++ [.spdm r [0x7F, 0x04, 0x00]] })) ∧
  (∀ (r : Transport) (nonce : List Byte) (s : State), spdmUp s r = true → s.stores.life ≠ .retired →
    (connOf s r).algorithms = true →
    (∃ tail, exec (.challenge r 0 nonce) s = .next { s with
      freeIx := s.freeIx + 80, out := s.out ++ [.spdm r ([0x03] ++ sha384 s.stores.certChain ++ tail)] }) ∧
    (∀ i l rec, measureList i = some l → rec = l.flatMap (measureBlock s) →
      ∃ tail, exec (.getMeasurements r i nonce) s = .next { s with
        freeIx := s.freeIx + 80
        out := s.out ++ [.spdm r (toLe 1 0x60 ++ toLe 1 (if i = 0 then 6 else 0) ++ toLe 1 l.length ++ toLe 3 rec.length ++ rec ++ tail)] }) ∧
    (∀ (reqId : BitVec 16) (beat : Nat), beat < 256 →
      (sessionLimit r ≤ sessionCount s r →
        exec (.keyExchange r reqId beat) s = .next { s with out := s.out ++ [.spdm r [0x7F, 0x0A, 0x00]] }) ∧
      (sessionCount s r < sessionLimit r → ∃ t b, exec (.keyExchange r reqId beat) s = .next t ∧
        t.out = s.out ++ [.spdm r b] ∧ t.sessions = mput s.sessions (freshKey s)
          ⟨r, reqId.toNat + 65536 * responderId s reqId.toNat, false, [], [], 0, beat, s.lclk⟩))) ∧
  (∀ (r : Transport) (id : Nat) (key iv : List Byte) (s : State) (n : Nat) (x : Session), spdmUp s r = true →
    s.stores.life ≠ .retired →
    (sessionOf s r id false = some (n, x) →
      exec (.finish r id true key iv) s = .next { s with
        sessions := mput s.sessions n { x with established := true, key := key, iv := iv, seq := 0, lastBeat := s.lclk }
        out := s.out ++ [.spdm r [0x65]] } ∧
      exec (.finish r id false key iv) s = .next { s with
        sessions := mdel s.sessions n, out := s.out ++ [.spdm r [0x7F, 0x06, 0x00]] }) ∧
    (sessionOf s r id true = some (n, x) →
      exec (.heartbeat r id) s = .next { s with
        sessions := mput s.sessions n { x.consumed with lastBeat := s.lclk }, out := s.out ++ [.spdm r [0x68]] } ∧
      exec (.keyUpdate r id key iv) s = .next { s with
        sessions := mput s.sessions n { x with key := key, iv := iv, seq := 0 }, out := s.out ++ [.spdm r [0x69]] } ∧
      exec (.endSession r id) s = .next { s with
        sessions := mdel s.sessions n, out := s.out ++ [.spdm r [0x6C]] }) ∧
    (sessionOf s r id true = none → ∀ c ∈ [Instr.heartbeat r id, .keyUpdate r id key iv, .endSession r id],
      exec c s = .next { s with out := s.out ++ [.spdm r [0x7F, 0x02, 0x00]] })) ∧
  (∀ (r : Transport) (id : Nat) (s : State) (n : Nat) (x : Session), s.lodgeUp = true → sessionOf s r id true = some (n, x) →
    (0 < x.heartbeat ∧ x.lastBeat + 50000000 * x.heartbeat ≤ s.lclk →
      exec (.heartbeatTimeout r id) s = .next { s with sessions := mdel s.sessions n }) ∧
    (x.heartbeat = 0 ∨ s.lclk < x.lastBeat + 50000000 * x.heartbeat → exec (.heartbeatTimeout r id) s = .next s)) ∧
  ∀ (r : Transport) (nonce key iv : List Byte) (id i k : Nat) (ok : Bool) (reqId : BitVec 16) (s : State), spdmUp s r = true →
    s.stores.life = .retired → ∀ (c : Instr) (code : Byte), (code, c) ∈ [(0x83, Instr.challenge r k nonce),
      (0xE0, .getMeasurements r i nonce), (0xE4, .keyExchange r reqId k), (0xE5, .finish r id ok key iv),
      (0xE8, .heartbeat r id), (0xE9, .keyUpdate r id key iv), (0xEC, .endSession r id)] →
    exec c s = .next { s with out := s.out ++ [.spdm r [0x7F, 0x07, code]] }

/-- R435: the export counter never passes the reservation that the NVS holds. Every step keeps it so. -/
def Obligations.ExportCounterStaysReserved : Prop :=
  ∀ s t : State, s.reserved → step s = .next t → t.reserved

/-- R422 to R427, R435: no step changes the fused key hashes, the UDS or the serial number, moves the lifecycle back, lowers
MINSVN or the export counter's reservation, or turns the device identity on again once RETIRE has erased it. -/
def Obligations.FusesOnlyMoveForward : Prop :=
  ∀ s t : State, step s = .next t → s.stores.Forward t.stores

/-- R422 to R427, R434, R435, R461, R463: only the lifecycle operations, the end of an erase, READY, a reservation write, its
completion at power-down or its loss with the supply, a firmware update, and the end of a wake, which runs the lifecycle
operations that waited for it, write the fuses and the NVS: every other command, a reset among them, leaves them as they are.
-/
def Obligations.OnlyNamedCommandsWriteTheStores : Prop :=
  ∀ (c : Instr) (s t : State), exec c s = .next t → writesStores c = false → t.stores = s.stores

/-- R283, R286, R388, R400, R406 to R418, R428 to R431, R437 to R439, R455 to R470: the commands of the links, of limiting
and wakes, of the Lodge's messages and of SPDM leave every plot, every command in flight, and every byte and tag of every
scratchpad as they are, in every state, whether they are served or not; the end of a wake does so while no request waits for
it. -/
def Obligations.ManagementLeavesTenantsAlone : Prop :=
  ∀ (c : Instr) (s t : State), managementOnly c = true → (c = .hbmReady → s.secure.deferred = []) → exec c s = .next t → TenantsKept s t
end

