-- ==== Sys2Proof/Laws/Map.lean ====
section
/-!
SUPPORT. Finite maps and sparse memories: what a read gives after a write, and that every operation keeps the canonical form.
-/

namespace Sys2Proof.Machine

variable {α : Type}

/-! ## Maps -/

@[simp] theorem mget_nil (a : Nat) : mget ([] : Map α) a = none := rfl

theorem mget_mput_same (m : Map α) (a : Nat) (x : α) : mget (mput m a x) a = some x := by
  induction m with
  | nil => simp [mput, mget]
  | cons p m ih =>
    obtain ⟨k, v⟩ := p
    unfold mput
    split
    · simp [mget]
    · split
      · simp [mget]
      · next h₁ h₂ => simp [mget, h₁, h₂, ih]

theorem mget_mput_other (m : Map α) (a b : Nat) (x : α) (h : b ≠ a) : mget (mput m a x) b = mget m b := by
  induction m with
  | nil => simp [mput, mget]; omega
  | cons p m ih =>
    obtain ⟨k, v⟩ := p
    unfold mput
    split
    · next h₁ =>
      by_cases hb : b < a
      · have : b < k := by omega
        have h₃ : b ≠ k := by omega
        simp [mget, h, hb, this, h₃]
      · simp [mget, h, hb]
    · split
      · next h₂ => subst h₂; simp only [mget, h, if_false]
      · simp only [mget, ih]

@[simp] theorem mget_mput (m : Map α) (a b : Nat) (x : α) :
    mget (mput m a x) b = if b = a then some x else mget m b := by
  split
  · next h => subst h; exact mget_mput_same m b x
  · next h => exact mget_mput_other m a b x h

/-- Every key of a map is above a bound. -/
def above (b : Nat) (m : Map α) : Prop := ∀ p ∈ m, b < p.1

theorem mwf_cons (k : Nat) (v : α) (m : Map α) : mwf ((k, v) :: m) = true ↔ above k m ∧ mwf m = true := by
  induction m generalizing k v with
  | nil => simp [mwf, above]
  | cons p m ih =>
    obtain ⟨j, w⟩ := p
    simp only [mwf, Bool.and_eq_true, decide_eq_true_eq]
    constructor
    · rintro ⟨h, hm⟩
      refine ⟨fun q hq => ?_, hm⟩
      rcases List.mem_cons.1 hq with rfl | hq
      · exact h
      · exact lt_trans h (((ih j w).1 hm).1 q hq)
    · rintro ⟨h, hm⟩
      exact ⟨h (j, w) (List.mem_cons_self ..), hm⟩

theorem above_mput {b : Nat} {m : Map α} {a : Nat} {x : α} (h : above b m) (ha : b < a) : above b (mput m a x) := by
  induction m with
  | nil => simpa [mput, above] using ha
  | cons p m ih =>
    obtain ⟨k, v⟩ := p
    have hk : b < k := h (k, v) (List.mem_cons_self ..)
    have hm : above b m := fun q hq => h q (List.mem_cons_of_mem _ hq)
    unfold mput
    split
    · intro q hq
      rcases List.mem_cons.1 hq with rfl | hq
      · exact ha
      · exact h q hq
    · split
      · intro q hq
        rcases List.mem_cons.1 hq with rfl | hq
        · exact ha
        · exact hm q hq
      · intro q hq
        rcases List.mem_cons.1 hq with rfl | hq
        · exact hk
        · exact ih hm q hq

theorem above_mono {b c : Nat} {m : Map α} (h : above c m) (hb : b ≤ c) : above b m := fun q hq => lt_of_le_of_lt hb (h q hq)

theorem mput_wf (m : Map α) (a : Nat) (x : α) (h : mwf m = true) : mwf (mput m a x) = true := by
  induction m with
  | nil => rfl
  | cons p m ih =>
    obtain ⟨k, v⟩ := p
    have hc := (mwf_cons k v m).1 h
    unfold mput
    split
    · next hlt =>
      refine (mwf_cons _ _ _).2 ⟨fun q hq => ?_, h⟩
      rcases List.mem_cons.1 hq with rfl | hq
      · exact hlt
      · exact lt_trans hlt (hc.1 q hq)
    · split
      · next heq => subst heq; exact (mwf_cons _ _ _).2 hc
      · next h₁ h₂ => exact (mwf_cons _ _ _).2 ⟨above_mput hc.1 (by omega), ih hc.2⟩

theorem above_mdel {b : Nat} {m : Map α} {a : Nat} (h : above b m) : above b (mdel m a) := by
  induction m with
  | nil => simpa [mdel] using h
  | cons p m ih =>
    obtain ⟨k, v⟩ := p
    have hk : b < k := h (k, v) (List.mem_cons_self ..)
    have hm : above b m := fun q hq => h q (List.mem_cons_of_mem _ hq)
    unfold mdel
    split
    · exact hm
    · split
      · exact h
      · intro q hq
        rcases List.mem_cons.1 hq with rfl | hq
        · exact hk
        · exact ih hm q hq

theorem mdel_wf (m : Map α) (a : Nat) (h : mwf m = true) : mwf (mdel m a) = true := by
  induction m with
  | nil => rfl
  | cons p m ih =>
    obtain ⟨k, v⟩ := p
    have hc := (mwf_cons k v m).1 h
    unfold mdel
    split
    · exact hc.2
    · split
      · exact h
      · exact (mwf_cons _ _ _).2 ⟨above_mdel hc.1, ih hc.2⟩

theorem mget_above {b : Nat} {m : Map α} (h : above b m) {a : Nat} (ha : a ≤ b) : mget m a = none := by
  cases m with
  | nil => rfl
  | cons p m =>
    have hp : b < p.1 := h p (List.mem_cons_self ..)
    have h₁ : a ≠ p.1 := by omega
    have h₂ : a < p.1 := by omega
    simp [mget, h₁, h₂]

theorem mget_mdel (m : Map α) (a b : Nat) (h : mwf m = true) :
    mget (mdel m a) b = if b = a then none else mget m b := by
  induction m with
  | nil => simp [mdel, mget]
  | cons p m ih =>
    obtain ⟨k, v⟩ := p
    have hc := (mwf_cons k v m).1 h
    unfold mdel
    split
    · next heq =>
      subst heq
      by_cases hb : b = a
      · simp [hb, mget_above hc.1 (le_refl _)]
      · by_cases hlt : b < a
        · simp [mget, hb, hlt, mget_above hc.1 (le_of_lt hlt)]
        · simp [mget, hb, hlt]
    · split
      · next h₁ h₂ =>
        by_cases hb : b = a
        · subst hb; simp [mget, h₁, h₂]
        · simp [hb]
      · next h₁ h₂ =>
        by_cases hk : b = k
        · subst hk; have : b ≠ a := by omega
          simp [mget, this]
        · by_cases hlt : b < k
          · have : b ≠ a := by omega
            simp [mget, hk, hlt, this]
          · simp [mget, hk, hlt, ih hc.2]

theorem mmod_wf (m : Map α) (a : Nat) (g : α → α) (h : mwf m = true) : mwf (mmod m a g) = true := by
  unfold mmod
  split
  · exact mput_wf m a _ h
  · exact h

/-! ## Memories -/

theorem Memory.wf_iff (m : Memory) : m.wf = true ↔ mwf m = true ∧ ∀ c ∈ m, c.2 ≠ memDefault := by
  simp [Memory.wf]

theorem mem_mput {m : Map α} {a : Nat} {x : α} {q : Nat × α} (h : q ∈ mput m a x) : q = (a, x) ∨ q ∈ m := by
  induction m with
  | nil => simpa [mput] using h
  | cons p m ih =>
    obtain ⟨k, v⟩ := p
    unfold mput at h
    split at h
    · rcases List.mem_cons.1 h with rfl | h
      · exact .inl rfl
      · exact .inr h
    · split at h
      · rcases List.mem_cons.1 h with rfl | h
        · exact .inl rfl
        · exact .inr (List.mem_cons_of_mem _ h)
      · rcases List.mem_cons.1 h with rfl | h
        · exact .inr (List.mem_cons_self ..)
        · exact (ih h).imp_right (List.mem_cons_of_mem _)

theorem mem_mdel {m : Map α} {a : Nat} {q : Nat × α} (h : q ∈ mdel m a) : q ∈ m := by
  induction m with
  | nil => simp [mdel] at h
  | cons p m ih =>
    obtain ⟨k, v⟩ := p
    unfold mdel at h
    split at h
    · exact List.mem_cons_of_mem _ h
    · split at h
      · exact h
      · rcases List.mem_cons.1 h with rfl | h
        · exact List.mem_cons_self ..
        · exact List.mem_cons_of_mem _ (ih h)

/-- Writing one byte keeps the canonical form. -/
theorem Memory.write_wf (m : Memory) (a : Nat) (b : Byte) (h : m.wf = true) : (m.write a b).wf = true := by
  have hw := (Memory.wf_iff m).1 h
  unfold Memory.write
  split
  · exact (Memory.wf_iff _).2 ⟨mdel_wf m a hw.1, fun c hc => hw.2 c (mem_mdel hc)⟩
  · next hb =>
    refine (Memory.wf_iff _).2 ⟨mput_wf m a b hw.1, fun c hc => ?_⟩
    rcases mem_mput hc with rfl | hc
    · exact hb
    · exact hw.2 c hc

/-- A read after a write of one byte. -/
theorem Memory.read_write (m : Memory) (a c : Nat) (b : Byte) (h : m.wf = true) :
    (m.write a b).read c = if c = a then b else m.read c := by
  have hw := ((Memory.wf_iff m).1 h).1
  unfold Memory.write Memory.read
  split
  · next hb => rw [mget_mdel m a c hw]; split <;> simp [hb]
  · rw [mget_mput]; split <;> simp

theorem Memory.writeBytes_wf (bs : List Byte) (m : Memory) (a : Nat) (h : m.wf = true) :
    (m.writeBytes a bs).wf = true := by
  induction bs generalizing m a with
  | nil => exact h
  | cons b bs ih => exact ih _ _ (Memory.write_wf m a b h)

theorem Memory.writeList_wf (bs : List (Nat × Byte)) (m : Memory) (h : m.wf = true) : (m.writeList bs).wf = true := by
  induction bs generalizing m with
  | nil => exact h
  | cons b bs ih => exact ih _ (Memory.write_wf m b.1 b.2 h)

/-- A byte outside the written range keeps its value. -/
theorem Memory.read_writeBytes_outside (bs : List Byte) (m : Memory) (a c : Nat) (h : m.wf = true)
    (hc : c < a ∨ a + bs.length ≤ c) : (m.writeBytes a bs).read c = m.read c := by
  induction bs generalizing m a with
  | nil => rfl
  | cons b bs ih =>
    have hlen : (b :: bs).length = bs.length + 1 := rfl
    have : (m.write a b).writeBytes (a + 1) bs = m.writeBytes a (b :: bs) := rfl
    rw [← this, ih _ _ (Memory.write_wf m a b h) (by omega), Memory.read_write m a c b h, if_neg (by omega)]

/-- A byte that a store does not name keeps its value. -/
theorem Memory.read_writeList_outside (bs : List (Nat × Byte)) (m : Memory) (c : Nat) (h : m.wf = true)
    (hc : ∀ p ∈ bs, p.1 ≠ c) : (m.writeList bs).read c = m.read c := by
  induction bs generalizing m with
  | nil => rfl
  | cons b bs ih =>
    have : (m.write b.1 b.2).writeList bs = m.writeList (b :: bs) := rfl
    rw [← this, ih _ (Memory.write_wf m b.1 b.2 h) fun p hp => hc p (List.mem_cons_of_mem _ hp),
      Memory.read_write m b.1 c b.2 h, if_neg (Ne.symm (hc b (List.mem_cons_self ..)))]

theorem mwf_iff (m : Map α) : mwf m = true ↔ m.Pairwise fun x y => x.1 < y.1 := by
  induction m with
  | nil => simp [mwf]
  | cons p m ih =>
    obtain ⟨k, v⟩ := p
    rw [mwf_cons, List.pairwise_cons, ih]
    rfl

theorem freeCells_mem {a n ix : Nat} {c : Host.Cell} (h : c ∈ freeCells a n ix) :
    a ≤ c.1 ∧ c.1 < a + n ∧ c.2 ≠ memDefault := by
  unfold freeCells at h
  obtain ⟨i, hi, hc⟩ := List.mem_filterMap.1 h
  split at hc
  · exact absurd hc (by simp)
  · next hne =>
    have hn := List.mem_range.1 hi
    obtain rfl := Option.some.inj hc
    exact ⟨by simp, by simpa using hn, hne⟩

theorem freeCells_sorted (a n ix : Nat) : (freeCells a n ix).Pairwise fun x y => x.1 < y.1 := by
  unfold freeCells
  refine List.Pairwise.filterMap _ (R := fun i j => i < j) ?_ List.pairwise_lt_range
  intro i j hij b hb c hc
  split at hb
  · exact absurd hb (by simp)
  · split at hc
    · exact absurd hc (by simp)
    · obtain rfl := Option.some.inj hb
      obtain rfl := Option.some.inj hc
      simpa using hij

/-- Free values keep the canonical form, whatever they are. -/
theorem Memory.fillFree_wf (m : Memory) (a n ix : Nat) (h : m.wf = true) : (m.fillFree a n ix).wf = true := by
  have hw := (Memory.wf_iff m).1 h
  have hs := (mwf_iff m).1 hw.1
  refine (Memory.wf_iff _).2 ⟨(mwf_iff _).2 ?_, ?_⟩
  · unfold Memory.fillFree
    refine List.pairwise_append.2 ⟨List.pairwise_append.2 ⟨hs.filter _, freeCells_sorted a n ix, ?_⟩, hs.filter _, ?_⟩
    · intro x hx y hy
      have hx' : x.1 < a := by simpa using (List.mem_filter.1 hx).2
      exact lt_of_lt_of_le hx' (freeCells_mem hy).1
    · intro x hx y hy
      have hy' : a + n ≤ y.1 := by simpa using (List.mem_filter.1 hy).2
      rcases List.mem_append.1 hx with hx | hx
      · have hx' : x.1 < a := by simpa using (List.mem_filter.1 hx).2
        omega
      · exact lt_of_lt_of_le (freeCells_mem hx).2.1 hy'
  · intro c hc
    unfold Memory.fillFree at hc
    rcases List.mem_append.1 hc with hc | hc
    · rcases List.mem_append.1 hc with hc | hc
      · exact hw.2 c (List.mem_filter.1 hc).1
      · exact (freeCells_mem hc).2.2
    · exact hw.2 c (List.mem_filter.1 hc).1

theorem mget_map_snd {α β : Type} (m : Map α) (k : Nat) (g : α → β) : mget (m.map fun q => (q.1, g q.2)) k = (mget m k).map g := by
  induction m with
  | nil => rfl
  | cons p m ih =>
    obtain ⟨a, v⟩ := p
    simp only [List.map_cons, mget]
    split
    · rfl
    · split
      · rfl
      · exact ih

end Sys2Proof.Machine
end

