-- ==== Sys2Proof/Laws/State.lean ====
section
/-!
SUPPORT. The updaters of the state: the fields that each leaves alone, and what a read gives after an update.
-/

namespace Sys2Proof.Machine

variable (s : State)

/-! ## Fields that an updater leaves alone -/

@[simp] theorem State.setFn_pending (f : FuncId) (x : Func) : (s.setFn f x).pending = s.pending := rfl
@[simp] theorem State.setFn_out (f : FuncId) (x : Func) : (s.setFn f x).out = s.out := rfl
@[simp] theorem State.setFn_freeIx (f : FuncId) (x : Func) : (s.setFn f x).freeIx = s.freeIx := rfl
@[simp] theorem State.setFn_accNo (f : FuncId) (x : Func) : (s.setFn f x).accNo = s.accNo := rfl
@[simp] theorem State.setFn_lclk (f : FuncId) (x : Func) : (s.setFn f x).lclk = s.lclk := rfl
@[simp] theorem State.setFn_upSince (f : FuncId) (x : Func) : (s.setFn f x).upSince = s.upSince := rfl
@[simp] theorem State.setFn_backup (f : FuncId) (x : Func) : (s.setFn f x).backup = s.backup := rfl
@[simp] theorem State.setFn_fclk (f : FuncId) (x : Func) : (s.setFn f x).fclk = s.fclk := rfl
@[simp] theorem State.setFn_hbm (f : FuncId) (x : Func) : (s.setFn f x).hbm = s.hbm := rfl
@[simp] theorem State.setFn_pins (f : FuncId) (x : Func) : (s.setFn f x).pins = s.pins := rfl
@[simp] theorem State.setFn_boot (f : FuncId) (x : Func) : (s.setFn f x).boot = s.boot := rfl
@[simp] theorem State.setFn_p2 (f : FuncId) (x : Func) : (s.setFn f x).p2 = s.p2 := rfl
@[simp] theorem State.setFn_p2Cond (f : FuncId) (x : Func) : (s.setFn f x).p2Cond = s.p2Cond := rfl
@[simp] theorem State.setFn_p2Since (f : FuncId) (x : Func) : (s.setFn f x).p2Since = s.p2Since := rfl
@[simp] theorem State.setFn_pcpReset (f : FuncId) (x : Func) : (s.setFn f x).pcpReset = s.pcpReset := rfl
@[simp] theorem State.setFn_power (f : FuncId) (x : Func) : (s.setFn f x).power = s.power := rfl
@[simp] theorem State.setFn_sensors (f : FuncId) (x : Func) : (s.setFn f x).sensors = s.sensors := rfl
@[simp] theorem State.setFn_stores (f : FuncId) (x : Func) : (s.setFn f x).stores = s.stores := rfl
@[simp] theorem State.setFn_secure (f : FuncId) (x : Func) : (s.setFn f x).secure = s.secure := rfl
@[simp] theorem State.setFn_spdm (f : FuncId) (x : Func) : (s.setFn f x).spdm = s.spdm := rfl
@[simp] theorem State.setFn_sessions (f : FuncId) (x : Func) : (s.setFn f x).sessions = s.sessions := rfl
@[simp] theorem State.setFn_eventReceiver (f : FuncId) (x : Func) : (s.setFn f x).eventReceiver = s.eventReceiver := rfl
@[simp] theorem State.setFn_update (f : FuncId) (x : Func) : (s.setFn f x).update = s.update := rfl
@[simp] theorem State.setFn_pcp (f : FuncId) (x : Func) : (s.setFn f x).pcp = s.pcp := rfl
@[simp] theorem State.setFn_expCtr (f : FuncId) (x : Func) : (s.setFn f x).expCtr = s.expCtr := rfl
@[simp] theorem State.setFn_nvsWait (f : FuncId) (x : Func) : (s.setFn f x).nvsWait = s.nvsWait := rfl
@[simp] theorem State.setFn_fatal (f : FuncId) (x : Func) : (s.setFn f x).fatal = s.fatal := rfl
@[simp] theorem State.setFn_pairs (f : FuncId) (x : Func) : (s.setFn f x).pairs = s.pairs := rfl
@[simp] theorem State.setFn_restart (f : FuncId) (x : Func) : (s.setFn f x).restart = s.restart := rfl
@[simp] theorem State.setFn_restarts (f : FuncId) (x : Func) : (s.setFn f x).restarts = s.restarts := rfl
@[simp] theorem State.setFn_restartTimes (f : FuncId) (x : Func) : (s.setFn f x).restartTimes = s.restartTimes := rfl
@[simp] theorem State.setFn_latent (f : FuncId) (x : Func) : (s.setFn f x).latent = s.latent := rfl
@[simp] theorem State.setFn_cmds (f : FuncId) (x : Func) : (s.setFn f x).cmds = s.cmds := rfl
@[simp] theorem State.setFn_ports (f : FuncId) (x : Func) : (s.setFn f x).ports = s.ports := rfl
@[simp] theorem State.setFn_plots (f : FuncId) (x : Func) : (s.setFn f x).plots = s.plots := rfl
@[simp] theorem State.setFn_engines (f : FuncId) (x : Func) : (s.setFn f x).engines = s.engines := rfl
@[simp] theorem State.setFn_devZeroing (f : FuncId) (x : Func) : (s.setFn f x).devZeroing = s.devZeroing := rfl
@[simp] theorem State.setFn_keeper (f : FuncId) (x : Func) : (s.setFn f x).keeper = s.keeper := rfl
@[simp] theorem State.setFn_devLog (f : FuncId) (x : Func) : (s.setFn f x).devLog = s.devLog := rfl
@[simp] theorem State.setFn_devNew (f : FuncId) (x : Func) : (s.setFn f x).devNew = s.devNew := rfl
@[simp] theorem State.setFn_devLost (f : FuncId) (x : Func) : (s.setFn f x).devLost = s.devLost := rfl
@[simp] theorem State.setFn_devCe (f : FuncId) (x : Func) : (s.setFn f x).devCe = s.devCe := rfl
@[simp] theorem State.setFn_devSetAt (f : FuncId) (x : Func) : (s.setFn f x).devSetAt = s.devSetAt := rfl
@[simp] theorem State.setFn_routesLost (f : FuncId) (x : Func) : (s.setFn f x).routesLost = s.routesLost := rfl
@[simp] theorem State.setFn_telSnap (f : FuncId) (x : Func) : (s.setFn f x).telSnap = s.telSnap := rfl
@[simp] theorem State.setFn_energy (f : FuncId) (x : Func) : (s.setFn f x).energy = s.energy := rfl
@[simp] theorem State.setFn_fabRetry (f : FuncId) (x : Func) : (s.setFn f x).fabRetry = s.fabRetry := rfl
@[simp] theorem State.setFn_moverRetry (f : FuncId) (x : Func) : (s.setFn f x).moverRetry = s.moverRetry := rfl
@[simp] theorem State.setFn_devSnap (f : FuncId) (x : Func) : (s.setFn f x).devSnap = s.devSnap := rfl

@[simp] theorem State.setPort_pending (p : Nat) (x : Port) : (s.setPort p x).pending = s.pending := rfl
@[simp] theorem State.setPort_out (p : Nat) (x : Port) : (s.setPort p x).out = s.out := rfl
@[simp] theorem State.setPort_freeIx (p : Nat) (x : Port) : (s.setPort p x).freeIx = s.freeIx := rfl
@[simp] theorem State.setPort_accNo (p : Nat) (x : Port) : (s.setPort p x).accNo = s.accNo := rfl
@[simp] theorem State.setPort_lclk (p : Nat) (x : Port) : (s.setPort p x).lclk = s.lclk := rfl
@[simp] theorem State.setPort_upSince (p : Nat) (x : Port) : (s.setPort p x).upSince = s.upSince := rfl
@[simp] theorem State.setPort_backup (p : Nat) (x : Port) : (s.setPort p x).backup = s.backup := rfl
@[simp] theorem State.setPort_fclk (p : Nat) (x : Port) : (s.setPort p x).fclk = s.fclk := rfl
@[simp] theorem State.setPort_hbm (p : Nat) (x : Port) : (s.setPort p x).hbm = s.hbm := rfl
@[simp] theorem State.setPort_pins (p : Nat) (x : Port) : (s.setPort p x).pins = s.pins := rfl
@[simp] theorem State.setPort_boot (p : Nat) (x : Port) : (s.setPort p x).boot = s.boot := rfl
@[simp] theorem State.setPort_p2 (p : Nat) (x : Port) : (s.setPort p x).p2 = s.p2 := rfl
@[simp] theorem State.setPort_p2Cond (p : Nat) (x : Port) : (s.setPort p x).p2Cond = s.p2Cond := rfl
@[simp] theorem State.setPort_p2Since (p : Nat) (x : Port) : (s.setPort p x).p2Since = s.p2Since := rfl
@[simp] theorem State.setPort_pcpReset (p : Nat) (x : Port) : (s.setPort p x).pcpReset = s.pcpReset := rfl
@[simp] theorem State.setPort_power (p : Nat) (x : Port) : (s.setPort p x).power = s.power := rfl
@[simp] theorem State.setPort_sensors (p : Nat) (x : Port) : (s.setPort p x).sensors = s.sensors := rfl
@[simp] theorem State.setPort_stores (p : Nat) (x : Port) : (s.setPort p x).stores = s.stores := rfl
@[simp] theorem State.setPort_secure (p : Nat) (x : Port) : (s.setPort p x).secure = s.secure := rfl
@[simp] theorem State.setPort_spdm (p : Nat) (x : Port) : (s.setPort p x).spdm = s.spdm := rfl
@[simp] theorem State.setPort_sessions (p : Nat) (x : Port) : (s.setPort p x).sessions = s.sessions := rfl
@[simp] theorem State.setPort_eventReceiver (p : Nat) (x : Port) : (s.setPort p x).eventReceiver = s.eventReceiver := rfl
@[simp] theorem State.setPort_update (p : Nat) (x : Port) : (s.setPort p x).update = s.update := rfl
@[simp] theorem State.setPort_pcp (p : Nat) (x : Port) : (s.setPort p x).pcp = s.pcp := rfl
@[simp] theorem State.setPort_expCtr (p : Nat) (x : Port) : (s.setPort p x).expCtr = s.expCtr := rfl
@[simp] theorem State.setPort_nvsWait (p : Nat) (x : Port) : (s.setPort p x).nvsWait = s.nvsWait := rfl
@[simp] theorem State.setPort_fatal (p : Nat) (x : Port) : (s.setPort p x).fatal = s.fatal := rfl
@[simp] theorem State.setPort_pairs (p : Nat) (x : Port) : (s.setPort p x).pairs = s.pairs := rfl
@[simp] theorem State.setPort_restart (p : Nat) (x : Port) : (s.setPort p x).restart = s.restart := rfl
@[simp] theorem State.setPort_restarts (p : Nat) (x : Port) : (s.setPort p x).restarts = s.restarts := rfl
@[simp] theorem State.setPort_restartTimes (p : Nat) (x : Port) : (s.setPort p x).restartTimes = s.restartTimes := rfl
@[simp] theorem State.setPort_latent (p : Nat) (x : Port) : (s.setPort p x).latent = s.latent := rfl
@[simp] theorem State.setPort_cmds (p : Nat) (x : Port) : (s.setPort p x).cmds = s.cmds := rfl
@[simp] theorem State.setPort_funcs (p : Nat) (x : Port) : (s.setPort p x).funcs = s.funcs := rfl
@[simp] theorem State.setPort_plots (p : Nat) (x : Port) : (s.setPort p x).plots = s.plots := rfl
@[simp] theorem State.setPort_engines (p : Nat) (x : Port) : (s.setPort p x).engines = s.engines := rfl
@[simp] theorem State.setPort_devZeroing (p : Nat) (x : Port) : (s.setPort p x).devZeroing = s.devZeroing := rfl
@[simp] theorem State.setPort_keeper (p : Nat) (x : Port) : (s.setPort p x).keeper = s.keeper := rfl
@[simp] theorem State.setPort_devLog (p : Nat) (x : Port) : (s.setPort p x).devLog = s.devLog := rfl
@[simp] theorem State.setPort_devNew (p : Nat) (x : Port) : (s.setPort p x).devNew = s.devNew := rfl
@[simp] theorem State.setPort_devLost (p : Nat) (x : Port) : (s.setPort p x).devLost = s.devLost := rfl
@[simp] theorem State.setPort_devCe (p : Nat) (x : Port) : (s.setPort p x).devCe = s.devCe := rfl
@[simp] theorem State.setPort_devSetAt (p : Nat) (x : Port) : (s.setPort p x).devSetAt = s.devSetAt := rfl
@[simp] theorem State.setPort_routesLost (p : Nat) (x : Port) : (s.setPort p x).routesLost = s.routesLost := rfl
@[simp] theorem State.setPort_telSnap (p : Nat) (x : Port) : (s.setPort p x).telSnap = s.telSnap := rfl
@[simp] theorem State.setPort_energy (p : Nat) (x : Port) : (s.setPort p x).energy = s.energy := rfl
@[simp] theorem State.setPort_fabRetry (p : Nat) (x : Port) : (s.setPort p x).fabRetry = s.fabRetry := rfl
@[simp] theorem State.setPort_moverRetry (p : Nat) (x : Port) : (s.setPort p x).moverRetry = s.moverRetry := rfl
@[simp] theorem State.setPort_devSnap (p : Nat) (x : Port) : (s.setPort p x).devSnap = s.devSnap := rfl

@[simp] theorem State.setEng_pending (e : Nat) (x : Engine) : (s.setEng e x).pending = s.pending := rfl
@[simp] theorem State.setEng_out (e : Nat) (x : Engine) : (s.setEng e x).out = s.out := rfl
@[simp] theorem State.setEng_freeIx (e : Nat) (x : Engine) : (s.setEng e x).freeIx = s.freeIx := rfl
@[simp] theorem State.setEng_accNo (e : Nat) (x : Engine) : (s.setEng e x).accNo = s.accNo := rfl
@[simp] theorem State.setEng_lclk (e : Nat) (x : Engine) : (s.setEng e x).lclk = s.lclk := rfl
@[simp] theorem State.setEng_upSince (e : Nat) (x : Engine) : (s.setEng e x).upSince = s.upSince := rfl
@[simp] theorem State.setEng_backup (e : Nat) (x : Engine) : (s.setEng e x).backup = s.backup := rfl
@[simp] theorem State.setEng_fclk (e : Nat) (x : Engine) : (s.setEng e x).fclk = s.fclk := rfl
@[simp] theorem State.setEng_hbm (e : Nat) (x : Engine) : (s.setEng e x).hbm = s.hbm := rfl
@[simp] theorem State.setEng_pins (e : Nat) (x : Engine) : (s.setEng e x).pins = s.pins := rfl
@[simp] theorem State.setEng_boot (e : Nat) (x : Engine) : (s.setEng e x).boot = s.boot := rfl
@[simp] theorem State.setEng_p2 (e : Nat) (x : Engine) : (s.setEng e x).p2 = s.p2 := rfl
@[simp] theorem State.setEng_p2Cond (e : Nat) (x : Engine) : (s.setEng e x).p2Cond = s.p2Cond := rfl
@[simp] theorem State.setEng_p2Since (e : Nat) (x : Engine) : (s.setEng e x).p2Since = s.p2Since := rfl
@[simp] theorem State.setEng_pcpReset (e : Nat) (x : Engine) : (s.setEng e x).pcpReset = s.pcpReset := rfl
@[simp] theorem State.setEng_power (e : Nat) (x : Engine) : (s.setEng e x).power = s.power := rfl
@[simp] theorem State.setEng_sensors (e : Nat) (x : Engine) : (s.setEng e x).sensors = s.sensors := rfl
@[simp] theorem State.setEng_stores (e : Nat) (x : Engine) : (s.setEng e x).stores = s.stores := rfl
@[simp] theorem State.setEng_secure (e : Nat) (x : Engine) : (s.setEng e x).secure = s.secure := rfl
@[simp] theorem State.setEng_spdm (e : Nat) (x : Engine) : (s.setEng e x).spdm = s.spdm := rfl
@[simp] theorem State.setEng_sessions (e : Nat) (x : Engine) : (s.setEng e x).sessions = s.sessions := rfl
@[simp] theorem State.setEng_eventReceiver (e : Nat) (x : Engine) : (s.setEng e x).eventReceiver = s.eventReceiver := rfl
@[simp] theorem State.setEng_update (e : Nat) (x : Engine) : (s.setEng e x).update = s.update := rfl
@[simp] theorem State.setEng_pcp (e : Nat) (x : Engine) : (s.setEng e x).pcp = s.pcp := rfl
@[simp] theorem State.setEng_expCtr (e : Nat) (x : Engine) : (s.setEng e x).expCtr = s.expCtr := rfl
@[simp] theorem State.setEng_nvsWait (e : Nat) (x : Engine) : (s.setEng e x).nvsWait = s.nvsWait := rfl
@[simp] theorem State.setEng_fatal (e : Nat) (x : Engine) : (s.setEng e x).fatal = s.fatal := rfl
@[simp] theorem State.setEng_pairs (e : Nat) (x : Engine) : (s.setEng e x).pairs = s.pairs := rfl
@[simp] theorem State.setEng_restart (e : Nat) (x : Engine) : (s.setEng e x).restart = s.restart := rfl
@[simp] theorem State.setEng_restarts (e : Nat) (x : Engine) : (s.setEng e x).restarts = s.restarts := rfl
@[simp] theorem State.setEng_restartTimes (e : Nat) (x : Engine) : (s.setEng e x).restartTimes = s.restartTimes := rfl
@[simp] theorem State.setEng_latent (e : Nat) (x : Engine) : (s.setEng e x).latent = s.latent := rfl
@[simp] theorem State.setEng_cmds (e : Nat) (x : Engine) : (s.setEng e x).cmds = s.cmds := rfl
@[simp] theorem State.setEng_funcs (e : Nat) (x : Engine) : (s.setEng e x).funcs = s.funcs := rfl
@[simp] theorem State.setEng_ports (e : Nat) (x : Engine) : (s.setEng e x).ports = s.ports := rfl
@[simp] theorem State.setEng_plots (e : Nat) (x : Engine) : (s.setEng e x).plots = s.plots := rfl
@[simp] theorem State.setEng_devZeroing (e : Nat) (x : Engine) : (s.setEng e x).devZeroing = s.devZeroing := rfl
@[simp] theorem State.setEng_keeper (e : Nat) (x : Engine) : (s.setEng e x).keeper = s.keeper := rfl
@[simp] theorem State.setEng_devLog (e : Nat) (x : Engine) : (s.setEng e x).devLog = s.devLog := rfl
@[simp] theorem State.setEng_devNew (e : Nat) (x : Engine) : (s.setEng e x).devNew = s.devNew := rfl
@[simp] theorem State.setEng_devLost (e : Nat) (x : Engine) : (s.setEng e x).devLost = s.devLost := rfl
@[simp] theorem State.setEng_devCe (e : Nat) (x : Engine) : (s.setEng e x).devCe = s.devCe := rfl
@[simp] theorem State.setEng_devSetAt (e : Nat) (x : Engine) : (s.setEng e x).devSetAt = s.devSetAt := rfl
@[simp] theorem State.setEng_routesLost (e : Nat) (x : Engine) : (s.setEng e x).routesLost = s.routesLost := rfl
@[simp] theorem State.setEng_telSnap (e : Nat) (x : Engine) : (s.setEng e x).telSnap = s.telSnap := rfl
@[simp] theorem State.setEng_energy (e : Nat) (x : Engine) : (s.setEng e x).energy = s.energy := rfl
@[simp] theorem State.setEng_fabRetry (e : Nat) (x : Engine) : (s.setEng e x).fabRetry = s.fabRetry := rfl
@[simp] theorem State.setEng_moverRetry (e : Nat) (x : Engine) : (s.setEng e x).moverRetry = s.moverRetry := rfl
@[simp] theorem State.setEng_devSnap (e : Nat) (x : Engine) : (s.setEng e x).devSnap = s.devSnap := rfl

@[simp] theorem State.setPair_pending (i : Nat) (x : Pair) : (s.setPair i x).pending = s.pending := rfl
@[simp] theorem State.setPair_out (i : Nat) (x : Pair) : (s.setPair i x).out = s.out := rfl
@[simp] theorem State.setPair_freeIx (i : Nat) (x : Pair) : (s.setPair i x).freeIx = s.freeIx := rfl
@[simp] theorem State.setPair_accNo (i : Nat) (x : Pair) : (s.setPair i x).accNo = s.accNo := rfl
@[simp] theorem State.setPair_lclk (i : Nat) (x : Pair) : (s.setPair i x).lclk = s.lclk := rfl
@[simp] theorem State.setPair_upSince (i : Nat) (x : Pair) : (s.setPair i x).upSince = s.upSince := rfl
@[simp] theorem State.setPair_backup (i : Nat) (x : Pair) : (s.setPair i x).backup = s.backup := rfl
@[simp] theorem State.setPair_fclk (i : Nat) (x : Pair) : (s.setPair i x).fclk = s.fclk := rfl
@[simp] theorem State.setPair_hbm (i : Nat) (x : Pair) : (s.setPair i x).hbm = s.hbm := rfl
@[simp] theorem State.setPair_pins (i : Nat) (x : Pair) : (s.setPair i x).pins = s.pins := rfl
@[simp] theorem State.setPair_boot (i : Nat) (x : Pair) : (s.setPair i x).boot = s.boot := rfl
@[simp] theorem State.setPair_p2 (i : Nat) (x : Pair) : (s.setPair i x).p2 = s.p2 := rfl
@[simp] theorem State.setPair_p2Cond (i : Nat) (x : Pair) : (s.setPair i x).p2Cond = s.p2Cond := rfl
@[simp] theorem State.setPair_p2Since (i : Nat) (x : Pair) : (s.setPair i x).p2Since = s.p2Since := rfl
@[simp] theorem State.setPair_pcpReset (i : Nat) (x : Pair) : (s.setPair i x).pcpReset = s.pcpReset := rfl
@[simp] theorem State.setPair_power (i : Nat) (x : Pair) : (s.setPair i x).power = s.power := rfl
@[simp] theorem State.setPair_sensors (i : Nat) (x : Pair) : (s.setPair i x).sensors = s.sensors := rfl
@[simp] theorem State.setPair_stores (i : Nat) (x : Pair) : (s.setPair i x).stores = s.stores := rfl
@[simp] theorem State.setPair_secure (i : Nat) (x : Pair) : (s.setPair i x).secure = s.secure := rfl
@[simp] theorem State.setPair_spdm (i : Nat) (x : Pair) : (s.setPair i x).spdm = s.spdm := rfl
@[simp] theorem State.setPair_sessions (i : Nat) (x : Pair) : (s.setPair i x).sessions = s.sessions := rfl
@[simp] theorem State.setPair_eventReceiver (i : Nat) (x : Pair) : (s.setPair i x).eventReceiver = s.eventReceiver := rfl
@[simp] theorem State.setPair_update (i : Nat) (x : Pair) : (s.setPair i x).update = s.update := rfl
@[simp] theorem State.setPair_pcp (i : Nat) (x : Pair) : (s.setPair i x).pcp = s.pcp := rfl
@[simp] theorem State.setPair_expCtr (i : Nat) (x : Pair) : (s.setPair i x).expCtr = s.expCtr := rfl
@[simp] theorem State.setPair_nvsWait (i : Nat) (x : Pair) : (s.setPair i x).nvsWait = s.nvsWait := rfl
@[simp] theorem State.setPair_fatal (i : Nat) (x : Pair) : (s.setPair i x).fatal = s.fatal := rfl
@[simp] theorem State.setPair_restart (i : Nat) (x : Pair) : (s.setPair i x).restart = s.restart := rfl
@[simp] theorem State.setPair_restarts (i : Nat) (x : Pair) : (s.setPair i x).restarts = s.restarts := rfl
@[simp] theorem State.setPair_restartTimes (i : Nat) (x : Pair) : (s.setPair i x).restartTimes = s.restartTimes := rfl
@[simp] theorem State.setPair_latent (i : Nat) (x : Pair) : (s.setPair i x).latent = s.latent := rfl
@[simp] theorem State.setPair_cmds (i : Nat) (x : Pair) : (s.setPair i x).cmds = s.cmds := rfl
@[simp] theorem State.setPair_funcs (i : Nat) (x : Pair) : (s.setPair i x).funcs = s.funcs := rfl
@[simp] theorem State.setPair_ports (i : Nat) (x : Pair) : (s.setPair i x).ports = s.ports := rfl
@[simp] theorem State.setPair_plots (i : Nat) (x : Pair) : (s.setPair i x).plots = s.plots := rfl
@[simp] theorem State.setPair_engines (i : Nat) (x : Pair) : (s.setPair i x).engines = s.engines := rfl
@[simp] theorem State.setPair_devZeroing (i : Nat) (x : Pair) : (s.setPair i x).devZeroing = s.devZeroing := rfl
@[simp] theorem State.setPair_keeper (i : Nat) (x : Pair) : (s.setPair i x).keeper = s.keeper := rfl
@[simp] theorem State.setPair_devLog (i : Nat) (x : Pair) : (s.setPair i x).devLog = s.devLog := rfl
@[simp] theorem State.setPair_devNew (i : Nat) (x : Pair) : (s.setPair i x).devNew = s.devNew := rfl
@[simp] theorem State.setPair_devLost (i : Nat) (x : Pair) : (s.setPair i x).devLost = s.devLost := rfl
@[simp] theorem State.setPair_devCe (i : Nat) (x : Pair) : (s.setPair i x).devCe = s.devCe := rfl
@[simp] theorem State.setPair_devSetAt (i : Nat) (x : Pair) : (s.setPair i x).devSetAt = s.devSetAt := rfl
@[simp] theorem State.setPair_routesLost (i : Nat) (x : Pair) : (s.setPair i x).routesLost = s.routesLost := rfl
@[simp] theorem State.setPair_telSnap (i : Nat) (x : Pair) : (s.setPair i x).telSnap = s.telSnap := rfl
@[simp] theorem State.setPair_energy (i : Nat) (x : Pair) : (s.setPair i x).energy = s.energy := rfl
@[simp] theorem State.setPair_fabRetry (i : Nat) (x : Pair) : (s.setPair i x).fabRetry = s.fabRetry := rfl
@[simp] theorem State.setPair_moverRetry (i : Nat) (x : Pair) : (s.setPair i x).moverRetry = s.moverRetry := rfl
@[simp] theorem State.setPair_devSnap (i : Nat) (x : Pair) : (s.setPair i x).devSnap = s.devSnap := rfl

@[simp] theorem State.setStack_pending (i : Nat) (x : Hbm) : (s.setStack i x).pending = s.pending := rfl
@[simp] theorem State.setStack_out (i : Nat) (x : Hbm) : (s.setStack i x).out = s.out := rfl
@[simp] theorem State.setStack_freeIx (i : Nat) (x : Hbm) : (s.setStack i x).freeIx = s.freeIx := rfl
@[simp] theorem State.setStack_accNo (i : Nat) (x : Hbm) : (s.setStack i x).accNo = s.accNo := rfl
@[simp] theorem State.setStack_lclk (i : Nat) (x : Hbm) : (s.setStack i x).lclk = s.lclk := rfl
@[simp] theorem State.setStack_upSince (i : Nat) (x : Hbm) : (s.setStack i x).upSince = s.upSince := rfl
@[simp] theorem State.setStack_backup (i : Nat) (x : Hbm) : (s.setStack i x).backup = s.backup := rfl
@[simp] theorem State.setStack_fclk (i : Nat) (x : Hbm) : (s.setStack i x).fclk = s.fclk := rfl
@[simp] theorem State.setStack_pins (i : Nat) (x : Hbm) : (s.setStack i x).pins = s.pins := rfl
@[simp] theorem State.setStack_boot (i : Nat) (x : Hbm) : (s.setStack i x).boot = s.boot := rfl
@[simp] theorem State.setStack_p2 (i : Nat) (x : Hbm) : (s.setStack i x).p2 = s.p2 := rfl
@[simp] theorem State.setStack_p2Cond (i : Nat) (x : Hbm) : (s.setStack i x).p2Cond = s.p2Cond := rfl
@[simp] theorem State.setStack_p2Since (i : Nat) (x : Hbm) : (s.setStack i x).p2Since = s.p2Since := rfl
@[simp] theorem State.setStack_pcpReset (i : Nat) (x : Hbm) : (s.setStack i x).pcpReset = s.pcpReset := rfl
@[simp] theorem State.setStack_power (i : Nat) (x : Hbm) : (s.setStack i x).power = s.power := rfl
@[simp] theorem State.setStack_sensors (i : Nat) (x : Hbm) : (s.setStack i x).sensors = s.sensors := rfl
@[simp] theorem State.setStack_stores (i : Nat) (x : Hbm) : (s.setStack i x).stores = s.stores := rfl
@[simp] theorem State.setStack_secure (i : Nat) (x : Hbm) : (s.setStack i x).secure = s.secure := rfl
@[simp] theorem State.setStack_spdm (i : Nat) (x : Hbm) : (s.setStack i x).spdm = s.spdm := rfl
@[simp] theorem State.setStack_sessions (i : Nat) (x : Hbm) : (s.setStack i x).sessions = s.sessions := rfl
@[simp] theorem State.setStack_eventReceiver (i : Nat) (x : Hbm) : (s.setStack i x).eventReceiver = s.eventReceiver := rfl
@[simp] theorem State.setStack_update (i : Nat) (x : Hbm) : (s.setStack i x).update = s.update := rfl
@[simp] theorem State.setStack_pcp (i : Nat) (x : Hbm) : (s.setStack i x).pcp = s.pcp := rfl
@[simp] theorem State.setStack_expCtr (i : Nat) (x : Hbm) : (s.setStack i x).expCtr = s.expCtr := rfl
@[simp] theorem State.setStack_nvsWait (i : Nat) (x : Hbm) : (s.setStack i x).nvsWait = s.nvsWait := rfl
@[simp] theorem State.setStack_fatal (i : Nat) (x : Hbm) : (s.setStack i x).fatal = s.fatal := rfl
@[simp] theorem State.setStack_pairs (i : Nat) (x : Hbm) : (s.setStack i x).pairs = s.pairs := rfl
@[simp] theorem State.setStack_restart (i : Nat) (x : Hbm) : (s.setStack i x).restart = s.restart := rfl
@[simp] theorem State.setStack_restarts (i : Nat) (x : Hbm) : (s.setStack i x).restarts = s.restarts := rfl
@[simp] theorem State.setStack_restartTimes (i : Nat) (x : Hbm) : (s.setStack i x).restartTimes = s.restartTimes := rfl
@[simp] theorem State.setStack_latent (i : Nat) (x : Hbm) : (s.setStack i x).latent = s.latent := rfl
@[simp] theorem State.setStack_cmds (i : Nat) (x : Hbm) : (s.setStack i x).cmds = s.cmds := rfl
@[simp] theorem State.setStack_funcs (i : Nat) (x : Hbm) : (s.setStack i x).funcs = s.funcs := rfl
@[simp] theorem State.setStack_ports (i : Nat) (x : Hbm) : (s.setStack i x).ports = s.ports := rfl
@[simp] theorem State.setStack_plots (i : Nat) (x : Hbm) : (s.setStack i x).plots = s.plots := rfl
@[simp] theorem State.setStack_engines (i : Nat) (x : Hbm) : (s.setStack i x).engines = s.engines := rfl
@[simp] theorem State.setStack_devZeroing (i : Nat) (x : Hbm) : (s.setStack i x).devZeroing = s.devZeroing := rfl
@[simp] theorem State.setStack_keeper (i : Nat) (x : Hbm) : (s.setStack i x).keeper = s.keeper := rfl
@[simp] theorem State.setStack_devLog (i : Nat) (x : Hbm) : (s.setStack i x).devLog = s.devLog := rfl
@[simp] theorem State.setStack_devNew (i : Nat) (x : Hbm) : (s.setStack i x).devNew = s.devNew := rfl
@[simp] theorem State.setStack_devLost (i : Nat) (x : Hbm) : (s.setStack i x).devLost = s.devLost := rfl
@[simp] theorem State.setStack_devCe (i : Nat) (x : Hbm) : (s.setStack i x).devCe = s.devCe := rfl
@[simp] theorem State.setStack_devSetAt (i : Nat) (x : Hbm) : (s.setStack i x).devSetAt = s.devSetAt := rfl
@[simp] theorem State.setStack_routesLost (i : Nat) (x : Hbm) : (s.setStack i x).routesLost = s.routesLost := rfl
@[simp] theorem State.setStack_telSnap (i : Nat) (x : Hbm) : (s.setStack i x).telSnap = s.telSnap := rfl
@[simp] theorem State.setStack_energy (i : Nat) (x : Hbm) : (s.setStack i x).energy = s.energy := rfl
@[simp] theorem State.setStack_fabRetry (i : Nat) (x : Hbm) : (s.setStack i x).fabRetry = s.fabRetry := rfl
@[simp] theorem State.setStack_moverRetry (i : Nat) (x : Hbm) : (s.setStack i x).moverRetry = s.moverRetry := rfl
@[simp] theorem State.setStack_devSnap (i : Nat) (x : Hbm) : (s.setStack i x).devSnap = s.devSnap := rfl

@[simp] theorem State.setPlot_pending (p : Nat) (x : Plot) : (s.setPlot p x).pending = s.pending := rfl
@[simp] theorem State.setPlot_out (p : Nat) (x : Plot) : (s.setPlot p x).out = s.out := rfl
@[simp] theorem State.setPlot_freeIx (p : Nat) (x : Plot) : (s.setPlot p x).freeIx = s.freeIx := rfl
@[simp] theorem State.setPlot_accNo (p : Nat) (x : Plot) : (s.setPlot p x).accNo = s.accNo := rfl
@[simp] theorem State.setPlot_lclk (p : Nat) (x : Plot) : (s.setPlot p x).lclk = s.lclk := rfl
@[simp] theorem State.setPlot_upSince (p : Nat) (x : Plot) : (s.setPlot p x).upSince = s.upSince := rfl
@[simp] theorem State.setPlot_backup (p : Nat) (x : Plot) : (s.setPlot p x).backup = s.backup := rfl
@[simp] theorem State.setPlot_fclk (p : Nat) (x : Plot) : (s.setPlot p x).fclk = s.fclk := rfl
@[simp] theorem State.setPlot_hbm (p : Nat) (x : Plot) : (s.setPlot p x).hbm = s.hbm := rfl
@[simp] theorem State.setPlot_pins (p : Nat) (x : Plot) : (s.setPlot p x).pins = s.pins := rfl
@[simp] theorem State.setPlot_boot (p : Nat) (x : Plot) : (s.setPlot p x).boot = s.boot := rfl
@[simp] theorem State.setPlot_p2 (p : Nat) (x : Plot) : (s.setPlot p x).p2 = s.p2 := rfl
@[simp] theorem State.setPlot_p2Cond (p : Nat) (x : Plot) : (s.setPlot p x).p2Cond = s.p2Cond := rfl
@[simp] theorem State.setPlot_p2Since (p : Nat) (x : Plot) : (s.setPlot p x).p2Since = s.p2Since := rfl
@[simp] theorem State.setPlot_pcpReset (p : Nat) (x : Plot) : (s.setPlot p x).pcpReset = s.pcpReset := rfl
@[simp] theorem State.setPlot_power (p : Nat) (x : Plot) : (s.setPlot p x).power = s.power := rfl
@[simp] theorem State.setPlot_sensors (p : Nat) (x : Plot) : (s.setPlot p x).sensors = s.sensors := rfl
@[simp] theorem State.setPlot_stores (p : Nat) (x : Plot) : (s.setPlot p x).stores = s.stores := rfl
@[simp] theorem State.setPlot_secure (p : Nat) (x : Plot) : (s.setPlot p x).secure = s.secure := rfl
@[simp] theorem State.setPlot_spdm (p : Nat) (x : Plot) : (s.setPlot p x).spdm = s.spdm := rfl
@[simp] theorem State.setPlot_sessions (p : Nat) (x : Plot) : (s.setPlot p x).sessions = s.sessions := rfl
@[simp] theorem State.setPlot_eventReceiver (p : Nat) (x : Plot) : (s.setPlot p x).eventReceiver = s.eventReceiver := rfl
@[simp] theorem State.setPlot_update (p : Nat) (x : Plot) : (s.setPlot p x).update = s.update := rfl
@[simp] theorem State.setPlot_pcp (p : Nat) (x : Plot) : (s.setPlot p x).pcp = s.pcp := rfl
@[simp] theorem State.setPlot_expCtr (p : Nat) (x : Plot) : (s.setPlot p x).expCtr = s.expCtr := rfl
@[simp] theorem State.setPlot_nvsWait (p : Nat) (x : Plot) : (s.setPlot p x).nvsWait = s.nvsWait := rfl
@[simp] theorem State.setPlot_fatal (p : Nat) (x : Plot) : (s.setPlot p x).fatal = s.fatal := rfl
@[simp] theorem State.setPlot_pairs (p : Nat) (x : Plot) : (s.setPlot p x).pairs = s.pairs := rfl
@[simp] theorem State.setPlot_restart (p : Nat) (x : Plot) : (s.setPlot p x).restart = s.restart := rfl
@[simp] theorem State.setPlot_restarts (p : Nat) (x : Plot) : (s.setPlot p x).restarts = s.restarts := rfl
@[simp] theorem State.setPlot_restartTimes (p : Nat) (x : Plot) : (s.setPlot p x).restartTimes = s.restartTimes := rfl
@[simp] theorem State.setPlot_latent (p : Nat) (x : Plot) : (s.setPlot p x).latent = s.latent := rfl
@[simp] theorem State.setPlot_cmds (p : Nat) (x : Plot) : (s.setPlot p x).cmds = s.cmds := rfl
@[simp] theorem State.setPlot_funcs (p : Nat) (x : Plot) : (s.setPlot p x).funcs = s.funcs := rfl
@[simp] theorem State.setPlot_ports (p : Nat) (x : Plot) : (s.setPlot p x).ports = s.ports := rfl
@[simp] theorem State.setPlot_engines (p : Nat) (x : Plot) : (s.setPlot p x).engines = s.engines := rfl
@[simp] theorem State.setPlot_devZeroing (p : Nat) (x : Plot) : (s.setPlot p x).devZeroing = s.devZeroing := rfl
@[simp] theorem State.setPlot_keeper (p : Nat) (x : Plot) : (s.setPlot p x).keeper = s.keeper := rfl
@[simp] theorem State.setPlot_devLog (p : Nat) (x : Plot) : (s.setPlot p x).devLog = s.devLog := rfl
@[simp] theorem State.setPlot_devNew (p : Nat) (x : Plot) : (s.setPlot p x).devNew = s.devNew := rfl
@[simp] theorem State.setPlot_devLost (p : Nat) (x : Plot) : (s.setPlot p x).devLost = s.devLost := rfl
@[simp] theorem State.setPlot_devCe (p : Nat) (x : Plot) : (s.setPlot p x).devCe = s.devCe := rfl
@[simp] theorem State.setPlot_devSetAt (p : Nat) (x : Plot) : (s.setPlot p x).devSetAt = s.devSetAt := rfl
@[simp] theorem State.setPlot_routesLost (p : Nat) (x : Plot) : (s.setPlot p x).routesLost = s.routesLost := rfl
@[simp] theorem State.setPlot_telSnap (p : Nat) (x : Plot) : (s.setPlot p x).telSnap = s.telSnap := rfl
@[simp] theorem State.setPlot_energy (p : Nat) (x : Plot) : (s.setPlot p x).energy = s.energy := rfl
@[simp] theorem State.setPlot_fabRetry (p : Nat) (x : Plot) : (s.setPlot p x).fabRetry = s.fabRetry := rfl
@[simp] theorem State.setPlot_moverRetry (p : Nat) (x : Plot) : (s.setPlot p x).moverRetry = s.moverRetry := rfl
@[simp] theorem State.setPlot_devSnap (p : Nat) (x : Plot) : (s.setPlot p x).devSnap = s.devSnap := rfl

@[simp] theorem State.modPlot_pending (p : Nat) (g : Plot → Plot) : (s.modPlot p g).pending = s.pending := rfl
@[simp] theorem State.modPlot_out (p : Nat) (g : Plot → Plot) : (s.modPlot p g).out = s.out := rfl
@[simp] theorem State.modPlot_freeIx (p : Nat) (g : Plot → Plot) : (s.modPlot p g).freeIx = s.freeIx := rfl
@[simp] theorem State.modPlot_accNo (p : Nat) (g : Plot → Plot) : (s.modPlot p g).accNo = s.accNo := rfl
@[simp] theorem State.modPlot_lclk (p : Nat) (g : Plot → Plot) : (s.modPlot p g).lclk = s.lclk := rfl
@[simp] theorem State.modPlot_upSince (p : Nat) (g : Plot → Plot) : (s.modPlot p g).upSince = s.upSince := rfl
@[simp] theorem State.modPlot_backup (p : Nat) (g : Plot → Plot) : (s.modPlot p g).backup = s.backup := rfl
@[simp] theorem State.modPlot_fclk (p : Nat) (g : Plot → Plot) : (s.modPlot p g).fclk = s.fclk := rfl
@[simp] theorem State.modPlot_hbm (p : Nat) (g : Plot → Plot) : (s.modPlot p g).hbm = s.hbm := rfl
@[simp] theorem State.modPlot_pins (p : Nat) (g : Plot → Plot) : (s.modPlot p g).pins = s.pins := rfl
@[simp] theorem State.modPlot_boot (p : Nat) (g : Plot → Plot) : (s.modPlot p g).boot = s.boot := rfl
@[simp] theorem State.modPlot_p2 (p : Nat) (g : Plot → Plot) : (s.modPlot p g).p2 = s.p2 := rfl
@[simp] theorem State.modPlot_p2Cond (p : Nat) (g : Plot → Plot) : (s.modPlot p g).p2Cond = s.p2Cond := rfl
@[simp] theorem State.modPlot_p2Since (p : Nat) (g : Plot → Plot) : (s.modPlot p g).p2Since = s.p2Since := rfl
@[simp] theorem State.modPlot_pcpReset (p : Nat) (g : Plot → Plot) : (s.modPlot p g).pcpReset = s.pcpReset := rfl
@[simp] theorem State.modPlot_power (p : Nat) (g : Plot → Plot) : (s.modPlot p g).power = s.power := rfl
@[simp] theorem State.modPlot_sensors (p : Nat) (g : Plot → Plot) : (s.modPlot p g).sensors = s.sensors := rfl
@[simp] theorem State.modPlot_stores (p : Nat) (g : Plot → Plot) : (s.modPlot p g).stores = s.stores := rfl
@[simp] theorem State.modPlot_secure (p : Nat) (g : Plot → Plot) : (s.modPlot p g).secure = s.secure := rfl
@[simp] theorem State.modPlot_spdm (p : Nat) (g : Plot → Plot) : (s.modPlot p g).spdm = s.spdm := rfl
@[simp] theorem State.modPlot_sessions (p : Nat) (g : Plot → Plot) : (s.modPlot p g).sessions = s.sessions := rfl
@[simp] theorem State.modPlot_eventReceiver (p : Nat) (g : Plot → Plot) : (s.modPlot p g).eventReceiver = s.eventReceiver := rfl
@[simp] theorem State.modPlot_update (p : Nat) (g : Plot → Plot) : (s.modPlot p g).update = s.update := rfl
@[simp] theorem State.modPlot_pcp (p : Nat) (g : Plot → Plot) : (s.modPlot p g).pcp = s.pcp := rfl
@[simp] theorem State.modPlot_expCtr (p : Nat) (g : Plot → Plot) : (s.modPlot p g).expCtr = s.expCtr := rfl
@[simp] theorem State.modPlot_nvsWait (p : Nat) (g : Plot → Plot) : (s.modPlot p g).nvsWait = s.nvsWait := rfl
@[simp] theorem State.modPlot_fatal (p : Nat) (g : Plot → Plot) : (s.modPlot p g).fatal = s.fatal := rfl
@[simp] theorem State.modPlot_pairs (p : Nat) (g : Plot → Plot) : (s.modPlot p g).pairs = s.pairs := rfl
@[simp] theorem State.modPlot_restart (p : Nat) (g : Plot → Plot) : (s.modPlot p g).restart = s.restart := rfl
@[simp] theorem State.modPlot_restarts (p : Nat) (g : Plot → Plot) : (s.modPlot p g).restarts = s.restarts := rfl
@[simp] theorem State.modPlot_restartTimes (p : Nat) (g : Plot → Plot) : (s.modPlot p g).restartTimes = s.restartTimes := rfl
@[simp] theorem State.modPlot_latent (p : Nat) (g : Plot → Plot) : (s.modPlot p g).latent = s.latent := rfl
@[simp] theorem State.modPlot_cmds (p : Nat) (g : Plot → Plot) : (s.modPlot p g).cmds = s.cmds := rfl
@[simp] theorem State.modPlot_funcs (p : Nat) (g : Plot → Plot) : (s.modPlot p g).funcs = s.funcs := rfl
@[simp] theorem State.modPlot_ports (p : Nat) (g : Plot → Plot) : (s.modPlot p g).ports = s.ports := rfl
@[simp] theorem State.modPlot_engines (p : Nat) (g : Plot → Plot) : (s.modPlot p g).engines = s.engines := rfl
@[simp] theorem State.modPlot_devZeroing (p : Nat) (g : Plot → Plot) : (s.modPlot p g).devZeroing = s.devZeroing := rfl
@[simp] theorem State.modPlot_keeper (p : Nat) (g : Plot → Plot) : (s.modPlot p g).keeper = s.keeper := rfl
@[simp] theorem State.modPlot_devLog (p : Nat) (g : Plot → Plot) : (s.modPlot p g).devLog = s.devLog := rfl
@[simp] theorem State.modPlot_devNew (p : Nat) (g : Plot → Plot) : (s.modPlot p g).devNew = s.devNew := rfl
@[simp] theorem State.modPlot_devLost (p : Nat) (g : Plot → Plot) : (s.modPlot p g).devLost = s.devLost := rfl
@[simp] theorem State.modPlot_devCe (p : Nat) (g : Plot → Plot) : (s.modPlot p g).devCe = s.devCe := rfl
@[simp] theorem State.modPlot_devSetAt (p : Nat) (g : Plot → Plot) : (s.modPlot p g).devSetAt = s.devSetAt := rfl
@[simp] theorem State.modPlot_routesLost (p : Nat) (g : Plot → Plot) : (s.modPlot p g).routesLost = s.routesLost := rfl
@[simp] theorem State.modPlot_telSnap (p : Nat) (g : Plot → Plot) : (s.modPlot p g).telSnap = s.telSnap := rfl
@[simp] theorem State.modPlot_energy (p : Nat) (g : Plot → Plot) : (s.modPlot p g).energy = s.energy := rfl
@[simp] theorem State.modPlot_fabRetry (p : Nat) (g : Plot → Plot) : (s.modPlot p g).fabRetry = s.fabRetry := rfl
@[simp] theorem State.modPlot_moverRetry (p : Nat) (g : Plot → Plot) : (s.modPlot p g).moverRetry = s.moverRetry := rfl
@[simp] theorem State.modPlot_devSnap (p : Nat) (g : Plot → Plot) : (s.modPlot p g).devSnap = s.devSnap := rfl

@[simp] theorem State.modFn_pending (f : FuncId) (g : Func → Func) : (s.modFn f g).pending = s.pending := rfl
@[simp] theorem State.modFn_out (f : FuncId) (g : Func → Func) : (s.modFn f g).out = s.out := rfl
@[simp] theorem State.modFn_freeIx (f : FuncId) (g : Func → Func) : (s.modFn f g).freeIx = s.freeIx := rfl
@[simp] theorem State.modFn_accNo (f : FuncId) (g : Func → Func) : (s.modFn f g).accNo = s.accNo := rfl
@[simp] theorem State.modFn_lclk (f : FuncId) (g : Func → Func) : (s.modFn f g).lclk = s.lclk := rfl
@[simp] theorem State.modFn_upSince (f : FuncId) (g : Func → Func) : (s.modFn f g).upSince = s.upSince := rfl
@[simp] theorem State.modFn_backup (f : FuncId) (g : Func → Func) : (s.modFn f g).backup = s.backup := rfl
@[simp] theorem State.modFn_fclk (f : FuncId) (g : Func → Func) : (s.modFn f g).fclk = s.fclk := rfl
@[simp] theorem State.modFn_hbm (f : FuncId) (g : Func → Func) : (s.modFn f g).hbm = s.hbm := rfl
@[simp] theorem State.modFn_pins (f : FuncId) (g : Func → Func) : (s.modFn f g).pins = s.pins := rfl
@[simp] theorem State.modFn_boot (f : FuncId) (g : Func → Func) : (s.modFn f g).boot = s.boot := rfl
@[simp] theorem State.modFn_p2 (f : FuncId) (g : Func → Func) : (s.modFn f g).p2 = s.p2 := rfl
@[simp] theorem State.modFn_p2Cond (f : FuncId) (g : Func → Func) : (s.modFn f g).p2Cond = s.p2Cond := rfl
@[simp] theorem State.modFn_p2Since (f : FuncId) (g : Func → Func) : (s.modFn f g).p2Since = s.p2Since := rfl
@[simp] theorem State.modFn_pcpReset (f : FuncId) (g : Func → Func) : (s.modFn f g).pcpReset = s.pcpReset := rfl
@[simp] theorem State.modFn_power (f : FuncId) (g : Func → Func) : (s.modFn f g).power = s.power := rfl
@[simp] theorem State.modFn_sensors (f : FuncId) (g : Func → Func) : (s.modFn f g).sensors = s.sensors := rfl
@[simp] theorem State.modFn_stores (f : FuncId) (g : Func → Func) : (s.modFn f g).stores = s.stores := rfl
@[simp] theorem State.modFn_secure (f : FuncId) (g : Func → Func) : (s.modFn f g).secure = s.secure := rfl
@[simp] theorem State.modFn_spdm (f : FuncId) (g : Func → Func) : (s.modFn f g).spdm = s.spdm := rfl
@[simp] theorem State.modFn_sessions (f : FuncId) (g : Func → Func) : (s.modFn f g).sessions = s.sessions := rfl
@[simp] theorem State.modFn_eventReceiver (f : FuncId) (g : Func → Func) : (s.modFn f g).eventReceiver = s.eventReceiver := rfl
@[simp] theorem State.modFn_update (f : FuncId) (g : Func → Func) : (s.modFn f g).update = s.update := rfl
@[simp] theorem State.modFn_pcp (f : FuncId) (g : Func → Func) : (s.modFn f g).pcp = s.pcp := rfl
@[simp] theorem State.modFn_expCtr (f : FuncId) (g : Func → Func) : (s.modFn f g).expCtr = s.expCtr := rfl
@[simp] theorem State.modFn_nvsWait (f : FuncId) (g : Func → Func) : (s.modFn f g).nvsWait = s.nvsWait := rfl
@[simp] theorem State.modFn_fatal (f : FuncId) (g : Func → Func) : (s.modFn f g).fatal = s.fatal := rfl
@[simp] theorem State.modFn_pairs (f : FuncId) (g : Func → Func) : (s.modFn f g).pairs = s.pairs := rfl
@[simp] theorem State.modFn_restart (f : FuncId) (g : Func → Func) : (s.modFn f g).restart = s.restart := rfl
@[simp] theorem State.modFn_restarts (f : FuncId) (g : Func → Func) : (s.modFn f g).restarts = s.restarts := rfl
@[simp] theorem State.modFn_restartTimes (f : FuncId) (g : Func → Func) : (s.modFn f g).restartTimes = s.restartTimes := rfl
@[simp] theorem State.modFn_latent (f : FuncId) (g : Func → Func) : (s.modFn f g).latent = s.latent := rfl
@[simp] theorem State.modFn_cmds (f : FuncId) (g : Func → Func) : (s.modFn f g).cmds = s.cmds := rfl
@[simp] theorem State.modFn_ports (f : FuncId) (g : Func → Func) : (s.modFn f g).ports = s.ports := rfl
@[simp] theorem State.modFn_plots (f : FuncId) (g : Func → Func) : (s.modFn f g).plots = s.plots := rfl
@[simp] theorem State.modFn_engines (f : FuncId) (g : Func → Func) : (s.modFn f g).engines = s.engines := rfl
@[simp] theorem State.modFn_devZeroing (f : FuncId) (g : Func → Func) : (s.modFn f g).devZeroing = s.devZeroing := rfl
@[simp] theorem State.modFn_keeper (f : FuncId) (g : Func → Func) : (s.modFn f g).keeper = s.keeper := rfl
@[simp] theorem State.modFn_devLog (f : FuncId) (g : Func → Func) : (s.modFn f g).devLog = s.devLog := rfl
@[simp] theorem State.modFn_devNew (f : FuncId) (g : Func → Func) : (s.modFn f g).devNew = s.devNew := rfl
@[simp] theorem State.modFn_devLost (f : FuncId) (g : Func → Func) : (s.modFn f g).devLost = s.devLost := rfl
@[simp] theorem State.modFn_devCe (f : FuncId) (g : Func → Func) : (s.modFn f g).devCe = s.devCe := rfl
@[simp] theorem State.modFn_devSetAt (f : FuncId) (g : Func → Func) : (s.modFn f g).devSetAt = s.devSetAt := rfl
@[simp] theorem State.modFn_routesLost (f : FuncId) (g : Func → Func) : (s.modFn f g).routesLost = s.routesLost := rfl
@[simp] theorem State.modFn_telSnap (f : FuncId) (g : Func → Func) : (s.modFn f g).telSnap = s.telSnap := rfl
@[simp] theorem State.modFn_energy (f : FuncId) (g : Func → Func) : (s.modFn f g).energy = s.energy := rfl
@[simp] theorem State.modFn_fabRetry (f : FuncId) (g : Func → Func) : (s.modFn f g).fabRetry = s.fabRetry := rfl
@[simp] theorem State.modFn_moverRetry (f : FuncId) (g : Func → Func) : (s.modFn f g).moverRetry = s.moverRetry := rfl
@[simp] theorem State.modFn_devSnap (f : FuncId) (g : Func → Func) : (s.modFn f g).devSnap = s.devSnap := rfl

@[simp] theorem State.modEng_pending (e : Nat) (g : Engine → Engine) : (s.modEng e g).pending = s.pending := rfl
@[simp] theorem State.modEng_out (e : Nat) (g : Engine → Engine) : (s.modEng e g).out = s.out := rfl
@[simp] theorem State.modEng_freeIx (e : Nat) (g : Engine → Engine) : (s.modEng e g).freeIx = s.freeIx := rfl
@[simp] theorem State.modEng_accNo (e : Nat) (g : Engine → Engine) : (s.modEng e g).accNo = s.accNo := rfl
@[simp] theorem State.modEng_lclk (e : Nat) (g : Engine → Engine) : (s.modEng e g).lclk = s.lclk := rfl
@[simp] theorem State.modEng_upSince (e : Nat) (g : Engine → Engine) : (s.modEng e g).upSince = s.upSince := rfl
@[simp] theorem State.modEng_backup (e : Nat) (g : Engine → Engine) : (s.modEng e g).backup = s.backup := rfl
@[simp] theorem State.modEng_fclk (e : Nat) (g : Engine → Engine) : (s.modEng e g).fclk = s.fclk := rfl
@[simp] theorem State.modEng_hbm (e : Nat) (g : Engine → Engine) : (s.modEng e g).hbm = s.hbm := rfl
@[simp] theorem State.modEng_pins (e : Nat) (g : Engine → Engine) : (s.modEng e g).pins = s.pins := rfl
@[simp] theorem State.modEng_boot (e : Nat) (g : Engine → Engine) : (s.modEng e g).boot = s.boot := rfl
@[simp] theorem State.modEng_p2 (e : Nat) (g : Engine → Engine) : (s.modEng e g).p2 = s.p2 := rfl
@[simp] theorem State.modEng_p2Cond (e : Nat) (g : Engine → Engine) : (s.modEng e g).p2Cond = s.p2Cond := rfl
@[simp] theorem State.modEng_p2Since (e : Nat) (g : Engine → Engine) : (s.modEng e g).p2Since = s.p2Since := rfl
@[simp] theorem State.modEng_pcpReset (e : Nat) (g : Engine → Engine) : (s.modEng e g).pcpReset = s.pcpReset := rfl
@[simp] theorem State.modEng_power (e : Nat) (g : Engine → Engine) : (s.modEng e g).power = s.power := rfl
@[simp] theorem State.modEng_sensors (e : Nat) (g : Engine → Engine) : (s.modEng e g).sensors = s.sensors := rfl
@[simp] theorem State.modEng_stores (e : Nat) (g : Engine → Engine) : (s.modEng e g).stores = s.stores := rfl
@[simp] theorem State.modEng_secure (e : Nat) (g : Engine → Engine) : (s.modEng e g).secure = s.secure := rfl
@[simp] theorem State.modEng_spdm (e : Nat) (g : Engine → Engine) : (s.modEng e g).spdm = s.spdm := rfl
@[simp] theorem State.modEng_sessions (e : Nat) (g : Engine → Engine) : (s.modEng e g).sessions = s.sessions := rfl
@[simp] theorem State.modEng_eventReceiver (e : Nat) (g : Engine → Engine) : (s.modEng e g).eventReceiver = s.eventReceiver := rfl
@[simp] theorem State.modEng_update (e : Nat) (g : Engine → Engine) : (s.modEng e g).update = s.update := rfl
@[simp] theorem State.modEng_pcp (e : Nat) (g : Engine → Engine) : (s.modEng e g).pcp = s.pcp := rfl
@[simp] theorem State.modEng_expCtr (e : Nat) (g : Engine → Engine) : (s.modEng e g).expCtr = s.expCtr := rfl
@[simp] theorem State.modEng_nvsWait (e : Nat) (g : Engine → Engine) : (s.modEng e g).nvsWait = s.nvsWait := rfl
@[simp] theorem State.modEng_fatal (e : Nat) (g : Engine → Engine) : (s.modEng e g).fatal = s.fatal := rfl
@[simp] theorem State.modEng_pairs (e : Nat) (g : Engine → Engine) : (s.modEng e g).pairs = s.pairs := rfl
@[simp] theorem State.modEng_restart (e : Nat) (g : Engine → Engine) : (s.modEng e g).restart = s.restart := rfl
@[simp] theorem State.modEng_restarts (e : Nat) (g : Engine → Engine) : (s.modEng e g).restarts = s.restarts := rfl
@[simp] theorem State.modEng_restartTimes (e : Nat) (g : Engine → Engine) : (s.modEng e g).restartTimes = s.restartTimes := rfl
@[simp] theorem State.modEng_latent (e : Nat) (g : Engine → Engine) : (s.modEng e g).latent = s.latent := rfl
@[simp] theorem State.modEng_cmds (e : Nat) (g : Engine → Engine) : (s.modEng e g).cmds = s.cmds := rfl
@[simp] theorem State.modEng_funcs (e : Nat) (g : Engine → Engine) : (s.modEng e g).funcs = s.funcs := rfl
@[simp] theorem State.modEng_ports (e : Nat) (g : Engine → Engine) : (s.modEng e g).ports = s.ports := rfl
@[simp] theorem State.modEng_plots (e : Nat) (g : Engine → Engine) : (s.modEng e g).plots = s.plots := rfl
@[simp] theorem State.modEng_devZeroing (e : Nat) (g : Engine → Engine) : (s.modEng e g).devZeroing = s.devZeroing := rfl
@[simp] theorem State.modEng_keeper (e : Nat) (g : Engine → Engine) : (s.modEng e g).keeper = s.keeper := rfl
@[simp] theorem State.modEng_devLog (e : Nat) (g : Engine → Engine) : (s.modEng e g).devLog = s.devLog := rfl
@[simp] theorem State.modEng_devNew (e : Nat) (g : Engine → Engine) : (s.modEng e g).devNew = s.devNew := rfl
@[simp] theorem State.modEng_devLost (e : Nat) (g : Engine → Engine) : (s.modEng e g).devLost = s.devLost := rfl
@[simp] theorem State.modEng_devCe (e : Nat) (g : Engine → Engine) : (s.modEng e g).devCe = s.devCe := rfl
@[simp] theorem State.modEng_devSetAt (e : Nat) (g : Engine → Engine) : (s.modEng e g).devSetAt = s.devSetAt := rfl
@[simp] theorem State.modEng_routesLost (e : Nat) (g : Engine → Engine) : (s.modEng e g).routesLost = s.routesLost := rfl
@[simp] theorem State.modEng_telSnap (e : Nat) (g : Engine → Engine) : (s.modEng e g).telSnap = s.telSnap := rfl
@[simp] theorem State.modEng_energy (e : Nat) (g : Engine → Engine) : (s.modEng e g).energy = s.energy := rfl
@[simp] theorem State.modEng_fabRetry (e : Nat) (g : Engine → Engine) : (s.modEng e g).fabRetry = s.fabRetry := rfl
@[simp] theorem State.modEng_moverRetry (e : Nat) (g : Engine → Engine) : (s.modEng e g).moverRetry = s.moverRetry := rfl
@[simp] theorem State.modEng_devSnap (e : Nat) (g : Engine → Engine) : (s.modEng e g).devSnap = s.devSnap := rfl

@[simp] theorem State.setQueue_pending (q : Src) (x : Queue) : (s.setQueue q x).pending = s.pending := by cases q <;> rfl
@[simp] theorem State.setQueue_out (q : Src) (x : Queue) : (s.setQueue q x).out = s.out := by cases q <;> rfl
@[simp] theorem State.setQueue_freeIx (q : Src) (x : Queue) : (s.setQueue q x).freeIx = s.freeIx := by cases q <;> rfl
@[simp] theorem State.setQueue_accNo (q : Src) (x : Queue) : (s.setQueue q x).accNo = s.accNo := by cases q <;> rfl
@[simp] theorem State.setQueue_lclk (q : Src) (x : Queue) : (s.setQueue q x).lclk = s.lclk := by cases q <;> rfl
@[simp] theorem State.setQueue_upSince (q : Src) (x : Queue) : (s.setQueue q x).upSince = s.upSince := by cases q <;> rfl
@[simp] theorem State.setQueue_backup (q : Src) (x : Queue) : (s.setQueue q x).backup = s.backup := by cases q <;> rfl
@[simp] theorem State.setQueue_fclk (q : Src) (x : Queue) : (s.setQueue q x).fclk = s.fclk := by cases q <;> rfl
@[simp] theorem State.setQueue_hbm (q : Src) (x : Queue) : (s.setQueue q x).hbm = s.hbm := by cases q <;> rfl
@[simp] theorem State.setQueue_pins (q : Src) (x : Queue) : (s.setQueue q x).pins = s.pins := by cases q <;> rfl
@[simp] theorem State.setQueue_boot (q : Src) (x : Queue) : (s.setQueue q x).boot = s.boot := by cases q <;> rfl
@[simp] theorem State.setQueue_p2 (q : Src) (x : Queue) : (s.setQueue q x).p2 = s.p2 := by cases q <;> rfl
@[simp] theorem State.setQueue_p2Cond (q : Src) (x : Queue) : (s.setQueue q x).p2Cond = s.p2Cond := by cases q <;> rfl
@[simp] theorem State.setQueue_p2Since (q : Src) (x : Queue) : (s.setQueue q x).p2Since = s.p2Since := by cases q <;> rfl
@[simp] theorem State.setQueue_pcpReset (q : Src) (x : Queue) : (s.setQueue q x).pcpReset = s.pcpReset := by cases q <;> rfl
@[simp] theorem State.setQueue_power (q : Src) (x : Queue) : (s.setQueue q x).power = s.power := by cases q <;> rfl
@[simp] theorem State.setQueue_sensors (q : Src) (x : Queue) : (s.setQueue q x).sensors = s.sensors := by cases q <;> rfl
@[simp] theorem State.setQueue_stores (q : Src) (x : Queue) : (s.setQueue q x).stores = s.stores := by cases q <;> rfl
@[simp] theorem State.setQueue_secure (q : Src) (x : Queue) : (s.setQueue q x).secure = s.secure := by cases q <;> rfl
@[simp] theorem State.setQueue_spdm (q : Src) (x : Queue) : (s.setQueue q x).spdm = s.spdm := by cases q <;> rfl
@[simp] theorem State.setQueue_sessions (q : Src) (x : Queue) : (s.setQueue q x).sessions = s.sessions := by cases q <;> rfl
@[simp] theorem State.setQueue_eventReceiver (q : Src) (x : Queue) : (s.setQueue q x).eventReceiver = s.eventReceiver := by cases q <;> rfl
@[simp] theorem State.setQueue_update (q : Src) (x : Queue) : (s.setQueue q x).update = s.update := by cases q <;> rfl
@[simp] theorem State.setQueue_expCtr (q : Src) (x : Queue) : (s.setQueue q x).expCtr = s.expCtr := by cases q <;> rfl
@[simp] theorem State.setQueue_nvsWait (q : Src) (x : Queue) : (s.setQueue q x).nvsWait = s.nvsWait := by cases q <;> rfl
@[simp] theorem State.setQueue_fatal (q : Src) (x : Queue) : (s.setQueue q x).fatal = s.fatal := by cases q <;> rfl
@[simp] theorem State.setQueue_pairs (q : Src) (x : Queue) : (s.setQueue q x).pairs = s.pairs := by cases q <;> rfl
@[simp] theorem State.setQueue_restart (q : Src) (x : Queue) : (s.setQueue q x).restart = s.restart := by cases q <;> rfl
@[simp] theorem State.setQueue_restarts (q : Src) (x : Queue) : (s.setQueue q x).restarts = s.restarts := by cases q <;> rfl
@[simp] theorem State.setQueue_restartTimes (q : Src) (x : Queue) : (s.setQueue q x).restartTimes = s.restartTimes := by cases q <;> rfl
@[simp] theorem State.setQueue_latent (q : Src) (x : Queue) : (s.setQueue q x).latent = s.latent := by cases q <;> rfl
@[simp] theorem State.setQueue_cmds (q : Src) (x : Queue) : (s.setQueue q x).cmds = s.cmds := by cases q <;> rfl
@[simp] theorem State.setQueue_ports (q : Src) (x : Queue) : (s.setQueue q x).ports = s.ports := by cases q <;> rfl
@[simp] theorem State.setQueue_plots (q : Src) (x : Queue) : (s.setQueue q x).plots = s.plots := by cases q <;> rfl
@[simp] theorem State.setQueue_engines (q : Src) (x : Queue) : (s.setQueue q x).engines = s.engines := by cases q <;> rfl
@[simp] theorem State.setQueue_devZeroing (q : Src) (x : Queue) : (s.setQueue q x).devZeroing = s.devZeroing := by cases q <;> rfl
@[simp] theorem State.setQueue_keeper (q : Src) (x : Queue) : (s.setQueue q x).keeper = s.keeper := by cases q <;> rfl
@[simp] theorem State.setQueue_devLog (q : Src) (x : Queue) : (s.setQueue q x).devLog = s.devLog := by cases q <;> rfl
@[simp] theorem State.setQueue_devNew (q : Src) (x : Queue) : (s.setQueue q x).devNew = s.devNew := by cases q <;> rfl
@[simp] theorem State.setQueue_devLost (q : Src) (x : Queue) : (s.setQueue q x).devLost = s.devLost := by cases q <;> rfl
@[simp] theorem State.setQueue_devCe (q : Src) (x : Queue) : (s.setQueue q x).devCe = s.devCe := by cases q <;> rfl
@[simp] theorem State.setQueue_devSetAt (q : Src) (x : Queue) : (s.setQueue q x).devSetAt = s.devSetAt := by cases q <;> rfl
@[simp] theorem State.setQueue_routesLost (q : Src) (x : Queue) : (s.setQueue q x).routesLost = s.routesLost := by cases q <;> rfl
@[simp] theorem State.setQueue_telSnap (q : Src) (x : Queue) : (s.setQueue q x).telSnap = s.telSnap := by cases q <;> rfl
@[simp] theorem State.setQueue_energy (q : Src) (x : Queue) : (s.setQueue q x).energy = s.energy := by cases q <;> rfl
@[simp] theorem State.setQueue_fabRetry (q : Src) (x : Queue) : (s.setQueue q x).fabRetry = s.fabRetry := by cases q <;> rfl
@[simp] theorem State.setQueue_moverRetry (q : Src) (x : Queue) : (s.setQueue q x).moverRetry = s.moverRetry := by cases q <;> rfl
@[simp] theorem State.setQueue_devSnap (q : Src) (x : Queue) : (s.setQueue q x).devSnap = s.devSnap := by cases q <;> rfl

@[simp] theorem State.modQueue_pending (q : Src) (g : Queue → Queue) : (s.modQueue q g).pending = s.pending := by unfold State.modQueue; split <;> simp
@[simp] theorem State.modQueue_out (q : Src) (g : Queue → Queue) : (s.modQueue q g).out = s.out := by unfold State.modQueue; split <;> simp
@[simp] theorem State.modQueue_freeIx (q : Src) (g : Queue → Queue) : (s.modQueue q g).freeIx = s.freeIx := by unfold State.modQueue; split <;> simp
@[simp] theorem State.modQueue_accNo (q : Src) (g : Queue → Queue) : (s.modQueue q g).accNo = s.accNo := by unfold State.modQueue; split <;> simp
@[simp] theorem State.modQueue_lclk (q : Src) (g : Queue → Queue) : (s.modQueue q g).lclk = s.lclk := by unfold State.modQueue; split <;> simp
@[simp] theorem State.modQueue_upSince (q : Src) (g : Queue → Queue) : (s.modQueue q g).upSince = s.upSince := by unfold State.modQueue; split <;> simp
@[simp] theorem State.modQueue_backup (q : Src) (g : Queue → Queue) : (s.modQueue q g).backup = s.backup := by unfold State.modQueue; split <;> simp
@[simp] theorem State.modQueue_fclk (q : Src) (g : Queue → Queue) : (s.modQueue q g).fclk = s.fclk := by unfold State.modQueue; split <;> simp
@[simp] theorem State.modQueue_hbm (q : Src) (g : Queue → Queue) : (s.modQueue q g).hbm = s.hbm := by unfold State.modQueue; split <;> simp
@[simp] theorem State.modQueue_pins (q : Src) (g : Queue → Queue) : (s.modQueue q g).pins = s.pins := by unfold State.modQueue; split <;> simp
@[simp] theorem State.modQueue_boot (q : Src) (g : Queue → Queue) : (s.modQueue q g).boot = s.boot := by unfold State.modQueue; split <;> simp
@[simp] theorem State.modQueue_p2 (q : Src) (g : Queue → Queue) : (s.modQueue q g).p2 = s.p2 := by unfold State.modQueue; split <;> simp
@[simp] theorem State.modQueue_p2Cond (q : Src) (g : Queue → Queue) : (s.modQueue q g).p2Cond = s.p2Cond := by unfold State.modQueue; split <;> simp
@[simp] theorem State.modQueue_p2Since (q : Src) (g : Queue → Queue) : (s.modQueue q g).p2Since = s.p2Since := by unfold State.modQueue; split <;> simp
@[simp] theorem State.modQueue_pcpReset (q : Src) (g : Queue → Queue) : (s.modQueue q g).pcpReset = s.pcpReset := by unfold State.modQueue; split <;> simp
@[simp] theorem State.modQueue_power (q : Src) (g : Queue → Queue) : (s.modQueue q g).power = s.power := by unfold State.modQueue; split <;> simp
@[simp] theorem State.modQueue_sensors (q : Src) (g : Queue → Queue) : (s.modQueue q g).sensors = s.sensors := by unfold State.modQueue; split <;> simp
@[simp] theorem State.modQueue_stores (q : Src) (g : Queue → Queue) : (s.modQueue q g).stores = s.stores := by unfold State.modQueue; split <;> simp
@[simp] theorem State.modQueue_secure (q : Src) (g : Queue → Queue) : (s.modQueue q g).secure = s.secure := by unfold State.modQueue; split <;> simp
@[simp] theorem State.modQueue_spdm (q : Src) (g : Queue → Queue) : (s.modQueue q g).spdm = s.spdm := by unfold State.modQueue; split <;> simp
@[simp] theorem State.modQueue_sessions (q : Src) (g : Queue → Queue) : (s.modQueue q g).sessions = s.sessions := by unfold State.modQueue; split <;> simp
@[simp] theorem State.modQueue_eventReceiver (q : Src) (g : Queue → Queue) : (s.modQueue q g).eventReceiver = s.eventReceiver := by unfold State.modQueue; split <;> simp
@[simp] theorem State.modQueue_update (q : Src) (g : Queue → Queue) : (s.modQueue q g).update = s.update := by unfold State.modQueue; split <;> simp
@[simp] theorem State.modQueue_expCtr (q : Src) (g : Queue → Queue) : (s.modQueue q g).expCtr = s.expCtr := by unfold State.modQueue; split <;> simp
@[simp] theorem State.modQueue_nvsWait (q : Src) (g : Queue → Queue) : (s.modQueue q g).nvsWait = s.nvsWait := by unfold State.modQueue; split <;> simp
@[simp] theorem State.modQueue_fatal (q : Src) (g : Queue → Queue) : (s.modQueue q g).fatal = s.fatal := by unfold State.modQueue; split <;> simp
@[simp] theorem State.modQueue_pairs (q : Src) (g : Queue → Queue) : (s.modQueue q g).pairs = s.pairs := by unfold State.modQueue; split <;> simp
@[simp] theorem State.modQueue_restart (q : Src) (g : Queue → Queue) : (s.modQueue q g).restart = s.restart := by unfold State.modQueue; split <;> simp
@[simp] theorem State.modQueue_restarts (q : Src) (g : Queue → Queue) : (s.modQueue q g).restarts = s.restarts := by unfold State.modQueue; split <;> simp
@[simp] theorem State.modQueue_restartTimes (q : Src) (g : Queue → Queue) : (s.modQueue q g).restartTimes = s.restartTimes := by unfold State.modQueue; split <;> simp
@[simp] theorem State.modQueue_latent (q : Src) (g : Queue → Queue) : (s.modQueue q g).latent = s.latent := by unfold State.modQueue; split <;> simp
@[simp] theorem State.modQueue_cmds (q : Src) (g : Queue → Queue) : (s.modQueue q g).cmds = s.cmds := by unfold State.modQueue; split <;> simp
@[simp] theorem State.modQueue_ports (q : Src) (g : Queue → Queue) : (s.modQueue q g).ports = s.ports := by unfold State.modQueue; split <;> simp
@[simp] theorem State.modQueue_plots (q : Src) (g : Queue → Queue) : (s.modQueue q g).plots = s.plots := by unfold State.modQueue; split <;> simp
@[simp] theorem State.modQueue_engines (q : Src) (g : Queue → Queue) : (s.modQueue q g).engines = s.engines := by unfold State.modQueue; split <;> simp
@[simp] theorem State.modQueue_devZeroing (q : Src) (g : Queue → Queue) : (s.modQueue q g).devZeroing = s.devZeroing := by unfold State.modQueue; split <;> simp
@[simp] theorem State.modQueue_keeper (q : Src) (g : Queue → Queue) : (s.modQueue q g).keeper = s.keeper := by unfold State.modQueue; split <;> simp
@[simp] theorem State.modQueue_devLog (q : Src) (g : Queue → Queue) : (s.modQueue q g).devLog = s.devLog := by unfold State.modQueue; split <;> simp
@[simp] theorem State.modQueue_devNew (q : Src) (g : Queue → Queue) : (s.modQueue q g).devNew = s.devNew := by unfold State.modQueue; split <;> simp
@[simp] theorem State.modQueue_devLost (q : Src) (g : Queue → Queue) : (s.modQueue q g).devLost = s.devLost := by unfold State.modQueue; split <;> simp
@[simp] theorem State.modQueue_devCe (q : Src) (g : Queue → Queue) : (s.modQueue q g).devCe = s.devCe := by unfold State.modQueue; split <;> simp
@[simp] theorem State.modQueue_devSetAt (q : Src) (g : Queue → Queue) : (s.modQueue q g).devSetAt = s.devSetAt := by unfold State.modQueue; split <;> simp
@[simp] theorem State.modQueue_routesLost (q : Src) (g : Queue → Queue) : (s.modQueue q g).routesLost = s.routesLost := by unfold State.modQueue; split <;> simp
@[simp] theorem State.modQueue_telSnap (q : Src) (g : Queue → Queue) : (s.modQueue q g).telSnap = s.telSnap := by unfold State.modQueue; split <;> simp
@[simp] theorem State.modQueue_energy (q : Src) (g : Queue → Queue) : (s.modQueue q g).energy = s.energy := by unfold State.modQueue; split <;> simp
@[simp] theorem State.modQueue_fabRetry (q : Src) (g : Queue → Queue) : (s.modQueue q g).fabRetry = s.fabRetry := by unfold State.modQueue; split <;> simp
@[simp] theorem State.modQueue_moverRetry (q : Src) (g : Queue → Queue) : (s.modQueue q g).moverRetry = s.moverRetry := by unfold State.modQueue; split <;> simp
@[simp] theorem State.modQueue_devSnap (q : Src) (g : Queue → Queue) : (s.modQueue q g).devSnap = s.devSnap := by unfold State.modQueue; split <;> simp

/-! ## What a read gives after an update -/

@[simp] theorem State.setFn_funcs (f : FuncId) (x : Func) : (s.setFn f x).funcs = mput s.funcs (fidNat f) x := rfl
@[simp] theorem State.setPort_ports (p : Nat) (x : Port) : (s.setPort p x).ports = mput s.ports p x := rfl
@[simp] theorem State.setEng_engines (e : Nat) (x : Engine) : (s.setEng e x).engines = mput s.engines e x := rfl
@[simp] theorem State.setPlot_plots (p : Nat) (x : Plot) : (s.setPlot p x).plots = mput s.plots p x := rfl
@[simp] theorem State.setStack_hbm (i : Nat) (x : Hbm) : (s.setStack i x).hbm = mput s.hbm i x := rfl
@[simp] theorem State.setPair_pairs (i : Nat) (x : Pair) : (s.setPair i x).pairs = mput s.pairs i x := rfl

@[simp] theorem State.fn_setFn (f : FuncId) (x : Func) : (s.setFn f x).fn f = x := by simp [State.fn]
@[simp] theorem State.port_setPort (p : Nat) (x : Port) : (s.setPort p x).port p = x := by simp [State.port]
@[simp] theorem State.eng_setEng (e : Nat) (x : Engine) : (s.setEng e x).eng e = x := by simp [State.eng]
@[simp] theorem State.pair_setPair (i : Nat) (x : Pair) : (s.setPair i x).pair i = x := by simp [State.pair]
@[simp] theorem State.stack_setStack (i : Nat) (x : Hbm) : (s.setStack i x).stack i = x := by simp [State.stack]
@[simp] theorem State.fn_modFn (f : FuncId) (g : Func → Func) : (s.modFn f g).fn f = g (s.fn f) := by simp [State.modFn]
@[simp] theorem State.eng_modEng (e : Nat) (g : Engine → Engine) : (s.modEng e g).eng e = g (s.eng e) := by simp [State.modEng]

/-- Functions of different numbers are different. -/
theorem fidNat_inj {f g : FuncId} (h : fidNat f = fidNat g) : f = g := by
  obtain ⟨⟨a, ha⟩, ⟨b, hb⟩⟩ := f
  obtain ⟨⟨c, hc⟩, ⟨d, hd⟩⟩ := g
  simp only [fidNat] at h
  have h₁ : a = c := by omega
  have h₂ : b = d := by omega
  subst h₁ h₂
  rfl

theorem State.fn_setFn_other (f g : FuncId) (x : Func) (h : g ≠ f) : (s.setFn f x).fn g = s.fn g := by
  have : fidNat g ≠ fidNat f := fun k => h (fidNat_inj k)
  simp [State.fn, this]

theorem State.eng_setEng_other (e i : Nat) (x : Engine) (h : i ≠ e) : (s.setEng e x).eng i = s.eng i := by
  simp [State.eng, h]

theorem State.port_setPort_other (p i : Nat) (x : Port) (h : i ≠ p) : (s.setPort p x).port i = s.port i := by
  simp [State.port, h]

@[simp] theorem State.queue_setQueue (q : Src) (x : Queue) : (s.setQueue q x).queue q = some x := by
  cases q with
  | ring f q => simp [State.queue, State.setQueue]
  | bmc => rfl

/-- A queue that exists and is changed. -/
theorem State.queue_modQueue (q : Src) (g : Queue → Queue) : (s.modQueue q g).queue q = (s.queue q).map g := by
  unfold State.modQueue
  split
  · next x h => simp [h]
  · next h => simp [h]

end Sys2Proof.Machine
end

