-- ==== Sys2Proof/Laws/Ops.lean ====
section
/-!
SUPPORT. Everything that sending replies and ending a command can do: the frames that proofs over commands cite in place of
unfolding `drain` and `endCmd`.
-/

namespace Sys2Proof.Machine

/-! ## What sending changes -/

/-- The fields of a queue that sending replies leaves alone. -/
def Queue.inner (q : Queue) : Queue :=
  { q with cqTail := 0, slots := [], counted := 0, timer := none, shown := .active, owed := false, mute := false }

/-- A reply slot without the mark that its reply is staged. -/
def Slot.unstaged (sl : Slot) : Slot := { sl with staged := false }

/-- What sending leaves of one queue: where `quiet` holds all but its completion side, and always no new window entry, and no new
slot but, in the channel, a slot of a duplicate that is now answered. -/
structure SideKept (src : Src) (quiet : Prop) (x y : Option Queue) : Prop where
  inner : quiet → y.map Queue.inner = x.map Queue.inner
  old : ∀ b, y = some b → ∃ a, x = some a ∧ (∀ w ∈ b.window, w ∈ a.window) ∧
    ∀ sl ∈ b.slots, sl.kind = .command ∨ src ≠ .bmc → ∃ z ∈ a.slots, sl.unstaged = z.unstaged

theorem SideKept.refl (src : Src) (p : Prop) (x : Option Queue) : SideKept src p x x :=
  ⟨fun _ => rfl, fun b h => ⟨b, h, fun _ k => k, fun sl k _ => ⟨sl, k, rfl⟩⟩⟩

theorem SideKept.trans {src : Src} {p q : Prop} {x y z : Option Queue} (h : SideKept src p x y) (k : SideKept src q y z) (pq : p → q) :
    SideKept src p x z := by
  refine ⟨fun a => (k.inner (pq a)).trans (h.inner a), fun c hc => ?_⟩
  obtain ⟨b, hb, w, m⟩ := k.old c hc
  obtain ⟨a, ha, w', m'⟩ := h.old b hb
  refine ⟨a, ha, fun e he => w' e (w e he), fun sl hs o => ?_⟩
  obtain ⟨u, hu, e⟩ := m sl hs o
  have : u.kind = sl.kind := by simpa [Slot.unstaged] using (congrArg Slot.kind e).symm
  obtain ⟨v, hv, e'⟩ := m' u hu (this ▸ o)
  exact ⟨v, hv, e.trans e'⟩

/-- Only what sending changes differs: outputs, functions, ports and the BMC's channel, of a queue only its completion side, and
of a function only its pending bits, counters and queues. A reset of the channel that waited may take place (R466). -/
structure Sends (s t : State) : Prop where
  rest : ∃ o fs pt pc pr, t = { s with out := o, funcs := fs, ports := pt, pcp := pc, pcpReset := pr }
  quiet : s.pcpReset = none → t.pcpReset = none
  side : ∀ src, SideKept src (src = .bmc → s.pcpReset = none) (s.queue src) (t.queue src)
  fns : ∀ f, (t.fn f).still = (s.fn f).still

theorem Sends.refl (s : State) : Sends s s := ⟨⟨_, _, _, _, _, rfl⟩, id, fun _ => .refl .., fun _ => rfl⟩

theorem Sends.trans {s t u : State} (h : Sends s t) (k : Sends t u) : Sends s u := by
  refine ⟨?_, fun n => k.quiet (h.quiet n), fun src => (h.side src).trans (k.side src) fun n e => h.quiet (n e),
    fun f => (k.fns f).trans (h.fns f)⟩
  obtain ⟨_, _, _, _, _, rfl⟩ := h.rest
  obtain ⟨_, _, _, _, _, rfl⟩ := k.rest
  exact ⟨_, _, _, _, _, rfl⟩

/-- A queue that stays as it is, but for its completion side, wherever no reset of the channel waits. -/
theorem Sends.queue {s t : State} (h : Sends s t) (src : Src) (k : src = .bmc → s.pcpReset = .none) :
    (t.queue src).map Queue.inner = (s.queue src).map Queue.inner := (h.side src).inner k

/-- Queues that no function's queue map and no channel change touches. -/
theorem sends_of_queues {s t : State} (h : ∃ o fs pt pc, t = { s with out := o, funcs := fs, ports := pt, pcp := pc })
    (k : ∀ src, t.queue src = s.queue src) (m : ∀ f, (t.fn f).still = (s.fn f).still) : Sends s t := by
  refine ⟨?_, ?_, fun src => by rw [k]; exact .refl .., m⟩
  · obtain ⟨_, _, _, _, rfl⟩ := h
    exact ⟨_, _, _, _, _, rfl⟩
  · obtain ⟨_, _, _, _, rfl⟩ := h
    exact id

theorem State.queue_setQueue_other (s : State) (a b : Src) (x : Queue) (h : b ≠ a) : (s.setQueue a x).queue b = s.queue b := by
  cases a with
  | bmc => cases b with
    | bmc => exact absurd rfl h
    | ring f q => rfl
  | ring f q => cases b with
    | bmc => rfl
    | ring g r =>
      by_cases hg : g = f
      · subst hg
        have hr : r ≠ q := fun k => h (by rw [k])
        simp [State.queue, State.setQueue, hr]
      · simp [State.queue, State.setQueue, State.modFn, State.fn_setFn_other _ _ _ _ hg]

theorem setQueue_still (s : State) (a : Src) (x : Queue) (f : FuncId) : ((s.setQueue a x).fn f).still = (s.fn f).still := by
  cases a with
  | bmc => rfl
  | ring g q =>
    by_cases e : f = g
    · subst e; simp only [State.setQueue, State.fn_modFn]; rfl
    · simp only [State.setQueue, State.modFn, State.fn_setFn_other _ _ _ _ e]

theorem sends_setQueue (s : State) (src : Src) (x y : Queue) (h : s.queue src = some x) (k : y.inner = x.inner)
    (m : ∀ sl ∈ y.slots, sl.kind = .command ∨ src ≠ .bmc → ∃ z ∈ x.slots, sl.unstaged = z.unstaged) : Sends s (s.setQueue src y) := by
  refine ⟨?_, ?_, fun a => ?_, fun f => setQueue_still ..⟩
  · cases src <;> exact ⟨_, _, _, _, _, rfl⟩
  · cases src <;> exact id
  · by_cases e : a = src
    · subst e
      have hw : y.window = x.window := by simpa [Queue.inner] using congrArg Queue.window k
      refine ⟨fun _ => by simp [h, k], fun z hz => ⟨x, h, ?_⟩⟩
      simp only [State.queue_setQueue, Option.some.injEq] at hz
      subst hz
      exact ⟨fun w hm => hw ▸ hm, m⟩
    · rw [State.queue_setQueue_other _ _ _ _ e]
      exact .refl ..

/-- A change of a function's pending bits or counters. -/
theorem sends_modFn (s : State) (f : FuncId) (g : Func → Func) (h : (g (s.fn f)).queues = (s.fn f).queues)
    (m : (g (s.fn f)).still = (s.fn f).still) : Sends s (s.modFn f g) := by
  refine sends_of_queues ⟨_, _, _, _, rfl⟩ (fun a => ?_) fun k => ?_
  rotate_left
  · by_cases e : k = f
    · subst e; rw [State.fn_modFn, m]
    · rw [State.modFn, State.fn_setFn_other _ _ _ _ e]
  cases a with
  | bmc => rfl
  | ring k q =>
    by_cases e : k = f
    · subst e; simp [State.queue, h]
    · simp [State.queue, State.modFn, State.fn_setFn_other _ _ _ _ e]

theorem sends_sendFrom (s : State) (f : FuncId) (es : List Emit) : Sends s (sendFrom s f es) :=
  sends_of_queues ⟨_, _, _, _, rfl⟩ (fun a => by cases a <;> rfl) fun _ => rfl

theorem sends_out (s : State) (o : List Emit) : Sends s { s with out := o } :=
  sends_of_queues ⟨_, _, _, _, rfl⟩ (fun a => by cases a <;> rfl) fun _ => rfl

theorem sends_signalVec (s : State) (f : FuncId) (v : Nat) : Sends s (signalVec s f v) := by
  unfold signalVec
  extract_lets e
  split
  · exact sends_sendFrom ..
  · exact sends_modFn _ _ _ rfl rfl

theorem sends_signalQueue (s : State) (f : FuncId) (q : Nat) : Sends s (signalQueue s f q) := by
  unfold signalQueue
  split
  · exact Sends.refl _
  · next x h =>
    extract_lets t
    have ht : Sends s t := sends_setQueue _ _ _ _ h rfl fun sl k _ => ⟨sl, k, rfl⟩
    split
    · exact ht.trans (sends_signalVec ..)
    · exact ht

/-- A change of one queue's completion side that adds no slot. -/
theorem sends_modQueue (s : State) (src : Src) (g : Queue → Queue) (k : ∀ x, (g x).inner = x.inner)
    (m : ∀ x, ∀ sl ∈ (g x).slots, ∃ z ∈ x.slots, sl.unstaged = z.unstaged) : Sends s (s.modQueue src g) := by
  unfold State.modQueue
  split
  · next x h => exact sends_setQueue _ _ _ _ h (k x) fun sl a _ => m x sl a
  · exact Sends.refl _

theorem sends_putShadow (s : State) (f : FuncId) (q : Nat) : Sends s (putShadow s f q).1 := by
  unfold putShadow
  split
  · exact Sends.refl _
  · next x h =>
    split
    · exact Sends.refl _
    · split
      · extract_lets st t
        have ht : Sends s t := sends_setQueue _ _ _ _ h rfl fun sl k _ => ⟨sl, k, rfl⟩
        exact ht.trans (sends_sendFrom ..)
      · exact sends_setQueue _ _ _ _ h rfl fun sl k _ => ⟨sl, k, rfl⟩

theorem sends_writeShadow (s : State) (f : FuncId) (q : Nat) : Sends s (writeShadow s f q) := by
  unfold writeShadow
  extract_lets r
  have hr : Sends s r.1 := sends_putShadow ..
  split
  · exact hr.trans (sends_signalQueue ..)
  · exact hr

theorem sends_countReply (s : State) (f : FuncId) (q : Nat) (irq ch : Bool) (st : Status) : Sends s (countReply s f q irq ch st) := by
  unfold countReply
  split
  · exact Sends.refl _
  · next x h =>
    extract_lets n
    split
    · split
      · exact sends_signalQueue ..
      · exact sends_setQueue _ _ _ _ h rfl fun sl k _ => ⟨sl, k, rfl⟩
    · exact Sends.refl _

theorem sends_writeReply (s : State) (src : Src) (sl : Slot) (r : Reply) : Sends s (writeReply s src sl r) := by
  unfold writeReply
  extract_lets bytes
  split
  · next f q x h =>
    extract_lets t u v w
    have ht : Sends s t := sends_setQueue _ _ _ _ h rfl fun sl k _ => ⟨sl, List.mem_of_mem_erase k, rfl⟩
    have hu : Sends s u := ht.trans (sends_sendFrom ..)
    have hv : Sends s v := hu.trans (sends_modFn _ _ _ rfl rfl)
    split
    · exact hv.trans (sends_modQueue _ _ _ (fun _ => rfl) fun _ sl k => ⟨sl, k, rfl⟩)
    · exact (hv.trans (sends_putShadow ..)).trans (sends_countReply ..)
  · next x h =>
    extract_lets t
    have ht : Sends s t := sends_setQueue _ _ _ _ h rfl fun sl k _ => ⟨sl, List.mem_of_mem_erase k, rfl⟩
    exact ht.trans (sends_out ..)
  · exact Sends.refl _

theorem sends_foldl {α : Type} (g : State → α → State) (l : List α) (s : State) (h : ∀ t x, Sends t (g t x)) : Sends s (l.foldl g s) := by
  induction l generalizing s with
  | nil => exact Sends.refl _
  | cons x l ih => exact (h s x).trans (ih _)

theorem sends_stageReply (f : FuncId) (q : Nat) (s : State) (sl : Slot) : Sends s (stageReply f q s sl) := by
  unfold stageReply
  extract_lets t
  have ht : Sends s t := by
    refine sends_modQueue _ _ _ (fun _ => rfl) fun x z hz => ?_
    obtain ⟨w, hw, rfl⟩ := List.mem_map.1 hz
    refine ⟨w, hw, ?_⟩
    split <;> rfl
  split
  · exact ht.trans (sends_countReply ..)
  · exact ht

theorem sends_stageFn (s : State) (f : FuncId) : Sends s (stageFn s f) :=
  sends_foldl _ _ _ fun _ _ => sends_foldl _ _ _ fun _ _ => sends_stageReply ..

theorem sends_drainFn (f : FuncId) (n : Nat) (s : State) : Sends s (drainFn f n s) := by
  induction n generalizing s with
  | zero => exact Sends.refl _
  | succ n ih =>
    unfold drainFn
    split
    · split
      · exact (sends_writeReply ..).trans (ih _)
      · exact Sends.refl _
    · exact Sends.refl _

theorem dupReply_kind (x : Queue) (sl : Slot) : (dupReply x sl).kind = sl.kind := by
  unfold dupReply
  split
  · split <;> rfl
  · rfl

theorem dupReply_command (x : Queue) (sl : Slot) (h : sl.kind = .command) : dupReply x sl = sl := by
  simp [dupReply, h]

theorem sends_drainBmc (n : Nat) (s : State) : Sends s (drainBmc n s) := by
  induction n generalizing s with
  | zero => exact Sends.refl _
  | succ n ih =>
    unfold drainBmc
    split
    · split
      · exact (sends_writeReply ..).trans (ih _)
      · exact Sends.refl _
    · exact Sends.refl _

/-- A reset of the channel changes nothing but the channel and what leaves the device. -/
theorem sends_resetChannel (s : State) : Sends s (resetChannel s) := by
  unfold resetChannel
  split
  · next p h =>
    split
    · exact Sends.refl _
    · refine ⟨⟨_, _, _, _, _, rfl⟩, fun n => ?_, fun src => ?_, fun _ => rfl⟩
      · rw [h] at n; cases n
      · cases src with
        | ring f q => exact .refl ..
        | bmc =>
          refine ⟨fun n => ?_, fun b hb => ⟨s.pcp, rfl, ?_⟩⟩
          · have := n rfl; rw [h] at this; cases this
          · cases hb
            exact ⟨fun w hw => (by cases hw), fun sl hs _ => ⟨sl, hs, rfl⟩⟩
  · exact Sends.refl _

/-- REPLY_WRITE changes nothing but the completion side of queues, the counters of functions and what leaves the device. -/
theorem sends_drain (s : State) (src : Src) : Sends s (drain s src) := by
  cases src with
  | ring f q =>
    unfold drain
    dsimp only
    split
    · exact sends_stageFn ..
    · exact sends_drainFn ..
  | bmc =>
    unfold drain
    dsimp only
    split
    · refine Sends.trans (Sends.trans (sends_setQueue s .bmc s.pcp { s.pcp with slots := s.pcp.slots.map (dupReply s.pcp) } rfl rfl ?_)
        (sends_drainBmc ..)) (sends_resetChannel ..)
      intro sl h k
      obtain ⟨z, hz, rfl⟩ := List.mem_map.1 h
      have k : (dupReply s.pcp z).kind = .command := k.resolve_right fun h => h rfl
      exact ⟨z, hz, by rw [dupReply_command _ _ (by rwa [dupReply_kind] at k)]⟩
    · exact Sends.refl _

theorem sends_touchShadow (s : State) (src : Src) : Sends s (touchShadow s src) := by
  cases src with
  | ring f q => exact sends_writeShadow ..
  | bmc => exact Sends.refl _

/-! ## What the end of a command changes -/

/-- Beside what sending changes, a command's end changes the commands in flight, the trace, and the fetch marks of a
QUEUE_DELETE or PLOT_RELEASE that fails. -/
def Ends (s t : State) : Prop :=
  ∃ o fs pt pc pr cs pl tr, t = { s with
    out := o, funcs := fs, ports := pt, pcp := pc, pcpReset := pr, cmds := cs, plots := pl, secure := { s.secure with trace := tr } }

theorem Ends.refl (s : State) : Ends s s := ⟨_, _, _, _, _, _, _, _, rfl⟩

theorem Ends.trans {s t u : State} (h : Ends s t) (k : Ends t u) : Ends s u := by
  obtain ⟨_, _, _, _, _, _, _, _, rfl⟩ := h
  obtain ⟨_, _, _, _, _, _, _, _, rfl⟩ := k
  exact ⟨_, _, _, _, _, _, _, _, rfl⟩

theorem Sends.ends {s t : State} (h : Sends s t) : Ends s t := by
  obtain ⟨_, _, _, _, _, rfl⟩ := h.rest
  exact ⟨_, _, _, _, _, _, _, _, rfl⟩

theorem ends_setQueue (s : State) (src : Src) (x : Queue) : Ends s (s.setQueue src x) := by
  cases src <;> exact ⟨_, _, _, _, _, _, _, _, rfl⟩

theorem ends_modQueue (s : State) (src : Src) (g : Queue → Queue) : Ends s (s.modQueue src g) := by
  unfold State.modQueue
  split
  · exact ends_setQueue ..
  · exact Ends.refl _

theorem ends_foldl {α : Type} (g : State → α → State) (l : List α) (s : State) (h : ∀ t x, Ends t (g t x)) : Ends s (l.foldl g s) := by
  induction l generalizing s with
  | nil => exact Ends.refl _
  | cons x l ih => exact (h s x).trans (ih _)

theorem ends_modFn (s : State) (f : FuncId) (g : Func → Func) : Ends s (s.modFn f g) := ⟨_, _, _, _, _, _, _, _, rfl⟩

theorem ends_setPlot (s : State) (p : Nat) (x : Plot) : Ends s (s.setPlot p x) := ⟨_, _, _, _, _, _, _, _, rfl⟩

theorem ends_modPlot (s : State) (p : Nat) (g : Plot → Plot) : Ends s (s.modPlot p g) :=
  ⟨_, _, _, _, _, _, _, _, rfl⟩

theorem ends_undoStop (s : State) (c : Cmd) : Ends s (undoStop s c) := by
  unfold undoStop
  split
  · exact ends_modQueue ..
  · extract_lets p
    split
    · exact ends_modPlot ..
    · exact Ends.refl _
  · exact Ends.refl _

theorem ends_traceEnd (s : State) (c : Cmd) (st : Status) : Ends s (traceEnd s c st) := by
  unfold traceEnd
  extract_lets x
  split
  · exact Ends.refl _
  · exact ⟨_, _, _, _, _, _, _, _, rfl⟩

theorem ends_finish (s : State) (c : Cmd) (r : Reply) (halt : Bool) : Ends s (finish s c r halt) := by
  unfold finish
  extract_lets t u
  have ht : Ends s t := Ends.trans (t := { s with cmds := s.cmds.filter fun d => !(d.acc == c.acc) }) ⟨_, _, _, _, _, _, _, _, rfl⟩ (ends_traceEnd ..)
  have hu : Ends s u := by
    show Ends s (if _ then _ else _)
    split
    · exact ht
    · exact ht.trans (ends_undoStop ..)
  exact hu.trans (ends_modQueue ..)

theorem ends_skipAfter (src : Src) (acc : Nat) (l : List Cmd) (s : State) : Ends s (skipAfter src acc l s) := by
  induction l generalizing s with
  | nil => exact Ends.refl _
  | cons d l ih =>
    unfold skipAfter
    extract_lets t
    have ht : Ends s t := by
      show Ends s (if _ then _ else _)
      split
      · exact ends_finish ..
      · exact Ends.refl _
    exact ht.trans (ih _)

theorem ends_haltQueue (s : State) (src : Src) (acc seq : Nat) : Ends s (haltQueue s src acc seq) := by
  unfold haltQueue
  extract_lets t
  exact (ends_modQueue ..).trans (ends_skipAfter ..)

/-- The end of a command leaves every field of the state alone but those that `Ends` names. -/
theorem ends_endCmd (s : State) (c : Cmd) (r : Reply) : Ends s (endCmd s c r) := by
  unfold endCmd
  extract_lets halt t u
  have ht : Ends s t := ends_finish ..
  have hu : Ends s u := by
    show Ends s (if _ then _ else _)
    split
    · exact ht.trans (ends_haltQueue ..)
    · exact ht
  exact hu.trans (sends_drain ..).ends

/-! ## The end of a command with OK -/

theorem haltsHere_ok (s : State) (src : Src) : haltsHere s src .ok = false := by simp [haltsHere, Status.halts, Status.code]

theorem endCmd_ok (s : State) (c : Cmd) (r : Reply) (h : r.status = .ok) :
    endCmd s c r = drain (finish s c r false) c.src := by
  simp [endCmd, h, haltsHere_ok]

theorem traceEnd_plots (s : State) (c : Cmd) (st : Status) : (traceEnd s c st).plots = s.plots := by
  unfold traceEnd; dsimp only; split <;> rfl

theorem traceEnd_cmds (s : State) (c : Cmd) (st : Status) : (traceEnd s c st).cmds = s.cmds := by
  unfold traceEnd; dsimp only; split <;> rfl

/-- A command that ends OK leaves the plots as they are. -/
theorem endCmd_plots (s : State) (c : Cmd) (r : Reply) (h : r.status = .ok) : (endCmd s c r).plots = s.plots := by
  rw [endCmd_ok s c r h]
  obtain ⟨_, _, _, _, _, hd⟩ := (sends_drain (finish s c r false) c.src).rest
  rw [hd]
  simp [finish, h, traceEnd_plots]

/-- A command that ends OK leaves the commands in flight, and no other does. -/
theorem endCmd_cmds (s : State) (c : Cmd) (r : Reply) (h : r.status = .ok) :
    (endCmd s c r).cmds = s.cmds.filter fun d => !(d.acc == c.acc) := by
  rw [endCmd_ok s c r h]
  obtain ⟨_, _, _, _, _, hd⟩ := (sends_drain (finish s c r false) c.src).rest
  rw [hd]
  simp [finish, h, traceEnd_cmds]

end Sys2Proof.Machine
end

