-- ==== Sys2Proof/Laws/Ended.lean ====
section
/-!
SUPPORT. A command that ends has ended: it leaves the commands in flight, and its queue's window and slots say how.
-/

namespace Sys2Proof.Machine

/-- The part of `EndedWith` that concerns one queue. -/
def QueueEnded (y : Queue) (acc : Nat) (r : Reply) : Prop :=
  (∀ w ∈ y.window, w.2.acc = acc → w.2.status = some r.status) ∧
    ∀ sl ∈ y.slots, sl.kind = .command → sl.acc = acc → sl.reply = some r

theorem endInQueue_ended (x : Queue) (c : Cmd) (r : Reply) (halt : Bool) : QueueEnded (endInQueue x c r halt) c.acc r := by
  refine ⟨fun w hw ha => ?_, fun sl hs hk ha => ?_⟩
  · obtain ⟨v, -, rfl⟩ := List.mem_map.1 hw
    by_cases h : v.2.acc = c.acc
    · simp [h]
    · simp [h] at ha
  · obtain ⟨v, -, rfl⟩ := List.mem_map.1 hs
    by_cases h : (v.kind == .command && v.acc == c.acc) = true
    · simp [h]
    · simp only [h, Bool.false_eq_true, if_false] at hk ha
      simp [hk, ha] at h

/-- A change of a queue that keeps what has ended. -/
def KeepsEnded (acc : Nat) (r : Reply) (g : Queue → Queue) : Prop := ∀ x, QueueEnded x acc r → QueueEnded (g x) acc r

theorem keepsEnded_endInQueue (acc : Nat) (r r' : Reply) (c : Cmd) (halt : Bool) (h : c.acc ≠ acc) :
    KeepsEnded acc r (fun x => endInQueue x c r' halt) := by
  intro x hx
  refine ⟨fun w hw ha => ?_, fun sl hs hk ha => ?_⟩
  · obtain ⟨v, hv, rfl⟩ := List.mem_map.1 hw
    by_cases k : v.2.acc = c.acc
    · simp [k, h] at ha
    · simp only [beq_iff_eq, k, if_false] at ha ⊢
      exact hx.1 v hv ha
  · obtain ⟨v, hv, rfl⟩ := List.mem_map.1 hs
    by_cases k : (v.kind == .command && v.acc == c.acc) = true
    · simp only [k, if_true] at hk ha
      simp only [Bool.and_eq_true, beq_iff_eq] at k
      exact absurd (k.2.symm.trans ha) h
    · simp only [k, Bool.false_eq_true, if_false] at hk ha ⊢
      exact hx.2 v hv hk ha

/-- The queue of a source has ended a command, when it exists. -/
def SrcEnded (t : State) (src : Src) (acc : Nat) (r : Reply) : Prop :=
  (∀ e ∈ t.cmds, e.acc ≠ acc) ∧ ∀ y, t.queue src = some y → QueueEnded y acc r

theorem srcEnded_modQueue (t : State) (src a : Src) (g : Queue → Queue) (acc : Nat) (r : Reply) (h : SrcEnded t src acc r)
    (k : KeepsEnded acc r g) : SrcEnded (t.modQueue a g) src acc r := by
  refine ⟨by simpa using h.1, fun y hy => ?_⟩
  by_cases e : src = a
  · subst e
    rw [State.queue_modQueue] at hy
    obtain ⟨x, hx, rfl⟩ := Option.map_eq_some_iff.1 hy
    exact k x (h.2 x hx)
  · unfold State.modQueue at hy
    split at hy
    · rw [State.queue_setQueue_other _ _ _ _ e] at hy
      exact h.2 y hy
    · exact h.2 y hy

theorem traceEnd_queue (s : State) (c : Cmd) (st : Status) (src : Src) : (traceEnd s c st).queue src = s.queue src := by
  unfold traceEnd; dsimp only; split <;> cases src <;> rfl

theorem srcEnded_traceEnd (t : State) (c : Cmd) (st : Status) (src : Src) (acc : Nat) (r : Reply) (h : SrcEnded t src acc r) :
    SrcEnded (traceEnd t c st) src acc r := by
  refine ⟨by rw [traceEnd_cmds]; exact h.1, fun y hy => h.2 y ?_⟩
  rwa [traceEnd_queue] at hy

theorem srcEnded_modPlot (t : State) (p : Nat) (g : Plot → Plot) (src : Src) (acc : Nat) (r : Reply) (h : SrcEnded t src acc r) :
    SrcEnded (t.modPlot p g) src acc r := ⟨h.1, fun y hy => h.2 y (by cases src <;> exact hy)⟩

theorem srcEnded_undoStop (t : State) (c : Cmd) (src : Src) (acc : Nat) (r : Reply) (h : SrcEnded t src acc r) :
    SrcEnded (undoStop t c) src acc r := by
  unfold undoStop
  split
  · exact srcEnded_modQueue _ _ _ _ _ _ h (fun _ k => k)
  · extract_lets p
    split
    · exact srcEnded_modPlot _ _ _ _ _ _ h
    · exact h
  · exact h

theorem undoStop_cmds (s : State) (c : Cmd) : (undoStop s c).cmds = s.cmds := by
  unfold undoStop
  split
  · simp
  · extract_lets p
    split <;> rfl
  · rfl

/-- The commands in flight when a command is taken out of them. -/
theorem finish_cmds (s : State) (c : Cmd) (r : Reply) (halt : Bool) :
    (finish s c r halt).cmds = s.cmds.filter fun d => !(d.acc == c.acc) := by
  unfold finish
  extract_lets t u
  have ht : t.cmds = s.cmds.filter fun d => !(d.acc == c.acc) := traceEnd_cmds ..
  have hu : u.cmds = t.cmds := by
    show State.cmds (if _ then _ else _) = _
    split
    · rfl
    · exact undoStop_cmds ..
  rw [State.modQueue_cmds, hu, ht]

theorem finish_ended (s : State) (c : Cmd) (r : Reply) (halt : Bool) : SrcEnded (finish s c r halt) c.src c.acc r := by
  refine ⟨fun e he => ?_, fun y hy => ?_⟩
  · rw [finish_cmds] at he
    have := (List.mem_filter.1 he).2
    simpa using this
  · unfold finish at hy
    dsimp only at hy
    rw [State.queue_modQueue] at hy
    obtain ⟨x, -, rfl⟩ := Option.map_eq_some_iff.1 hy
    exact endInQueue_ended ..

/-- The end of another command keeps what has ended. -/
theorem srcEnded_finish (s : State) (d : Cmd) (r' : Reply) (halt : Bool) (src : Src) (acc : Nat) (r : Reply)
    (h : SrcEnded s src acc r) (k : d.acc ≠ acc) : SrcEnded (finish s d r' halt) src acc r := by
  unfold finish
  extract_lets t u
  have h₀ : SrcEnded { s with cmds := s.cmds.filter fun e => !(e.acc == d.acc) } src acc r :=
    ⟨fun e he => h.1 e (List.mem_of_mem_filter he), fun y hy => h.2 y (by cases src <;> exact hy)⟩
  have ht : SrcEnded t src acc r := srcEnded_traceEnd _ _ _ _ _ _ h₀
  have hu : SrcEnded u src acc r := by
    show SrcEnded (if _ then _ else _) src acc r
    split
    · exact ht
    · exact srcEnded_undoStop _ _ _ _ _ ht
  exact srcEnded_modQueue _ _ _ _ _ _ hu (keepsEnded_endInQueue _ _ _ _ _ k)

theorem srcEnded_skipAfter (a : Src) (n : Nat) (l : List Cmd) (s : State) (src : Src) (acc : Nat) (r : Reply)
    (h : SrcEnded s src acc r) (k : acc ≤ n) : SrcEnded (skipAfter a n l s) src acc r := by
  induction l generalizing s with
  | nil => exact h
  | cons d l ih =>
    unfold skipAfter
    extract_lets t
    refine ih t ?_
    show SrcEnded (if _ then _ else _) src acc r
    split
    · next hc =>
      simp only [Bool.and_eq_true, decide_eq_true_eq] at hc
      exact srcEnded_finish _ _ _ _ _ _ _ h (by omega)
    · exact h

theorem srcEnded_sends {s t : State} (h : Sends s t) (src : Src) (acc : Nat) (r : Reply) (k : SrcEnded s src acc r) :
    SrcEnded t src acc r := by
  refine ⟨?_, fun y hy => ?_⟩
  · obtain ⟨_, _, _, _, _, rfl⟩ := h.rest
    exact k.1
  · obtain ⟨x, hx, hw, hm⟩ := (h.side src).old y hy
    refine ⟨fun w m => (k.2 x hx).1 w (hw w m), fun sl hs hk ha => ?_⟩
    obtain ⟨z, hz, e⟩ := hm sl hs (.inl hk)
    have e₁ : z.kind = sl.kind := by simpa [Slot.unstaged] using (congrArg Slot.kind e).symm
    have e₂ : z.acc = sl.acc := by simpa [Slot.unstaged] using (congrArg Slot.acc e).symm
    have e₃ : sl.reply = z.reply := by simpa [Slot.unstaged] using congrArg Slot.reply e
    exact e₃.trans ((k.2 x hx).2 z hz (e₁.trans hk) (e₂.trans ha))

/-- A command that `endCmd` ends has ended with that reply. -/
theorem endCmd_ended (s : State) (c : Cmd) (r : Reply) : EndedWith (endCmd s c r) c r := by
  show SrcEnded (endCmd s c r) c.src c.acc r
  unfold endCmd
  extract_lets halt t u
  have ht : SrcEnded t c.src c.acc r := finish_ended ..
  have hu : SrcEnded u c.src c.acc r := by
    show SrcEnded (if _ then _ else _) _ _ _
    split
    · unfold haltQueue
      exact srcEnded_skipAfter _ _ _ _ _ _ _ (srcEnded_modQueue _ _ _ _ _ _ ht fun _ h => h) (le_refl _)
    · exact ht
  exact srcEnded_sends (sends_drain ..) _ _ _ hu

end Sys2Proof.Machine
end

