-- ==== Sys2Proof/Laws/Queues.lean ====
section
/-!
SUPPORT. What the end of commands, halts and error records leave of a queue: its rings, its submission side and E.
-/

namespace Sys2Proof.Machine

/-- Every queue keeps those fields, the channel's where none of its resets waits. -/
structure KeepsCore (s t : State) : Prop where
  same : ∀ src, (src = .bmc → s.pcpReset = none) → (t.queue src).map Queue.core = (s.queue src).map Queue.core
  quiet : s.pcpReset = none → t.pcpReset = none

theorem KeepsCore.refl (s : State) : KeepsCore s s := ⟨fun _ _ => rfl, id⟩
theorem KeepsCore.trans {s t u : State} (h : KeepsCore s t) (k : KeepsCore t u) : KeepsCore s u :=
  ⟨fun src n => (k.same src fun e => h.quiet (n e)).trans (h.same src n), fun n => k.quiet (h.quiet n)⟩

theorem core_of_queues {s t : State} (h : ∀ src, t.queue src = s.queue src) (k : t.pcpReset = s.pcpReset) : KeepsCore s t :=
  ⟨fun src _ => by rw [h], fun n => k.trans n⟩

theorem Sends.core {s t : State} (h : Sends s t) : KeepsCore s t := by
  refine ⟨fun src n => ?_, h.quiet⟩
  have := congrArg (Option.map Queue.core) (h.queue src n)
  simp only [Option.map_map] at this
  exact this

theorem core_modQueue (s : State) (a : Src) (g : Queue → Queue) (h : ∀ x, (g x).core = x.core) : KeepsCore s (s.modQueue a g) := by
  refine ⟨fun src _ => ?_, fun n => by rw [State.modQueue_pcpReset]; exact n⟩
  by_cases e : src = a
  · subst e
    rw [State.queue_modQueue]
    cases s.queue src with
    | none => rfl
    | some x => simp [h]
  · unfold State.modQueue
    split
    · rw [State.queue_setQueue_other _ _ _ _ e]
    · rfl

theorem core_foldl {α : Type} (g : State → α → State) (l : List α) (s : State) (h : ∀ t x, KeepsCore t (g t x)) : KeepsCore s (l.foldl g s) := by
  induction l generalizing s with
  | nil => exact KeepsCore.refl _
  | cons x l ih => exact (h s x).trans (ih _)

theorem mget_map_key {α β : Type} (m : Map α) (k : Nat) (g : Nat → α → β) :
    mget (m.map fun q => (q.1, g q.1 q.2)) k = (mget m k).map (g k) := by
  induction m with
  | nil => rfl
  | cons p m ih =>
    obtain ⟨a, v⟩ := p
    simp only [List.map_cons, mget]
    split
    · next h => subst h; rfl
    · split
      · rfl
      · exact ih

theorem core_modPlot (s : State) (p : Nat) (g : Plot → Plot) : KeepsCore s (s.modPlot p g) :=
  core_of_queues (fun src => by cases src <;> rfl) rfl

theorem core_undoStop (s : State) (c : Cmd) : KeepsCore s (undoStop s c) := by
  unfold undoStop
  split
  · exact core_modQueue _ _ _ fun _ => rfl
  · extract_lets p
    split
    · exact core_modPlot ..
    · exact KeepsCore.refl _
  · exact KeepsCore.refl _

theorem traceEnd_pcpReset (s : State) (c : Cmd) (st : Status) : (traceEnd s c st).pcpReset = s.pcpReset := by
  unfold traceEnd; dsimp only; split <;> rfl

theorem core_finish (s : State) (c : Cmd) (r : Reply) (halt : Bool) : KeepsCore s (finish s c r halt) := by
  unfold finish
  extract_lets t u
  have ht : KeepsCore s t := core_of_queues (fun src => by
    show (traceEnd _ _ _).queue src = _
    rw [traceEnd_queue]
    cases src <;> rfl) (traceEnd_pcpReset ..)
  have hu : KeepsCore s u := by
    show KeepsCore s (if _ then _ else _)
    split
    · exact ht
    · exact ht.trans (core_undoStop ..)
  exact hu.trans (core_modQueue _ _ _ fun _ => rfl)

theorem core_skipAfter (src : Src) (acc : Nat) (l : List Cmd) (s : State) : KeepsCore s (skipAfter src acc l s) := by
  induction l generalizing s with
  | nil => exact KeepsCore.refl _
  | cons d l ih =>
    unfold skipAfter
    extract_lets t
    have ht : KeepsCore s t := by
      show KeepsCore s (if _ then _ else _)
      split
      · exact core_finish ..
      · exact KeepsCore.refl _
    exact ht.trans (ih _)

theorem core_haltQueue (s : State) (src : Src) (acc seq : Nat) : KeepsCore s (haltQueue s src acc seq) := by
  unfold haltQueue
  extract_lets t
  have ht : KeepsCore s t := core_modQueue _ _ _ fun _ => rfl
  exact ht.trans (core_skipAfter ..)

/-- The end of a command leaves every queue's rings, submission side and E alone. -/
theorem core_endCmd (s : State) (c : Cmd) (r : Reply) : KeepsCore s (endCmd s c r) := by
  unfold endCmd
  extract_lets halt t u
  have ht : KeepsCore s t := core_finish ..
  have hu : KeepsCore s u := by
    show KeepsCore s (if _ then _ else _)
    split
    · exact ht.trans (core_haltQueue ..)
    · exact ht
  exact hu.trans (sends_drain ..).core

/-! ## Error records -/

theorem sends_setPlot_log (s : State) (p : Nat) (x : Plot) (src : Src) : (s.setPlot p x).queue src = s.queue src := by cases src <;> rfl

theorem signalVec_queue (s : State) (f : FuncId) (v : Nat) (src : Src) : (signalVec s f v).queue src = s.queue src := by
  unfold signalVec
  dsimp only
  split
  · cases src <;> rfl
  · cases src with
    | bmc => rfl
    | ring g q =>
      by_cases e : g = f
      · subst e; simp [State.queue]
      · simp [State.queue, State.modFn, State.fn_setFn_other _ _ _ _ e]

theorem modFn_queue (s : State) (f : FuncId) (g : Func → Func) (h : (g (s.fn f)).queues = (s.fn f).queues) (src : Src) :
    (s.modFn f g).queue src = s.queue src := by
  cases src with
  | bmc => rfl
  | ring k q =>
    by_cases e : k = f
    · subst e; simp [State.queue, h]
    · simp [State.queue, State.modFn, State.fn_setFn_other _ _ _ _ e]

theorem foldl_queue {α : Type} (g : State → α → State) (l : List α) (s : State) (src : Src)
    (h : ∀ t x, (g t x).queue src = t.queue src) : (l.foldl g s).queue src = s.queue src := by
  induction l generalizing s with
  | nil => rfl
  | cons x l ih => exact (ih _).trans (h s x)

theorem plotRecord_queue (s : State) (p : Nat) (r : Rec) (src : Src) : (plotRecord s p r).queue src = s.queue src := by
  unfold plotRecord
  split
  · rfl
  · dsimp only
    unfold notePlot
    rw [foldl_queue, sends_setPlot_log]
    intro t f
    extract_lets u
    have hu : u.queue src = t.queue src := modFn_queue _ _ _ (by split <;> rfl) _
    clear_value u
    split
    · unfold signalErr
      rw [signalVec_queue, hu]
    · exact hu

theorem sendEvent_queue (s : State) (b : List Byte) (src : Src) : (sendEvent s b).queue src = s.queue src := by
  unfold sendEvent; split <;> cases src <;> rfl

theorem deviceRecord_queue (s : State) (r : Rec) (src : Src) : (deviceRecord s r).queue src = s.queue src := by
  have hr : ∀ t : State, (reportRecord t r).queue src = t.queue src := by
    intro t
    unfold reportRecord
    dsimp only
    split
    · split
      · unfold signalErr; rw [signalVec_queue, sendEvent_queue]
      · exact sendEvent_queue ..
    · exact sendEvent_queue ..
  unfold deviceRecord
  dsimp only
  split
  · rw [hr]; cases src <;> rfl
  · cases src <;> rfl

/-- An error record changes no queue. -/
theorem addRecord_queue (s : State) (p : Option Nat) (r : Rec) (src : Src) : (addRecord s p r).queue src = s.queue src := by
  unfold addRecord
  dsimp only
  rw [deviceRecord_queue]
  split
  · split
    · exact plotRecord_queue ..
    · rfl
  · exact foldl_queue _ _ _ _ fun t q => plotRecord_queue ..

/-! ## The end of a command with OK -/

theorem finish_ok_plots (s : State) (c : Cmd) (r : Reply) (h : r.status = .ok) : (finish s c r false).plots = s.plots := by
  simp [finish, h, traceEnd_plots]

theorem finish_still (s : State) (c : Cmd) (r : Reply) (h : r.status = .ok) (f : FuncId) :
    ((finish s c r false).fn f).still = (s.fn f).still := by
  have ht : ∀ st, (traceEnd { s with cmds := s.cmds.filter fun d => !(d.acc == c.acc) } c st).fn f = s.fn f := by
    intro st; unfold traceEnd; dsimp only; split <;> rfl
  unfold finish
  simp only [h, beq_self_eq_true, if_true]
  unfold State.modQueue
  split
  · next x hx =>
    rw [setQueue_still, ht]
  · rw [ht]

/-- A command that ends OK changes nothing but what its end and its replies change. -/
theorem endCmd_repliesOnly (s : State) (c : Cmd) (r : Reply) (h : r.status = .ok) : RepliesOnly s (endCmd s c r) := by
  refine ⟨?_, fun f => ?_, (core_endCmd s c r).same⟩
  · have hp := endCmd_plots s c r h
    obtain ⟨_, _, _, _, _, _, _, _, he⟩ := ends_endCmd s c r
    rw [he] at hp
    rw [he]
    dsimp only at hp
    subst hp
    rfl
  · rw [endCmd_ok s c r h]
    exact ((sends_drain _ _).fns f).trans (finish_still s c r h f)

/-! ## The end of a command with any status -/

/-- Functions keep what sending leaves alone, and plots all but the mark of a release. -/
structure Mark (s t : State) : Prop where
  fns : ∀ f, (t.fn f).still = (s.fn f).still
  plots : ∀ n, (mget t.plots n).map Plot.unmarked = (mget s.plots n).map Plot.unmarked

theorem Mark.refl (s : State) : Mark s s := ⟨fun _ => rfl, fun _ => rfl⟩
theorem Mark.trans {s t u : State} (h : Mark s t) (k : Mark t u) : Mark s u :=
  ⟨fun f => (k.fns f).trans (h.fns f), fun n => (k.plots n).trans (h.plots n)⟩

theorem mark_foldl {α : Type} (g : State → α → State) (l : List α) (s : State) (h : ∀ t x, Mark t (g t x)) : Mark s (l.foldl g s) := by
  induction l generalizing s with
  | nil => exact Mark.refl _
  | cons x l ih => exact (h s x).trans (ih _)

theorem mark_modFn (s : State) (f : FuncId) (g : Func → Func) (h : ∀ x, (g x).still = x.still) : Mark s (s.modFn f g) := by
  refine ⟨fun k => ?_, fun _ => rfl⟩
  by_cases e : k = f
  · subst e; rw [State.fn_modFn]; exact h _
  · unfold State.modFn; rw [State.fn_setFn_other _ _ _ _ e]

theorem mark_modQueue (s : State) (src : Src) (g : Queue → Queue) : Mark s (s.modQueue src g) := by
  unfold State.modQueue
  split
  · exact ⟨fun f => setQueue_still .., fun _ => by cases src <;> rfl⟩
  · exact Mark.refl _

theorem mark_stopPlot (s : State) (p : Nat) (b : Option Nat) : Mark s (stopPlot s p b) := by
  refine ⟨fun _ => rfl, fun n => ?_⟩
  show (mget (mmod s.plots p fun x => { x with releasing := b }) n).map _ = _
  unfold mmod
  split
  · next v h =>
    rw [mget_mput]
    split
    · next e => subst e; rw [h]; rfl
    · rfl
  · rfl

theorem mark_undoStop (s : State) (c : Cmd) : Mark s (undoStop s c) := by
  unfold undoStop
  split
  · exact mark_modQueue ..
  · extract_lets p
    split
    · exact mark_stopPlot ..
    · exact Mark.refl _
  · exact Mark.refl _

theorem mark_finish (s : State) (c : Cmd) (r : Reply) (halt : Bool) : Mark s (finish s c r halt) := by
  unfold finish
  extract_lets t u
  have ht : Mark s t := ⟨fun f => by
    show ((traceEnd _ _ _).fn f).still = _
    unfold traceEnd; dsimp only; split <;> rfl, fun n => by
    show (mget (traceEnd _ _ _).plots n).map _ = _
    rw [traceEnd_plots]⟩
  have hu : Mark s u := by
    show Mark s (if _ then _ else _)
    split
    · exact ht
    · exact ht.trans (mark_undoStop ..)
  exact hu.trans (mark_modQueue ..)

theorem mark_skipAfter (src : Src) (acc : Nat) (l : List Cmd) (s : State) : Mark s (skipAfter src acc l s) := by
  induction l generalizing s with
  | nil => exact Mark.refl _
  | cons d l ih =>
    unfold skipAfter
    extract_lets t
    have ht : Mark s t := by
      show Mark s (if _ then _ else _)
      split
      · exact mark_finish ..
      · exact Mark.refl _
    exact ht.trans (ih _)

theorem Sends.mark {s t : State} (h : Sends s t) : Mark s t := by
  refine ⟨h.fns, fun n => ?_⟩
  obtain ⟨_, _, _, _, _, rfl⟩ := h.rest
  rfl

theorem mark_endCmd (s : State) (c : Cmd) (r : Reply) : Mark s (endCmd s c r) := by
  unfold endCmd
  extract_lets halt t u
  have ht : Mark s t := mark_finish ..
  have hu : Mark s u := by
    show Mark s (if _ then _ else _)
    split
    · unfold haltQueue
      extract_lets v
      exact ht.trans ((mark_modQueue ..).trans (mark_skipAfter ..))
    · exact ht
  exact hu.trans (sends_drain ..).mark

/-- The end of a command changes nothing but what `EndsOnly` names. -/
theorem endsOnly_endCmd (s : State) (c : Cmd) (r : Reply) : EndsOnly s (endCmd s c r) := by
  refine ⟨?_, (mark_endCmd ..).fns, (core_endCmd ..).same, (mark_endCmd ..).plots⟩
  obtain ⟨_, _, _, _, _, _, _, _, he⟩ := ends_endCmd s c r
  rw [he]

end Sys2Proof.Machine
end

