-- ==== Sys2Proof/Laws/Records.lean ====
section
/-!
SUPPORT. Everything that an error record or a counted correction changes: logs, their status bits, interrupts and events.
-/

namespace Sys2Proof.Machine

theorem Notes.refl (s : State) : Notes s s := ⟨⟨_, _, _, _, _, _, _, _, _, rfl⟩, fun _ => rfl, fun _ => rfl, rfl⟩

theorem Notes.trans {s t u : State} (h : Notes s t) (k : Notes t u) : Notes s u := by
  refine ⟨?_, fun src => (k.queues src).trans (h.queues src), fun n => (k.plots n).trans (h.plots n), k.replies.trans h.replies⟩
  obtain ⟨_, _, _, _, _, _, _, _, _, rfl⟩ := h.rest
  obtain ⟨_, _, _, _, _, _, _, _, _, rfl⟩ := k.rest
  exact ⟨_, _, _, _, _, _, _, _, _, rfl⟩

theorem notes_foldl {α : Type} (g : State → α → State) (l : List α) (s : State) (h : ∀ t x, Notes t (g t x)) : Notes s (l.foldl g s) := by
  induction l generalizing s with
  | nil => exact Notes.refl _
  | cons x l ih => exact (h s x).trans (ih _)

theorem notes_modFn (s : State) (f : FuncId) (g : Func → Func) (h : (g (s.fn f)).queues = (s.fn f).queues) : Notes s (s.modFn f g) :=
  ⟨⟨_, _, _, _, _, _, _, _, _, rfl⟩, fun src => modFn_queue _ _ _ h src, fun _ => rfl, rfl⟩

theorem notes_signalVec (s : State) (f : FuncId) (v : Nat) : Notes s (signalVec s f v) := by
  refine ⟨?_, fun src => signalVec_queue _ _ _ src, fun n => ?_, ?_⟩
  · unfold signalVec; dsimp only
    split <;> exact ⟨_, _, _, _, _, _, _, _, _, rfl⟩
  · unfold signalVec; dsimp only
    split <;> rfl
  · unfold signalVec State.sameReplies; dsimp only
    split
    · simp [sendFrom, touchPort, Emit.isReply]
    · rfl

theorem notes_setLog (s : State) (p : Nat) (x y : Plot) (h : mget s.plots p = some x) (k : y.sansLog = x.sansLog) : Notes s (s.setPlot p y) := by
  refine ⟨⟨_, _, _, _, _, _, _, _, _, rfl⟩, fun src => by cases src <;> rfl, fun n => ?_, rfl⟩
  by_cases e : n = p
  · subst e; simp [h, k]
  · simp [e]

theorem notes_plotRecord (s : State) (p : Nat) (r : Rec) : Notes s (plotRecord s p r) := by
  unfold plotRecord
  split
  · exact Notes.refl _
  · next x h =>
    dsimp only
    unfold notePlot
    refine Notes.trans (t := s.setPlot p { x with log := (x.log.add 64 r).1 }) (notes_setLog _ _ _ _ h rfl) (notes_foldl _ _ _ fun t f => ?_)
    extract_lets u
    have hu : Notes t u := notes_modFn _ _ _ (by split <;> rfl)
    split
    · exact hu.trans (notes_signalVec ..)
    · exact hu

theorem notes_out (s : State) (e : Emit) (h : e.isReply = false) : Notes s { s with out := s.out ++ [e] } :=
  ⟨⟨_, _, _, _, _, _, _, _, _, rfl⟩, fun src => by cases src <;> rfl, fun _ => rfl, by simp [State.sameReplies, h]⟩

theorem notes_reportRecord (s : State) (r : Rec) : Notes s (reportRecord s r) := by
  have he : Notes s (sendEvent s r.bytes) := by
    unfold sendEvent
    split
    · exact notes_out _ _ rfl
    · exact Notes.refl _
  unfold reportRecord
  extract_lets t
  have ht : Notes s t := he
  split
  · dsimp only
    split
    · exact ht.trans (notes_signalVec ..)
    · exact ht
  · exact ht

/-- A change of the device log and its status bits. -/
theorem notes_devLog (s : State) (l : Log) (a b c : Bool) (m : Map Nat) :
    Notes s { s with devLog := l, devNew := a, devLost := b, devCe := c, devSetAt := m } :=
  ⟨⟨_, _, _, _, _, _, _, _, _, rfl⟩, fun src => by cases src <;> rfl, fun _ => rfl, rfl⟩

theorem notes_deviceRecord (s : State) (r : Rec) : Notes s (deviceRecord s r) := by
  unfold deviceRecord
  extract_lets a
  split
  · exact (notes_devLog ..).trans (notes_reportRecord ..)
  · exact notes_devLog ..

/-- ERROR_RECORD_ADD changes only logs, status bits and what is sent (R376, R379). -/
theorem notes_addRecord (s : State) (p : Option Nat) (r : Rec) : Notes s (addRecord s p r) := by
  unfold addRecord
  extract_lets r' t
  have ht : Notes s t := by
    simp only [t]
    split
    · split
      · exact notes_plotRecord ..
      · exact Notes.refl _
    · exact notes_foldl _ _ _ fun _ _ => notes_plotRecord ..
  exact ht.trans (notes_deviceRecord ..)

/-- A counted correction changes only logs and status bits (R377). -/
theorem notes_countCorrected (s : State) (p : Option Nat) (b : Bool) (a : Nat) : Notes s (countCorrected s p b a) := by
  unfold countCorrected
  extract_lets t
  have ht : Notes s t := by
    simp only [t]
    split
    · next q x h =>
      have hx : mget s.plots q = some x := by
        obtain ⟨m, hm, hh⟩ := Option.bind_eq_some_iff.1 h
        obtain ⟨y, hy, e⟩ := Option.map_eq_some_iff.1 hh
        cases e
        exact hy
      exact (notes_setLog _ _ _ { x with log := x.log.correct b a } hx rfl).trans (notes_foldl _ _ _ fun _ _ => notes_modFn _ _ _ rfl)
    · exact Notes.refl _
  exact ht.trans (notes_devLog ..)

/-- What an operation's accesses found (R211, R376). -/
theorem notes_applyTrace (s : State) (p : Option Nat) (e : Nat) (c : Option Cmd) (tr : Trace) : Notes s (applyTrace s p e c tr) := by
  unfold applyTrace
  exact (notes_foldl _ _ _ fun _ _ => notes_countCorrected ..).trans (notes_foldl _ _ _ fun _ _ => notes_addRecord ..)

theorem Notes.eng {s t : State} (h : Notes s t) (e : Nat) : t.eng e = s.eng e := by
  obtain ⟨⟨_, _, _, _, _, _, _, _, _, rfl⟩, -, -, -⟩ := h
  rfl

theorem Notes.cmds {s t : State} (h : Notes s t) : t.cmds = s.cmds := by
  obtain ⟨⟨_, _, _, _, _, _, _, _, _, rfl⟩, -, -, -⟩ := h
  rfl

/-- Draining an engine's combining buffer changes its scratchpad alone, beside the notes (R207, R208). -/
theorem drainEngine_spad (s : State) (e : Nat) (c : Option Cmd) (i : Nat) :
    ((drainEngine s e c).eng i).spad = if i = e then (s.eng e).spad.drain.1 else (s.eng i).spad := by
  unfold drainEngine
  extract_lets x r
  rw [(notes_applyTrace ..).eng]
  by_cases h : i = e
  · subst h; simp [r, x]
  · rw [State.eng_setEng_other _ _ _ _ h, if_neg h]

end Sys2Proof.Machine
end

