-- ==== Sys2Proof/Laws/Bits.lean ====
section
/-!
SUPPORT. Bits of register values: a whole-register write takes every bit of its value, and the row's own bit is set or clear.
-/

namespace Sys2Proof.Machine

theorem bitOf_testBit (v i : Nat) : bitOf v i = v.testBit i := by
  rw [Nat.testBit_eq_decide_div_mod_eq]
  unfold bitOf
  rw [Bool.eq_iff_iff]
  simp

/-- A write of 8 bytes covers every bit of the register. -/
theorem merge_whole (cur v : Nat) : merge cur (2 ^ 64 - 1) v = v % 2 ^ 64 := by
  unfold merge
  rw [Nat.sub_self]
  show (cur &&& 0) ||| (v &&& (2 ^ 64 - 1)) = _
  rw [Nat.and_zero, Nat.zero_or, Nat.and_two_pow_sub_one_eq_mod]

theorem hits_whole (v i : Nat) (h : i < 64) : hits (2 ^ 64 - 1) v i = bitOf v i := by
  unfold hits
  rw [bitOf_testBit (2 ^ 64 - 1), Nat.testBit_two_pow_sub_one]
  simp [h]

theorem bitOf_mod (v i : Nat) (h : i < 64) : bitOf (v % 2 ^ 64) i = bitOf v i := by
  rw [bitOf_testBit, bitOf_testBit, Nat.testBit_mod_two_pow]
  simp [h]

theorem withBit_lt (v : Word) (i : Nat) (h : i < 64) : withBit v i < 2 ^ 64 :=
  Nat.or_lt_two_pow v.isLt (Nat.pow_lt_pow_right (by decide) h)

/-- The row's own bit is 1 in the value written. -/
theorem bitOf_withBit (v : Word) (i j : Nat) : bitOf (withBit v i) j = (bitOf v.toNat j || decide (i = j)) := by
  rw [bitOf_testBit, bitOf_testBit]
  show (v.toNat ||| 2 ^ i).testBit j = _
  rw [Nat.testBit_or, Nat.testBit_two_pow]

theorem withoutBit_zero (v : Word) : withoutBit v 0 = 2 * (v.toNat / 2) := by
  unfold withoutBit flag bitOf
  simp
  split <;> omega

/-- The row's own bit 0 is 0 in the value written, and every other bit is as given. -/
theorem bitOf_withoutBit (v : Word) (j : Nat) : bitOf (withoutBit v 0) j = (bitOf v.toNat j && decide (j ≠ 0)) := by
  rw [withoutBit_zero]
  cases j with
  | zero => simp [bitOf]
  | succ j =>
    have h : 2 * (v.toNat / 2) / 2 ^ (j + 1) = v.toNat / 2 ^ (j + 1) := by
      rw [Nat.pow_succ', ← Nat.div_div_eq_div_mul, ← Nat.div_div_eq_div_mul, Nat.mul_div_cancel_left _ (by decide)]
    simp [bitOf, h]

theorem withoutBit_lt (v : Word) : withoutBit v 0 < 2 ^ 64 := by
  have := v.isLt
  rw [withoutBit_zero]
  omega

theorem writeMask_whole (off : Nat) : writeMask off 8 = 2 ^ 64 - 1 := rfl

theorem writeValue_whole (off v : Nat) (h : v < 2 ^ 64) : writeValue off 8 v = v := Nat.mod_eq_of_lt h

end Sys2Proof.Machine
end

