-- ==== Sys2Proof/Laws/Keeps.lean ====
section
/-!
SUPPORT. Which operations keep the stores (fuses, lifecycle, authority, NVS, firmware slots) and the export counter: every
one but those that R422 to R435 and R470 name.
-/

set_option linter.unusedTactic false
set_option linter.unreachableTactic false

namespace Sys2Proof.Machine

/-- The stores and the export counter are the same in two states. -/
abbrev Keeps (s t : State) : Prop := t.stores = s.stores ∧ t.expCtr = s.expCtr

theorem Keeps.trans {s t u : State} (h : Keeps s t) (k : Keeps t u) : Keeps s u := ⟨k.1.trans h.1, k.2.trans h.2⟩

@[simp] theorem foldl_keeps {α : Type} (g : State → α → State) (l : List α) (s : State)
    (h : ∀ t x, Keeps t (g t x)) : Keeps s (l.foldl g s) := by
  induction l generalizing s with
  | nil => exact ⟨rfl, rfl⟩
  | cons x l ih => exact (h s x).trans (ih (g s x))

@[simp] theorem ite_stores (c : Prop) [Decidable c] (s t : State) :
    (if c then s else t).stores = if c then s.stores else t.stores := by split <;> rfl

@[simp] theorem ite_expCtr (c : Prop) [Decidable c] (s t : State) :
    (if c then s else t).expCtr = if c then s.expCtr else t.expCtr := by split <;> rfl


/-- Only what the plots hold differs. -/
def OnlyPlots (s t : State) : Prop := ∃ pl, t = { s with plots := pl }

theorem OnlyPlots.refl (s : State) : OnlyPlots s s := ⟨_, rfl⟩

theorem OnlyPlots.keeps {s t : State} (h : OnlyPlots s t) : Keeps s t := by
  obtain ⟨_, rfl⟩ := h
  exact ⟨rfl, rfl⟩

/-- A checked answer changes only what the plots hold. -/
def ChkKeeps {α : Type} (s : State) (x : Chk (State × α)) : Prop := ∀ r, x = .ok r → OnlyPlots s r.1

theorem ChkKeeps.bind {α β : Type} {s : State} {x : Chk β} {f : β → Chk (State × α)} (h : ∀ b, ChkKeeps s (f b)) :
    ChkKeeps s (x >>= f) := by
  intro r hr
  cases x with
  | error e => cases hr
  | ok b => exact h b r hr

theorem ChkKeeps.error {α : Type} {s : State} {r : Reply} : ChkKeeps (α := α) s (.error r) := by
  intro r h
  cases h

theorem ChkKeeps.ok {α : Type} {s t : State} {x : α} (h : OnlyPlots s t) : ChkKeeps s (.ok (t, x)) := by
  rintro r ⟨⟩
  exact h

@[simp] theorem State.setFn_keeps (s : State) (f : FuncId) (x : Func) : Keeps s (State.setFn s f x) := by
  unfold State.setFn
  try dsimp only
  repeat' first
    | with_reducible exact ⟨rfl, rfl⟩
    | (simp only [Keeps, foldl_keeps, ite_stores, ite_expCtr, ite_self, and_self, implies_true]; done)
    | (refine foldl_keeps _ _ _ fun _ _ => ?_; try dsimp only)
    | split

@[simp] theorem State.setPort_keeps (s : State) (p : Nat) (x : Port) : Keeps s (State.setPort s p x) := by
  unfold State.setPort
  try dsimp only
  repeat' first
    | with_reducible exact ⟨rfl, rfl⟩
    | (simp only [Keeps, foldl_keeps, ite_stores, ite_expCtr, ite_self, and_self, implies_true]; done)
    | (refine foldl_keeps _ _ _ fun _ _ => ?_; try dsimp only)
    | split

@[simp] theorem State.setEng_keeps (s : State) (e : Nat) (x : Engine) : Keeps s (State.setEng s e x) := by
  unfold State.setEng
  try dsimp only
  repeat' first
    | with_reducible exact ⟨rfl, rfl⟩
    | (simp only [Keeps, foldl_keeps, ite_stores, ite_expCtr, ite_self, and_self, implies_true]; done)
    | (refine foldl_keeps _ _ _ fun _ _ => ?_; try dsimp only)
    | split

@[simp] theorem State.setPair_keeps (s : State) (i : Nat) (x : Pair) : Keeps s (State.setPair s i x) := by
  unfold State.setPair
  try dsimp only
  repeat' first
    | with_reducible exact ⟨rfl, rfl⟩
    | (simp only [Keeps, foldl_keeps, ite_stores, ite_expCtr, ite_self, and_self, implies_true]; done)
    | (refine foldl_keeps _ _ _ fun _ _ => ?_; try dsimp only)
    | split

@[simp] theorem State.setStack_keeps (s : State) (i : Nat) (x : Hbm) : Keeps s (State.setStack s i x) := by
  unfold State.setStack
  try dsimp only
  repeat' first
    | with_reducible exact ⟨rfl, rfl⟩
    | (simp only [Keeps, foldl_keeps, ite_stores, ite_expCtr, ite_self, and_self, implies_true]; done)
    | (refine foldl_keeps _ _ _ fun _ _ => ?_; try dsimp only)
    | split

@[simp] theorem State.setPlot_keeps (s : State) (p : Nat) (x : Plot) : Keeps s (State.setPlot s p x) := by
  unfold State.setPlot
  try dsimp only
  repeat' first
    | with_reducible exact ⟨rfl, rfl⟩
    | (simp only [Keeps, foldl_keeps, ite_stores, ite_expCtr, ite_self, and_self, implies_true]; done)
    | (refine foldl_keeps _ _ _ fun _ _ => ?_; try dsimp only)
    | split

@[simp] theorem State.modPlot_keeps (s : State) (p : Nat) (g : Plot → Plot) : Keeps s (State.modPlot s p g) := by
  unfold State.modPlot
  try dsimp only
  repeat' first
    | with_reducible exact ⟨rfl, rfl⟩
    | (simp only [Keeps, foldl_keeps, ite_stores, ite_expCtr, ite_self, and_self, implies_true]; done)
    | (refine foldl_keeps _ _ _ fun _ _ => ?_; try dsimp only)
    | split

@[simp] theorem State.modFn_keeps (s : State) (f : FuncId) (g : Func → Func) : Keeps s (State.modFn s f g) := by
  unfold State.modFn
  try dsimp only
  repeat' first
    | with_reducible exact ⟨rfl, rfl⟩
    | (simp only [Keeps, State.setFn_keeps, foldl_keeps, ite_stores, ite_expCtr, ite_self, and_self, implies_true]; done)
    | (refine foldl_keeps _ _ _ fun _ _ => ?_; try dsimp only)
    | split

@[simp] theorem State.modEng_keeps (s : State) (e : Nat) (g : Engine → Engine) : Keeps s (State.modEng s e g) := by
  unfold State.modEng
  try dsimp only
  repeat' first
    | with_reducible exact ⟨rfl, rfl⟩
    | (simp only [Keeps, State.setEng_keeps, foldl_keeps, ite_stores, ite_expCtr, ite_self, and_self, implies_true]; done)
    | (refine foldl_keeps _ _ _ fun _ _ => ?_; try dsimp only)
    | split

@[simp] theorem State.setQueue_keeps (s : State) (src : Src) (x : Queue) : Keeps s (State.setQueue s src x) := by
  unfold State.setQueue
  try dsimp only
  repeat' first
    | with_reducible exact ⟨rfl, rfl⟩
    | (simp only [Keeps]; done)
    | (refine foldl_keeps _ _ _ fun _ _ => ?_; try dsimp only)
    | split

@[simp] theorem State.modQueue_keeps (s : State) (src : Src) (g : Queue → Queue) : Keeps s (State.modQueue s src g) := by
  unfold State.modQueue
  try dsimp only
  repeat' first
    | with_reducible exact ⟨rfl, rfl⟩
    | (simp only [Keeps, State.setQueue_keeps, and_self]; done)
    | (refine foldl_keeps _ _ _ fun _ _ => ?_; try dsimp only)
    | split

@[simp] theorem touchPort_keeps (s : State) (p : Nat) : Keeps s (touchPort s p) := by
  unfold touchPort
  try dsimp only
  repeat' first
    | with_reducible exact ⟨rfl, rfl⟩
    | (simp only [Keeps, State.setPort_keeps, foldl_keeps, ite_stores, ite_expCtr, ite_self, and_self, implies_true]; done)
    | (refine foldl_keeps _ _ _ fun _ _ => ?_; try dsimp only)
    | split

@[simp] theorem sendFrom_keeps (s : State) (f : FuncId) (es : List Emit) : Keeps s (sendFrom s f es) := by
  unfold sendFrom
  try dsimp only
  repeat' first
    | with_reducible exact ⟨rfl, rfl⟩
    | (simp only [Keeps, touchPort_keeps, foldl_keeps, ite_stores, ite_expCtr, ite_self, and_self, implies_true]; done)
    | (refine foldl_keeps _ _ _ fun _ _ => ?_; try dsimp only)
    | split

@[simp] theorem signalVec_keeps (s : State) (f : FuncId) (v : Nat) : Keeps s (signalVec s f v) := by
  unfold signalVec
  try dsimp only
  repeat' first
    | with_reducible exact ⟨rfl, rfl⟩
    | (simp only [Keeps, State.modFn_keeps, sendFrom_keeps, ite_stores, ite_expCtr, ite_self, and_self]; done)
    | (refine foldl_keeps _ _ _ fun _ _ => ?_; try dsimp only)
    | split

@[simp] theorem flushVec_keeps (s : State) (f : FuncId) (v : Nat) : Keeps s (flushVec s f v) := by
  unfold flushVec
  try dsimp only
  repeat' first
    | with_reducible exact ⟨rfl, rfl⟩
    | (simp only [Keeps, State.modFn_keeps, sendFrom_keeps, ite_stores, ite_expCtr, ite_self, and_self]; done)
    | (refine foldl_keeps _ _ _ fun _ _ => ?_; try dsimp only)
    | split

@[simp] theorem flushVecs_keeps (s : State) (f : FuncId) : Keeps s (flushVecs s f) := by
  unfold flushVecs
  try dsimp only
  repeat' first
    | with_reducible exact ⟨rfl, rfl⟩
    | (simp only [Keeps, flushVec_keeps, foldl_keeps, and_self, implies_true]; done)
    | (refine foldl_keeps _ _ _ fun _ _ => ?_; try dsimp only)
    | split

@[simp] theorem signalErr_keeps (s : State) (f : FuncId) : Keeps s (signalErr s f) := by
  unfold signalErr
  try dsimp only
  repeat' first
    | with_reducible exact ⟨rfl, rfl⟩
    | (simp only [Keeps, signalVec_keeps, and_self]; done)
    | (refine foldl_keeps _ _ _ fun _ _ => ?_; try dsimp only)
    | split

@[simp] theorem notePlot_keeps (s : State) (p : Plot) (added : Bool) : Keeps s (notePlot s p added) := by
  unfold notePlot
  try dsimp only
  repeat' first
    | with_reducible exact ⟨rfl, rfl⟩
    | (simp only [Keeps, State.modFn_keeps, signalErr_keeps, foldl_keeps, ite_stores, ite_expCtr, ite_self, and_self, implies_true]; done)
    | (refine foldl_keeps _ _ _ fun _ _ => ?_; try dsimp only)
    | split

@[simp] theorem plotRecord_keeps (s : State) (p : Nat) (r : Rec) : Keeps s (plotRecord s p r) := by
  unfold plotRecord
  try dsimp only
  repeat' first
    | with_reducible exact ⟨rfl, rfl⟩
    | (simp only [Keeps, State.setPlot_keeps, notePlot_keeps, and_self]; done)
    | (refine foldl_keeps _ _ _ fun _ _ => ?_; try dsimp only)
    | split

@[simp] theorem sendEvent_keeps (s : State) (body : List Byte) : Keeps s (sendEvent s body) := by
  unfold sendEvent
  try dsimp only
  repeat' first
    | with_reducible exact ⟨rfl, rfl⟩
    | (simp only [Keeps]; done)
    | (refine foldl_keeps _ _ _ fun _ _ => ?_; try dsimp only)
    | split

@[simp] theorem reportRecord_keeps (s : State) (r : Rec) : Keeps s (reportRecord s r) := by
  unfold reportRecord
  try dsimp only
  repeat' first
    | with_reducible exact ⟨rfl, rfl⟩
    | (simp only [Keeps, signalErr_keeps, sendEvent_keeps, ite_stores, ite_expCtr, ite_self, and_self]; done)
    | (refine foldl_keeps _ _ _ fun _ _ => ?_; try dsimp only)
    | split

@[simp] theorem deviceRecord_keeps (s : State) (r : Rec) : Keeps s (deviceRecord s r) := by
  unfold deviceRecord
  try dsimp only
  repeat' first
    | with_reducible exact ⟨rfl, rfl⟩
    | (simp only [Keeps, reportRecord_keeps, ite_stores, ite_expCtr, ite_self, and_self]; done)
    | (refine foldl_keeps _ _ _ fun _ _ => ?_; try dsimp only)
    | split

@[simp] theorem addRecord_keeps (s : State) (plot : Option Nat) (r : Rec) : Keeps s (addRecord s plot r) := by
  unfold addRecord
  try dsimp only
  repeat' first
    | with_reducible exact ⟨rfl, rfl⟩
    | (simp only [Keeps, plotRecord_keeps, deviceRecord_keeps, foldl_keeps, ite_stores, ite_expCtr, and_self, implies_true]; done)
    | (refine foldl_keeps _ _ _ fun _ _ => ?_; try dsimp only)
    | split

@[simp] theorem countCorrected_keeps (s : State) (plot : Option Nat) (hbm : Bool) (addr : Nat) : Keeps s (countCorrected s plot hbm addr) := by
  unfold countCorrected
  try dsimp only
  repeat' first
    | with_reducible exact ⟨rfl, rfl⟩
    | (simp only [Keeps, State.setPlot_keeps, State.modFn_keeps, foldl_keeps, and_self, implies_true]; done)
    | (refine foldl_keeps _ _ _ fun _ _ => ?_; try dsimp only)
    | split

@[simp] theorem snapshot_keeps (s : State) : Keeps s (snapshot s) := by
  unfold snapshot
  try dsimp only
  repeat' first
    | with_reducible exact ⟨rfl, rfl⟩
    | (simp only [Keeps, foldl_keeps, ite_stores, ite_expCtr, ite_self, and_self, implies_true]; done)
    | (refine foldl_keeps _ _ _ fun _ _ => ?_; try dsimp only)
    | split

@[simp] theorem enterFatal_keeps (unit : Nat) (s : State) : Keeps s (enterFatal unit s) := by
  unfold enterFatal
  try dsimp only
  repeat' first
    | with_reducible exact ⟨rfl, rfl⟩
    | (simp only [Keeps, addRecord_keeps, snapshot_keeps, ite_stores, ite_expCtr, ite_self, and_self]; done)
    | (refine foldl_keeps _ _ _ fun _ _ => ?_; try dsimp only)
    | split

@[simp] theorem signalQueue_keeps (s : State) (f : FuncId) (q : Nat) : Keeps s (signalQueue s f q) := by
  unfold signalQueue
  try dsimp only
  repeat' first
    | with_reducible exact ⟨rfl, rfl⟩
    | (simp only [Keeps, State.setQueue_keeps, signalVec_keeps, ite_stores, ite_expCtr, ite_self, and_self]; done)
    | (refine foldl_keeps _ _ _ fun _ _ => ?_; try dsimp only)
    | split

@[simp] theorem putShadow_keeps (s : State) (f : FuncId) (q : Nat) : Keeps s (putShadow s f q).1 := by
  unfold putShadow
  try dsimp only
  repeat' first
    | with_reducible exact ⟨rfl, rfl⟩
    | (simp only [Keeps]; done)
    | (refine foldl_keeps _ _ _ fun _ _ => ?_; try dsimp only)
    | split

@[simp] theorem writeShadow_keeps (s : State) (f : FuncId) (q : Nat) : Keeps s (writeShadow s f q) := by
  unfold writeShadow
  try dsimp only
  repeat' first
    | with_reducible exact ⟨rfl, rfl⟩
    | (simp only [Keeps, signalQueue_keeps, putShadow_keeps, ite_stores, ite_expCtr, ite_self, and_self]; done)
    | (refine foldl_keeps _ _ _ fun _ _ => ?_; try dsimp only)
    | split

@[simp] theorem touchShadow_keeps (s : State) (y0 : Src) : Keeps s (touchShadow s y0) := by
  unfold touchShadow
  try dsimp only
  repeat' first
    | with_reducible exact ⟨rfl, rfl⟩
    | (simp only [Keeps, writeShadow_keeps, and_self]; done)
    | (refine foldl_keeps _ _ _ fun _ _ => ?_; try dsimp only)
    | split

@[simp] theorem countReply_keeps (s : State) (f : FuncId) (q : Nat) (irq changed : Bool) (st : Status) : Keeps s (countReply s f q irq changed st) := by
  unfold countReply
  try dsimp only
  repeat' first
    | with_reducible exact ⟨rfl, rfl⟩
    | (simp only [Keeps, State.setQueue_keeps, signalQueue_keeps, ite_stores, ite_expCtr, ite_self, and_self]; done)
    | (refine foldl_keeps _ _ _ fun _ _ => ?_; try dsimp only)
    | split

@[simp] theorem writeReply_keeps (s : State) (src : Src) (sl : Slot) (r : Reply) : Keeps s (writeReply s src sl r) := by
  unfold writeReply
  try dsimp only
  repeat' first
    | with_reducible exact ⟨rfl, rfl⟩
    | (simp only [Keeps, State.modFn_keeps, State.setQueue_keeps, State.modQueue_keeps, sendFrom_keeps, putShadow_keeps, countReply_keeps, ite_stores, ite_expCtr, ite_self, and_self]; done)
    | (refine foldl_keeps _ _ _ fun _ _ => ?_; try dsimp only)
    | split

@[simp] theorem stageReply_keeps (f : FuncId) (q : Nat) (s : State) (sl : Slot) : Keeps s (stageReply f q s sl) := by
  unfold stageReply
  try dsimp only
  repeat' first
    | with_reducible exact ⟨rfl, rfl⟩
    | (simp only [Keeps, State.modQueue_keeps, countReply_keeps, and_self]; done)
    | (refine foldl_keeps _ _ _ fun _ _ => ?_; try dsimp only)
    | split

@[simp] theorem stageFn_keeps (s : State) (f : FuncId) : Keeps s (stageFn s f) := by
  unfold stageFn
  try dsimp only
  repeat' first
    | with_reducible exact ⟨rfl, rfl⟩
    | (simp only [Keeps, stageReply_keeps, foldl_keeps, and_self, implies_true]; done)
    | (refine foldl_keeps _ _ _ fun _ _ => ?_; try dsimp only)
    | split

@[simp] theorem drainFn_keeps (f : FuncId) (n : Nat) (s : State) : Keeps s (drainFn f n s) := by
  induction n generalizing s with
  | zero => exact ⟨rfl, rfl⟩
  | succ n ih =>
    simp only [drainFn]
    repeat' split
    · exact Keeps.trans (writeReply_keeps _ _ _ _) (ih _)
    all_goals exact ⟨rfl, rfl⟩

@[simp] theorem drainBmc_keeps (n : Nat) (s : State) : Keeps s (drainBmc n s) := by
  induction n generalizing s with
  | zero => exact ⟨rfl, rfl⟩
  | succ n ih =>
    simp only [drainBmc]
    repeat' split
    all_goals first
      | exact Keeps.trans (writeReply_keeps _ _ _ _) (ih _)
      | exact ⟨rfl, rfl⟩

@[simp] theorem sendMctp_keeps (s : State) (ep : Endpoint) (b : List Byte) : Keeps s (sendMctp s ep b) := by
  unfold sendMctp
  try dsimp only
  repeat' first
    | with_reducible exact ⟨rfl, rfl⟩
    | (simp only [Keeps, foldl_keeps, ite_stores, ite_expCtr, ite_self, and_self, implies_true]; done)
    | (refine foldl_keeps _ _ _ fun _ _ => ?_; try dsimp only)
    | split

@[simp] theorem resetChannel_keeps (s : State) : Keeps s (resetChannel s) := by
  unfold resetChannel
  try dsimp only
  repeat' first
    | with_reducible exact ⟨rfl, rfl⟩
    | (simp only [Keeps, sendMctp_keeps, ite_stores, ite_expCtr, ite_self, and_self]; done)
    | (refine foldl_keeps _ _ _ fun _ _ => ?_; try dsimp only)
    | split

@[simp] theorem drain_keeps (s : State) (y0 : Src) : Keeps s (drain s y0) := by
  unfold drain
  try dsimp only
  repeat' first
    | with_reducible exact ⟨rfl, rfl⟩
    | (simp only [Keeps, stageFn_keeps, drainFn_keeps, drainBmc_keeps, resetChannel_keeps, ite_stores, ite_expCtr, ite_self, and_self]; done)
    | (refine foldl_keeps _ _ _ fun _ _ => ?_; try dsimp only)
    | split

@[simp] theorem traceEnd_keeps (s : State) (c : Cmd) (st : Status) : Keeps s (traceEnd s c st) := by
  unfold traceEnd
  try dsimp only
  repeat' first
    | with_reducible exact ⟨rfl, rfl⟩
    | (simp only [Keeps, ite_stores, ite_expCtr, ite_self, and_self]; done)
    | (refine foldl_keeps _ _ _ fun _ _ => ?_; try dsimp only)
    | split

@[simp] theorem stopPlot_keeps (s : State) (p : Nat) (by' : Option Nat) : Keeps s (stopPlot s p by') := by
  unfold stopPlot
  try dsimp only
  repeat' first
    | with_reducible exact ⟨rfl, rfl⟩
    | (simp only [Keeps, State.modPlot_keeps, foldl_keeps, ite_stores, ite_expCtr, ite_self, and_self, implies_true]; done)
    | (refine foldl_keeps _ _ _ fun _ _ => ?_; try dsimp only)
    | split

@[simp] theorem undoStop_keeps (s : State) (c : Cmd) : Keeps s (undoStop s c) := by
  unfold undoStop
  try dsimp only
  repeat' first
    | with_reducible exact ⟨rfl, rfl⟩
    | (simp only [Keeps, State.modQueue_keeps, stopPlot_keeps, ite_stores, ite_expCtr, ite_self, and_self]; done)
    | (refine foldl_keeps _ _ _ fun _ _ => ?_; try dsimp only)
    | split

@[simp] theorem finish_keeps (s : State) (c : Cmd) (r : Reply) (halt : Bool) : Keeps s (finish s c r halt) := by
  unfold finish
  try dsimp only
  repeat' first
    | with_reducible exact ⟨rfl, rfl⟩
    | (simp only [Keeps, State.modQueue_keeps, traceEnd_keeps, undoStop_keeps, ite_stores, ite_expCtr, ite_self, and_self]; done)
    | (refine foldl_keeps _ _ _ fun _ _ => ?_; try dsimp only)
    | split

@[simp] theorem skipAfter_keeps (src : Src) (acc : Nat) (l : List Cmd) (s : State) : Keeps s (skipAfter src acc l s) := by
  induction l generalizing s with
  | nil => exact ⟨rfl, rfl⟩
  | cons d l ih =>
    simp only [skipAfter]
    split
    · exact Keeps.trans (finish_keeps _ _ _ _) (ih _)
    · exact ih _

@[simp] theorem haltQueue_keeps (s : State) (src : Src) (acc seq : Nat) : Keeps s (haltQueue s src acc seq) := by
  unfold haltQueue
  try dsimp only
  repeat' first
    | with_reducible exact ⟨rfl, rfl⟩
    | (simp only [Keeps, State.modQueue_keeps, skipAfter_keeps, and_self]; done)
    | (refine foldl_keeps _ _ _ fun _ _ => ?_; try dsimp only)
    | split

@[simp] theorem endCmd_keeps (s : State) (c : Cmd) (r : Reply) : Keeps s (endCmd s c r) := by
  unfold endCmd
  try dsimp only
  repeat' first
    | with_reducible exact ⟨rfl, rfl⟩
    | (simp only [Keeps, drain_keeps, finish_keeps, haltQueue_keeps, ite_stores, ite_expCtr, ite_self, and_self]; done)
    | (refine foldl_keeps _ _ _ fun _ _ => ?_; try dsimp only)
    | split

@[simp] theorem evict_keeps (s : State) (plot : Nat) (hs : List Nat) : Keeps s (evict s plot hs) := by
  unfold evict
  try dsimp only
  repeat' first
    | with_reducible exact ⟨rfl, rfl⟩
    | (simp only [Keeps, State.modPlot_keeps, foldl_keeps, ite_stores, ite_expCtr, ite_self, and_self, implies_true]; done)
    | (refine foldl_keeps _ _ _ fun _ _ => ?_; try dsimp only)
    | split

@[simp] theorem stampFor_keeps (s : State) (c : Cmd) : Keeps s (stampFor s c) := by
  unfold stampFor
  try dsimp only
  repeat' first
    | with_reducible exact ⟨rfl, rfl⟩
    | (simp only [Keeps]; done)
    | (refine foldl_keeps _ _ _ fun _ _ => ?_; try dsimp only)
    | split

@[simp] theorem startMoves_keeps (s : State) (plot : Nat) (also : Option Nat) : Keeps s (startMoves s plot also) := by
  unfold startMoves
  try dsimp only
  repeat' first
    | with_reducible exact ⟨rfl, rfl⟩
    | (simp only [Keeps, State.setPlot_keeps, ite_stores, ite_expCtr, ite_self, and_self]; done)
    | (refine foldl_keeps _ _ _ fun _ _ => ?_; try dsimp only)
    | split

@[simp] theorem zeroEngines_keeps (s : State) (m : Nat) : Keeps s (zeroEngines s m) := by
  unfold zeroEngines
  try dsimp only
  repeat' first
    | with_reducible exact ⟨rfl, rfl⟩
    | (simp only [Keeps, State.modEng_keeps, foldl_keeps, and_self, implies_true]; done)
    | (refine foldl_keeps _ _ _ fun _ _ => ?_; try dsimp only)
    | split

@[simp] theorem plotReset_keeps (s : State) (plot : Nat) : Keeps s (plotReset s plot) := by
  unfold plotReset
  try dsimp only
  repeat' first
    | with_reducible exact ⟨rfl, rfl⟩
    | (simp only [Keeps, State.setPlot_keeps, State.modFn_keeps, zeroEngines_keeps, foldl_keeps, and_self, implies_true]; done)
    | (refine foldl_keeps _ _ _ fun _ _ => ?_; try dsimp only)
    | split

@[simp] theorem State.modHolder_keeps (s : State) (e : Nat) (g : Plot → Plot) : Keeps s (State.modHolder s e g) := by
  unfold State.modHolder
  try dsimp only
  repeat' first
    | with_reducible exact ⟨rfl, rfl⟩
    | (simp only [Keeps]; done)
    | (refine foldl_keeps _ _ _ fun _ _ => ?_; try dsimp only)
    | split

@[simp] theorem applyTrace_keeps (s : State) (plot : Option Nat) (e : Nat) (c : Option Cmd) (tr : Trace) : Keeps s (applyTrace s plot e c tr) := by
  unfold applyTrace
  try dsimp only
  repeat' first
    | with_reducible exact ⟨rfl, rfl⟩
    | (simp only [Keeps, addRecord_keeps, countCorrected_keeps, foldl_keeps, and_self, implies_true]; done)
    | (refine foldl_keeps _ _ _ fun _ _ => ?_; try dsimp only)
    | split

@[simp] theorem drainEngine_keeps (s : State) (e : Nat) (c : Option Cmd) : Keeps s (drainEngine s e c) := by
  unfold drainEngine
  try dsimp only
  repeat' first
    | with_reducible exact ⟨rfl, rfl⟩
    | (simp only [Keeps, State.setEng_keeps, applyTrace_keeps, and_self]; done)
    | (refine foldl_keeps _ _ _ fun _ _ => ?_; try dsimp only)
    | split

@[simp] theorem endOn_keeps (c : Cmd) (s : State) (e : Nat) : Keeps s (endOn c s e) := by
  unfold endOn
  try dsimp only
  repeat' first
    | with_reducible exact ⟨rfl, rfl⟩
    | (simp only [Keeps, State.setEng_keeps, drainEngine_keeps, ite_stores, ite_expCtr, ite_self, and_self]; done)
    | (refine foldl_keeps _ _ _ fun _ _ => ?_; try dsimp only)
    | split

@[simp] theorem endWork_keeps (s : State) (c : Cmd) : Keeps s (endWork s c) := by
  unfold endWork
  try dsimp only
  repeat' first
    | with_reducible exact ⟨rfl, rfl⟩
    | (simp only [Keeps, endOn_keeps, foldl_keeps, and_self, implies_true]; done)
    | (refine foldl_keeps _ _ _ fun _ _ => ?_; try dsimp only)
    | split

theorem takePages_keeps {s t : State} {plot n : Nat} (h : takePages s plot n = .ok t) : OnlyPlots s t := by
  unfold takePages at h
  split at h
  · cases h; exact ⟨_, rfl⟩
  · split at h
    · cases h; exact ⟨_, rfl⟩
    all_goals cases h

theorem ChkKeeps.pages {α : Type} {s : State} {plot n : Nat} {f : State → Chk (State × α)}
    (h : ∀ t, OnlyPlots s t → ChkKeeps s (f t)) : ChkKeeps s (takePages s plot n >>= f) := by
  intro r hr
  cases hx : takePages s plot n with
  | error e => rw [hx] at hr; cases hr
  | ok t => rw [hx] at hr; exact h t (takePages_keeps hx) r hr

theorem askSlots_keeps {s t : State} {plot st acc shadow : Nat} {image : Bool} (h : askSlots s plot st acc shadow image = some t) :
    OnlyPlots s t := by
  unfold askSlots at h
  repeat' first
    | (injection h with h; subst h; exact ⟨_, rfl⟩)
    | (cases h; done)
    | split at h
    | (dsimp only at h; split at h)

theorem askFor_keeps (s : State) (plot : Nat) (c : Cmd) (shadow image : Bool) : ChkKeeps s (askFor s plot c shadow image) := by
  unfold askFor
  split
  · exact .ok (.refl _)
  · dsimp only
    split
    · next h => exact .ok (askSlots_keeps h)
    · exact .error

theorem chkPut_keeps (s : State) (plot : Nat) (p : Plot) (c : Cmd) : ChkKeeps s (chkPut s plot p c) := by
  unfold chkPut
  try dsimp only
  repeat' first
    | refine ChkKeeps.pages fun t ht => ?_
    | refine ChkKeeps.bind fun _ => ?_
    | split
    | exact .ok ⟨_, rfl⟩
    | exact .ok ‹_›
    | exact .error

theorem chkPutWrite_keeps (s : State) (plot : Nat) (p : Plot) (c : Cmd) : ChkKeeps s (chkPutWrite s plot p c) := by
  unfold chkPutWrite
  try dsimp only
  repeat' first
    | refine ChkKeeps.pages fun t ht => ?_
    | refine ChkKeeps.bind fun _ => ?_
    | split
    | exact .ok ⟨_, rfl⟩
    | exact .ok ‹_›
    | exact .error

theorem chkMove_keeps (s : State) (plot : Nat) (p : Plot) (c : Cmd) : ChkKeeps s (chkMove s plot p c) := by
  unfold chkMove
  try dsimp only
  repeat' first
    | refine ChkKeeps.pages fun t ht => ?_
    | refine ChkKeeps.bind fun _ => ?_
    | split
    | exact .ok ⟨_, rfl⟩
    | exact .ok ‹_›
    | exact .error

theorem chkPlanLoad_keeps (s : State) (plot : Nat) (p : Plot) (c : Cmd) : ChkKeeps s (chkPlanLoad s plot p c) := by
  unfold chkPlanLoad
  try dsimp only
  repeat' first
    | refine ChkKeeps.pages fun t ht => ?_
    | refine ChkKeeps.bind fun _ => ?_
    | split
    | exact .ok ⟨_, rfl⟩
    | exact .ok ‹_›
    | exact .error

theorem importChecks_keeps (s : State) (n : Nat) (p : Plot) (c : Cmd) : ChkKeeps s (importChecks s n p c) := by
  unfold importChecks
  repeat' first
    | refine ChkKeeps.pages fun t ht => ?_
    | refine ChkKeeps.bind fun _ => ?_
    | exact .ok ‹_›

theorem ChkKeeps.imports {α : Type} {s : State} {n : Nat} {p : Plot} {c : Cmd} {f : State × Nat → Chk (State × α)}
    (h : ∀ r, OnlyPlots s r.1 → ChkKeeps s (f r)) : ChkKeeps s (importChecks s n p c >>= f) := by
  intro r hr
  cases hx : importChecks s n p c with
  | error e => rw [hx] at hr; cases hr
  | ok t => rw [hx] at hr; exact h t (importChecks_keeps s n p c t hx) r hr

theorem chkOpen_keeps (s : State) (plot : Nat) (p : Plot) (c : Cmd) : ChkKeeps s (chkOpen s plot p c) := by
  unfold chkOpen
  try dsimp only
  repeat' first
    | refine ChkKeeps.pages fun t ht => ?_
    | refine ChkKeeps.bind fun _ => ?_
    | split
    | exact .ok ⟨_, rfl⟩
    | exact .ok ‹_›
    | exact .error

theorem chkExport_keeps (s : State) (plot : Nat) (p : Plot) (c : Cmd) : ChkKeeps s (chkExport s plot p c) := by
  unfold chkExport
  try dsimp only
  repeat' first
    | refine ChkKeeps.pages fun t ht => ?_
    | refine ChkKeeps.bind fun _ => ?_
    | split
    | exact .ok ⟨_, rfl⟩
    | exact .ok ‹_›
    | exact .error

theorem chkDirect_keeps (s : State) (plot : Nat) (p : Plot) (c : Cmd) (limit : Nat) : ChkKeeps s (chkDirect s plot p c limit) := by
  unfold chkDirect
  try dsimp only
  repeat' first
    | refine ChkKeeps.pages fun t ht => ?_
    | refine ChkKeeps.bind fun _ => ?_
    | split
    | exact .ok ⟨_, rfl⟩
    | exact .ok ‹_›
    | exact .error

theorem Chk.only_keeps (s : State) (c : Cmd) (x : Chk Unit) : ChkKeeps s (Chk.only s c x) := by
  cases x with
  | error e => exact .error
  | ok u => exact .ok ⟨_, rfl⟩

theorem finalCheck_keeps (s : State) (plot : Nat) (p : Plot) (c : Cmd) (limit : Nat) :
    ChkKeeps s (finalCheck s plot p c limit) := by
  unfold finalCheck
  try dsimp only
  split
  · exact Chk.only_keeps _ _ _
  · split
    · exact chkPutWrite_keeps _ _ _ _
    · exact chkPut_keeps _ _ _ _
  · exact Chk.only_keeps _ _ _
  · exact Chk.only_keeps _ _ _
  · exact chkMove_keeps _ _ _ _
  · exact Chk.only_keeps _ _ _
  · exact Chk.only_keeps _ _ _
  · exact chkPlanLoad_keeps _ _ _ _
  · exact Chk.only_keeps _ _ _
  · exact Chk.only_keeps _ _ _
  · exact chkOpen_keeps _ _ _ _
  · refine ChkKeeps.bind fun _ => ?_
    split
    · exact .ok ⟨_, rfl⟩
    · exact askFor_keeps _ _ _ _ _
  · refine ChkKeeps.bind fun _ => ?_
    split
    · exact .ok ⟨_, rfl⟩
    · exact askFor_keeps _ _ _ _ _
  · split
    · exact askFor_keeps _ _ _ _ _
    · exact .ok ⟨_, rfl⟩
  · exact chkExport_keeps _ _ _ _
  · split
    · exact .ok ⟨_, rfl⟩
    · exact ChkKeeps.imports fun r hr => .ok hr
  · split
    · exact chkDirect_keeps _ _ _ _ _
    · exact .ok ⟨_, rfl⟩

@[simp] theorem breakChain_keeps (s : State) (src : Src) (r : Reply) : Keeps s (breakChain s src r) := by
  unfold breakChain
  try dsimp only
  repeat' first
    | with_reducible exact ⟨rfl, rfl⟩
    | (simp only [Keeps, State.modQueue_keeps, finish_keeps, and_self]; done)
    | (refine foldl_keeps _ _ _ fun _ _ => ?_; try dsimp only)
    | split

@[simp] theorem ringFault_keeps (s : State) (src : Src) (h : Hdr) (untrusted : Bool) (r : Reply) : Keeps s (ringFault s src h untrusted r) := by
  unfold ringFault
  try dsimp only
  repeat' first
    | with_reducible exact ⟨rfl, rfl⟩
    | (simp only [Keeps, State.modQueue_keeps, touchShadow_keeps, drain_keeps, breakChain_keeps, and_self]; done)
    | (refine foldl_keeps _ _ _ fun _ _ => ?_; try dsimp only)
    | split

@[simp] theorem ringRecord_keeps (s : State) (src : Src) : Keeps s (ringRecord s src) := by
  unfold ringRecord
  try dsimp only
  repeat' first
    | with_reducible exact ⟨rfl, rfl⟩
    | (simp only [Keeps, addRecord_keeps, and_self]; done)
    | (refine foldl_keeps _ _ _ fun _ _ => ?_; try dsimp only)
    | split

@[simp] theorem breakQueue_keeps (s : State) (f : FuncId) (q : Nat) (b : Bool) : Keeps s (breakQueue s f q b) := by
  unfold breakQueue
  cases b <;> simp only [Keeps, breakChain_keeps, signalErr_keeps, ringRecord_keeps, signalQueue_keeps,
    writeShadow_keeps, State.modQueue_keeps, if_true, if_false, Bool.false_eq_true, and_self]

@[simp] theorem sequenceCheck_keeps (s : State) (src : Src) (x : Queue) (bs : List Byte) :
    Keeps s (sequenceCheck s src x bs) := by
  simp only [sequenceCheck]
  split
  · simp only [Keeps, State.setQueue_keeps, and_self]
  · split
    all_goals simp only [Keeps, sequenceCheck.staleAt, drain_keeps, State.setQueue_keeps, ite_stores, ite_expCtr, ite_self,
      and_self]

@[simp] theorem takePacket_keeps (s : State) (src : Src) (x : Queue) (bs : List Byte) : Keeps s (takePacket s src x bs) := by
  simp only [takePacket, Keeps, ringFault_keeps, touchShadow_keeps, sequenceCheck_keeps, State.setQueue_keeps, ite_stores,
    ite_expCtr, ite_self, and_self]

@[simp] theorem countIn_keeps (s : State) (f : FuncId) (n : Nat) : Keeps s (countIn s f n) := by
  unfold countIn
  try dsimp only
  repeat' first
    | with_reducible exact ⟨rfl, rfl⟩
    | (simp only [Keeps, State.modFn_keeps, touchPort_keeps, foldl_keeps, ite_stores, ite_expCtr, ite_self, and_self, implies_true]; done)
    | (refine foldl_keeps _ _ _ fun _ _ => ?_; try dsimp only)
    | split

@[simp] theorem fetchPacket_keeps (f : FuncId) (q : Nat) (rd : RingRead) (s : State) : Keeps s (fetchPacket f q rd s) := by
  simp only [fetchPacket]
  repeat' split
  all_goals simp only [Keeps, takePacket_keeps, ringFault_keeps, ringRecord_keeps, breakQueue_keeps, countIn_keeps,     and_self]

@[simp] theorem noteAccepted_keeps (s : State) (c : Cmd) (known : Bool) : Keeps s (noteAccepted s c known) := by
  unfold noteAccepted
  try dsimp only
  repeat' first
    | with_reducible exact ⟨rfl, rfl⟩
    | (simp only [Keeps, State.modPlot_keeps, stampFor_keeps, ite_stores, ite_expCtr, ite_self, and_self]; done)
    | (refine foldl_keeps _ _ _ fun _ _ => ?_; try dsimp only)
    | split

@[simp] theorem stampDecls_keeps (s : State) (c : Cmd) : Keeps s (stampDecls s c) := by
  unfold stampDecls
  try dsimp only
  repeat' first
    | with_reducible exact ⟨rfl, rfl⟩
    | (simp only [Keeps, ite_stores, ite_expCtr]; done)
    | (refine foldl_keeps _ _ _ fun _ _ => ?_; try dsimp only)
    | split

@[simp] theorem decideAbort_keeps (s : State) (c : Cmd) (w : WinEntry) : Keeps s (decideAbort s c w) := by
  unfold decideAbort
  try dsimp only
  repeat' first
    | with_reducible exact ⟨rfl, rfl⟩
    | (simp only [Keeps, State.modQueue_keeps, endCmd_keeps, endWork_keeps, and_self]; done)
    | (refine foldl_keeps _ _ _ fun _ _ => ?_; try dsimp only)
    | split

@[simp] theorem State.putCmd_keeps (s : State) (c : Cmd) : Keeps s (State.putCmd s c) := by
  unfold State.putCmd
  try dsimp only
  repeat' first
    | with_reducible exact ⟨rfl, rfl⟩
    | (simp only [Keeps, foldl_keeps, ite_stores, ite_expCtr, ite_self, and_self, implies_true]; done)
    | (refine foldl_keeps _ _ _ fun _ _ => ?_; try dsimp only)
    | split

@[simp] theorem abortOpen_keeps (s : State) (src : Src) : Keeps s (abortOpen s src) := by
  unfold abortOpen
  try dsimp only
  repeat' first
    | with_reducible exact ⟨rfl, rfl⟩
    | (simp only [Keeps, endCmd_keeps, ite_stores, ite_expCtr, ite_self, and_self]; done)
    | (refine foldl_keeps _ _ _ fun _ _ => ?_; try dsimp only)
    | split

@[simp] theorem beginDelete_keeps (s : State) (f : FuncId) (q : Nat) : Keeps s (beginDelete s f q) := by
  unfold beginDelete
  try dsimp only
  repeat' first
    | with_reducible exact ⟨rfl, rfl⟩
    | (simp only [Keeps, State.modQueue_keeps, abortOpen_keeps, and_self]; done)
    | (refine foldl_keeps _ _ _ fun _ _ => ?_; try dsimp only)
    | split

@[simp] theorem beginRelease_keeps (s : State) (p acc : Nat) : Keeps s (beginRelease s p acc) := by
  unfold beginRelease
  try dsimp only
  repeat' first
    | with_reducible exact ⟨rfl, rfl⟩
    | (simp only [Keeps, stopPlot_keeps, abortOpen_keeps, foldl_keeps, ite_stores, ite_expCtr, ite_self, and_self, implies_true]; done)
    | (refine foldl_keeps _ _ _ fun _ _ => ?_; try dsimp only)
    | split

@[simp] theorem acceptAdmin_keeps (s : State) (c : Cmd) : Keeps s (acceptAdmin s c) := by
  unfold acceptAdmin
  try dsimp only
  repeat' first
    | with_reducible exact ⟨rfl, rfl⟩
    | (simp only [Keeps, beginDelete_keeps, beginRelease_keeps, and_self]; done)
    | (refine foldl_keeps _ _ _ fun _ _ => ?_; try dsimp only)
    | split

@[simp] theorem completeAccept_keeps (s : State) (c : Cmd) (limit : Nat) : Keeps s (completeAccept s c limit) := by
  unfold completeAccept
  extract_lets t
  have ht : Keeps s t := State.putCmd_keeps ..
  clear_value t
  repeat' split
  all_goals first
    | exact ht
    | exact ht.trans (endCmd_keeps ..)
    | exact ht.trans (decideAbort_keeps ..)
    | exact ht.trans (acceptAdmin_keeps ..)
    | (next h => exact ht.trans (Keeps.trans (finalCheck_keeps _ _ _ _ _ _ h).keeps
        (by simp only [Keeps, startMoves_keeps, stampDecls_keeps, State.putCmd_keeps, and_self])))

theorem acceptNew_keeps {t : State} {s : State} {src : Src} {x : Queue} {bs : List Byte} (h : acceptNew s src x bs = some t) : Keeps s t := by
  unfold acceptNew at h
  repeat' first
    | (injection h with h; subst h; simp only [Keeps, endCmd_keeps, completeAccept_keeps,         State.setQueue_keeps, noteAccepted_keeps, and_self]; done)
    | (cases h; done)
    | split at h
    | (dsimp only at h; split at h)

theorem acceptEnded_keeps {t : State} {s : State} {src : Src} {x : Queue} {ch : Chain} {r : Reply} {bs : List Byte} (h : acceptEnded s src x ch r bs = some t) : Keeps s t := by
  unfold acceptEnded at h
  repeat' first
    | (injection h with h; subst h; simp only [Keeps, drain_keeps, haltQueue_keeps,
        State.setQueue_keeps, ite_stores, ite_expCtr, ite_self, and_self]; done)
    | (cases h; done)
    | split at h
    | (dsimp only at h; split at h)

theorem acceptLater_keeps {t : State} {s : State} {src : Src} {x : Queue} {ch : Chain} {c : Cmd} {bs : List Byte} (h : acceptLater s src x ch c bs = some t) : Keeps s t := by
  unfold acceptLater at h
  repeat' first
    | (injection h with h; subst h; simp only [Keeps, endCmd_keeps, completeAccept_keeps,         State.setQueue_keeps, State.putCmd_keeps, and_self]; done)
    | (cases h; done)
    | split at h
    | (dsimp only at h; split at h)

theorem acceptStaged_keeps {t s : State} {src : Src} {x : Queue} {bs : List Byte} (h : acceptStaged s src x bs = some t) :
    Keeps s t := by
  unfold acceptStaged at h
  repeat' split at h
  · exact acceptNew_keeps h
  · exact acceptEnded_keeps h
  · exact acceptLater_keeps h
  · exact acceptNew_keeps h

@[simp] theorem acceptAt_keeps (s : State) (src : Src) : Keeps s (acceptAt s src) := by
  unfold acceptAt
  repeat' split
  all_goals first
    | exact ⟨rfl, rfl⟩
    | skip
  next x bs h₁ h₂ =>
  cases h : acceptStaged s src _ bs with
  | none => exact ⟨rfl, rfl⟩
  | some t => exact acceptStaged_keeps h

@[simp] theorem answerDuplicates_keeps (s : State) (src : Src) : Keeps s (answerDuplicates s src) := by
  unfold answerDuplicates
  try dsimp only
  repeat' first
    | with_reducible exact ⟨rfl, rfl⟩
    | (simp only [Keeps, State.setQueue_keeps, drain_keeps, and_self]; done)
    | (refine foldl_keeps _ _ _ fun _ _ => ?_; try dsimp only)
    | split

end Sys2Proof.Machine
end

