-- ==== Sys2Proof/Laws/KeepsCommands.lean ====
section
/-!
SUPPORT. `Keeps` (see Laws/Keeps.lean) for the commands of file 13, and what creates and resets queues and functions.
-/

set_option linter.unusedTactic false
set_option linter.unreachableTactic false

namespace Sys2Proof.Machine

@[simp] theorem atTurn_keeps (c : CmdRef) (op : Nat) (s : State) (k : Cmd → State)
    (h : ∀ d, Keeps s (k d)) : Keeps s (atTurn c op s k) := by
  unfold atTurn
  try dsimp only
  repeat' split
  all_goals first
    | exact h _
    | exact ⟨rfl, rfl⟩

@[simp] theorem commitAt_keeps (s : State) (c : Cmd) (k : State)
    (h : Keeps s k) : Keeps s (commitAt s c k) := by
  unfold commitAt
  try dsimp only
  repeat' split
  all_goals first
    | exact h
    | exact ⟨rfl, rfl⟩

@[simp] theorem failCmd_keeps (s : State) (c : Cmd) (r : Reply) : Keeps s (failCmd s c r) := by
  unfold failCmd
  try dsimp only
  repeat' first
    | with_reducible exact ⟨rfl, rfl⟩
    | (simp only [Keeps, endCmd_keeps, and_self]; done)
    | (refine foldl_keeps _ _ _ fun _ _ => ?_; try dsimp only)
    | split

@[simp] theorem wakeEngine_keeps (s : State) (e : Nat) : Keeps s (wakeEngine s e) := by
  unfold wakeEngine
  try dsimp only
  repeat' first
    | with_reducible exact ⟨rfl, rfl⟩
    | (simp only [Keeps, State.setEng_keeps, ite_stores, ite_expCtr, ite_self, and_self]; done)
    | (refine foldl_keeps _ _ _ fun _ _ => ?_; try dsimp only)
    | split

@[simp] theorem abandonSlice_keeps (s : State) (e : Nat) : Keeps s (abandonSlice s e) := by
  unfold abandonSlice
  try dsimp only
  repeat' first
    | with_reducible exact ⟨rfl, rfl⟩
    | (simp only [Keeps, State.setEng_keeps, State.modHolder_keeps, ite_stores, ite_expCtr, ite_self, and_self]; done)
    | (refine foldl_keeps _ _ _ fun _ _ => ?_; try dsimp only)
    | split

@[simp] theorem prepare_keeps (s : State) (es : List Nat) : Keeps s (prepare s es) := by
  unfold prepare
  try dsimp only
  repeat' first
    | with_reducible exact ⟨rfl, rfl⟩
    | (simp only [Keeps, wakeEngine_keeps, abandonSlice_keeps, foldl_keeps, and_self, implies_true]; done)
    | (refine foldl_keeps _ _ _ fun _ _ => ?_; try dsimp only)
    | split

@[simp] theorem onEngines_keeps (s : State) (es : List Nat) (k : State → State)
    (h : ∀ t, Keeps t (k t)) : Keeps s (onEngines s es k) := by
  unfold onEngines
  try dsimp only
  repeat' split
  all_goals first
    | exact Keeps.trans (prepare_keeps _ _) (h _)
    | exact prepare_keeps _ _

@[simp] theorem touchEngine_keeps (s : State) (e : Nat) : Keeps s (touchEngine s e) := by
  unfold touchEngine
  try dsimp only
  repeat' first
    | with_reducible exact ⟨rfl, rfl⟩
    | (simp only [Keeps, State.modEng_keeps, foldl_keeps, ite_stores, ite_expCtr, ite_self, and_self, implies_true]; done)
    | (refine foldl_keeps _ _ _ fun _ _ => ?_; try dsimp only)
    | split

@[simp] theorem countSteps_keeps (s : State) (e n : Nat) : Keeps s (countSteps s e n) := by
  unfold countSteps
  try dsimp only
  repeat' first
    | with_reducible exact ⟨rfl, rfl⟩
    | (simp only [Keeps, State.modEng_keeps, foldl_keeps, ite_stores, ite_expCtr, ite_self, and_self, implies_true]; done)
    | (refine foldl_keeps _ _ _ fun _ _ => ?_; try dsimp only)
    | split

@[simp] theorem runOn_keeps {α : Type} (s : State) (e : Nat) (c : Cmd) (m : OpM α) : Keeps s (runOn s e c m).2.2 := by
  simp only [runOn, Keeps, touchEngine_keeps, applyTrace_keeps, State.setEng_keeps, and_self]

@[simp] theorem failOp_keeps (s : State) (c : Cmd) (e : Nat) (err : OpErr) : Keeps s (failOp s c e err) := by
  unfold failOp
  try dsimp only
  repeat' first
    | with_reducible exact ⟨rfl, rfl⟩
    | (simp only [Keeps, addRecord_keeps, failCmd_keeps, and_self]; done)
    | (refine foldl_keeps _ _ _ fun _ _ => ?_; try dsimp only)
    | split

@[simp] theorem noteTensorWrite_keeps (s : State) (c : Cmd) (h : Nat) (t : Tensor) (off n : Nat) : Keeps s (noteTensorWrite s c h t off n) := by
  unfold noteTensorWrite
  try dsimp only
  repeat' first
    | with_reducible exact ⟨rfl, rfl⟩
    | (simp only [Keeps, addRecord_keeps, countCorrected_keeps, foldl_keeps, and_self, implies_true]; done)
    | (refine foldl_keeps _ _ _ fun _ _ => ?_; try dsimp only)
    | split

@[simp] theorem setTensor_keeps (s : State) (plot h : Nat) (t : Tensor) : Keeps s (setTensor s plot h t) := by
  unfold setTensor
  try dsimp only
  repeat' first
    | with_reducible exact ⟨rfl, rfl⟩
    | (simp only [Keeps, State.modPlot_keeps, foldl_keeps, ite_stores, ite_expCtr, ite_self, and_self, implies_true]; done)
    | (refine foldl_keeps _ _ _ fun _ _ => ?_; try dsimp only)
    | split

@[simp] theorem noteTensorRead_keeps (s : State) (plot h : Nat) (t : Tensor) (off n : Nat) : Keeps s (noteTensorRead s plot h t off n) := by
  unfold noteTensorRead
  try dsimp only
  repeat' first
    | with_reducible exact ⟨rfl, rfl⟩
    | (simp only [Keeps, countCorrected_keeps, setTensor_keeps, foldl_keeps, ite_stores, ite_expCtr, ite_self, and_self, implies_true]; done)
    | (refine foldl_keeps _ _ _ fun _ _ => ?_; try dsimp only)
    | split

@[simp] theorem failHbm_keeps (s : State) (c : Cmd) (h off : Nat) : Keeps s (failHbm s c h off) := by
  unfold failHbm
  try dsimp only
  repeat' first
    | with_reducible exact ⟨rfl, rfl⟩
    | (simp only [Keeps, addRecord_keeps, failCmd_keeps, and_self]; done)
    | (refine foldl_keeps _ _ _ fun _ _ => ?_; try dsimp only)
    | split

@[simp] theorem fillPromised_keeps (s : State) (n h : Nat) : Keeps s (fillPromised s n h) := by
  unfold fillPromised
  try dsimp only
  repeat' first
    | with_reducible exact ⟨rfl, rfl⟩
    | (simp only [Keeps, foldl_keeps, ite_stores, ite_expCtr, ite_self, and_self, implies_true]; done)
    | (refine foldl_keeps _ _ _ fun _ _ => ?_; try dsimp only)
    | split

@[simp] theorem commitPut_keeps (s : State) (n : Nat) (p : Plot) (c : Cmd) : Keeps s (commitPut s n p c) := by
  unfold commitPut
  try dsimp only
  repeat' first
    | with_reducible exact ⟨rfl, rfl⟩
    | (simp only [Keeps, State.setPlot_keeps, endCmd_keeps, fillPromised_keeps, ite_stores, ite_expCtr, ite_self, and_self]; done)
    | (refine foldl_keeps _ _ _ fun _ _ => ?_; try dsimp only)
    | split

@[simp] theorem commitPutWrite_keeps (s : State) (n : Nat) (p : Plot) (c : Cmd) : Keeps s (commitPutWrite s n p c) := by
  unfold commitPutWrite
  try dsimp only
  repeat' first
    | with_reducible exact ⟨rfl, rfl⟩
    | (simp only [Keeps, endCmd_keeps, noteTensorWrite_keeps, setTensor_keeps, ite_stores, ite_expCtr, ite_self, and_self]; done)
    | (refine foldl_keeps _ _ _ fun _ _ => ?_; try dsimp only)
    | split

@[simp] theorem getTensor_keeps (s : State) (n : Nat) (p : Plot) (c : Cmd) : Keeps s (getTensor s n p c) := by
  unfold getTensor
  try dsimp only
  repeat' first
    | with_reducible exact ⟨rfl, rfl⟩
    | (simp only [Keeps, endCmd_keeps, noteTensorRead_keeps, failHbm_keeps, and_self]; done)
    | (refine foldl_keeps _ _ _ fun _ _ => ?_; try dsimp only)
    | (with_reducible refine commitAt_keeps _ _ _ ?_; try dsimp only)
    | split

@[simp] theorem moveLoad_keeps (s : State) (n : Nat) (c : Cmd) (t : Tensor) (e a : Nat) : Keeps s (moveLoad s n c t e a) := by
  unfold moveLoad
  try dsimp only
  repeat' first
    | with_reducible exact ⟨rfl, rfl⟩
    | (simp only [Keeps, endCmd_keeps, runOn_keeps, setTensor_keeps, noteTensorRead_keeps, failHbm_keeps, ite_stores, ite_expCtr, ite_self, and_self]; done)
    | (refine foldl_keeps _ _ _ fun _ _ => ?_; try dsimp only)
    | split

@[simp] theorem moveStore_keeps (s : State) (n : Nat) (c : Cmd) (t : Tensor) (e a : Nat) : Keeps s (moveStore s n c t e a) := by
  unfold moveStore
  try dsimp only
  repeat' first
    | with_reducible exact ⟨rfl, rfl⟩
    | (simp only [Keeps, endCmd_keeps, runOn_keeps, failOp_keeps, setTensor_keeps, and_self]; done)
    | (refine foldl_keeps _ _ _ fun _ _ => ?_; try dsimp only)
    | split

@[simp] theorem moveTensor_keeps (s : State) (n : Nat) (p : Plot) (c : Cmd) : Keeps s (moveTensor s n p c) := by
  unfold moveTensor
  try dsimp only
  repeat' first
    | with_reducible exact ⟨rfl, rfl⟩
    | (simp only [Keeps, endCmd_keeps, failCmd_keeps, moveLoad_keeps, moveStore_keeps, ite_stores, ite_expCtr, ite_self, and_self]; done)
    | (refine foldl_keeps _ _ _ fun _ _ => ?_; try dsimp only)
    | (with_reducible refine commitAt_keeps _ _ _ ?_; try dsimp only)
    | (with_reducible refine onEngines_keeps _ _ _ fun _ => ?_; try dsimp only)
    | split

@[simp] theorem prefetchFirst_keeps (s : State) (x : RunCtx) (tr : Map (List Byte)) : Keeps s (prefetchFirst s x tr) := by
  unfold prefetchFirst
  try dsimp only
  repeat' first
    | with_reducible exact ⟨rfl, rfl⟩
    | (simp only [Keeps, State.modEng_keeps, foldl_keeps, and_self, implies_true]; done)
    | (refine foldl_keeps _ _ _ fun _ _ => ?_; try dsimp only)
    | split

@[simp] theorem leavePart_keeps (s : State) (x : RunCtx) (ok : Bool) (p : PartSt) : Keeps s (leavePart s x ok p) := by
  unfold leavePart
  try dsimp only
  repeat' first
    | with_reducible exact ⟨rfl, rfl⟩
    | (simp only [Keeps, State.modEng_keeps, applyTrace_keeps, touchEngine_keeps, countSteps_keeps, and_self]; done)
    | (refine foldl_keeps _ _ _ fun _ _ => ?_; try dsimp only)
    | split

@[simp] theorem leaveParts_keeps (s : State) (x : RunCtx) (ok : Bool) (ps : List PartSt) : Keeps s (leaveParts s x ok ps) := by
  unfold leaveParts
  try dsimp only
  repeat' first
    | with_reducible exact ⟨rfl, rfl⟩
    | (simp only [Keeps, leavePart_keeps, foldl_keeps, and_self, implies_true]; done)
    | (refine foldl_keeps _ _ _ fun _ _ => ?_; try dsimp only)
    | split

@[simp] theorem failRun_keeps (s : State) (x : RunCtx) (es : EpochSt) (e : RunErr) : Keeps s (failRun s x es e) := by
  unfold failRun
  try dsimp only
  repeat' first
    | with_reducible exact ⟨rfl, rfl⟩
    | (simp only [Keeps, addRecord_keeps, failCmd_keeps, leaveParts_keeps, and_self]; done)
    | (refine foldl_keeps _ _ _ fun _ _ => ?_; try dsimp only)
    | split

@[simp] theorem commitWrites_keeps (s : State) (c : Cmd) (plot : Nat) (ws : List OutWrite) : Keeps s (commitWrites s c plot ws) := by
  unfold commitWrites
  try dsimp only
  repeat' first
    | with_reducible exact ⟨rfl, rfl⟩
    | (simp only [Keeps, noteTensorWrite_keeps, setTensor_keeps, and_self]; done)
    | (refine foldl_keeps _ _ _ fun _ _ => ?_; try dsimp only)
    | split

@[simp] theorem dropPlan_keeps (s : State) (p : Plot) (h : Nat) : Keeps s (dropPlan s p h) := by
  unfold dropPlan
  try dsimp only
  repeat' first
    | with_reducible exact ⟨rfl, rfl⟩
    | (simp only [Keeps, State.modEng_keeps, foldl_keeps, ite_stores, ite_expCtr, ite_self, and_self, implies_true]; done)
    | (refine foldl_keeps _ _ _ fun _ _ => ?_; try dsimp only)
    | split

@[simp] theorem keepFills_keeps (s : State) (n : Nat) (q : Plan) : Keeps s (keepFills s n q) := by
  unfold keepFills
  try dsimp only
  repeat' first
    | with_reducible exact ⟨rfl, rfl⟩
    | (simp only [Keeps, foldl_keeps, ite_stores, ite_expCtr, ite_self, and_self, implies_true]; done)
    | (refine foldl_keeps _ _ _ fun _ _ => ?_; try dsimp only)
    | split

@[simp] theorem notePlanReads_keeps (s : State) (plot h : Nat) (q : Plan) : Keeps s (notePlanReads s plot h q) := by
  unfold notePlanReads
  try dsimp only
  repeat' first
    | with_reducible exact ⟨rfl, rfl⟩
    | (simp only [Keeps, State.modPlot_keeps, countCorrected_keeps, foldl_keeps, ite_stores, ite_expCtr, ite_self, and_self, implies_true]; done)
    | (refine foldl_keeps _ _ _ fun _ _ => ?_; try dsimp only)
    | split

@[simp] theorem noteRunReads_keeps (s : State) (x : RunCtx) (plot : Nat) (ps : List PartSt) : Keeps s (noteRunReads s x plot ps) := by
  unfold noteRunReads
  extract_lets note
  have hn : ∀ u h off n, Keeps u (note u h off n) := by
    intro u h off n
    simp only [note]
    split
    · exact noteTensorRead_keeps ..
    · exact ⟨rfl, rfl⟩
  clear_value note
  refine Keeps.trans (notePlanReads_keeps s plot x.handle x.plan) (foldl_keeps _ _ _ fun t q => ?_)
  refine Keeps.trans (foldl_keeps _ _ _ fun u b => ?_) (foldl_keeps _ _ _ fun u r => hn ..)
  split
  · exact hn ..
  · exact ⟨rfl, rfl⟩

@[simp] theorem planRunOn_keeps (s : State) (plot : Nat) (x : RunCtx) (passes : Nat) : Keeps s (planRunOn s plot x passes) := by
  unfold planRunOn
  try dsimp only
  repeat' first
    | with_reducible exact ⟨rfl, rfl⟩
    | (simp only [Keeps, State.modPlot_keeps, endCmd_keeps, leaveParts_keeps, failRun_keeps, commitWrites_keeps, noteRunReads_keeps, and_self]; done)
    | (refine foldl_keeps _ _ _ fun _ _ => ?_; try dsimp only)
    | split

@[simp] theorem planRun_keeps (s : State) (n : Nat) (p : Plot) (c : Cmd) : Keeps s (planRun s n p c) := by
  unfold planRun
  try dsimp only
  repeat' first
    | with_reducible exact ⟨rfl, rfl⟩
    | (simp only [Keeps, endCmd_keeps, failCmd_keeps, planRunOn_keeps, ite_stores, ite_expCtr, and_self]; done)
    | (refine foldl_keeps _ _ _ fun _ _ => ?_; try dsimp only)
    | (with_reducible refine commitAt_keeps _ _ _ ?_; try dsimp only)
    | (with_reducible refine onEngines_keeps _ _ _ fun _ => ?_; try dsimp only)
    | (with_reducible refine Keeps.trans (prefetchFirst_keeps _ _ _) (onEngines_keeps _ _ _ fun _ => ?_); try dsimp only)
    | split

@[simp] theorem leaveDirect_keeps (s : State) (p : Plot) (c : Cmd) (t : DescTab) (x : PartSt) : Keeps s (leaveDirect s p c t x) := by
  unfold leaveDirect
  try dsimp only
  repeat' first
    | with_reducible exact ⟨rfl, rfl⟩
    | (simp only [Keeps, State.modEng_keeps, applyTrace_keeps, touchEngine_keeps, countSteps_keeps, and_self]; done)
    | (refine foldl_keeps _ _ _ fun _ _ => ?_; try dsimp only)
    | split

@[simp] theorem freeBytes_keeps (s : State) (e : Nat) (spans : List (Int × Nat)) : Keeps s (freeBytes s e spans) := by
  unfold freeBytes
  try dsimp only
  repeat' first
    | with_reducible exact ⟨rfl, rfl⟩
    | (simp only [Keeps, State.modEng_keeps, foldl_keeps, and_self, implies_true]; done)
    | (refine foldl_keeps _ _ _ fun _ _ => ?_; try dsimp only)
    | split

@[simp] theorem spoilDests_keeps (s : State) (c : Cmd) : Keeps s (spoilDests s c) := by
  unfold spoilDests
  try dsimp only
  repeat' first
    | with_reducible exact ⟨rfl, rfl⟩
    | (simp only [Keeps, freeBytes_keeps, and_self]; done)
    | (refine foldl_keeps _ _ _ fun _ _ => ?_; try dsimp only)
    | split

@[simp] theorem failDirect_keeps (s : State) (c : Cmd) (e : Nat) (err : OpErr) : Keeps s (failDirect s c e err) := by
  unfold failDirect
  try dsimp only
  repeat' first
    | with_reducible exact ⟨rfl, rfl⟩
    | (simp only [Keeps, failOp_keeps, spoilDests_keeps, ite_stores, ite_expCtr, ite_self, and_self]; done)
    | (refine foldl_keeps _ _ _ fun _ _ => ?_; try dsimp only)
    | split

theorem finishOk_keeps (s : State) (n : Nat) (p : Plot) (c : Cmd) (t : DescTab) (x : PartSt) (o : DirOut) :
    Keeps s (endDirect.finishOk s n p c t x o) := by
  simp only [endDirect.finishOk]
  split
  all_goals simp only [Keeps, failDirect_keeps, endCmd_keeps, commitWrites_keeps, leaveDirect_keeps, and_self]

@[simp] theorem endDirect_keeps (s : State) (n : Nat) (p : Plot) (c : Cmd) (t : DescTab) (x : PartSt) (o : DirOut) :
    Keeps s (endDirect s n p c t x o) := by
  unfold endDirect
  repeat' split
  all_goals first
    | exact finishOk_keeps ..
    | simp only [Keeps, failCmd_keeps, leaveDirect_keeps, and_self]

@[simp] theorem noteDirReads_keeps (s : State) (n : Nat) (p : Plot) (c : Cmd) : Keeps s (noteDirReads s n p c) := by
  unfold noteDirReads
  extract_lets t
  have ht : Keeps s t := by
    refine foldl_keeps _ _ _ fun u b => ?_
    dsimp only
    split
    all_goals first
      | exact noteTensorRead_keeps ..
      | exact ⟨rfl, rfl⟩
  clear_value t
  repeat' split
  all_goals first
    | exact ht
    | exact ht.trans (noteTensorRead_keeps ..)

@[simp] theorem directRun_keeps (s : State) (n : Nat) (p : Plot) (c : Cmd) (e : Nat) : Keeps s (directRun s n p c e) := by
  unfold directRun
  try dsimp only
  repeat' first
    | with_reducible exact ⟨rfl, rfl⟩
    | (simp only [Keeps, failCmd_keeps, failHbm_keeps, leaveDirect_keeps, failDirect_keeps, endDirect_keeps, noteDirReads_keeps, and_self]; done)
    | (refine foldl_keeps _ _ _ fun _ _ => ?_; try dsimp only)
    | split

@[simp] theorem directAt_keeps (c : CmdRef) (op : Nat) (s : State) : Keeps s (directAt c op s) := by
  unfold directAt
  try dsimp only
  repeat' first
    | with_reducible exact ⟨rfl, rfl⟩
    | (simp only [Keeps, endCmd_keeps, failCmd_keeps, directRun_keeps, ite_stores, ite_expCtr, and_self]; done)
    | (refine foldl_keeps _ _ _ fun _ _ => ?_; try dsimp only)
    | (with_reducible refine atTurn_keeps _ _ _ _ fun _ => ?_; try dsimp only)
    | (with_reducible refine commitAt_keeps _ _ _ ?_; try dsimp only)
    | (with_reducible refine onEngines_keeps _ _ _ fun _ => ?_; try dsimp only)
    | split

@[simp] theorem drainPlot_keeps (s : State) (c : Cmd) : Keeps s (drainPlot s c) := by
  unfold drainPlot
  try dsimp only
  repeat' first
    | with_reducible exact ⟨rfl, rfl⟩
    | (simp only [Keeps, drainEngine_keeps, foldl_keeps, and_self, implies_true]; done)
    | (refine foldl_keeps _ _ _ fun _ _ => ?_; try dsimp only)
    | split

@[simp] theorem streamAt_keeps (c : CmdRef) (op : Nat) (s : State) (k : Cmd → Nat → Plot → State)
    (h : ∀ d n p, Keeps s (k d n p)) : Keeps s (streamAt c op s k) := by
  unfold streamAt
  try dsimp only
  repeat' split
  all_goals first
    | exact atTurn_keeps _ _ _ _ fun d => by
        repeat' split
        all_goals first
          | exact h _ _ _
          | exact ⟨rfl, rfl⟩
          | exact failCmd_keeps ..

@[simp] theorem wrongState_keeps (s : State) (c : Cmd) : Keeps s (wrongState s c) := by
  unfold wrongState
  try dsimp only
  repeat' first
    | with_reducible exact ⟨rfl, rfl⟩
    | (simp only [Keeps, failCmd_keeps, and_self]; done)
    | (refine foldl_keeps _ _ _ fun _ _ => ?_; try dsimp only)
    | (with_reducible refine commitAt_keeps _ _ _ ?_; try dsimp only)
    | split

@[simp] theorem noOp_keeps (s : State) (c : Cmd) : Keeps s (noOp s c) := by
  unfold noOp
  try dsimp only
  repeat' first
    | with_reducible exact ⟨rfl, rfl⟩
    | (simp only [Keeps, endCmd_keeps, and_self]; done)
    | (refine foldl_keeps _ _ _ fun _ _ => ?_; try dsimp only)
    | (with_reducible refine commitAt_keeps _ _ _ ?_; try dsimp only)
    | split

@[simp] theorem setStream_keeps (s : State) (plot st : Nat) (x : Stream) : Keeps s (setStream s plot st x) := by
  unfold setStream
  try dsimp only
  repeat' first
    | with_reducible exact ⟨rfl, rfl⟩
    | (simp only [Keeps, State.modPlot_keeps, foldl_keeps, ite_stores, ite_expCtr, ite_self, and_self, implies_true]; done)
    | (refine foldl_keeps _ _ _ fun _ _ => ?_; try dsimp only)
    | split

@[simp] theorem failImage_keeps (s : State) (c : Cmd) (x : Stream) (off : Nat) : Keeps s (failImage s c x off) := by
  unfold failImage
  try dsimp only
  repeat' first
    | with_reducible exact ⟨rfl, rfl⟩
    | (simp only [Keeps, addRecord_keeps, failCmd_keeps, and_self]; done)
    | (refine foldl_keeps _ _ _ fun _ _ => ?_; try dsimp only)
    | split

@[simp] theorem noteImage_keeps (s : State) (plot st : Nat) (x : Stream) : Keeps s (noteImage s plot st x) := by
  unfold noteImage
  try dsimp only
  repeat' first
    | with_reducible exact ⟨rfl, rfl⟩
    | (simp only [Keeps, countCorrected_keeps, setStream_keeps, foldl_keeps, ite_stores, ite_expCtr, ite_self, and_self, implies_true]; done)
    | (refine foldl_keeps _ _ _ fun _ _ => ?_; try dsimp only)
    | split

theorem askLate_keeps {s t : State} {n : Nat} {c : Cmd} {x : Stream} {b : Bool} (h : askLate s n c x b = some t) : Keeps s t := by
  unfold askLate at h
  extract_lets need at h
  clear_value need
  split at h
  · obtain ⟨u, hu, rfl⟩ := Option.map_eq_some_iff.1 h
    exact (askSlots_keeps hu).keeps.trans (State.putCmd_keeps ..)
  · injection h with h
    subst h
    exact ⟨rfl, rfl⟩

@[simp] theorem withImage_keeps (s : State) (n : Nat) (c : Cmd) (x : Stream) (b : Bool) (k : State → Plot → State)
    (h : ∀ t p, Keeps t (k t p)) : Keeps s (withImage s n c x b k) := by
  unfold withImage
  split
  · exact failCmd_keeps ..
  · next t ht =>
    have hk := askLate_keeps ht
    repeat' split
    all_goals first
      | exact hk
      | exact hk.trans (h _ _)
      | exact hk.trans (startMoves_keeps ..)

theorem morePages_keeps {s t : State} {n : Nat} {c : Cmd} {k : Nat} (h : morePages s n c k = .ok t) : Keeps s t := by
  unfold morePages at h
  split at h
  · cases h
    exact ⟨rfl, rfl⟩
  · split at h
    · next hx =>
      cases h
      exact (takePages_keeps hx).keeps
    · cases h

@[simp] theorem feedOn_keeps (s : State) (plot : Nat) (x : RunCtx) (st : Stream) (flush : Bool) (steps : Nat)
    (fed trs : List Byte) : Keeps s (feedOn s plot x st flush steps fed trs) := by
  simp only [feedOn]
  split
  all_goals simp only [Keeps, failRun_keeps, endCmd_keeps, setStream_keeps, State.modPlot_keeps, commitWrites_keeps,
    leaveParts_keeps, noteRunReads_keeps, noteImage_keeps, and_self]

@[simp] theorem feedReady_keeps (s : State) (n : Nat) (p : Plot) (q : Plan) (c : Cmd) (x : Stream) (flush : Bool) (steps : Nat)
    (fed trs : List Byte) : Keeps s (feedReady s n p q c x flush steps fed trs) := by
  unfold feedReady
  split
  · exact failCmd_keeps ..
  · extract_lets h used ahead
    have ha : Keeps s ahead := by simp only [ahead, Keeps, prefetchFirst_keeps, prepare_keeps, and_self]
    clear_value ahead
    split
    · exact ⟨rfl, rfl⟩
    · refine commitAt_keeps _ _ _ (ha.trans (withImage_keeps _ _ _ _ _ _ fun t p' => ?_))
      repeat' split
      all_goals first
        | exact ⟨rfl, rfl⟩
        | exact failImage_keeps ..
        | exact onEngines_keeps _ _ _ fun _ => feedOn_keeps ..

@[simp] theorem feedAt_keeps (s : State) (c : Cmd) (n : Nat) (p : Plot) (flush : Bool) : Keeps s (feedAt s c n p flush) := by
  unfold feedAt
  try dsimp only
  repeat' first
    | with_reducible exact ⟨rfl, rfl⟩
    | (simp only [Keeps, endCmd_keeps, failCmd_keeps, wrongState_keeps, feedReady_keeps, ite_stores, ite_expCtr, ite_self, and_self]; done)
    | (refine foldl_keeps _ _ _ fun _ _ => ?_; try dsimp only)
    | (with_reducible refine commitAt_keeps _ _ _ ?_; try dsimp only)
    | split

@[simp] theorem clearPause_keeps (s : State) (n : Nat) (c : Cmd) (x : Stream) : Keeps s (clearPause s n c x) := by
  unfold clearPause
  try dsimp only
  repeat' first
    | with_reducible exact ⟨rfl, rfl⟩
    | (simp only [Keeps, endCmd_keeps, setStream_keeps, and_self]; done)
    | (refine foldl_keeps _ _ _ fun _ _ => ?_; try dsimp only)
    | (with_reducible refine commitAt_keeps _ _ _ ?_; try dsimp only)
    | split

@[simp] theorem closeStream_keeps (s : State) (n st : Nat) : Keeps s (closeStream s n st) := by
  unfold closeStream
  try dsimp only
  repeat' first
    | with_reducible exact ⟨rfl, rfl⟩
    | (simp only [Keeps, State.modPlot_keeps, foldl_keeps, ite_stores, ite_expCtr, ite_self, and_self, implies_true]; done)
    | (refine foldl_keeps _ _ _ fun _ _ => ?_; try dsimp only)
    | split

@[simp] theorem exportWaits_keeps (s : State) (c : Cmd) : Keeps s (exportWaits s c) := by
  unfold exportWaits
  try dsimp only
  repeat' first
    | with_reducible exact ⟨rfl, rfl⟩
    | (simp only [Keeps, failCmd_keeps, ite_stores, ite_expCtr, ite_self, and_self]; done)
    | (refine foldl_keeps _ _ _ fun _ _ => ?_; try dsimp only)
    | split

@[simp] theorem importBody_keeps (s : State) (n : Nat) (p : Plot) (c : Cmd) (t : Tensor) (q : Plan) : Keeps s (importBody s n p c t q) := by
  unfold importBody
  try dsimp only
  repeat' first
    | with_reducible exact ⟨rfl, rfl⟩
    | (simp only [Keeps, State.modPlot_keeps, addRecord_keeps, endCmd_keeps, failCmd_keeps, noteTensorRead_keeps, ite_stores, ite_expCtr, and_self]; done)
    | (refine foldl_keeps _ _ _ fun _ _ => ?_; try dsimp only)
    | (with_reducible refine commitAt_keeps _ _ _ ?_; try dsimp only)
    | split

@[simp] theorem importGo_keeps (n : Nat) (c : Cmd) (t : State) : Keeps t (importGo n c t) := by
  unfold importGo
  try dsimp only
  repeat' first
    | with_reducible exact ⟨rfl, rfl⟩
    | (simp only [Keeps, failCmd_keeps, importBody_keeps, and_self]; done)
    | (refine foldl_keeps _ _ _ fun _ _ => ?_; try dsimp only)
    | split

@[simp] theorem moveFailed_keeps (s : State) (plot st : Nat) (x : Stream) : Keeps s (moveFailed s plot st x) := by
  unfold moveFailed
  try dsimp only
  repeat' first
    | with_reducible exact ⟨rfl, rfl⟩
    | (simp only [Keeps, addRecord_keeps, failCmd_keeps, setStream_keeps, and_self]; done)
    | (refine foldl_keeps _ _ _ fun _ _ => ?_; try dsimp only)
    | split

@[simp] theorem moveDone_keeps (s : State) (plot st : Nat) (x : Stream) : Keeps s (moveDone s plot st x) := by
  unfold moveDone
  try dsimp only
  repeat' first
    | with_reducible exact ⟨rfl, rfl⟩
    | (simp only [Keeps, startMoves_keeps, setStream_keeps, noteImage_keeps, and_self]; done)
    | (refine foldl_keeps _ _ _ fun _ _ => ?_; try dsimp only)
    | split

@[simp] theorem retarget_keeps (s : State) (e : Nat) : Keeps s (retarget s e) := by
  unfold retarget
  try dsimp only
  repeat' first
    | with_reducible exact ⟨rfl, rfl⟩
    | (simp only [Keeps, State.setEng_keeps, ite_stores, ite_expCtr, ite_self, and_self]; done)
    | (refine foldl_keeps _ _ _ fun _ _ => ?_; try dsimp only)
    | split

@[simp] theorem retargetAll_keeps (s : State) : Keeps s (retargetAll s) := by
  unfold retargetAll
  try dsimp only
  repeat' first
    | with_reducible exact ⟨rfl, rfl⟩
    | (simp only [Keeps, retarget_keeps, foldl_keeps, and_self, implies_true]; done)
    | (refine foldl_keeps _ _ _ fun _ _ => ?_; try dsimp only)
    | split

@[simp] theorem wakeEvent_keeps (s : State) : Keeps s (wakeEvent s) := by
  unfold wakeEvent
  try dsimp only
  repeat' first
    | with_reducible exact ⟨rfl, rfl⟩
    | (simp only [Keeps, ite_stores, ite_expCtr, ite_self, and_self]; done)
    | (refine foldl_keeps _ _ _ fun _ _ => ?_; try dsimp only)
    | split

@[simp] theorem wakePlot_keeps (s : State) (f : FuncId) : Keeps s (wakePlot s f) := by
  unfold wakePlot
  try dsimp only
  repeat' first
    | with_reducible exact ⟨rfl, rfl⟩
    | (simp only [Keeps, wakeEngine_keeps, foldl_keeps, and_self, implies_true]; done)
    | (refine foldl_keeps _ _ _ fun _ _ => ?_; try dsimp only)
    | split

@[simp] theorem doorbellWake_keeps (s : State) (f : FuncId) : Keeps s (doorbellWake s f) := by
  unfold doorbellWake
  try dsimp only
  repeat' first
    | with_reducible exact ⟨rfl, rfl⟩
    | (simp only [Keeps, wakeEvent_keeps, wakePlot_keeps, ite_stores, ite_expCtr, ite_self, and_self]; done)
    | (refine foldl_keeps _ _ _ fun _ _ => ?_; try dsimp only)
    | split

@[simp] theorem adminAt_keeps (c : CmdRef) (op : Nat) (s : State) (k : Cmd → FuncId → State)
    (h : ∀ d f, Keeps s (k d f)) : Keeps s (adminAt c op s k) := by
  unfold adminAt
  try dsimp only
  repeat' split
  all_goals first
    | exact atTurn_keeps _ _ _ _ fun d => commitAt_keeps _ _ _ (by
        split
        · exact h _ _
        · exact failCmd_keeps ..)

@[simp] theorem createQueue_keeps (s : State) (c : Cmd) (f : FuncId) : Keeps s (createQueue s c f) := by
  unfold createQueue
  try dsimp only
  repeat' first
    | with_reducible exact ⟨rfl, rfl⟩
    | (simp only [Keeps, State.modFn_keeps, endCmd_keeps, failCmd_keeps, ite_stores, ite_expCtr, ite_self, and_self]; done)
    | (refine foldl_keeps _ _ _ fun _ _ => ?_; try dsimp only)
    | split

@[simp] theorem eraseQueue_keeps (s : State) (f : FuncId) (q : Nat) : Keeps s (eraseQueue s f q) := by
  unfold eraseQueue
  try dsimp only
  repeat' first
    | with_reducible exact ⟨rfl, rfl⟩
    | (simp only [Keeps, State.modFn_keeps, foldl_keeps, ite_stores, ite_expCtr, ite_self, and_self, implies_true]; done)
    | (refine foldl_keeps _ _ _ fun _ _ => ?_; try dsimp only)
    | split

@[simp] theorem deleteQueue_keeps (s : State) (c : Cmd) (f : FuncId) : Keeps s (deleteQueue s c f) := by
  unfold deleteQueue
  try dsimp only
  repeat' first
    | with_reducible exact ⟨rfl, rfl⟩
    | (simp only [Keeps, endCmd_keeps, beginDelete_keeps, failCmd_keeps, eraseQueue_keeps, ite_stores, ite_expCtr, ite_self, and_self]; done)
    | (refine foldl_keeps _ _ _ fun _ _ => ?_; try dsimp only)
    | split

@[simp] theorem resumeQueue_keeps (s : State) (src : Src) : Keeps s (resumeQueue s src) := by
  unfold resumeQueue
  try dsimp only
  repeat' first
    | with_reducible exact ⟨rfl, rfl⟩
    | (simp only [Keeps, State.modQueue_keeps, touchShadow_keeps, ite_stores, ite_expCtr, ite_self, and_self]; done)
    | (refine foldl_keeps _ _ _ fun _ _ => ?_; try dsimp only)
    | split

@[simp] theorem resumeAt_keeps (s : State) (c : Cmd) (f : FuncId) : Keeps s (resumeAt s c f) := by
  unfold resumeAt
  try dsimp only
  repeat' first
    | with_reducible exact ⟨rfl, rfl⟩
    | (simp only [Keeps, endCmd_keeps, failCmd_keeps, resumeQueue_keeps, ite_stores, ite_expCtr, ite_self, and_self]; done)
    | (refine foldl_keeps _ _ _ fun _ _ => ?_; try dsimp only)
    | split

@[simp] theorem dropCmd_keeps (s : State) (c : Cmd) : Keeps s (dropCmd s c) := by
  unfold dropCmd
  try dsimp only
  repeat' first
    | with_reducible exact ⟨rfl, rfl⟩
    | (simp only [Keeps, undoStop_keeps, endWork_keeps, spoilDests_keeps, ite_stores, ite_expCtr, ite_self, and_self]; done)
    | (refine foldl_keeps _ _ _ fun _ _ => ?_; try dsimp only)
    | split

@[simp] theorem deleteQueues_keeps (s : State) (f : FuncId) : Keeps s (deleteQueues s f) := by
  unfold deleteQueues
  try dsimp only
  repeat' first
    | with_reducible exact ⟨rfl, rfl⟩
    | (simp only [Keeps, State.modFn_keeps, dropCmd_keeps, foldl_keeps, and_self, implies_true]; done)
    | (refine foldl_keeps _ _ _ fun _ _ => ?_; try dsimp only)
    | split

@[simp] theorem endDoe_keeps (s : State) (f : FuncId) : Keeps s (endDoe s f) := by
  unfold endDoe
  try dsimp only
  repeat' first
    | with_reducible exact ⟨rfl, rfl⟩
    | (simp only [Keeps, foldl_keeps, ite_stores, ite_expCtr, ite_self, and_self, implies_true]; done)
    | (refine foldl_keeps _ _ _ fun _ _ => ?_; try dsimp only)
    | split

@[simp] theorem maybePlotReset_keeps (s : State) (f : FuncId) : Keeps s (maybePlotReset s f) := by
  simp only [maybePlotReset]
  split
  · exact ⟨rfl, rfl⟩
  · split
    · split
      · exact ⟨rfl, rfl⟩
      · simp only [Keeps, retargetAll_keeps, plotReset_keeps, and_self]
    · exact ⟨rfl, rfl⟩

@[simp] theorem functionReset_keeps (s : State) (f : FuncId) : Keeps s (functionReset s f) := by
  unfold functionReset
  try dsimp only
  repeat' first
    | with_reducible exact ⟨rfl, rfl⟩
    | (simp only [Keeps, State.modFn_keeps, deleteQueues_keeps, endDoe_keeps, maybePlotReset_keeps, and_self]; done)
    | (refine foldl_keeps _ _ _ fun _ _ => ?_; try dsimp only)
    | split

@[simp] theorem resetAll_keeps (s : State) (fs : List FuncId) : Keeps s (resetAll s fs) := by
  unfold resetAll
  try dsimp only
  repeat' first
    | with_reducible exact ⟨rfl, rfl⟩
    | (simp only [Keeps, functionReset_keeps, foldl_keeps, and_self, implies_true]; done)
    | (refine foldl_keeps _ _ _ fun _ _ => ?_; try dsimp only)
    | split

@[simp] theorem payShadows_keeps (s : State) (f : FuncId) : Keeps s (payShadows s f) := by
  unfold payShadows
  try dsimp only
  repeat' first
    | with_reducible exact ⟨rfl, rfl⟩
    | (simp only [Keeps, writeShadow_keeps, foldl_keeps, ite_stores, ite_expCtr, ite_self, and_self, implies_true]; done)
    | (refine foldl_keeps _ _ _ fun _ _ => ?_; try dsimp only)
    | split

@[simp] theorem resumeFn_keeps (s : State) (f : FuncId) : Keeps s (resumeFn s f) := by
  unfold resumeFn
  try dsimp only
  repeat' first
    | with_reducible exact ⟨rfl, rfl⟩
    | (simp only [Keeps, flushVecs_keeps, drainFn_keeps, wakeEvent_keeps, payShadows_keeps, ite_stores, ite_expCtr, ite_self, and_self]; done)
    | (refine foldl_keeps _ _ _ fun _ _ => ?_; try dsimp only)
    | split

@[simp] theorem resumeFns_keeps (s : State) : Keeps s (resumeFns s) := by
  unfold resumeFns
  try dsimp only
  repeat' first
    | with_reducible exact ⟨rfl, rfl⟩
    | (simp only [Keeps, resumeFn_keeps, foldl_keeps, and_self, implies_true]; done)
    | (refine foldl_keeps _ _ _ fun _ _ => ?_; try dsimp only)
    | split

end Sys2Proof.Machine
end

