-- ==== Sys2Proof/Laws/KeepsDevice.lean ====
section
/-!
SUPPORT. `Keeps` (see Laws/Keeps.lean) for faults, resets, background work, power, security, registers, engine steps and management.
-/

set_option linter.unusedTactic false
set_option linter.unreachableTactic false

namespace Sys2Proof.Machine

@[simp] theorem reloadFirmware_keeps (s : State) : Keeps s (reloadFirmware s) := by
  unfold reloadFirmware
  try dsimp only
  repeat' first
    | with_reducible exact ⟨rfl, rfl⟩
    | (simp only [Keeps, ite_stores, ite_expCtr]; done)
    | (refine foldl_keeps _ _ _ fun _ _ => ?_; try dsimp only)
    | (with_reducible refine withImage_keeps _ _ _ _ _ _ fun _ _ => ?_; try dsimp only)
    | split

@[simp] theorem setKey_keeps (s : State) (c : Cmd) (f : FuncId) : Keeps s (setKey s c f) := by
  unfold setKey
  try dsimp only
  repeat' first
    | with_reducible exact ⟨rfl, rfl⟩
    | (simp only [Keeps, State.modPlot_keeps, endCmd_keeps, failCmd_keeps, ite_stores, ite_expCtr, and_self]; done)
    | (refine foldl_keeps _ _ _ fun _ _ => ?_; try dsimp only)
    | split

@[simp] theorem clearErrBits_keeps (s : State) (fs : List FuncId) : Keeps s (clearErrBits s fs) := by
  unfold clearErrBits
  try dsimp only
  repeat' first
    | with_reducible exact ⟨rfl, rfl⟩
    | (simp only [Keeps, State.modFn_keeps, foldl_keeps, and_self, implies_true]; done)
    | (refine foldl_keeps _ _ _ fun _ _ => ?_; try dsimp only)
    | split

@[simp] theorem commitConfig_keeps (s : State) (ps : List Byte) : Keeps s (commitConfig s ps) := by
  simp only [commitConfig, Keeps, retargetAll_keeps, clearErrBits_keeps, zeroEngines_keeps, State.setPlot_keeps, and_self]

@[simp] theorem configPlot_keeps (s : State) (c : Cmd) : Keeps s (configPlot s c) := by
  unfold configPlot
  try dsimp only
  repeat' first
    | with_reducible exact ⟨rfl, rfl⟩
    | (simp only [Keeps, endCmd_keeps, failCmd_keeps, commitConfig_keeps, ite_stores, ite_expCtr, ite_self, and_self]; done)
    | (refine foldl_keeps _ _ _ fun _ _ => ?_; try dsimp only)
    | split

@[simp] theorem unbindFn_keeps (s : State) (f : FuncId) : Keeps s (unbindFn s f) := by
  unfold unbindFn
  try dsimp only
  repeat' first
    | with_reducible exact ⟨rfl, rfl⟩
    | (simp only [Keeps, State.modFn_keeps, foldl_keeps, ite_stores, ite_expCtr, ite_self, and_self, implies_true]; done)
    | (refine foldl_keeps _ _ _ fun _ _ => ?_; try dsimp only)
    | split

@[simp] theorem commitRelease_keeps (s : State) (n : Nat) (p : Plot) : Keeps s (commitRelease s n p) := by
  simp only [commitRelease, Keeps, retargetAll_keeps, clearErrBits_keeps, foldl_keeps, unbindFn_keeps, zeroEngines_keeps,
    implies_true, and_self]

@[simp] theorem releasePlot_keeps (s : State) (c : Cmd) : Keeps s (releasePlot s c) := by
  unfold releasePlot
  try dsimp only
  repeat' first
    | with_reducible exact ⟨rfl, rfl⟩
    | (simp only [Keeps, endCmd_keeps, beginRelease_keeps, failCmd_keeps, commitRelease_keeps, ite_stores, ite_expCtr, ite_self, and_self]; done)
    | (refine foldl_keeps _ _ _ fun _ _ => ?_; try dsimp only)
    | split

@[simp] theorem startSlice_keeps (s : State) (e : Nat) (k : SliceKind) : Keeps s (startSlice s e k) := by
  unfold startSlice
  try dsimp only
  repeat' first
    | with_reducible exact ⟨rfl, rfl⟩
    | (simp only [Keeps, State.modEng_keeps, ite_stores, ite_expCtr, ite_self, and_self]; done)
    | (refine foldl_keeps _ _ _ fun _ _ => ?_; try dsimp only)
    | split

@[simp] theorem startDiagnostic_keeps (s : State) (e : Nat) : Keeps s (startDiagnostic s e) := by
  unfold startDiagnostic
  try dsimp only
  repeat' first
    | with_reducible exact ⟨rfl, rfl⟩
    | (simp only [Keeps, startSlice_keeps, ite_stores, ite_expCtr, ite_self, and_self]; done)
    | (refine foldl_keeps _ _ _ fun _ _ => ?_; try dsimp only)
    | split

@[simp] theorem failEngine_keeps (s : State) (e : Nat) : Keeps s (failEngine s e) := by
  unfold failEngine
  try dsimp only
  repeat' first
    | with_reducible exact ⟨rfl, rfl⟩
    | (simp only [Keeps, State.modEng_keeps, addRecord_keeps, ite_stores, ite_expCtr, ite_self, and_self]; done)
    | (refine foldl_keeps _ _ _ fun _ _ => ?_; try dsimp only)
    | split

@[simp] theorem faultCmd_keeps (s : State) (c : Cmd) (st : Status) : Keeps s (faultCmd s c st) := by
  unfold faultCmd
  try dsimp only
  repeat' first
    | with_reducible exact ⟨rfl, rfl⟩
    | (simp only [Keeps, endWork_keeps, failCmd_keeps, spoilDests_keeps, ite_stores, ite_expCtr, ite_self, and_self]; done)
    | (refine foldl_keeps _ _ _ fun _ _ => ?_; try dsimp only)
    | split

@[simp] theorem engineFault_keeps (type e : Nat) (n : CheckNote) (row col : BitVec 8) (c : Option CmdRef) (s : State) : Keeps s (engineFault type e n row col c s) := by
  unfold engineFault
  try dsimp only
  repeat' first
    | with_reducible exact ⟨rfl, rfl⟩
    | (simp only [Keeps, State.modEng_keeps, addRecord_keeps, startDiagnostic_keeps, faultCmd_keeps, ite_stores, ite_expCtr, and_self]; done)
    | (refine foldl_keeps _ _ _ fun _ _ => ?_; try dsimp only)
    | split

@[simp] theorem wordError_keeps (unit loc : Nat) (corrected : Bool) (plot : Option Nat) (hit : Option Cmd) (s : State) : Keeps s (wordError unit loc corrected plot hit s) := by
  unfold wordError
  try dsimp only
  repeat' first
    | with_reducible exact ⟨rfl, rfl⟩
    | (simp only [Keeps, addRecord_keeps, countCorrected_keeps, faultCmd_keeps, ite_stores, ite_expCtr, and_self]; done)
    | (refine foldl_keeps _ _ _ fun _ _ => ?_; try dsimp only)
    | split

@[simp] theorem moverFault_keeps (type : Nat) (c : Option CmdRef) (s : State) : Keeps s (moverFault type c s) := by
  unfold moverFault
  try dsimp only
  repeat' first
    | with_reducible exact ⟨rfl, rfl⟩
    | (simp only [Keeps, addRecord_keeps, faultCmd_keeps, ite_stores, ite_expCtr, and_self]; done)
    | (refine foldl_keeps _ _ _ fun _ _ => ?_; try dsimp only)
    | split

@[simp] theorem lodgeCopyFails_keeps (r : Nat) (b : Bool) (s : State) : Keeps s (lodgeCopyFails r b s) := by
  unfold lodgeCopyFails
  repeat' first
    | with_reducible exact ⟨rfl, rfl⟩
    | exact enterFatal_keeps _ _
    | split

@[simp] theorem datapathFault_keeps (e : Nat) (u : EUnit) (k : CheckKind) (row col : BitVec 8) (v : CheckedValue) (pass : Nat) (c : Option CmdRef) (s : State) : Keeps s (datapathFault e u k row col v pass c s) := by
  unfold datapathFault
  try dsimp only
  repeat' first
    | with_reducible exact ⟨rfl, rfl⟩
    | (simp only [Keeps, enterFatal_keeps, engineFault_keeps, wordError_keeps, moverFault_keeps, lodgeCopyFails_keeps, ite_stores, ite_expCtr, ite_self, and_self]; done)
    | (refine foldl_keeps _ _ _ fun _ _ => ?_; try dsimp only)
    | split

@[simp] theorem routeLost_keeps (a b : Nat) (s : State) : Keeps s (routeLost a b s) := by
  unfold routeLost
  try dsimp only
  repeat' first
    | with_reducible exact ⟨rfl, rfl⟩
    | (simp only [Keeps, addRecord_keeps, enterFatal_keeps, ite_stores, ite_expCtr, ite_self, and_self]; done)
    | (refine foldl_keeps _ _ _ fun _ _ => ?_; try dsimp only)
    | split

@[simp] theorem startRestart_keeps (cause : RestartCause) (s : State) : Keeps s (startRestart cause s) := by
  unfold startRestart
  try dsimp only
  repeat' first
    | with_reducible exact ⟨rfl, rfl⟩
    | (simp only [Keeps, enterFatal_keeps, ite_stores, ite_expCtr, ite_self, and_self]; done)
    | (refine foldl_keeps _ _ _ fun _ _ => ?_; try dsimp only)
    | split

@[simp] theorem ghLockstep_keeps (pair : Nat) (s : State) : Keeps s (ghLockstep pair s) := by
  unfold ghLockstep
  try dsimp only
  repeat' first
    | with_reducible exact ⟨rfl, rfl⟩
    | (simp only [Keeps, startRestart_keeps, ite_stores, ite_expCtr, ite_self, and_self]; done)
    | (refine foldl_keeps _ _ _ fun _ _ => ?_; try dsimp only)
    | split

@[simp] theorem restartOne_keeps (s0 t : State) (c : Cmd) : Keeps t (restartOne s0 t c) := by
  simp only [restartOne, Keeps, finish_keeps, spoilDests_keeps, ite_stores, ite_expCtr, ite_self, and_self]

@[simp] theorem restartHalt_keeps (s0 t : State) (c : Cmd) : Keeps t (restartHalt s0 t c) := by
  simp only [restartHalt, Keeps, State.modQueue_keeps, ite_stores, ite_expCtr, ite_self, and_self]

@[simp] theorem retirePairs_keeps (s : State) (failed : List (Fin 4)) : Keeps s (retirePairs s failed) := by
  unfold retirePairs
  try dsimp only
  repeat' first
    | with_reducible exact ⟨rfl, rfl⟩
    | (simp only [Keeps, State.setPair_keeps, foldl_keeps, and_self, implies_true]; done)
    | (refine foldl_keeps _ _ _ fun _ _ => ?_; try dsimp only)
    | split

@[simp] theorem drainAll_keeps (s : State) : Keeps s (drainAll s) := by
  unfold drainAll
  try dsimp only
  repeat' first
    | with_reducible exact ⟨rfl, rfl⟩
    | (simp only [Keeps, drain_keeps, resumeFns_keeps, and_self]; done)
    | (refine foldl_keeps _ _ _ fun _ _ => ?_; try dsimp only)
    | split

@[simp] theorem finishRestart_keeps (cause : RestartCause) (failed : List (Fin 4)) (s : State) :
    Keeps s (finishRestart cause failed s) := by
  simp only [finishRestart]
  split
  all_goals simp only [Keeps, enterFatal_keeps, retirePairs_keeps, reloadFirmware_keeps, addRecord_keeps, drainAll_keeps,
    foldl_keeps, restartOne_keeps, restartHalt_keeps, touchShadow_keeps, drain_keeps, ite_stores, ite_expCtr, ite_self,
    implies_true, and_self]

@[simp] theorem latentFound_keeps (pair : Nat) (s : State) : Keeps s (latentFound pair s) := by
  unfold latentFound
  try dsimp only
  repeat' first
    | with_reducible exact ⟨rfl, rfl⟩
    | (simp only [Keeps, addRecord_keeps, startRestart_keeps, ite_stores, ite_expCtr, ite_self, and_self]; done)
    | (refine foldl_keeps _ _ _ fun _ _ => ?_; try dsimp only)
    | split

@[simp] theorem fullStateCompare_keeps (pair : Nat) (differs : Bool) (s : State) : Keeps s (fullStateCompare pair differs s) := by
  unfold fullStateCompare
  try dsimp only
  repeat' first
    | with_reducible exact ⟨rfl, rfl⟩
    | (simp only [Keeps, State.setPair_keeps, latentFound_keeps, ite_stores, ite_expCtr, ite_self, and_self]; done)
    | (refine foldl_keeps _ _ _ fun _ _ => ?_; try dsimp only)
    | split

@[simp] theorem latentTick_keeps (s : State) : Keeps s (latentTick s) := by
  unfold latentTick
  try dsimp only
  repeat' first
    | with_reducible exact ⟨rfl, rfl⟩
    | (simp only [Keeps, startRestart_keeps, ite_stores, ite_expCtr, ite_self, and_self]; done)
    | (refine foldl_keeps _ _ _ fun _ _ => ?_; try dsimp only)
    | split

@[simp] theorem endUser_keeps (type e : Nat) (s : State) (c : Cmd) : Keeps s (endUser type e s c) := by
  unfold endUser
  try dsimp only
  repeat' first
    | with_reducible exact ⟨rfl, rfl⟩
    | (simp only [Keeps, addRecord_keeps, faultCmd_keeps, ite_stores, ite_expCtr, ite_self, and_self]; done)
    | (refine foldl_keeps _ _ _ fun _ _ => ?_; try dsimp only)
    | split

@[simp] theorem engineHit_keeps (type e : Nat) (restored : Bool) (s : State) : Keeps s (engineHit type e restored s) := by
  unfold engineHit
  try dsimp only
  repeat' first
    | with_reducible exact ⟨rfl, rfl⟩
    | (simp only [Keeps, startDiagnostic_keeps, failEngine_keeps, endUser_keeps, foldl_keeps, ite_stores, ite_expCtr, ite_self, and_self, implies_true]; done)
    | (refine foldl_keeps _ _ _ fun _ _ => ?_; try dsimp only)
    | split

@[simp] theorem engineError_keeps (type unit e : Nat) (restored : Bool) (s : State) : Keeps s (engineError type unit e restored s) := by
  unfold engineError
  try dsimp only
  repeat' first
    | with_reducible exact ⟨rfl, rfl⟩
    | (simp only [Keeps, addRecord_keeps, engineHit_keeps, and_self]; done)
    | (refine foldl_keeps _ _ _ fun _ _ => ?_; try dsimp only)
    | split

@[simp] theorem resetPort_keeps (s : State) (port : Fin 4) : Keeps s (resetPort s port) := by
  unfold resetPort
  try dsimp only
  repeat' first
    | with_reducible exact ⟨rfl, rfl⟩
    | (simp only [Keeps, resetAll_keeps, and_self]; done)
    | (refine foldl_keeps _ _ _ fun _ _ => ?_; try dsimp only)
    | split

@[simp] theorem linkDown_keeps (s : State) (port : Fin 4) : Keeps s (linkDown s port) := by
  unfold linkDown
  try dsimp only
  repeat' first
    | with_reducible exact ⟨rfl, rfl⟩
    | (simp only [Keeps, State.setPort_keeps, resetPort_keeps, ite_stores, ite_expCtr, ite_self, and_self]; done)
    | (refine foldl_keeps _ _ _ fun _ _ => ?_; try dsimp only)
    | split

@[simp] theorem clockError_keeps (c : ClockId) (s : State) : Keeps s (clockError c s) := by
  unfold clockError
  try dsimp only
  repeat' first
    | with_reducible exact ⟨rfl, rfl⟩
    | (simp only [Keeps, State.setStack_keeps, addRecord_keeps, snapshot_keeps, enterFatal_keeps, engineError_keeps, linkDown_keeps, ite_stores, ite_expCtr, ite_self, and_self]; done)
    | (refine foldl_keeps _ _ _ fun _ _ => ?_; try dsimp only)
    | split

@[simp] theorem hbmRelockDone_keeps (i : Nat) (ok : Bool) (s : State) : Keeps s (hbmRelockDone i ok s) := by
  unfold hbmRelockDone
  try dsimp only
  repeat' first
    | with_reducible exact ⟨rfl, rfl⟩
    | (simp only [Keeps, State.setStack_keeps, enterFatal_keeps, ite_stores, ite_expCtr, ite_self, and_self]; done)
    | (refine foldl_keeps _ _ _ fun _ _ => ?_; try dsimp only)
    | split

@[simp] theorem railRecord_keeps (s : State) : Keeps s (railRecord s) := by
  unfold railRecord
  try dsimp only
  repeat' first
    | with_reducible exact ⟨rfl, rfl⟩
    | (simp only [Keeps, addRecord_keeps, and_self]; done)
    | (refine foldl_keeps _ _ _ fun _ _ => ?_; try dsimp only)
    | split

@[simp] theorem railError_keeps (r : RailId) (s : State) : Keeps s (railError r s) := by
  simp only [railError]
  repeat' split
  all_goals simp only [Keeps, enterFatal_keeps, railRecord_keeps, engineError_keeps, engineHit_keeps, foldl_keeps, linkDown_keeps, ite_stores,
    ite_expCtr, ite_self, implies_true, and_self]

@[simp] theorem configReady_keeps (s : State) : Keeps s (configReady s) := by
  unfold configReady
  repeat' split
  all_goals exact ⟨rfl, rfl⟩

@[simp] theorem hbmTrainingDone_keeps (i : Nat) (ok : Bool) (s : State) : Keeps s (hbmTrainingDone i ok s) := by
  unfold hbmTrainingDone
  try dsimp only
  repeat' first
    | with_reducible exact ⟨rfl, rfl⟩
    | (simp only [Keeps, State.setStack_keeps, enterFatal_keeps, ite_stores, ite_expCtr, ite_self, and_self]; done)
    | (refine foldl_keeps _ _ _ fun _ _ => ?_; try dsimp only)
    | split

@[simp] theorem startEngine_keeps (now : Nat) (s : State) (e : Nat) : Keeps s (startEngine now s e) := by
  unfold startEngine
  try dsimp only
  repeat' first
    | with_reducible exact ⟨rfl, rfl⟩
    | (simp only [Keeps, State.setEng_keeps, foldl_keeps, ite_stores, ite_expCtr, ite_self, and_self, implies_true]; done)
    | (refine foldl_keeps _ _ _ fun _ _ => ?_; try dsimp only)
    | split

@[simp] theorem dropLinks_keeps (s : State) : Keeps s (dropLinks s) := foldl_keeps _ _ _ fun _ _ => linkDown_keeps ..

@[simp] theorem flr_keeps (f : FuncId) (s : State) : Keeps s (flr f s) := by
  unfold flr
  try dsimp only
  repeat' first
    | with_reducible exact ⟨rfl, rfl⟩
    | (simp only [Keeps, State.modFn_keeps, resetAll_keeps, and_self]; done)
    | (refine foldl_keeps _ _ _ fun _ _ => ?_; try dsimp only)
    | split

@[simp] theorem portReset_keeps (port : Fin 4) (k : PortResetKind) (s : State) : Keeps s (portReset port k s) := by
  unfold portReset
  try dsimp only
  repeat' first
    | with_reducible exact ⟨rfl, rfl⟩
    | (simp only [Keeps, State.setPort_keeps, resetPort_keeps, and_self]; done)
    | (refine foldl_keeps _ _ _ fun _ _ => ?_; try dsimp only)
    | split

@[simp] theorem vfRemoval_keeps (port : Fin 4) (numVfs : Nat) (enable : Bool) (s : State) : Keeps s (vfRemoval port numVfs enable s) := by
  unfold vfRemoval
  try dsimp only
  repeat' first
    | with_reducible exact ⟨rfl, rfl⟩
    | (simp only [Keeps, State.modFn_keeps, resetAll_keeps, and_self]; done)
    | (refine foldl_keeps _ _ _ fun _ _ => ?_; try dsimp only)
    | split

@[simp] theorem configWrite_keeps (f : FuncId) (fld : CfgField) (v : Nat) (s : State) : Keeps s (configWrite f fld v s) := by
  unfold configWrite
  try dsimp only
  repeat' first
    | with_reducible exact ⟨rfl, rfl⟩
    | (simp only [Keeps, State.modFn_keeps, resetAll_keeps, resumeFn_keeps, ite_stores, ite_expCtr, ite_self, and_self]; done)
    | (refine foldl_keeps _ _ _ fun _ _ => ?_; try dsimp only)
    | split

@[simp] theorem scrubGranule_keeps (e : Nat) (s : State) (g : Nat × GState) : Keeps s (scrubGranule e s g) := by
  unfold scrubGranule
  try dsimp only
  repeat' first
    | with_reducible exact ⟨rfl, rfl⟩
    | (simp only [Keeps, State.modEng_keeps, addRecord_keeps, countCorrected_keeps, and_self]; done)
    | (refine foldl_keeps _ _ _ fun _ _ => ?_; try dsimp only)
    | split

@[simp] theorem scrubRange_keeps (s : State) (e lo hi : Nat) : Keeps s (scrubRange s e lo hi) := by
  unfold scrubRange
  try dsimp only
  repeat' first
    | with_reducible exact ⟨rfl, rfl⟩
    | (simp only [Keeps, scrubGranule_keeps, foldl_keeps, and_self, implies_true]; done)
    | (refine foldl_keeps _ _ _ fun _ _ => ?_; try dsimp only)
    | split

@[simp] theorem scrubAccess_keeps (e bank : Nat) (upset : List (Nat × GState)) (s : State) : Keeps s (scrubAccess e bank upset s) := by
  unfold scrubAccess
  try dsimp only
  repeat' first
    | with_reducible exact ⟨rfl, rfl⟩
    | (simp only [Keeps, State.modEng_keeps, scrubRange_keeps, ite_stores, ite_expCtr, ite_self, and_self]; done)
    | (refine foldl_keeps _ _ _ fun _ _ => ?_; try dsimp only)
    | split

@[simp] theorem spSweep_keeps (e : Nat) (s : State) : Keeps s (spSweep e s) := by
  unfold spSweep
  try dsimp only
  repeat' first
    | with_reducible exact ⟨rfl, rfl⟩
    | (simp only [Keeps, State.modEng_keeps, scrubRange_keeps, ite_stores, ite_expCtr, ite_self, and_self]; done)
    | (refine foldl_keeps _ _ _ fun _ _ => ?_; try dsimp only)
    | split

@[simp] theorem notePatrol_keeps (plot code unit : Nat) (hbm : Bool) (addr : Nat → Nat) (s : State) (m : Map GState) : Keeps s (notePatrol plot code unit hbm addr s m) := by
  unfold notePatrol
  try dsimp only
  repeat' first
    | with_reducible exact ⟨rfl, rfl⟩
    | (simp only [Keeps, addRecord_keeps, countCorrected_keeps, and_self]; done)
    | (refine foldl_keeps _ _ _ fun _ _ => ?_; try dsimp only)
    | split

@[simp] theorem patrolStream_keeps (glass : Bool) (plot : Nat) (s : State) (st : Nat × Stream) : Keeps s (patrolStream glass plot s st) := by
  unfold patrolStream
  try dsimp only
  repeat' first
    | with_reducible exact ⟨rfl, rfl⟩
    | (simp only [Keeps, setStream_keeps, notePatrol_keeps, ite_stores, ite_expCtr, ite_self, and_self]; done)
    | (refine foldl_keeps _ _ _ fun _ _ => ?_; try dsimp only)
    | split

@[simp] theorem patrolTensor_keeps (plot : Nat) (s : State) (t : Nat × Tensor) : Keeps s (patrolTensor plot s t) := by
  unfold patrolTensor
  try dsimp only
  repeat' first
    | with_reducible exact ⟨rfl, rfl⟩
    | (simp only [Keeps, setTensor_keeps, notePatrol_keeps, and_self]; done)
    | (refine foldl_keeps _ _ _ fun _ _ => ?_; try dsimp only)
    | split

@[simp] theorem patrolPlan_keeps (plot : Nat) (s : State) (q : Nat × Plan) : Keeps s (patrolPlan plot s q) := by
  unfold patrolPlan
  try dsimp only
  repeat' first
    | with_reducible exact ⟨rfl, rfl⟩
    | (simp only [Keeps, State.modPlot_keeps, notePatrol_keeps, and_self]; done)
    | (refine foldl_keeps _ _ _ fun _ _ => ?_; try dsimp only)
    | split

@[simp] theorem noteFree_keeps (code : Nat) (s : State) (st : GState) : Keeps s (noteFree code s st) := by
  unfold noteFree
  try dsimp only
  repeat' first
    | with_reducible exact ⟨rfl, rfl⟩
    | (simp only [Keeps, addRecord_keeps, and_self]; done)
    | (refine foldl_keeps _ _ _ fun _ _ => ?_; try dsimp only)
    | split

@[simp] theorem upsetImage_keeps (glass : Bool) (s : State) (plot : Nat) (f : Found) : Keeps s (upsetImage glass s plot f) := by
  unfold upsetImage
  try dsimp only
  repeat' first
    | with_reducible exact ⟨rfl, rfl⟩
    | (simp only [Keeps, State.modPlot_keeps, foldl_keeps, ite_stores, ite_expCtr, ite_self, and_self, implies_true]; done)
    | (refine foldl_keeps _ _ _ fun _ _ => ?_; try dsimp only)
    | split

@[simp] theorem upsetGlass_keeps (s : State) (f : Found) : Keeps s (upsetGlass s f) := by
  unfold upsetGlass
  try dsimp only
  repeat' first
    | with_reducible exact ⟨rfl, rfl⟩
    | (simp only [Keeps, noteFree_keeps, and_self]; done)
    | (refine foldl_keeps _ _ _ fun _ _ => ?_; try dsimp only)
    | split

@[simp] theorem upsetHbm_keeps (s : State) (f : Found) : Keeps s (upsetHbm s f) := by
  unfold upsetHbm
  try dsimp only
  repeat' first
    | with_reducible exact ⟨rfl, rfl⟩
    | (simp only [Keeps, State.setPlot_keeps, setTensor_keeps, noteFree_keeps, ite_stores, ite_expCtr, ite_self, and_self]; done)
    | (refine foldl_keeps _ _ _ fun _ _ => ?_; try dsimp only)
    | split

@[simp] theorem ghSweep_keeps (found : List Found) (s : State) : Keeps s (ghSweep found s) := by
  unfold ghSweep
  try dsimp only
  repeat' first
    | with_reducible exact ⟨rfl, rfl⟩
    | (simp only [Keeps, patrolStream_keeps, upsetGlass_keeps, foldl_keeps, ite_stores, ite_expCtr, ite_self, and_self, implies_true]; done)
    | (refine foldl_keeps _ _ _ fun _ _ => ?_; try dsimp only)
    | split

@[simp] theorem hbmSweep_keeps (found : List Found) (behind : Bool) (s : State) : Keeps s (hbmSweep found behind s) := by
  unfold hbmSweep
  try dsimp only
  repeat' first
    | with_reducible exact ⟨rfl, rfl⟩
    | (simp only [Keeps, patrolStream_keeps, patrolTensor_keeps, patrolPlan_keeps, upsetHbm_keeps, foldl_keeps, ite_stores, ite_expCtr, ite_self, and_self, implies_true]; done)
    | (refine foldl_keeps _ _ _ fun _ _ => ?_; try dsimp only)
    | split

@[simp] theorem lodgeSweep_keeps (s : State) : Keeps s (lodgeSweep s) := by
  unfold lodgeSweep
  try dsimp only
  repeat' first
    | with_reducible exact ⟨rfl, rfl⟩
    | (simp only [Keeps, ite_stores, ite_expCtr, ite_self, and_self]; done)
    | (refine foldl_keeps _ _ _ fun _ _ => ?_; try dsimp only)
    | split

@[simp] theorem opportunisticSlice_keeps (e : Nat) (s : State) : Keeps s (opportunisticSlice e s) := by
  unfold opportunisticSlice
  try dsimp only
  repeat' first
    | with_reducible exact ⟨rfl, rfl⟩
    | (simp only [Keeps, startSlice_keeps, ite_stores, ite_expCtr, ite_self, and_self]; done)
    | (refine foldl_keeps _ _ _ fun _ _ => ?_; try dsimp only)
    | split

@[simp] theorem forcedSliceDue_keeps (e : Nat) (s : State) : Keeps s (forcedSliceDue e s) := by
  unfold forcedSliceDue
  try dsimp only
  repeat' first
    | with_reducible exact ⟨rfl, rfl⟩
    | (simp only [Keeps, State.setEng_keeps, ite_stores, ite_expCtr, ite_self, and_self]; done)
    | (refine foldl_keeps _ _ _ fun _ _ => ?_; try dsimp only)
    | split

@[simp] theorem forcedSliceStart_keeps (e : Nat) (s : State) : Keeps s (forcedSliceStart e s) := by
  unfold forcedSliceStart
  try dsimp only
  repeat' first
    | with_reducible exact ⟨rfl, rfl⟩
    | (simp only [Keeps, abandonSlice_keeps, startSlice_keeps, ite_stores, ite_expCtr, ite_self, and_self]; done)
    | (refine foldl_keeps _ _ _ fun _ _ => ?_; try dsimp only)
    | split

@[simp] theorem countSlice_keeps (s : State) (e : Nat) (forced pass : Bool) : Keeps s (countSlice s e forced pass) := by
  unfold countSlice
  try dsimp only
  repeat' first
    | with_reducible exact ⟨rfl, rfl⟩
    | (simp only [Keeps, State.modHolder_keeps, and_self]; done)
    | (refine foldl_keeps _ _ _ fun _ _ => ?_; try dsimp only)
    | split

@[simp] theorem sliceComplete_keeps (e : Nat) (pass : Bool) (s : State) : Keeps s (sliceComplete e pass s) := by
  unfold sliceComplete
  try dsimp only
  repeat' first
    | with_reducible exact ⟨rfl, rfl⟩
    | (simp only [Keeps, State.modEng_keeps, failEngine_keeps, countSlice_keeps, ite_stores, ite_expCtr, ite_self, and_self]; done)
    | (refine foldl_keeps _ _ _ fun _ _ => ?_; try dsimp only)
    | split

@[simp] theorem calibrate_keeps (i ch : Nat) (valid : Bool) (s : State) : Keeps s (calibrate i ch valid s) := by
  unfold calibrate
  try dsimp only
  repeat' first
    | with_reducible exact ⟨rfl, rfl⟩
    | (simp only [Keeps, State.setStack_keeps, ite_stores, ite_expCtr, ite_self, and_self]; done)
    | (refine foldl_keeps _ _ _ fun _ _ => ?_; try dsimp only)
    | split

@[simp] theorem engineWakeDone_keeps (e : Nat) (s : State) : Keeps s (engineWakeDone e s) := by
  unfold engineWakeDone
  try dsimp only
  repeat' first
    | with_reducible exact ⟨rfl, rfl⟩
    | (simp only [Keeps, State.modEng_keeps, ite_stores, ite_expCtr, ite_self, and_self]; done)
    | (refine foldl_keeps _ _ _ fun _ _ => ?_; try dsimp only)
    | split

@[simp] theorem eclkRelockDone_keeps (e : Nat) (s : State) : Keeps s (eclkRelockDone e s) := by
  unfold eclkRelockDone
  try dsimp only
  repeat' first
    | with_reducible exact ⟨rfl, rfl⟩
    | (simp only [Keeps, State.modEng_keeps, ite_stores, ite_expCtr, ite_self, and_self]; done)
    | (refine foldl_keeps _ _ _ fun _ _ => ?_; try dsimp only)
    | split

@[simp] theorem releaseHalts_keeps (s : State) : Keeps s (releaseHalts s) := by
  unfold releaseHalts
  try dsimp only
  repeat' first
    | with_reducible exact ⟨rfl, rfl⟩
    | (simp only [Keeps, foldl_keeps, ite_stores, ite_expCtr, ite_self, and_self, implies_true]; done)
    | (refine foldl_keeps _ _ _ fun _ _ => ?_; try dsimp only)
    | split

@[simp] theorem endInvasive_keeps (s : State) : Keeps s (endInvasive s) := by
  unfold endInvasive
  try dsimp only
  repeat' first
    | with_reducible exact ⟨rfl, rfl⟩
    | (simp only [Keeps, releaseHalts_keeps, ite_stores, ite_expCtr, ite_self, and_self]; done)
    | (refine foldl_keeps _ _ _ fun _ _ => ?_; try dsimp only)
    | split

@[simp] theorem enterP2_keeps (s : State) : Keeps s (enterP2 s) := by
  unfold enterP2
  try dsimp only
  repeat' first
    | with_reducible exact ⟨rfl, rfl⟩
    | (simp only [Keeps, snapshot_keeps, abandonSlice_keeps, endInvasive_keeps, foldl_keeps, and_self, implies_true]; done)
    | (refine foldl_keeps _ _ _ fun _ _ => ?_; try dsimp only)
    | split

@[simp] theorem resumeKeeper_keeps (s : State) : Keeps s (resumeKeeper s) := by
  unfold resumeKeeper
  try dsimp only
  repeat' first
    | with_reducible exact ⟨rfl, rfl⟩
    | (simp only [Keeps, foldl_keeps, ite_stores, ite_expCtr, ite_self, and_self, implies_true]; done)
    | (refine foldl_keeps _ _ _ fun _ _ => ?_; try dsimp only)
    | split

@[simp] theorem fclkStart_keeps (s : State) : Keeps s (fclkStart s) := by
  unfold fclkStart
  try dsimp only
  repeat' first
    | with_reducible exact ⟨rfl, rfl⟩
    | (simp only [Keeps, resumeFns_keeps, reloadFirmware_keeps, resumeKeeper_keeps, ite_stores, ite_expCtr, ite_self, and_self]; done)
    | (refine foldl_keeps _ _ _ fun _ _ => ?_; try dsimp only)
    | split

@[simp] theorem hbmReady_keeps (s : State) : Keeps s (hbmReady s) := by
  unfold hbmReady
  try dsimp only
  repeat' first
    | with_reducible exact ⟨rfl, rfl⟩
    | (simp only [Keeps, ite_stores, ite_expCtr, ite_self, and_self]; done)
    | (refine foldl_keeps _ _ _ fun _ _ => ?_; try dsimp only)
    | split

@[simp] theorem limitPeriod_keeps (power temp : Nat) (s : State) : Keeps s (limitPeriod power temp s) := by
  unfold limitPeriod
  try dsimp only
  repeat' first
    | with_reducible exact ⟨rfl, rfl⟩
    | (simp only [Keeps, retargetAll_keeps, ite_stores, ite_expCtr, ite_self, and_self]; done)
    | (refine foldl_keeps _ _ _ fun _ _ => ?_; try dsimp only)
    | split

@[simp] theorem setDie_keeps (s : State) (temp : Nat) : Keeps s (setDie s temp) := by
  unfold setDie
  try dsimp only
  repeat' first
    | with_reducible exact ⟨rfl, rfl⟩
    | (simp only [Keeps, foldl_keeps, ite_stores, ite_expCtr, ite_self, and_self, implies_true]; done)
    | (refine foldl_keeps _ _ _ fun _ _ => ?_; try dsimp only)
    | split

@[simp] theorem countRetries_keeps (s : State) : Keeps s (countRetries s) := by
  unfold countRetries
  try dsimp only
  repeat' first
    | with_reducible exact ⟨rfl, rfl⟩
    | (simp only [Keeps, foldl_keeps, ite_stores, ite_expCtr, ite_self, and_self, implies_true]; done)
    | (refine foldl_keeps _ _ _ fun _ _ => ?_; try dsimp only)
    | split

@[simp] theorem refresh_keeps (s : State) : Keeps s (refresh s) := by
  unfold refresh
  try dsimp only
  repeat' first
    | with_reducible exact ⟨rfl, rfl⟩
    | (simp only [Keeps, snapshot_keeps, countRetries_keeps, foldl_keeps, ite_stores, ite_expCtr, ite_self, and_self, implies_true]; done)
    | (refine foldl_keeps _ _ _ fun _ _ => ?_; try dsimp only)
    | split

@[simp] theorem tick_keeps (s : State) : Keeps s (tick s) := by
  unfold tick
  try dsimp only
  repeat' first
    | with_reducible exact ⟨rfl, rfl⟩
    | (simp only [Keeps, latentTick_keeps, and_self]; done)
    | (refine foldl_keeps _ _ _ fun _ _ => ?_; try dsimp only)
    | split

@[simp] theorem secAnswer_keeps (s : State) (ep : Endpoint) (op result : Nat) (more : List Byte) : Keeps s (secAnswer s ep op result more) := by
  unfold secAnswer
  try dsimp only
  repeat' first
    | with_reducible exact ⟨rfl, rfl⟩
    | (simp only [Keeps, sendMctp_keeps, foldl_keeps, ite_stores, ite_expCtr, ite_self, and_self, implies_true]; done)
    | (refine foldl_keeps _ _ _ fun _ _ => ?_; try dsimp only)
    | split

@[simp] theorem accepted_keeps (s : State) (ep : Endpoint) (op : Nat) : Keeps s (accepted s ep op) := by
  unfold accepted
  try dsimp only
  repeat' first
    | with_reducible exact ⟨rfl, rfl⟩
    | (simp only [Keeps, secAnswer_keeps, foldl_keeps, ite_stores, ite_expCtr, ite_self, and_self, implies_true]; done)
    | (refine foldl_keeps _ _ _ fun _ _ => ?_; try dsimp only)
    | split

@[simp] theorem refused_keeps (s : State) (ep : Endpoint) (op : Nat) : Keeps s (refused s ep op) := by
  unfold refused
  try dsimp only
  repeat' first
    | with_reducible exact ⟨rfl, rfl⟩
    | (simp only [Keeps, secAnswer_keeps, foldl_keeps, ite_stores, ite_expCtr, ite_self, and_self, implies_true]; done)
    | (refine foldl_keeps _ _ _ fun _ _ => ?_; try dsimp only)
    | split

@[simp] theorem secAt_keeps (s : State) (ep : Endpoint) (op : Nat) (k : State → State)
    (h : Keeps s (k s)) : Keeps s (secAt s ep op k) := by
  unfold secAt
  try dsimp only
  repeat' split
  all_goals first
    | exact h
    | exact ⟨rfl, rfl⟩
    | exact secAnswer_keeps ..

@[simp] theorem awakeAt_keeps (s : State) (r : SecReq) (k : State → State)
    (h : Keeps s (k s)) : Keeps s (awakeAt s r k) := by
  unfold awakeAt
  split
  · exact h
  · exact ⟨(wakeEvent_keeps s).1, (wakeEvent_keeps s).2⟩

@[simp] theorem burnFailed_keeps (s : State) : Keeps s (burnFailed s) := by
  unfold burnFailed
  try dsimp only
  repeat' first
    | with_reducible exact ⟨rfl, rfl⟩
    | (simp only [Keeps, addRecord_keeps, and_self]; done)
    | (refine foldl_keeps _ _ _ fun _ _ => ?_; try dsimp only)
    | split

@[simp] theorem makeNonce_keeps (s : State) : Keeps s (makeNonce s) := by
  unfold makeNonce
  try dsimp only
  repeat' first
    | with_reducible exact ⟨rfl, rfl⟩
    | (simp only [Keeps, foldl_keeps, ite_stores, ite_expCtr, ite_self, and_self, implies_true]; done)
    | (refine foldl_keeps _ _ _ fun _ _ => ?_; try dsimp only)
    | split

@[simp] theorem present_keeps (s : State) (path : Option Endpoint) (op : Nat) (t : List Byte) : Keeps s (present s path op t).1 := by
  unfold present
  try dsimp only
  repeat' first
    | with_reducible exact ⟨rfl, rfl⟩
    | (simp only [Keeps, foldl_keeps, ite_stores, ite_expCtr, ite_self, and_self, implies_true]; done)
    | (refine foldl_keeps _ _ _ fun _ _ => ?_; try dsimp only)
    | split

@[simp] theorem openInvasive_keeps (s : State) : Keeps s (openInvasive s) := by
  unfold openInvasive
  try dsimp only
  repeat' first
    | with_reducible exact ⟨rfl, rfl⟩
    | (simp only [Keeps, foldl_keeps, ite_stores, ite_expCtr, ite_self, and_self, implies_true]; done)
    | (refine foldl_keeps _ _ _ fun _ _ => ?_; try dsimp only)
    | split

@[simp] theorem closeDebug_keeps (s : State) : Keeps s (closeDebug s) := by
  unfold closeDebug
  try dsimp only
  repeat' first
    | with_reducible exact ⟨rfl, rfl⟩
    | (simp only [Keeps, startRestart_keeps, endInvasive_keeps, ite_stores, ite_expCtr, ite_self, and_self]; done)
    | (refine foldl_keeps _ _ _ fun _ _ => ?_; try dsimp only)
    | split

@[simp] theorem eraseFn_keeps (s : State) (f : FuncId) : Keeps s (eraseFn s f) := by
  unfold eraseFn
  try dsimp only
  repeat' first
    | with_reducible exact ⟨rfl, rfl⟩
    | (simp only [Keeps, State.modFn_keeps, deleteQueues_keeps, and_self]; done)
    | (refine foldl_keeps _ _ _ fun _ _ => ?_; try dsimp only)
    | split

@[simp] theorem startErase_keeps (a : AfterErase) (s : State) : Keeps s (startErase a s) := by
  simp only [startErase, Keeps, retargetAll_keeps, foldl_keeps, clearErrBits_keeps, eraseFn_keeps, implies_true, and_self]

@[simp] theorem answerEp_keeps (s : State) (ep : Option Endpoint) (op : Nat) : Keeps s (answerEp s ep op) := by
  unfold answerEp
  try dsimp only
  repeat' first
    | with_reducible exact ⟨rfl, rfl⟩
    | (simp only [Keeps]; done)
    | (refine foldl_keeps _ _ _ fun _ _ => ?_; try dsimp only)
    | split

@[simp] theorem refuseEp_keeps (s : State) (ep : Option Endpoint) (op : Nat) : Keeps s (refuseEp s ep op) := by
  unfold refuseEp
  try dsimp only
  repeat' first
    | with_reducible exact ⟨rfl, rfl⟩
    | (simp only [Keeps]; done)
    | (refine foldl_keeps _ _ _ fun _ _ => ?_; try dsimp only)
    | split

@[simp] theorem retireStart_keeps (ep : Endpoint) (tok : List Byte) (b : Burn) (s : State) : Keeps s (retireStart ep tok b s) := by
  simp only [retireStart]
  split
  all_goals simp only [Keeps, startErase_keeps, refused_keeps, present_keeps, and_self]

@[simp] theorem openObserve_keeps (s : State) : Keeps s (openObserve s) := ⟨rfl, rfl⟩

@[simp] theorem observeNow_keeps (ep : Endpoint) (tok : List Byte) (s : State) : Keeps s (observeNow ep tok s) := by
  simp only [observeNow]
  repeat' split
  all_goals simp only [Keeps, accepted_keeps, openObserve_keeps, refused_keeps, present_keeps, and_self]

@[simp] theorem invade_keeps (s : State) (ep : Option Endpoint) : Keeps s (invade s ep) := by
  unfold invade
  try dsimp only
  repeat' first
    | with_reducible exact ⟨rfl, rfl⟩
    | (simp only [Keeps, openInvasive_keeps, startErase_keeps, answerEp_keeps, ite_stores, ite_expCtr, ite_self, and_self]; done)
    | (refine foldl_keeps _ _ _ fun _ _ => ?_; try dsimp only)
    | split

@[simp] theorem invasiveNow_keeps (ep : Endpoint) (tok : List Byte) (s : State) : Keeps s (invasiveNow ep tok s) := by
  simp only [invasiveNow]
  split
  all_goals simp only [Keeps, invade_keeps, refused_keeps, present_keeps, and_self]

@[simp] theorem dbgAuth_keeps (tok : List Byte) (b : Burn) (s : State) : Keeps s (dbgAuth tok b s) := by
  simp only [dbgAuth]
  repeat' split
  all_goals simp only [Keeps, invade_keeps, openObserve_keeps, startErase_keeps, present_keeps, and_self]

@[simp] theorem countDb_keeps (s : State) (f : FuncId) : Keeps s (countDb s f) := by
  unfold countDb
  try dsimp only
  repeat' first
    | with_reducible exact ⟨rfl, rfl⟩
    | (simp only [Keeps, State.modFn_keeps, foldl_keeps, ite_stores, ite_expCtr, ite_self, and_self, implies_true]; done)
    | (refine foldl_keeps _ _ _ fun _ _ => ?_; try dsimp only)
    | split

@[simp] theorem badDoorbell_keeps (s : State) (f : FuncId) (q : Nat) : Keeps s (badDoorbell s f q) := by
  unfold badDoorbell
  try dsimp only
  repeat' first
    | with_reducible exact ⟨rfl, rfl⟩
    | (simp only [Keeps, State.modQueue_keeps, signalErr_keeps, and_self]; done)
    | (refine foldl_keeps _ _ _ fun _ _ => ?_; try dsimp only)
    | split

@[simp] theorem writeTail_keeps (s : State) (f : FuncId) (q : Nat) (x : Queue) (t : Nat) : Keeps s (writeTail s f q x t) := by
  unfold writeTail
  try dsimp only
  repeat' first
    | with_reducible exact ⟨rfl, rfl⟩
    | (simp only [Keeps, State.setQueue_keeps, doorbellWake_keeps, badDoorbell_keeps, ite_stores, ite_expCtr, ite_self, and_self]; done)
    | (refine foldl_keeps _ _ _ fun _ _ => ?_; try dsimp only)
    | split

@[simp] theorem writeHead_keeps (s : State) (f : FuncId) (q : Nat) (x : Queue) (t : Nat) : Keeps s (writeHead s f q x t) := by
  unfold writeHead
  try dsimp only
  repeat' first
    | with_reducible exact ⟨rfl, rfl⟩
    | (simp only [Keeps, State.setQueue_keeps, drain_keeps, doorbellWake_keeps, badDoorbell_keeps, ite_stores, ite_expCtr, ite_self, and_self]; done)
    | (refine foldl_keeps _ _ _ fun _ _ => ?_; try dsimp only)
    | split

@[simp] theorem bar2Write_keeps (s : State) (f : FuncId) (off size v : Nat) : Keeps s (bar2Write s f off size v) := by
  unfold bar2Write
  try dsimp only
  repeat' first
    | with_reducible exact ⟨rfl, rfl⟩
    | (simp only [Keeps, writeTail_keeps, writeHead_keeps, ite_stores, ite_expCtr, ite_self, and_self]; done)
    | (refine foldl_keeps _ _ _ fun _ _ => ?_; try dsimp only)
    | split

@[simp] theorem countReg_keeps (s : State) (f : FuncId) : Keeps s (countReg s f) := by
  unfold countReg
  try dsimp only
  repeat' first
    | with_reducible exact ⟨rfl, rfl⟩
    | (simp only [Keeps, State.modFn_keeps, foldl_keeps, ite_stores, ite_expCtr, ite_self, and_self, implies_true]; done)
    | (refine foldl_keeps _ _ _ fun _ _ => ?_; try dsimp only)
    | split

@[simp] theorem adminDisable_keeps (s : State) (f : FuncId) : Keeps s (adminDisable s f) := by
  unfold adminDisable
  try dsimp only
  repeat' first
    | with_reducible exact ⟨rfl, rfl⟩
    | (simp only [Keeps, State.modFn_keeps, deleteQueues_keeps, and_self]; done)
    | (refine foldl_keeps _ _ _ fun _ _ => ?_; try dsimp only)
    | split

@[simp] theorem adminResume_keeps (s : State) (f : FuncId) : Keeps s (adminResume s f) := by
  unfold adminResume
  try dsimp only
  repeat' first
    | with_reducible exact ⟨rfl, rfl⟩
    | (simp only [Keeps, resumeQueue_keeps, ite_stores, ite_expCtr, ite_self, and_self]; done)
    | (refine foldl_keeps _ _ _ fun _ _ => ?_; try dsimp only)
    | split

@[simp] theorem adminEnable_keeps (s : State) (f : FuncId) (v : Nat) : Keeps s (adminEnable s f v) := by
  unfold adminEnable
  try dsimp only
  repeat' first
    | with_reducible exact ⟨rfl, rfl⟩
    | (simp only [Keeps, State.modFn_keeps, adminDisable_keeps, ite_stores, ite_expCtr, ite_self, and_self]; done)
    | (refine foldl_keeps _ _ _ fun _ _ => ?_; try dsimp only)
    | split

@[simp] theorem adminCtl_keeps (s : State) (f : FuncId) (mask v : Nat) : Keeps s (adminCtl s f mask v) := by
  unfold adminCtl
  try dsimp only
  repeat' first
    | with_reducible exact ⟨rfl, rfl⟩
    | (simp only [Keeps, State.modFn_keeps, countReg_keeps, adminResume_keeps, adminEnable_keeps, ite_stores, ite_expCtr, ite_self, and_self]; done)
    | (refine foldl_keeps _ _ _ fun _ _ => ?_; try dsimp only)
    | split

@[simp] theorem adminRegWrite_keeps (s : State) (f : FuncId) (i mask v : Nat) : Keeps s (adminRegWrite s f i mask v) := by
  unfold adminRegWrite
  try dsimp only
  repeat' first
    | with_reducible exact ⟨rfl, rfl⟩
    | (simp only [Keeps, State.setFn_keeps, countReg_keeps, adminCtl_keeps, ite_stores, ite_expCtr, ite_self, and_self]; done)
    | (refine foldl_keeps _ _ _ fun _ _ => ?_; try dsimp only)
    | split

@[simp] theorem qStateWrite_keeps (s : State) (f : FuncId) (q mask v : Nat) : Keeps s (qStateWrite s f q mask v) := by
  unfold qStateWrite
  try dsimp only
  repeat' first
    | with_reducible exact ⟨rfl, rfl⟩
    | (simp only [Keeps, State.modQueue_keeps, ite_stores, ite_expCtr, ite_self, and_self]; done)
    | (refine foldl_keeps _ _ _ fun _ _ => ?_; try dsimp only)
    | split

@[simp] theorem errStatusWrite_keeps (s : State) (f : FuncId) (mask v : Nat) : Keeps s (errStatusWrite s f mask v) := by
  unfold errStatusWrite
  try dsimp only
  repeat' first
    | with_reducible exact ⟨rfl, rfl⟩
    | (simp only [Keeps, State.modFn_keeps, foldl_keeps, ite_stores, ite_expCtr, ite_self, and_self, implies_true]; done)
    | (refine foldl_keeps _ _ _ fun _ _ => ?_; try dsimp only)
    | split

@[simp] theorem devStatusWrite_keeps (s : State) (mask v : Nat) : Keeps s (devStatusWrite s mask v) := by
  unfold devStatusWrite
  try dsimp only
  repeat' first
    | with_reducible exact ⟨rfl, rfl⟩
    | (simp only [Keeps, foldl_keeps, ite_stores, ite_expCtr, ite_self, and_self, implies_true]; done)
    | (refine foldl_keeps _ _ _ fun _ _ => ?_; try dsimp only)
    | split

@[simp] theorem errPop_keeps (s : State) (f : FuncId) (mask v : Nat) : Keeps s (errPop s f mask v) := by
  unfold errPop
  try dsimp only
  repeat' first
    | with_reducible exact ⟨rfl, rfl⟩
    | (simp only [Keeps, ite_stores, ite_expCtr]; done)
    | (refine foldl_keeps _ _ _ fun _ _ => ?_; try dsimp only)
    | split

@[simp] theorem devPop_keeps (s : State) (mask v : Nat) : Keeps s (devPop s mask v) := by
  unfold devPop
  try dsimp only
  repeat' first
    | with_reducible exact ⟨rfl, rfl⟩
    | (simp only [Keeps, ite_stores, ite_expCtr, ite_self, and_self]; done)
    | (refine foldl_keeps _ _ _ fun _ _ => ?_; try dsimp only)
    | split

@[simp] theorem stopSlice_keeps (s : State) (e : Nat) : Keeps s (stopSlice s e) := by
  unfold stopSlice
  try dsimp only
  repeat' first
    | with_reducible exact ⟨rfl, rfl⟩
    | (simp only [Keeps, State.modEng_keeps, abandonSlice_keeps, and_self]; done)
    | (refine foldl_keeps _ _ _ fun _ _ => ?_; try dsimp only)
    | split

@[simp] theorem keeperBit_keeps (old new : Nat) (s : State) (bit : Nat) : Keeps s (keeperBit old new s bit) := by
  unfold keeperBit
  repeat' split
  all_goals first
    | exact foldl_keeps _ _ _ fun _ _ => stopSlice_keeps ..
    | exact ⟨rfl, rfl⟩

@[simp] theorem setKeeperCtl_keeps (s : State) (v : Nat) : Keeps s (setKeeperCtl s v) := by
  unfold setKeeperCtl
  try dsimp only
  repeat' first
    | with_reducible exact ⟨rfl, rfl⟩
    | (simp only [Keeps, keeperBit_keeps, foldl_keeps, and_self, implies_true]; done)
    | (refine foldl_keeps _ _ _ fun _ _ => ?_; try dsimp only)
    | split

@[simp] theorem wakeFromP2_keeps (s : State) : Keeps s (wakeFromP2 s) := by
  unfold wakeFromP2
  try dsimp only
  repeat' first
    | with_reducible exact ⟨rfl, rfl⟩
    | (simp only [Keeps, wakeEvent_keeps, ite_stores, ite_expCtr, ite_self, and_self]; done)
    | (refine foldl_keeps _ _ _ fun _ _ => ?_; try dsimp only)
    | split

@[simp] theorem pwrCtlWrite_keeps (s : State) (mask v : Nat) : Keeps s (pwrCtlWrite s mask v) := by
  unfold pwrCtlWrite
  try dsimp only
  repeat' first
    | with_reducible exact ⟨rfl, rfl⟩
    | (simp only [Keeps, wakeFromP2_keeps, ite_stores, ite_expCtr, ite_self, and_self]; done)
    | (refine foldl_keeps _ _ _ fun _ _ => ?_; try dsimp only)
    | split

@[simp] theorem eclkWrite_keeps (s : State) (f : FuncId) (mask v : Nat) : Keeps s (eclkWrite s f mask v) := by
  unfold eclkWrite
  try dsimp only
  repeat' first
    | with_reducible exact ⟨rfl, rfl⟩
    | (simp only [Keeps, State.setPlot_keeps, retargetAll_keeps, ite_stores, ite_expCtr, ite_self, and_self]; done)
    | (refine foldl_keeps _ _ _ fun _ _ => ?_; try dsimp only)
    | split

@[simp] theorem obsEnterBit_keeps (s : State) : Keeps s (obsEnterBit s) := by
  unfold obsEnterBit
  try dsimp only
  repeat' first
    | with_reducible exact ⟨rfl, rfl⟩
    | (simp only [Keeps, ite_stores, ite_expCtr]; done)
    | (refine foldl_keeps _ _ _ fun _ _ => ?_; try dsimp only)
    | split

@[simp] theorem secCtlWrite_keeps (s : State) (mask v : Nat) : Keeps s (secCtlWrite s mask v) := by
  unfold secCtlWrite
  try dsimp only
  repeat' first
    | with_reducible exact ⟨rfl, rfl⟩
    | (simp only [Keeps, makeNonce_keeps, closeDebug_keeps, obsEnterBit_keeps, ite_stores, ite_expCtr, ite_self, and_self]; done)
    | (refine foldl_keeps _ _ _ fun _ _ => ?_; try dsimp only)
    | split

@[simp] theorem setVec_keeps (s : State) (f : FuncId) (v : Nat) (e : MsixEntry) : Keeps s (setVec s f v e) := by
  unfold setVec
  try dsimp only
  repeat' first
    | with_reducible exact ⟨rfl, rfl⟩
    | (simp only [Keeps, State.modFn_keeps, flushVec_keeps, and_self]; done)
    | (refine foldl_keeps _ _ _ fun _ _ => ?_; try dsimp only)
    | split

@[simp] theorem bar4Write_keeps (s : State) (f : FuncId) (off size v : Nat) : Keeps s (bar4Write s f off size v) := by
  unfold bar4Write
  try dsimp only
  repeat' first
    | with_reducible exact ⟨rfl, rfl⟩
    | (simp only [Keeps, setVec_keeps, ite_stores, ite_expCtr, ite_self, and_self]; done)
    | (refine foldl_keeps _ _ _ fun _ _ => ?_; try dsimp only)
    | split

@[simp] theorem served_keeps (s : State) (f : FuncId) (k : State → State) (h : ∀ t, Keeps t (k t)) : Keeps s (served s f k) := by
  unfold served
  split
  · exact (touchPort_keeps ..).trans (h _)
  · exact ⟨rfl, rfl⟩

@[simp] theorem atWork_keeps (s : State) (e : Nat) : Keeps s (atWork s e) := by
  unfold atWork
  try dsimp only
  repeat' first
    | with_reducible exact ⟨rfl, rfl⟩
    | (simp only [Keeps, State.modEng_keeps, abandonSlice_keeps, and_self]; done)
    | (refine foldl_keeps _ _ _ fun _ _ => ?_; try dsimp only)
    | split

@[simp] theorem progress_keeps (s : State) (e : Nat) (mine : Nat → Bool) : Keeps s (progress s e mine) := by
  unfold progress
  try dsimp only
  repeat' first
    | with_reducible exact ⟨rfl, rfl⟩
    | (simp only [Keeps, State.modEng_keeps, atWork_keeps, and_self]; done)
    | (refine foldl_keeps _ _ _ fun _ _ => ?_; try dsimp only)
    | split

@[simp] theorem wfuIssue_keeps (e : Nat) (s : State) : Keeps s (wfuIssue e s) := by
  unfold wfuIssue
  try dsimp only
  repeat' first
    | with_reducible exact ⟨rfl, rfl⟩
    | (simp only [Keeps, State.modEng_keeps, atWork_keeps, ite_stores, ite_expCtr, ite_self, and_self]; done)
    | (refine foldl_keeps _ _ _ fun _ _ => ?_; try dsimp only)
    | split

@[simp] theorem noteEntry_keeps (s : State) (plot : Option Nat) (p : PfEntry) : Keeps s (noteEntry s plot p) := by
  unfold noteEntry
  try dsimp only
  repeat' first
    | with_reducible exact ⟨rfl, rfl⟩
    | (simp only [Keeps, noteTensorRead_keeps, and_self]; done)
    | (refine foldl_keeps _ _ _ fun _ _ => ?_; try dsimp only)
    | split

@[simp] theorem wfuComplete_keeps (e i : Nat) (s : State) : Keeps s (wfuComplete e i s) := by
  unfold wfuComplete
  try dsimp only
  repeat' first
    | with_reducible exact ⟨rfl, rfl⟩
    | (simp only [Keeps, State.setEng_keeps, applyTrace_keeps, progress_keeps, noteEntry_keeps, ite_stores, ite_expCtr, ite_self, and_self]; done)
    | (refine foldl_keeps _ _ _ fun _ _ => ?_; try dsimp only)
    | split

@[simp] theorem failWork_keeps (s : State) (e : Nat) (c : Option Cmd) (err : OpErr) : Keeps s (failWork s e c err) := by
  unfold failWork
  try dsimp only
  repeat' first
    | with_reducible exact ⟨rfl, rfl⟩
    | (simp only [Keeps, addRecord_keeps, endWork_keeps, failOp_keeps, failDirect_keeps, ite_stores, ite_expCtr, ite_self, and_self]; done)
    | (refine foldl_keeps _ _ _ fun _ _ => ?_; try dsimp only)
    | split

@[simp] theorem countStall_keeps (s : State) (e : Nat) (k : Stall) : Keeps s (countStall s e k) := by
  unfold countStall
  try dsimp only
  repeat' first
    | with_reducible exact ⟨rfl, rfl⟩
    | (simp only [Keeps, State.modEng_keeps, drain_keeps, foldl_keeps, ite_stores, ite_expCtr, ite_self, and_self, implies_true]; done)
    | (refine foldl_keeps _ _ _ fun _ _ => ?_; try dsimp only)
    | split

@[simp] theorem passRun_keeps (s : State) (e : Nat) (q : Plot) (c : Cmd) (d : PassDesc) (p : MaPass) : Keeps s (passRun s e q c d p) := by
  unfold passRun
  try dsimp only
  repeat' first
    | with_reducible exact ⟨rfl, rfl⟩
    | (simp only [Keeps, State.setEng_keeps, State.modEng_keeps, applyTrace_keeps, countSteps_keeps, progress_keeps, failWork_keeps, and_self]; done)
    | (refine foldl_keeps _ _ _ fun _ _ => ?_; try dsimp only)
    | split

@[simp] theorem maPass_keeps (e : Nat) (d : PassDesc) (c : CmdRef) (s : State) : Keeps s (maPass e d c s) := by
  unfold maPass
  try dsimp only
  repeat' first
    | with_reducible exact ⟨rfl, rfl⟩
    | (simp only [Keeps, atWork_keeps, countStall_keeps, passRun_keeps, ite_stores, ite_expCtr, ite_self, and_self]; done)
    | (refine foldl_keeps _ _ _ fun _ _ => ?_; try dsimp only)
    | split

@[simp] theorem tagAcquire_keeps (e : Nat) (u : EUnit) (id : Nat) (acts : List TagAct) (c : CmdRef) (s : State) : Keeps s (tagAcquire e u id acts c s) := by
  unfold tagAcquire
  try dsimp only
  repeat' first
    | with_reducible exact ⟨rfl, rfl⟩
    | (simp only [Keeps, State.modEng_keeps, atWork_keeps, ite_stores, ite_expCtr, ite_self, and_self]; done)
    | (refine foldl_keeps _ _ _ fun _ _ => ?_; try dsimp only)
    | split

@[simp] theorem barrier_keeps (e : Nat) (units : BitVec 5) (c : CmdRef) (s : State) : Keeps s (barrier e units c s) := by
  unfold barrier
  try dsimp only
  repeat' first
    | with_reducible exact ⟨rfl, rfl⟩
    | (simp only [Keeps, State.modEng_keeps, drainEngine_keeps, atWork_keeps, ite_stores, ite_expCtr, ite_self, and_self]; done)
    | (refine foldl_keeps _ _ _ fun _ _ => ?_; try dsimp only)
    | split

@[simp] theorem emptyEpoch_keeps (s : State) (e : Nat) (c : Cmd) : Keeps s (emptyEpoch s e c) := by
  unfold emptyEpoch
  try dsimp only
  repeat' first
    | with_reducible exact ⟨rfl, rfl⟩
    | (simp only [Keeps]; done)
    | (refine foldl_keeps _ _ _ fun _ _ => ?_; try dsimp only)
    | split

@[simp] theorem slotTimeout_keeps (e : Nat) (c : CmdRef) (s : State) : Keeps s (slotTimeout e c s) := by
  unfold slotTimeout
  try dsimp only
  repeat' first
    | with_reducible exact ⟨rfl, rfl⟩
    | (simp only [Keeps, endWork_keeps, failCmd_keeps, emptyEpoch_keeps, ite_stores, ite_expCtr, ite_self, and_self]; done)
    | (refine foldl_keeps _ _ _ fun _ _ => ?_; try dsimp only)
    | split

@[simp] theorem accessRead_keeps (e a n : Nat) (c : Option Cmd) (s : State) : Keeps s (accessRead e a n c s) := by
  unfold accessRead
  try dsimp only
  repeat' first
    | with_reducible exact ⟨rfl, rfl⟩
    | (simp only [Keeps, State.modEng_keeps, applyTrace_keeps, failWork_keeps, and_self]; done)
    | (refine foldl_keeps _ _ _ fun _ _ => ?_; try dsimp only)
    | split

@[simp] theorem accessWrite_keeps (e : Nat) (bs : List (Nat × Byte)) (nt : Bool) (c : Option Cmd) (s : State) : Keeps s (accessWrite e bs nt c s) := by
  unfold accessWrite
  try dsimp only
  repeat' first
    | with_reducible exact ⟨rfl, rfl⟩
    | (simp only [Keeps, State.modEng_keeps, applyTrace_keeps, and_self]; done)
    | (refine foldl_keeps _ _ _ fun _ _ => ?_; try dsimp only)
    | split

@[simp] theorem access_keeps (e : Nat) (a : Access) (c : Option CmdRef) (upset : List (Nat × GState)) (s : State) : Keeps s (access e a c upset s) := by
  unfold access
  try dsimp only
  repeat' first
    | with_reducible exact ⟨rfl, rfl⟩
    | (simp only [Keeps, State.modEng_keeps, progress_keeps, accessRead_keeps, accessWrite_keeps, ite_stores, ite_expCtr, and_self]; done)
    | (refine foldl_keeps _ _ _ fun _ _ => ?_; try dsimp only)
    | split

@[simp] theorem spdmSend_keeps (s : State) (t : Transport) (b : List Byte) : Keeps s (spdmSend s t b) := by
  unfold spdmSend
  try dsimp only
  repeat' first
    | with_reducible exact ⟨rfl, rfl⟩
    | (simp only [Keeps, foldl_keeps, ite_stores, ite_expCtr, ite_self, and_self, implies_true]; done)
    | (refine foldl_keeps _ _ _ fun _ _ => ?_; try dsimp only)
    | split

@[simp] theorem spdmError_keeps (s : State) (t : Transport) (code data : Nat) : Keeps s (spdmError s t code data) := by
  unfold spdmError
  try dsimp only
  repeat' first
    | with_reducible exact ⟨rfl, rfl⟩
    | (simp only [Keeps, spdmSend_keeps, foldl_keeps, ite_stores, ite_expCtr, ite_self, and_self, implies_true]; done)
    | (refine foldl_keeps _ _ _ fun _ _ => ?_; try dsimp only)
    | split

@[simp] theorem spdmAt_keeps (s : State) (t : Transport) (code : Nat) (o : Bool) (k : State → State)
    (h : Keeps s (k s)) : Keeps s (spdmAt s t code o k) := by
  unfold spdmAt
  try dsimp only
  repeat' split
  all_goals first
    | exact h
    | exact ⟨rfl, rfl⟩
    | exact spdmError_keeps ..

@[simp] theorem setConn_keeps (s : State) (c : SpdmConn) : Keeps s (setConn s c) := by
  unfold setConn
  try dsimp only
  repeat' first
    | with_reducible exact ⟨rfl, rfl⟩
    | (simp only [Keeps, foldl_keeps, ite_stores, ite_expCtr, ite_self, and_self, implies_true]; done)
    | (refine foldl_keeps _ _ _ fun _ _ => ?_; try dsimp only)
    | split

@[simp] theorem needs_keeps (s : State) (t : Transport) (ok : Bool) (k : State → State)
    (h : Keeps s (k s)) : Keeps s (needs s t ok k) := by
  unfold needs
  try dsimp only
  repeat' split
  all_goals first
    | exact h
    | exact spdmError_keeps ..

@[simp] theorem getVersion_keeps (t : Transport) (s : State) : Keeps s (getVersion t s) := by
  unfold getVersion
  try dsimp only
  repeat' first
    | with_reducible exact ⟨rfl, rfl⟩
    | (simp only [Keeps, spdmSend_keeps, setConn_keeps, foldl_keeps, ite_stores, ite_expCtr, ite_self, and_self, implies_true]; done)
    | (refine foldl_keeps _ _ _ fun _ _ => ?_; try dsimp only)
    | split

@[simp] theorem negotiated_keeps (s : State) (t : Transport) (k : State → State)
    (h : Keeps s (k s)) : Keeps s (negotiated s t k) := by
  unfold negotiated
  try dsimp only
  repeat' split
  all_goals first
    | exact needs_keeps _ _ _ _ h

@[simp] theorem getMeasurements_keeps (t : Transport) (index : Nat) (nonce : List Byte) (s : State) : Keeps s (getMeasurements t index nonce s) := by
  unfold getMeasurements
  try dsimp only
  repeat' first
    | with_reducible exact ⟨rfl, rfl⟩
    | (simp only [Keeps]; done)
    | (refine foldl_keeps _ _ _ fun _ _ => ?_; try dsimp only)
    | split

@[simp] theorem challenge_keeps (t : Transport) (slot : Nat) (nonce : List Byte) (s : State) : Keeps s (challenge t slot nonce s) := by
  unfold challenge
  try dsimp only
  repeat' first
    | with_reducible exact ⟨rfl, rfl⟩
    | (simp only [Keeps, spdmSend_keeps, spdmError_keeps, ite_stores, ite_expCtr]; done)
    | (refine foldl_keeps _ _ _ fun _ _ => ?_; try dsimp only)
    | split

@[simp] theorem keyExchange_keeps (t : Transport) (reqId heartbeat : Nat) (s : State) : Keeps s (keyExchange t reqId heartbeat s) := by
  unfold keyExchange
  try dsimp only
  repeat' first
    | with_reducible exact ⟨rfl, rfl⟩
    | (simp only [Keeps, spdmSend_keeps, spdmError_keeps, ite_stores, ite_expCtr]; done)
    | (refine foldl_keeps _ _ _ fun _ _ => ?_; try dsimp only)
    | split

@[simp] theorem putSession_keeps (s : State) (k : Nat) (x : Session) : Keeps s (putSession s k x) := by
  unfold putSession
  try dsimp only
  repeat' first
    | with_reducible exact ⟨rfl, rfl⟩
    | (simp only [Keeps, foldl_keeps, ite_stores, ite_expCtr, ite_self, and_self, implies_true]; done)
    | (refine foldl_keeps _ _ _ fun _ _ => ?_; try dsimp only)
    | split

@[simp] theorem dropSession_keeps (s : State) (k : Nat) : Keeps s (dropSession s k) := by
  unfold dropSession
  try dsimp only
  repeat' first
    | with_reducible exact ⟨rfl, rfl⟩
    | (simp only [Keeps, foldl_keeps, ite_stores, ite_expCtr, ite_self, and_self, implies_true]; done)
    | (refine foldl_keeps _ _ _ fun _ _ => ?_; try dsimp only)
    | split

@[simp] theorem inSession_keeps (s : State) (t : Transport) (id : Nat) (e : Bool) (k : Nat → Session → State)
    (h : ∀ n x, Keeps s (k n x)) : Keeps s (inSession s t id e k) := by
  unfold inSession
  try dsimp only
  repeat' split
  all_goals first
    | exact h _ _
    | exact spdmError_keeps ..

@[simp] theorem finishSession_keeps (t : Transport) (id : Nat) (ok : Bool) (key iv : List Byte) (s : State) : Keeps s (finishSession t id ok key iv s) := by
  unfold finishSession
  try dsimp only
  repeat' first
    | with_reducible exact ⟨rfl, rfl⟩
    | (simp only [Keeps, spdmSend_keeps, spdmError_keeps, putSession_keeps, dropSession_keeps, ite_stores, ite_expCtr, ite_self, and_self]; done)
    | (refine foldl_keeps _ _ _ fun _ _ => ?_; try dsimp only)
    | (with_reducible refine inSession_keeps _ _ _ _ _ fun _ _ => ?_; try dsimp only)
    | split

@[simp] theorem answerPcp_keeps (s : State) (h : Hdr) (untrusted : Bool) (r : Reply) : Keeps s (answerPcp s h untrusted r) := by
  unfold answerPcp
  try dsimp only
  repeat' first
    | with_reducible exact ⟨rfl, rfl⟩
    | (simp only [Keeps, drain_keeps, and_self]; done)
    | (refine foldl_keeps _ _ _ fun _ _ => ?_; try dsimp only)
    | split

theorem acceptPcp_keeps (s : State) (ep : Endpoint) : Keeps s (acceptPcp s ep) := by
  refine ⟨rfl, ?_⟩
  show (acceptAt _ _).expCtr = _
  rw [(acceptAt_keeps _ _).2]
  split <;> rfl

@[simp] theorem pcpPacket_keeps (s : State) (ep : Endpoint) (bs : List Byte) : Keeps s (pcpPacket s ep bs) := by
  simp only [pcpPacket]
  repeat' split
  all_goals simp only [Keeps, answerPcp_keeps, acceptPcp_keeps, drain_keeps, sequenceCheck_keeps, and_self]

@[simp] theorem channelAt_keeps (s : State) (ep : Endpoint) (k : State → State)
    (h : Keeps s (k s)) : Keeps s (channelAt s ep k) := by
  unfold channelAt
  try dsimp only
  repeat' split
  all_goals first
    | exact h
    | exact ⟨rfl, rfl⟩

@[simp] theorem channelAwake_keeps (s : State) (ep : Endpoint) (r : SecReq) (k : State → State)
    (h : Keeps s (k s)) : Keeps s (channelAwake s ep r k) := by
  unfold channelAwake
  try dsimp only
  repeat' split
  all_goals first
    | exact ⟨rfl, rfl⟩
    | exact awakeAt_keeps _ _ _ (channelAt_keeps _ _ _ h)

@[simp] theorem channelResetNow_keeps (s : State) (ep : Endpoint) (newE : Nat) : Keeps s (channelResetNow s ep newE) := by
  unfold channelResetNow
  try dsimp only
  repeat' first
    | with_reducible exact ⟨rfl, rfl⟩
    | (simp only [Keeps, resetChannel_keeps, and_self]; done)
    | (refine foldl_keeps _ _ _ fun _ _ => ?_; try dsimp only)
    | split

@[simp] theorem pldmReply_keeps (s : State) (ep : Endpoint) (type cmd cc : Nat) (more : List Byte) : Keeps s (pldmReply s ep type cmd cc more) := by
  unfold pldmReply
  try dsimp only
  repeat' first
    | with_reducible exact ⟨rfl, rfl⟩
    | (simp only [Keeps, sendMctp_keeps, foldl_keeps, ite_stores, ite_expCtr, ite_self, and_self, implies_true]; done)
    | (refine foldl_keeps _ _ _ fun _ _ => ?_; try dsimp only)
    | split

@[simp] theorem effecterAt_keeps (s : State) (ep : Endpoint) (cmd : Nat) (k : State → State)
    (h : Keeps s (k s)) : Keeps s (effecterAt s ep cmd k) := by
  unfold effecterAt
  try dsimp only
  repeat' split
  all_goals first
    | exact h
    | exact ⟨rfl, rfl⟩
    | exact pldmReply_keeps ..

@[simp] theorem setP2en_keeps (s : State) (b : Bool) : Keeps s (setP2en s b) := by
  unfold setP2en
  try dsimp only
  repeat' first
    | with_reducible exact ⟨rfl, rfl⟩
    | (simp only [Keeps, wakeFromP2_keeps, ite_stores, ite_expCtr, ite_self, and_self]; done)
    | (refine foldl_keeps _ _ _ fun _ _ => ?_; try dsimp only)
    | split

@[simp] theorem updateAt_keeps (s : State) (ep : Endpoint) (cmd : Nat) (k : State → State)
    (h : Keeps s (k s)) : Keeps s (updateAt s ep cmd k) := by
  unfold updateAt
  try dsimp only
  repeat' split
  all_goals first
    | exact h
    | exact ⟨rfl, rfl⟩
    | exact pldmReply_keeps ..

theorem effect_keeps {s t : State} {id v : Nat} (h : effect s id v = some t) : Keeps s t := by
  simp only [effect] at h
  repeat' split at h
  all_goals first
    | (injection h with h; subst h; first | exact setKeeperCtl_keeps .. | exact ⟨rfl, rfl⟩)
    | (cases h; done)

@[simp] theorem jtagOut_keeps (s : State) (b : List Byte) : Keeps s (jtagOut s b) := by
  unfold jtagOut
  try dsimp only
  repeat' first
    | with_reducible exact ⟨rfl, rfl⟩
    | (simp only [Keeps, foldl_keeps, ite_stores, ite_expCtr, ite_self, and_self, implies_true]; done)
    | (refine foldl_keeps _ _ _ fun _ _ => ?_; try dsimp only)
    | split

@[simp] theorem spadAt_keeps (s : State) (e : Nat) (k : State → State)
    (h : Keeps s (k s)) : Keeps s (spadAt s e k) := by
  unfold spadAt
  try dsimp only
  repeat' split
  all_goals first
    | exact h
    | exact ⟨rfl, rfl⟩
    | exact wakeEngine_keeps _ _

@[simp] theorem debugReadSpad_keeps (e a n : Nat) (s : State) : Keeps s (debugReadSpad e a n s) := by
  unfold debugReadSpad
  try dsimp only
  repeat' first
    | with_reducible exact ⟨rfl, rfl⟩
    | (simp only [Keeps, State.modEng_keeps, applyTrace_keeps, jtagOut_keeps, and_self]; done)
    | (refine foldl_keeps _ _ _ fun _ _ => ?_; try dsimp only)
    | split

@[simp] theorem debugWriteSpad_keeps (e a : Nat) (bs : List Byte) (s : State) : Keeps s (debugWriteSpad e a bs s) := by
  unfold debugWriteSpad
  try dsimp only
  repeat' first
    | with_reducible exact ⟨rfl, rfl⟩
    | (simp only [Keeps, accessWrite_keeps, and_self]; done)
    | (refine foldl_keeps _ _ _ fun _ _ => ?_; try dsimp only)
    | split

@[simp] theorem poolAt_keeps (s : State) (k : State → State)
    (h : Keeps s (k s)) : Keeps s (poolAt s k) := by
  unfold poolAt
  try dsimp only
  repeat' split
  all_goals first
    | exact h
    | exact ⟨rfl, rfl⟩

@[simp] theorem debugImage_keeps (s : State) (plot st : Nat) (k : Plot → Stream → State)
    (h : ∀ p x, Keeps s (k p x)) : Keeps s (debugImage s plot st k) := by
  unfold debugImage
  try dsimp only
  repeat' split
  all_goals first
    | exact h _ _
    | exact ⟨rfl, rfl⟩

@[simp] theorem debugHbm_keeps (s : State) (plot h : Nat) (k : Plot → Tensor → State) (m : Plot → Plan → State)
    (h' : ∀ p x, Keeps s (k p x)) (g : ∀ p x, Keeps s (m p x)) : Keeps s (debugHbm s plot h k m) := by
  unfold debugHbm
  try dsimp only
  repeat' split
  all_goals first
    | exact h' _ _
    | exact g _ _
    | exact ⟨rfl, rfl⟩

@[simp] theorem setHalt_keeps (s : State) (p : Nat) (b : Bool) : Keeps s (setHalt s p b) := by
  unfold setHalt
  try dsimp only
  repeat' first
    | with_reducible exact ⟨rfl, rfl⟩
    | (simp only [Keeps, State.setPair_keeps, foldl_keeps, ite_stores, ite_expCtr, ite_self, and_self, implies_true]; done)
    | (refine foldl_keeps _ _ _ fun _ _ => ?_; try dsimp only)
    | split

@[simp] theorem setEngHalt_keeps (s : State) (e : Nat) (b : Bool) : Keeps s (setEngHalt s e b) := by
  unfold setEngHalt
  try dsimp only
  repeat' first
    | with_reducible exact ⟨rfl, rfl⟩
    | (simp only [Keeps, State.modEng_keeps, foldl_keeps, ite_stores, ite_expCtr, ite_self, and_self, implies_true]; done)
    | (refine foldl_keeps _ _ _ fun _ _ => ?_; try dsimp only)
    | split

@[simp] theorem setMoverHalt_keeps (s : State) (b : Bool) : Keeps s (setMoverHalt s b) := by
  unfold setMoverHalt
  try dsimp only
  repeat' first
    | with_reducible exact ⟨rfl, rfl⟩
    | (simp only [Keeps, foldl_keeps, ite_stores, ite_expCtr, ite_self, and_self, implies_true]; done)
    | (refine foldl_keeps _ _ _ fun _ _ => ?_; try dsimp only)
    | split

@[simp] theorem debugDo_keeps (op : DebugOp) (s : State) : Keeps s (debugDo op s) := by
  unfold debugDo
  try dsimp only
  repeat' first
    | with_reducible exact ⟨rfl, rfl⟩
    | (simp only [Keeps, setTensor_keeps, debugReadSpad_keeps, debugWriteSpad_keeps, ite_stores, ite_expCtr, ite_self, and_self]; done)
    | (refine foldl_keeps _ _ _ fun _ _ => ?_; try dsimp only)
    | (with_reducible refine spadAt_keeps _ _ _ ?_; try dsimp only)
    | (with_reducible refine poolAt_keeps _ _ ?_; try dsimp only)
    | (with_reducible refine debugImage_keeps _ _ _ _ fun _ _ => ?_; try dsimp only)
    | (with_reducible refine debugHbm_keeps _ _ _ _ _ (fun _ _ => ?_) fun _ _ => ?_; try dsimp only)
    | split

end Sys2Proof.Machine
end

