-- ==== Sys2Proof/Laws/KeepsExec.lean ====
section
/-!
SUPPORT. `Keeps` (see Laws/Keeps.lean) for the meanings themselves: every command but those that move a fuse, the lifecycle,
a firmware slot, the reservation or the export counter, and the register writes that a cold reset can follow.
-/

set_option linter.unusedTactic false
set_option linter.unreachableTactic false
set_option linter.unusedSimpArgs false

namespace Sys2Proof.Machine

theorem execPacketFetch_keeps (f : FuncId) (q : Nat) (rd : RingRead) (s : State) (t' : State) (h : execPacketFetch f q rd s = .next t') : Keeps s t' := by
  injection h with h
  subst h
  repeat' first
    | with_reducible exact ⟨rfl, rfl⟩
    | (simp only [Keeps, fetchPacket_keeps, and_self]; done)
    | split

theorem execCompletionTimeout_keeps (f : FuncId) (q : Nat) (header : Option (List Byte)) (s : State) (t' : State) (h : execCompletionTimeout f q header s = .next t') : Keeps s t' := by
  injection h with h
  subst h
  repeat' first
    | with_reducible exact ⟨rfl, rfl⟩
    | (simp only [Keeps, fetchPacket_keeps, and_self]; done)
    | split

theorem execPacketAccept_keeps (f : FuncId) (q : Nat) (s : State) (t' : State) (h : execPacketAccept f q s = .next t') : Keeps s t' := by
  injection h with h
  subst h
  repeat' first
    | with_reducible exact ⟨rfl, rfl⟩
    | (simp only [Keeps, acceptAt_keeps, and_self]; done)
    | split

theorem execOkDuplicate_keeps (f : FuncId) (q : Nat) (s : State) (t' : State) (h : execOkDuplicate f q s = .next t') : Keeps s t' := by
  injection h with h
  subst h
  repeat' first
    | with_reducible exact ⟨rfl, rfl⟩
    | (simp only [Keeps, answerDuplicates_keeps, and_self]; done)
    | split

theorem execIrqCoalesceTimeout_keeps (f : FuncId) (q : Nat) (s : State) (t' : State) (h : execIrqCoalesceTimeout f q s = .next t') : Keeps s t' := by
  injection h with h
  subst h
  repeat' first
    | with_reducible exact ⟨rfl, rfl⟩
    | (simp only [Keeps, signalQueue_keeps, and_self]; done)
    | split

theorem execTensorPut_keeps (c : CmdRef) (s : State) (t' : State) (h : execTensorPut c s = .next t') : Keeps s t' := by
  injection h with h
  subst h
  repeat' first
    | with_reducible exact ⟨rfl, rfl⟩
    | (simp only [Keeps, commitPut_keeps, commitPutWrite_keeps, ite_stores, ite_expCtr, ite_self, and_self]; done)
    | (with_reducible refine atTurn_keeps _ _ _ _ fun _ => ?_; try dsimp only)
    | (with_reducible refine commitAt_keeps _ _ _ ?_; try dsimp only)
    | split

theorem execTensorGet_keeps (c : CmdRef) (s : State) (t' : State) (h : execTensorGet c s = .next t') : Keeps s t' := by
  injection h with h
  subst h
  repeat' first
    | with_reducible exact ⟨rfl, rfl⟩
    | (simp only [Keeps, getTensor_keeps, and_self]; done)
    | (with_reducible refine atTurn_keeps _ _ _ _ fun _ => ?_; try dsimp only)
    | split

theorem execTensorFree_keeps (c : CmdRef) (s : State) (t' : State) (h : execTensorFree c s = .next t') : Keeps s t' := by
  unfold execTensorFree at h
  try dsimp only at h
  repeat' split at h
  all_goals first
    | (injection h with h; subst h)
    | (injection h; done)
  repeat' first
    | with_reducible exact ⟨rfl, rfl⟩
    | (simp only [Keeps, State.setPlot_keeps, endCmd_keeps, failCmd_keeps, foldl_keeps, ite_stores, ite_expCtr, ite_self, and_self, implies_true]; done)
    | (refine foldl_keeps _ _ _ fun _ _ => ?_; try dsimp only)
    | (with_reducible refine atTurn_keeps _ _ _ _ fun _ => ?_; try dsimp only)
    | (with_reducible refine commitAt_keeps _ _ _ ?_; try dsimp only)
    | split

theorem execTensorMove_keeps (c : CmdRef) (s : State) (t' : State) (h : execTensorMove c s = .next t') : Keeps s t' := by
  injection h with h
  subst h
  repeat' first
    | with_reducible exact ⟨rfl, rfl⟩
    | (simp only [Keeps, moveTensor_keeps, and_self]; done)
    | (with_reducible refine atTurn_keeps _ _ _ _ fun _ => ?_; try dsimp only)
    | split

theorem markStraddles_keeps (s : State) (p : Plot) (w : Cmd) : Keeps s (markStraddles s p w) := ⟨rfl, rfl⟩

theorem execTableWrite_keeps (c : CmdRef) (s : State) (t' : State) (h : execTableWrite c s = .next t') : Keeps s t' := by
  injection h with h
  subst h
  repeat' first
    | with_reducible exact ⟨rfl, rfl⟩
    | (simp only [Keeps, State.setPlot_keeps, endCmd_keeps, (markStraddles_keeps _ _ _).1, (markStraddles_keeps _ _ _).2, and_self]; done)
    | (with_reducible refine atTurn_keeps _ _ _ _ fun _ => ?_; try dsimp only)
    | (with_reducible refine commitAt_keeps _ _ _ ?_; try dsimp only)
    | split

theorem execDescInvalidate_keeps (c : CmdRef) (s : State) (t' : State) (h : execDescInvalidate c s = .next t') : Keeps s t' := by
  injection h with h
  subst h
  repeat' first
    | with_reducible exact ⟨rfl, rfl⟩
    | (simp only [Keeps, State.setPlot_keeps, endCmd_keeps, ite_stores, ite_expCtr, and_self]; done)
    | (with_reducible refine atTurn_keeps _ _ _ _ fun _ => ?_; try dsimp only)
    | (with_reducible refine commitAt_keeps _ _ _ ?_; try dsimp only)
    | split

theorem execPlanLoad_keeps (c : CmdRef) (s : State) (t' : State) (h : execPlanLoad c s = .next t') : Keeps s t' := by
  injection h with h
  subst h
  repeat' first
    | with_reducible exact ⟨rfl, rfl⟩
    | (simp only [Keeps, State.setPlot_keeps, endCmd_keeps, and_self]; done)
    | (with_reducible refine atTurn_keeps _ _ _ _ fun _ => ?_; try dsimp only)
    | (with_reducible refine commitAt_keeps _ _ _ ?_; try dsimp only)
    | split

theorem execPlanUnload_keeps (c : CmdRef) (s : State) (t' : State) (h : execPlanUnload c s = .next t') : Keeps s t' := by
  unfold execPlanUnload at h
  try dsimp only at h
  repeat' split at h
  all_goals first
    | (injection h with h; subst h)
    | (injection h; done)
  repeat' first
    | with_reducible exact ⟨rfl, rfl⟩
    | (simp only [Keeps, State.setPlot_keeps, endCmd_keeps, failCmd_keeps, dropPlan_keeps, keepFills_keeps, foldl_keeps, ite_stores, ite_expCtr, ite_self, and_self, implies_true]; done)
    | (refine foldl_keeps _ _ _ fun _ _ => ?_; try dsimp only)
    | (with_reducible refine atTurn_keeps _ _ _ _ fun _ => ?_; try dsimp only)
    | (with_reducible refine commitAt_keeps _ _ _ ?_; try dsimp only)
    | split

theorem execPlanRun_keeps (c : CmdRef) (s : State) (t' : State) (h : execPlanRun c s = .next t') : Keeps s t' := by
  injection h with h
  subst h
  repeat' first
    | with_reducible exact ⟨rfl, rfl⟩
    | (simp only [Keeps, planRun_keeps, and_self]; done)
    | (with_reducible refine atTurn_keeps _ _ _ _ fun _ => ?_; try dsimp only)
    | split

theorem execOpMatmul_keeps (c : CmdRef) (s : State) (t' : State) (h : execOpMatmul c s = .next t') : Keeps s t' := by
  injection h with h
  subst h
  repeat' first
    | with_reducible exact ⟨rfl, rfl⟩
    | (simp only [Keeps, directAt_keeps, and_self]; done)
    | split

theorem execOpVector_keeps (c : CmdRef) (s : State) (t' : State) (h : execOpVector c s = .next t') : Keeps s t' := by
  injection h with h
  subst h
  repeat' first
    | with_reducible exact ⟨rfl, rfl⟩
    | (simp only [Keeps, directAt_keeps, and_self]; done)
    | split

theorem execOpScan_keeps (c : CmdRef) (s : State) (t' : State) (h : execOpScan c s = .next t') : Keeps s t' := by
  injection h with h
  subst h
  repeat' first
    | with_reducible exact ⟨rfl, rfl⟩
    | (simp only [Keeps, directAt_keeps, and_self]; done)
    | split

theorem execOpSelect_keeps (c : CmdRef) (s : State) (t' : State) (h : execOpSelect c s = .next t') : Keeps s t' := by
  injection h with h
  subst h
  repeat' first
    | with_reducible exact ⟨rfl, rfl⟩
    | (simp only [Keeps, directAt_keeps, and_self]; done)
    | split

theorem execOpGather_keeps (c : CmdRef) (s : State) (t' : State) (h : execOpGather c s = .next t') : Keeps s t' := by
  injection h with h
  subst h
  repeat' first
    | with_reducible exact ⟨rfl, rfl⟩
    | (simp only [Keeps, directAt_keeps, and_self]; done)
    | split

theorem execOpConvert_keeps (c : CmdRef) (s : State) (t' : State) (h : execOpConvert c s = .next t') : Keeps s t' := by
  injection h with h
  subst h
  repeat' first
    | with_reducible exact ⟨rfl, rfl⟩
    | (simp only [Keeps, directAt_keeps, and_self]; done)
    | split

theorem execOpRmsnorm_keeps (c : CmdRef) (s : State) (t' : State) (h : execOpRmsnorm c s = .next t') : Keeps s t' := by
  injection h with h
  subst h
  repeat' first
    | with_reducible exact ⟨rfl, rfl⟩
    | (simp only [Keeps, directAt_keeps, and_self]; done)
    | split

theorem execNop_keeps (c : CmdRef) (s : State) (t' : State) (h : execNop c s = .next t') : Keeps s t' := by
  injection h with h
  subst h
  repeat' first
    | with_reducible exact ⟨rfl, rfl⟩
    | (simp only [Keeps, endCmd_keeps, and_self]; done)
    | (with_reducible refine atTurn_keeps _ _ _ _ fun _ => ?_; try dsimp only)
    | (with_reducible refine commitAt_keeps _ _ _ ?_; try dsimp only)
    | split

theorem execFence_keeps (c : CmdRef) (s : State) (t' : State) (h : execFence c s = .next t') : Keeps s t' := by
  injection h with h
  subst h
  repeat' first
    | with_reducible exact ⟨rfl, rfl⟩
    | (simp only [Keeps, endCmd_keeps, drainPlot_keeps, ite_stores, ite_expCtr, ite_self, and_self]; done)
    | (with_reducible refine atTurn_keeps _ _ _ _ fun _ => ?_; try dsimp only)
    | split

theorem execAbort_keeps (c : CmdRef) (s : State) (t' : State) (h : execAbort c s = .next t') : Keeps s t' := by
  injection h with h
  subst h
  repeat' first
    | with_reducible exact ⟨rfl, rfl⟩
    | (simp only [Keeps, endCmd_keeps, and_self]; done)
    | (with_reducible refine atTurn_keeps _ _ _ _ fun _ => ?_; try dsimp only)
    | (with_reducible refine commitAt_keeps _ _ _ ?_; try dsimp only)
    | split

theorem execQuery_keeps (c : CmdRef) (s : State) (t' : State) (h : execQuery c s = .next t') : Keeps s t' := by
  injection h with h
  subst h
  repeat' first
    | with_reducible exact ⟨rfl, rfl⟩
    | (simp only [Keeps, endCmd_keeps, and_self]; done)
    | (with_reducible refine atTurn_keeps _ _ _ _ fun _ => ?_; try dsimp only)
    | (with_reducible refine commitAt_keeps _ _ _ ?_; try dsimp only)
    | split

theorem execScalarSet_keeps (c : CmdRef) (s : State) (t' : State) (h : execScalarSet c s = .next t') : Keeps s t' := by
  injection h with h
  subst h
  repeat' first
    | with_reducible exact ⟨rfl, rfl⟩
    | (simp only [Keeps, State.setPlot_keeps, endCmd_keeps, and_self]; done)
    | (with_reducible refine atTurn_keeps _ _ _ _ fun _ => ?_; try dsimp only)
    | (with_reducible refine commitAt_keeps _ _ _ ?_; try dsimp only)
    | split

theorem execStreamOpen_keeps (c : CmdRef) (s : State) (t' : State) (h : execStreamOpen c s = .next t') : Keeps s t' := by
  injection h with h
  subst h
  repeat' first
    | with_reducible exact ⟨rfl, rfl⟩
    | (simp only [Keeps, State.setPlot_keeps, endCmd_keeps, failCmd_keeps, wrongState_keeps, ite_stores, ite_expCtr, and_self]; done)
    | (with_reducible refine commitAt_keeps _ _ _ ?_; try dsimp only)
    | (with_reducible refine streamAt_keeps _ _ _ _ fun _ _ _ => ?_; try dsimp only)
    | split

theorem execStreamFeed_keeps (c : CmdRef) (s : State) (t' : State) (h : execStreamFeed c s = .next t') : Keeps s t' := by
  injection h with h
  subst h
  repeat' first
    | with_reducible exact ⟨rfl, rfl⟩
    | (simp only [Keeps, feedAt_keeps, and_self]; done)
    | (with_reducible refine streamAt_keeps _ _ _ _ fun _ _ _ => ?_; try dsimp only)
    | split

theorem execStreamFlush_keeps (c : CmdRef) (s : State) (t' : State) (h : execStreamFlush c s = .next t') : Keeps s t' := by
  injection h with h
  subst h
  repeat' first
    | with_reducible exact ⟨rfl, rfl⟩
    | (simp only [Keeps, feedAt_keeps, and_self]; done)
    | (with_reducible refine streamAt_keeps _ _ _ _ fun _ _ _ => ?_; try dsimp only)
    | split

theorem execStreamPause_keeps (c : CmdRef) (s : State) (t' : State) (h : execStreamPause c s = .next t') : Keeps s t' := by
  injection h with h
  subst h
  repeat' first
    | with_reducible exact ⟨rfl, rfl⟩
    | (simp only [Keeps, endCmd_keeps, wrongState_keeps, noOp_keeps, setStream_keeps, failImage_keeps, ite_stores, ite_expCtr, and_self]; done)
    | (with_reducible refine commitAt_keeps _ _ _ ?_; try dsimp only)
    | (with_reducible refine streamAt_keeps _ _ _ _ fun _ _ _ => ?_; try dsimp only)
    | split

theorem execStreamResume_keeps (c : CmdRef) (s : State) (t' : State) (h : execStreamResume c s = .next t') : Keeps s t' := by
  injection h with h
  subst h
  repeat' first
    | with_reducible exact ⟨rfl, rfl⟩
    | (simp only [Keeps, wrongState_keeps, noOp_keeps, failImage_keeps, clearPause_keeps, ite_stores, ite_expCtr, and_self]; done)
    | (with_reducible refine streamAt_keeps _ _ _ _ fun _ _ _ => ?_; try dsimp only)
    | (with_reducible refine withImage_keeps _ _ _ _ _ _ fun _ _ => ?_; try dsimp only)
    | split

theorem execStreamClose_keeps (c : CmdRef) (s : State) (t' : State) (h : execStreamClose c s = .next t') : Keeps s t' := by
  injection h with h
  subst h
  repeat' first
    | with_reducible exact ⟨rfl, rfl⟩
    | (simp only [Keeps, endCmd_keeps, failCmd_keeps, wrongState_keeps, closeStream_keeps, ite_stores, ite_expCtr, and_self]; done)
    | (with_reducible refine commitAt_keeps _ _ _ ?_; try dsimp only)
    | (with_reducible refine streamAt_keeps _ _ _ _ fun _ _ _ => ?_; try dsimp only)
    | split

theorem execMoveCommit_keeps (plot : Fin 6) (stream : Nat) (blocksOk : Bool) (s : State) (t' : State) (h : execMoveCommit plot stream blocksOk s = .next t') : Keeps s t' := by
  injection h with h
  subst h
  repeat' first
    | with_reducible exact ⟨rfl, rfl⟩
    | (simp only [Keeps, moveFailed_keeps, moveDone_keeps, and_self]; done)
    | split

theorem execQueueCreate_keeps (c : CmdRef) (s : State) (t' : State) (h : execQueueCreate c s = .next t') : Keeps s t' := by
  injection h with h
  subst h
  repeat' first
    | with_reducible exact ⟨rfl, rfl⟩
    | (simp only [Keeps, createQueue_keeps, and_self]; done)
    | (with_reducible refine adminAt_keeps _ _ _ _ fun _ _ => ?_; try dsimp only)
    | split

theorem execQueueDelete_keeps (c : CmdRef) (s : State) (t' : State) (h : execQueueDelete c s = .next t') : Keeps s t' := by
  injection h with h
  subst h
  repeat' first
    | with_reducible exact ⟨rfl, rfl⟩
    | (simp only [Keeps, deleteQueue_keeps, and_self]; done)
    | (with_reducible refine adminAt_keeps _ _ _ _ fun _ _ => ?_; try dsimp only)
    | split

theorem execQueueResume_keeps (c : CmdRef) (s : State) (t' : State) (h : execQueueResume c s = .next t') : Keeps s t' := by
  injection h with h
  subst h
  repeat' first
    | with_reducible exact ⟨rfl, rfl⟩
    | (simp only [Keeps, resumeAt_keeps, and_self]; done)
    | (with_reducible refine adminAt_keeps _ _ _ _ fun _ _ => ?_; try dsimp only)
    | split

theorem execKeySet_keeps (c : CmdRef) (s : State) (t' : State) (h : execKeySet c s = .next t') : Keeps s t' := by
  injection h with h
  subst h
  repeat' first
    | with_reducible exact ⟨rfl, rfl⟩
    | (simp only [Keeps, setKey_keeps, and_self]; done)
    | (with_reducible refine adminAt_keeps _ _ _ _ fun _ _ => ?_; try dsimp only)
    | split

theorem execPlotConfig_keeps (c : CmdRef) (s : State) (t' : State) (h : execPlotConfig c s = .next t') : Keeps s t' := by
  injection h with h
  subst h
  repeat' first
    | with_reducible exact ⟨rfl, rfl⟩
    | (simp only [Keeps, configPlot_keeps, and_self]; done)
    | (with_reducible refine atTurn_keeps _ _ _ _ fun _ => ?_; try dsimp only)
    | (with_reducible refine commitAt_keeps _ _ _ ?_; try dsimp only)
    | split

theorem execPlotRelease_keeps (c : CmdRef) (s : State) (t' : State) (h : execPlotRelease c s = .next t') : Keeps s t' := by
  injection h with h
  subst h
  repeat' first
    | with_reducible exact ⟨rfl, rfl⟩
    | (simp only [Keeps, releasePlot_keeps, and_self]; done)
    | (with_reducible refine atTurn_keeps _ _ _ _ fun _ => ?_; try dsimp only)
    | (with_reducible refine commitAt_keeps _ _ _ ?_; try dsimp only)
    | split

theorem execPageZeroingDone_keeps (o : ZeroOwner) (s : State) (t' : State) (h : execPageZeroingDone o s = .next t') : Keeps s t' := by
  injection h with h
  subst h
  repeat' first
    | with_reducible exact ⟨rfl, rfl⟩
    | (simp only [Keeps, ite_stores, ite_expCtr]; done)
    | split

theorem execDatapathFault_keeps (e : Fin 6) (u : EUnit) (k : CheckKind) (p : CheckSite) (v : CheckedValue) (c : Option CmdRef) (s : State) (t' : State) (h : execDatapathFault e u k p v c s = .next t') : Keeps s t' := by
  unfold execDatapathFault at h
  try dsimp only at h
  repeat' split at h
  all_goals first
    | (injection h with h; subst h)
    | (injection h; done)
  repeat' first
    | with_reducible exact ⟨rfl, rfl⟩
    | (simp only [Keeps, datapathFault_keeps, foldl_keeps, ite_stores, ite_expCtr, ite_self, and_self, implies_true]; done)
    | (refine foldl_keeps _ _ _ fun _ _ => ?_; try dsimp only)
    | split

theorem execRouteLost_keeps (a b : BitVec 8) (s : State) (t' : State) (h : execRouteLost a b s = .next t') : Keeps s t' := by
  injection h with h
  subst h
  repeat' first
    | with_reducible exact ⟨rfl, rfl⟩
    | (simp only [Keeps, routeLost_keeps, and_self]; done)
    | split

theorem execGhLockstep_keeps (pair : Fin 4) (s : State) (t' : State) (h : execGhLockstep pair s = .next t') : Keeps s t' := by
  injection h with h
  subst h
  repeat' first
    | with_reducible exact ⟨rfl, rfl⟩
    | (simp only [Keeps, ghLockstep_keeps, and_self]; done)
    | split

theorem execGatehouseRestartDone_keeps (failed : List (Fin 4)) (s : State) (t' : State) (h : execGatehouseRestartDone failed s = .next t') : Keeps s t' := by
  injection h with h
  subst h
  repeat' first
    | with_reducible exact ⟨rfl, rfl⟩
    | (simp only [Keeps, finishRestart_keeps, and_self]; done)
    | split

theorem execFullStateCompare_keeps (pair : Fin 4) (differs : Bool) (s : State) (t' : State) (h : execFullStateCompare pair differs s = .next t') : Keeps s t' := by
  injection h with h
  subst h
  repeat' first
    | with_reducible exact ⟨rfl, rfl⟩
    | (simp only [Keeps, fullStateCompare_keeps, and_self]; done)
    | split

theorem execLatentRestartTimeout_keeps (s : State) (t' : State) (h : execLatentRestartTimeout s = .next t') : Keeps s t' := by
  injection h with h
  subst h
  repeat' first
    | with_reducible exact ⟨rfl, rfl⟩
    | (simp only [Keeps, startRestart_keeps, and_self]; done)
    | split

theorem execClock_keeps (c : ClockId) (s : State) (t' : State) (h : execClock c s = .next t') : Keeps s t' := by
  injection h with h
  subst h
  repeat' first
    | with_reducible exact ⟨rfl, rfl⟩
    | (simp only [Keeps, clockError_keeps, and_self]; done)
    | split

theorem execFclkRelockDone_keeps (s : State) (t' : State) (h : execFclkRelockDone s = .next t') : Keeps s t' := by
  injection h with h
  subst h
  repeat' first
    | with_reducible exact ⟨rfl, rfl⟩
    | (simp only [Keeps, startRestart_keeps, and_self]; done)
    | split

theorem execHbmRelockDone_keeps (stack : Fin 4) (ok : Bool) (s : State) (t' : State) (h : execHbmRelockDone stack ok s = .next t') : Keeps s t' := by
  injection h with h
  subst h
  repeat' first
    | with_reducible exact ⟨rfl, rfl⟩
    | (simp only [Keeps, hbmRelockDone_keeps, and_self]; done)
    | split

theorem execRail_keeps (r : RailId) (s : State) (t' : State) (h : execRail r s = .next t') : Keeps s t' := by
  injection h with h
  subst h
  repeat' first
    | with_reducible exact ⟨rfl, rfl⟩
    | (simp only [Keeps, railError_keeps, and_self]; done)
    | split

theorem execLodgeLogicMismatch_keeps (s : State) (t' : State) (h : execLodgeLogicMismatch s = .next t') : Keeps s t' := by
  injection h with h
  subst h
  repeat' first
    | with_reducible exact ⟨rfl, rfl⟩
    | (simp only [Keeps, enterFatal_keeps, and_self]; done)
    | split

theorem execConfigReady_keeps (s : State) (t' : State) (h : execConfigReady s = .next t') : Keeps s t' := by
  injection h with h
  subst h
  repeat' first
    | with_reducible exact ⟨rfl, rfl⟩
    | (simp only [Keeps, configReady_keeps, and_self]; done)
    | split

theorem execPowerGoodTimeout_keeps (r : PgId) (s : State) (t' : State) (h : execPowerGoodTimeout r s = .next t') : Keeps s t' := by
  injection h with h
  subst h
  repeat' first
    | with_reducible exact ⟨rfl, rfl⟩
    | (simp only [Keeps, enterFatal_keeps, and_self]; done)
    | split

theorem execHbmTrainingDone_keeps (stack : Fin 4) (ok : Bool) (s : State) (t' : State) (h : execHbmTrainingDone stack ok s = .next t') : Keeps s t' := by
  injection h with h
  subst h
  repeat' first
    | with_reducible exact ⟨rfl, rfl⟩
    | (simp only [Keeps, hbmTrainingDone_keeps, and_self]; done)
    | split

theorem execSupplyReturn_keeps (s : State) (t' : State) (h : execSupplyReturn s = .next t') : Keeps s t' := by
  injection h with h
  subst h
  repeat' first
    | with_reducible exact ⟨rfl, rfl⟩
    | (simp only [Keeps, ite_stores, ite_expCtr, ite_self, and_self]; done)
    | split

theorem execFunctionLevelReset_keeps (f : FuncId) (s : State) (t' : State) (h : execFunctionLevelReset f s = .next t') : Keeps s t' := by
  injection h with h
  subst h
  repeat' first
    | with_reducible exact ⟨rfl, rfl⟩
    | (simp only [Keeps, flr_keeps, and_self]; done)
    | split

theorem execFlrComplete_keeps (f : FuncId) (s : State) (t' : State) (h : execFlrComplete f s = .next t') : Keeps s t' := by
  injection h with h
  subst h
  repeat' first
    | with_reducible exact ⟨rfl, rfl⟩
    | (simp only [Keeps, State.modFn_keeps, ite_stores, ite_expCtr, ite_self, and_self]; done)
    | split

theorem execPortReset_keeps (port : Fin 4) (k : PortResetKind) (s : State) (t' : State) (h : execPortReset port k s = .next t') : Keeps s t' := by
  injection h with h
  subst h
  repeat' first
    | with_reducible exact ⟨rfl, rfl⟩
    | (simp only [Keeps, portReset_keeps, and_self]; done)
    | split

theorem execLinkUp_keeps (port : Fin 4) (s : State) (t' : State) (h : execLinkUp port s = .next t') : Keeps s t' := by
  injection h with h
  subst h
  repeat' first
    | with_reducible exact ⟨rfl, rfl⟩
    | (simp only [Keeps, State.setPort_keeps, ite_stores, ite_expCtr, ite_self, and_self]; done)
    | split

theorem execVfRemoval_keeps (port : Fin 4) (numVfs : Nat) (enable : Bool) (s : State) (t' : State) (h : execVfRemoval port numVfs enable s = .next t') : Keeps s t' := by
  injection h with h
  subst h
  repeat' first
    | with_reducible exact ⟨rfl, rfl⟩
    | (simp only [Keeps, vfRemoval_keeps, and_self]; done)
    | split

theorem execD3hotEntry_keeps (f : FuncId) (bmeLost : Bool) (s : State) (t' : State) (h : execD3hotEntry f bmeLost s = .next t') : Keeps s t' := by
  injection h with h
  subst h
  repeat' first
    | with_reducible exact ⟨rfl, rfl⟩
    | (simp only [Keeps, State.setPort_keeps, State.modFn_keeps, ite_stores, ite_expCtr, ite_self, and_self]; done)
    | split

theorem execD0Return_keeps (f : FuncId) (s : State) (t' : State) (h : execD0Return f s = .next t') : Keeps s t' := by
  injection h with h
  subst h
  repeat' first
    | with_reducible exact ⟨rfl, rfl⟩
    | (simp only [Keeps, State.modFn_keeps, resumeFn_keeps, and_self]; done)
    | split

theorem execAspmL1Request_keeps (port : Fin 4) (s : State) (t' : State) (h : execAspmL1Request port s = .next t') : Keeps s t' := by
  injection h with h
  subst h
  repeat' first
    | with_reducible exact ⟨rfl, rfl⟩
    | (simp only [Keeps, State.setPort_keeps, ite_stores, ite_expCtr, ite_self, and_self]; done)
    | split

theorem execLinkReturnsToL0_keeps (port : Fin 4) (s : State) (t' : State) (h : execLinkReturnsToL0 port s = .next t') : Keeps s t' := by
  injection h with h
  subst h
  repeat' first
    | with_reducible exact ⟨rfl, rfl⟩
    | (simp only [Keeps, State.setPort_keeps, ite_stores, ite_expCtr, ite_self, and_self]; done)
    | split

theorem execConfigurationWrite_keeps (f : FuncId) (fld : CfgField) (value : Nat) (s : State) (t' : State) (h : execConfigurationWrite f fld value s = .next t') : Keeps s t' := by
  injection h with h
  subst h
  repeat' first
    | with_reducible exact ⟨rfl, rfl⟩
    | (simp only [Keeps, configWrite_keeps, and_self]; done)
    | split

theorem execUnsupportedRequest_keeps (r : UrReq) (s : State) (t' : State) (h : execUnsupportedRequest r s = .next t') : Keeps s t' := by
  injection h with h
  subst h
  repeat' first
    | with_reducible exact ⟨rfl, rfl⟩
    | (simp only [Keeps, ite_stores, ite_expCtr, ite_self, and_self]; done)
    | split

theorem execScrubAccess_keeps (e : Fin 6) (bank : Fin 40) (upset : List (Nat × GState)) (s : State) (t' : State) (h : execScrubAccess e bank upset s = .next t') : Keeps s t' := by
  injection h with h
  subst h
  repeat' first
    | with_reducible exact ⟨rfl, rfl⟩
    | (simp only [Keeps, scrubAccess_keeps, and_self]; done)
    | split

theorem execSpPatrolSweep_keeps (e : Fin 6) (s : State) (t' : State) (h : execSpPatrolSweep e s = .next t') : Keeps s t' := by
  injection h with h
  subst h
  repeat' first
    | with_reducible exact ⟨rfl, rfl⟩
    | (simp only [Keeps, spSweep_keeps, and_self]; done)
    | split

theorem execGhPatrolSweep_keeps (found : List Found) (s : State) (t' : State) (h : execGhPatrolSweep found s = .next t') : Keeps s t' := by
  injection h with h
  subst h
  repeat' first
    | with_reducible exact ⟨rfl, rfl⟩
    | (simp only [Keeps, ghSweep_keeps, and_self]; done)
    | split

theorem execHbmPatrolSweep_keeps (found : List Found) (behind : Bool) (s : State) (t' : State) (h : execHbmPatrolSweep found behind s = .next t') : Keeps s t' := by
  injection h with h
  subst h
  repeat' first
    | with_reducible exact ⟨rfl, rfl⟩
    | (simp only [Keeps, hbmSweep_keeps, and_self]; done)
    | split

theorem execLodgePatrolSweep_keeps (s : State) (t' : State) (h : execLodgePatrolSweep s = .next t') : Keeps s t' := by
  unfold execLodgePatrolSweep at h
  try dsimp only at h
  repeat' split at h
  all_goals first
    | (injection h with h; subst h)
    | (injection h; done)
  repeat' first
    | with_reducible exact ⟨rfl, rfl⟩
    | (simp only [Keeps, lodgeSweep_keeps, foldl_keeps, ite_stores, ite_expCtr, ite_self, and_self, implies_true]; done)
    | (refine foldl_keeps _ _ _ fun _ _ => ?_; try dsimp only)
    | split

theorem execOpportunisticSlice_keeps (e : Fin 6) (s : State) (t' : State) (h : execOpportunisticSlice e s = .next t') : Keeps s t' := by
  injection h with h
  subst h
  repeat' first
    | with_reducible exact ⟨rfl, rfl⟩
    | (simp only [Keeps, opportunisticSlice_keeps, and_self]; done)
    | split

theorem execForcedSliceDue_keeps (e : Fin 6) (s : State) (t' : State) (h : execForcedSliceDue e s = .next t') : Keeps s t' := by
  injection h with h
  subst h
  repeat' first
    | with_reducible exact ⟨rfl, rfl⟩
    | (simp only [Keeps, forcedSliceDue_keeps, and_self]; done)
    | split

theorem execForcedSliceStart_keeps (e : Fin 6) (s : State) (t' : State) (h : execForcedSliceStart e s = .next t') : Keeps s t' := by
  injection h with h
  subst h
  repeat' first
    | with_reducible exact ⟨rfl, rfl⟩
    | (simp only [Keeps, forcedSliceStart_keeps, and_self]; done)
    | split

theorem execSliceComplete_keeps (e : Fin 6) (pass : Bool) (s : State) (t' : State) (h : execSliceComplete e pass s = .next t') : Keeps s t' := by
  injection h with h
  subst h
  repeat' first
    | with_reducible exact ⟨rfl, rfl⟩
    | (simp only [Keeps, sliceComplete_keeps, and_self]; done)
    | split

theorem execHbmCalibration_keeps (stack : Fin 4) (ch : Fin 16) (valid : Bool) (s : State) (t' : State) (h : execHbmCalibration stack ch valid s = .next t') : Keeps s t' := by
  injection h with h
  subst h
  repeat' first
    | with_reducible exact ⟨rfl, rfl⟩
    | (simp only [Keeps, calibrate_keeps, and_self]; done)
    | split

theorem execCalibrationWindowTimeout_keeps (stack : Fin 4) (ch : Fin 16) (valid : Bool) (s : State) (t' : State) (h : execCalibrationWindowTimeout stack ch valid s = .next t') : Keeps s t' := by
  injection h with h
  subst h
  repeat' first
    | with_reducible exact ⟨rfl, rfl⟩
    | (simp only [Keeps, calibrate_keeps, and_self]; done)
    | split

theorem execEngineGate_keeps (e : Fin 6) (s : State) (t' : State) (h : execEngineGate e s = .next t') : Keeps s t' := by
  injection h with h
  subst h
  repeat' first
    | with_reducible exact ⟨rfl, rfl⟩
    | (simp only [Keeps, State.modEng_keeps, ite_stores, ite_expCtr, ite_self, and_self]; done)
    | split

theorem execEngineWakeDone_keeps (e : Fin 6) (s : State) (t' : State) (h : execEngineWakeDone e s = .next t') : Keeps s t' := by
  injection h with h
  subst h
  repeat' first
    | with_reducible exact ⟨rfl, rfl⟩
    | (simp only [Keeps, engineWakeDone_keeps, and_self]; done)
    | split

theorem execEclkRelockDone_keeps (e : Fin 6) (s : State) (t' : State) (h : execEclkRelockDone e s = .next t') : Keeps s t' := by
  injection h with h
  subst h
  repeat' first
    | with_reducible exact ⟨rfl, rfl⟩
    | (simp only [Keeps, eclkRelockDone_keeps, and_self]; done)
    | split

theorem execP2Entry_keeps (s : State) (t' : State) (h : execP2Entry s = .next t') : Keeps s t' := by
  injection h with h
  subst h
  repeat' first
    | with_reducible exact ⟨rfl, rfl⟩
    | (simp only [Keeps, enterP2_keeps, and_self]; done)
    | split

theorem execFclkStart_keeps (s : State) (t' : State) (h : execFclkStart s = .next t') : Keeps s t' := by
  injection h with h
  subst h
  repeat' first
    | with_reducible exact ⟨rfl, rfl⟩
    | (simp only [Keeps, fclkStart_keeps, and_self]; done)
    | split

theorem execLimitControlPeriod_keeps (power temp : Nat) (s : State) (t' : State) (h : execLimitControlPeriod power temp s = .next t') : Keeps s t' := by
  injection h with h
  subst h
  repeat' first
    | with_reducible exact ⟨rfl, rfl⟩
    | (simp only [Keeps, limitPeriod_keeps, and_self]; done)
    | split

theorem execOvercurrentAlarm_keeps (s : State) (t' : State) (h : execOvercurrentAlarm s = .next t') : Keeps s t' := by
  injection h with h
  subst h
  repeat' first
    | with_reducible exact ⟨rfl, rfl⟩
    | (simp only [Keeps, ite_stores, ite_expCtr, ite_self, and_self]; done)
    | split

theorem execOvercurrentAlarmClear_keeps (s : State) (t' : State) (h : execOvercurrentAlarmClear s = .next t') : Keeps s t' := by
  injection h with h
  subst h
  repeat' first
    | with_reducible exact ⟨rfl, rfl⟩
    | (simp only [Keeps, ite_stores, ite_expCtr, ite_self, and_self]; done)
    | split

theorem execThermalHold_keeps (temp : Nat) (s : State) (t' : State) (h : execThermalHold temp s = .next t') : Keeps s t' := by
  injection h with h
  subst h
  repeat' first
    | with_reducible exact ⟨rfl, rfl⟩
    | (simp only [Keeps, setDie_keeps, ite_stores, ite_expCtr, ite_self, and_self]; done)
    | split

theorem execThermalRelease_keeps (temp : Nat) (s : State) (t' : State) (h : execThermalRelease temp s = .next t') : Keeps s t' := by
  injection h with h
  subst h
  repeat' first
    | with_reducible exact ⟨rfl, rfl⟩
    | (simp only [Keeps, setDie_keeps, ite_stores, ite_expCtr, ite_self, and_self]; done)
    | split

theorem execThermalTrip_keeps (temp : Nat) (s : State) (t' : State) (h : execThermalTrip temp s = .next t') : Keeps s t' := by
  injection h with h
  subst h
  repeat' first
    | with_reducible exact ⟨rfl, rfl⟩
    | (simp only [Keeps, enterFatal_keeps, railRecord_keeps, setDie_keeps, and_self]; done)
    | split

theorem execTelemetryRefresh_keeps (s : State) (t' : State) (h : execTelemetryRefresh s = .next t') : Keeps s t' := by
  injection h with h
  subst h
  repeat' first
    | with_reducible exact ⟨rfl, rfl⟩
    | (simp only [Keeps, refresh_keeps, ite_stores, ite_expCtr, ite_self, and_self]; done)
    | split

theorem execNonce_keeps (ep : Endpoint) (s : State) (t' : State) (h : execNonce ep s = .next t') : Keeps s t' := by
  injection h with h
  subst h
  repeat' first
    | with_reducible exact ⟨rfl, rfl⟩
    | (simp only [Keeps]; done)
    | (with_reducible refine secAt_keeps _ _ _ _ ?_; try dsimp only)
    | split

theorem execDbgNonce_keeps (s : State) (t' : State) (h : execDbgNonce s = .next t') : Keeps s t' := by
  injection h with h
  subst h
  repeat' first
    | with_reducible exact ⟨rfl, rfl⟩
    | (simp only [Keeps, makeNonce_keeps, ite_stores, ite_expCtr, ite_self, and_self]; done)
    | split

theorem execNonceExpiry_keeps (s : State) (t' : State) (h : execNonceExpiry s = .next t') : Keeps s t' := by
  injection h with h
  subst h
  repeat' first
    | with_reducible exact ⟨rfl, rfl⟩
    | (simp only [Keeps, ite_stores, ite_expCtr, ite_self, and_self]; done)
    | split

theorem execRetire_keeps (ep : Endpoint) (m : BurnMsg) (s : State) (t' : State) (h : execRetire ep m s = .next t') : Keeps s t' := by
  unfold execRetire at h
  try dsimp only at h
  repeat' split at h
  all_goals first
    | (injection h with h; subst h)
    | (injection h; done)
  repeat' first
    | with_reducible exact ⟨rfl, rfl⟩
    | (simp only [Keeps, retireStart_keeps, foldl_keeps, ite_stores, ite_expCtr, ite_self, and_self, implies_true]; done)
    | (refine foldl_keeps _ _ _ fun _ _ => ?_; try dsimp only)
    | (with_reducible refine secAt_keeps _ _ _ _ ?_; try dsimp only)
    | (with_reducible refine awakeAt_keeps _ _ _ ?_; try dsimp only)
    | split

theorem execObserve_keeps (ep : Endpoint) (token : List Byte) (s : State) (t' : State) (h : execObserve ep token s = .next t') : Keeps s t' := by
  injection h with h
  subst h
  repeat' first
    | with_reducible exact ⟨rfl, rfl⟩
    | (simp only [Keeps, observeNow_keeps, and_self]; done)
    | (with_reducible refine secAt_keeps _ _ _ _ ?_; try dsimp only)
    | split

theorem execInvasive_keeps (ep : Endpoint) (token : List Byte) (s : State) (t' : State) (h : execInvasive ep token s = .next t') : Keeps s t' := by
  unfold execInvasive at h
  try dsimp only at h
  repeat' split at h
  all_goals first
    | (injection h with h; subst h)
    | (injection h; done)
  repeat' first
    | with_reducible exact ⟨rfl, rfl⟩
    | (simp only [Keeps, invasiveNow_keeps, foldl_keeps, ite_stores, ite_expCtr, ite_self, and_self, implies_true]; done)
    | (refine foldl_keeps _ _ _ fun _ _ => ?_; try dsimp only)
    | (with_reducible refine secAt_keeps _ _ _ _ ?_; try dsimp only)
    | (with_reducible refine awakeAt_keeps _ _ _ ?_; try dsimp only)
    | split

theorem execClose_keeps (ep : Endpoint) (s : State) (t' : State) (h : execClose ep s = .next t') : Keeps s t' := by
  injection h with h
  subst h
  repeat' first
    | with_reducible exact ⟨rfl, rfl⟩
    | (simp only [Keeps, accepted_keeps, closeDebug_keeps, and_self]; done)
    | (with_reducible refine secAt_keeps _ _ _ _ ?_; try dsimp only)
    | split

theorem execDbgAuth_keeps (m : BurnMsg) (s : State) (t' : State) (h : execDbgAuth m s = .next t') : Keeps s t' := by
  unfold execDbgAuth at h
  try dsimp only at h
  repeat' split at h
  all_goals first
    | (injection h with h; subst h)
    | (injection h; done)
  repeat' first
    | with_reducible exact ⟨rfl, rfl⟩
    | (simp only [Keeps, dbgAuth_keeps, foldl_keeps, ite_stores, ite_expCtr, ite_self, and_self, implies_true]; done)
    | (refine foldl_keeps _ _ _ fun _ _ => ?_; try dsimp only)
    | (with_reducible refine awakeAt_keeps _ _ _ ?_; try dsimp only)
    | split

theorem execTestLogicReset_keeps (s : State) (t' : State) (h : execTestLogicReset s = .next t') : Keeps s t' := by
  injection h with h
  subst h
  repeat' first
    | with_reducible exact ⟨rfl, rfl⟩
    | (simp only [Keeps, closeDebug_keeps, and_self]; done)
    | split

theorem execExtest_keeps (i : ScanInstr) (s : State) (t' : State) (h : execExtest i s = .next t') : Keeps s t' := by
  injection h with h
  subst h
  repeat' first
    | with_reducible exact ⟨rfl, rfl⟩
    | (simp only [Keeps, ite_stores, ite_expCtr, ite_self, and_self]; done)
    | split

theorem execSqTailDoorbell_keeps (f : FuncId) (off size : Nat) (data : Word) (s : State) (t' : State) (h : execSqTailDoorbell f off size data s = .next t') : Keeps s t' := by
  injection h with h
  subst h
  repeat' first
    | with_reducible exact ⟨rfl, rfl⟩
    | (simp only [Keeps, bar2Write_keeps, and_self, implies_true]; done)
    | (with_reducible refine served_keeps _ _ _ ?_; try dsimp only)
    | split

theorem execCqHeadDoorbell_keeps (f : FuncId) (off size : Nat) (data : Word) (s : State) (t' : State) (h : execCqHeadDoorbell f off size data s = .next t') : Keeps s t' := by
  injection h with h
  subst h
  repeat' first
    | with_reducible exact ⟨rfl, rfl⟩
    | (simp only [Keeps, bar2Write_keeps, and_self, implies_true]; done)
    | (with_reducible refine served_keeps _ _ _ ?_; try dsimp only)
    | split

theorem execAdminDeletionDone_keeps (f : FuncId) (s : State) (t' : State) (h : execAdminDeletionDone f s = .next t') : Keeps s t' := by
  injection h with h
  subst h
  repeat' first
    | with_reducible exact ⟨rfl, rfl⟩
    | (simp only [Keeps, State.modFn_keeps, ite_stores, ite_expCtr, ite_self, and_self]; done)
    | split

theorem execMsixUnmask_keeps (f : FuncId) (vec : Nat) (s : State) (t' : State) (h : execMsixUnmask f vec s = .next t') : Keeps s t' := by
  injection h with h
  subst h
  repeat' first
    | with_reducible exact ⟨rfl, rfl⟩
    | (simp only [Keeps, setVec_keeps, and_self, implies_true]; done)
    | (with_reducible refine served_keeps _ _ _ ?_; try dsimp only)
    | split

theorem execWfuPrefetchIssue_keeps (e : Fin 6) (s : State) (t' : State) (h : execWfuPrefetchIssue e s = .next t') : Keeps s t' := by
  injection h with h
  subst h
  repeat' first
    | with_reducible exact ⟨rfl, rfl⟩
    | (simp only [Keeps, wfuIssue_keeps, and_self]; done)
    | split

theorem execWfuEntryComplete_keeps (e : Fin 6) (entry : Nat) (s : State) (t' : State) (h : execWfuEntryComplete e entry s = .next t') : Keeps s t' := by
  injection h with h
  subst h
  repeat' first
    | with_reducible exact ⟨rfl, rfl⟩
    | (simp only [Keeps, wfuComplete_keeps, and_self]; done)
    | split

theorem execMaPass_keeps (e : Fin 6) (p : PassDesc) (s : State) (t' : State) (h : execMaPass e p s = .next t') : Keeps s t' := by
  unfold execMaPass at h
  try dsimp only at h
  repeat' split at h
  all_goals first
    | (injection h with h; subst h)
    | (injection h; done)
  repeat' first
    | with_reducible exact ⟨rfl, rfl⟩
    | (simp only [Keeps, maPass_keeps, foldl_keeps, ite_stores, ite_expCtr, ite_self, and_self, implies_true]; done)
    | (refine foldl_keeps _ _ _ fun _ _ => ?_; try dsimp only)
    | split

theorem execTagAcquire_keeps (e : Fin 6) (unit : EUnit) (op : OpRef) (acts : List TagAct) (s : State) (t' : State) (h : execTagAcquire e unit op acts s = .next t') : Keeps s t' := by
  unfold execTagAcquire at h
  try dsimp only at h
  repeat' split at h
  all_goals first
    | (injection h with h; subst h)
    | (injection h; done)
  repeat' first
    | with_reducible exact ⟨rfl, rfl⟩
    | (simp only [Keeps, tagAcquire_keeps, foldl_keeps, ite_stores, ite_expCtr, ite_self, and_self, implies_true]; done)
    | (refine foldl_keeps _ _ _ fun _ _ => ?_; try dsimp only)
    | split

theorem execDescriptorBarrier_keeps (e : Fin 6) (b : BarrierRef) (s : State) (t' : State) (h : execDescriptorBarrier e b s = .next t') : Keeps s t' := by
  unfold execDescriptorBarrier at h
  try dsimp only at h
  repeat' split at h
  all_goals first
    | (injection h with h; subst h)
    | (injection h; done)
  repeat' first
    | with_reducible exact ⟨rfl, rfl⟩
    | (simp only [Keeps, barrier_keeps, foldl_keeps, ite_stores, ite_expCtr, ite_self, and_self, implies_true]; done)
    | (refine foldl_keeps _ _ _ fun _ _ => ?_; try dsimp only)
    | split

theorem execSlotTimeout_keeps (p : EpochRef) (s : State) (t' : State) (h : execSlotTimeout p s = .next t') : Keeps s t' := by
  unfold execSlotTimeout at h
  try dsimp only at h
  repeat' split at h
  all_goals first
    | (injection h with h; subst h)
    | (injection h; done)
  repeat' first
    | with_reducible exact ⟨rfl, rfl⟩
    | (simp only [Keeps, slotTimeout_keeps, foldl_keeps, ite_stores, ite_expCtr, ite_self, and_self, implies_true]; done)
    | (refine foldl_keeps _ _ _ fun _ _ => ?_; try dsimp only)
    | split

theorem execScratchpadAccess_keeps (e : Fin 6) (a : Access) (c : Option CmdRef) (upset : List (Nat × GState)) (s : State) (t' : State) (h : execScratchpadAccess e a c upset s = .next t') : Keeps s t' := by
  unfold execScratchpadAccess at h
  try dsimp only at h
  repeat' split at h
  all_goals first
    | (injection h with h; subst h)
    | (injection h; done)
  repeat' first
    | with_reducible exact ⟨rfl, rfl⟩
    | (simp only [Keeps, access_keeps, and_self]; done)
    | split

theorem execGetVersion_keeps (t : Transport) (s : State) (t' : State) (h : execGetVersion t s = .next t') : Keeps s t' := by
  injection h with h
  subst h
  repeat' first
    | with_reducible exact ⟨rfl, rfl⟩
    | (simp only [Keeps]; done)
    | (with_reducible refine spdmAt_keeps _ _ _ _ _ ?_; try dsimp only)
    | split

theorem execGetCapabilities_keeps (t : Transport) (s : State) (t' : State) (h : execGetCapabilities t s = .next t') : Keeps s t' := by
  injection h with h
  subst h
  repeat' first
    | with_reducible exact ⟨rfl, rfl⟩
    | (simp only [Keeps]; done)
    | (with_reducible refine spdmAt_keeps _ _ _ _ _ ?_; try dsimp only)
    | (with_reducible refine needs_keeps _ _ _ _ ?_; try dsimp only)
    | split

theorem execNegotiateAlgorithms_keeps (t : Transport) (s : State) (t' : State) (h : execNegotiateAlgorithms t s = .next t') : Keeps s t' := by
  injection h with h
  subst h
  repeat' first
    | with_reducible exact ⟨rfl, rfl⟩
    | (simp only [Keeps]; done)
    | (with_reducible refine spdmAt_keeps _ _ _ _ _ ?_; try dsimp only)
    | (with_reducible refine needs_keeps _ _ _ _ ?_; try dsimp only)
    | split

theorem execGetDigests_keeps (t : Transport) (s : State) (t' : State) (h : execGetDigests t s = .next t') : Keeps s t' := by
  injection h with h
  subst h
  repeat' first
    | with_reducible exact ⟨rfl, rfl⟩
    | (simp only [Keeps]; done)
    | (with_reducible refine spdmAt_keeps _ _ _ _ _ ?_; try dsimp only)
    | (with_reducible refine negotiated_keeps _ _ _ ?_; try dsimp only)
    | split

theorem execGetCertificate_keeps (t : Transport) (slot off len : Nat) (s : State) (t' : State) (h : execGetCertificate t slot off len s = .next t') : Keeps s t' := by
  injection h with h
  subst h
  repeat' first
    | with_reducible exact ⟨rfl, rfl⟩
    | (simp only [Keeps, spdmSend_keeps, spdmError_keeps, ite_stores, ite_expCtr, ite_self, and_self]; done)
    | (with_reducible refine spdmAt_keeps _ _ _ _ _ ?_; try dsimp only)
    | (with_reducible refine negotiated_keeps _ _ _ ?_; try dsimp only)
    | split

theorem execGetMeasurements_keeps (t : Transport) (index : Nat) (nonce : List Byte) (s : State) (t' : State) (h : execGetMeasurements t index nonce s = .next t') : Keeps s t' := by
  injection h with h
  subst h
  repeat' first
    | with_reducible exact ⟨rfl, rfl⟩
    | (simp only [Keeps, getMeasurements_keeps, and_self]; done)
    | (with_reducible refine spdmAt_keeps _ _ _ _ _ ?_; try dsimp only)
    | (with_reducible refine negotiated_keeps _ _ _ ?_; try dsimp only)
    | split

theorem execChallenge_keeps (t : Transport) (slot : Nat) (nonce : List Byte) (s : State) (t' : State) (h : execChallenge t slot nonce s = .next t') : Keeps s t' := by
  injection h with h
  subst h
  repeat' first
    | with_reducible exact ⟨rfl, rfl⟩
    | (simp only [Keeps, challenge_keeps, and_self]; done)
    | (with_reducible refine spdmAt_keeps _ _ _ _ _ ?_; try dsimp only)
    | (with_reducible refine negotiated_keeps _ _ _ ?_; try dsimp only)
    | split

theorem execKeyExchange_keeps (t : Transport) (reqId : BitVec 16) (heartbeat : Nat) (s : State) (t' : State) (h : execKeyExchange t reqId heartbeat s = .next t') : Keeps s t' := by
  injection h with h
  subst h
  repeat' first
    | with_reducible exact ⟨rfl, rfl⟩
    | (simp only [Keeps, keyExchange_keeps, and_self]; done)
    | (with_reducible refine spdmAt_keeps _ _ _ _ _ ?_; try dsimp only)
    | (with_reducible refine negotiated_keeps _ _ _ ?_; try dsimp only)
    | split

theorem execFinish_keeps (t : Transport) (id : Nat) (ok : Bool) (key iv : List Byte) (s : State) (t' : State) (h : execFinish t id ok key iv s = .next t') : Keeps s t' := by
  injection h with h
  subst h
  repeat' first
    | with_reducible exact ⟨rfl, rfl⟩
    | (simp only [Keeps, finishSession_keeps, and_self]; done)
    | (with_reducible refine spdmAt_keeps _ _ _ _ _ ?_; try dsimp only)
    | split

theorem execHeartbeat_keeps (t : Transport) (id : Nat) (s : State) (t' : State) (h : execHeartbeat t id s = .next t') : Keeps s t' := by
  injection h with h
  subst h
  repeat' first
    | with_reducible exact ⟨rfl, rfl⟩
    | (simp only [Keeps]; done)
    | (with_reducible refine spdmAt_keeps _ _ _ _ _ ?_; try dsimp only)
    | (with_reducible refine inSession_keeps _ _ _ _ _ fun _ _ => ?_; try dsimp only)
    | split

theorem execHeartbeatTimeout_keeps (t : Transport) (id : Nat) (s : State) (t' : State) (h : execHeartbeatTimeout t id s = .next t') : Keeps s t' := by
  injection h with h
  subst h
  repeat' first
    | with_reducible exact ⟨rfl, rfl⟩
    | (simp only [Keeps, dropSession_keeps, ite_stores, ite_expCtr, ite_self, and_self]; done)
    | split

theorem execKeyUpdate_keeps (t : Transport) (id : Nat) (key iv : List Byte) (s : State) (t' : State) (h : execKeyUpdate t id key iv s = .next t') : Keeps s t' := by
  injection h with h
  subst h
  repeat' first
    | with_reducible exact ⟨rfl, rfl⟩
    | (simp only [Keeps]; done)
    | (with_reducible refine spdmAt_keeps _ _ _ _ _ ?_; try dsimp only)
    | (with_reducible refine inSession_keeps _ _ _ _ _ fun _ _ => ?_; try dsimp only)
    | split

theorem execEndSession_keeps (t : Transport) (id : Nat) (s : State) (t' : State) (h : execEndSession t id s = .next t') : Keeps s t' := by
  injection h with h
  subst h
  repeat' first
    | with_reducible exact ⟨rfl, rfl⟩
    | (simp only [Keeps]; done)
    | (with_reducible refine spdmAt_keeps _ _ _ _ _ ?_; try dsimp only)
    | (with_reducible refine inSession_keeps _ _ _ _ _ fun _ _ => ?_; try dsimp only)
    | split

theorem execSpdmUnsupportedRequest_keeps (t : Transport) (code : BitVec 8) (s : State) (t' : State) (h : execSpdmUnsupportedRequest t code s = .next t') : Keeps s t' := by
  injection h with h
  subst h
  repeat' first
    | with_reducible exact ⟨rfl, rfl⟩
    | (simp only [Keeps, spdmError_keeps, ite_stores, ite_expCtr, ite_self, and_self]; done)
    | split

theorem execPcpChannel_keeps (ep : Endpoint) (packet : List Byte) (s : State) (t' : State) (h : execPcpChannel ep packet s = .next t') : Keeps s t' := by
  unfold execPcpChannel at h
  try dsimp only at h
  repeat' split at h
  all_goals first
    | (injection h with h; subst h)
    | (injection h; done)
  repeat' first
    | with_reducible exact ⟨rfl, rfl⟩
    | (simp only [Keeps, pcpPacket_keeps, foldl_keeps, ite_stores, ite_expCtr, ite_self, and_self, implies_true]; done)
    | (refine foldl_keeps _ _ _ fun _ _ => ?_; try dsimp only)
    | (with_reducible refine channelAwake_keeps _ _ _ _ ?_; try dsimp only)
    | split

theorem execChannelReset_keeps (ep : Endpoint) (newE : Nat) (s : State) (t' : State) (h : execChannelReset ep newE s = .next t') : Keeps s t' := by
  unfold execChannelReset at h
  try dsimp only at h
  repeat' split at h
  all_goals first
    | (injection h with h; subst h)
    | (injection h; done)
  repeat' first
    | with_reducible exact ⟨rfl, rfl⟩
    | (simp only [Keeps, channelResetNow_keeps, foldl_keeps, ite_stores, ite_expCtr, ite_self, and_self, implies_true]; done)
    | (refine foldl_keeps _ _ _ fun _ _ => ?_; try dsimp only)
    | (with_reducible refine channelAwake_keeps _ _ _ _ ?_; try dsimp only)
    | split

theorem execMctpControl_keeps (ep : Endpoint) (code : BitVec 8) (s : State) (t' : State) (h : execMctpControl ep code s = .next t') : Keeps s t' := by
  injection h with h
  subst h
  repeat' first
    | with_reducible exact ⟨rfl, rfl⟩
    | (simp only [Keeps, sendMctp_keeps, ite_stores, ite_expCtr, ite_self, and_self]; done)
    | split

theorem execUnknownVendorSubtype_keeps (sub : BitVec 8) (s : State) (t' : State) (h : execUnknownVendorSubtype sub s = .next t') : Keeps s t' := by
  injection h with h
  subst h
  repeat' first
    | with_reducible exact ⟨rfl, rfl⟩
    | (simp only [Keeps, ite_stores, ite_expCtr, ite_self, and_self]; done)
    | split

theorem execPldmSensorRead_keeps (ep : Endpoint) (id : Nat) (s : State) (t' : State) (h : execPldmSensorRead ep id s = .next t') : Keeps s t' := by
  injection h with h
  subst h
  repeat' first
    | with_reducible exact ⟨rfl, rfl⟩
    | (simp only [Keeps, ite_stores, ite_expCtr]; done)
    | split

theorem execPldmDiscovery_keeps (ep : Endpoint) (code : BitVec 8) (s : State) (t' : State) (h : execPldmDiscovery ep code s = .next t') : Keeps s t' := by
  injection h with h
  subst h
  repeat' first
    | with_reducible exact ⟨rfl, rfl⟩
    | (simp only [Keeps, pldmReply_keeps, ite_stores, ite_expCtr, ite_self, and_self]; done)
    | split

theorem execSensorThresholdCrossing_keeps (sensor : Nat) (value : Nat) (s : State) (t' : State) (h : execSensorThresholdCrossing sensor value s = .next t') : Keeps s t' := by
  injection h with h
  subst h
  repeat' first
    | with_reducible exact ⟨rfl, rfl⟩
    | (simp only [Keeps, sendEvent_keeps, and_self]; done)
    | split

theorem execPldmP2enEffecter_keeps (ep : Endpoint) (value : Bool) (s : State) (t' : State) (h : execPldmP2enEffecter ep value s = .next t') : Keeps s t' := by
  injection h with h
  subst h
  repeat' first
    | with_reducible exact ⟨rfl, rfl⟩
    | (simp only [Keeps, pldmReply_keeps, setP2en_keeps, and_self]; done)
    | (with_reducible refine effecterAt_keeps _ _ _ _ ?_; try dsimp only)
    | split

theorem execSetEventReceiver_keeps (ep : Endpoint) (eid : BitVec 8) (s : State) (t' : State) (h : execSetEventReceiver ep eid s = .next t') : Keeps s t' := by
  injection h with h
  subst h
  repeat' first
    | with_reducible exact ⟨rfl, rfl⟩
    | (simp only [Keeps, pldmReply_keeps, ite_stores, ite_expCtr, ite_self, and_self]; done)
    | split

theorem execRequestUpdate_keeps (ep : Endpoint) (s : State) (t' : State) (h : execRequestUpdate ep s = .next t') : Keeps s t' := by
  injection h with h
  subst h
  repeat' first
    | with_reducible exact ⟨rfl, rfl⟩
    | (simp only [Keeps, pldmReply_keeps, ite_stores, ite_expCtr, ite_self, and_self]; done)
    | (with_reducible refine updateAt_keeps _ _ _ _ ?_; try dsimp only)
    | split

theorem execVerifyComplete_keeps (ep : Endpoint) (s : State) (t' : State) (h : execVerifyComplete ep s = .next t') : Keeps s t' := by
  injection h with h
  subst h
  repeat' first
    | with_reducible exact ⟨rfl, rfl⟩
    | (simp only [Keeps]; done)
    | (with_reducible refine updateAt_keeps _ _ _ _ ?_; try dsimp only)
    | split

theorem execDebugAccess_keeps (op : DebugOp) (s : State) (t' : State) (h : execDebugAccess op s = .next t') : Keeps s t' := by
  unfold execDebugAccess at h
  try dsimp only at h
  repeat' split at h
  all_goals first
    | (injection h with h; subst h)
    | (injection h; done)
  repeat' first
    | with_reducible exact ⟨rfl, rfl⟩
    | (simp only [Keeps, debugDo_keeps, and_self]; done)
    | split

theorem execStreamImport_keeps (c : CmdRef) (s t : State) (h : execStreamImport c s = .next t) : Keeps s t := by
  injection h with h
  subst h
  refine streamAt_keeps _ _ _ _ fun d n p => ?_
  repeat' split
  all_goals first
    | exact ⟨rfl, rfl⟩
    | exact wrongState_keeps ..
    | exact importGo_keeps ..
    | exact failCmd_keeps ..
    | (next hx => exact (importChecks_keeps _ _ _ _ _ hx).keeps.trans (importGo_keeps ..))

theorem execPldmEffecterWrite_keeps (ep : Endpoint) (id value : Nat) (s t : State)
    (h : execPldmEffecterWrite ep id value s = .next t) : Keeps s t := by
  injection h with h
  subst h
  refine effecterAt_keeps _ _ _ _ ?_
  split
  · next hx => exact (effect_keeps hx).trans (pldmReply_keeps ..)
  · exact pldmReply_keeps ..

end Sys2Proof.Machine
end

