-- ==== Sys2Proof/Laws/Turns.lean ====
section
/-!
SUPPORT. A command at its turn: what the guards of a meaning come to, when it completes, and what running an operation on a
ready engine leaves.
-/

namespace Sys2Proof.Machine

theorem turn_facts {s : State} {c : CmdRef} {op : Nat} {d : Cmd} (h : Turn s c op d) (k : Cmd → State) :
    atTurn c op s k = k d := by
  obtain ⟨h1, h2, h3, -⟩ := h
  simp [atTurn, h1, h2, h3]

theorem turn_commit {s : State} {c : CmdRef} {op : Nat} {d : Cmd} (h : Turn s c op d) (k : State) : commitAt s d k = k := by
  simp [commitAt, h.2.2.2]

theorem plotFor_in {s : State} {d : Cmd} {n : Nat} {p : Plot} (h : InPlot s d n p) : plotFor s d = some (n, p) := by
  simp [plotFor, h.1, h.2]

theorem done_endCmd (s u : State) (d : Cmd) (r : Reply) (i : Instr) (h : exec i s = .next (endCmd u d r)) (k : r.status = .ok) :
    Done i s u d r := ⟨_, h, endCmd_ended .., endCmd_repliesOnly _ _ _ k⟩

theorem endsFrom_endCmd (s u : State) (d : Cmd) (r : Reply) (i : Instr) (h : exec i s = .next (endCmd u d r)) : EndsFrom i s u d r :=
  ⟨_, h, endCmd_ended .., endsOnly_endCmd ..⟩

theorem endsAs_endCmd (s : State) (d : Cmd) (r : Reply) (i : Instr) (h : exec i s = .next (endCmd s d r)) : EndsAs i s d r :=
  endsFrom_endCmd _ _ _ _ _ h

theorem foldl_drain (l : List Nat) (hl : l.Nodup) (s : State) (c : Option Cmd) (i : Nat) :
    ((l.foldl (fun t e => drainEngine t e c) s).eng i).spad = if i ∈ l then (s.eng i).spad.drain.1 else (s.eng i).spad := by
  induction l generalizing s with
  | nil => simp
  | cons e l ih =>
    obtain ⟨hn, hl⟩ := List.nodup_cons.1 hl
    rw [List.foldl_cons, ih hl, drainEngine_spad]
    by_cases h : i = e
    · subst h
      rw [if_neg hn, if_pos rfl, if_pos List.mem_cons_self]
    · rw [if_neg h]
      simp [h]

theorem maskList_nodup (m : Nat) : (maskList m).Nodup := List.Nodup.filter _ List.nodup_range

theorem setScalars_get (m : Map Nat) (hm : mwf m = true) (first : Nat) (l : List Nat) (i : Nat) :
    (mget (setScalars m first l) i).getD 0 =
      if first ≤ i ∧ i < first + l.length then (l[i - first]?).getD 0 else (mget m i).getD 0 := by
  induction l generalizing m first with
  | nil => simp [setScalars]
  | cons v l ih =>
    unfold setScalars
    have hm' : mwf (if v = 0 then mdel m first else mput m first v) = true := by
      split
      · exact mdel_wf _ _ hm
      · exact mput_wf _ _ _ hm
    rw [ih _ hm']
    have hg : (mget (if v = 0 then mdel m first else mput m first v) i).getD 0 = if i = first then v else (mget m i).getD 0 := by
      split
      · next h => rw [mget_mdel _ _ _ hm]; split <;> simp [h]
      · rw [mget_mput]; split <;> simp
    rw [hg]
    by_cases h1 : i = first
    · subst h1; simp
    · by_cases h2 : first + 1 ≤ i ∧ i < first + 1 + l.length
      · rw [if_pos h2, if_pos (by simp; omega)]
        have : i - first = (i - (first + 1)) + 1 := by omega
        rw [this]; simp
      · rw [if_neg h2, if_neg h1, if_neg (by simp; omega)]

theorem abandonSlice_none (s : State) (e : Nat) (h : (s.eng e).slice = none) : abandonSlice s e = s := by
  unfold abandonSlice; simp [h]

theorem engineReady_facts {s : State} {e : Nat} (h : engineReady s e = true) : (s.eng e).power = .running ∧ (s.eng e).failed = false := by
  unfold engineReady at h
  simp only [Bool.and_eq_true, beq_iff_eq, Bool.not_eq_true'] at h
  exact ⟨h.1.1.1.1.1.1, h.1.1.1.1.2⟩

theorem prepare_one (s : State) (e : Nat) (h : engineReady s e = true) (k : (s.eng e).slice = none) : prepare s [e] = s := by
  simp only [prepare, List.foldl_cons, List.foldl_nil, abandonSlice_none s e k]
  unfold wakeEngine
  simp [(engineReady_facts h).1]

theorem onEngines_one (s : State) (e : Nat) (k : State → State) (h : engineReady s e = true) (hs : (s.eng e).slice = none) :
    onEngines s [e] k = k s := by
  unfold onEngines
  rw [prepare_one s e h hs]
  simp [h]

theorem endCmd_eng (u : State) (d : Cmd) (r : Reply) (e : Nat) : (endCmd u d r).eng e = u.eng e := by
  obtain ⟨_, _, _, _, _, _, _, _, hh⟩ := ends_endCmd u d r
  rw [hh]; rfl

theorem touchEngine_spad (u : State) (e i : Nat) : ((touchEngine u e).eng i).spad = (u.eng i).spad := by
  unfold touchEngine
  extract_lets j t
  show (t.eng i).spad = _
  by_cases h : i = e
  · subst h; simp only [t, State.eng_modEng]
  · simp only [t, State.modEng, State.eng_setEng_other _ _ _ _ h]

theorem touchEngine_plots (u : State) (e : Nat) : (touchEngine u e).plots = u.plots := by
  unfold touchEngine; rfl

theorem runOn_spad {α : Type} (s : State) (e : Nat) (c : Cmd) (m : OpM α) :
    ((runOn s e c m).2.2.eng e).spad = (m (opStart (s.eng e).spad)).2.sp ∧ (runOn s e c m).1 = (m (opStart (s.eng e).spad)).1 ∧
      ∀ n, (mget (runOn s e c m).2.2.plots n).map Plot.sansLog = (mget s.plots n).map Plot.sansLog := by
  unfold runOn
  dsimp only
  refine ⟨?_, rfl, fun n => ?_⟩
  · rw [touchEngine_spad, (notes_applyTrace ..).eng]
    simp
  · rw [touchEngine_plots, (notes_applyTrace ..).plots n, State.setEng_plots]

theorem touchEngine_other (u : State) (e i : Nat) (h : i ≠ e) : (touchEngine u e).eng i = u.eng i := by
  unfold touchEngine
  extract_lets j t
  show t.eng i = _
  simp only [t, State.modEng, State.eng_setEng_other _ _ _ _ h]

/-- What an engine runs changes no other engine. -/
theorem runOn_other {α : Type} (s : State) (e i : Nat) (c : Cmd) (m : OpM α) (h : i ≠ e) : (runOn s e c m).2.2.eng i = s.eng i := by
  unfold runOn
  dsimp only
  rw [touchEngine_other _ _ _ h, (notes_applyTrace ..).eng, State.eng_setEng_other _ _ _ _ h]

end Sys2Proof.Machine
end

