-- ==== Sys2Proof/Laws/Registers.lean ====
section
/-!
SUPPORT. Host writes: what a served write reaches, and what the register operations and the deletion of queues leave alone.
-/

namespace Sys2Proof.Machine

variable {s : State} {f : FuncId}

variable {s : State} {f : FuncId}

theorem served_yes (h : mmioServed s f = true) (k : State → State) : served s f k = k (touchPort s f.port.val) := by
  simp [served, h]

theorem touchPort_fn (p : Nat) : (touchPort s p).fn f = s.fn f := rfl

theorem touchPort_queue (p : Nat) (src : Src) : (touchPort s p).queue src = s.queue src := by cases src <;> rfl

theorem doorbellWake_queue (src : Src) : (doorbellWake s f).queue src = s.queue src := by
  have hw : ∀ (u : State) (e : Nat), (wakeEngine u e).queue src = u.queue src := by
    intro u e; unfold wakeEngine; dsimp only; split <;> cases src <;> rfl
  have he : (wakeEvent s).queue src = s.queue src := by unfold wakeEvent; split <;> cases src <;> rfl
  unfold doorbellWake
  split
  · unfold wakePlot
    split
    · next p hp =>
      rw [← he]
      generalize inService (wakeEvent s) p = l
      generalize wakeEvent s = u
      induction l generalizing u with
      | nil => rfl
      | cons e l ih => exact (ih _).trans (hw _ _)
    · exact he
  · exact he

/-- an 8-byte write -/

theorem bar0_eight (u : State) (off v : Nat) (ho : off % 8 = 0) (hv : v < 2 ^ 64) (hr : (bar0Reg u f off).isSome) :
    bar0Write u f off 8 v = regWrite u f off (2 ^ 64 - 1) v := by
  have h8 : off / 8 * 8 = off := by omega
  unfold bar0Write alignedWrite
  rw [h8, writeMask_whole, writeValue_whole _ _ hv]
  obtain ⟨r, hr⟩ := Option.isSome_iff_exists.1 hr
  simp [ho, hr]

theorem adminCtl_eight (u : State) (v : Nat) (hv : v < 2 ^ 64) : bar0Write u f 0x428 8 v = adminCtl u f (2 ^ 64 - 1) v := by
  rw [bar0_eight u 0x428 v (by decide) hv (by simp [bar0Reg])]
  simp [regWrite, adminRegWrite]

theorem bit0_mask : bitOf (2 ^ 64 - 1) 0 = true := by decide

theorem adminResume_active (u : State) (f : FuncId) (x : Queue) (h : mget (u.fn f).queues 0 = some x) (k : x.qstate = .active) :
    adminResume u f = u := by
  unfold adminResume
  rw [h]
  simp [k]

theorem fn_touch (p : Nat) (s : State) (f : FuncId) : (touchPort s p).fn f = s.fn f := rfl

theorem adminCreate_ok (x : Func) (h : adminWindowsOk x = true) :
    adminCreate x = { x with enable := true, queues := mput x.queues 0 (adminQueue x) } := by simp [adminCreate, h]

theorem adminCreate_bad (x : Func) (h : adminWindowsOk x = false) : adminCreate x = { x with cfgErr := true } := by
  simp [adminCreate, h]

/-- what ENABLE = 1 does before RESUME -/

theorem adminEnable_on (u : State) (f : FuncId) (v : Nat) (hv : bitOf v 0 = true) (he : (u.fn f).enable = false)
    (hb : (u.fn f).busy = false) (hx : u.secure.erasing = none) :
    adminCtl u f (2 ^ 64 - 1) v =
      let w := (if bitOf v 3 then u.modFn f fun x => { x with cfgErr := false } else u).modFn f adminCreate
      if bitOf v 1 then adminResume w f else w := by
  unfold adminCtl
  rw [bit0_mask, hv, hb, hx]
  cases h3 : bitOf v 3 <;> simp [adminEnable, hv, he]

theorem adminResume_out (u : State) (f : FuncId) (h : ∀ x, mget (u.fn f).queues 0 = some x → (u.fn f).enable = true → x.qstate = .active) :
    adminResume u f = u := by
  unfold adminResume
  split
  · next x hx =>
    cases he : (u.fn f).enable
    · simp
    · simp [h x hx he]
  · rfl

theorem foldl_out {α : Type} (g : State → α → State) (l : List α) (s : State) (h : ∀ t x, (g t x).out = t.out) : (l.foldl g s).out = s.out := by
  induction l generalizing s with
  | nil => rfl
  | cons x l ih => exact (ih _).trans (h s x)

theorem undoStop_out (s : State) (c : Cmd) : (undoStop s c).out = s.out := by
  unfold undoStop
  split
  · simp
  · extract_lets p
    split <;> rfl
  · rfl

theorem replies_foldl {α : Type} (g : State → α → State) (l : List α) (s : State) (h : ∀ t x, State.sameReplies t (g t x)) :
    s.sameReplies (l.foldl g s) := by
  induction l generalizing s with
  | nil => exact rfl
  | cons x l ih => exact (ih _).trans (h s x)

theorem endOn_replies (c : Cmd) (s : State) (e : Nat) : s.sameReplies (endOn c s e) := by
  unfold endOn
  extract_lets x mine used
  split
  · unfold drainEngine
    extract_lets z r
    exact (notes_applyTrace ..).replies.trans rfl
  · exact rfl

theorem endWork_replies (s : State) (c : Cmd) : s.sameReplies (endWork s c) := by
  unfold endWork
  split
  · exact replies_foldl _ _ _ fun _ _ => endOn_replies ..
  · exact rfl

theorem dropCmd_replies (s : State) (c : Cmd) : s.sameReplies (dropCmd s c) := by
  unfold dropCmd
  extract_lets t
  have ht : s.sameReplies t := endWork_replies ..
  clear_value t
  unfold State.sameReplies
  rw [undoStop_out]
  split
  · exact Eq.trans (congrArg _ (foldl_out _ _ _ fun _ _ => rfl)) ht
  · exact ht

/-- The end of a function's queues sends no reply and no shadow write (R349). -/
theorem deleteQueues_replies (s : State) (f : FuncId) : s.sameReplies (deleteQueues s f) := by
  unfold deleteQueues
  exact replies_foldl _ _ _ dropCmd_replies

theorem deleteQueues_queues (s : State) (f : FuncId) : ((deleteQueues s f).fn f).queues = [] := by
  unfold deleteQueues
  extract_lets mine t
  exact congrArg Func.queues (State.fn_modFn t f fun x => { x with queues := [] })

theorem sends_queue {s t : State} (h : Sends s t) (src : Src) (x : Queue) (k : s.queue src = some x)
    (n : src = .bmc → s.pcpReset = none) : ∃ y, t.queue src = some y ∧ y.inner = x.inner := by
  obtain ⟨y, hy, hi⟩ := Option.map_eq_some_iff.1 ((h.queue src n).trans (by rw [k]; rfl))
  exact ⟨y, hy, hi⟩

theorem resumeQueue_queue (s : State) (src : Src) (x : Queue) (k : s.queue src = some x) (n : src = .bmc → s.pcpReset = none) :
    ∃ y, (resumeQueue s src).queue src = some y ∧ y.qstate = .active ∧ y.byRing = false ∧ y.e = x.e ∧ y.sqHead = x.sqHead := by
  unfold resumeQueue
  extract_lets t
  have ht : t.queue src = some { x with qstate := .active, byRing := false, owed := x.owed || !s.gatehouseUp } := by
    simp only [t, State.queue_modQueue, k, Option.map_some]
  have hs : Sends t (if s.gatehouseUp = true then touchShadow t src else t) := by
    split
    · exact sends_touchShadow ..
    · exact Sends.refl _
  obtain ⟨y, hy, hi⟩ := sends_queue hs src _ ht (fun e => (State.modQueue_pcpReset ..).trans (n e))
  refine ⟨y, hy, ?_⟩
  simp only [Queue.inner, Queue.mk.injEq] at hi
  simp_all

theorem fold_same {α β : Type} (π : State → β) (g : State → α → State) (l : List α) (s : State) (h : ∀ t x, π (g t x) = π t) :
    π (l.foldl g s) = π s := by
  induction l generalizing s with
  | nil => rfl
  | cons x l ih => exact (ih _).trans (h s x)

theorem retarget_plots (s : State) (e : Nat) : (retarget s e).plots = s.plots := by
  unfold retarget; dsimp only; split
  · split <;> rfl
  · rfl

theorem pwr_wakes (u : State) (v : Nat) (h2 : u.p2 = .inP2) (h : hits (2 ^ 64 - 1) v 1 = true ∨ bitOf v 0 = false) :
    pwrCtlWrite u (2 ^ 64 - 1) v =
      { u with power := u.power.write (v % 2 ^ 64), p2Cond := if (u.power.write (v % 2 ^ 64)).p2en then u.p2Cond else none,
               p2 := .waking u.lclk, pins := { u.pins with fabRet := false } } := by
  unfold pwrCtlWrite
  have hc : (hits (2 ^ 64 - 1) v 1 || (bitOf (2 ^ 64 - 1) 0 && !bitOf v 0)) = true := by
    rcases h with h | h
    · rw [h]; rfl
    · rw [h, bit0_mask]; simp
  rw [hc, merge_whole]
  simp only [if_true, wakeFromP2, wakeEvent, h2, beq_self_eq_true]

theorem regWrite_pwr (u : State) (f : FuncId) (m v : Nat) (h : u.designated f = true) : regWrite u f 0x700 m v = pwrCtlWrite u m v := by
  simp [regWrite, h]

theorem foldl_keeper_ctl (l : List Nat) (u : State) (a b : Nat) : (l.foldl (keeperBit a b) u).keeper.ctl = u.keeper.ctl := by
  refine fold_same (fun t => t.keeper.ctl) _ _ _ fun t i => ?_
  have hstop : ∀ (w : State) e, (stopSlice w e).keeper.ctl = w.keeper.ctl := by
    intro w e
    unfold stopSlice
    dsimp only
    show (abandonSlice w e).keeper.ctl = _
    unfold abandonSlice
    dsimp only
    split
    · split
      · unfold State.modHolder; split <;> rfl
      · rfl
    · rfl
  unfold keeperBit
  split
  · split
    · rfl
    · exact fold_same (fun t => t.keeper.ctl) _ _ _ hstop
    · rfl
  · split
    · split <;> rfl
    · rfl

theorem bar0_sec (u : State) (f : FuncId) (v : Nat) (hv : v < 2 ^ 64) (hd : u.designated f = true) :
    bar0Write u f 0x808 8 v = secCtlWrite u (2 ^ 64 - 1) v := by
  rw [bar0_eight _ 0x808 _ (by decide) hv (by simp [bar0Reg, hd])]
  simp [regWrite]

theorem secCtl_bits (u : State) (v : Nat) : secCtlWrite u (2 ^ 64 - 1) v =
    let t := if bitOf v 0 then makeNonce u else u
    let w := if bitOf v 1 then obsEnterBit t else t
    if bitOf v 2 then closeDebug w else w := by
  unfold secCtlWrite
  rw [hits_whole _ _ (by decide), hits_whole _ _ (by decide), hits_whole _ _ (by decide)]

theorem vec_put (u : State) (f : FuncId) (v : Nat) (e : MsixEntry) : ((u.modFn f fun x => { x with msix := mput x.msix v e }).fn f).vec v = e := by
  simp [Func.vec]

theorem mmio_bar0 (f : FuncId) (off size : Nat) (v : Word) (u : State) :
    mmioWrite ⟨f, .bar0, off, size, v, false⟩ u = bar0Write u f off size v.toNat := by simp [mmioWrite]

end Sys2Proof.Machine
end

