-- ==== Sys2Proof/Laws/Packets.lean ====
section
/-!
SUPPORT. Packets: what the fetch, a ring fault and the acceptance of a packet leave in their queue.
-/

namespace Sys2Proof.Machine

theorem fetch_exec (f q rd s) : exec (.packetFetch f q rd) s = .next (fetchPacket f q rd s) := rfl

theorem mayFetch_facts {s : State} {f : FuncId} {x : Queue} (h : mayFetch s f x = true) : x.qstate = .active ∧ x.staged = none := by
  unfold mayFetch at h
  simp only [Bool.and_eq_true, beq_iff_eq, Option.isNone_iff_eq_none] at h
  exact ⟨h.1.1.1.1.1.2, h.1.1.2⟩

theorem countIn_queue (s : State) (f : FuncId) (n : Nat) (src : Src) : (countIn s f n).queue src = s.queue src :=
  (modFn_queue _ _ _ rfl _).trans (by cases src <;> rfl)

theorem fetch_whole {f : FuncId} {q : Nat} {bs : List Byte} {s : State} {x : Queue} (hq : s.queue (.ring f q) = some x)
    (hm : mayFetch s f x = true) (hw : WholePacket s x bs) :
    fetchPacket f q (.bytes bs) s = takePacket (countIn s f (hdrOf bs).tlen) (.ring f q) x bs := by
  obtain ⟨h1, h2, h3, h4, h5⟩ := hw
  unfold fetchPacket
  dsimp only
  rw [hq]
  dsimp only
  rw [hm]
  have a : ¬ bs.length < 32 := by omega
  have b : ¬ x.sqOcc * 16 < (hdrOf bs).tlen := by omega
  have c : ¬ ((bs.length != (hdrOf bs).tlen || (decide (48 + (hdrOf bs).plen < (hdrOf bs).tlen) && !s.hbmUp)) = true) := by
    intro hc
    simp only [Bool.or_eq_true, bne_iff_ne, ne_eq, h4, not_true, false_or, Bool.and_eq_true, decide_eq_true_eq, Bool.not_eq_true'] at hc
    have := h5 hc.1
    rw [this] at hc; exact absurd hc.2 (by decide)
  simp only [Bool.not_true, Bool.false_eq_true, if_false, a, h2, b, c]

theorem core_get {s t : State} (h : KeepsCore s t) {src : Src} {x : Queue} (k : s.queue src = some x)
    (n : src = .bmc → s.pcpReset = none) : ∃ y, t.queue src = some y ∧ y.core = x.core := by
  obtain ⟨y, hy, hi⟩ := Option.map_eq_some_iff.1 ((h.same src n).trans (by rw [k]; rfl))
  exact ⟨y, hy, hi⟩

theorem seq_stale (u : State) (src : Src) (x : Queue) (bs : List Byte) (hne : (hdrOf bs).seq ≠ x.e)
    (hin : inWindow x (hdrOf bs).seq = none) : sequenceCheck u src x bs = sequenceCheck.staleAt u src x (hdrOf bs) 0 := by
  unfold sequenceCheck
  dsimp only
  rw [if_neg hne, hin]

theorem breakChain_core (s : State) (src : Src) (r : Reply) : KeepsCore s (breakChain s src r) := by
  unfold breakChain
  split
  · exact KeepsCore.refl _
  · split
    · exact KeepsCore.refl _
    · extract_lets t
      have ht : KeepsCore s t := by
        simp only [t]
        split
        · exact core_finish ..
        · exact KeepsCore.refl _
      exact ht.trans (core_modQueue _ _ _ fun _ => rfl)

theorem ringFault_queue (s : State) (src : Src) (x : Queue) (hq : s.queue src = some x) (n : src = .bmc → s.pcpReset = none)
    (h : Hdr) (u : Bool) (r : Reply) :
    ∃ y, (ringFault s src h u r).queue src = some y ∧ RingHalted x y ∧ y.sqHead = x.sqTail ∧ y.staged = none := by
  have hb := breakChain_core s src r
  obtain ⟨z, hz, hzx⟩ := core_get hb hq n
  simp only [Queue.core, Queue.mk.injEq] at hzx
  unfold ringFault
  extract_lets t w
  have hw : w.queue src = some ({ z with qstate := QState.halted, byRing := true, haltSeq := z.e, sqHead := z.sqTail, staged := none, slots := z.slots ++ [refusalSlot h u true r] } : Queue) := by
    show (State.modQueue _ _ _).queue src = _
    rw [State.queue_modQueue, hz]; rfl
  obtain ⟨y, hy, hi⟩ := sends_queue ((sends_drain w src).trans (sends_touchShadow _ src)) src _ hw
    fun e => (State.modQueue_pcpReset ..).trans (hb.quiet (n e))
  refine ⟨y, hy, ?_⟩
  simp only [Queue.inner, Queue.mk.injEq] at hi
  unfold RingHalted
  simp_all

/-- Queues' cores, the acceptance number, stores and sessions are kept; and, where `e` holds, the engines. -/
structure K2 (e : Prop) (s t : State) : Prop where
  core : KeepsCore s t
  acc : t.accNo = s.accNo
  stores : t.stores = s.stores
  sessions : t.sessions = s.sessions
  engines : e → t.engines = s.engines

/-- The part of `K2` that is a step of the queues. -/
theorem K2.rest {e : Prop} {s t : State} (h : K2 e s t) (k : e) : QueueStep s t := ⟨h.engines k, h.stores, h.sessions⟩

theorem QueueStep.refl (s : State) : QueueStep s s := ⟨rfl, rfl, rfl⟩

theorem QueueStep.trans {s t u : State} (h : QueueStep s t) (k : QueueStep t u) : QueueStep s u :=
  ⟨k.engines.trans h.engines, k.stores.trans h.stores, k.sessions.trans h.sessions⟩

theorem Ends.queueStep {s t : State} (h : Ends s t) : QueueStep s t := by
  obtain ⟨_, _, _, _, _, _, _, _, rfl⟩ := h
  exact ⟨rfl, rfl, rfl⟩

theorem queueStep_addRecord (s : State) (p : Option Nat) (r : Rec) : QueueStep s (addRecord s p r) := by
  obtain ⟨⟨_, _, _, _, _, _, _, _, _, h⟩, -, -, -⟩ := notes_addRecord s p r
  rw [h]
  exact ⟨rfl, rfl, rfl⟩

theorem queueStep_breakChain (s : State) (src : Src) (r : Reply) : QueueStep s (breakChain s src r) := by
  unfold breakChain
  split
  · exact .refl _
  · split
    · exact .refl _
    · extract_lets t
      have ht : QueueStep s t := by
        simp only [t]
        split
        · exact (ends_finish ..).queueStep
        · exact .refl _
      exact ht.trans (ends_modQueue ..).queueStep

theorem queueStep_ringFault (s : State) (src : Src) (h : Hdr) (u : Bool) (r : Reply) : QueueStep s (ringFault s src h u r) := by
  have hb := queueStep_breakChain s src r
  unfold ringFault
  extract_lets t w
  have hd : Ends w (touchShadow (drain w src) src) := by
    obtain ⟨⟨_, _, _, _, _, h⟩, -, -, -⟩ := (sends_drain w src).trans (sends_touchShadow _ src)
    rw [h]
    exact ⟨_, _, _, _, _, _, _, _, rfl⟩
  exact (hb.trans (ends_modQueue ..).queueStep).trans hd.queueStep

variable {e : Prop}

theorem K2.refl (s : State) : K2 e s s := ⟨.refl _, rfl, rfl, rfl, fun _ => rfl⟩

theorem K2.trans {s t u : State} (h : K2 e s t) (k : K2 e t u) : K2 e s u :=
  ⟨h.core.trans k.core, k.acc.trans h.acc, k.stores.trans h.stores, k.sessions.trans h.sessions,
    fun a => (k.engines a).trans (h.engines a)⟩

theorem k2_of {s t : State} (h : ∀ src, t.queue src = s.queue src) (n : t.pcpReset = s.pcpReset) (a : t.accNo = s.accNo)
    (r : QueueStep s t) : K2 e s t :=
  ⟨core_of_queues h n, a, r.stores, r.sessions, fun _ => r.engines⟩

theorem k2_ends {s t : State} (h : KeepsCore s t) (k : Ends s t) : K2 e s t := by
  refine ⟨h, ?_, k.queueStep.stores, k.queueStep.sessions, fun _ => k.queueStep.engines⟩
  obtain ⟨_, _, _, _, _, _, _, _, rfl⟩ := k
  rfl

theorem k2_plots (s : State) (pl : Map Plot) : K2 e s { s with plots := pl } := k2_of (fun src => by cases src <;> rfl) rfl rfl ⟨rfl, rfl, rfl⟩

theorem k2_cmds (s : State) (pl : List Cmd) : K2 e s { s with cmds := pl } := k2_of (fun src => by cases src <;> rfl) rfl rfl ⟨rfl, rfl, rfl⟩

theorem k2_end (s : State) (c : Cmd) (r : Reply) : K2 e s (endCmd s c r) := k2_ends (core_endCmd ..) (ends_endCmd ..)

theorem k2_modQueue (s : State) (a : Src) (g : Queue → Queue) (h : ∀ x, (g x).core = x.core) : K2 e s (s.modQueue a g) :=
  k2_ends (core_modQueue _ _ _ h) (ends_modQueue ..)

theorem k2_modPlot (s : State) (p : Nat) (g : Plot → Plot) : K2 e s (s.modPlot p g) := k2_plots s _

/-- Notes change nothing that `K2` names. -/
theorem Notes.k2 {s t : State} (h : Notes s t) : K2 e s t := by
  have hq := h.queues
  obtain ⟨_, _, _, _, _, _, _, _, _, rfl⟩ := h.rest
  exact k2_of hq rfl rfl ⟨rfl, rfl, rfl⟩

theorem k2_foldl {α : Type} (g : State → α → State) (l : List α) (s : State) (h : ∀ t x, K2 e t (g t x)) : K2 e s (l.foldl g s) := by
  induction l generalizing s with
  | nil => exact K2.refl _
  | cons x l ih => exact (h s x).trans (ih _)

theorem k2_abortOpen (s : State) (src : Src) : K2 e s (abortOpen s src) := by
  unfold abortOpen
  split
  · exact K2.refl _
  · split
    · split
      · exact k2_end ..
      · exact K2.refl _
    · exact K2.refl _

theorem k2_setEng (s : State) (i : Nat) (x : Engine) (h : ¬e) : K2 e s (s.setEng i x) :=
  ⟨core_of_queues (fun src => by cases src <;> rfl) rfl, rfl, rfl, rfl, fun k => absurd k h⟩

/-- A command's end leaves work in engines alone only where no claim about engines is made. -/
theorem k2_endWork (s : State) (c : Cmd) (h : ¬e) : K2 e s (endWork s c) := by
  unfold endWork
  split
  · refine k2_foldl _ _ _ fun t i => ?_
    unfold endOn
    extract_lets x mine used
    split
    · unfold drainEngine
      extract_lets y z
      exact ((k2_setEng _ _ _ h).trans (k2_setEng _ _ _ h)).trans (notes_applyTrace ..).k2
    · exact K2.refl _
  · exact K2.refl _

theorem k2_acceptAdmin (s : State) (c : Cmd) : K2 e s (acceptAdmin s c) := by
  unfold acceptAdmin
  split
  · unfold beginDelete
    exact K2.trans (k2_modQueue s _ (fun x => { x with closing := true }) fun _ => rfl) (k2_abortOpen ..)
  · unfold beginRelease
    split
    · exact K2.refl _
    · split
      · exact K2.refl _
      · exact (k2_modPlot ..).trans (k2_foldl _ _ _ fun _ _ => k2_abortOpen ..)
  · exact K2.refl _

theorem k2_decideAbort (s : State) (c : Cmd) (w : WinEntry) (h : ¬e) : K2 e s (decideAbort s c w) := by
  unfold decideAbort
  extract_lets t
  have ht : K2 e s t := k2_modQueue _ _ _ fun _ => rfl
  split
  · next u _ _ _ =>
    have hu : K2 e t u := k2_cmds _ _
    exact ((ht.trans hu).trans (k2_endWork _ _ h)).trans (k2_end ..)
  · exact ht.trans (k2_cmds _ _)

theorem k2_startMoves (s : State) (n : Nat) (also : Option Nat) : K2 e s (startMoves s n also) := by
  unfold startMoves
  split
  · exact K2.refl _
  · split
    · exact k2_plots ..
    · exact K2.refl _

theorem k2_stampDecls (s : State) (c : Cmd) : K2 e s (stampDecls s c) := by
  unfold stampDecls
  split
  · split
    · exact k2_modPlot ..
    · exact K2.refl _
  · exact K2.refl _

theorem k2_stampFor (s : State) (c : Cmd) : K2 e s (stampFor s c) := by
  unfold stampFor
  split
  · exact K2.refl _
  · exact k2_plots ..

theorem k2_noteAccepted (s : State) (c : Cmd) (known : Bool) : K2 e s (noteAccepted s c known) := by
  unfold noteAccepted
  extract_lets t
  have ht : K2 e s t := by
    simp only [t]
    split
    · split
      · exact k2_plots ..
      · exact K2.refl _
    · exact K2.refl _
  split
  · exact ht.trans (k2_stampFor ..)
  · exact ht

theorem k2_completeAccept (s : State) (c : Cmd) (limit : Nat) (ne : e → c.opcode ≠ 0x03) : K2 e s (completeAccept s c limit) := by
  unfold completeAccept
  extract_lets t
  have ht : K2 e s t := k2_cmds _ _
  clear_value t
  split
  · next ho =>
    split
    · exact ht.trans (k2_end ..)
    · exact ht.trans (k2_decideAbort _ _ _ fun k => ne k ho)
  · split
    · exact ht.trans (k2_acceptAdmin ..)
    · split
      · exact ht
      · split
        · exact ht.trans (k2_end ..)
        · next h =>
          obtain ⟨pl, hpl⟩ := finalCheck_keeps _ _ _ _ _ _ h
          dsimp only at hpl
          rw [hpl]
          exact (((ht.trans (k2_plots _ _)).trans (k2_cmds _ _)).trans (k2_stampDecls ..)).trans (k2_startMoves ..)

theorem k2_get {s t : State} (h : K2 e s t) {src : Src} {x : Queue} (k : s.queue src = some x)
    (n : src = .bmc → s.pcpReset = none) : ∃ y, t.queue src = some y ∧ y.core = x.core := core_get h.core k n

/-- Acceptance of a packet that starts a command, while its reply's space is free (R266, R270). -/
theorem acceptNew_some (src : Src) (s : State) (x : Queue) (bs : List Byte)
    (hl : 64 ≤ replyLimit x) (hfree : replyLimit x / 16 ≤ x.cqFree) (hr : src = .bmc → s.pcpReset = none) :
    ∃ t y, acceptNew s src x bs = some t ∧ t.queue src = some y ∧ y.e = (x.e + 1) % 2 ^ 64 ∧ y.staged = none ∧
      y.sqHead = x.sqHead ∧ t.stores = s.stores ∧ t.sessions = s.sessions ∧ t.accNo = s.accNo + 1 ∧
      ((hdrOf bs).opcode ≠ 0x03 → t.engines = s.engines) := by
  unfold acceptNew
  extract_lets h ps acc c₀ c space head verdict named src1 sl y src2 u
  have hsp : ¬ x.cqFree < space := by
    have : space ≤ replyLimit x / 16 := by
      simp only [space]
      split
      · omega
      · exact Nat.div_le_div_right (Nat.min_le_right ..)
    omega
  rw [if_neg hsp]
  have hn : K2 ((hdrOf bs).opcode ≠ 0x03) { src2 with accNo := acc + 1, cmds := s.cmds ++ [c], p2Cond := none } u := k2_noteAccepted ..
  have hu : ({ src2 with accNo := acc + 1, cmds := s.cmds ++ [c], p2Cond := none } : State).queue src = some y := by
    have h0 : (s.setQueue src y).queue src = some y := State.queue_setQueue s _ _
    exact h0
  have key : ∀ t, K2 ((hdrOf bs).opcode ≠ 0x03) u t → ∃ y, t.queue src = some y ∧ y.e = (x.e + 1) % 2 ^ 64 ∧ y.staged = none ∧
      y.sqHead = x.sqHead ∧ t.stores = s.stores ∧ t.sessions = s.sessions ∧ t.accNo = s.accNo + 1 ∧
      ((hdrOf bs).opcode ≠ 0x03 → t.engines = s.engines) := by
    intro t hk
    have hnk := hn.trans hk
    obtain ⟨z, hz, hzy⟩ := k2_get hnk hu (fun e => (show src2.pcpReset = s.pcpReset by simp only [src2]; cases src <;> rfl).trans (hr e))
    simp only [Queue.core, Queue.mk.injEq] at hzy
    refine ⟨z, hz, ?_, ?_, ?_, hnk.stores.trans (show src2.stores = _ by simp only [src2]; cases src <;> rfl),
      hnk.sessions.trans (show src2.sessions = _ by simp only [src2]; cases src <;> rfl), hnk.acc.trans rfl,
      fun k => (hnk.engines k).trans (show src2.engines = _ by simp only [src2]; cases src <;> rfl)⟩
    all_goals simp_all
    all_goals rfl
  clear_value verdict
  split
  · exact ⟨_, _, rfl, (key _ (k2_end ..)).choose_spec⟩
  · split
    · exact ⟨_, _, rfl, (key _ (K2.refl _)).choose_spec⟩
    · exact ⟨_, _, rfl, (key _ (k2_completeAccept _ _ _ fun k => k)).choose_spec⟩

end Sys2Proof.Machine
end

