-- ==== Sys2Proof/Laws/Runs.lean ====
section
/-!
SUPPORT. What the work of a command changes beside its own effect: the engines it ran on, tensors, and logs.
-/

namespace Sys2Proof.Machine

theorem modPlot_eq {s : State} {n : Nat} {p : Plot} (h : mget s.plots n = some p) (g : Plot → Plot) :
    s.modPlot n g = s.setPlot n (g p) := by
  unfold State.modPlot State.setPlot mmod
  rw [h]

theorem mput_mput {α : Type} (m : Map α) (k : Nat) (a b : α) : mput (mput m k a) k b = mput m k b := by
  induction m with
  | nil => simp [mput]
  | cons x m ih =>
    rcases Nat.lt_trichotomy k x.1 with h | h | h
    · simp [mput, h]
    · simp [mput, h]
    · simp [mput, Nat.not_lt.2 (Nat.le_of_lt h), Nat.ne_of_gt h, ih]

theorem modPlot_twice {s : State} {n : Nat} {p : Plot} (h : mget s.plots n = some p) (f g : Plot → Plot) :
    (s.modPlot n f).modPlot n g = s.setPlot n (g (f p)) := by
  rw [modPlot_eq h]
  rw [modPlot_eq (p := f p) (by simp)]
  simp [State.setPlot, mput_mput]

theorem noteImage_clean (s : State) (n st : Nat) (x : Stream) (h : x.bad = []) : noteImage s n st x = s := by
  simp [noteImage, h]

theorem noteTensorRead_clean (s : State) (n h : Nat) (z : Tensor) (o k : Nat) (hb : z.bad = []) : noteTensorRead s n h z o k = s := by
  simp [noteTensorRead, hb]

/-- A plot without its log, its tensors, the words of its plans that an upset changed, and the mark of a PLOT_RELEASE. -/
def Plot.shape (p : Plot) : Plot :=
  { p with log := Log.empty, tensors := [], plans := p.plans.map fun q => (q.1, { q.2 with bad := [] }), releasing := none }

/-- Plots keep all but logs and tensors, and the engines of `E` keep everything. -/
structure Works (E : Nat → Prop) (s t : State) : Prop where
  plots : ∀ n, (mget t.plots n).map Plot.shape = (mget s.plots n).map Plot.shape
  engs : ∀ e, E e → t.eng e = s.eng e

variable {E : Nat → Prop}

theorem Works.refl (s : State) : Works E s s := ⟨fun _ => rfl, fun _ _ => rfl⟩

theorem Works.trans {s t u : State} (h : Works E s t) (k : Works E t u) : Works E s u :=
  ⟨fun n => (k.1 n).trans (h.1 n), fun e he => (k.2 e he).trans (h.2 e he)⟩

theorem works_foldl {α : Type} (g : State → α → State) (l : List α) (s : State) (h : ∀ t, ∀ x ∈ l, Works E t (g t x)) :
    Works E s (l.foldl g s) := by
  induction l generalizing s with
  | nil => exact .refl _
  | cons x l ih => exact (h s x List.mem_cons_self).trans (ih _ fun t y hy => h t y (List.mem_cons_of_mem _ hy))

theorem Notes.works {s t : State} (h : Notes s t) : Works E s t := by
  refine ⟨fun n => ?_, fun e _ => h.eng e⟩
  have := congrArg (Option.map Plot.shape) (h.plots n)
  rw [Option.map_map, Option.map_map] at this
  exact this

theorem Works.get {s t : State} (h : Works E s t) {n : Nat} {p : Plot} (k : mget s.plots n = some p) :
    ∃ y, mget t.plots n = some y ∧ y.shape = p.shape := by
  have := h.plots n
  rw [k] at this
  obtain ⟨y, hy, hp⟩ := Option.map_eq_some_iff.1 this
  exact ⟨y, hy, hp⟩

theorem works_modPlot (s : State) (n : Nat) (g : Plot → Plot) (h : ∀ p, (g p).shape = p.shape) : Works E s (s.modPlot n g) := by
  refine ⟨fun k => ?_, fun _ _ => rfl⟩
  show (mget (mmod s.plots n g) k).map _ = _
  unfold mmod
  split
  · next x hx =>
    rw [mget_mput]
    split
    · next e => subst e; rw [hx]; simp [h]
    · rfl
  · rfl

theorem works_modEng (s : State) (e : Nat) (g : Engine → Engine) (h : ¬E e) : Works E s (s.modEng e g) := by
  refine ⟨fun _ => rfl, fun i hi => ?_⟩
  have : i ≠ e := fun q => h (q ▸ hi)
  simp only [State.modEng, State.eng_setEng_other _ _ _ _ this]

theorem works_free (s : State) (i : Nat) : Works E s { s with freeIx := i } := ⟨fun _ => rfl, fun _ _ => rfl⟩

theorem works_touchEngine (s : State) (e : Nat) (h : ¬E e) : Works E s (touchEngine s e) :=
  (works_modEng s e _ h).trans (works_free _ _)

theorem works_setTensor (s : State) (n h : Nat) (t : Tensor) : Works E s (setTensor s n h t) :=
  works_modPlot _ _ _ fun _ => rfl

theorem works_noteTensorRead (s : State) (n h : Nat) (t : Tensor) (o k : Nat) : Works E s (noteTensorRead s n h t o k) := by
  unfold noteTensorRead
  dsimp only
  split
  · exact .refl _
  · exact (works_setTensor ..).trans (works_foldl _ _ _ fun _ _ _ => (notes_countCorrected ..).works)

theorem works_noteTensorWrite (s : State) (c : Cmd) (h : Nat) (t : Tensor) (o k : Nat) : Works E s (noteTensorWrite s c h t o k) :=
  (works_foldl _ _ _ fun _ _ _ => (notes_countCorrected ..).works).trans (works_foldl _ _ _ fun _ _ _ => (notes_addRecord ..).works)

theorem works_commitWrites (s : State) (c : Cmd) (n : Nat) (ws : List OutWrite) : Works E s (commitWrites s c n ws) := by
  refine works_foldl _ _ _ fun t w _ => ?_
  dsimp only
  split
  · exact .refl _
  · exact (works_noteTensorWrite ..).trans (works_setTensor ..)

theorem works_leavePart (s : State) (x : RunCtx) (ok : Bool) (p : PartSt) (h : ¬E p.eng) : Works E s (leavePart s x ok p) := by
  unfold leavePart countSteps
  exact (((works_modEng _ _ _ h).trans (notes_applyTrace ..).works).trans (works_touchEngine _ _ h)).trans (works_modEng _ _ _ h)

theorem works_leaveParts (s : State) (x : RunCtx) (ok : Bool) (ps : List PartSt) (h : ∀ p ∈ ps, ¬E p.eng) :
    Works E s (leaveParts s x ok ps) :=
  works_foldl _ _ _ fun _ p hp => works_leavePart _ _ _ _ (h p hp)

theorem mmod_map {α β : Type} (m : Map α) (k : Nat) (g : α → α) (f : α → β) (h : ∀ x, f (g x) = f x) :
    (mmod m k g).map (fun q => (q.1, f q.2)) = m.map fun q => (q.1, f q.2) := by
  have key : ∀ (m : Map α) (v : α), mget m k = some v → (mput m k (g v)).map (fun q => (q.1, f q.2)) = m.map fun q => (q.1, f q.2) := by
    intro m v hv
    induction m with
    | nil => cases hv
    | cons x m ih =>
      obtain ⟨a, y⟩ := x
      simp only [mget] at hv
      split at hv
      · next e => subst e; cases hv; simp [mput, h]
      · next e =>
        split at hv
        · cases hv
        · next e' => simp [mput, e, e', ih hv]
  unfold mmod
  split
  · next v hv => exact key m v hv
  · rfl

theorem works_notePlanReads (s : State) (n h : Nat) (q : Plan) : Works E s (notePlanReads s n h q) := by
  unfold notePlanReads
  extract_lets ws
  split
  · exact .refl _
  · refine Works.trans (works_modPlot s n _ fun p => ?_) (works_foldl _ _ _ fun _ _ _ => (notes_countCorrected ..).works)
    unfold Plot.shape
    congr 1
    exact mmod_map p.plans h (fun y => { y with bad := y.bad.filter fun b => !(b.2 == .correctable) }) (fun y : Plan => { y with bad := [] })
      fun _ => rfl

theorem works_noteRunReads (s : State) (x : RunCtx) (n : Nat) (ps : List PartSt) : Works E s (noteRunReads s x n ps) := by
  unfold noteRunReads
  extract_lets note
  have hn : ∀ u h o k, Works E u (note u h o k) := by
    intro u h o k
    simp only [note]
    split
    · exact works_noteTensorRead ..
    · exact .refl _
  clear_value note
  refine (works_notePlanReads s n x.handle x.plan).trans (works_foldl _ _ _ fun t q _ => ?_)
  refine Works.trans (works_foldl _ _ _ fun u b _ => ?_) (works_foldl _ _ _ fun u r _ => hn ..)
  split
  · exact hn ..
  · exact .refl _

/-- Engines that are ready and run no slice need no preparation. -/
theorem prepare_ready (s : State) (es : List Nat) (h : ∀ e ∈ es, engineReady s e = true ∧ (s.eng e).slice = none) : prepare s es = s := by
  induction es with
  | nil => rfl
  | cons e es ih =>
    have := prepare_one s e (h e List.mem_cons_self).1 (h e List.mem_cons_self).2
    unfold prepare at this ih ⊢
    rw [List.foldl_cons, List.foldl_nil] at this
    rw [List.foldl_cons, this]
    exact ih fun x hx => h x (List.mem_cons_of_mem _ hx)

theorem onEngines_ready (s : State) (es : List Nat) (k : State → State)
    (h : ∀ e ∈ es, engineReady s e = true ∧ (s.eng e).slice = none) : onEngines s es k = k s := by
  unfold onEngines
  rw [prepare_ready s es h]
  dsimp only
  rw [if_pos (List.all_eq_true.2 fun e he => (h e he).1)]

/-- A failed run ends its command with the failure's status. -/
theorem failRun_ended (s : State) (x : RunCtx) (es : EpochSt) (e : RunErr) : EndedWith (failRun s x es e) x.cmd (runReply x e) :=
  endCmd_ended ..

theorem works_plots {s t : State} (h : t.plots = s.plots) (k : t.engines = s.engines) : Works E s t :=
  ⟨fun _ => by rw [h], fun _ _ => by unfold State.eng; rw [k]⟩

theorem works_modQueue (s : State) (src : Src) (g : Queue → Queue) : Works E s (s.modQueue src g) :=
  works_plots (State.modQueue_plots ..) (State.modQueue_engines ..)

theorem works_undoStop (s : State) (c : Cmd) : Works E s (undoStop s c) := by
  unfold undoStop
  split
  · exact works_modQueue ..
  · extract_lets p
    split
    · exact works_modPlot _ _ _ fun _ => rfl
    · exact .refl _
  · exact .refl _

theorem works_finish (s : State) (c : Cmd) (r : Reply) (b : Bool) : Works E s (finish s c r b) := by
  unfold finish
  extract_lets t u
  have ht : Works E s t := works_plots (traceEnd_plots ..) (by
    obtain ⟨_, _, _, _, _, _, _, _, hh⟩ := ends_traceEnd { s with cmds := s.cmds.filter fun d => !(d.acc == c.acc) } c r.status
    show (traceEnd _ _ _).engines = _
    rw [hh])
  have hu : Works E s u := by
    show Works E s (if _ then _ else _)
    split
    · exact ht
    · exact ht.trans (works_undoStop ..)
  exact hu.trans (works_modQueue ..)

theorem works_skipAfter (src : Src) (acc : Nat) (l : List Cmd) (s : State) : Works E s (skipAfter src acc l s) := by
  induction l generalizing s with
  | nil => exact .refl _
  | cons d l ih =>
    unfold skipAfter
    extract_lets t
    have ht : Works E s t := by
      show Works E s (if _ then _ else _)
      split
      · exact works_finish ..
      · exact .refl _
    exact ht.trans (ih _)

theorem Sends.works {s t : State} (h : Sends s t) : Works E s t := by
  obtain ⟨⟨_, _, _, _, _, rfl⟩, -, -, -⟩ := h
  exact works_plots rfl rfl

theorem works_endCmd (s : State) (c : Cmd) (r : Reply) : Works E s (endCmd s c r) := by
  unfold endCmd
  extract_lets halt t u
  have ht : Works E s t := works_finish ..
  have hu : Works E s u := by
    show Works E s (if _ then _ else _)
    split
    · unfold haltQueue
      exact ht.trans ((works_modQueue ..).trans (works_skipAfter ..))
    · exact ht
  exact hu.trans (sends_drain ..).works

/-- An export under a key and a reserved counter value goes on to the image. -/
theorem exportAt_go {s : State} {p : Plot} {x : Stream} {q : Plan} {key : List Byte} (n : Nat) (d : Cmd) (hk : p.key = some key)
    (hq : mget p.plans x.plan = some q) (hl : s.expCtr + 1 ≤ s.stores.limit) : exportAt s n p d x = exportGo s n d x key q.img := by
  unfold exportAt
  simp only [hk, hq, Nat.not_lt.2 hl, if_false]

/-- An export of an undamaged image whose pages are held commits. -/
theorem exportGo_commit {s : State} {d : Cmd} {x : Stream} (n : Nat) (key plan : List Byte) (h : inOrder s d = true)
    (hb : x.bad = []) (hg : pagesFor (x.img.length + 80) ≤ d.pages) :
    exportGo s n d x key plan = commitExport s n d x key plan := by
  have hd : imageDamaged x 0 x.img.length = none := by simp [imageDamaged, hb]
  unfold exportGo
  rw [hd]
  have hm : ∀ k, k ≤ d.pages → morePages s n d k = .ok s := by
    intro k hk
    unfold morePages
    rw [if_pos hk]
  rw [hm _ hg]
  show commitAt s d _ = _
  simp [commitAt, h]

theorem workTensors_get (clock : Nat) (ds : List Decl) (m : Map Tensor) (h : Nat) (hh : ∀ e ∈ ds, e.role = 1 → e.handle ≠ h) :
    mget (workTensors clock ds m) h = mget m h := by
  unfold workTensors
  induction ds generalizing m with
  | nil => rfl
  | cons d ds ih =>
    rw [List.foldl_cons, ih _ fun e he => hh e (List.mem_cons_of_mem _ he)]
    split
    · next hr => rw [mget_mput, if_neg (fun e => hh d List.mem_cons_self hr e.symm)]
    · rfl

theorem withImage_here {s : State} {n : Nat} {p : Plot} {d : Cmd} {x : Stream} (sh : Bool) (k : State → Plot → State)
    (hp : mget s.plots n = some p) (hx : mget p.streams d.stream = some x) (hr : x.res = .resident) (hf : slotsFit s n p = true)
    (hs : sh = false ∨ d.shadowSlots ≠ 0) : withImage s n d x sh k = k s p := by
  have : askLate s n d x sh = some s := by
    unfold askLate
    rcases hs with rfl | hs
    · simp [hr]
    · simp [hr, hs]
  unfold withImage
  simp [this, hp, hx, hr, hf]

theorem notes_countFold (l : List Nat) (s : State) (p : Option Nat) (b : Bool) (f : Nat → Nat) :
    Notes s (l.foldl (fun (t : State) g => countCorrected t p b (f g)) s) :=
  notes_foldl _ _ _ fun _ _ => notes_countCorrected ..

theorem Notes.plot {s t : State} (h : Notes s t) {n : Nat} {p : Plot} (k : mget s.plots n = some p) :
    ∃ y, mget t.plots n = some y ∧ y.streams = p.streams ∧ y.tensors = p.tensors := by
  have := h.plots n
  rw [k] at this
  obtain ⟨y, hy, hp⟩ := Option.map_eq_some_iff.1 this
  exact ⟨y, hy, by have := congrArg Plot.streams hp; exact this, by have := congrArg Plot.tensors hp; exact this⟩

theorem noteImage_plot {s : State} {n : Nat} {p : Plot} (st : Nat) (x : Stream) (h : mget s.plots n = some p) :
    ∃ y, mget (noteImage s n st x).plots n = some y := by
  unfold noteImage
  dsimp only
  split
  · exact ⟨p, h⟩
  · have hk : mget (setStream s n st { x with bad := x.bad.filter fun p => !(p.2 == .correctable) }).plots n = some { p with streams := mput p.streams st { x with bad := x.bad.filter fun p => !(p.2 == .correctable) } } := by
      unfold setStream
      rw [modPlot_eq h, State.setPlot_plots, mget_mput, if_pos rfl]
    obtain ⟨y, hy, _⟩ := Notes.plot (notes_countFold _ _ _ _ _) hk
    exact ⟨y, hy⟩

theorem startMoves_stream {s : State} {n : Nat} {p : Plot} {st : Nat} {x : Stream} (also : Option Nat) (h : mget s.plots n = some p)
    (k : mget p.streams st = some x) :
    ∃ y, mget (startMoves s n also).plots n = some y ∧
      (mget y.streams st = some x ∨ (asked s x = true ∧ x.res = .nonresident ∧ mget y.streams st = some { x with res := .movingIn, wanted := none })) := by
  unfold startMoves
  rw [h]
  dsimp only
  split
  · refine ⟨_, by rw [State.setPlot_plots, mget_mput, if_pos rfl], ?_⟩
    have key : ∀ (g : Nat → Stream → Bool) (m : Map Stream), mget m st = some x →
        mget (m.map fun z => (z.1, if g z.1 z.2 = true then { z.2 with res := .movingIn, wanted := none } else z.2)) st =
          some (if g st x = true then { x with res := .movingIn, wanted := none } else x) := by
      intro g m hm
      induction m with
      | nil => cases hm
      | cons z m ih =>
        obtain ⟨a, v⟩ := z
        simp only [mget] at hm
        simp only [List.map_cons, mget]
        split
        · next e => subst e; simp only [if_true] at hm; cases hm; rfl
        · next e =>
          rw [if_neg e] at hm
          split
          · next e' => rw [if_pos e'] at hm; cases hm
          · next e' => rw [if_neg e'] at hm; exact ih hm
    dsimp only
    rw [key (fun i z => asked s z && z.res == .nonresident && (!z.paused || also == some i)) _ k]
    split
    · next hh =>
      simp only [Bool.and_eq_true, beq_iff_eq] at hh
      exact .inr ⟨hh.1.1, hh.1.2, rfl⟩
    · exact .inl rfl
  · exact ⟨p, h, .inl k⟩

/-! ## Preparation -/

/-- A fold of changes of engines changes nothing but engines, keeps what each change keeps of an engine, and keeps every engine that
it does not name. -/
theorem foldl_modEng {α β : Type} (l : List α) (k : α → Nat) (g : α → Engine → Engine) (φ : Engine → β) (h : ∀ a x, φ (g a x) = φ x)
    (s : State) : (∃ m, l.foldl (fun (t : State) a => t.modEng (k a) (g a)) s = { s with engines := m }) ∧
      ∀ e, φ ((l.foldl (fun (t : State) a => t.modEng (k a) (g a)) s).eng e) = φ (s.eng e) ∧
        ((∀ a ∈ l, k a ≠ e) → (l.foldl (fun (t : State) a => t.modEng (k a) (g a)) s).eng e = s.eng e) := by
  induction l generalizing s with
  | nil => exact ⟨⟨_, rfl⟩, fun e => ⟨rfl, fun _ => rfl⟩⟩
  | cons a l ih =>
    obtain ⟨⟨m, hm⟩, he⟩ := ih (s.modEng (k a) (g a))
    refine ⟨⟨m, hm⟩, fun e => ⟨?_, fun n => ?_⟩⟩
    · rw [List.foldl_cons, (he e).1]
      by_cases q : e = k a
      · subst q; rw [State.eng_modEng, h]
      · simp only [State.modEng, State.eng_setEng_other _ _ _ _ q]
    · rw [List.foldl_cons, (he e).2 fun b hb => n b (List.mem_cons_of_mem _ hb)]
      have q : e ≠ k a := fun q => n a List.mem_cons_self q.symm
      simp only [State.modEng, State.eng_setEng_other _ _ _ _ q]

/-- What preparation leaves: only the engines it names change, and none of them in what makes it ready. -/
theorem prefetchFirst_facts (s : State) (x : RunCtx) (tr : Map (List Byte)) : (∃ m, prefetchFirst s x tr = { s with engines := m }) ∧
    ∀ e, (engineReady (prefetchFirst s x tr) e = engineReady s e ∧ ((prefetchFirst s x tr).eng e).slice = (s.eng e).slice) ∧
      (e ∉ x.engs → (prefetchFirst s x tr).eng e = s.eng e) := by
  obtain ⟨⟨m, hm⟩, he⟩ := foldl_modEng x.engs.zipIdx (fun q => q.1)
    (fun q e =>
      let y := e.forPlan x.handle
      { y with wfu := { y.wfu with sched := resumeSchedule y.wfu.sched (partSchedule x tr q.2), step := 1, plan := some x.handle } })
    (fun e : Engine => (e.power, e.relock, e.failed, e.overdue, e.halted, e.slice))
    (fun q e => by unfold Engine.forPlan; dsimp only; split <;> rfl) s
  refine ⟨⟨m, hm⟩, fun e => ⟨?_, fun n => ?_⟩⟩
  · have k := (he e).1
    simp only [Prod.mk.injEq] at k
    obtain ⟨k1, k2, k3, k4, k5, k6⟩ := k
    have hh : (prefetchFirst s x tr).power = s.power := by
      unfold prefetchFirst; rw [hm]
    refine ⟨?_, k6⟩
    unfold engineReady
    dsimp only
    rw [hh]
    unfold prefetchFirst
    rw [k1, k2, k3, k4, k5, k6]
  · refine (he e).2 fun a ha => ?_
    rintro rfl
    exact n (by
      have := List.mem_map_of_mem (f := Prod.fst) ha
      rwa [List.zipIdx_map_fst] at this)

theorem works_prefetchFirst (s : State) (x : RunCtx) (tr : Map (List Byte)) (h : ∀ e, E e → e ∉ x.engs) :
    Works E s (prefetchFirst s x tr) := by
  obtain ⟨⟨m, hm⟩, he⟩ := prefetchFirst_facts s x tr
  exact ⟨fun n => by rw [hm], fun e k => (he e).2 (h e k)⟩

/-! ## Runs that fail -/

/-- Plots keep all but logs and the mark of a release, and the engines of `E` keep everything. -/
structure Spares (E : Nat → Prop) (s t : State) : Prop where
  plots : ∀ n, (mget t.plots n).map Plot.bare = (mget s.plots n).map Plot.bare
  engs : ∀ e, E e → t.eng e = s.eng e

theorem Spares.refl (s : State) : Spares E s s := ⟨fun _ => rfl, fun _ _ => rfl⟩

theorem Spares.trans {s t u : State} (h : Spares E s t) (k : Spares E t u) : Spares E s u :=
  ⟨fun n => (k.1 n).trans (h.1 n), fun e he => (k.2 e he).trans (h.2 e he)⟩

theorem spares_foldl {α : Type} (g : State → α → State) (l : List α) (s : State) (h : ∀ t, ∀ x ∈ l, Spares E t (g t x)) :
    Spares E s (l.foldl g s) := by
  induction l generalizing s with
  | nil => exact .refl _
  | cons x l ih => exact (h s x List.mem_cons_self).trans (ih _ fun t y hy => h t y (List.mem_cons_of_mem _ hy))

theorem Notes.spares {s t : State} (h : Notes s t) : Spares E s t := by
  refine ⟨fun n => ?_, fun e _ => h.eng e⟩
  have := congrArg (Option.map Plot.bare) (h.plots n)
  rw [Option.map_map, Option.map_map] at this
  exact this

theorem spares_prefetchFirst (s : State) (x : RunCtx) (tr : Map (List Byte)) (h : ∀ e, E e → e ∉ x.engs) :
    Spares E s (prefetchFirst s x tr) := by
  obtain ⟨⟨m, hm⟩, he⟩ := prefetchFirst_facts s x tr
  exact ⟨fun n => by rw [hm], fun e k => (he e).2 (h e k)⟩

theorem spares_modEng (s : State) (e : Nat) (g : Engine → Engine) (h : ¬E e) : Spares E s (s.modEng e g) := by
  refine ⟨fun _ => rfl, fun i hi => ?_⟩
  have : i ≠ e := fun q => h (q ▸ hi)
  simp only [State.modEng, State.eng_setEng_other _ _ _ _ this]

theorem spares_free (s : State) (i : Nat) : Spares E s { s with freeIx := i } := ⟨fun _ => rfl, fun _ _ => rfl⟩

theorem spares_touchEngine (s : State) (e : Nat) (h : ¬E e) : Spares E s (touchEngine s e) :=
  (spares_modEng s e _ h).trans (spares_free _ _)

theorem spares_leavePart (s : State) (x : RunCtx) (ok : Bool) (p : PartSt) (h : ¬E p.eng) : Spares E s (leavePart s x ok p) := by
  unfold leavePart countSteps
  exact (((spares_modEng _ _ _ h).trans (notes_applyTrace ..).spares).trans (spares_touchEngine _ _ h)).trans (spares_modEng _ _ _ h)

theorem spares_endCmd (s : State) (c : Cmd) (r : Reply) : Spares E s (endCmd s c r) := by
  refine ⟨fun n => ?_, fun e _ => endCmd_eng ..⟩
  have := congrArg (Option.map Plot.bare) ((mark_endCmd s c r).plots n)
  rw [Option.map_map, Option.map_map] at this
  exact this

theorem spares_failRun (s : State) (x : RunCtx) (es : EpochSt) (e : RunErr) (h : ∀ p ∈ es.parts, ¬E p.eng) :
    Spares E s (failRun s x es e) := by
  unfold failRun
  extract_lets ps t u
  have hp : ∀ p ∈ ps, ¬E p.eng := by
    intro p hp
    cases e with
    | timeout _ =>
      obtain ⟨q, hq, rfl⟩ := List.mem_map.1 hp
      exact h q hq
    | _ => exact h p hp
  have ht : Spares E s t := spares_foldl _ _ _ fun v p hh => spares_leavePart _ _ _ _ (hp p hh)
  have hu : Spares E s u := by
    show Spares E s (match runRecord x e with
      | some r => addRecord t x.cmd.plot r
      | none => t)
    split
    · exact ht.trans (notes_addRecord ..).spares
    · exact ht
  exact hu.trans (spares_endCmd ..)

/-- A run that fails, put together. -/
theorem runFails_of {i : Instr} {s t : State} {d : Cmd} {es : List Nat} {r : Reply} (h : exec i s = .next t) (k : EndedWith t d r)
    (w : Spares (fun e => e ∉ es) s t) (z : t.stores = s.stores) : RunFails i s d es r := ⟨t, h, k, w.plots, z, w.engs⟩

end Sys2Proof.Machine
end

