-- ==== Sys2Proof/Laws/Direct.lean ====
section
/-!
SUPPORT. Admin commands, the engines of a plot, and the direct operations: what they leave alone.
-/

namespace Sys2Proof.Machine

theorem admin_at {c : CmdRef} {op : Nat} {s : State} {d : Cmd} {f : FuncId} {q : Nat} (h : Turn s c op d) (hs : d.src = .ring f q)
    (k : Cmd → FuncId → State) : adminAt c op s k = k d f := by
  unfold adminAt
  rw [turn_facts h, turn_commit h, hs]

theorem queue_modQueue_other (s : State) (a b : Src) (g : Queue → Queue) (h : b ≠ a) : (s.modQueue a g).queue b = s.queue b := by
  unfold State.modQueue
  split
  · exact State.queue_setQueue_other _ _ _ _ h
  · rfl

theorem plot_keys {s t : State} (h : Works (fun _ => True) s t) (m : Nat) : (mget t.plots m).map (·.key) = (mget s.plots m).map (·.key) := by
  have := congrArg (Option.map Plot.key) (h.plots m)
  rw [Option.map_map, Option.map_map] at this
  exact this

theorem endCmd_sessions (s : State) (d : Cmd) (r : Reply) : (endCmd s d r).sessions = s.sessions := by
  obtain ⟨_, _, _, _, _, _, _, _, hh⟩ := ends_endCmd s d r
  rw [hh]

theorem fold_plots {α : Type} (g : State → α → State) (l : List α) (s : State) (h : ∀ t x, (g t x).plots = t.plots) : (l.foldl g s).plots = s.plots :=
  fold_same State.plots g l s h

theorem zeroEngines_spad (s : State) (m e : Nat) (he : e < 6) (hb : bitOf m e = true) : ((zeroEngines s m).eng e).spad = Spad.clear := by
  unfold zeroEngines
  have hm : e ∈ maskList m := by simp [maskList, he, hb]
  generalize maskList m = l at hm
  suffices ∀ t : State, e ∈ l ∨ (t.eng e).spad = Spad.clear → ((l.foldl (fun (t : State) e => t.modEng e Engine.zeroed) t).eng e).spad = Spad.clear from this s (.inl hm)
  clear hm
  induction l with
  | nil => intro t h; simpa using h
  | cons a l ih =>
    intro t h
    rw [List.foldl_cons]
    refine ih _ ?_
    by_cases ha : e = a
    · subst ha
      right
      simp [State.modEng, Engine.zeroed]
    · rcases h with h | h
      · left
        simpa [ha] using h
      · right
        simp only [State.modEng, State.eng_setEng_other _ _ _ _ ha, h]

theorem retarget_spad (s : State) (a e : Nat) : ((retarget s a).eng e).spad = (s.eng e).spad := by
  unfold retarget
  dsimp only
  by_cases h : e = a
  · subst h
    split
    · split
      · rfl
      · simp
    · simp
  · split
    · split
      · rfl
      · rw [State.eng_setEng_other _ _ _ _ h]
    · rw [State.eng_setEng_other _ _ _ _ h]

theorem retargetAll_spad (s : State) (e : Nat) : ((retargetAll s).eng e).spad = (s.eng e).spad :=
  fold_same (fun t => (t.eng e).spad) _ _ _ fun t x => retarget_spad t x e

theorem retargetAll_plots (s : State) : (retargetAll s).plots = s.plots := fold_plots _ _ _ fun t x => retarget_plots t x

theorem clearErrBits_plots (s : State) (fs : List FuncId) : (clearErrBits s fs).plots = s.plots := fold_plots _ _ _ fun _ _ => rfl

theorem zeroEngines_plots (s : State) (m : Nat) : (zeroEngines s m).plots = s.plots := fold_plots _ _ _ fun _ _ => rfl

theorem clearErrBits_eng (s : State) (fs : List FuncId) (e : Nat) : (clearErrBits s fs).eng e = s.eng e :=
  fold_same (fun t => t.eng e) _ _ _ fun _ _ => rfl

theorem opOn_eng {α : Type} (p : PartSt) (ds : List Nat) (m : OpM α) : (opOn p ds m).2.eng = p.eng := by
  unfold opOn addLost
  dsimp only

theorem recordsOn_eng (t : DescTab) (a b : Bool) (sc : List Word) (rs : List (List Byte)) (p : PartSt) : (recordsOn t a b sc rs p).2.eng = p.eng := by
  induction rs generalizing p with
  | nil => rfl
  | cons r rs ih =>
    unfold recordsOn
    dsimp only
    split
    · rw [ih, opOn_eng]
    · rw [opOn_eng]

theorem directOn_eng {p : Plot} {c : Cmd} {t : DescTab} {x y : PartSt} {r : Except OpErr DirOut} (h : directOn p c t x = some (r, y)) : y.eng = x.eng := by
  unfold directOn at h
  dsimp only at h
  split at h
  all_goals
    first
      | (obtain ⟨o, _, ho⟩ := Option.map_eq_some_iff.1 h; cases ho; exact opOn_eng ..)
      | (cases h; exact recordsOn_eng ..)

theorem dirFill_eng (p : Plot) (c : Cmd) (t : DescTab) (bs : List (List Byte)) (x y : PartSt) (h : dirFill p c t bs x = .ok y) : y.eng = x.eng := by
  induction bs generalizing x with
  | nil => cases h; rfl
  | cons b bs ih =>
    unfold dirFill at h
    split at h
    · exact ih _ h
    · split at h
      · exact ih _ h
      · dsimp only at h
        split at h
        · have := ih _ h; exact this
        · split at h
          · exact ih _ h
          · split at h
            · cases h
            · have := ih _ h; exact this

theorem dirPack_eng (t : DescTab) (bs : List (List Byte)) (o : OutSt) (x : PartSt) : (dirPack t bs o x).2.eng = x.eng := by
  induction bs generalizing o x with
  | nil => rfl
  | cons b bs ih =>
    unfold dirPack
    split
    · exact ih ..
    · split
      · exact ih ..
      · dsimp only
        split
        · rfl
        · rw [ih]

theorem works_spad {s t : State} {e : Nat} (h : Works (fun _ => True) s t) : (t.eng e).spad = (s.eng e).spad := by rw [h.engs e trivial]

theorem leaveDirect_spad (s : State) (p : Plot) (c : Cmd) (t : DescTab) (x : PartSt) : ((leaveDirect s p c t x).eng x.eng).spad.mem = (drainOp x.st).sp.mem := by
  unfold leaveDirect countSteps
  extract_lets wfu cache st u
  rw [State.eng_modEng]
  dsimp only
  rw [touchEngine_spad, (notes_applyTrace ..).eng]
  exact congrArg (fun e : Engine => e.spad.mem) (State.eng_modEng ..)

theorem works_leaveDirect (s : State) (p : Plot) (c : Cmd) (t : DescTab) (x : PartSt) : Works (· ≠ x.eng) s (leaveDirect s p c t x) := by
  unfold leaveDirect countSteps
  extract_lets wfu cache st u
  have hn : ¬ (x.eng ≠ x.eng) := by simp
  exact (((works_modEng (E := (· ≠ x.eng)) _ _ _ hn).trans (notes_applyTrace ..).works).trans (works_touchEngine _ _ hn)).trans (works_modEng _ _ _ hn)

theorem works_noteDirReads {E : Nat → Prop} (s : State) (n : Nat) (p : Plot) (c : Cmd) : Works E s (noteDirReads s n p c) := by
  unfold noteDirReads
  extract_lets t
  have ht : Works E s t := by
    refine works_foldl _ _ _ fun u b _ => ?_
    split
    · exact works_noteTensorRead ..
    · exact .refl _
  split
  · split
    · exact ht.trans (works_noteTensorRead ..)
    · exact ht
  · exact ht

/-! ## Operations that fail -/

theorem spares_leaveDirect {E : Nat → Prop} (s : State) (p : Plot) (c : Cmd) (t : DescTab) (x : PartSt) (h : ¬E x.eng) :
    Spares E s (leaveDirect s p c t x) := by
  unfold leaveDirect countSteps
  extract_lets wfu cache st u
  exact (((spares_modEng _ _ _ h).trans (notes_applyTrace ..).spares).trans (spares_touchEngine _ _ h)).trans (spares_modEng _ _ _ h)

theorem spares_spoilDests {E : Nat → Prop} (s : State) (c : Cmd) (h : ¬E (byteAt c.params 0)) : Spares E s (spoilDests s c) :=
  spares_foldl _ _ _ fun _ _ _ => (spares_modEng _ _ _ h).trans (spares_free _ _)

theorem spares_failOp {E : Nat → Prop} (s : State) (c : Cmd) (e : Nat) (err : OpErr) : Spares E s (failOp s c e err) := by
  unfold failOp
  extract_lets t
  have ht : Spares E s t := by
    show Spares E s (match errRecord e c err with
      | some r => addRecord s c.plot r
      | none => s)
    split
    · exact (notes_addRecord ..).spares
    · exact .refl _
  exact ht.trans (spares_endCmd ..)

theorem spares_failDirect {E : Nat → Prop} (s : State) (c : Cmd) (e : Nat) (err : OpErr) (h : ¬E (byteAt c.params 0)) :
    Spares E s (failDirect s c e err) := by
  unfold failDirect
  split
  · exact (spares_spoilDests _ _ h).trans (spares_failOp ..)
  · exact spares_failOp ..

end Sys2Proof.Machine
end

