-- ==== Sys2Proof/Laws/Spad.lean ====
section
/-!
SUPPORT. What a store does to the bytes of a scratchpad, and what leaves them alone (R185, R186, R211, R505).
-/

namespace Sys2Proof.Machine

theorem storeBits_wf (s : Store) (a v k : Nat) (h : mwf s = true) : mwf (storeBits s a v k) = true := by
  unfold storeBits
  split <;> exact mput_wf _ _ _ h

theorem mget_storeBits_new (s : Store) (a v k c : Nat) (h : mget s a = none) :
    mget (storeBits s a v k) c = if c = a then some (Nat.land v k, k) else mget s c := by
  unfold storeBits
  rw [h]
  simp

theorem land_byte (b : Byte) : Nat.land b.toNat 255 = b.toNat := by
  have h : b.toNat < 2 ^ 8 := b.isLt
  have e : b.toNat &&& (2 ^ 8 - 1) = b.toNat % 2 ^ 8 := Nat.and_two_pow_sub_one_eq_mod ..
  rw [Nat.mod_eq_of_lt h] at e
  exact e

theorem merge_byte (o : Nat) (b : Byte) : BitVec.ofNat 8 (mergeBits o b.toNat 255) = b := by
  unfold mergeBits
  have z : Nat.land o (255 - 255) = 0 := Nat.and_zero o
  rw [z, land_byte]
  have : Nat.lor 0 b.toNat = b.toNat := Nat.zero_or _
  rw [this]
  simp

theorem storeMem_wf (s : Store) (m : Memory) (h : m.wf = true) : (storeMem s m).wf = true := by
  induction s generalizing m with
  | nil => exact h
  | cons p s ih => exact ih _ (Memory.write_wf _ _ _ h)

theorem storeMem_none (s : Store) (m : Memory) (h : m.wf = true) (a : Nat) (k : ∀ p ∈ s, p.1 ≠ a) :
    (storeMem s m).read a = m.read a := by
  induction s generalizing m with
  | nil => rfl
  | cons p s ih =>
    show (storeMem s _).read a = _
    rw [ih _ (Memory.write_wf _ _ _ h) fun q hq => k q (List.mem_cons_of_mem _ hq), Memory.read_write _ _ _ _ h,
      if_neg fun e => k p List.mem_cons_self e.symm]

/-- A store writes whole bytes of a list at the addresses it names. -/
def Whole (s : Store) (v : Nat → Option Byte) : Prop :=
  mwf s = true ∧ ∀ p ∈ s, ∃ b : Byte, v p.1 = some b ∧ p.2 = (b.toNat, 255)

theorem storeMem_whole (s : Store) (v : Nat → Option Byte) (m : Memory) (hs : Whole s v) (h : m.wf = true) (a : Nat) :
    (storeMem s m).read a = if a ∈ s.map (·.1) then (v a).getD 0 else m.read a := by
  induction s generalizing m with
  | nil => simp [storeMem]
  | cons p s ih =>
    obtain ⟨hw, hv⟩ := hs
    obtain ⟨k, x⟩ := p
    obtain ⟨ha, hw'⟩ := (mwf_cons ..).1 hw
    obtain ⟨b, hb, hx⟩ := hv _ List.mem_cons_self
    cases hx
    have hh := ih (m.write k (BitVec.ofNat 8 (mergeBits (m.read k).toNat b.toNat 255))) ⟨hw', fun q hq => hv q (List.mem_cons_of_mem _ hq)⟩
      (Memory.write_wf _ _ _ h)
    show (storeMem s _).read a = _
    rw [hh, merge_byte, Memory.read_write _ _ _ _ h]
    by_cases e : a = k
    · subst e
      have hn : a ∉ s.map (·.1) := by
        intro hm
        obtain ⟨q, hq, e⟩ := List.mem_map.1 hm
        exact absurd (ha q hq) (by omega)
      rw [if_neg hn, if_pos rfl, if_pos (by simp), show v a = some b from hb]; rfl
    · rw [if_neg e]
      simp only [List.map_cons, List.mem_cons, e, false_or]

theorem whole_add {s : Store} {v : Nat → Option Byte} (h : Whole s v) (a : Nat) (b : Byte) (hn : mget s a = none)
    (k : ∀ p ∈ s, p.1 ≠ a) : Whole (storeBits s a b.toNat 255) (fun c => if c = a then some b else v c) := by
  refine ⟨storeBits_wf _ _ _ _ h.1, fun p hp => ?_⟩
  unfold storeBits at hp
  rw [hn] at hp
  rcases mem_mput hp with rfl | hp
  · exact ⟨b, if_pos rfl, by rw [land_byte]⟩
  · obtain ⟨c, hc, e⟩ := h.2 p hp
    exact ⟨c, (if_neg (k p hp)).trans hc, e⟩

theorem mem_mput_key {α : Type} (m : Map α) (a : Nat) (x : α) (c : Nat) :
    c ∈ (mput m a x).map (·.1) ↔ c = a ∨ c ∈ m.map (·.1) := by
  induction m with
  | nil => simp [mput]
  | cons p m ih =>
    obtain ⟨k, v⟩ := p
    unfold mput
    split
    · simp
    · split
      · next h => subst h; simp
      · simp only [List.map_cons, List.mem_cons, ih]
        constructor
        · rintro (h | h | h)
          · exact .inr (.inl h)
          · exact .inl h
          · exact .inr (.inr h)
        · rintro (h | h | h)
          · exact .inr (.inl h)
          · exact .inl h
          · exact .inr (.inr h)

theorem mget_none_of {α : Type} {m : Map α} {a : Nat} (h : ∀ p ∈ m, p.1 ≠ a) : mget m a = none := by
  induction m with
  | nil => rfl
  | cons p m ih =>
    have h1 := h p List.mem_cons_self
    have h2 := ih fun q hq => h q (List.mem_cons_of_mem _ hq)
    obtain ⟨k, x⟩ := p
    simp [mget, Ne.symm h1, h2]

theorem key_storeBits (s : Store) (a v k c : Nat) (h : ∀ p ∈ s, p.1 ≠ a) :
    c ∈ (storeBits s a v k).map (·.1) ↔ c = a ∨ c ∈ s.map (·.1) := by
  unfold storeBits
  rw [mget_none_of h]
  exact mem_mput_key ..

/-- The bytes of a list, each at its own address, over a store that names none of them. -/
theorem whole_storeOf (bs : List (Nat × Byte)) (s : Store) (v : Nat → Option Byte) (h : Whole s v) (hn : (bs.map (·.1)).Nodup)
    (k : ∀ p ∈ s, p.1 ∉ bs.map (·.1)) :
    ∃ w, Whole (storeOf bs s) w ∧ (∀ c, c ∈ (storeOf bs s).map (·.1) ↔ c ∈ bs.map (·.1) ∨ c ∈ s.map (·.1)) ∧
      (∀ b ∈ bs, w b.1 = some b.2) ∧ ∀ c, c ∉ bs.map (·.1) → w c = v c := by
  induction bs generalizing s v with
  | nil => exact ⟨v, h, by simp [storeOf], by simp, by simp⟩
  | cons p bs ih =>
    obtain ⟨a, b⟩ := p
    rw [List.map_cons, List.nodup_cons] at hn
    have ka : ∀ p ∈ s, p.1 ≠ a := fun p hp e => k p hp (by simp [e])
    obtain ⟨w, h1, h2, h3, h4⟩ := ih (storeBits s a b.toNat 255) _ (whole_add h a b (mget_none_of ka) ka) hn.2 (by
      intro p hp
      have hk : p.1 ∈ (storeBits s a b.toNat 255).map (·.1) := List.mem_map_of_mem hp
      rw [key_storeBits _ _ _ _ _ ka] at hk
      rcases hk with e | hk
      · rw [e]; exact hn.1
      · obtain ⟨q, hq, e⟩ := List.mem_map.1 hk
        intro hm
        exact k q hq (by rw [List.map_cons, List.mem_cons]; right; rw [e]; exact hm))
    refine ⟨w, h1, fun c => ?_, fun q hq => ?_, fun c hc => ?_⟩
    · show c ∈ (storeOf bs _).map (·.1) ↔ _
      rw [h2, key_storeBits _ _ _ _ _ ka, List.map_cons, List.mem_cons]
      tauto
    · rcases List.mem_cons.1 hq with rfl | hq
      · rw [h4 _ hn.1]; exact if_pos rfl
      · exact h3 q hq
    · rw [List.map_cons, List.mem_cons, not_or] at hc
      rw [h4 c hc.2, if_neg hc.1]

theorem storeBytes_storeOf (bs : List Byte) (s : Store) (a : Nat) :
    storeBytes s a bs = storeOf (bs.zipIdx.map fun b => (a + b.2, b.1)) s := by
  have h : ∀ (bs : List Byte) (s : Store) (a i : Nat), storeBytes s (a + i) bs = storeOf ((bs.zipIdx i).map fun b => (a + b.2, b.1)) s := by
    intro bs
    induction bs with
    | nil => intros; rfl
    | cons b bs ih => intro s a i; exact ih _ a (i + 1)
  exact h bs s a 0

theorem store_mem (p : Spad) (s : Store) : (p.store s).1.mem = storeMem s p.mem ∧ (p.store s).1.comb = p.comb ∧ (p.store s).1.full = p.full := by
  have h : ∀ (gs : List Nat) (x : Spad × Trace), (gs.foldl (fun x g => judgeGranule s x.1 x.2 g) x).1.mem = x.1.mem ∧
      (gs.foldl (fun x g => judgeGranule s x.1 x.2 g) x).1.comb = x.1.comb ∧
      (gs.foldl (fun x g => judgeGranule s x.1 x.2 g) x).1.full = x.1.full := by
    intro gs
    induction gs with
    | nil => intro x; exact ⟨rfl, rfl, rfl⟩
    | cons g gs ih =>
      intro x
      have hj : (judgeGranule s x.1 x.2 g).1.mem = x.1.mem ∧ (judgeGranule s x.1 x.2 g).1.comb = x.1.comb ∧
          (judgeGranule s x.1 x.2 g).1.full = x.1.full := by
        unfold judgeGranule
        repeat' split
        all_goals exact ⟨rfl, rfl, rfl⟩
      exact ⟨(ih _).1.trans hj.1, (ih _).2.1.trans hj.2.1, (ih _).2.2.trans hj.2.2⟩
  have := h (storeGranules s) (p, Trace.empty)
  unfold Spad.store
  dsimp only
  rw [this.1]
  exact ⟨rfl, this.2⟩

theorem storeAll_fold (ss : List Store) (x : Spad × Trace) :
    (ss.foldl (fun x s => let r := x.1.store s; (r.1, x.2.append r.2)) x).1.mem = ss.foldl (fun m s => storeMem s m) x.1.mem ∧
      (ss.foldl (fun x s => let r := x.1.store s; (r.1, x.2.append r.2)) x).1.comb = x.1.comb := by
  induction ss generalizing x with
  | nil => exact ⟨rfl, rfl⟩
  | cons s ss ih =>
    have h := store_mem x.1 s
    refine ⟨(ih _).1.trans ?_, (ih _).2.trans h.2.1⟩
    show ss.foldl _ (x.1.store s).1.mem = _
    rw [h.1]; rfl

theorem storeAll_mem (p : Spad) (ss : List Store) : (p.storeAll ss).1.mem = ss.foldl (fun m s => storeMem s m) p.mem :=
  (storeAll_fold ss (p, Trace.empty)).1

theorem storeAll_comb (p : Spad) (ss : List Store) : (p.storeAll ss).1.comb = p.comb := (storeAll_fold ss (p, Trace.empty)).2

theorem drain_comb (p : Spad) : p.drain.1.comb = [] := storeAll_comb _ _

/-- Parts of one store, each whole: the bytes they name take the store's values, and no other byte changes. -/
theorem stores_whole (ss : List Store) (v : Nat → Option Byte) (m : Memory) (h : m.wf = true) (hs : ∀ s ∈ ss, Whole s v) (a : Nat) :
    (ss.foldl (fun m s => storeMem s m) m).wf = true ∧
    (ss.foldl (fun m s => storeMem s m) m).read a = if ∃ s ∈ ss, a ∈ s.map (·.1) then (v a).getD 0 else m.read a := by
  induction ss generalizing m with
  | nil => simp [h]
  | cons s ss ih =>
    have hw := storeMem_wf s m h
    obtain ⟨i1, i2⟩ := ih (storeMem s m) hw fun t ht => hs t (List.mem_cons_of_mem _ ht)
    refine ⟨i1, i2.trans ?_⟩
    rw [storeMem_whole s v m (hs s List.mem_cons_self) h]
    by_cases e1 : ∃ t ∈ ss, a ∈ t.map (·.1)
    · rw [if_pos e1, if_pos (by obtain ⟨t, ht, k⟩ := e1; exact ⟨t, List.mem_cons_of_mem _ ht, k⟩)]
    · rw [if_neg e1]
      by_cases e2 : a ∈ s.map (·.1)
      · rw [if_pos e2, if_pos ⟨s, List.mem_cons_self, e2⟩]
      · rw [if_neg e2, if_neg]
        rintro ⟨t, ht, k⟩
        rcases List.mem_cons.1 ht with rfl | ht
        · exact e2 k
        · exact e1 ⟨t, ht, k⟩

theorem whole_storeIn {s : Store} {v : Nat → Option Byte} (h : Whole s v) (b : Nat) : Whole (storeIn s b) v := by
  refine ⟨?_, fun p hp => h.2 p (List.mem_of_mem_filter hp)⟩
  rw [mwf_iff]
  exact ((mwf_iff s).1 h.1).sublist List.filter_sublist

theorem mem_storeBlocks (s : Store) (a : Nat) (x : Nat × Nat) (h : (a, x) ∈ s) : a / 256 ∈ storeBlocks s := by
  induction s with
  | nil => cases h
  | cons p s ih =>
    obtain ⟨b, y⟩ := p
    unfold storeBlocks
    dsimp only
    rcases List.mem_cons.1 h with e | e
    · cases e
      split
      · next e => exact List.mem_of_mem_head? (by rw [e]; rfl)
      · exact List.mem_cons_self
    · split
      · exact ih e
      · exact List.mem_cons_of_mem _ (ih e)

/-- A range stored block by block. -/
theorem rangeStores_read (a : Nat) (bs : List Byte) (m : Memory) (h : m.wf = true) :
    ((rangeStores a bs).foldl (fun m s => storeMem s m) m).wf = true ∧
    (∀ k b, bs[k]? = some b → ((rangeStores a bs).foldl (fun m s => storeMem s m) m).read (a + k) = b) ∧
    ∀ c, c < a ∨ a + bs.length ≤ c → ((rangeStores a bs).foldl (fun m s => storeMem s m) m).read c = m.read c := by
  have hn : ((bs.zipIdx.map fun b => (a + b.2, b.1)).map (·.1)).Nodup := by
    rw [List.map_map]
    have : (bs.zipIdx.map ((fun x : Nat × Byte => x.1) ∘ fun b => (a + b.2, b.1))) = (bs.zipIdx.map Prod.snd).map (a + ·) := by
      rw [List.map_map]; rfl
    rw [this, List.zipIdx_map_snd]
    exact (List.nodup_range' ..).map fun x y e => by simpa using e
  obtain ⟨w, h1, h2, h3, -⟩ := whole_storeOf (bs.zipIdx.map fun b => (a + b.2, b.1)) [] (fun _ => none) ⟨rfl, by simp⟩ hn (by simp)
  rw [← storeBytes_storeOf] at h1 h2
  have hs : ∀ s ∈ rangeStores a bs, Whole s w := by
    intro s hs
    unfold rangeStores at hs
    obtain ⟨b, -, rfl⟩ := List.mem_map.1 hs
    exact whole_storeIn h1 b
  have hk : ∀ c, (∃ s ∈ rangeStores a bs, c ∈ s.map (·.1)) ↔ ∃ k, k < bs.length ∧ c = a + k := by
    intro c
    have hm : c ∈ (storeBytes [] a bs).map (·.1) ↔ ∃ k, k < bs.length ∧ c = a + k := by
      rw [h2]
      simp only [List.map_nil, List.not_mem_nil, or_false, List.map_map, List.mem_map]
      constructor
      · rintro ⟨⟨b, k⟩, hb, rfl⟩
        have := List.mem_zipIdx hb
        exact ⟨k, by simpa using this.2.1, rfl⟩
      · rintro ⟨k, hk, rfl⟩
        exact ⟨(bs[k], k), List.mk_mem_zipIdx_iff_getElem?.2 (List.getElem?_eq_getElem hk), rfl⟩
    rw [← hm]
    unfold rangeStores
    constructor
    · rintro ⟨s, hs, hc⟩
      obtain ⟨b, -, rfl⟩ := List.mem_map.1 hs
      obtain ⟨q, hq, rfl⟩ := List.mem_map.1 hc
      exact List.mem_map_of_mem (List.mem_of_mem_filter hq)
    · intro hc
      obtain ⟨q, hq, rfl⟩ := List.mem_map.1 hc
      exact ⟨_, List.mem_map_of_mem (mem_storeBlocks _ q.1 q.2 hq), List.mem_map_of_mem (List.mem_filter.2 ⟨hq, by simp⟩)⟩
  refine ⟨(stores_whole _ w m h hs 0).1, fun k b hb => ?_, fun c hc => ?_⟩
  · obtain ⟨hl, hv⟩ := List.getElem?_eq_some_iff.1 hb
    rw [(stores_whole _ w m h hs _).2, if_pos ((hk _).2 ⟨k, hl, rfl⟩),
      h3 (a + k, b) (List.mem_map.2 ⟨(b, k), List.mk_mem_zipIdx_iff_getElem?.2 hb, rfl⟩)]
    rfl
  · rw [(stores_whole _ w m h hs _).2, if_neg]
    rintro hx
    obtain ⟨k, hk, rfl⟩ := (hk _).1 hx
    omega

theorem tagsAre_setTags (p : Spad) (b : Bool) (f n : Nat) : (p.setTags b f n).tagsAre b f n = true := by
  unfold Spad.tagsAre Spad.setTags
  rw [List.all_eq_true]
  intro i hi
  have hi := List.mem_range.1 hi
  cases b
  · simp only [beq_iff_eq, Bool.false_eq_true, if_false, clearRange]
    rw [List.contains_eq_mem, decide_eq_false_iff_not, List.mem_filter]
    simp only [Bool.or_eq_true, decide_eq_true_eq]
    omega
  · simp only [beq_iff_eq, if_true, setRange]
    rw [List.contains_eq_mem, decide_eq_true_eq]
    simp only [List.mem_append, List.mem_map, List.mem_range]
    exact .inl (.inr ⟨i, hi, rfl⟩)

theorem upsetGranules_mem (us : List (Nat × GState)) (p : Spad) (lo hi : Nat) :
    (upsetGranules p lo hi us).mem = p.mem ∧ (upsetGranules p lo hi us).full = p.full ∧ (upsetGranules p lo hi us).comb = p.comb := by
  unfold upsetGranules
  induction us generalizing p with
  | nil => exact ⟨rfl, rfl, rfl⟩
  | cons u us ih =>
    rw [List.foldl_cons]
    refine ⟨(ih _).1.trans ?_, (ih _).2.1.trans ?_, (ih _).2.2.trans ?_⟩ <;> split <;> rfl

end Sys2Proof.Machine
end

