-- ==== Sys2Proof/Laws/Logs.lean ====
section
/-!
SUPPORT. What adding an error record does to the device log, and small facts about engines.
-/

namespace Sys2Proof.Machine

theorem setEng_setEng (s : State) (e : Nat) (x y : Engine) : (s.setEng e x).setEng e y = s.setEng e y := by
  simp only [State.setEng, mput_mput]

theorem eng_other (s : State) (e : Nat) (g : Engine → Engine) (j : Nat) (h : j ≠ e) : (s.modEng e g).eng j = s.eng j :=
  State.eng_setEng_other _ _ _ _ h

theorem signalVec_devLog (s : State) (f : FuncId) (v : Nat) : (signalVec s f v).devLog = s.devLog := by
  unfold signalVec; dsimp only; split <;> rfl

theorem report_devLog (s : State) (r : Rec) : (reportRecord s r).devLog = s.devLog := by
  have he : (sendEvent s r.bytes).devLog = s.devLog := by unfold sendEvent; split <;> rfl
  unfold reportRecord
  extract_lets t
  split
  · dsimp only
    split
    · exact (signalVec_devLog ..).trans he
    · exact he
  · exact he

theorem notePlot_devLog (s : State) (p : Plot) (b : Bool) : (notePlot s p b).devLog = s.devLog := by
  unfold notePlot
  have h : ∀ (w : State) (f : FuncId), (if (w.fn f).enable then signalErr w f else w).devLog = w.devLog := by
    intro w f
    split
    · exact signalVec_devLog ..
    · rfl
  refine fold_same State.devLog _ _ _ fun u f => ?_
  exact (h _ f).trans rfl

theorem plotRecord_devLog (s : State) (p : Nat) (r : Rec) : (plotRecord s p r).devLog = s.devLog := by
  unfold plotRecord
  split
  · rfl
  · exact notePlot_devLog ..

theorem addRecord_devLog (s : State) (p : Option Nat) (r : Rec) : (addRecord s p r).devLog = (s.devLog.add 256 { r with time := s.timeMs }).1 := by
  unfold addRecord
  extract_lets r' t
  have ht : t.devLog = s.devLog := by
    simp only [t]
    split
    · split
      · exact plotRecord_devLog ..
      · rfl
    · generalize s.plots = l
      have : ∀ u : State, (l.foldl (fun u q => plotRecord u q.1 (if r'.cls = 2 then r'.blind else r')) u).devLog = u.devLog := by
        intro u
        induction l generalizing u with
        | nil => rfl
        | cons q l ih => rw [List.foldl_cons, ih]; exact plotRecord_devLog ..
      exact this s
  unfold deviceRecord
  rw [← ht]
  extract_lets a
  split
  · exact report_devLog ..
  · rfl

theorem logged_addRecord (s : State) (p : Option Nat) (r : Rec) : Logged s (addRecord s p r) r := ⟨notes_addRecord .., addRecord_devLog ..⟩

theorem mget_mem {α : Type} {m : Map α} {k : Nat} {x : α} (h : mget m k = some x) : (k, x) ∈ m := by
  induction m with
  | nil => cases h
  | cons p m ih =>
    obtain ⟨a, v⟩ := p
    unfold mget at h
    split at h
    · next e => cases h; subst e; exact List.mem_cons_self
    · split at h
      · cases h
      · exact List.mem_cons_of_mem _ (ih h)

end Sys2Proof.Machine
end

