-- ==== Sys2Proof/Laws/Faults.lean ====
section
/-!
SUPPORT. What the faults that end commands change, what a Gatehouse restart begins with, and the entry to the fatal state.
-/

namespace Sys2Proof.Machine

/-- An engine without what its operations change: scratchpad, buffers, waiting operations and captures. -/
def Engine.steady (x : Engine) : Engine :=
  { x with spad := Spad.clear, wfu := Wfu.clear, ops := [], stuck := [], scalars := [] }
/-- What faults that end commands change. -/
structure Hurt (s t : State) : Prop where
  rest : ∃ o fs pt pc pr cs pl tr en i dl a b c d, t = { s with
    out := o, funcs := fs, ports := pt, pcp := pc, pcpReset := pr, cmds := cs, plots := pl, secure := { s.secure with trace := tr }, engines := en,
    freeIx := i, devLog := dl, devNew := a, devLost := b, devCe := c, devSetAt := d }
  eng : ∀ e, Engine.steady (t.eng e) = Engine.steady (s.eng e)

theorem Hurt.refl (s : State) : Hurt s s := ⟨⟨_, _, _, _, _, _, _, _, _, _, _, _, _, _, _, rfl⟩, fun _ => rfl⟩

theorem Hurt.trans {s t u : State} (h : Hurt s t) (k : Hurt t u) : Hurt s u := by
  obtain ⟨⟨_, _, _, _, _, _, _, _, _, _, _, _, _, _, _, rfl⟩, he⟩ := h
  obtain ⟨⟨_, _, _, _, _, _, _, _, _, _, _, _, _, _, _, rfl⟩, ke⟩ := k
  exact ⟨⟨_, _, _, _, _, _, _, _, _, _, _, _, _, _, _, rfl⟩, fun e => (ke e).trans (he e)⟩

theorem hurt_fold {α : Type} (g : State → α → State) (l : List α) (s : State) (h : ∀ t x, Hurt t (g t x)) : Hurt s (l.foldl g s) := by
  induction l generalizing s with
  | nil => exact Hurt.refl _
  | cons x l ih => exact (h s x).trans (ih _)

theorem Notes.hurt {s t : State} (h : Notes s t) : Hurt s t := by
  obtain ⟨⟨_, _, _, _, _, _, _, _, _, rfl⟩, -, -, -⟩ := h
  exact ⟨⟨_, _, _, _, _, _, _, _, _, _, _, _, _, _, _, rfl⟩, fun _ => rfl⟩

theorem Ends.hurt {s t : State} (h : Ends s t) : Hurt s t := by
  obtain ⟨_, _, _, _, _, _, _, _, rfl⟩ := h
  exact ⟨⟨_, _, _, _, _, _, _, _, _, _, _, _, _, _, _, rfl⟩, fun _ => rfl⟩

theorem hurt_mod (t : State) (k i : Nat) (m : Engine → Engine) (h : ∀ x, Engine.steady (m x) = Engine.steady x) :
    Hurt t { t.modEng k m with freeIx := i } := by
  refine ⟨⟨_, _, _, _, _, _, _, _, _, _, _, _, _, _, _, rfl⟩, fun e => ?_⟩
  have he : ({ t.modEng k m with freeIx := i } : State).eng e = (t.modEng k m).eng e := rfl
  rw [he]
  by_cases hk : e = k
  · rw [hk, State.eng_modEng]; exact h _
  · rw [eng_other _ _ _ _ hk]

theorem hurt_spoil (s : State) (c : Cmd) : Hurt s (spoilDests s c) := by
  unfold spoilDests freeBytes
  exact hurt_fold _ _ _ fun t q => hurt_mod t _ _ _ fun x => rfl

theorem Hurt.failed {s t : State} (h : Hurt s t) (e : Nat) : (t.eng e).failed = (s.eng e).failed :=
  show (Engine.steady (t.eng e)).failed = (Engine.steady (s.eng e)).failed from by rw [h.eng]

theorem Hurt.lclk {s t : State} (h : Hurt s t) : t.lclk = s.lclk := by
  obtain ⟨⟨_, _, _, _, _, _, _, _, _, _, _, _, _, _, _, rfl⟩, -⟩ := h; rfl

theorem Hurt.pairs {s t : State} (h : Hurt s t) : t.pairs = s.pairs ∧ t.restart = s.restart ∧ t.fatal = s.fatal := by
  obtain ⟨⟨_, _, _, _, _, _, _, _, _, _, _, _, _, _, _, rfl⟩, -⟩ := h; exact ⟨rfl, rfl, rfl⟩

theorem hurt_setEng (t : State) (k : Nat) (x : Engine) (h : x.steady = (t.eng k).steady) : Hurt t (t.setEng k x) := by
  refine ⟨⟨_, _, _, _, _, _, _, _, _, _, _, _, _, _, _, rfl⟩, fun e => ?_⟩
  by_cases hk : e = k
  · rw [hk, State.eng_setEng]; exact h
  · rw [State.eng_setEng_other _ _ _ _ hk]

theorem hurt_modEng (t : State) (k : Nat) (m : Engine → Engine) (h : ∀ x, Engine.steady (m x) = Engine.steady x) : Hurt t (t.modEng k m) :=
  hurt_setEng _ _ _ (h _)

theorem hurt_drainEngine (s : State) (e : Nat) (c : Option Cmd) : Hurt s (drainEngine s e c) := by
  unfold drainEngine
  extract_lets x r
  exact Hurt.trans (hurt_setEng s e { x with spad := r.1 } rfl) (notes_applyTrace ..).hurt

/-- What a command's end cancels in the engines of its plot (R97, R210). -/
theorem hurt_endWork (s : State) (c : Cmd) : Hurt s (endWork s c) := by
  unfold endWork
  split
  · refine hurt_fold _ _ _ fun t e => ?_
    unfold endOn
    extract_lets x mine used y
    split
    · refine Hurt.trans (hurt_setEng _ _ _ ?_) (hurt_drainEngine ..)
      simp only [y]
      split <;> rfl
    · exact Hurt.refl _
  · exact Hurt.refl _

theorem hurt_faultCmd (s : State) (c : Cmd) (st : Status) : Hurt s (faultCmd s c st) := by
  unfold faultCmd failCmd
  extract_lets t
  refine ((hurt_endWork s c).trans ?_).trans (Ends.hurt (ends_endCmd _ _ _))
  split
  · exact hurt_spoil ..
  · exact Hurt.refl _

theorem diag_slice {s t : State} (h : Hurt s t) (e : Nat) (hf : (s.eng e).failed = false) :
    ((startDiagnostic t e).eng e).slice = some ⟨.diagnostic, s.lclk, 0⟩ := by
  unfold startDiagnostic
  rw [h.failed, hf]
  rw [if_neg Bool.false_ne_true]
  unfold startSlice
  extract_lets u
  show (u.eng e).slice = _
  simp only [u, State.eng_modEng, h.lclk]

theorem diag_note (t : State) (e : Nat) : ((startDiagnostic t e).eng e).note = (t.eng e).note := by
  unfold startDiagnostic startSlice
  extract_lets u
  split
  · rfl
  · show (u.eng e).note = _
    simp only [u, State.eng_modEng]

theorem failEngine_failed (s : State) (e : Nat) : ((failEngine s e).eng e).failed = true := by
  unfold failEngine
  split
  · assumption
  · rw [(notes_addRecord ..).eng, State.eng_modEng]

theorem hurt_users (type e : Nat) (s : State) (l : List Cmd) : Hurt s (l.foldl (endUser type e) s) := by
  refine hurt_fold _ _ _ fun t c => ?_
  unfold endUser
  split
  · exact (notes_addRecord ..).hurt.trans (hurt_faultCmd ..)
  · exact Hurt.refl _

/-- A clock or rail error that cannot be restored makes the engine FAILED, and no engine leaves that state (R360, R364). -/
theorem engineHit_failed (type e : Nat) (s : State) (j : Nat) (h : j = e ∨ (s.eng j).failed = true) :
    ((engineHit type e false s).eng j).failed = true := by
  unfold engineHit
  simp only [Bool.false_eq_true, if_false]
  have hu := hurt_users type e s (engineUsers s e)
  by_cases hj : j = e
  · subst hj; exact failEngine_failed ..
  · have hf : ((failEngine ((engineUsers s e).foldl (endUser type e) s) e).eng j).failed = (s.eng j).failed := by
      unfold failEngine
      split
      · exact hu.failed j
      · rw [(notes_addRecord ..).eng, eng_other _ _ _ _ hj]; exact hu.failed j
    rw [hf]
    exact h.resolve_left hj

theorem hits_failed (type : Nat) (l : List Nat) (s : State) (j : Nat) (h : j ∈ l ∨ (s.eng j).failed = true) :
    ((l.foldl (fun t e => if (t.eng e).failed then t else engineHit type e false t) s).eng j).failed = true := by
  induction l generalizing s with
  | nil => exact h.resolve_left (by simp)
  | cons e l ih =>
    simp only [List.foldl_cons]
    refine ih _ ?_
    rcases h with h | h
    · rcases List.mem_cons.1 h with rfl | h
      · refine .inr ?_
        split
        · assumption
        · exact engineHit_failed _ _ _ _ (.inl rfl)
      · exact .inl h
    · refine .inr ?_
      split
      · exact h
      · exact engineHit_failed _ _ _ _ (.inr h)

/-- Cancelling the engines' work at a restart (R365). -/
theorem cancelled_eng (s : State) (e : Nat) :
    ({ s with engines := s.engines.map fun x => (x.1, x.2.cancelled) } : State).eng e = (s.eng e).cancelled := by
  unfold State.eng
  dsimp only
  rw [mget_map_snd]
  cases mget s.engines e <;> rfl

theorem enterFatal_facts (n : Nat) (s : State) (h : s.fatal = false) : (enterFatal n s).fatal = true ∧ (enterFatal n s).cmds = [] ∧ (enterFatal n s).backup = s.backup := by
  unfold enterFatal
  simp only [h, Bool.false_eq_true, if_false]
  have hn := notes_addRecord { snapshot s with fatal := true, cmds := [], restart := none } none (deviceEvent 0x000F 3 n 0 0)
  obtain ⟨⟨_, _, _, _, _, _, _, _, _, hh⟩, -, -, -⟩ := hn
  rw [hh]
  exact ⟨rfl, rfl, rfl⟩

theorem alive_fatal {s : State} (h : s.alive = true) : s.fatal = false := by
  simp only [State.alive, Bool.and_eq_true, Bool.not_eq_true'] at h; exact h.2

theorem alive_lodge {s : State} (h : s.alive = true) : s.lodgeUp = true := by
  simp only [State.alive, State.lodgeUp, Bool.and_eq_true] at h ⊢; exact h.1

theorem restart_go (c : RestartCause) (s : State) (h : (s.restartTimes.filter fun t => decide (s.lclk < t + msec 1000)).length < 2) :
    ∀ rt, rt = (s.restartTimes.filter fun t => decide (s.lclk < t + msec 1000)) ++ [s.lclk] →
    startRestart c s = { s with restart := some c, restarts := sat16 (s.restarts + 1), restartTimes := rt, latent := none, engines := s.engines.map fun e => (e.1, e.2.cancelled) } := by
  rintro _ rfl
  unfold startRestart
  dsimp only
  rw [if_neg]
  rw [List.length_append]; simp only [List.length_cons, List.length_nil]; omega

theorem rec_fatal {s : State} (h : s.fatal = false) (p : Option Nat) (r : Rec) : (addRecord s p r).fatal = false :=
  (notes_addRecord ..).hurt.pairs.2.2.trans h

end Sys2Proof.Machine
end

