-- ==== Sys2Proof/Laws/Resets.lean ====
section
/-!
SUPPORT. What function resets do to functions, and what they leave alone (R348 to R350, R457).
-/

namespace Sys2Proof.Machine

/-- Pins, the clock and bring-up are the same, a link that is down stays down, commands only leave, and each function keeps its
configuration, ENABLE, FLR and count of rejected writes, and has no queue where it had none. -/
structure Calm (s t : State) : Prop where
  rest : t.pins = s.pins ∧ (∀ p, (s.port p).link = .down → (t.port p).link = .down) ∧ t.lclk = s.lclk ∧ t.boot = s.boot
  cmds : ∀ c ∈ t.cmds, c ∈ s.cmds
  fns : ∀ f, (t.fn f).cfg = (s.fn f).cfg ∧ (t.fn f).enable = (s.fn f).enable ∧ (t.fn f).flr = (s.fn f).flr ∧
    ((s.fn f).queues = [] → (t.fn f).queues = []) ∧ (t.fn f).regCnt = (s.fn f).regCnt

theorem Calm.refl (s : State) : Calm s s := ⟨⟨rfl, fun _ h => h, rfl, rfl⟩, fun _ h => h, fun _ => ⟨rfl, rfl, rfl, id, rfl⟩⟩

theorem Calm.trans {s t u : State} (h : Calm s t) (k : Calm t u) : Calm s u :=
  ⟨⟨k.rest.1.trans h.rest.1, fun p e => k.rest.2.1 p (h.rest.2.1 p e), k.rest.2.2.1.trans h.rest.2.2.1, k.rest.2.2.2.trans h.rest.2.2.2⟩,
    fun c hc => h.cmds c (k.cmds c hc), fun f => ⟨(k.fns f).1.trans (h.fns f).1, (k.fns f).2.1.trans (h.fns f).2.1,
      (k.fns f).2.2.1.trans (h.fns f).2.2.1, fun e => (k.fns f).2.2.2.1 ((h.fns f).2.2.2.1 e), (k.fns f).2.2.2.2.trans (h.fns f).2.2.2.2⟩⟩

theorem calm_foldl {α : Type} (g : State → α → State) (l : List α) (s : State) (h : ∀ t x, Calm t (g t x)) : Calm s (l.foldl g s) := by
  induction l generalizing s with
  | nil => exact Calm.refl _
  | cons x l ih => exact (h s x).trans (ih _)

theorem calm_setPlot (s : State) (n : Nat) (p : Plot) : Calm s (s.setPlot n p) :=
  ⟨⟨rfl, fun _ h => h, rfl, rfl⟩, fun _ h => h, fun _ => ⟨rfl, rfl, rfl, id, rfl⟩⟩

theorem calm_modEng (s : State) (e i : Nat) (g : Engine → Engine) : Calm s { s.modEng e g with freeIx := i } :=
  ⟨⟨rfl, fun _ h => h, rfl, rfl⟩, fun _ h => h, fun _ => ⟨rfl, rfl, rfl, id, rfl⟩⟩

theorem calm_setEng (s : State) (e : Nat) (x : Engine) : Calm s (s.setEng e x) :=
  ⟨⟨rfl, fun _ h => h, rfl, rfl⟩, fun _ h => h, fun _ => ⟨rfl, rfl, rfl, id, rfl⟩⟩

theorem calm_modFn (s : State) (f : FuncId) (g : Func → Func) (h : ∀ x : Func, (g x).cfg = x.cfg ∧ (g x).enable = x.enable ∧
    (g x).flr = x.flr ∧ (x.queues = [] → (g x).queues = []) ∧ (g x).regCnt = x.regCnt) : Calm s (s.modFn f g) := by
  refine ⟨⟨rfl, fun _ h => h, rfl, rfl⟩, fun _ h => h, fun k => ?_⟩
  by_cases e : k = f
  · subst e; rw [State.fn_modFn]; exact h _
  · rw [show (s.modFn f g).fn k = s.fn k from State.fn_setFn_other _ _ _ _ e]; exact ⟨rfl, rfl, rfl, id, rfl⟩

theorem calm_modQueue (s : State) (src : Src) (g : Queue → Queue) : Calm s (s.modQueue src g) := by
  unfold State.modQueue
  cases hq : s.queue src with
  | none => exact Calm.refl _
  | some x =>
    cases src with
    | bmc => exact ⟨⟨rfl, fun _ h => h, rfl, rfl⟩, fun _ h => h, fun _ => ⟨rfl, rfl, rfl, id, rfl⟩⟩
    | ring f q =>
      have hx : mget (s.fn f).queues q = some x := hq
      refine ⟨⟨rfl, fun _ h => h, rfl, rfl⟩, fun _ h => h, fun k => ?_⟩
      show _ = _ ∧ _
      by_cases e : k = f
      · subst e
        rw [show (s.setQueue (.ring k q) (g x)).fn k = { s.fn k with queues := mput (s.fn k).queues q (g x) } from State.fn_modFn ..]
        exact ⟨rfl, rfl, rfl, (fun h => by rw [h] at hx; cases hx), rfl⟩
      · rw [show (s.setQueue (.ring f q) (g x)).fn k = s.fn k from State.fn_setFn_other _ _ _ _ e]; exact ⟨rfl, rfl, rfl, id, rfl⟩

theorem calm_stopPlot (s : State) (p : Nat) (b : Option Nat) : Calm s (stopPlot s p b) := by
  exact ⟨⟨rfl, fun _ h => h, rfl, rfl⟩, fun _ h => h, fun _ => ⟨rfl, rfl, rfl, id, rfl⟩⟩

theorem calm_undoStop (s : State) (c : Cmd) : Calm s (undoStop s c) := by
  unfold undoStop
  split
  · exact calm_modQueue ..
  · extract_lets p
    split
    · exact calm_stopPlot ..
    · exact Calm.refl _
  · exact Calm.refl _

theorem calm_signalVec (s : State) (f : FuncId) (v : Nat) : Calm s (signalVec s f v) := by
  unfold signalVec
  extract_lets e
  split
  · refine ⟨⟨rfl, fun p h => ?_, rfl, rfl⟩, fun _ h => h, fun _ => ⟨rfl, rfl, rfl, id, rfl⟩⟩
    show ((touchPort s f.port.val).port p).link = _
    unfold touchPort
    by_cases hp : p = f.port.val
    · subst hp; rw [State.port_setPort]; dsimp only; rw [h]; rfl
    · rw [State.port_setPort_other _ _ _ _ hp]; exact h
  · exact calm_modFn _ _ _ fun x => ⟨rfl, rfl, rfl, id, rfl⟩

theorem calm_plotRecord (s : State) (p : Nat) (r : Rec) : Calm s (plotRecord s p r) := by
  unfold plotRecord
  split
  · exact Calm.refl _
  · extract_lets a
    unfold notePlot
    refine (calm_setPlot ..).trans (calm_foldl _ _ _ fun t f => ?_)
    extract_lets u
    have hu : Calm t u := calm_modFn _ _ _ fun x => by split <;> exact ⟨rfl, rfl, rfl, id, rfl⟩
    split
    · exact hu.trans (calm_signalVec ..)
    · exact hu

theorem calm_deviceRecord (s : State) (r : Rec) : Calm s (deviceRecord s r) := by
  have hd : ∀ (l : Log) (a b c : Bool) (m : Map Nat), Calm s { s with devLog := l, devNew := a, devLost := b, devCe := c, devSetAt := m } :=
    fun _ _ _ _ _ => ⟨⟨rfl, fun _ h => h, rfl, rfl⟩, fun _ h => h, fun _ => ⟨rfl, rfl, rfl, id, rfl⟩⟩
  have he : ∀ u : State, Calm u (sendEvent u r.bytes) := fun u => by
    unfold sendEvent
    split
    · exact ⟨⟨rfl, fun _ h => h, rfl, rfl⟩, fun _ h => h, fun _ => ⟨rfl, rfl, rfl, id, rfl⟩⟩
    · exact Calm.refl _
  unfold deviceRecord
  extract_lets a
  split
  · refine Calm.trans (hd a.1 true s.devLost s.devCe (mput s.devSetAt 0 s.lclk)) ?_
    unfold reportRecord
    extract_lets t
    split
    · extract_lets f
      split
      · exact (he _).trans (calm_signalVec ..)
      · exact he _
    · exact he _
  · exact hd ..

/-- What an operation's accesses found (R211, R376). -/
theorem calm_applyTrace (s : State) (p : Option Nat) (e : Nat) (c : Option Cmd) (tr : Trace) : Calm s (applyTrace s p e c tr) := by
  unfold applyTrace
  refine (calm_foldl _ _ _ fun t a => ?_).trans (calm_foldl _ _ _ fun t a => ?_)
  · unfold countCorrected
    extract_lets u
    have hu : Calm t u := by
      simp only [u]
      split
      · exact (calm_setPlot ..).trans (calm_foldl _ _ _ fun t f => calm_modFn _ _ _ fun x => ⟨rfl, rfl, rfl, id, rfl⟩)
      · exact Calm.refl _
    exact hu.trans ⟨⟨rfl, fun _ h => h, rfl, rfl⟩, fun _ h => h, fun _ => ⟨rfl, rfl, rfl, id, rfl⟩⟩
  · unfold addRecord
    extract_lets r u
    refine Calm.trans ?_ (calm_deviceRecord ..)
    simp only [u]
    split
    · split
      · exact calm_plotRecord ..
      · exact Calm.refl _
    · exact calm_foldl _ _ _ fun _ _ => calm_plotRecord ..

/-- What a command's end cancels in the engines of its plot (R97, R210). -/
theorem calm_endWork (s : State) (c : Cmd) : Calm s (endWork s c) := by
  unfold endWork
  split
  · refine calm_foldl _ _ _ fun t e => ?_
    unfold endOn
    extract_lets x mine used y
    split
    · unfold drainEngine
      extract_lets x' r
      exact ((calm_setEng ..).trans (calm_setEng ..)).trans (calm_applyTrace ..)
    · exact Calm.refl _
  · exact Calm.refl _

theorem calm_spoilDests (s : State) (c : Cmd) : Calm s (spoilDests s c) := by
  unfold spoilDests freeBytes
  exact calm_foldl _ _ _ fun t q => calm_modEng ..

theorem calm_dropCmd (s : State) (c : Cmd) : Calm s (dropCmd s c) := by
  unfold dropCmd
  extract_lets t
  refine ((calm_endWork s c).trans ?_).trans (calm_undoStop ..)
  split
  · exact calm_spoilDests ..
  · exact Calm.refl _

theorem calm_retargetAll (s : State) : Calm s (retargetAll s) := by
  refine calm_foldl _ _ _ fun t e => ?_
  unfold retarget; dsimp only
  repeat' split
  · exact Calm.refl _
  · exact calm_setEng ..
  · exact calm_setEng ..

theorem calm_plotReset (s : State) (n : Nat) : Calm s (plotReset s n) := by
  unfold plotReset
  split
  · exact Calm.refl _
  · dsimp only
    refine ((calm_setPlot ..).trans (calm_foldl _ _ _ fun t f => ?_)).trans (calm_foldl _ _ _ fun t f => calm_modFn _ _ _ fun x => ⟨rfl, rfl, rfl, id, rfl⟩)
    exact calm_setEng ..

theorem calm_maybePlotReset (s : State) (f : FuncId) : Calm s (maybePlotReset s f) := by
  unfold maybePlotReset
  split
  · exact Calm.refl _
  · split
    · split
      · exact Calm.refl _
      · exact (calm_plotReset ..).trans (calm_retargetAll _)
    · exact Calm.refl _

/-- A function after its reset: no queue, its configuration at reset, its admin queue off. -/
structure IsReset (s t : State) (f : FuncId) : Prop where
  queues : (t.fn f).queues = []
  cfg : (t.fn f).cfg = Cfg.reset
  enable : (t.fn f).enable = false
  flr : (t.fn f).flr = (s.fn f).flr
  cmds : ∀ c ∈ t.cmds, c ∈ s.cmds ∧ c.ofFn f = false

theorem functionReset_is (s : State) (f : FuncId) : IsReset s (functionReset s f) f := by
  unfold functionReset
  have hm := calm_maybePlotReset ((endDoe (deleteQueues s f) f).modFn f Func.afterReset) f
  have hd : Calm s ((s.cmds.filter fun c => c.ofFn f).foldl dropCmd s) := calm_foldl _ _ _ fun t c => calm_dropCmd ..
  have h0 : ((endDoe (deleteQueues s f) f).modFn f Func.afterReset).fn f = ((deleteQueues s f).fn f).afterReset := State.fn_modFn ..
  have hx := hm.fns f
  rw [h0] at hx
  have hf : ((deleteQueues s f).fn f).flr = (s.fn f).flr := by
    unfold deleteQueues
    dsimp only
    have : ∀ (a : State) (cs : List Cmd) (w : Option Nat), (({ a.modFn f fun x => { x with queues := [] } with cmds := cs, nvsWait := w } : State).fn f).flr = (a.fn f).flr := by
      intro a cs w
      show ((a.modFn f fun x => { x with queues := [] }).fn f).flr = _
      rw [State.fn_modFn]
    rw [this]
    exact (hd.fns f).2.2.1
  refine ⟨hx.2.2.2.1 rfl, hx.1, hx.2.1, hx.2.2.1.trans hf, fun c hc => ?_⟩
  have h1 := hm.cmds c hc
  have h2 : c ∈ (deleteQueues s f).cmds := h1
  unfold deleteQueues at h2
  obtain ⟨h3, h4⟩ := List.mem_filter.1 h2
  exact ⟨hd.cmds c h3, by simpa using h4⟩

/-- What a reset of one function leaves of the others. -/
structure KeepsOthers (s t : State) (F : FuncId → Prop) : Prop where
  rest : t.pins = s.pins ∧ (∀ p, (s.port p).link = .down → (t.port p).link = .down) ∧ t.lclk = s.lclk ∧ t.boot = s.boot
  cmds : ∀ c ∈ t.cmds, c ∈ s.cmds
  fns : ∀ f, ¬F f → (t.fn f).cfg = (s.fn f).cfg ∧ (t.fn f).enable = (s.fn f).enable ∧ (t.fn f).flr = (s.fn f).flr ∧
    ((s.fn f).queues = [] → (t.fn f).queues = [])

theorem cleared_rest (s : State) (f : FuncId) : ∀ t, t = (endDoe (deleteQueues s f) f).modFn f Func.afterReset →
    t.pins = s.pins ∧ (∀ p, (s.port p).link = .down → (t.port p).link = .down) ∧ t.lclk = s.lclk ∧ t.boot = s.boot := by
  rintro _ rfl
  have hd : Calm s ((s.cmds.filter fun c => c.ofFn f).foldl dropCmd s) := calm_foldl _ _ _ fun t c => calm_dropCmd ..
  unfold deleteQueues
  dsimp only
  generalize (s.cmds.filter fun c => c.ofFn f).foldl dropCmd s = a at hd
  exact hd.rest

theorem functionReset_others (s : State) (f : FuncId) : KeepsOthers s (functionReset s f) (· = f) := by
  have hm := calm_maybePlotReset ((endDoe (deleteQueues s f) f).modFn f Func.afterReset) f
  have hd : Calm s ((s.cmds.filter fun c => c.ofFn f).foldl dropCmd s) := calm_foldl _ _ _ fun t c => calm_dropCmd ..
  refine ⟨?_, fun c hc => ((functionReset_is s f).cmds c hc).1, fun k hk => ?_⟩
  · have h2 := hm.rest
    have h3 := cleared_rest s f _ rfl
    exact ⟨h2.1.trans h3.1, fun p e => h2.2.1 p (h3.2.1 p e), h2.2.2.1.trans h3.2.2.1, h2.2.2.2.trans h3.2.2.2⟩
  · have h1 := hm.fns k
    have h0 : ((endDoe (deleteQueues s f) f).modFn f Func.afterReset).fn k = ((s.cmds.filter fun c => c.ofFn f).foldl dropCmd s).fn k := by
      refine Eq.trans (State.fn_setFn_other _ _ _ _ hk) ?_
      exact State.fn_setFn_other _ _ _ _ hk
    rw [h0] at h1
    have h3 := hd.fns k
    exact ⟨h1.1.trans h3.1, h1.2.1.trans h3.2.1, h1.2.2.1.trans h3.2.2.1, fun e => h1.2.2.2.1 (h3.2.2.2.1 e)⟩

/-- Function resets of several functions. -/
theorem resetAll_facts (fs : List FuncId) (s : State) : KeepsOthers s (resetAll s fs) (· ∈ fs) ∧
    ∀ f ∈ fs, IsReset s (resetAll s fs) f := by
  induction fs generalizing s with
  | nil => exact ⟨⟨⟨rfl, fun _ h => h, rfl, rfl⟩, fun _ h => h, fun _ _ => ⟨rfl, rfl, rfl, id⟩⟩, by simp⟩
  | cons g fs ih =>
    obtain ⟨h1, h2⟩ := ih (functionReset s g)
    have a := functionReset_is s g
    have b := functionReset_others s g
    refine ⟨⟨⟨h1.rest.1.trans b.rest.1, fun p e => h1.rest.2.1 p (b.rest.2.1 p e), h1.rest.2.2.1.trans b.rest.2.2.1, h1.rest.2.2.2.trans b.rest.2.2.2⟩,
      fun c hc => b.cmds c (h1.cmds c hc), fun f hf => ?_⟩, fun f hf => ?_⟩
    · rw [List.mem_cons, not_or] at hf
      have x := h1.fns f hf.2
      have y := b.fns f hf.1
      exact ⟨x.1.trans y.1, x.2.1.trans y.2.1, x.2.2.1.trans y.2.2.1, fun e => x.2.2.2 (y.2.2.2 e)⟩
    · have hfl : ((functionReset s g).fn f).flr = (s.fn f).flr := by
        by_cases e : f = g
        · subst e; exact a.flr
        · exact (b.fns f e).2.2.1
      by_cases e : f ∈ fs
      · have x := h2 f e
        exact ⟨x.queues, x.cfg, x.enable, x.flr.trans hfl, fun c hc => ⟨b.cmds c (x.cmds c hc).1, (x.cmds c hc).2⟩⟩
      · rcases List.mem_cons.1 hf with rfl | h
        · have x := h1.fns f e
          exact ⟨x.2.2.2 a.queues, x.1.trans a.cfg, x.2.1.trans a.enable, x.2.2.1.trans hfl, fun c hc => a.cmds c (h1.cmds c hc)⟩
        · exact absurd h e

end Sys2Proof.Machine
end

