-- ==== Sys2Proof/Laws/Admin.lean ====
section
/-!
SUPPORT. The admin queue and the register counter: what deleting and resuming queues leaves alone.
-/

namespace Sys2Proof.Machine

theorem foldl_regCnt {α : Type} (f : FuncId) (g : State → α → State) (l : List α) (s : State) (h : ∀ t x, ((g t x).fn f).regCnt = (t.fn f).regCnt) :
    ((l.foldl g s).fn f).regCnt = (s.fn f).regCnt := by
  induction l generalizing s with
  | nil => rfl
  | cons x l ih => exact (ih _).trans (h s x)

theorem modFn_regCnt (s : State) (g : FuncId) (h : Func → Func) (hh : ∀ x, (h x).regCnt = x.regCnt) (f : FuncId) : ((s.modFn g h).fn f).regCnt = (s.fn f).regCnt := by
  by_cases e : f = g
  · subst e; rw [State.fn_modFn]; exact hh _
  · unfold State.modFn; rw [State.fn_setFn_other _ _ _ _ e]

theorem modQueue_regCnt (s : State) (src : Src) (g : Queue → Queue) (f : FuncId) : ((s.modQueue src g).fn f).regCnt = (s.fn f).regCnt := by
  unfold State.modQueue
  split
  · exact (show _ = _ from congrArg (fun z : Func => z.regCnt) (setQueue_still s src _ f) : (Func.still _).regCnt = _)
  · rfl

theorem dropCmd_regCnt (f : FuncId) (s : State) (c : Cmd) : ((dropCmd s c).fn f).regCnt = (s.fn f).regCnt :=
  ((calm_dropCmd s c).fns f).2.2.2.2

theorem deleteQueues_regCnt (s : State) (f : FuncId) : ((deleteQueues s f).fn f).regCnt = (s.fn f).regCnt := by
  unfold deleteQueues
  exact (modFn_regCnt _ f (fun x => { x with queues := [] }) (fun _ => rfl) f).trans (foldl_regCnt f _ _ _ (dropCmd_regCnt f))

theorem resumeQueue_regCnt (s : State) (src : Src) (f : FuncId) : ((resumeQueue s src).fn f).regCnt = (s.fn f).regCnt := by
  unfold resumeQueue
  dsimp only
  split
  · exact (show (Func.still _).regCnt = (Func.still _).regCnt from congrArg (fun z : Func => z.regCnt) ((sends_touchShadow _ src).fns f)).trans (modQueue_regCnt ..)
  · exact modQueue_regCnt ..

/-! ## What leaves tenants and stores untouched -/

theorem Untouched.refl (s : State) : Untouched s s := ⟨rfl, rfl, rfl, rfl, fun _ => rfl⟩

theorem Untouched.trans {s t u : State} (h : Untouched s t) (k : Untouched t u) : Untouched s u :=
  ⟨k.plots.trans h.plots, k.cmds.trans h.cmds, k.stores.trans h.stores, k.sessions.trans h.sessions, fun e => (k.spads e).trans (h.spads e)⟩

theorem untouched_foldl {α : Type} (g : State → α → State) (l : List α) (s : State) (h : ∀ t x, Untouched t (g t x)) :
    Untouched s (l.foldl g s) := by
  induction l generalizing s with
  | nil => exact .refl _
  | cons x l ih => exact (h s x).trans (ih _)

theorem Sends.untouched {s t : State} (h : Sends s t) : Untouched s t := by
  obtain ⟨⟨_, _, _, _, _, rfl⟩, -, -, -⟩ := h
  exact ⟨rfl, rfl, rfl, rfl, fun _ => rfl⟩

theorem untouched_setQueue (s : State) (src : Src) (x : Queue) : Untouched s (s.setQueue src x) := by
  cases src <;> exact ⟨rfl, rfl, rfl, rfl, fun _ => rfl⟩

theorem untouched_modQueue (s : State) (src : Src) (g : Queue → Queue) : Untouched s (s.modQueue src g) := by
  unfold State.modQueue
  split
  · exact untouched_setQueue ..
  · exact .refl _

theorem untouched_modFn (s : State) (f : FuncId) (g : Func → Func) : Untouched s (s.modFn f g) := ⟨rfl, rfl, rfl, rfl, fun _ => rfl⟩

theorem untouched_touchPort (s : State) (p : Nat) : Untouched s (touchPort s p) := ⟨rfl, rfl, rfl, rfl, fun _ => rfl⟩

theorem untouched_wakeEvent (s : State) : Untouched s (wakeEvent s) := by
  unfold wakeEvent
  split <;> exact ⟨rfl, rfl, rfl, rfl, fun _ => rfl⟩

theorem untouched_setEng (s : State) (e : Nat) (x : Engine) (h : x.spad = (s.eng e).spad) : Untouched s (s.setEng e x) := by
  refine ⟨rfl, rfl, rfl, rfl, fun i => ?_⟩
  by_cases k : i = e
  · subst k; rw [State.eng_setEng]; exact h
  · rw [State.eng_setEng_other _ _ _ _ k]

theorem untouched_wakeEngine (s : State) (e : Nat) : Untouched s (wakeEngine s e) := by
  unfold wakeEngine
  dsimp only
  split
  · exact untouched_setEng _ _ _ rfl
  · exact .refl _

theorem untouched_doorbellWake (s : State) (f : FuncId) : Untouched s (doorbellWake s f) := by
  unfold doorbellWake wakePlot
  split
  · split
    · exact (untouched_wakeEvent _).trans (untouched_foldl _ _ _ fun _ _ => untouched_wakeEngine ..)
    · exact untouched_wakeEvent _
  · exact untouched_wakeEvent _

theorem untouched_signalVec (s : State) (f : FuncId) (v : Nat) : Untouched s (signalVec s f v) := (sends_signalVec ..).untouched

theorem untouched_flushVec (s : State) (f : FuncId) (v : Nat) : Untouched s (flushVec s f v) := by
  unfold flushVec
  dsimp only
  split
  · exact (untouched_modFn ..).trans (sends_sendFrom ..).untouched
  · exact .refl _

theorem untouched_setVec (s : State) (f : FuncId) (v : Nat) (x : MsixEntry) : Untouched s (setVec s f v x) :=
  (untouched_modFn ..).trans (untouched_flushVec ..)

/-! ## What keeps commands, stores and scratchpads -/

/-- Commands in flight, stores and scratchpads are the same. -/
structure SparesSpads (s t : State) : Prop where
  cmds : t.cmds = s.cmds
  stores : t.stores = s.stores
  spads : ∀ e, (t.eng e).spad = (s.eng e).spad

theorem SparesSpads.refl (s : State) : SparesSpads s s := ⟨rfl, rfl, fun _ => rfl⟩

theorem SparesSpads.trans {s t u : State} (h : SparesSpads s t) (k : SparesSpads t u) : SparesSpads s u :=
  ⟨k.cmds.trans h.cmds, k.stores.trans h.stores, fun e => (k.spads e).trans (h.spads e)⟩

theorem sparesSpads_foldl {α : Type} (g : State → α → State) (l : List α) (s : State) (h : ∀ t x, SparesSpads t (g t x)) : SparesSpads s (l.foldl g s) := by
  induction l generalizing s with
  | nil => exact .refl _
  | cons x l ih => exact (h s x).trans (ih _)

theorem Untouched.sparesSpads {s t : State} (h : Untouched s t) : SparesSpads s t := ⟨h.cmds, h.stores, h.spads⟩

theorem sparesSpads_modHolder (s : State) (e : Nat) (g : Plot → Plot) : SparesSpads s (s.modHolder e g) := by
  unfold State.modHolder
  split <;> exact ⟨rfl, rfl, fun _ => rfl⟩

theorem sparesSpads_abandonSlice (s : State) (e : Nat) : SparesSpads s (abandonSlice s e) := by
  unfold abandonSlice
  dsimp only
  split
  · split
    · refine SparesSpads.trans ?_ (sparesSpads_modHolder ..)
      have h : ∀ x : Engine, x.spad = (s.eng e).spad → SparesSpads s (s.setEng e x) := fun x hx => (untouched_setEng s e x hx).sparesSpads
      have k := h { s.eng e with slice := none, idleSince := s.lclk, eclk := min (s.target e) s.power.ceiling } rfl
      exact ⟨k.cmds, k.stores, k.spads⟩
    · exact .refl _
  · exact .refl _

theorem sparesSpads_mapEngines (s : State) (g : Engine → Engine) (h : ∀ x, (g x).spad = x.spad) :
    SparesSpads s { s with engines := s.engines.map fun e => (e.1, g e.2) } := by
  refine ⟨rfl, rfl, fun e => ?_⟩
  unfold State.eng
  dsimp only
  rw [mget_map_snd]
  cases mget s.engines e with
  | none => rfl
  | some x => exact h x

theorem sparesSpads_stopSlice (s : State) (e : Nat) : SparesSpads s (stopSlice s e) := by
  refine (sparesSpads_abandonSlice s e).trans ?_
  unfold stopSlice State.modEng
  exact Untouched.sparesSpads (by apply untouched_setEng; dsimp only; split <;> rfl)

theorem sparesSpads_keeperBit (a b : Nat) (s : State) (i : Nat) : SparesSpads s (keeperBit a b s i) := by
  unfold keeperBit
  split
  · split
    · exact ⟨rfl, rfl, fun _ => rfl⟩
    · exact sparesSpads_foldl _ _ _ fun _ _ => sparesSpads_stopSlice ..
    · exact .refl _
  · split
    · split
      · exact sparesSpads_mapEngines s (fun e => { e with sweepNext := s.lclk, scrub := [] }) fun _ => rfl
      · exact ⟨rfl, rfl, fun _ => rfl⟩
      · exact ⟨rfl, rfl, fun _ => rfl⟩
      · exact sparesSpads_mapEngines s (fun e => { e with sliceTimer := s.lclk }) fun _ => rfl
      · exact ⟨rfl, rfl, fun _ => rfl⟩
    · exact .refl _

theorem sparesSpads_setKeeperCtl (s : State) (v : Nat) : SparesSpads s (setKeeperCtl s v) :=
  (sparesSpads_foldl _ _ _ fun _ _ => sparesSpads_keeperBit ..).trans ⟨rfl, rfl, fun _ => rfl⟩

theorem sparesSpads_retarget (s : State) (e : Nat) : SparesSpads s (retarget s e) := by
  unfold retarget
  dsimp only
  repeat' split
  all_goals first
    | exact .refl _
    | exact Untouched.sparesSpads (by apply untouched_setEng; rfl)

theorem sparesSpads_retargetAll (s : State) : SparesSpads s (retargetAll s) := sparesSpads_foldl _ _ _ fun _ _ => sparesSpads_retarget ..

end Sys2Proof.Machine
end

