-- ==== Sys2Proof/Laws/Patrols.lean ====
section
/-!
SUPPORT. Patrols, calibration and accumulator banks: what a sweep or a pass changes.
-/

namespace Sys2Proof.Machine

/-- What the scrub leaves of one granule. -/
def scrubG (g : Nat × GState) (m : Map GState) : Map GState :=
  match g.2 with
  | .correctable => mdel m g.1
  | .uncorrectable => mput m g.1 .poisoned
  | .poisoned => m

theorem scrubGranule_step (e : Nat) (s : State) (g : Nat × GState) :
    (scrubGranule e s g).eng e = { s.eng e with spad := { (s.eng e).spad with gran := scrubG g (s.eng e).spad.gran } } ∧
      (scrubGranule e s g).cmds = s.cmds := by
  obtain ⟨k, st⟩ := g
  cases st
  · show (countCorrected _ _ _ _).eng e = _ ∧ (countCorrected _ _ _ _).cmds = _
    rw [(notes_countCorrected ..).eng, (notes_countCorrected ..).cmds, State.eng_modEng]; exact ⟨rfl, rfl⟩
  · show (addRecord _ _ _).eng e = _ ∧ (addRecord _ _ _).cmds = _
    rw [(notes_addRecord ..).eng, (notes_addRecord ..).cmds, State.eng_modEng]; exact ⟨rfl, rfl⟩
  · exact ⟨rfl, rfl⟩

theorem scrub_fold (e : Nat) (l : List (Nat × GState)) (s : State) :
    (l.foldl (scrubGranule e) s).eng e =
      { s.eng e with spad := { (s.eng e).spad with gran := l.foldl (fun m g => scrubG g m) (s.eng e).spad.gran } } ∧
      (l.foldl (scrubGranule e) s).cmds = s.cmds := by
  induction l generalizing s with
  | nil => exact ⟨rfl, rfl⟩
  | cons g l ih =>
    have h := scrubGranule_step e s g
    rw [List.foldl_cons, List.foldl_cons, (ih _).1, (ih _).2, h.1, h.2]
    exact ⟨rfl, rfl⟩

theorem scrub_gran (R : Nat → Prop) (l : List (Nat × GState)) (m : Map GState) (hw : mwf m = true)
    (h : ∀ g, R g → mget m g = none ∨ mget m g = some .poisoned ∨ ∃ st, (g, st) ∈ l ∧ mget m g = some st) :
    ∀ g, R g → mget (l.foldl (fun m g => scrubG g m) m) g = none ∨ mget (l.foldl (fun m g => scrubG g m) m) g = some .poisoned := by
  induction l generalizing m with
  | nil =>
    intro g hg
    rcases h g hg with h | h | ⟨_, h, -⟩
    · exact .inl h
    · exact .inr h
    · cases h
  | cons x l ih =>
    obtain ⟨k, st⟩ := x
    refine ih (scrubG (k, st) m) ?_ fun g hg => ?_
    · cases st
      · exact mdel_wf _ _ hw
      · exact mput_wf _ _ _ hw
      · exact hw
    · by_cases e : g = k
      · subst e
        cases st
        · exact .inl (by show mget (mdel m g) g = none; rw [mget_mdel _ _ _ hw, if_pos rfl])
        · exact .inr (.inl (by show mget (mput m g _) g = _; rw [mget_mput, if_pos rfl]))
        · show mget m g = _ ∨ mget m g = _ ∨ _
          rcases h g hg with h | h | ⟨st, h, k⟩
          · exact .inl h
          · exact .inr (.inl h)
          · rcases List.mem_cons.1 h with e | h
            · cases e; exact .inr (.inl k)
            · exact .inr (.inr ⟨st, h, k⟩)
      · have hm : mget (scrubG (k, st) m) g = mget m g := by
          cases st
          · show mget (mdel m k) g = _; rw [mget_mdel _ _ _ hw, if_neg e]
          · show mget (mput m k _) g = _; rw [mget_mput, if_neg e]
          · rfl
        rw [hm]
        rcases h g hg with h | h | ⟨st', h, k'⟩
        · exact .inl h
        · exact .inr (.inl h)
        · rcases List.mem_cons.1 h with e' | h
          · cases e'; exact absurd rfl e
          · exact .inr (.inr ⟨st', h, k'⟩)

theorem scrubRange_facts (s : State) (e lo hi : Nat) (hw : mwf (s.eng e).spad.gran = true) :
    ∃ m, (scrubRange s e lo hi).eng e = { s.eng e with spad := { (s.eng e).spad with gran := m } } ∧ (scrubRange s e lo hi).cmds = s.cmds ∧
      ∀ g, lo ≤ 16 * g → 16 * g < hi → mget m g = none ∨ mget m g = some .poisoned := by
  refine ⟨_, (scrub_fold ..).1, (scrub_fold ..).2, fun g h1 h2 => scrub_gran (fun g => lo ≤ 16 * g ∧ 16 * g < hi) _ _ hw ?_ g ⟨h1, h2⟩⟩
  intro g ⟨h1, h2⟩
  cases hm : mget (s.eng e).spad.gran g with
  | none => exact .inl rfl
  | some st => exact .inr (.inr ⟨st, List.mem_filter.2 ⟨mget_mem hm, by simp [h1, h2]⟩, rfl⟩)

theorem upset_wf (us : List (Nat × GState)) (p : Spad) (lo hi : Nat) (h : mwf p.gran = true) : mwf (upsetGranules p lo hi us).gran = true := by
  unfold upsetGranules
  induction us generalizing p with
  | nil => exact h
  | cons u us ih =>
    rw [List.foldl_cons]
    apply ih
    split
    · exact mput_wf _ _ _ h
    · exact h

/-- fold keeping keeper engines cmds -/
abbrev Pool (s t : State) : Prop := t.keeper = s.keeper ∧ t.engines = s.engines ∧ t.cmds = s.cmds

theorem pool_fold {α : Type} (g : State → α → State) (l : List α) (s : State) (h : ∀ t x, Pool t (g t x)) : Pool s (l.foldl g s) := by
  induction l generalizing s with
  | nil => exact ⟨rfl, rfl, rfl⟩
  | cons x l ih => exact ⟨(ih _).1.trans (h s x).1, (ih _).2.1.trans (h s x).2.1, (ih _).2.2.trans (h s x).2.2⟩

theorem Pool.trans {s t u : State} (h : Pool s t) (k : Pool t u) : Pool s u := ⟨k.1.trans h.1, k.2.1.trans h.2.1, k.2.2.trans h.2.2⟩

theorem pool_notes {s t : State} (h : Notes s t) : Pool s t := by
  obtain ⟨⟨_, _, _, _, _, _, _, _, _, rfl⟩, -, -, -⟩ := h
  exact ⟨rfl, rfl, rfl⟩

theorem pool_patrol (plot code unit : Nat) (hbm : Bool) (addr : Nat → Nat) (s : State) (m : Map GState) : Pool s (notePatrol plot code unit hbm addr s m) := by
  unfold notePatrol
  refine pool_fold _ _ _ fun t p => ?_
  split
  · exact pool_notes (notes_countCorrected ..)
  · exact pool_notes (notes_addRecord ..)
  · exact ⟨rfl, rfl, rfl⟩

theorem pool_patrolStream (g : Bool) (n : Nat) (s : State) (st : Nat × Stream) : Pool s (patrolStream g n s st) := by
  unfold patrolStream
  split
  · exact Pool.trans (t := setStream s n st.1 { st.2 with bad := patrolled st.2.bad }) ⟨rfl, rfl, rfl⟩ (pool_patrol ..)
  · exact ⟨rfl, rfl, rfl⟩

theorem pool_patrolTensor (n : Nat) (s : State) (st : Nat × Tensor) : Pool s (patrolTensor n s st) :=
  Pool.trans (t := setTensor s n st.1 { st.2 with bad := patrolled st.2.bad }) ⟨rfl, rfl, rfl⟩ (pool_patrol ..)

theorem pool_patrolPlan (n : Nat) (s : State) (q : Nat × Plan) : Pool s (patrolPlan n s q) := by
  unfold patrolPlan
  generalize hu : s.modPlot n _ = u
  have : Pool s u := by subst hu; exact ⟨rfl, rfl, rfl⟩
  exact this.trans (pool_patrol ..)

theorem pool_noteFree (k : Nat) (s : State) (st : GState) : Pool s (noteFree k s st) := by
  unfold noteFree
  split
  · exact pool_notes (notes_countCorrected ..)
  · exact pool_notes (notes_addRecord ..)
  · exact ⟨rfl, rfl, rfl⟩

theorem pool_upsetGlass (s : State) (f : Found) : Pool s (upsetGlass s f) := by
  unfold upsetGlass
  split
  · exact pool_noteFree ..
  · exact ⟨rfl, rfl, rfl⟩

theorem pool_upsetHbm (s : State) (f : Found) : Pool s (upsetHbm s f) := by
  unfold upsetHbm
  split
  · exact pool_noteFree ..
  · split
    · exact ⟨rfl, rfl, rfl⟩
    · repeat' split
      all_goals exact ⟨rfl, rfl, rfl⟩

theorem startSlice_eng (s : State) (e : Nat) (k : SliceKind) : (startSlice s e k).eng e = { s.eng e with
    slice := some ⟨k, s.lclk, 0⟩, power := .running, relock := none, eclk := s.sliceClock } := by
  unfold startSlice
  extract_lets t
  have h : t.eng e = _ := State.eng_modEng ..
  split
  · exact h
  · exact h

theorem abandonSlice_eng (s : State) (e n c : Nat) (h : (s.eng e).slice = some ⟨.opportunistic, n, c⟩) :
    (abandonSlice s e).eng e = { s.eng e with slice := none, idleSince := s.lclk, eclk := min (s.target e) s.power.ceiling } ∧
      (abandonSlice s e).lclk = s.lclk ∧ (abandonSlice s e).cmds = s.cmds := by
  unfold abandonSlice
  simp only [h, beq_self_eq_true, if_true, State.modHolder]
  split <;> refine ⟨?_, rfl, rfl⟩ <;> exact State.eng_setEng ..

theorem modHolder_keep (s : State) (e : Nat) (g : Plot → Plot) : (s.modHolder e g).eng e = s.eng e ∧ (s.modHolder e g).keeper = s.keeper ∧
    (s.modHolder e g).cmds = s.cmds ∧ (s.modHolder e g).lclk = s.lclk ∧ (s.modHolder e g).devLog = s.devLog ∧ (s.modHolder e g).upSince = s.upSince := by
  unfold State.modHolder
  split <;> exact ⟨rfl, rfl, rfl, rfl, rfl, rfl⟩

theorem bank_set (x : Engine) (b : Bool) (k : AccBank) : (x.setBank b k).bank b = k ∧ (x.setBank b k).bank (!b) = x.bank (!b) ∧ (x.setBank b k).spad = x.spad := by
  cases b <;> exact ⟨rfl, rfl, rfl⟩

end Sys2Proof.Machine
end

