-- ==== Sys2Proof/Laws/Restarts.lean ====
section
/-!
SUPPORT. Slices and Gatehouse restarts: what they change and what they keep.
-/

namespace Sys2Proof.Machine

theorem retirePairs_pair (l : List (Fin 4)) (s : State) (i : Fin 4) :
    ((retirePairs s l).pair i.val) = if i ∈ l then { s.pair i.val with active := false, retired := true } else s.pair i.val := by
  unfold retirePairs
  induction l generalizing s with
  | nil => simp
  | cons j l ih =>
    rw [List.foldl_cons, ih]
    by_cases h : i = j
    · subst h
      simp only [State.pair_setPair, List.mem_cons, true_or, if_true]
      split <;> rfl
    · have hj : i.val ≠ j.val := fun e => h (Fin.ext e)
      have : (s.setPair j.val { s.pair j.val with active := false, retired := true }).pair i.val = s.pair i.val := by
        simp [State.pair, State.setPair, hj]
      rw [this]
      simp [h]

theorem retirePairs_rest (l : List (Fin 4)) (s : State) : ∃ p, retirePairs s l = { s with pairs := p } := by
  unfold retirePairs
  induction l generalizing s with
  | nil => exact ⟨_, rfl⟩
  | cons j l ih =>
    obtain ⟨p, hp⟩ := ih (s.setPair j.val { s.pair j.val with active := false, retired := true })
    exact ⟨p, by rw [List.foldl_cons, hp]; rfl⟩

theorem restartOne_cmds (s t : State) (c : Cmd) : (restartOne s t c).cmds = t.cmds.filter fun d => !(d.acc == c.acc) := by
  unfold restartOne
  dsimp only
  rw [finish_cmds]
  split
  · unfold spoilDests freeBytes
    have : ∀ (l : List (Int × Nat)) (k : Nat) (u : State), (l.foldl (fun (t : State) q =>
        let u := t.modEng k fun x => { x with spad := { x.spad with mem := x.spad.mem.fillFree q.1.toNat q.2 t.freeIx } }
        { u with freeIx := t.freeIx + q.2 }) u).cmds = u.cmds := by
      intro l k
      induction l with
      | nil => intro u; rfl
      | cons q l ih => intro u; rw [List.foldl_cons, ih]; rfl
    rw [this]
  · rfl

theorem restart_fold (s : State) (l : List Cmd) (t : State) (h : ∀ c ∈ t.cmds, c ∈ l) : (l.foldl (restartOne s) t).cmds = [] := by
  induction l generalizing t with
  | nil =>
    cases hc : t.cmds with
    | nil => exact hc
    | cons c r => exact absurd (h c (by rw [hc]; exact List.mem_cons_self)) (by simp)
  | cons c l ih =>
    refine ih _ fun d hd => ?_
    rw [restartOne_cmds] at hd
    obtain ⟨h1, h2⟩ := List.mem_filter.1 hd
    rcases List.mem_cons.1 (h d h1) with rfl | h3
    · simp at h2
    · exact h3

/-- A relation that a fold keeps. -/
abbrev Rst (s t : State) : Prop := t.cmds = s.cmds ∧ t.pairs = s.pairs ∧ t.restart = s.restart ∧ t.fatal = s.fatal

theorem Rst.trans {s t u : State} (h : Rst s t) (k : Rst t u) : Rst s u :=
  ⟨k.1.trans h.1, k.2.1.trans h.2.1, k.2.2.1.trans h.2.2.1, k.2.2.2.trans h.2.2.2⟩

theorem rst_fold {α : Type} (g : State → α → State) (l : List α) (s : State) (h : ∀ t x, Rst t (g t x)) : Rst s (l.foldl g s) := by
  induction l generalizing s with
  | nil => exact ⟨rfl, rfl, rfl, rfl⟩
  | cons x l ih => exact (h s x).trans (ih _)

theorem Sends.rst {s t : State} (h : Sends s t) : Rst s t := by
  obtain ⟨⟨_, _, _, _, _, rfl⟩, -, -, -⟩ := h; exact ⟨rfl, rfl, rfl, rfl⟩

theorem Notes.rst {s t : State} (h : Notes s t) : Rst s t := by
  obtain ⟨⟨_, _, _, _, _, _, _, _, _, rfl⟩, -, -, -⟩ := h; exact ⟨rfl, rfl, rfl, rfl⟩

theorem rst_resumeFn (s : State) (f : FuncId) : Rst s (resumeFn s f) := by
  unfold resumeFn
  split
  · have hv : ∀ u : State, Rst u (flushVecs u f) := by
      intro u
      unfold flushVecs
      refine rst_fold _ _ _ fun t x => ?_
      unfold flushVec; dsimp only
      split <;> exact ⟨rfl, rfl, rfl, rfl⟩
    have hp : ∀ u : State, Rst u (payShadows u f) := by
      intro u
      refine rst_fold _ _ _ fun t x => ?_
      split
      · exact Sends.rst (sends_writeShadow ..)
      · exact ⟨rfl, rfl, rfl, rfl⟩
    have h1 : Rst s (flushVecs (if s.gatehouseUp then payShadows (drainFn f (waiting (s.fn f)) s) f else s) f) := by
      refine Rst.trans ?_ (hv _)
      split
      · exact (Sends.rst (sends_drainFn ..)).trans (hp _)
      · exact ⟨rfl, rfl, rfl, rfl⟩
    have hw : ∀ u : State, Rst s u → Rst s (if unread u f && u.alive && u.p2 == .inP2 then wakeEvent u else u) := by
      intro u hu
      split
      · refine hu.trans ?_
        unfold wakeEvent; split <;> exact ⟨rfl, rfl, rfl, rfl⟩
      · exact hu
    exact hw _ h1
  · exact ⟨rfl, rfl, rfl, rfl⟩

theorem rst_reload (s : State) : Rst s (reloadFirmware s) := by
  unfold reloadFirmware
  split
  · dsimp only; split <;> exact ⟨rfl, rfl, rfl, rfl⟩
  · exact ⟨rfl, rfl, rfl, rfl⟩

end Sys2Proof.Machine
end

