-- ==== Sys2Proof/Laws/Waking.lean ====
section
/-!
SUPPORT. Power states: what waking, gating and limits keep.
-/

namespace Sys2Proof.Machine

theorem abandon_pool (s : State) (e : Nat) : (abandonSlice s e).plots.length = s.plots.length ∧ (abandonSlice s e).secure = s.secure := by
  have hp : ∀ (m : Map Plot) (k : Nat) (x y : Plot), mget m k = some x → (mput m k y).length = m.length := by
    intro m k x y h
    induction m with
    | nil => cases h
    | cons p m ih =>
      obtain ⟨a, v⟩ := p
      unfold mget at h
      unfold mput
      split at h
      · next e => subst e; simp
      · next e =>
        split at h
        · cases h
        · next e2 => rw [if_neg e2, if_neg e]; simp [ih h]
  unfold abandonSlice
  dsimp only
  split
  · split
    · unfold State.modHolder
      split
      · refine ⟨?_, rfl⟩
        show (mmod s.plots _ _).length = _
        unfold mmod
        split
        · next h => exact hp _ _ _ _ h
        · rfl
      · exact ⟨rfl, rfl⟩
    · exact ⟨rfl, rfl⟩
  · exact ⟨rfl, rfl⟩

theorem retargetAll_keep (s : State) : (retargetAll s).energy = s.energy ∧ (retargetAll s).sensors = s.sensors ∧ (retargetAll s).cmds = s.cmds ∧
    (retargetAll s).power = s.power := by
  have h1 : ∀ (t : State) (e : Nat), (retarget t e).energy = t.energy ∧ (retarget t e).sensors = t.sensors ∧ (retarget t e).cmds = t.cmds ∧
      (retarget t e).power = t.power := by
    intro t e
    unfold retarget; dsimp only
    repeat' split
    all_goals exact ⟨rfl, rfl, rfl, rfl⟩
  unfold retargetAll
  generalize List.range 6 = l
  induction l generalizing s with
  | nil => exact ⟨rfl, rfl, rfl, rfl⟩
  | cons e l ih =>
    have a := h1 s e
    have b := ih (retarget s e)
    exact ⟨b.1.trans a.1, b.2.1.trans a.2.1, b.2.2.1.trans a.2.2.1, b.2.2.2.trans a.2.2.2⟩

/-- A relation that a fold keeps. -/
abbrev Wak (s t : State) : Prop := t.fclk = s.fclk ∧ t.keeper = s.keeper ∧ t.cmds = s.cmds ∧ t.hbm = s.hbm

theorem Wak.trans {s t u : State} (h : Wak s t) (k : Wak t u) : Wak s u :=
  ⟨k.1.trans h.1, k.2.1.trans h.2.1, k.2.2.1.trans h.2.2.1, k.2.2.2.trans h.2.2.2⟩

theorem wak_fold {α : Type} (g : State → α → State) (l : List α) (s : State) (h : ∀ t x, Wak t (g t x)) : Wak s (l.foldl g s) := by
  induction l generalizing s with
  | nil => exact ⟨rfl, rfl, rfl, rfl⟩
  | cons x l ih => exact (h s x).trans (ih _)

theorem Sends.wak {s t : State} (h : Sends s t) : Wak s t := by
  obtain ⟨⟨_, _, _, _, _, rfl⟩, -, -, -⟩ := h; exact ⟨rfl, rfl, rfl, rfl⟩

theorem wak_resumeFn (s : State) (f : FuncId) : Wak s (resumeFn s f) := by
  unfold resumeFn
  split
  · have hv : ∀ u : State, Wak u (flushVecs u f) := by
      intro u
      unfold flushVecs
      refine wak_fold _ _ _ fun t x => ?_
      unfold flushVec; dsimp only
      split <;> exact ⟨rfl, rfl, rfl, rfl⟩
    have hp : ∀ u : State, Wak u (payShadows u f) := by
      intro u
      refine wak_fold _ _ _ fun t x => ?_
      split
      · exact Sends.wak (sends_writeShadow ..)
      · exact ⟨rfl, rfl, rfl, rfl⟩
    have h1 : Wak s (flushVecs (if s.gatehouseUp then payShadows (drainFn f (waiting (s.fn f)) s) f else s) f) := by
      refine Wak.trans ?_ (hv _)
      split
      · exact (Sends.wak (sends_drainFn ..)).trans (hp _)
      · exact ⟨rfl, rfl, rfl, rfl⟩
    have hw : ∀ u : State, Wak s u → Wak s (if unread u f && u.alive && u.p2 == .inP2 then wakeEvent u else u) := by
      intro u hu
      split
      · refine hu.trans ?_
        unfold wakeEvent; split <;> exact ⟨rfl, rfl, rfl, rfl⟩
      · exact hu
    exact hw _ h1
  · exact ⟨rfl, rfl, rfl, rfl⟩

end Sys2Proof.Machine
end

