-- ==== Sys2Proof/Laws/BringUp.lean ====
section
/-!
SUPPORT. Functions, links, bring-up and power-down: what each part changes.
-/

namespace Sys2Proof.Machine

theorem rst_fn_flush (s : State) (f : FuncId) (g : FuncId) : ((flushVecs s f).fn g).cfg = (s.fn g).cfg := by
  unfold flushVecs
  generalize (s.fn f).msix = l
  induction l generalizing s with
  | nil => rfl
  | cons p l ih =>
    rw [List.foldl_cons, ih]
    unfold flushVec
    dsimp only
    split
    · have e2 : ∀ (a : State) (es : List Emit), (sendFrom a f es).fn g = a.fn g := fun _ _ => rfl
      rw [e2]
      by_cases e : g = f
      · subst e; rw [State.fn_modFn]
      · rw [show (s.modFn f _).fn g = s.fn g from State.fn_setFn_other _ _ _ _ e]
    · rfl

theorem still_cfg {s t : State} (h : Sends s t) (g : FuncId) : (t.fn g).cfg = (s.fn g).cfg := by
  have := congrArg Func.cfg (h.fns g)
  exact this

theorem resume_facts (s : State) (f g : FuncId) : ((resumeFn s f).fn g).cfg = (s.fn g).cfg ∧ (resumeFn s f).cmds = s.cmds ∧ (resumeFn s f).plots = s.plots := by
  unfold resumeFn
  split
  · have hv : ∀ u : State, ((flushVecs u f).fn g).cfg = (u.fn g).cfg ∧ (flushVecs u f).cmds = u.cmds ∧ (flushVecs u f).plots = u.plots := by
      intro u
      refine ⟨rst_fn_flush .., ?_, ?_⟩
      · unfold flushVecs
        generalize (u.fn f).msix = l
        induction l generalizing u with
        | nil => rfl
        | cons p l ih => rw [List.foldl_cons, ih]; unfold flushVec; dsimp only; split <;> rfl
      · unfold flushVecs
        generalize (u.fn f).msix = l
        induction l generalizing u with
        | nil => rfl
        | cons p l ih => rw [List.foldl_cons, ih]; unfold flushVec; dsimp only; split <;> rfl
    have hsp : ∀ {a b : State}, Sends a b → (b.fn g).cfg = (a.fn g).cfg ∧ b.cmds = a.cmds ∧ b.plots = a.plots := by
      intro a b h
      refine ⟨still_cfg h g, ?_⟩
      obtain ⟨⟨_, _, _, _, _, rfl⟩, -, -, -⟩ := h
      exact ⟨rfl, rfl⟩
    have hp : ∀ u : State, ((payShadows u f).fn g).cfg = (u.fn g).cfg ∧ (payShadows u f).cmds = u.cmds ∧ (payShadows u f).plots = u.plots := by
      intro u
      unfold payShadows
      generalize (u.fn f).queues = l
      induction l generalizing u with
      | nil => exact ⟨rfl, rfl, rfl⟩
      | cons p l ih =>
        rw [List.foldl_cons]
        have a : ∀ w : State, ((if p.2.owed then writeShadow w f p.1 else w).fn g).cfg = (w.fn g).cfg ∧ (if p.2.owed then writeShadow w f p.1 else w).cmds = w.cmds ∧
            (if p.2.owed then writeShadow w f p.1 else w).plots = w.plots := by
          intro w
          split
          · exact hsp (sends_writeShadow ..)
          · exact ⟨rfl, rfl, rfl⟩
        exact ⟨(ih _).1.trans (a u).1, (ih _).2.1.trans (a u).2.1, (ih _).2.2.trans (a u).2.2⟩
    have hw : ∀ u : State, ((if unread u f && u.alive && u.p2 == .inP2 then wakeEvent u else u).fn g) = u.fn g ∧ (if unread u f && u.alive && u.p2 == .inP2 then wakeEvent u else u).cmds = u.cmds ∧
        (if unread u f && u.alive && u.p2 == .inP2 then wakeEvent u else u).plots = u.plots := by
      intro u
      split
      · unfold wakeEvent; split <;> exact ⟨rfl, rfl, rfl⟩
      · exact ⟨rfl, rfl, rfl⟩
    have h0 : ∀ b : Bool, ((if b then payShadows (drainFn f (waiting (s.fn f)) s) f else s).fn g).cfg = (s.fn g).cfg ∧
        (if b then payShadows (drainFn f (waiting (s.fn f)) s) f else s).cmds = s.cmds ∧
        (if b then payShadows (drainFn f (waiting (s.fn f)) s) f else s).plots = s.plots := by
      intro b
      cases b
      · exact ⟨rfl, rfl, rfl⟩
      · have a := hp (drainFn f (waiting (s.fn f)) s)
        have b := hsp (sends_drainFn f (waiting (s.fn f)) s)
        exact ⟨a.1.trans b.1, a.2.1.trans b.2.1, a.2.2.trans b.2.2⟩
    have a := hw (flushVecs (if s.gatehouseUp then payShadows (drainFn f (waiting (s.fn f)) s) f else s) f)
    have b := hv (if s.gatehouseUp then payShadows (drainFn f (waiting (s.fn f)) s) f else s)
    have c := h0 s.gatehouseUp
    exact ⟨(congrArg Func.cfg a.1).trans (b.1.trans c.1), a.2.1.trans (b.2.1.trans c.2.1), a.2.2.trans (b.2.2.trans c.2.2)⟩
  · exact ⟨rfl, rfl, rfl⟩

theorem enabledVfs_port (s : State) (p : Fin 4) (f : FuncId) (h : f ∈ enabledVfs s p) : f.port = p ∧ f.fn ≠ 0 := by
  unfold enabledVfs at h
  dsimp only at h
  split at h
  · obtain ⟨i, hi, rfl⟩ := List.mem_map.1 h
    have := List.mem_range.1 (List.mem_filter.1 hi).1
    refine ⟨rfl, fun e => ?_⟩
    have := congrArg Fin.val e
    simp [Fin.ofNat] at this
    omega
  · cases h

theorem fn_modFn_ne (s : State) (f g : FuncId) (h : Func → Func) (k : g ≠ f) : (s.modFn f h).fn g = s.fn g := State.fn_setFn_other _ _ _ _ k

theorem setPg_enables (p : PgId) (x : Pins) (b : Bool) : (x.setPg p b).enFab = x.enFab ∧ (x.setPg p b).enSram = x.enSram ∧ (x.setPg p b).enCore = x.enCore := by
  cases p <;> exact ⟨rfl, rfl, rfl⟩

theorem powerGood_next (r : PgId) (s : State) (h1 : s.pins.vaon = true) (h2 : s.pins.mainSupply = true) (h3 : s.pins.sysRstN = true) (h4 : s.pins.pwrDnN = true)
    (h5 : s.fatal = false) (h6 : s.pins.en r = true) : exec (.powerGood r true) s = .next (nextEnable { s with pins := s.pins.setPg r true } r) := by
  simp only [exec, execPowerGood, powerGood, h1, h2, h3, h4, h5, h6, Bool.and_self, Bool.not_true, Bool.not_false, Bool.false_eq_true, if_false, if_true]

theorem startEngine_failed (l : List Nat) (now : Nat) (s : State) (e : Nat) : ((l.foldl (startEngine now) s).eng e).failed = if e ∈ l then false else (s.eng e).failed := by
  induction l generalizing s with
  | nil => rfl
  | cons k l ih =>
    rw [List.foldl_cons, ih]
    by_cases h : e = k
    · subst h
      unfold startEngine
      rw [State.eng_setEng]
      simp [Engine.reset]
    · unfold startEngine
      rw [State.eng_setEng_other _ _ _ _ h]
      simp [h]

theorem failEngine_other (s : State) (k e : Nat) (h : e ≠ k) : ((failEngine s k).eng e) = s.eng e := by
  unfold failEngine
  split
  · rfl
  · rw [(notes_addRecord ..).eng, eng_other _ _ _ _ h]

theorem failEngine_all (l : List (Fin 6)) (s : State) (e : Fin 6) :
    ((l.foldl (fun (v : State) e => failEngine v e.val) s).eng e.val).failed = if e ∈ l then true else (s.eng e.val).failed := by
  induction l generalizing s with
  | nil => rfl
  | cons k l ih =>
    rw [List.foldl_cons, ih]
    by_cases h : e = k
    · subst h
      rw [failEngine_failed]; simp
    · rw [failEngine_other _ _ _ (fun q => h (Fin.ext q))]
      simp [h]

/-- Bring-up and the stores are kept. -/
abbrev Bt (s t : State) : Prop := t.boot = s.boot ∧ t.stores = s.stores

theorem bt_start (l : List Nat) (now : Nat) (s : State) : Bt s (l.foldl (startEngine now) s) := by
  induction l generalizing s with
  | nil => exact ⟨rfl, rfl⟩
  | cons k l ih => exact ih (startEngine now s k)

theorem bt_fail (l : List (Fin 6)) (s : State) : Bt s (l.foldl (fun (v : State) e => failEngine v e.val) s) := by
  induction l generalizing s with
  | nil => exact ⟨rfl, rfl⟩
  | cons k l ih =>
    have h : Bt s (failEngine s k.val) := by
      unfold failEngine
      split
      · exact ⟨rfl, rfl⟩
      · obtain ⟨⟨_, _, _, _, _, _, _, _, _, hh⟩, -, -, -⟩ := notes_addRecord (s.modEng k.val fun x => { x with failed := true, slice := none, overdue := false, relock := none }) (s.holder k.val) (deviceEvent 0x0008 2 k.val 0 0)
        rw [hh]; exact ⟨rfl, rfl⟩
    have := ih (failEngine s k.val)
    exact ⟨this.1.trans h.1, this.2.trans h.2⟩

theorem retarget_bt (s : State) : Bt s (retargetAll s) ∧ ∀ e, ((retargetAll s).eng e).failed = (s.eng e).failed := by
  have h1 : ∀ (t : State) (e : Nat), Bt t (retarget t e) ∧ ∀ k, ((retarget t e).eng k).failed = (t.eng k).failed := by
    intro t e
    unfold retarget; dsimp only
    repeat' split
    · exact ⟨⟨rfl, rfl⟩, fun _ => rfl⟩
    all_goals
      refine ⟨⟨rfl, rfl⟩, fun k => ?_⟩
      by_cases h : k = e
      · subst h; rw [State.eng_setEng]
      · rw [State.eng_setEng_other _ _ _ _ h]
  unfold retargetAll
  generalize List.range 6 = l
  induction l generalizing s with
  | nil => exact ⟨⟨rfl, rfl⟩, fun _ => rfl⟩
  | cons e l ih =>
    have a := h1 s e
    have b := ih (retarget s e)
    exact ⟨⟨b.1.1.trans a.1.1, b.1.2.trans a.1.2⟩, fun k => (b.2 k).trans (a.2 k)⟩

theorem link_facts (s : State) (p : Fin 4) : (linkDown s p).pins = s.pins ∧
    ∀ q : Fin 4, (q = p ∧ p.val < s.portCount) ∨ (s.port q.val).link = .down → ((linkDown s p).port q.val).link = .down := by
  unfold linkDown
  split
  · next h =>
    unfold resetPort
    have hx := (resetAll_facts (⟨p, 0⟩ :: enabledVfs s p) s).1.rest
    generalize resetAll s _ = t at hx
    refine ⟨hx.1, fun q hq => ?_⟩
    by_cases e : q = p
    · subst e
      show ((t.setPort q.val _).port q.val).link = _
      rw [State.port_setPort]
    · show ((t.setPort p.val _).port q.val).link = _
      rw [State.port_setPort_other _ _ _ _ (fun h => e (Fin.ext h))]
      exact hx.2.1 _ (hq.resolve_left fun k => e k.1)
  · next h => exact ⟨rfl, fun q hq => hq.resolve_left fun k => h k.2⟩

theorem drop_links (s : State) : (dropLinks s).pins = s.pins ∧ ∀ q : Fin 4, q.val < s.portCount → ((dropLinks s).port q.val).link = .down := by
  have : ∀ (l : List (Fin 4)) (t : State), (l.foldl linkDown t).pins = t.pins ∧
      ∀ q : Fin 4, (q ∈ l ∧ q.val < t.portCount) ∨ (t.port q.val).link = .down → ((l.foldl linkDown t).port q.val).link = .down := by
    intro l
    induction l with
    | nil => intro t; exact ⟨rfl, fun q h => h.resolve_left (by simp)⟩
    | cons p l ih =>
      intro t
      have a := link_facts t p
      have b := ih (linkDown t p)
      have c : (linkDown t p).portCount = t.portCount := by unfold State.portCount; rw [a.1]
      refine ⟨b.1.trans a.1, fun q hq => b.2 q ?_⟩
      rcases hq with ⟨hm, hp⟩ | hd
      · rcases List.mem_cons.1 hm with rfl | hm
        · exact .inr (a.2 q (.inl ⟨rfl, hp⟩))
        · exact .inl ⟨hm, by rw [c]; exact hp⟩
      · exact .inr (a.2 q (.inr hd))
  have h := this [0, 1, 2, 3] s
  refine ⟨h.1, fun q hq => h.2 q (.inl ⟨?_, hq⟩)⟩
  fin_cases q <;> simp

theorem ite_enCore (c : Bool) (x : Pins) : (if c then x else { x with enCore := false }) = { x with enCore := if c then x.enCore else false } := by cases c <;> rfl

theorem ite_enSram (c : Bool) (x : Pins) : (if c then x else { x with enSram := false }) = { x with enSram := if c then x.enSram else false } := by cases c <;> rfl

theorem ite_enFab (c : Bool) (x : Pins) : (if c then x else { x with enFab := false }) = { x with enFab := if c then x.enFab else false } := by cases c <;> rfl

theorem ite_enPcie (c : Bool) (x : Pins) : (if c then x else { x with enPcie := false }) = { x with enPcie := if c then x.enPcie else false } := by cases c <;> rfl

theorem ite_pdnReady (c : Bool) (x : Pins) : (if c then x else { x with pdnReady := true }) = { x with pdnReady := if c then x.pdnReady else true } := by cases c <;> rfl

theorem powerDown_keep (p : Pins) : (powerDown p).enHbm = false ∧ (powerDown p).pwrDnN = p.pwrDnN := by
  unfold powerDown
  extract_lets a b c d e
  have hb : b.enHbm = false ∧ b.pwrDnN = p.pwrDnN := by simp only [b, ite_enCore]; exact ⟨rfl, rfl⟩
  have hc : c.enHbm = false ∧ c.pwrDnN = p.pwrDnN := by simp only [c, ite_enSram]; exact hb
  have hd : d.enHbm = false ∧ d.pwrDnN = p.pwrDnN := by simp only [d, ite_enFab]; exact hc
  have he : e.enHbm = false ∧ e.pwrDnN = p.pwrDnN := by simp only [e, ite_enPcie]; exact hd
  rw [ite_pdnReady]; exact he

end Sys2Proof.Machine
end

