-- ==== Sys2Proof/Laws/CfgSpace.lean ====
section
/-!
SUPPORT. What a configuration read returns where the manual gives the bits (R447, R448).
-/

namespace Sys2Proof.Machine

theorem bitsOf_testBit (v hi lo i : Nat) : (bitsOf v hi lo).testBit i = (decide (i < hi + 1 - lo) && v.testBit (lo + i)) := by
  unfold bitsOf
  rw [Nat.testBit_mod_two_pow, Nat.testBit_div_two_pow, Nat.add_comm i lo]

/-- Merged bits under the mask are the new value's. -/
theorem merge_bits (cur mask v hi lo : Nat) (hm : mask < 2 ^ 64) (h : bitsOf mask hi lo = 2 ^ (hi + 1 - lo) - 1) :
    bitsOf (merge cur mask v) hi lo = bitsOf v hi lo := by
  apply Nat.eq_of_testBit_eq
  intro i
  simp only [bitsOf_testBit]
  by_cases hi' : i < hi + 1 - lo
  · have hb : mask.testBit (lo + i) = true := by
      have := congrArg (fun n => n.testBit i) h
      simp only [bitsOf_testBit, Nat.testBit_two_pow_sub_one, hi', decide_true, Bool.true_and] at this
      exact this
    have hc : (2 ^ 64 - 1 - mask).testBit (lo + i) = false := by
      have := Nat.testBit_two_pow_sub_succ hm (lo + i)
      rw [show 2 ^ 64 - 1 - mask = 2 ^ 64 - (mask + 1) by omega, this, hb]
      simp
    show (decide _ && ((cur &&& (2 ^ 64 - 1 - mask)) ||| (v &&& mask)).testBit (lo + i)) = _
    rw [Nat.testBit_or, Nat.testBit_and, Nat.testBit_and, hb, hc]
    simp
  · simp [hi']

/-- A configuration read gives the known bits of its dword, whatever the free ones are. -/
theorem cfgRead_bits (s : State) (f : FuncId) (off hi lo : Nat) (k : Known) (hk : cfgKnown s f off = k) (hm : k.mask < 2 ^ 64)
    (h : bitsOf k.mask hi lo = 2 ^ (hi + 1 - lo) - 1) : bitsOf (cfgRead s f off) hi lo = bitsOf k.value hi lo := by
  unfold cfgRead
  rw [hk]
  exact merge_bits _ _ _ _ _ hm h

theorem capWalk_cons {next : Nat → Nat} {off l : Nat} (n : Nat) (h : off ≠ 0) (hl : next off = l) :
    capWalk next (n + 1) off = off :: capWalk next n l := by
  rw [capWalk, if_neg h, hl]

theorem capWalk_nil (next : Nat → Nat) (n : Nat) : capWalk next n 0 = [] := by
  cases n
  · rfl
  · rw [capWalk, if_pos rfl]

end Sys2Proof.Machine
end

