-- ==== Sys2Proof/Laws/Channel.lean ====
section
/-!
SUPPORT. The management channel and PLDM: when they are served, and what a drain keeps.
-/

namespace Sys2Proof.Machine

theorem alive_of_gatehouse {s : State} (h : s.gatehouseUp = true) : s.alive = true := by
  simp only [State.gatehouseUp, Bool.and_eq_true] at h; exact h.1.1.1.1.1

theorem mayReply_of_gatehouse {s : State} (h : s.gatehouseUp = true) : s.mayReply = true := by
  simp only [State.gatehouseUp, Bool.and_eq_true] at h
  simp only [State.mayReply, alive_of_gatehouse (by simp only [State.gatehouseUp, Bool.and_eq_true]; exact h), Bool.true_and]
  simp_all

theorem channelAt_serves {s : State} {ep : Endpoint} (k : State → State) (h1 : s.boot.ready = true) (h2 : epUp s ep = true)
    (h4 : s.gatehouseUp = true) (h5 : s.latent = none) : channelAt s ep k = k s := by
  simp only [channelAt, alive_of_gatehouse h4, h1, h2, h4, h5, Bool.and_self, Option.isNone_none, if_true]

theorem channelAwake_serves {s : State} {ep : Endpoint} (r : SecReq) (k : State → State) (h1 : s.boot.ready = true) (h2 : epUp s ep = true) (h3 : s.p2 = .awake)
    (h4 : s.gatehouseUp = true) (h5 : s.latent = none) : channelAwake s ep r k = k s := by
  simp only [channelAwake, alive_of_gatehouse h4, h1, h2, Bool.and_self, Bool.not_true, Bool.false_eq_true, if_false,
    awakeAt, h3, beq_self_eq_true, if_true, channelAt_serves k h1 h2 h4 h5]

theorem drain_bmc_core (s : State) (hr : s.pcpReset = none) : (drain s .bmc).pcp.e = s.pcp.e ∧ (drain s .bmc).pcp.qstate = s.pcp.qstate ∧
    (drain s .bmc).cmds = s.cmds ∧ (drain s .bmc).pcp.window = s.pcp.window ∧ (drain s .bmc).accNo = s.accNo ∧ (drain s .bmc).stores = s.stores := by
  have h := sends_drain s .bmc
  have hq := (h.side .bmc).1 fun _ => hr
  simp only [State.queue, Option.map_some, Option.some.injEq] at hq
  have e1 := congrArg Queue.e hq
  have e2 := congrArg Queue.qstate hq
  have e3 := congrArg Queue.window hq
  obtain ⟨⟨_, _, _, _, _, hh⟩, -, -, -⟩ := h
  refine ⟨e1, e2, ?_, e3, ?_, ?_⟩ <;> rw [hh]

theorem sendMctp_eq (s : State) (ep : Endpoint) (b : List Byte) : sendMctp s ep b = { s with out := s.out ++ [.mctp ep b] } := rfl

theorem effecterAt_serves {s : State} {ep : Endpoint} (cmd : Nat) (k : State → State) (h1 : mctpUp s ep = true) (h2 : mayEffect s ep = true) (h3 : effectersOn s = true) :
    effecterAt s ep cmd k = k s := by
  simp only [effecterAt, h1, h2, h3, Bool.not_true, Bool.false_eq_true, if_false, Bool.and_self, if_true]

theorem updateAt_serves {s : State} {ep : Endpoint} (cmd : Nat) (k : State → State) (h1 : mctpUp s ep = true) (h2 : mayUpdate s ep = true) (h3 : 3 ≤ s.boot.stage ∨ s.boot.fwFail = true) :
    updateAt s ep cmd k = k s := by
  have : (decide (3 ≤ s.boot.stage) || s.boot.fwFail) = true := by simpa using h3
  simp only [updateAt, h1, h2, this, Bool.not_true, Bool.false_eq_true, if_false, Bool.and_self, if_true]

end Sys2Proof.Machine
end

