-- ==== Sys2Proof/Laws/Cipher.lean ====
section
/-!
SUPPORT. AES-256-GCM as R331 and R433 use it: what one side seals, the other opens.
-/

namespace Sys2Proof.Machine

theorem xorL_length : ∀ a b : List Nat, (xorL a b).length = min a.length b.length
  | [], _ => by simp [xorL]
  | _ :: _, [] => by simp [xorL]
  | _ :: as, _ :: bs => by simp [xorL, xorL_length as bs, Nat.succ_min_succ]

/-- Round keys: at least two, of 16 bytes each. -/
def keysOk (rk : List (List Nat)) : Bool := decide (2 ≤ rk.length) && rk.all fun k => k.length == 16

theorem toLe_length : ∀ n v, (toLe n v).length = n
  | 0, _ => rfl
  | n + 1, v => by simp [toLe, toLe_length n]

theorem aesRounds_length : ∀ (ks : List (List Nat)) (s : List Nat), ks ≠ [] → (∀ k ∈ ks, k.length = 16) →
    (aesRounds ks s).length = 16
  | [k], s, _, h => by simp [aesRounds, xorL_length, shiftRows, h k (by simp)]
  | _ :: b :: ks, _, _, h => by
    change (aesRounds (b :: ks) _).length = 16
    exact aesRounds_length (b :: ks) _ (by simp) fun k hk => h k (List.mem_cons_of_mem _ hk)

theorem aesBlock_length (rk : List (List Nat)) (blk : List Byte) (h : keysOk rk = true) : (aesBlock rk blk).length = 16 := by
  match rk, h with
  | [], h => simp [keysOk] at h
  | [_], h => simp [keysOk] at h
  | k :: b :: ks, h =>
    simp only [keysOk, Bool.and_eq_true, List.all_eq_true, beq_iff_eq] at h
    simp only [aesBlock, List.length_map]
    exact aesRounds_length (b :: ks) _ (by simp) fun x hx => h.2 x (List.mem_cons_of_mem _ hx)

theorem xor_twice : ∀ p k : List Byte, p.length ≤ k.length →
    List.zipWith (fun a b => a ^^^ b) (List.zipWith (fun a b => a ^^^ b) p k) k = p
  | [], _, _ => by simp
  | _ :: _, [], h => by simp at h
  | x :: p, y :: k, h => by
    simp only [List.zipWith_cons_cons, List.cons.injEq]
    exact ⟨by rw [BitVec.xor_assoc, BitVec.xor_self, BitVec.xor_zero], xor_twice p k (by simpa using h)⟩

theorem chunks_succ {α : Type} (n : Nat) (x : List α) (h : 16 ≤ x.length) :
    chunks 16 (n + 1) x = x.take 16 :: chunks 16 n (x.drop 16) := by
  cases x with
  | nil => simp at h
  | cons a x => rfl

theorem gcmCtr_length (rk : List (List Nat)) (iv : List Byte) (h : keysOk rk = true) : ∀ (n c : Nat) (pt : List Byte),
    pt.length = 16 * n → (gcmCtr rk iv c (chunks 16 n pt)).length = 16 * n
  | 0, _, _, _ => by simp [chunks, gcmCtr]
  | n + 1, c, pt, hp => by
    have := gcmCtr_length rk iv h n (c + 1) (pt.drop 16) (by rw [List.length_drop]; omega)
    rw [chunks_succ _ _ (by omega), gcmCtr, List.length_append, List.length_zipWith, aesBlock_length _ _ h, this, List.length_take]
    omega

/-- Counter mode undoes itself. -/
theorem gcmCtr_twice (rk : List (List Nat)) (iv : List Byte) (h : keysOk rk = true) : ∀ (n c : Nat) (pt : List Byte),
    pt.length = 16 * n → gcmCtr rk iv c (chunks 16 n (gcmCtr rk iv c (chunks 16 n pt))) = pt
  | 0, _, pt, hp => by
    have : pt = [] := List.length_eq_zero_iff.mp (by omega)
    simp [chunks, gcmCtr, this]
  | n + 1, c, pt, hp => by
    have hk := aesBlock_length rk (iv ++ toBe 4 c) h
    have hz : (List.zipWith (fun a b => a ^^^ b) (pt.take 16) (aesBlock rk (iv ++ toBe 4 c))).length = 16 := by
      rw [List.length_zipWith, hk, List.length_take]; omega
    conv => lhs; rw [chunks_succ n pt (by omega), gcmCtr]
    rw [chunks_succ _ _ (by rw [List.length_append]; omega), List.take_left' hz, List.drop_left' hz, gcmCtr,
      xor_twice _ _ (by rw [hk, List.length_take]; omega),
      gcmCtr_twice rk iv h n (c + 1) _ (by rw [List.length_drop]; omega), List.take_append_drop]

/-- What is sealed opens to itself, with a ciphertext of the same length and a tag of 16 bytes. -/
theorem gcm_round_trip (key iv aad pt : List Byte) (n : Nat) (hk : keysOk (aesRoundKeys key) = true) (hn : pt.length = 16 * n) :
    gcmOpen key iv aad (gcmSeal key iv aad pt).1 (gcmSeal key iv aad pt).2 = some pt ∧
      (gcmSeal key iv aad pt).1.length = 16 * n ∧ (gcmSeal key iv aad pt).2.length = 16 := by
  have hb : ∀ x : List Byte, x.length = 16 * n → blocks16 x = chunks 16 n x := fun x hx => by
    rw [blocks16, hx, show ceilDiv (16 * n) 16 = n by simp [ceilDiv]]
  have hl := gcmCtr_length _ iv hk n 2 pt hn
  refine ⟨?_, ?_, ?_⟩
  · simp only [gcmOpen, gcmSeal, hb pt hn, hb _ hl, gcmCtr_twice _ iv hk n 2 pt hn, if_true]
  · simpa only [gcmSeal, hb pt hn] using hl
  · simp [gcmSeal, gcmTag, List.length_zipWith, aesBlock_length _ _ hk, toBe, toLe_length]

end Sys2Proof.Machine
end

