-- ==== Sys2Proof/Laws/Nvs.lean ====
section
/-!
SUPPORT. What a write of an NVS record and a burn of a lifecycle state leave (R422, R425).
-/

namespace Sys2Proof.Machine

variable {α : Type}

theorem nvsCopy_good (enc : α → List Byte) (v : α) (n : Nat) : (nvsCopy enc v n).good enc = true := beq_self_eq_true _

theorem cutCopy_good (enc : α → List Byte) (v : α) (n : Nat) (w : Bool) : (cutCopy (nvsCopy enc v n) w).good enc = w := by
  cases w
  · have h : ∀ c : Nat, ¬(c + 1) % 2 ^ 32 = c := by omega
    exact beq_eq_false_iff_ne.2 (h _)
  · exact nvsCopy_good ..

/-- A record that is written reads as what was written. -/
theorem nvsWrite_value (enc : α → List Byte) (r : NvsRec α) (v : α) : (r.write enc v).value enc = v := by
  unfold NvsRec.value NvsRec.holds NvsRec.write nvsRec
  split <;> rfl

theorem holds_pair (enc : α → List Byte) (a b : NvsCopy α) : NvsRec.holds enc ⟨a, b⟩ =
    if !b.good enc || (a.good enc && laterSeq a.seq b.seq) then a else b := rfl

/-- A write that is cut off leaves the old content or the new one (R422). -/
theorem nvsTorn_value (enc : α → List Byte) (r : NvsRec α) (v : α) (w : Bool) :
    (r.torn enc v w).value enc = if w then v else r.value enc := by
  have seqs : ∀ a : Nat, laterSeq a ((a + 1) % 2 ^ 32) = false ∧ laterSeq ((a + 1) % 2 ^ 32) a = true := by
    intro a
    constructor
    · exact decide_eq_false (by omega)
    · exact decide_eq_true (by omega)
  unfold NvsRec.torn NvsRec.value
  extract_lets c
  have hg : c.good enc = w := cutCopy_good ..
  have hv : w = true → c.val = v ∧ c.seq = r.next enc := by rintro rfl; exact ⟨rfl, rfl⟩
  cases hf : r.firstHolds enc
  · have hx : r.second.good enc = true ∧ r.holds enc = r.second := by
      refine ⟨?_, by unfold NvsRec.holds; rw [hf]; rfl⟩
      unfold NvsRec.firstHolds at hf
      revert hf; cases r.second.good enc <;> simp
    cases w
    · simp [holds_pair, hg, hx.1, hx.2]
    · have := (seqs r.second.seq).2
      norm_num at this
      simp only [NvsRec.next, hx.2] at hv
      simp [holds_pair, hg, hx.1, hv, this]
  · have hx : r.holds enc = r.first := by unfold NvsRec.holds; rw [hf]; rfl
    cases w
    · simp [holds_pair, hg, hx]
    · have := (seqs r.first.seq).1
      norm_num at this
      simp only [NvsRec.next, hx] at hv
      simp [holds_pair, hg, hv, this]

theorem burnPair_burned (f r : Bool × Bool) (h : burned f = true) : burned (burnPair f r) = true := by
  simp only [burned, burnPair, Bool.and_eq_true] at *
  simp [h]

/-- A burn never takes a lifecycle state back (R422). -/
theorem burn_rank (x : Stores) (l : Life) (r : Bool × Bool) : x.life.rank ≤ (x.burn l r).life.rank := by
  have h := burnPair_burned x.lifeFuses.provisioned r
  have h2 := burnPair_burned x.lifeFuses.field r
  have h3 := burnPair_burned x.lifeFuses.retired r
  cases l <;> unfold Stores.life Stores.burn <;> dsimp only <;> repeat' split
  all_goals first
    | exact Nat.le_refl _
    | decide
    | simp_all

/-- Burned whole, a lifecycle state is reached from the one before it (R422, R424). -/
theorem burn_provisioned {x : Stores} (h : x.life = .blank) : (x.burn .provisioned (true, true)).life = .provisioned := by
  unfold Stores.life at h
  unfold Stores.life Stores.burn burnPair
  dsimp only
  cases hr : burned x.lifeFuses.retired
  · cases hf : burned x.lifeFuses.field
    · simp [burned]
    · rw [hr, hf] at h; cases h
  · rw [hr] at h; cases h

theorem burn_field {x : Stores} (h : x.life = .provisioned) : (x.burn .field (true, true)).life = .field := by
  unfold Stores.life at h
  unfold Stores.life Stores.burn burnPair
  dsimp only
  cases hr : burned x.lifeFuses.retired
  · simp [burned]
  · rw [hr] at h; cases h

theorem burn_retired (x : Stores) : (x.burn .retired (true, true)).life = .retired := by
  simp [Stores.life, Stores.burn, burnPair, burned]

theorem reserve_limit (x : Stores) : x.reserve.limit = x.limit + 4096 := nvsWrite_value ..

theorem tornReserve_limit (x : Stores) (w : Bool) : (x.tornReserve w).limit = if w then x.limit + 4096 else x.limit := nvsTorn_value ..

end Sys2Proof.Machine
end

