-- ==== Sys2Proof/Laws/Forward.lean ====
section
/-!
SUPPORT. The stores only move forward (R422 to R427, R435): one lemma for each operation that writes them.
-/

set_option linter.unusedTactic false
set_option linter.unreachableTactic false

namespace Sys2Proof.Machine

/-- The stores move forward, and a reserved export counter stays reserved. -/
def Fwd (s t : State) : Prop := s.stores.Forward t.stores ∧ (s.reserved → t.reserved)

theorem Stores.Forward.refl (a : Stores) : a.Forward a := ⟨rfl,rfl,rfl,rfl,Nat.le_refl _,Nat.le_refl _,id,Nat.le_refl _⟩

theorem Stores.Forward.trans {a b c : Stores} (h : a.Forward b) (k : b.Forward c) : a.Forward c :=
  ⟨k.fvk.trans h.fvk, k.tdk.trans h.tdk, k.uds.trans h.uds, k.serial.trans h.serial, Nat.le_trans h.life k.life, Nat.le_trans h.minSvn k.minSvn, fun x => k.idOff (h.idOff x), Nat.le_trans h.limit k.limit⟩

theorem Fwd.of {s t : State} (h : Keeps s t) : Fwd s t := ⟨h.1 ▸ Stores.Forward.refl _, fun k => by simp only [State.reserved, h.1, h.2] at *; exact k⟩

theorem Fwd.trans {s t u : State} (h : Fwd s t) (k : Fwd t u) : Fwd s u := ⟨h.1.trans k.1, fun x => k.2 (h.2 x)⟩

theorem resetState_fwd (s a b c) : Fwd s (resetState s a b c) := ⟨Stores.Forward.refl _, fun _ => Nat.zero_le _⟩

theorem regWrite_fwd (s f off m v) : Fwd s (regWrite s f off m v) := by
  unfold regWrite
  repeat' split
  all_goals first
    | exact .of (adminRegWrite_keeps ..)
    | exact .of (qStateWrite_keeps ..)
    | (unfold ldgResetWrite; split; exact resetState_fwd ..; exact .of ⟨rfl,rfl⟩)
    | exact .of (setKeeperCtl_keeps ..)
    | exact .of (pwrCtlWrite_keeps ..)
    | exact .of (eclkWrite_keeps ..)
    | exact .of (secCtlWrite_keeps ..)
    | exact .of (errStatusWrite_keeps ..)
    | exact .of (errPop_keeps ..)
    | exact .of (devStatusWrite_keeps ..)
    | exact .of (devPop_keeps ..)
    | exact .of ⟨rfl,rfl⟩

theorem bar0_fwd (s f off m v) : Fwd s (bar0Write s f off m v) := by
  unfold bar0Write; split
  · exact .of (countReg_keeps ..)
  · exact regWrite_fwd ..

theorem served_fwd (s f k) (h : ∀ t, Fwd t (k t)) : Fwd s (served s f k) := by
  unfold served; split
  · exact (Fwd.of (touchPort_keeps ..)).trans (h _)
  · exact .of ⟨rfl,rfl⟩

theorem commitExport_fwd (s n c x key plan) (hl : s.expCtr + 1 ≤ s.stores.limit) : Fwd s (commitExport s n c x key plan) := by
  have h : ∀ u ctr r, Keeps s u → ctr ≤ s.stores.limit → Fwd s (endCmd { u with expCtr := ctr } c r) := by
    intro u ctr r hk hc
    refine Fwd.trans (t := { u with expCtr := ctr }) ?_ (.of (endCmd_keeps ..))
    constructor
    · show s.stores.Forward u.stores
      rw [hk.1]; exact Stores.Forward.refl _
    · intro _
      show ctr ≤ u.stores.limit
      rw [hk.1]; exact hc
  unfold commitExport
  refine h _ _ _ ?_ hl
  exact ((noteImage_keeps ..).trans (State.modPlot_keeps ..)).trans (closeStream_keeps ..)

theorem exportGo_fwd (s n c x key plan) (hl : s.expCtr + 1 ≤ s.stores.limit) : Fwd s (exportGo s n c x key plan) := by
  unfold exportGo
  generalize imageDamaged x 0 x.img.length = o
  cases o with
  | some o => exact .of (failImage_keeps ..)
  | none =>
    dsimp only
    generalize hm : morePages s n c (pagesFor (x.img.length + 80)) = m
    cases m with
    | error r => exact .of (failCmd_keeps ..)
    | ok t =>
      have hk := morePages_keeps hm
      dsimp only
      unfold commitAt
      split
      · exact Fwd.trans (.of hk) (commitExport_fwd _ _ _ _ _ _ (by rw [hk.1, hk.2]; exact hl))
      · exact .of ⟨rfl, rfl⟩

theorem exportAt_fwd (s n p c x) : Fwd s (exportAt s n p c x) := by
  unfold exportAt
  split
  · exact .of (failCmd_keeps ..)
  · exact .of ⟨rfl,rfl⟩
  · split
    · unfold exportWaits
      split
      · exact .of (failCmd_keeps ..)
      · exact .of ⟨rfl, rfl⟩
    · next hl => exact exportGo_fwd _ _ _ _ _ _ (Nat.not_lt.1 hl)

theorem atTurn_fwd (c op s k) (h : ∀ d, Fwd s (k d)) : Fwd s (atTurn c op s k) := by
  unfold atTurn; split
  · split
    · exact h _
    · exact .of ⟨rfl,rfl⟩
  · exact .of ⟨rfl,rfl⟩

theorem secAt_fwd (s ep op k) (h : Fwd s (k s)) : Fwd s (secAt s ep op k) := by
  unfold secAt; repeat' split
  · exact .of ⟨rfl,rfl⟩
  · exact .of (secAnswer_keeps ..)
  · exact h

theorem awakeAt_fwd (s r k) (h : Fwd s (k s)) : Fwd s (awakeAt s r k) := by
  unfold awakeAt; split
  · exact h
  · exact Fwd.trans (.of (wakeEvent_keeps s)) (.of ⟨rfl, rfl⟩)

theorem burn_fwd (x l r) : Stores.Forward x (x.burn l r) := by
  have h := burn_rank x l r
  cases l <;> exact ⟨rfl,rfl,rfl,rfl,h,Nat.le_refl _,id,Nat.le_refl _⟩

theorem setAuthority_fwd (x a) : Stores.Forward x (x.setAuthority a) := ⟨rfl,rfl,rfl,rfl,Nat.le_refl _,Nat.le_refl _,id,Nat.le_refl _⟩

theorem reserve_fwd (x : Stores) : Stores.Forward x x.reserve :=
  ⟨rfl,rfl,rfl,rfl,Nat.le_refl _,Nat.le_refl _,id,by rw [reserve_limit]; exact Nat.le_add_right ..⟩

theorem tornReserve_fwd (x : Stores) (w : Bool) : Stores.Forward x (x.tornReserve w) :=
  ⟨rfl,rfl,rfl,rfl,Nat.le_refl _,Nat.le_refl _,id,by rw [tornReserve_limit]; split <;> omega⟩

/-- Stores that move forward, and nothing else of the counter's. -/
theorem Fwd.stores {s t : State} (h : s.stores.Forward t.stores) (k : t.expCtr = s.expCtr) : Fwd s t :=
  ⟨h, fun r => by unfold State.reserved at *; rw [k]; exact Nat.le_trans r h.limit⟩

theorem startCore_fwd (s) : Fwd s (startCore s) := ⟨Stores.Forward.refl _, fun _ => Nat.le_refl _⟩

theorem powerGood_fwd (r b s) : Fwd s (powerGood r b s) := by
  unfold powerGood
  extract_lets t
  repeat' split
  · exact .of ⟨rfl,rfl⟩
  · exact .of ⟨rfl,rfl⟩
  · unfold nextEnable
    repeat' split
    all_goals first
      | exact Fwd.trans (t := t) (.of ⟨rfl,rfl⟩) (startCore_fwd _)
      | exact .of ⟨rfl,rfl⟩
  · exact .of ⟨rfl,rfl⟩

theorem finishNvs_fwd (s) : Fwd s (finishNvs s) := by
  unfold finishNvs; split
  · exact .stores (reserve_fwd _) rfl
  · exact .of ⟨rfl,rfl⟩

theorem tearNvs_fwd (s) : Fwd s (tearNvs s) := by
  unfold tearNvs; split
  · exact .stores (tornReserve_fwd ..) rfl
  · exact .of ⟨rfl,rfl⟩

theorem nvsWrite_fwd (ok s) : Fwd s (nvsWrite ok s) := by
  unfold nvsWrite; split
  · exact .of ⟨rfl,rfl⟩
  · extract_lets t; split
    · exact .stores (reserve_fwd _) rfl
    · split
      · exact Fwd.trans (t := t) (.of ⟨rfl,rfl⟩) (.of (failCmd_keeps ..))
      · exact .of ⟨rfl,rfl⟩

theorem readyState_fwd (l bd s) : Fwd s (readyState l bd s) := by
  unfold readyState
  extract_lets t u burn v
  have hu : Keeps s u := Keeps.trans (foldl_keeps _ _ _ fun _ _ => startEngine_keeps ..) (foldl_keeps _ _ _ fun _ _ => failEngine_keeps ..)
  have hv : Keeps u v := by
    simp only [v]
    split
    · exact addRecord_keeps ..
    · exact ⟨rfl, rfl⟩
  refine Fwd.trans (.of hu) (Fwd.trans (t := _) (.stores ?_ ?_) (.of (retargetAll_keeps _)))
  · dsimp only
    split
    · next h =>
      have : u.stores.minSvn < u.boot.fwSvn := by
        simp only [burn, Bool.and_eq_true, decide_eq_true_eq] at h
        exact h.1.2
      exact ⟨rfl,rfl,rfl,rfl,Nat.le_refl _,Nat.le_of_lt this,id,Nat.le_refl _⟩
    · exact Stores.Forward.refl _
  · exact hv.2

theorem burnFailed_fwd (s) : Fwd s (burnFailed s) := .of (addRecord_keeps ..)

theorem retireNow_fwd (b s) : Fwd s (retireNow b s).1 := by
  unfold retireNow
  extract_lets t x y u
  have ht : Fwd s t := .of (closeDebug_keeps s)
  have hx : t.stores.Forward x := setAuthority_fwd ..
  have hy : t.stores.Forward y := hx.trans
    (Stores.Forward.trans (b := { x with idOff := true }) ⟨rfl,rfl,rfl,rfl,Nat.le_refl _,Nat.le_refl _,fun _ => rfl,Nat.le_refl _⟩ (burn_fwd ..))
  refine ht.trans ?_
  split
  · split
    · exact .stores hy rfl
    · exact Fwd.trans (t := u) (.stores hy rfl) (burnFailed_fwd _)
  · exact Fwd.trans (t := { t with sessions := [], stores := x }) (.stores hx rfl) (burnFailed_fwd _)

theorem tenant_fwd (s) : Fwd s (tenantEraseDone s) := by
  unfold tenantEraseDone
  split
  · exact .of ⟨rfl,rfl⟩
  · split
    · refine Fwd.trans (t := { s with devZeroing := 0, secure := { s.secure with erasing := none } }) (.of ⟨rfl, rfl⟩) ?_
      generalize ({ s with devZeroing := 0, secure := { s.secure with erasing := none } } : State) = t
      dsimp only
      split
      · split
        · exact (retireNow_fwd _ t).trans (.of (answerEp_keeps ..))
        · exact (retireNow_fwd _ t).trans (.of (refuseEp_keeps ..))
      · exact Fwd.trans (t := openInvasive t) (.of ⟨rfl, rfl⟩) (.of (answerEp_keeps ..))
    · exact .of ⟨rfl,rfl⟩

theorem provision_fwd (ep b r s) : Fwd s (provisionNow ep b r s) := by
  have hx : ∀ a h, s.stores.Forward ({ s.stores with odkHash := h }.setAuthority a) := fun a h =>
    ⟨rfl,rfl,rfl,rfl,Nat.le_refl _,Nat.le_refl _,id,Nat.le_refl _⟩
  unfold provisionNow
  split
  · exact .of (refused_keeps ..)
  · split
    · dsimp only
      split
      · split
        · refine Fwd.trans (t := _) (.stores ?_ ?_) (.of (accepted_keeps ..))
          exacts [by dsimp only; exact (hx ..).trans (burn_fwd ..), rfl]
        · refine Fwd.trans (Fwd.trans (t := _) (.stores ?_ ?_) (burnFailed_fwd _)) (.of (refused_keeps ..))
          exacts [by dsimp only; exact (hx ..).trans (burn_fwd ..), rfl]
      · refine Fwd.trans (Fwd.trans (t := _) (.stores ?_ ?_) (burnFailed_fwd _)) (.of (refused_keeps ..))
        exacts [hx .., rfl]
    · exact .of (refused_keeps ..)

theorem field_fwd (ep b r s) : Fwd s (fieldNow ep b r s) := by
  unfold fieldNow
  have hq : Keeps s (present s (some ep) 0x10 b).1 := present_keeps ..
  generalize present s (some ep) 0x10 b = q at *
  refine Fwd.trans (.of hq) ?_
  dsimp only
  split
  · split
    · refine Fwd.trans (t := _) (.stores ?_ ?_) (.of (accepted_keeps ..))
      exacts [by dsimp only; exact burn_fwd .., rfl]
    · refine Fwd.trans (Fwd.trans (t := _) (.stores ?_ ?_) (burnFailed_fwd _)) (.of (refused_keeps ..))
      exacts [by dsimp only; exact burn_fwd .., rfl]
  · exact .of (refused_keeps ..)

theorem auth_fwd (ep b s) : Fwd s (authorityNow ep b s) := by
  unfold authorityNow
  extract_lets r
  have hr : Keeps s r.1 := present_keeps ..
  split
  · split
    · refine Fwd.trans (.of (hr.trans (closeDebug_keeps r.1))) (Fwd.trans (t := _) (.stores ?_ ?_) (.of (accepted_keeps ..)))
      exacts [by dsimp only; exact setAuthority_fwd .., rfl]
    · exact .of (hr.trans (refused_keeps ..))
  · exact .of (hr.trans (refused_keeps ..))

theorem runRequest_fwd (s r) : Fwd s (runRequest s r) := by
  unfold runRequest
  split
  · exact secAt_fwd _ _ _ _ (provision_fwd ..)
  · exact secAt_fwd _ _ _ _ (field_fwd ..)
  · exact secAt_fwd _ _ _ _ (.of (retireStart_keeps ..))
  · exact secAt_fwd _ _ _ _ (auth_fwd ..)
  · exact secAt_fwd _ _ _ _ (.of (invasiveNow_keeps ..))
  · exact .of (channelAt_keeps _ _ _ (pcpPacket_keeps ..))
  · exact .of (channelAt_keeps _ _ _ (channelResetNow_keeps ..))
  · split
    · exact .of (dbgAuth_keeps ..)
    · exact .of ⟨rfl,rfl⟩

/-- The requests that waited for the end of a wake move the stores forward only. -/
theorem runDeferred_fwd (s) : Fwd s (runDeferred s) := by
  unfold runDeferred; split
  · generalize s.secure.deferred = l
    have : ∀ (l : List SecReq) (u : State), Fwd u (l.foldl runRequest u) := by
      intro l
      induction l with
      | nil => intro u; exact .of ⟨rfl,rfl⟩
      | cons r l ih => intro u; exact (runRequest_fwd u r).trans (ih _)
    exact Fwd.trans (t := { s with secure := { s.secure with deferred := [] } }) (.of ⟨rfl, rfl⟩) (this l _)
  · exact .of ⟨rfl,rfl⟩

theorem setSlot_fwd (a i b) : Stores.Forward a (a.setSlot i b) := by
  unfold Stores.setSlot; split <;> exact ⟨rfl,rfl,rfl,rfl,Nat.le_refl _,Nat.le_refl _,id,Nat.le_refl _⟩

theorem setSlot_limit (a i b) : (Stores.setSlot a i b).limit = a.limit := by
  unfold Stores.setSlot; split <;> rfl

theorem guard_fwd {b : Prop} [Decidable b] {s t : State} (h : Fwd s t) : Fwd s (if b then t else s) := by
  split
  · exact h
  · exact .of ⟨rfl, rfl⟩

/-! ## What leaves the stores as they are -/

/-- The stores are the same. -/
def SameStores (s t : State) : Prop := t.stores = s.stores

theorem SameStores.of {s t : State} (h : Keeps s t) : SameStores s t := h.1

theorem SameStores.trans {s t u : State} (h : SameStores s t) (k : SameStores t u) : SameStores s u := Eq.trans k h

theorem regWrite_same (s f off m v) : SameStores s (regWrite s f off m v) := by
  unfold regWrite
  repeat' split
  all_goals first
    | exact .of (adminRegWrite_keeps ..)
    | exact .of (qStateWrite_keeps ..)
    | (unfold ldgResetWrite; split <;> rfl)
    | exact .of (setKeeperCtl_keeps ..)
    | exact .of (pwrCtlWrite_keeps ..)
    | exact .of (eclkWrite_keeps ..)
    | exact .of (secCtlWrite_keeps ..)
    | exact .of (errStatusWrite_keeps ..)
    | exact .of (errPop_keeps ..)
    | exact .of (devStatusWrite_keeps ..)
    | exact .of (devPop_keeps ..)
    | rfl

theorem bar0_same (s f off m v) : SameStores s (bar0Write s f off m v) := by
  unfold bar0Write; split
  · exact .of (countReg_keeps ..)
  · exact regWrite_same ..

theorem served_same (s f k) (h : ∀ t, SameStores t (k t)) : SameStores s (served s f k) := by
  unfold served; split
  · exact (SameStores.of (touchPort_keeps ..)).trans (h _)
  · rfl

theorem commitExport_same (s n c x key plan) : SameStores s (commitExport s n c x key plan) := by
  have h : ∀ u ctr r, Keeps s u → SameStores s (endCmd { u with expCtr := ctr } c r) := by
    intro u ctr r hk
    exact SameStores.trans (t := { u with expCtr := ctr }) hk.1 (.of (endCmd_keeps ..))
  unfold commitExport
  refine h _ _ _ ?_
  exact ((noteImage_keeps ..).trans (State.modPlot_keeps ..)).trans (closeStream_keeps ..)

theorem exportGo_same (s n c x key plan) : SameStores s (exportGo s n c x key plan) := by
  unfold exportGo
  generalize imageDamaged x 0 x.img.length = o
  cases o with
  | some o => exact .of (failImage_keeps ..)
  | none =>
    dsimp only
    generalize hm : morePages s n c (pagesFor (x.img.length + 80)) = m
    cases m with
    | error r => exact .of (failCmd_keeps ..)
    | ok t =>
      dsimp only
      unfold commitAt
      split
      · exact SameStores.trans (.of (morePages_keeps hm)) (commitExport_same ..)
      · rfl

theorem exportAt_same (s n p c x) : SameStores s (exportAt s n p c x) := by
  unfold exportAt
  split
  · exact .of (failCmd_keeps ..)
  · rfl
  · split
    · unfold exportWaits
      split
      · exact .of (failCmd_keeps ..)
      · rfl
    · exact exportGo_same ..

theorem atTurn_same (c op s k) (h : ∀ d, SameStores s (k d)) : SameStores s (atTurn c op s k) := by
  unfold atTurn; split
  · split
    · exact h _
    · rfl
  · rfl

theorem powerGood_same (r b s) : SameStores s (powerGood r b s) := by
  unfold powerGood
  extract_lets t
  repeat' split
  all_goals first
    | rfl
    | (show (nextEnable _ _).stores = _; unfold nextEnable; repeat' split)
  all_goals rfl

theorem guard_same {b : Prop} [Decidable b] {s t : State} (h : SameStores s t) : SameStores s (if b then t else s) := by
  split
  · exact h
  · rfl

end Sys2Proof.Machine
end

