-- ==== Sys2Proof/Laws/PerInstr.lean ====
section
/-!
SUPPORT. One lemma per command, about the command as syntax: the operands of a well-formed command lie where the spec puts them.
-/

namespace Sys2Proof.Laws.Operands

/-- The command in flight that a command acts for. -/
def named : Instr → Option CmdRef
  | .nop c => some c
  | .fence c => some c
  | .abort c => some c
  | .query c => some c
  | .tensorPut c => some c
  | .tensorGet c => some c
  | .tensorFree c => some c
  | .tensorMove c => some c
  | .tableWrite c => some c
  | .descInvalidate c => some c
  | .planLoad c => some c
  | .planUnload c => some c
  | .planRun c => some c
  | .streamOpen c => some c
  | .streamFeed c => some c
  | .streamFlush c => some c
  | .streamPause c => some c
  | .streamResume c => some c
  | .streamClose c => some c
  | .streamExport c => some c
  | .streamImport c => some c
  | .opMatmul c => some c
  | .opVector c => some c
  | .opScan c => some c
  | .opSelect c => some c
  | .opGather c => some c
  | .opConvert c => some c
  | .opRmsnorm c => some c
  | .scalarSet c => some c
  | .queueCreate c => some c
  | .queueDelete c => some c
  | .queueResume c => some c
  | .keySet c => some c
  | .plotConfig c => some c
  | .plotRelease c => some c
  | .scratchpadAccess _ _ c _ => c
  | .maPass _ p => some p.cmd
  | .tagAcquire _ _ op _ => some op.cmd
  | .descriptorBarrier _ b => some b.cmd
  | .slotTimeout p => some p.cmd
  | .datapathFault _ _ _ _ _ c => c
  | _ => none

/-- The queue whose ring a command reads or answers. -/
def ringQueue : Instr → Option Nat
  | .packetFetch _ q _ => some q
  | .okDuplicate _ q => some q
  | .packetAccept _ q => some q
  | .irqCoalesceTimeout _ q => some q
  | .completionTimeout _ q _ => some q
  | _ => none

/-- The bytes of a write within its BAR. -/
def writeEnd : Instr → Option Nat
  | .sqTailDoorbell _ off size _ => some (off + size)
  | .cqHeadDoorbell _ off size _ => some (off + size)
  | .registerWrite w => some (w.off + w.size)
  | _ => none

/-- The token that a command presents. -/
def token : Instr → Option (List Byte)
  | .field _ m => some m.bytes
  | .retire _ m => some m.bytes
  | .authority _ t => some t
  | .invasive _ t => some t
  | .dbgAuth m => some m.bytes
  | _ => none

/-- The keys that a session takes. -/
def sessionKeys : Instr → Option (List Byte × List Byte)
  | .finish _ _ _ k v => some (k, v)
  | .keyUpdate _ _ k v => some (k, v)
  | _ => none

/-- The granules that an upset changes. -/
def granules : Instr → List (Nat × GState)
  | .scratchpadAccess _ _ _ u => u
  | .scrubAccess _ _ u => u
  | _ => []

/-- R251, R261, R266, R433, R438, R449: what a well-formed command's operands are. -/
def Statement (i : Instr) : Prop :=
  WellFormed i = true →
    (∀ c, named i = some c → c.seq < 2 ^ 64 ∧ ∀ f q, c.src = .ring f q → q < 2048) ∧
    (∀ q, ringQueue i = some q → q < 2048) ∧
    (∀ n, writeEnd i = some n → n ≤ 65536) ∧
    (∀ t, token i = some t → t.length = 256) ∧
    (∀ k, sessionKeys i = some k → k.1.length = 32 ∧ k.2.length = 12) ∧
    ∀ g ∈ granules i, g.1 < 1310720

theorem ref_ok (c : CmdRef) (h : c.ok = true) : c.seq < 2 ^ 64 ∧ ∀ f q, c.src = .ring f q → q < 2048 := by
  obtain ⟨src, seq⟩ := c
  cases src <;> simp_all [CmdRef.ok, queueOk]

theorem write_ok {off size : Nat} {v : Word} (h : writeOk off size v = true) : off + size ≤ 65536 := by
  simp only [writeOk, Bool.and_eq_true, decide_eq_true_eq] at h; exact h.1.2

theorem of_ref (i : Instr) (c : CmdRef) (h : WellFormed i = true → c.ok = true) (h₁ : named i = some c) (h₂ : ringQueue i = none)
    (h₃ : writeEnd i = none) (h₄ : token i = none) (h₅ : sessionKeys i = none) (h₆ : granules i = []) : Statement i := by
  intro hw
  rw [h₁, h₂, h₃, h₄, h₅, h₆]
  refine ⟨fun d hd => ?_, by simp, by simp, by simp, by simp, by simp⟩
  cases hd
  exact ref_ok c (h hw)

theorem of_plain (i : Instr) (h₁ : named i = none) (h₂ : ringQueue i = none) (h₃ : writeEnd i = none) (h₄ : token i = none)
    (h₅ : sessionKeys i = none) (h₆ : granules i = []) : Statement i := by
  intro _
  rw [h₁, h₂, h₃, h₄, h₅, h₆]
  simp

theorem sqTailDoorbell (f : FuncId) (off size : Nat) (data : Word) : Statement (.sqTailDoorbell f off size data) := by
  intro h
  refine ⟨by simp [named], by simp [ringQueue], fun n hn => ?_, by simp [token], by simp [sessionKeys], by simp [granules]⟩
  cases hn
  exact write_ok h

theorem cqHeadDoorbell (f : FuncId) (off size : Nat) (data : Word) : Statement (.cqHeadDoorbell f off size data) := by
  intro h
  refine ⟨by simp [named], by simp [ringQueue], fun n hn => ?_, by simp [token], by simp [sessionKeys], by simp [granules]⟩
  cases hn
  exact write_ok h

theorem qAdminEnable (f : FuncId) (v : Word) : Statement (.qAdminEnable f v) := of_plain _ rfl rfl rfl rfl rfl rfl

theorem qAdminDisable (f : FuncId) (v : Word) : Statement (.qAdminDisable f v) := of_plain _ rfl rfl rfl rfl rfl rfl

theorem adminDeletionDone (f : FuncId) : Statement (.adminDeletionDone f) := of_plain _ rfl rfl rfl rfl rfl rfl

theorem qAdminResume (f : FuncId) (v : Word) : Statement (.qAdminResume f v) := of_plain _ rfl rfl rfl rfl rfl rfl

theorem errLogPop (f : FuncId) (v : Word) : Statement (.errLogPop f v) := of_plain _ rfl rfl rfl rfl rfl rfl

theorem errDevLogPop (f : FuncId) (v : Word) : Statement (.errDevLogPop f v) := of_plain _ rfl rfl rfl rfl rfl rfl

theorem ldgResetCold (f : FuncId) (v : Word) : Statement (.ldgResetCold f v) := of_plain _ rfl rfl rfl rfl rfl rfl

theorem pwrWake (f : FuncId) (v : Word) : Statement (.pwrWake f v) := of_plain _ rfl rfl rfl rfl rfl rfl

theorem p2enClear (f : FuncId) (v : Word) : Statement (.p2enClear f v) := of_plain _ rfl rfl rfl rfl rfl rfl

theorem pwrEclkTgtWrite (f : FuncId) (v : Word) : Statement (.pwrEclkTgtWrite f v) := of_plain _ rfl rfl rfl rfl rfl rfl

theorem gkCtlWrite (f : FuncId) (v : Word) : Statement (.gkCtlWrite f v) := of_plain _ rfl rfl rfl rfl rfl rfl

theorem newNonce (f : FuncId) (v : Word) : Statement (.newNonce f v) := of_plain _ rfl rfl rfl rfl rfl rfl

theorem obsEnter (f : FuncId) (v : Word) : Statement (.obsEnter f v) := of_plain _ rfl rfl rfl rfl rfl rfl

theorem dbgClose (f : FuncId) (v : Word) : Statement (.dbgClose f v) := of_plain _ rfl rfl rfl rfl rfl rfl

theorem msixUnmask (f : FuncId) (vec : Nat) : Statement (.msixUnmask f vec) := of_plain _ rfl rfl rfl rfl rfl rfl

theorem registerWrite (w : MmioWrite) : Statement (.registerWrite w) := by
  intro h
  refine ⟨by simp [named], by simp [ringQueue], fun n hn => ?_, by simp [token], by simp [sessionKeys], by simp [granules]⟩
  cases hn
  exact write_ok h

theorem packetFetch (f : FuncId) (q : Nat) (rd : RingRead) : Statement (.packetFetch f q rd) := by
  intro h
  refine ⟨by simp [named], fun n hn => ?_, by simp [writeEnd], by simp [token], by simp [sessionKeys], by simp [granules]⟩
  cases hn
  simp_all [WellFormed, queueOk]

theorem okDuplicate (f : FuncId) (q : Nat) : Statement (.okDuplicate f q) := by
  intro h
  refine ⟨by simp [named], fun n hn => ?_, by simp [writeEnd], by simp [token], by simp [sessionKeys], by simp [granules]⟩
  cases hn
  simp_all [WellFormed, queueOk]

theorem packetAccept (f : FuncId) (q : Nat) : Statement (.packetAccept f q) := by
  intro h
  refine ⟨by simp [named], fun n hn => ?_, by simp [writeEnd], by simp [token], by simp [sessionKeys], by simp [granules]⟩
  cases hn
  simp_all [WellFormed, queueOk]

theorem irqCoalesceTimeout (f : FuncId) (q : Nat) : Statement (.irqCoalesceTimeout f q) := by
  intro h
  refine ⟨by simp [named], fun n hn => ?_, by simp [writeEnd], by simp [token], by simp [sessionKeys], by simp [granules]⟩
  cases hn
  simp_all [WellFormed, queueOk]

theorem nop (c : CmdRef) : Statement (.nop c) := of_ref _ c id rfl rfl rfl rfl rfl rfl

theorem fence (c : CmdRef) : Statement (.fence c) := of_ref _ c id rfl rfl rfl rfl rfl rfl

theorem abort (c : CmdRef) : Statement (.abort c) := of_ref _ c id rfl rfl rfl rfl rfl rfl

theorem query (c : CmdRef) : Statement (.query c) := of_ref _ c id rfl rfl rfl rfl rfl rfl

theorem tensorPut (c : CmdRef) : Statement (.tensorPut c) := of_ref _ c id rfl rfl rfl rfl rfl rfl

theorem tensorGet (c : CmdRef) : Statement (.tensorGet c) := of_ref _ c id rfl rfl rfl rfl rfl rfl

theorem tensorFree (c : CmdRef) : Statement (.tensorFree c) := of_ref _ c id rfl rfl rfl rfl rfl rfl

theorem tensorMove (c : CmdRef) : Statement (.tensorMove c) := of_ref _ c id rfl rfl rfl rfl rfl rfl

theorem tableWrite (c : CmdRef) : Statement (.tableWrite c) := of_ref _ c id rfl rfl rfl rfl rfl rfl

theorem descInvalidate (c : CmdRef) : Statement (.descInvalidate c) := of_ref _ c id rfl rfl rfl rfl rfl rfl

theorem planLoad (c : CmdRef) : Statement (.planLoad c) := of_ref _ c id rfl rfl rfl rfl rfl rfl

theorem planUnload (c : CmdRef) : Statement (.planUnload c) := of_ref _ c id rfl rfl rfl rfl rfl rfl

theorem planRun (c : CmdRef) : Statement (.planRun c) := of_ref _ c id rfl rfl rfl rfl rfl rfl

theorem streamOpen (c : CmdRef) : Statement (.streamOpen c) := of_ref _ c id rfl rfl rfl rfl rfl rfl

theorem streamFeed (c : CmdRef) : Statement (.streamFeed c) := of_ref _ c id rfl rfl rfl rfl rfl rfl

theorem streamFlush (c : CmdRef) : Statement (.streamFlush c) := of_ref _ c id rfl rfl rfl rfl rfl rfl

theorem streamPause (c : CmdRef) : Statement (.streamPause c) := of_ref _ c id rfl rfl rfl rfl rfl rfl

theorem streamResume (c : CmdRef) : Statement (.streamResume c) := of_ref _ c id rfl rfl rfl rfl rfl rfl

theorem streamClose (c : CmdRef) : Statement (.streamClose c) := of_ref _ c id rfl rfl rfl rfl rfl rfl

theorem streamExport (c : CmdRef) : Statement (.streamExport c) := of_ref _ c id rfl rfl rfl rfl rfl rfl

theorem streamImport (c : CmdRef) : Statement (.streamImport c) := of_ref _ c id rfl rfl rfl rfl rfl rfl

theorem moveCommit (plot : Fin 6) (stream : Nat) (blocksOk : Bool) : Statement (.moveCommit plot stream blocksOk) := of_plain _ rfl rfl rfl rfl rfl rfl

theorem opMatmul (c : CmdRef) : Statement (.opMatmul c) := of_ref _ c id rfl rfl rfl rfl rfl rfl

theorem opVector (c : CmdRef) : Statement (.opVector c) := of_ref _ c id rfl rfl rfl rfl rfl rfl

theorem opScan (c : CmdRef) : Statement (.opScan c) := of_ref _ c id rfl rfl rfl rfl rfl rfl

theorem opSelect (c : CmdRef) : Statement (.opSelect c) := of_ref _ c id rfl rfl rfl rfl rfl rfl

theorem opGather (c : CmdRef) : Statement (.opGather c) := of_ref _ c id rfl rfl rfl rfl rfl rfl

theorem opConvert (c : CmdRef) : Statement (.opConvert c) := of_ref _ c id rfl rfl rfl rfl rfl rfl

theorem opRmsnorm (c : CmdRef) : Statement (.opRmsnorm c) := of_ref _ c id rfl rfl rfl rfl rfl rfl

theorem scalarSet (c : CmdRef) : Statement (.scalarSet c) := of_ref _ c id rfl rfl rfl rfl rfl rfl

theorem queueCreate (c : CmdRef) : Statement (.queueCreate c) := of_ref _ c id rfl rfl rfl rfl rfl rfl

theorem queueDelete (c : CmdRef) : Statement (.queueDelete c) := of_ref _ c id rfl rfl rfl rfl rfl rfl

theorem queueResume (c : CmdRef) : Statement (.queueResume c) := of_ref _ c id rfl rfl rfl rfl rfl rfl

theorem keySet (c : CmdRef) : Statement (.keySet c) := of_ref _ c id rfl rfl rfl rfl rfl rfl

theorem plotConfig (c : CmdRef) : Statement (.plotConfig c) := of_ref _ c id rfl rfl rfl rfl rfl rfl

theorem plotRelease (c : CmdRef) : Statement (.plotRelease c) := of_ref _ c id rfl rfl rfl rfl rfl rfl

theorem pageZeroingDone (o : ZeroOwner) : Statement (.pageZeroingDone o) := of_plain _ rfl rfl rfl rfl rfl rfl

theorem wfuPrefetchIssue (e : Fin 6) : Statement (.wfuPrefetchIssue e) := of_plain _ rfl rfl rfl rfl rfl rfl

theorem wfuEntryComplete (e : Fin 6) (entry : Nat) : Statement (.wfuEntryComplete e entry) := of_plain _ rfl rfl rfl rfl rfl rfl

theorem maPass (e : Fin 6) (p : PassDesc) : Statement (.maPass e p) :=
  of_ref _ p.cmd (fun h => by simp only [WellFormed, Bool.and_eq_true] at h; exact h.2) rfl rfl rfl rfl rfl rfl

theorem tagAcquire (e : Fin 6) (unit : EUnit) (op : OpRef) (acts : List TagAct) : Statement (.tagAcquire e unit op acts) :=
  of_ref _ op.cmd (fun h => by simp only [WellFormed, Bool.and_eq_true] at h; exact h.2) rfl rfl rfl rfl rfl rfl

theorem descriptorBarrier (e : Fin 6) (b : BarrierRef) : Statement (.descriptorBarrier e b) :=
  of_ref _ b.cmd id rfl rfl rfl rfl rfl rfl

theorem scratchpadAccess (e : Fin 6) (a : Access) (c : Option CmdRef) (upset : List (Nat × GState)) : Statement (.scratchpadAccess e a c upset) := by
  intro h
  simp only [WellFormed, Bool.and_eq_true] at h
  refine ⟨fun d hd => ?_, by simp [ringQueue], by simp [writeEnd], by simp [token], by simp [sessionKeys], fun g hg => ?_⟩
  · cases hd; exact ref_ok _ h.1
  · have := List.all_eq_true.1 h.2 g hg; exact of_decide_eq_true this

theorem slotTimeout (p : EpochRef) : Statement (.slotTimeout p) := of_ref _ p.cmd id rfl rfl rfl rfl rfl rfl

theorem scrubAccess (e : Fin 6) (bank : Fin 40) (upset : List (Nat × GState)) : Statement (.scrubAccess e bank upset) := by
  intro h
  refine ⟨by simp [named], by simp [ringQueue], by simp [writeEnd], by simp [token], by simp [sessionKeys], fun g hg => ?_⟩
  have := List.all_eq_true.1 h g hg; exact of_decide_eq_true this

theorem spPatrolSweep (e : Fin 6) : Statement (.spPatrolSweep e) := of_plain _ rfl rfl rfl rfl rfl rfl

theorem ghPatrolSweep (found : List Found) : Statement (.ghPatrolSweep found) := of_plain _ rfl rfl rfl rfl rfl rfl

theorem hbmPatrolSweep (found : List Found) (behind : Bool) : Statement (.hbmPatrolSweep found behind) := of_plain _ rfl rfl rfl rfl rfl rfl

theorem lodgePatrolSweep : Statement .lodgePatrolSweep := of_plain _ rfl rfl rfl rfl rfl rfl

theorem opportunisticSlice (e : Fin 6) : Statement (.opportunisticSlice e) := of_plain _ rfl rfl rfl rfl rfl rfl

theorem forcedSliceDue (e : Fin 6) : Statement (.forcedSliceDue e) := of_plain _ rfl rfl rfl rfl rfl rfl

theorem forcedSliceStart (e : Fin 6) : Statement (.forcedSliceStart e) := of_plain _ rfl rfl rfl rfl rfl rfl

theorem sliceComplete (e : Fin 6) (pass : Bool) : Statement (.sliceComplete e pass) := of_plain _ rfl rfl rfl rfl rfl rfl

theorem hbmCalibration (stack : Fin 4) (ch : Fin 16) (valid : Bool) : Statement (.hbmCalibration stack ch valid) := of_plain _ rfl rfl rfl rfl rfl rfl

theorem calibrationWindowTimeout (stack : Fin 4) (ch : Fin 16) (valid : Bool) : Statement (.calibrationWindowTimeout stack ch valid) := of_plain _ rfl rfl rfl rfl rfl rfl

theorem fullStateCompare (pair : Fin 4) (differs : Bool) : Statement (.fullStateCompare pair differs) := of_plain _ rfl rfl rfl rfl rfl rfl

theorem latentRestartTimeout : Statement (.latentRestartTimeout) := of_plain _ rfl rfl rfl rfl rfl rfl

theorem datapathFault (e : Fin 6) (u : EUnit) (k : CheckKind) (p : CheckSite) (v : CheckedValue) (c : Option CmdRef) :
    Statement (.datapathFault e u k p v c) := by
  intro h
  refine ⟨fun d hd => ?_, by simp [ringQueue], by simp [writeEnd], by simp [token], by simp [sessionKeys], by simp [granules]⟩
  cases hd; exact ref_ok _ h

theorem routeLost (a b : BitVec 8) : Statement (.routeLost a b) := of_plain _ rfl rfl rfl rfl rfl rfl

theorem ghLockstep (pair : Fin 4) : Statement (.ghLockstep pair) := of_plain _ rfl rfl rfl rfl rfl rfl

theorem gatehouseRestartDone (failed : List (Fin 4)) : Statement (.gatehouseRestartDone failed) := of_plain _ rfl rfl rfl rfl rfl rfl

theorem clock (c : ClockId) : Statement (.clock c) := of_plain _ rfl rfl rfl rfl rfl rfl

theorem hbmRelockDone (stack : Fin 4) (ok : Bool) : Statement (.hbmRelockDone stack ok) := of_plain _ rfl rfl rfl rfl rfl rfl

theorem rail (r : RailId) : Statement (.rail r) := of_plain _ rfl rfl rfl rfl rfl rfl

theorem engineGate (e : Fin 6) : Statement (.engineGate e) := of_plain _ rfl rfl rfl rfl rfl rfl

theorem engineWakeDone (e : Fin 6) : Statement (.engineWakeDone e) := of_plain _ rfl rfl rfl rfl rfl rfl

theorem eclkRelockDone (e : Fin 6) : Statement (.eclkRelockDone e) := of_plain _ rfl rfl rfl rfl rfl rfl

theorem p2Entry : Statement (.p2Entry) := of_plain _ rfl rfl rfl rfl rfl rfl

theorem hbmReady : Statement (.hbmReady) := of_plain _ rfl rfl rfl rfl rfl rfl

theorem limitControlPeriod (power temp : Nat) : Statement (.limitControlPeriod power temp) := of_plain _ rfl rfl rfl rfl rfl rfl

theorem overcurrentAlarm : Statement (.overcurrentAlarm) := of_plain _ rfl rfl rfl rfl rfl rfl

theorem thermalHold (temp : Nat) : Statement (.thermalHold temp) := of_plain _ rfl rfl rfl rfl rfl rfl

theorem thermalRelease (temp : Nat) : Statement (.thermalRelease temp) := of_plain _ rfl rfl rfl rfl rfl rfl

theorem thermalTrip (temp : Nat) : Statement (.thermalTrip temp) := of_plain _ rfl rfl rfl rfl rfl rfl

theorem functionLevelReset (f : FuncId) : Statement (.functionLevelReset f) := of_plain _ rfl rfl rfl rfl rfl rfl

theorem portReset (port : Fin 4) (k : PortResetKind) : Statement (.portReset port k) := of_plain _ rfl rfl rfl rfl rfl rfl

theorem vfRemoval (port : Fin 4) (numVfs : Nat) (enable : Bool) : Statement (.vfRemoval port numVfs enable) := of_plain _ rfl rfl rfl rfl rfl rfl

theorem d3hotEntry (f : FuncId) (bmeLost : Bool) : Statement (.d3hotEntry f bmeLost) := of_plain _ rfl rfl rfl rfl rfl rfl

theorem d0Return (f : FuncId) : Statement (.d0Return f) := of_plain _ rfl rfl rfl rfl rfl rfl

theorem aspmL1Request (port : Fin 4) : Statement (.aspmL1Request port) := of_plain _ rfl rfl rfl rfl rfl rfl

theorem powerOnReset (lanes : BitVec 2) (smbadr : BitVec 3) (testN : Bool) : Statement (.powerOnReset lanes smbadr testN) := of_plain _ rfl rfl rfl rfl rfl rfl

theorem coldReset : Statement (.coldReset) := of_plain _ rfl rfl rfl rfl rfl rfl

theorem configReady : Statement (.configReady) := of_plain _ rfl rfl rfl rfl rfl rfl

theorem ready (r : ReadyInfo) : Statement (.ready r) := of_plain _ rfl rfl rfl rfl rfl rfl

theorem powerGoodTimeout (r : PgId) : Statement (.powerGoodTimeout r) := of_plain _ rfl rfl rfl rfl rfl rfl

theorem pwrDnN : Statement (.pwrDnN) := of_plain _ rfl rfl rfl rfl rfl rfl

theorem telemetryRefresh : Statement (.telemetryRefresh) := of_plain _ rfl rfl rfl rfl rfl rfl

theorem pcpChannel (ep : Endpoint) (packet : List Byte) : Statement (.pcpChannel ep packet) := of_plain _ rfl rfl rfl rfl rfl rfl

theorem channelReset (ep : Endpoint) (newE : Nat) : Statement (.channelReset ep newE) := of_plain _ rfl rfl rfl rfl rfl rfl

theorem mctpControl (ep : Endpoint) (code : BitVec 8) : Statement (.mctpControl ep code) := of_plain _ rfl rfl rfl rfl rfl rfl

theorem provision (ep : Endpoint) (m : BurnMsg) : Statement (.provision ep m) := of_plain _ rfl rfl rfl rfl rfl rfl

theorem field (ep : Endpoint) (m : BurnMsg) : Statement (.field ep m) := by
  intro h
  refine ⟨by simp [named], by simp [ringQueue], by simp [writeEnd], fun n hn => ?_, by simp [sessionKeys], by simp [granules]⟩
  cases hn
  simpa [WellFormed, tokenOk] using h

theorem retire (ep : Endpoint) (m : BurnMsg) : Statement (.retire ep m) := by
  intro h
  refine ⟨by simp [named], by simp [ringQueue], by simp [writeEnd], fun n hn => ?_, by simp [sessionKeys], by simp [granules]⟩
  cases hn
  simpa [WellFormed, tokenOk] using h

theorem authority (ep : Endpoint) (token : List Byte) : Statement (.authority ep token) := by
  intro h
  refine ⟨by simp [named], by simp [ringQueue], by simp [writeEnd], fun n hn => ?_, by simp [sessionKeys], by simp [granules]⟩
  cases hn
  simpa [WellFormed, tokenOk] using h

theorem nonce (ep : Endpoint) : Statement (.nonce ep) := of_plain _ rfl rfl rfl rfl rfl rfl

theorem observe (ep : Endpoint) (token : List Byte) : Statement (.observe ep token) := of_plain _ rfl rfl rfl rfl rfl rfl

theorem invasive (ep : Endpoint) (token : List Byte) : Statement (.invasive ep token) := by
  intro h
  refine ⟨by simp [named], by simp [ringQueue], by simp [writeEnd], fun n hn => ?_, by simp [sessionKeys], by simp [granules]⟩
  cases hn
  simpa [WellFormed, tokenOk] using h

theorem close (ep : Endpoint) : Statement (.close ep) := of_plain _ rfl rfl rfl rfl rfl rfl

theorem dbgNonce : Statement (.dbgNonce) := of_plain _ rfl rfl rfl rfl rfl rfl

theorem dbgAuth (m : BurnMsg) : Statement (.dbgAuth m) := by
  intro h
  refine ⟨by simp [named], by simp [ringQueue], by simp [writeEnd], fun n hn => ?_, by simp [sessionKeys], by simp [granules]⟩
  cases hn
  simpa [WellFormed, tokenOk] using h

theorem testLogicReset : Statement (.testLogicReset) := of_plain _ rfl rfl rfl rfl rfl rfl

theorem nonceExpiry : Statement (.nonceExpiry) := of_plain _ rfl rfl rfl rfl rfl rfl

theorem tenantEraseDone : Statement .tenantEraseDone := of_plain _ rfl rfl rfl rfl rfl rfl

theorem nvsReservationWrite (ok : Bool) : Statement (.nvsReservationWrite ok) := of_plain _ rfl rfl rfl rfl rfl rfl

theorem getVersion (t : Transport) : Statement (.getVersion t) := of_plain _ rfl rfl rfl rfl rfl rfl

theorem getCapabilities (t : Transport) : Statement (.getCapabilities t) := of_plain _ rfl rfl rfl rfl rfl rfl

theorem negotiateAlgorithms (t : Transport) : Statement (.negotiateAlgorithms t) := of_plain _ rfl rfl rfl rfl rfl rfl

theorem getDigests (t : Transport) : Statement (.getDigests t) := of_plain _ rfl rfl rfl rfl rfl rfl

theorem getCertificate (t : Transport) (slot off len : Nat) : Statement (.getCertificate t slot off len) := of_plain _ rfl rfl rfl rfl rfl rfl

theorem challenge (t : Transport) (slot : Nat) (nonce : List Byte) : Statement (.challenge t slot nonce) := of_plain _ rfl rfl rfl rfl rfl rfl

theorem getMeasurements (t : Transport) (index : Nat) (nonce : List Byte) : Statement (.getMeasurements t index nonce) := of_plain _ rfl rfl rfl rfl rfl rfl

theorem keyExchange (t : Transport) (reqId : BitVec 16) (heartbeat : Nat) : Statement (.keyExchange t reqId heartbeat) := of_plain _ rfl rfl rfl rfl rfl rfl

theorem finish (t : Transport) (id : Nat) (ok : Bool) (key iv : List Byte) : Statement (.finish t id ok key iv) := by
  intro h
  refine ⟨by simp [named], by simp [ringQueue], by simp [writeEnd], by simp [token], fun n hn => ?_, by simp [granules]⟩
  cases hn
  simp_all [WellFormed, sessionOk]

theorem heartbeat (t : Transport) (id : Nat) : Statement (.heartbeat t id) := of_plain _ rfl rfl rfl rfl rfl rfl

theorem heartbeatTimeout (t : Transport) (id : Nat) : Statement (.heartbeatTimeout t id) := of_plain _ rfl rfl rfl rfl rfl rfl

theorem keyUpdate (t : Transport) (id : Nat) (key iv : List Byte) : Statement (.keyUpdate t id key iv) := by
  intro h
  refine ⟨by simp [named], by simp [ringQueue], by simp [writeEnd], by simp [token], fun n hn => ?_, by simp [granules]⟩
  cases hn
  simp_all [WellFormed, sessionOk]

theorem endSession (t : Transport) (id : Nat) : Statement (.endSession t id) := of_plain _ rfl rfl rfl rfl rfl rfl

theorem spdmUnsupportedRequest (t : Transport) (code : BitVec 8) : Statement (.spdmUnsupportedRequest t code) := of_plain _ rfl rfl rfl rfl rfl rfl

theorem pldmSensorRead (ep : Endpoint) (id : Nat) : Statement (.pldmSensorRead ep id) := of_plain _ rfl rfl rfl rfl rfl rfl

theorem pldmEffecterWrite (ep : Endpoint) (id value : Nat) : Statement (.pldmEffecterWrite ep id value) := of_plain _ rfl rfl rfl rfl rfl rfl

theorem pldmP2enEffecter (ep : Endpoint) (value : Bool) : Statement (.pldmP2enEffecter ep value) := of_plain _ rfl rfl rfl rfl rfl rfl

theorem pldmColdResetEffecter (ep : Endpoint) (value : Nat) : Statement (.pldmColdResetEffecter ep value) := of_plain _ rfl rfl rfl rfl rfl rfl

theorem setEventReceiver (ep : Endpoint) (eid : BitVec 8) : Statement (.setEventReceiver ep eid) := of_plain _ rfl rfl rfl rfl rfl rfl

theorem pldmDiscovery (ep : Endpoint) (code : BitVec 8) : Statement (.pldmDiscovery ep code) := of_plain _ rfl rfl rfl rfl rfl rfl

theorem requestUpdate (ep : Endpoint) : Statement (.requestUpdate ep) := of_plain _ rfl rfl rfl rfl rfl rfl

theorem updateComponent (ep : Endpoint) (image : List Byte) : Statement (.updateComponent ep image) := of_plain _ rfl rfl rfl rfl rfl rfl

theorem verifyComplete (ep : Endpoint) : Statement (.verifyComplete ep) := of_plain _ rfl rfl rfl rfl rfl rfl

theorem fclkRelockDone : Statement (.fclkRelockDone) := of_plain _ rfl rfl rfl rfl rfl rfl

theorem fclkStart : Statement (.fclkStart) := of_plain _ rfl rfl rfl rfl rfl rfl

theorem hbmTrainingDone (stack : Fin 4) (ok : Bool) : Statement (.hbmTrainingDone stack ok) := of_plain _ rfl rfl rfl rfl rfl rfl

theorem powerGood (r : PgId) (asserted : Bool) : Statement (.powerGood r asserted) := of_plain _ rfl rfl rfl rfl rfl rfl

theorem linkUp (port : Fin 4) : Statement (.linkUp port) := of_plain _ rfl rfl rfl rfl rfl rfl

theorem flrComplete (f : FuncId) : Statement (.flrComplete f) := of_plain _ rfl rfl rfl rfl rfl rfl

theorem completionTimeout (f : FuncId) (q : Nat) (header : Option (List Byte)) : Statement (.completionTimeout f q header) := by
  intro h
  refine ⟨by simp [named], fun n hn => ?_, by simp [writeEnd], by simp [token], by simp [sessionKeys], by simp [granules]⟩
  cases hn
  simp_all [WellFormed, queueOk]

theorem unsupportedRequest (r : UrReq) : Statement (.unsupportedRequest r) := of_plain _ rfl rfl rfl rfl rfl rfl

theorem configurationWrite (f : FuncId) (fld : CfgField) (value : Nat) : Statement (.configurationWrite f fld value) := of_plain _ rfl rfl rfl rfl rfl rfl

theorem linkReturnsToL0 (port : Fin 4) : Statement (.linkReturnsToL0 port) := of_plain _ rfl rfl rfl rfl rfl rfl

theorem mainSupplyRemoval : Statement (.mainSupplyRemoval) := of_plain _ rfl rfl rfl rfl rfl rfl

theorem supplyReturn : Statement (.supplyReturn) := of_plain _ rfl rfl rfl rfl rfl rfl

theorem pwrDnNDeassert : Statement (.pwrDnNDeassert) := of_plain _ rfl rfl rfl rfl rfl rfl

theorem overcurrentAlarmClear : Statement (.overcurrentAlarmClear) := of_plain _ rfl rfl rfl rfl rfl rfl

theorem sensorThresholdCrossing (sensor : Nat) (value : Nat) : Statement (.sensorThresholdCrossing sensor value) := of_plain _ rfl rfl rfl rfl rfl rfl

theorem lodgeLogicMismatch : Statement (.lodgeLogicMismatch) := of_plain _ rfl rfl rfl rfl rfl rfl

theorem debugAccess (op : DebugOp) : Statement (.debugAccess op) := of_plain _ rfl rfl rfl rfl rfl rfl

theorem extest (i : ScanInstr) : Statement (.extest i) := of_plain _ rfl rfl rfl rfl rfl rfl

theorem unknownVendorSubtype (sub : BitVec 8) : Statement (.unknownVendorSubtype sub) := of_plain _ rfl rfl rfl rfl rfl rfl

end Sys2Proof.Laws.Operands
end

