-- ==== Sys2Proof/Laws/Security.lean ====
section
/-!
SUPPORT. Lifecycle, debug and SPDM: when a message is served, and what tokens, erases and sessions change.
-/

namespace Sys2Proof.Machine

theorem secAt_serves {s : State} {ep : Endpoint} (op : Nat) (k : State → State) (h1 : s.alive = true) (h2 : s.boot.ready = true) (h3 : epUp s ep = true)
    (h4 : s.secure.erasing = none) : secAt s ep op k = k s := by
  have : s.secure.erasing.isSome = false := by rw [h4]; rfl
  simp only [secAt, h1, h2, h3, this, Bool.and_self, Bool.not_true, Bool.false_eq_true, if_false]

theorem awakeAt_runs {s : State} (r : SecReq) (k : State → State) (h1 : s.p2 = .awake) : awakeAt s r k = k s := by
  have : (s.p2 == P2.awake) = true := by rw [h1]; rfl
  simp only [awakeAt, this, if_true]

theorem present_good {s : State} {p : Option Endpoint} {op : Nat} {t : List Byte} (h : tokenGood s p op t = true) (hl : s.secure.lockout = false) :
    present s p op t = ({ s with secure := { s.secure with nonce := none, failCount := 0 } }, true) := by
  have : decide (8 ≤ 0) = false := rfl
  unfold present
  simp only [h, hl, Bool.not_false, Bool.and_self, if_true, this, Bool.or_self]

theorem present_bad {s : State} {p : Option Endpoint} {op : Nat} {t : List Byte} (h : tokenGood s p op t = false) :
    present s p op t = ({ s with secure := { s.secure with
      nonce := none, failCount := s.secure.failCount + 1
      lockout := s.secure.lockout || decide (8 ≤ s.secure.failCount + 1) } }, false) := by
  unfold present
  simp only [h, Bool.and_false, Bool.false_eq_true, if_false]

/-- A FIELD token is good in PROVISIONED only (Table 3 of R424). -/
theorem tokenGood_field {s : State} {p : Option Endpoint} {t : List Byte} (h : tokenGood s p 0x10 t = true) : s.stores.life = .provisioned := by
  unfold tokenGood at h
  simp only [Bool.and_eq_true] at h
  have := h.1.1.2
  unfold opAllowed at this
  simp only [Bool.and_eq_true, beq_iff_eq] at this
  exact this.1

/-- Each byte of a key hash after a burn: bits go from 0 to 1 only, and only where the new hash has a 1. -/
theorem burnHash_at (old new : List Byte) (ok : Bool) (ix : Nat) {i : Nat} (hi : i < 48) : byteAt (burnHash old new ok ix) i =
    Nat.lor (byteAt old i) (if ok then byteAt new i else Nat.land (byteAt new i) (Config.freeByte (ix + i)).toNat) := by
  have hlt : ∀ (l : List Byte) i, byteAt l i < 2 ^ 8 := fun l i => by unfold byteAt; exact BitVec.isLt _
  have hgen : ∀ g : Nat → Byte, byteAt ((List.range 48).map g) i = (g i).toNat := by
    intro g
    unfold byteAt
    rw [List.head?_drop, List.getElem?_map, List.getElem?_range hi]; rfl
  unfold burnHash
  rw [hgen]
  simp only [BitVec.toNat_ofNat]
  apply Nat.mod_eq_of_lt
  apply Nat.or_lt_two_pow (hlt old i)
  split
  · exact hlt new i
  · exact Nat.lt_of_le_of_lt Nat.and_le_left (hlt new i)

/-- A failed burn changes no store. -/
theorem burnFailed_stores (s : State) : (burnFailed s).stores = s.stores := by
  obtain ⟨⟨_, _, _, _, _, _, _, _, _, hh⟩, -, -, -⟩ := notes_addRecord s none (deviceEvent Config.burnEvent 2 0x15 0 0)
  unfold burnFailed
  rw [hh]

theorem fatal_secure (n : Nat) (s : State) : (enterFatal n s).secure = s.secure := by
  unfold enterFatal
  split
  · rfl
  · have hn := notes_addRecord { snapshot s with fatal := true, cmds := [], restart := none } none (deviceEvent 0x000F 3 n 0 0)
    obtain ⟨⟨_, _, _, _, _, _, _, _, _, hh⟩, -, -, -⟩ := hn
    dsimp only
    rw [hh]
    rfl

theorem restart_secure (c : RestartCause) (s : State) : (startRestart c s).secure = s.secure := by
  unfold startRestart
  dsimp only
  split
  · exact fatal_secure ..
  · rfl

theorem retargetAll_secure (s : State) : (retargetAll s).secure = s.secure := by
  unfold retargetAll
  generalize List.range 6 = l
  induction l generalizing s with
  | nil => rfl
  | cons e l ih =>
    refine (ih _).trans ?_
    unfold retarget; dsimp only
    repeat' split
    all_goals rfl

theorem closeDebug_facts (s : State) : (closeDebug s).secure.level = .closed ∧ (closeDebug s).secure.nonce = s.secure.nonce ∧
    (closeDebug s).secure.failCount = s.secure.failCount ∧ (closeDebug s).secure.erasing = s.secure.erasing := by
  unfold closeDebug
  split
  · next h =>
    unfold endInvasive
    rw [if_pos h]
    have hr : (releaseHalts s).secure.nonce = s.secure.nonce ∧ (releaseHalts s).secure.failCount = s.secure.failCount ∧ (releaseHalts s).secure.erasing = s.secure.erasing := by
      unfold releaseHalts
      exact ⟨rfl, rfl, rfl⟩
    dsimp only
    split
    · rw [restart_secure]; exact ⟨rfl, hr⟩
    · exact ⟨rfl, hr⟩
  · exact ⟨rfl, rfl, rfl, rfl⟩

theorem erase_secure (a : AfterErase) (s : State) : (startErase a s).plots = [] ∧ (startErase a s).secure.erasing = some a := by
  unfold startErase
  generalize htt : List.foldl eraseFn s _ = t
  dsimp only
  refine ⟨(retargetAll_plots _).trans rfl, ?_⟩
  exact congrArg Secure.erasing (retargetAll_secure _)

theorem debugAccess_runs {s : State} (op : DebugOp) (h1 : s.secure.level = .invasive) (h2 : s.alive = true) (h3 : s.fclk = .running) (hb : debugBeyond op = none) :
    exec (.debugAccess op) s = .next (debugDo op s) := by
  have hg : (s.secure.level == DebugLevel.invasive && s.alive && s.fclk == Fclk.running) = true := by rw [h1, h2, h3]; rfl
  simp only [exec, execDebugAccess, hg, if_true, hb]

theorem setScalars_one (m : Map Nat) (r v : Nat) (hw : mwf m = true) : (mget (setScalars m r [v]) r).getD 0 = v := by
  simp only [setScalars]
  split
  · next h => rw [mget_mdel m r r hw, h, if_pos rfl]; rfl
  · rw [mget_mput_same]; rfl

theorem foldl_secure {α : Type} (g : State → α → State) (l : List α) (s : State) (h : ∀ t x, (g t x).secure = t.secure) : (l.foldl g s).secure = s.secure := by
  induction l generalizing s with
  | nil => rfl
  | cons x l ih => exact (ih _).trans (h s x)

theorem Notes.secure {s t : State} (h : Notes s t) : t.secure = s.secure := by
  obtain ⟨⟨_, _, _, _, _, _, _, _, _, rfl⟩, -, -, -⟩ := h
  rfl

theorem endWork_secure (s : State) (c : Cmd) : (endWork s c).secure = s.secure := by
  unfold endWork
  split
  · refine foldl_secure _ _ _ fun t e => ?_
    unfold endOn
    extract_lets x mine used y
    split
    · exact (notes_applyTrace ..).secure
    · rfl
  · rfl

theorem undoStop_secure (s : State) (c : Cmd) : (undoStop s c).secure = s.secure := by
  unfold undoStop
  split
  · simp
  · extract_lets p
    split <;> rfl
  · rfl

theorem dropCmd_secure (s : State) (c : Cmd) : (dropCmd s c).secure = s.secure := by
  unfold dropCmd
  extract_lets t
  refine ((undoStop_secure ..).trans ?_).trans (endWork_secure s c)
  split
  · exact foldl_secure _ _ _ fun _ _ => rfl
  · rfl

theorem eraseFn_secure (s : State) (f : FuncId) : (eraseFn s f).secure = s.secure := by
  unfold eraseFn deleteQueues
  exact foldl_secure _ _ _ dropCmd_secure

theorem startErase_secure (a : AfterErase) (s : State) : (startErase a s).secure = { s.secure with erasing := some a } := by
  unfold startErase
  refine (retargetAll_secure _).trans ?_
  dsimp only
  rw [foldl_secure (fun (v : State) (p : Nat × Plot) => clearErrBits v p.2.fids) _ _ fun t p => foldl_secure _ _ _ fun _ _ => rfl, foldl_secure _ _ _ eraseFn_secure]

theorem spdmAt_open {s : State} {r : Transport} (h : spdmUp s r = true) (c : Nat) (k : State → State) : spdmAt s r c true k = k s := by
  simp only [spdmAt, h, Bool.not_true, Bool.and_false, Bool.false_eq_true, if_false]

theorem spdmAt_serves {s : State} {r : Transport} (h : spdmUp s r = true) (hl : s.stores.life ≠ .retired) (c : Nat) (k : State → State) : spdmAt s r c false k = k s := by
  have : (s.stores.life == Life.retired) = false := by simpa using hl
  simp only [spdmAt, h, this, Bool.not_true, Bool.not_false, Bool.and_true, Bool.false_eq_true, if_false]

theorem spdmAt_retired {s : State} {r : Transport} (h : spdmUp s r = true) (hl : s.stores.life = .retired) (c : Nat) (k : State → State) :
    spdmAt s r c false k = spdmError s r errUnsupported c := by
  have : (s.stores.life == Life.retired) = true := by rw [hl]; rfl
  simp only [spdmAt, h, this, Bool.not_true, Bool.not_false, Bool.and_true, Bool.false_eq_true, if_false, if_true]

theorem signed_eq (s : State) (c : Nat) (q b : List Byte) : ∃ g, signed384 s c q b =
    (toLe 1 c ++ b ++ freeBytesAt s.freeIx 32 ++ g, { s with freeIx := s.freeIx + 80 }) := ⟨_, rfl⟩

end Sys2Proof.Machine
end

