-- ==== Sys2Proof/Laws/Steps.lean ====
section
/-!
SUPPORT. The steps inside an engine: what marking an engine as at work leaves alone, and that an MA pass over a scratchpad
without damage never fails.
-/

namespace Sys2Proof.Machine

/-! ## Engines at work -/

theorem modEng_congr (s : State) (e : Nat) (f g : Engine → Engine) (h : f (s.eng e) = g (s.eng e)) : s.modEng e f = s.modEng e g := by
  unfold State.modEng
  rw [h]

theorem abandonSlice_other (s : State) (e : Nat) :
    (∃ sl i k, (abandonSlice s e).eng e = { s.eng e with slice := sl, idleSince := i, eclk := k }) ∧
      (∀ j, j ≠ e → (abandonSlice s e).eng j = s.eng j) ∧ (abandonSlice s e).cmds = s.cmds ∧ (abandonSlice s e).lclk = s.lclk := by
  unfold abandonSlice
  dsimp only
  split
  · split
    · refine ⟨⟨none, s.lclk, min (s.target e) s.power.ceiling, ?_⟩, fun j hj => ?_, (modHolder_keep ..).2.2.1, (modHolder_keep ..).2.2.2.1⟩
      · unfold State.modHolder; split <;> exact State.eng_setEng ..
      · unfold State.modHolder; split <;> exact State.eng_setEng_other _ _ _ _ hj
    · exact ⟨⟨_, _, _, rfl⟩, fun _ _ => rfl, rfl, rfl⟩
  · exact ⟨⟨_, _, _, rfl⟩, fun _ _ => rfl, rfl, rfl⟩

/-- An engine at work: only its slice, its idle time and its clock can differ (R390, R406). -/
theorem atWork_facts (s : State) (e : Nat) :
    (∃ sl k, (atWork s e).eng e = { s.eng e with slice := sl, idleSince := s.lclk, eclk := k }) ∧
      (∀ j, j ≠ e → (atWork s e).eng j = s.eng j) ∧ (atWork s e).cmds = s.cmds ∧ (atWork s e).lclk = s.lclk := by
  obtain ⟨⟨sl, i, k, h⟩, ho, hc, hl⟩ := abandonSlice_other s e
  refine ⟨⟨sl, k, ?_⟩, fun j hj => ?_, hc, hl⟩
  · unfold atWork; rw [State.eng_modEng, h]
  · unfold atWork; rw [eng_other _ _ _ _ hj, ho j hj]

theorem progress_facts (s : State) (e : Nat) (mine : Nat → Bool) :
    (∃ sl k, (progress s e mine).eng e =
      { s.eng e with slice := sl, idleSince := s.lclk, eclk := k, stuck := (s.eng e).stuck.filter fun c => !mine c.1 }) ∧
      (∀ j, j ≠ e → (progress s e mine).eng j = s.eng j) ∧ (progress s e mine).cmds = s.cmds ∧ (progress s e mine).lclk = s.lclk := by
  obtain ⟨⟨sl, k, h⟩, ho, hc, hl⟩ := atWork_facts s e
  refine ⟨⟨sl, k, ?_⟩, fun j hj => ?_, hc, hl⟩
  · unfold progress; rw [State.eng_modEng, h]
  · unfold progress; rw [eng_other _ _ _ _ hj, ho j hj]

theorem progress_devLog (s : State) (e : Nat) (mine : Nat → Bool) : (progress s e mine).devLog = s.devLog := by
  show (abandonSlice s e).devLog = s.devLog
  unfold abandonSlice
  dsimp only
  split
  · split
    · exact (modHolder_keep ..).2.2.2.2.1
    · rfl
  · rfl

theorem upset_nil (p : Spad) (a b : Nat) : upsetGranules p a b [] = p := rfl

theorem noteTensorRead_facts (s : State) (n h : Nat) (t : Tensor) (o k : Nat) :
    (noteTensorRead s n h t o k).cmds = s.cmds ∧ ∀ e, (noteTensorRead s n h t o k).eng e = s.eng e := by
  unfold noteTensorRead
  dsimp only
  split
  · exact ⟨rfl, fun _ => rfl⟩
  · have hn := notes_foldl (fun v w => countCorrected v (some n) true (hbmAddr h (32 * w)))
      ((t.bad.filter fun p => p.2 == .correctable && decide (32 * p.1 < o + k) && decide (o < 32 * p.1 + 32)).map (·.1))
      (setTensor s n h { t with bad := t.bad.filter fun p =>
        !((t.bad.filter fun p => p.2 == .correctable && decide (32 * p.1 < o + k) && decide (o < 32 * p.1 + 32)).map (·.1)).contains p.1 })
      fun _ _ => notes_countCorrected ..
    exact ⟨hn.cmds, hn.eng⟩

theorem noteEntry_facts (s : State) (plot : Option Nat) (p : PfEntry) :
    (noteEntry s plot p).cmds = s.cmds ∧ ∀ e, (noteEntry s plot p).eng e = s.eng e := by
  unfold noteEntry
  induction p.reads generalizing s with
  | nil => exact ⟨rfl, fun _ => rfl⟩
  | cons r l ih =>
    simp only [List.foldl_cons]
    refine ⟨(ih _).1.trans ?_, fun e => ((ih _).2 e).trans ?_⟩
    · split
      · rfl
      · split
        · exact (noteTensorRead_facts ..).1
        · rfl
    · split
      · rfl
      · split
        · exact (noteTensorRead_facts ..).2 e
        · rfl

/-! ## Operations on a scratchpad without damage (R212) -/

/-- Every granule that a scratchpad has marked holds an error that SECDED corrects. -/
def Spad.sound (p : Spad) : Prop := ∀ g ∈ p.gran, g.2 = GState.correctable

/-- From a scratchpad without damage an operation ends without an error and leaves one without damage. -/
structure Sure {α : Type} (m : OpM α) : Prop where
  run : ∀ s : OpSt, s.sp.sound → ∃ a t, m s = (.ok a, t) ∧ t.sp.sound

theorem sound_judge (st : Store) (p : Spad) (t : Trace) (g : Nat) (h : p.sound) : (judgeGranule st p t g).1.sound := by
  unfold judgeGranule
  split
  · exact h
  · next x hx =>
    have := h _ (mget_mem hx)
    dsimp only at this
    subst this
    split <;> exact fun y hy => h y (mem_mdel hy)

theorem sound_store (p : Spad) (st : Store) (h : p.sound) : (p.store st).1.sound := by
  have hf (l : List Nat) : ∀ x : Spad × Trace, x.1.sound → (l.foldl (fun x g => judgeGranule st x.1 x.2 g) x).1.sound := by
    induction l with
    | nil => exact fun _ hx => hx
    | cons g l ih => exact fun x hx => ih _ (sound_judge _ _ _ _ hx)
  exact hf _ (p, Trace.empty) h

theorem sound_storeAll (p : Spad) (ss : List Store) (h : p.sound) : (p.storeAll ss).1.sound := by
  have hf : ∀ x : Spad × Trace, x.1.sound → (ss.foldl (fun x s => let r := x.1.store s; (r.1, x.2.append r.2)) x).1.sound := by
    induction ss with
    | nil => exact fun _ hx => hx
    | cons g l ih => exact fun x hx => ih _ (sound_store _ _ hx)
  exact hf (p, Trace.empty) h

theorem sound_read (p : Spad) (a n : Nat) (h : p.sound) :
    ∃ bs q t, p.read a n = .ok bs q t ∧ q.sound := by
  unfold Spad.read
  dsimp only
  split
  · next g hg =>
    have hh := List.find?_some hg
    split at hh
    · next hx => have := h _ (mget_mem hx); cases this
    · next hx => have := h _ (mget_mem hx); cases this
    · cases hh
  · refine ⟨_, _, _, rfl, fun y hy => h y ?_⟩
    dsimp only at hy
    generalize (granulesOf a n).filter _ = l at hy
    revert hy
    generalize p.gran = m
    induction l generalizing m with
    | nil => exact id
    | cons k l ih => exact fun hy => mem_mdel (ih _ hy)

theorem sure_pure {α : Type} (a : α) : Sure (pure a : OpM α) := ⟨fun s h => ⟨a, s, rfl, h⟩⟩

theorem sure_bind {α β : Type} {m : OpM α} {f : α → OpM β} (h : Sure m) (k : ∀ a, Sure (f a)) : Sure (m >>= f) := by
  refine ⟨fun s hs => ?_⟩
  obtain ⟨a, t, e, ht⟩ := h.run s hs
  obtain ⟨b, u, e', hu⟩ := (k a).run t ht
  refine ⟨b, u, ?_, hu⟩
  show (ExceptT.bindCont f (m s).1) (m s).2 = _
  rw [e]
  exact e'

theorem sure_ite {α : Type} {c : Prop} [Decidable c] {a b : OpM α} (h : Sure a) (k : Sure b) : Sure (if c then a else b) := by
  split <;> assumption

theorem sure_liftNum {α : Type} (x : Num α) : Sure (liftNum x) := ⟨fun _ h => ⟨_, _, rfl, h⟩⟩
theorem sure_steps (n : Nat) : Sure (opSteps n) := ⟨fun _ h => ⟨_, _, rfl, h⟩⟩
theorem sure_lost (n : Nat) : Sure (opLost n) := ⟨fun _ h => ⟨_, _, rfl, h⟩⟩

theorem sure_read (a n : Nat) : Sure (opRead a n) := by
  refine ⟨fun s h => ?_⟩
  obtain ⟨bs, q, t, e, hq⟩ := sound_read s.sp a n h
  exact ⟨bs, { s with sp := q, tr := s.tr.append t }, by simp only [opRead, e], hq⟩

theorem sure_store (st : Store) : Sure (opStore false st) := by
  refine ⟨fun s h => ?_⟩
  unfold opStore
  split
  · exact ⟨_, _, rfl, h⟩
  · exact ⟨_, _, rfl, sound_store _ _ h⟩

theorem sure_stores (ss : List Store) : Sure (opStores false ss) := by
  induction ss with
  | nil => exact sure_pure _
  | cons s l ih => exact sure_bind (sure_store s) fun _ => ih

theorem sure_map {α β : Type} (f : α → OpM β) (h : ∀ x, Sure (f x)) (l : List α) : Sure (opMap f l) := by
  induction l with
  | nil => exact sure_pure _
  | cons x l ih => exact sure_bind (h x) fun _ => sure_bind ih fun _ => sure_pure _

theorem sure_forM {α : Type} (f : α → OpM Unit) (h : ∀ x, Sure (f x)) (l : List α) : Sure (l.forM f) := by
  induction l with
  | nil => exact sure_pure _
  | cons x l ih => exact sure_bind (h x) fun _ => ih

theorem sure_elem (sat : Bool) (d : Desc) (ix : List Nat) : Sure (opElem sat d ix) := by
  refine sure_bind (sure_bind (sure_read ..) fun _ => sure_pure _) fun c => sure_ite ?_ (sure_pure _)
  exact sure_bind (sure_bind (sure_read ..) fun _ => sure_pure _) fun _ => sure_pure _

theorem sure_addend (o : MatOp) (m n : Nat) : Sure (matAddend o m n) := by
  unfold matAddend
  split
  · exact sure_pure _
  · exact sure_bind (sure_elem ..) fun _ => sure_bind (sure_liftNum _) fun _ => sure_pure _
  · exact sure_bind (sure_elem ..) fun _ => sure_bind (sure_liftNum _) fun _ => sure_pure _

theorem sure_gate (iah : Bool) (sc : List Word) (g : Gate) (m n : Nat) (acc : Sv) : Sure (gateElem iah sc g m n acc) := by
  refine sure_ite (sure_pure _) (sure_bind (sure_liftNum _) fun x => ?_)
  have hz (v : Val) : Sure (do
      let z ← if g.usesZ then do
        let k := g.zfmt.width / 8
        let b ← opRead (g.zbase + m * g.zpitch + n * k) k
        pure (readCode g.zfmt g.md.sat (leNat b)).val
      else pure (.fin false 0 0)
      let r ← liftNum (gateForm iah g x v z)
      return Sv.flt r) := by
    refine sure_ite ?_ ?_
    · exact sure_bind (sure_read ..) fun _ => sure_bind (sure_pure _) fun _ => sure_bind (sure_liftNum _) fun _ => sure_pure _
    · exact sure_bind (sure_pure _) fun _ => sure_bind (sure_liftNum _) fun _ => sure_pure _
  refine sure_ite (sure_ite (sure_bind (sure_pure _) hz) (sure_bind (sure_read ..) fun _ => sure_bind (sure_pure _) hz)) (sure_bind (sure_pure _) hz)

theorem sure_results (k : Nat) (d : Desc) (md : Modes) (rs : List (List Nat × Res)) : Sure (opResults false k d md rs) :=
  sure_bind (sure_liftNum _) fun _ => sure_bind (sure_lost _) fun _ => sure_stores _

/-- A weight that the expander takes from staging buffers alone (R93). -/
def BSrc.local : BSrc → Prop
  | .spad _ => True
  | .weight w => ∃ l, w.src = .staged l

theorem sure_bytes (w : Weight) (l : List (Nat × Nat × Nat)) (h : w.src = .staged l) (off n : Nat) : Sure (w.bytes off n) := by
  unfold Weight.bytes
  rw [h]
  refine sure_bind (sure_map _ (fun i => ?_) _) fun _ => sure_pure _
  split
  · exact sure_read ..
  · exact sure_pure _

theorem sure_code (w : Weight) (l : List (Nat × Nat × Nat)) (h : w.src = .staged l) (off i : Nat) : Sure (w.code off i) :=
  have b := sure_bytes w l h
  sure_ite (sure_bind (b ..) fun _ => sure_pure _) (sure_ite (sure_bind (b ..) fun _ => sure_pure _) (sure_bind (b ..) fun _ => sure_pure _))

theorem sure_b (b : BSrc) (h : b.local) (md : Modes) (n k : Nat) : Sure (b.elem md n k) := by
  cases b with
  | spad d => exact sure_elem ..
  | weight w =>
    obtain ⟨l, hl⟩ := h
    refine sure_bind (sure_code w l hl ..) fun q => sure_ite ?_ (sure_ite (sure_pure _) (sure_ite ?_ (sure_pure _)))
    · exact sure_bind (sure_bytes w l hl ..) fun _ => sure_bind (sure_code w l hl ..) fun _ => sure_bind (sure_liftNum _) fun _ => sure_pure _
    · exact sure_bind (sure_bytes w l hl ..) fun _ => sure_pure _

/-- An MA pass over a scratchpad without damage ends without an error. -/
theorem sure_pass (p : MaPass) (sc : List Word) (h : p.op.b.local) : Sure (p.run sc) := by
  refine sure_ite (sure_pure _) (sure_bind (sure_steps _) fun _ => sure_bind (sure_map _ (fun m => sure_bind (sure_map _ (fun n => ?_) _) fun _ => sure_pure _) _)
    fun acc => sure_bind (sure_forM _ (fun r => ?_) _) fun _ => sure_pure _)
  · refine sure_bind (sure_bind ?_ fun init => sure_bind (sure_map _ (fun _ => sure_elem ..) _) fun xs => sure_bind (sure_map _ (fun k => sure_b _ h ..) _)
      fun ys => sure_bind (sure_liftNum _) fun _ => sure_pure _) fun _ => sure_pure _
    unfold MaPass.start
    split
    · exact sure_bind (sure_read ..) fun _ => sure_pure _
    · exact sure_addend ..
  · unfold MaPass.endRow
    split
    · exact sure_bind (sure_map _ (fun _ => sure_bind (sure_gate ..) fun _ => sure_pure _) _) fun _ => sure_results ..
    · exact sure_store _

theorem passOf_local (q : Plot) (y : Engine) (d : PassDesc) (p : MaPass) (h : passOf q y d = some p) : p.op.b.local := by
  have hb : (passB q y d).local := by
    unfold passB
    split
    · trivial
    · exact ⟨_, rfl⟩
  unfold passOf at h
  generalize passB q y d = b at hb h
  cases b <;> dsimp only at h <;> split at h
  · split at h
    · cases h; exact hb
    · cases h
  · cases h
  · split at h
    · cases h; exact hb
    · cases h
  · cases h

/-- The outcome of a pass over a scratchpad without damage. -/
theorem pass_ok (q : Plot) (y : Engine) (d : PassDesc) (p : MaPass) (h : passOf q y d = some p) (hs : y.spad.sound) (sc : List Word) :
    ∃ rows, (p.run sc (opStart y.spad)).1 = .ok rows := by
  obtain ⟨a, t, e, -⟩ := (sure_pass p sc (passOf_local _ _ _ _ h)).run (opStart y.spad) hs
  exact ⟨a, by rw [e]⟩

end Sys2Proof.Machine
end

