-- ==== Sys2Proof/Laws/Tenants.lean ====
section
/-!
SUPPORT. What the operations of the links, of limiting, of the Lodge's messages and of SPDM leave alone: plots, commands and
scratchpads.
-/

set_option linter.unusedTactic false
set_option linter.unreachableTactic false

namespace Sys2Proof.Machine

theorem TenantsKept.refl (s : State) : TenantsKept s s := ⟨rfl, rfl, fun _ => rfl⟩

theorem TenantsKept.trans {s t u : State} (h : TenantsKept s t) (k : TenantsKept t u) : TenantsKept s u :=
  ⟨k.plots.trans h.plots, k.cmds.trans h.cmds, fun e => (k.spads e).trans (h.spads e)⟩

theorem Untouched.tenants {s t : State} (h : Untouched s t) : TenantsKept s t := ⟨h.plots, h.cmds, h.spads⟩

theorem tenants_rest {s t : State} (h1 : t.plots = s.plots) (h2 : t.cmds = s.cmds) (h3 : t.engines = s.engines) : TenantsKept s t :=
  ⟨h1, h2, fun e => by unfold State.eng; rw [h3]⟩

theorem tenants_foldl {α : Type} (g : State → α → State) (l : List α) (s : State) (h : ∀ t x, TenantsKept t (g t x)) :
    TenantsKept s (l.foldl g s) := by
  induction l generalizing s with
  | nil => exact .refl _
  | cons x l ih => exact (h s x).trans (ih _)

theorem tenants_guard {b : Prop} [Decidable b] {s t : State} (h : TenantsKept s t) : TenantsKept s (if b then t else s) := by
  split
  · exact h
  · exact .refl _

theorem tenants_modEng (s : State) (e : Nat) (g : Engine → Engine) (h : (g (s.eng e)).spad = (s.eng e).spad) :
    TenantsKept s (s.modEng e g) := by
  unfold State.modEng
  exact (untouched_setEng s e (g (s.eng e)) h).tenants

theorem tenants_mapEngines (s : State) (g : Engine → Engine) (h : ∀ x, (g x).spad = x.spad) :
    TenantsKept s { s with engines := s.engines.map fun e => (e.1, g e.2) } :=
  ⟨rfl, rfl, (sparesSpads_mapEngines s g h).spads⟩

theorem tenants_retargetAll (s : State) : TenantsKept s (retargetAll s) := by
  refine tenants_foldl _ _ _ fun t e => ?_
  unfold retarget
  extract_lets x v
  split
  · split
    · exact .refl _
    · exact (untouched_setEng t e { x with relock := some v } rfl).tenants
  · exact (untouched_setEng t e { x with eclk := v } rfl).tenants

theorem tenants_served (s : State) (f : FuncId) (k : State → State) (h : ∀ t, TenantsKept t (k t)) : TenantsKept s (served s f k) := by
  unfold served
  split
  · exact (untouched_touchPort ..).tenants.trans (h _)
  · exact .refl _

/-! ## Messages of the Lodge -/

theorem tenants_pldmReply (s : State) (ep : Endpoint) (a b c : Nat) (m : List Byte) : TenantsKept s (pldmReply s ep a b c m) :=
  tenants_rest rfl rfl rfl

theorem tenants_secAnswer (s : State) (ep : Endpoint) (a b : Nat) (m : List Byte) : TenantsKept s (secAnswer s ep a b m) :=
  tenants_rest rfl rfl rfl

theorem tenants_wakeEvent (s : State) : TenantsKept s (wakeEvent s) := (untouched_wakeEvent s).tenants

theorem tenants_wakeFromP2 (s : State) : TenantsKept s (wakeFromP2 s) := by
  unfold wakeFromP2
  split
  · exact tenants_wakeEvent s
  · exact .refl _

theorem tenants_sendEvent (s : State) (b : List Byte) : TenantsKept s (sendEvent s b) := by
  unfold sendEvent
  split <;> exact tenants_rest rfl rfl rfl

theorem tenants_effecterAt (s : State) (ep : Endpoint) (cmd : Nat) (k : State → State) (h : TenantsKept s (k s)) :
    TenantsKept s (effecterAt s ep cmd k) := by
  unfold effecterAt
  split
  · exact .refl _
  · split
    · exact h
    · exact tenants_pldmReply ..

theorem tenants_updateAt (s : State) (ep : Endpoint) (cmd : Nat) (k : State → State) (h : TenantsKept s (k s)) :
    TenantsKept s (updateAt s ep cmd k) := by
  unfold updateAt
  split
  · exact .refl _
  · split
    · exact h
    · exact tenants_pldmReply ..

theorem tenants_secAt (s : State) (ep : Endpoint) (op : Nat) (k : State → State) (h : TenantsKept s (k s)) :
    TenantsKept s (secAt s ep op k) := by
  unfold secAt
  split
  · exact .refl _
  · split
    · exact tenants_secAnswer ..
    · exact h

theorem tenants_awakeAt (s : State) (r : SecReq) (k : State → State) (h : TenantsKept s (k s)) : TenantsKept s (awakeAt s r k) := by
  unfold awakeAt
  split
  · exact h
  · exact (tenants_wakeEvent s).trans (tenants_rest rfl rfl rfl)

theorem tenants_present (s : State) (path : Option Endpoint) (op : Nat) (tok : List Byte) : TenantsKept s (present s path op tok).1 := by
  unfold present
  dsimp only
  split <;> exact tenants_rest rfl rfl rfl

/-! ## SPDM -/

theorem tenants_spdmAt (s : State) (r : Transport) (code : Nat) (b : Bool) (k : State → State) (h : TenantsKept s (k s)) :
    TenantsKept s (spdmAt s r code b k) := by
  unfold spdmAt
  split
  · exact .refl _
  · split
    · exact tenants_rest rfl rfl rfl
    · exact h

theorem tenants_needs (s : State) (r : Transport) (b : Bool) (k : State → State) (h : TenantsKept s (k s)) :
    TenantsKept s (needs s r b k) := by
  unfold needs
  split
  · exact h
  · exact tenants_rest rfl rfl rfl

theorem tenants_inSession (s : State) (r : Transport) (id : Nat) (b : Bool) (k : Nat → Session → State)
    (h : ∀ n x, TenantsKept s (k n x)) : TenantsKept s (inSession s r id b k) := by
  unfold inSession
  split
  · exact h _ _
  · exact tenants_rest rfl rfl rfl

theorem tenants_spdmSend (s : State) (r : Transport) (b : List Byte) : TenantsKept s (spdmSend s r b) := tenants_rest rfl rfl rfl

theorem tenants_signed (s : State) (code : Nat) (a b : List Byte) : TenantsKept s (signed384 s code a b).2 := tenants_rest rfl rfl rfl

end Sys2Proof.Machine
end

