-- ==== Sys2Proof/Tests/Slice0.lean ====
section
/-!
SUPPORT. The model's own tests: ill-formed commands are refused, small steps give what the spec says, and for every obligation
with hypotheses, states and operands that meet them. Expected results are hand calculations from the rules that are cited.
-/

set_option maxRecDepth 100000
set_option Elab.async false

namespace Sys2Proof.Tests

open Sys2Proof Sys2Proof.Machine

/-- The PF of port 0, the source that its queue 1 is, and a command of that queue. -/
def pf : FuncId := ⟨0, 0⟩
def ring1 : Src := .ring pf 1
def ref7 : CmdRef := ⟨ring1, 7⟩

/-- A function with Memory Space, Bus Master and MSI-X enabled, an enabled admin queue and one more queue. -/
def hostFn : Func :=
  { Func.reset with
    cfg := { Cfg.reset with memorySpace := true, busMaster := true, msixEnable := true }
    enable := true
    queues := [(0, Queue.blank), (1, Queue.blank)] }

/-- Plot 0: engines 0 and 1, four slots, 64 pages, bound to the PF with four queues. -/
def plot0 : Plot :=
  { engmask := 3, slots := 4, quota := 64, queues := 4, streamFirst := 0, streamCount := 4, binds := [⟨0, 4⟩], scalars := [],
    idx4 := [], idx4Pending := [], clock := 5, key := none, tensors := [], plans := [], streams := [], zeroing := 0,
    eclkTarget := 18, log := Log.empty, releasing := none, epochs := 0, epochsSnap := 0, gkSlices := 0, gkForced := 0,
    gkAbandoned := 0, gkFailed := 0, ownedAt := 0 }

/-- A device that is up: bring-up done, a Gatehouse pair active, HBM trained, port 0 at L0, and plot 0. -/
def live : State :=
  { State.reset with
    fclk := .running
    hbm := [(0, .ready), (1, .ready), (2, .ready), (3, .ready)]
    pins := { Pins.reset with enFab := true, enSram := true, enCore := true, enHbm := true, pgPcie := true, pgFab := true,
                              pgSram := true, pgCore := true, pgHbm := true }
    boot := { Boot.reset with stage := 7, ready := true, configReady := true }
    pairs := [(0, { Pair.reset with active := true })]
    ports := [(0, { Port.reset with link := .l0, perstN := true })]
    funcs := [(0, hostFn)]
    plots := [(0, plot0)] }

/-- The fuses of a lifecycle state, and of those before it (R422). -/
def fuses (l : Life) : LifeFuses :=
  match l with
  | .blank => ⟨(false, false), (false, false), (false, false)⟩
  | .provisioned => ⟨(true, true), (false, false), (false, false)⟩
  | .field => ⟨(true, true), (true, true), (false, false)⟩
  | .retired => ⟨(true, true), (true, true), (true, true)⟩

/-- The device with the PF of port 0 designated (R340). -/
def lead : State := { live with stores := { live.stores.setAuthority (.pf 0) with lifeFuses := fuses .provisioned } }

/-- The device with one engine as given. -/
def withEng (s : State) (e : Nat) (x : Engine) : State := { s with engines := mput s.engines e x }

/-- An engine that runs. -/
def engOn : Engine := { Engine.reset with power := .running, eclk := 18 }

/-- The device with engines 0 and 1 running. -/
def warm : State := withEng (withEng live 0 engOn) 1 engOn

/-- An accepted command of queue 1. -/
def cmdOf (op : Nat) (params payload : List Byte) : Cmd :=
  { src := ring1, acc := 5, plot := some 0, opcode := op, stream := 0, handle := 9, tag := 0, irq := false, seqs := [7],
    params := params, payload := payload, isOpen := false, clock := 4, stampAt := 4, reserved := [], pages := 1, shadowSlots := 1, won := false,
    tooLate := none, placed := [], olds := [] }

/-- Queue 1 as given. -/
def withRing (s : State) (x : Queue) : State := s.setQueue ring1 x

/-- The device with commands in flight, of which queue 1's window remembers the packet 7. -/
def having (s : State) (ds : List Cmd) : State :=
  withRing { s with cmds := ds } { Queue.blank with e := 8, window := [(3, ⟨0, 0, 1, 2, some .ok⟩), (7, ⟨0, 0, 0, 5, none⟩)] }

/-- Plot 0 as given. -/
def inPlot0 (s : State) (p : Plot) : State := { s with plots := [(0, p)] }

/-- An outcome is a next state with a property. -/
def onward (o : Host.Outcome State Fault Refusal) (p : State → Bool) : Bool :=
  match o with
  | .next t => p t
  | .fault _ => false
  | .refused _ => false

/-- exec answers a next state with a property. -/
def gives (c : Instr) (s : State) (p : State → Bool) : Bool := onward (exec c s) p

/-- exec answers a state in which no command is left and the packet 7 has ended with a status. -/
def ends (c : Instr) (s : State) (st : Status) : Bool :=
  gives c s fun t => t.cmds == [] && ((t.queue ring1).bind fun x => mget x.window 7).bind (·.status) == some st

/-- exec answers this state. -/
def givesState (c : Instr) (s t : State) : Bool := gives c s fun u => u == t

/-! ## Commands that cannot occur -/

theorem test_wf_doorbell_size : WellFormed (.sqTailDoorbell pf 0 9 0) = false := by decide
theorem test_wf_doorbell_bar : WellFormed (.cqHeadDoorbell pf 65536 4 0) = false := by decide
theorem test_wf_write_data : WellFormed (.registerWrite ⟨pf, .bar0, 0, 1, 256, false⟩) = false := by decide
theorem test_wf_vector : WellFormed (.msixUnmask ⟨0, 1⟩ 16) = false ∧ WellFormed (.msixUnmask pf 255) = true := by decide
theorem test_wf_fetch : WellFormed (.packetFetch pf 1 (.bytes [0])) = false := by decide
theorem test_wf_fetch_header : WellFormed (.packetFetch pf 1 (.failed (some []))) = false := by decide
theorem test_wf_queue : WellFormed (.okDuplicate pf 2048) = false ∧ WellFormed (.packetAccept pf 2048) = false ∧
    WellFormed (.irqCoalesceTimeout pf 2048) = false ∧ WellFormed (.completionTimeout pf 2048 none) = false := by decide
theorem test_wf_command : WellFormed (.nop ⟨ring1, 2 ^ 64⟩) = false ∧ WellFormed (.fence ⟨.ring pf 2048, 0⟩) = false ∧
    WellFormed (.plotRelease ⟨.bmc, 0⟩) = true := by decide
theorem test_wf_stream : WellFormed (.moveCommit 0 4096 true) = false := by decide
theorem test_wf_tags : WellFormed (.tagAcquire 0 .ma ⟨0, ref7⟩ [⟨.acqFull, 0, 5119, 2⟩]) = false := by decide
theorem test_wf_pass : WellFormed (.maPass 0 ⟨false, [], .spad [], [], none, false, none, false, false, 0, 0, 0, 0, 0, .spill 0, [], ref7⟩) =
    false := by decide
theorem test_wf_upset : WellFormed (.scratchpadAccess 0 (.read 0 16) none [(1310720, .correctable)]) = false ∧
    WellFormed (.scrubAccess 0 0 [(1310720, .correctable)]) = false := by decide
theorem test_wf_fault_command : WellFormed (.datapathFault 0 .ma .residue ⟨0, 0, 0⟩ .groupSum (some ⟨.bmc, 2 ^ 64⟩)) = false := by decide
theorem test_wf_restart : WellFormed (.gatehouseRestartDone [0, 0]) = false ∧ WellFormed (.ready ⟨[1, 1], true⟩) = false := by decide
theorem test_wf_vfs : WellFormed (.vfRemoval 0 64 true) = false := by decide
theorem test_wf_channel : WellFormed (.channelReset .smbus (2 ^ 64)) = false := by decide
theorem test_wf_token : WellFormed (.field .smbus ⟨[], (true, true), true⟩) = false ∧ WellFormed (.observe .smbus []) = true ∧
    WellFormed (.observe .smbus [0]) = false ∧ WellFormed (.dbgAuth ⟨[], (true, true), true⟩) = false := by decide
theorem test_wf_spdm : WellFormed (.challenge (.mctp .smbus) 8 (zeros 32)) = false ∧
    WellFormed (.getMeasurements (.mctp .smbus) 256 (zeros 32)) = false ∧
    WellFormed (.getCertificate (.mctp .smbus) 0 65536 0) = false ∧ WellFormed (.keyExchange (.mctp .smbus) 0 256) = false ∧
    WellFormed (.finish (.mctp .smbus) 0 true [] []) = false := by decide
theorem test_wf_entry : WellFormed (.wfuEntryComplete 0 65536) = false := by decide
theorem test_wf_config : WellFormed (.configurationWrite pf .maxRead (2 ^ 32)) = false := by decide

/-! ## Reset, the queue and the table's words -/

/-- At reset the counter and the reservation are both 0 (R435), and bring-up is in step 1 (R460). -/
theorem test_reset_reserved : State.reset.reserved := by
  unfold State.reserved
  decide
theorem test_reset_spads : State.reset.spadsWf = true ∧ State.reset.boot.stage = 1 ∧ State.reset.pending = [] := by decide
/-- The table gives no row any bits, so no word is a command. -/
theorem test_no_words : decodeTableWord 8 0 = none ∧ decodeTableWord 0 0 = none := by decide
/-- An empty queue idles for one LCLK cycle; the front command runs. -/
theorem test_step_idle : onward (step State.reset) (fun t => t == { State.reset with lclk := 1 }) = true := by decide
theorem test_step_front : onward (step { State.reset with pending := [.overcurrentAlarm] })
    (fun t => t == { State.reset with power := { Power.reset with halfPulse := true } }) = true := by decide +kernel

/-! ## Doorbells and registers (files 12 and 21) -/

/-- A tail at the ring's last position is latched, and one beyond it sets DBERR (R256). -/
theorem test_tail : mmioServed live pf = true ∧ doorbellOf 16 4 = some (1, false) ∧
    mget (live.fn pf).queues 1 = some Queue.blank ∧
    gives (.sqTailDoorbell pf 16 4 4096) live (fun t => (t.queue ring1).map (·.sqTail) == some 4096) = true ∧
    gives (.sqTailDoorbell pf 16 4 4097) live (fun t =>
      (t.queue ring1).map (fun x => (x.sqTail, x.dberr)) == some (0, true)) = true := by decide +kernel

/-- A tail may not move back: with TAIL 4 latched, 3 is invalid (R256). -/
theorem test_tail_back : mmioServed (withRing live { Queue.blank with sqTail := 4 }) pf = true ∧
    gives (.sqTailDoorbell pf 16 8 3) (withRing live { Queue.blank with sqTail := 4 }) (fun t =>
      (t.queue ring1).map (fun x => (x.sqTail, x.dberr)) == some (4, true)) = true := by decide +kernel

/-- A head up to the completion tail is latched; one beyond it sets DBERR (R257). -/
theorem test_head : doorbellOf 24 4 = some (1, true) ∧
    mmioServed (withRing live { Queue.blank with cqTail := 8 }) pf = true ∧
    gives (.cqHeadDoorbell pf 24 4 8) (withRing live { Queue.blank with cqTail := 8 }) (fun t =>
      (t.queue ring1).map (fun x => (x.cqHead, x.dberr)) == some (8, false)) = true ∧
    gives (.cqHeadDoorbell pf 24 4 9) (withRing live { Queue.blank with cqTail := 8 }) (fun t =>
      (t.queue ring1).map (fun x => (x.cqHead, x.dberr)) == some (0, true)) = true := by decide +kernel

/-- The PF with other registers. -/
def withFn (s : State) (x : Func) : State := { s with funcs := [(0, x)] }
def idleFn : Func := { hostFn with enable := false, queues := [] }

/-- ENABLE = 1 with windows in order creates queue 0; a base off a page sets CFGERR (R480, R481). -/
theorem test_admin_enable : mmioServed (withFn live idleFn) pf = true ∧ live.secure.erasing = none ∧
    adminWindowsOk idleFn = true ∧ adminWindowsOk { idleFn with sqBase := 2048 } = false ∧ adminWindowsOk { idleFn with sqBase := 4096 } = true ∧
    gives (.qAdminEnable pf 1) (withFn live idleFn) (fun t => (t.fn pf).enable && (mget (t.fn pf).queues 0).isSome) = true ∧
    gives (.qAdminEnable pf 1) (withFn live { idleFn with sqBase := 2048 })
      (fun t => !(t.fn pf).enable && (t.fn pf).cfgErr) = true := by decide +kernel

/-- ENABLE = 0 deletes the queues and sets BUSY, which the end of the deletion clears (R482). -/
theorem test_admin_disable : gives (.qAdminDisable pf 0) live (fun t => !(t.fn pf).enable && (t.fn pf).busy &&
      (t.fn pf).queues == []) = true ∧
    gives (.adminDeletionDone pf) (withFn live { idleFn with busy := true }) (fun t => !(t.fn pf).busy) = true := by decide +kernel

def halted0 : Queue := { Queue.blank with qstate := .halted, byRing := true }
def broken0 : Queue := { Queue.blank with qstate := .broken }
/-- RESUME makes a queue 0 that a ring fault halted ACTIVE, leaves a BROKEN one, and without ENABLE only deletes (R483). -/
theorem test_admin_resume : bitOf (3 : Word).toNat 0 = true ∧ bitOf (2 : Word).toNat 0 = false ∧
    mmioServed (withFn live { hostFn with queues := [(0, halted0)] }) pf = true ∧
    gives (.qAdminResume pf 3) (withFn live { hostFn with queues := [(0, halted0)] })
      (fun t => (t.queue (.ring pf 0)).map (·.qstate) == some .active) = true ∧
    gives (.qAdminResume pf 3) (withFn live { hostFn with queues := [(0, broken0)] })
      (fun t => t.queue (.ring pf 0) == some broken0) = true ∧
    gives (.qAdminResume pf 2) live (fun t => (t.fn pf).queues == []) = true ∧
    gives (.qAdminResume pf 2) (withFn live idleFn) (fun t => !(t.fn pf).enable) = true := by decide +kernel

def rec1 : Rec := ⟨1, 2, 0, 0, 0, 0, 0, 0, 7⟩
/-- POP removes the oldest record of the plot's log, and of the device log in the designated PF (R377, R378). -/
theorem test_pop : boundIn live.plots (fidNat pf) = some 0 ∧ lead.designated pf = true ∧ mmioServed lead pf = true ∧
    gives (.errLogPop pf 1) (inPlot0 live { plot0 with log := { Log.empty with recs := [rec1, { rec1 with time := 8 }] } })
      (fun t => (mget t.plots 0).map (fun p => p.log.recs.map (·.time)) == some [8]) = true ∧
    gives (.errDevLogPop pf 1) { lead with devLog := { Log.empty with recs := [rec1] } } (fun t => t.devLog.recs == []) = true :=
  by decide +kernel

/-- In P2 a write of WAKE, or of P2EN = 0, begins the wake; 18 and 4 are legal targets; GK_CTL has five bits (R397, R404,
R410). -/
theorem test_power_registers : mmioServed { lead with p2 := .inP2 } pf = true ∧
    gives (.pwrWake pf 1) { lead with p2 := .inP2 } (fun t => t.p2 == .waking 0) = true ∧
    gives (.p2enClear pf 0) { lead with p2 := .inP2 } (fun t => t.p2 == .waking 0 && !t.power.p2en) = true ∧
    gives (.pwrEclkTgtWrite pf 4) live (fun t => (mget t.plots 0).map (·.eclkTarget) == some 4) = true ∧
    gives (.pwrEclkTgtWrite pf 18) live (fun t => (mget t.plots 0).map (·.eclkTarget) == some 18) = true ∧
    gives (.gkCtlWrite pf 0x23) lead (fun t => t.keeper.ctl == 3) = true ∧ live.designated pf = false ∧
    gives (.gkCtlWrite pf 0x23) live (fun t => t.keeper.ctl == 0x1F) = true := by decide +kernel

def field0 : State := { lead with stores := { lead.stores with lifeFuses := fuses .field } }
/-- NEWNONCE, OBS_ENTER, CLOSE and the cold reset of the designated PF (R437, R439, R441, R457). -/
theorem test_debug_control : mmioServed field0 pf = true ∧ field0.designated pf = true ∧ field0.stores.inUse = true ∧
    gives (.newNonce pf 1) field0 (fun t => t.secure.nonce.isSome) = true ∧
    gives (.obsEnter pf 0) field0 (fun t => t.secure.level == .observe) = true ∧
    gives (.dbgClose pf 0) { field0 with secure := { Secure.reset with level := .observe } }
      (fun t => t.secure.level == .closed) = true ∧
    gives (.ldgResetCold pf 0xC01D) field0 (fun t => t.boot.stage == 1 && t.plots == [] && t.stores == field0.stores) = true ∧
    gives (.ldgResetCold pf 0xC01D) live (fun t => t.boot.stage == 7) = true := by decide +kernel

def pendFn : Func := { hostFn with msix := [(255, ⟨64, 9, true, true⟩)] }
/-- Unmasking the PF's last vector sends its pending message; without one, nothing is sent (R283). -/
theorem test_unmask : mmioServed (withFn live pendFn) pf = true ∧ vecLimit pf = 256 ∧ (withFn live pendFn).dmaOk pf = true ∧
    gives (.msixUnmask pf 255) (withFn live pendFn) (fun t => t.out == [.msix pf 255 64 9]) = true ∧
    gives (.msixUnmask pf 254) (withFn live pendFn) (fun t => t.out == [] && !((t.fn pf).vec 254).masked) = true := by
  decide +kernel
def fatalFn (v : Nat) : State := { withFn live { pendFn with errVec := v } with fatal := true }
/-- In the fatal state only the error vector's message goes out (R371). -/
theorem test_unmask_fatal : mmioServed (fatalFn 255) pf = true ∧ (fatalFn 255).dmaOk pf = true ∧ ((fatalFn 255).fn pf).errVec = 255 ∧
    gives (.msixUnmask pf 255) (fatalFn 255) (fun t => t.out == [.msix pf 255 64 9]) = true ∧
    gives (.msixUnmask pf 255) (fatalFn 0) (fun t => t.out == []) = true := by decide +kernel

/-- Register writes, discarded writes and ignored doorbells (R255, R450, R480, R482). -/
theorem test_register_writes : mmioServed (withFn live idleFn) pf = true ∧
    gives (.registerWrite ⟨pf, .bar0, 0x400, 8, 0x5000, false⟩) (withFn live idleFn) (fun t => (t.fn pf).sqBase == 0x5000) = true ∧
    gives (.registerWrite ⟨pf, .bar0, 0x400, 8, 0x5000, false⟩) live (fun t => (t.fn pf).regCnt == 1) = true ∧
    gives (.registerWrite ⟨pf, .bar0, 0x402, 4, 0, false⟩) live (fun t => (t.fn pf).regCnt == 1) = true ∧
    gives (.registerWrite ⟨pf, .bar0, 0x400, 8, 0, true⟩) live (fun t => t.out == [.poisoned 0]) = true ∧
    gives (.sqTailDoorbell pf 0x7FF0 4 0) live (fun t => (t.fn pf).dbCnt == 1) = true ∧
    gives (.cqHeadDoorbell pf 20 4 0) live (fun t => (t.fn pf).dbCnt == 1) = true := by decide +kernel

/-! ## Packets (file 12) -/

/-- A 48-byte packet with no parameters, and its CRC (R259, R260). -/
def packetHead (op seq : Nat) : List Byte :=
  toLe 1 op ++ zeros 3 ++ toLe 4 48 ++ toLe 8 seq ++ zeros 28
def packet (op seq : Nat) : List Byte := packetHead op seq ++ toLe 4 (crc32c (packetHead op seq))

def filled : Queue := { Queue.blank with sqTail := 3, e := 2 }

/-- A window check that fails makes a queue BROKEN, an idle and a HALTED one too (R253). -/
theorem test_window : mayAccess (withRing live Queue.blank) pf Queue.blank = true ∧
    gives (.packetFetch pf 1 (.window false)) (withRing live Queue.blank) (fun t =>
      (t.queue ring1).map (fun x => (x.qstate, x.e)) == some (.broken, 0)) = true ∧
    gives (.packetFetch pf 1 (.window true)) (withRing live { filled with qstate := .halted, staged := some [] }) (fun t =>
      (t.queue ring1).map (fun x => (x.qstate, x.e, x.staged)) == some (.broken, 2, none)) = true := by decide +kernel

/-- A packet with the expected number is staged and SQ_HEAD passes it; E stays (R262, R266). -/
theorem test_fetch : (withRing live filled).queue ring1 = some filled ∧ mayFetch (withRing live filled) pf filled = true ∧
    WholePacket (withRing live filled) filled (packet 1 2) ∧ CrcRight (packet 1 2) ∧ (hdrOf (packet 1 2)).seq = 2 ∧
    gives (.packetFetch pf 1 (.bytes (packet 1 2))) (withRing live filled) (fun t =>
      (t.queue ring1).map (fun x => (x.sqHead, x.e, x.staged)) == some (3, 2, some (packet 1 2))) = true := by
  unfold WholePacket CrcRight
  decide +kernel

/-- A packet that is neither expected nor in the window halts an ORDERED queue, and not an UNORDERED one (R268, R269). -/
theorem test_fetch_stale : WholePacket (withRing live filled) filled (packet 1 3) ∧ CrcRight (packet 1 3) ∧
    inWindow filled (hdrOf (packet 1 3)).seq = none ∧
    gives (.packetFetch pf 1 (.bytes (packet 1 3))) (withRing live filled) (fun t =>
      (t.queue ring1).map (fun x => (x.qstate, x.e)) == some (.halted, 2)) = true ∧
    mayFetch (withRing live { filled with unordered := true }) pf { filled with unordered := true } = true ∧
    gives (.packetFetch pf 1 (.bytes (packet 1 3))) (withRing live { filled with unordered := true }) (fun t =>
      (t.queue ring1).map (fun x => (x.qstate, x.e)) == some (.active, 2)) = true := by
  unfold WholePacket CrcRight
  decide +kernel

/-- A wrong CRC, a bad length and a failed read halt the queue and discard up to the tail (R275, R454). -/
theorem test_ring_faults : WholePacket (withRing live filled) filled (packetHead 1 2 ++ zeros 4) ∧
    ¬CrcRight (packetHead 1 2 ++ zeros 4) ∧
    gives (.packetFetch pf 1 (.bytes (packetHead 1 2 ++ zeros 4))) (withRing live filled) (fun t =>
      (t.queue ring1).map (fun x => (x.qstate, x.e, x.sqHead)) == some (.halted, 2, 3)) = true ∧
    tlenOk (hdrOf (zeros 32)).tlen filled.sqSize = false ∧
    gives (.packetFetch pf 1 (.bytes (zeros 32))) (withRing live filled) (fun t =>
      (t.queue ring1).map (·.qstate) == some .halted) = true ∧
    gives (.completionTimeout pf 1 none) (withRing live filled) (fun t =>
      (t.queue ring1).map (·.qstate) == some .halted) = true := by
  unfold WholePacket CrcRight
  decide +kernel

def staged2 : Queue := { filled with sqHead := 3, staged := some (packet 1 2) }
def tight2 : Queue := { staged2 with cqSize := 64, cqTail := 1 }
/-- A staged NOP is accepted: E advances. With fewer than four free granules it waits (R266, R270). -/
theorem test_accept : mayAccept (withRing live staged2) ring1 staged2 = true ∧
    replyLimit staged2 / 16 ≤ staged2.cqFree ∧ 64 ≤ staged2.cqSize ∧ staged2.chain = none ∧
    gives (.packetAccept pf 1) (withRing live staged2) (fun t =>
      (t.queue ring1).map (fun x => (x.e, x.staged)) == some (3, none) && t.cmds.length == 1) = true ∧
    mayAccept (withRing live tight2) ring1 tight2 = true ∧ tight2.cqFree = 3 ∧
    givesState (.packetAccept pf 1) (withRing live tight2) (withRing live tight2) = true := by decide +kernel

def dupRing : Queue :=
  { Queue.blank with
    window := [(1, ⟨0, 0, 1, 0, some .ok⟩)]
    slots := [⟨.duplicate, 1, 0, 0, 0, false, false, false, false, false, none, 0, 4, false, false, none⟩] }
/-- A duplicate of a packet whose command ended OK is answered OK_DUPLICATE (R267). -/
theorem test_duplicate : (withRing live dupRing).gatehouseUp = true ∧
    (mget dupRing.window 1).bind (·.status) = some .ok ∧
    gives (.okDuplicate pf 1) (withRing live dupRing) (fun t => (t.queue ring1).map (·.e) == some 0) = true := by decide +kernel
def dupAlone : State := withFn live { hostFn with queues := [(1, dupRing)] }
/-- Where it is all that the function owes, the 64 bytes go out at once (R267, R276). -/
theorem test_duplicate_alone : (dupAlone.fn pf).queues = [(1, dupRing)] ∧ dupAlone.mayReply = true ∧ dupAlone.dmaOk pf = true ∧
    dupRing.qstate ≠ .broken ∧ 4 ≤ dupRing.cqFree + 4 ∧
    gives (.okDuplicate pf 1) dupAlone (fun t => (t.queue ring1).map (fun x => (x.slots, x.cqTail)) == some ([], 4)) = true := by
  decide +kernel

def timed : Queue := { Queue.blank with timer := some 0, ctime := 1, ien := true, counted := 1 }
def sent25 : State := { withRing (withFn live { hostFn with msix := [(0, ⟨64, 9, false, false⟩)] }) timed with lclk := 25 }
def mute25 : State := { sent25 with ports := [] }
/-- CTIME of 1 µs is 25 cycles: at 25 the interrupt goes out, and at 24 it does not (R282, R283). -/
theorem test_coalesce : sent25.alive = true ∧ sent25.dmaOk pf = true ∧ sent25.queue ring1 = some timed ∧
    ((sent25.fn pf).vec 0).masked = false ∧ (sent25.fn pf).cfg.msixMask = false ∧ mute25.dmaOk pf = false ∧ mute25.alive = true ∧
    gives (.irqCoalesceTimeout pf 1) sent25 (fun t => t.out == [.msix pf 0 64 9]) = true ∧
    gives (.irqCoalesceTimeout pf 1) mute25 (fun t => t.out == [] && ((t.fn pf).vec 0).pend) = true ∧
    givesState (.irqCoalesceTimeout pf 1) { sent25 with lclk := 24 } { sent25 with lclk := 24 } = true := by decide +kernel

/-! ## Opcodes (file 13) -/

def unordered (s : State) : State := s.modQueue ring1 fun x => { x with unordered := true }
def early (op h : Nat) (ps : List Byte) : Cmd := { cmdOf op ps [] with acc := 4, seqs := [6], handle := h }

/-- A NOP ends OK (R288). -/
theorem test_nop : Turn (having live [cmdOf 1 [] []]) ref7 1 (cmdOf 1 [] []) ∧
    ends (.nop ref7) (having live [cmdOf 1 [] []]) .ok = true := by
  unfold Turn
  decide +kernel

/-- A FENCE waits for an earlier command of its queue, and then ends OK (R288). -/
theorem test_fence : mayBegin (having warm [cmdOf 2 [] []]) (cmdOf 2 [] []) = true ∧
    (having warm [cmdOf 2 [] []]).cmd ref7 = some (cmdOf 2 [] []) ∧
    InPlot (having warm [cmdOf 2 [] []]) (cmdOf 2 [] []) 0 plot0 ∧
    fenceClear (having warm [cmdOf 2 [] []]) (cmdOf 2 [] []) = true ∧
    ends (.fence ref7) (having warm [cmdOf 2 [] []]) .ok = true ∧
    (having warm [early 1 0 [], cmdOf 2 [] []]).cmd ref7 = some (cmdOf 2 [] []) ∧
    fenceClear (having warm [early 1 0 [], cmdOf 2 [] []]) (cmdOf 2 [] []) = false := by
  unfold InPlot
  decide +kernel

def abortCmd : Cmd := cmdOf 3 (toLe 2 1 ++ zeros 6 ++ toLe 8 3) []
/-- An ABORT that won ends OK; one whose target has ended is too late (R290). -/
theorem test_abort : Turn (having live [{ abortCmd with won := true }]) ref7 3 { abortCmd with won := true } ∧
    ends (.abort ref7) (having live [{ abortCmd with won := true }]) .ok = true ∧
    Turn (having live [{ abortCmd with tooLate := some .ok }]) ref7 3 { abortCmd with tooLate := some .ok } ∧
    ends (.abort ref7) (having live [{ abortCmd with tooLate := some .ok }]) .abortTooLate = true := by
  unfold Turn
  decide +kernel

/-- A stored tensor of 32 bytes. -/
def blob32 : Tensor :=
  { attr := 1, fmt := 0, gshift := 0, itable := 0, c0 := 8, c1 := 1, c2 := 1, c3 := 1, img := List.replicate 32 0x5A, bad := [],
    home := none, stamp := 0, lost := 0 }
def holding (z : Tensor) : State := inPlot0 warm { plot0 with tensors := [(9, z)] }

def queryOf (form q : Nat) : Cmd := cmdOf 4 (toLe 2 form ++ toLe 2 q ++ zeros 12) []
/-- The five forms of QUERY, and the handle and queue that do not exist (R291). -/
theorem test_query : Turn (having live [queryOf 0 0]) ref7 4 (queryOf 0 0) ∧ InPlot (having live [queryOf 1 0]) (queryOf 1 0) 0 plot0 ∧
    ends (.query ref7) (having live [queryOf 0 0]) .ok = true ∧ ends (.query ref7) (having live [queryOf 1 0]) .ok = true ∧
    ends (.query ref7) (having live [queryOf 2 0]) .ok = true ∧
    ends (.query ref7) (having (holding blob32) [queryOf 3 0]) .ok = true ∧
    ends (.query ref7) (having live [queryOf 3 0]) .tensorAbsent = true ∧
    ends (.query ref7) (having live [queryOf 4 1]) .ok = true ∧
    ends (.query ref7) (having live [queryOf 4 2]) .badParam = true := by
  unfold Turn InPlot
  decide +kernel

def scalarCmd : Cmd := cmdOf 0x50 ([63, 1] ++ zeros 14 ++ toLe 8 0x1234) []
/-- SCALAR_SET writes the last register (R315). -/
theorem test_scalar_set : Turn (having live [scalarCmd]) ref7 0x50 scalarCmd ∧ InPlot (having live [scalarCmd]) scalarCmd 0 plot0 ∧
    mwf plot0.scalars = true ∧
    gives (.scalarSet ref7) (having live [scalarCmd]) (fun t =>
      ((mget t.plots 0).bind fun p => mget p.scalars 63) == some 0x1234) = true := by
  unfold Turn InPlot
  decide +kernel

def putCmd (attr c0 : Nat) : Cmd :=
  cmdOf 0x10 (toLe 8 attr ++ toLe 4 c0 ++ toLe 4 1 ++ toLe 4 1 ++ toLe 4 1 ++ zeros 8 ++ toLe 8 16 ++ toLe 8 4) [1, 2, 3, 4]
/-- TENSOR_PUT: a creating form with counts 1 and with a count 0, a writing form, and a handle that names no tensor (R292). -/
theorem test_tensor_put : Turn (having live [putCmd 1 1]) ref7 0x10 (putCmd 1 1) ∧ InPlot (having live [putCmd 1 1]) (putCmd 1 1) 0 plot0 ∧
    bitOf (byteAt (putCmd 1 1).params 0) 5 = false ∧
    gives (.tensorPut ref7) (having live [putCmd 1 1]) (fun t =>
      ((mget t.plots 0).bind fun p => (mget p.tensors 9).map (·.img)) == some [1, 2, 3, 4]) = true ∧
    gives (.tensorPut ref7) (having live [putCmd 1 0]) (fun t => (mget t.plots 0).map (·.tensors) == some []) = true := by
  unfold Turn InPlot
  decide +kernel
theorem test_tensor_write : Turn (having (holding blob32) [putCmd 0x20 1]) ref7 0x10 (putCmd 0x20 1) ∧
    bitOf (byteAt (putCmd 0x20 1).params 0) 5 = true ∧ fieldAt (putCmd 0x20 1).params 32 8 = 16 ∧
    gives (.tensorPut ref7) (having (holding blob32) [putCmd 0x20 1]) (fun t =>
      ((mget t.plots 0).bind fun p => (mget p.tensors 9).map fun z => (z.img.drop 15).take 6) ==
        some [0x5A, 1, 2, 3, 4, 0x5A]) = true ∧
    ends (.tensorPut ref7) (having live [putCmd 0x20 1]) .tensorAbsent = true := by
  unfold Turn
  decide +kernel

def getCmd : Cmd := cmdOf 0x11 (toLe 8 0 ++ toLe 8 32) []
def freeCmd : Cmd := cmdOf 0x12 [] []
/-- QUERY of a stream at its turn, and behind an earlier feed of the stream (R34, R291). -/
theorem test_query_stream : streamTurn (having live [queryOf 2 0]) (queryOf 2 0) = true ∧
    Turn (unordered (having live [early 0x31 0 (zeros 4), queryOf 2 0])) ref7 4 (queryOf 2 0) ∧
    streamTurn (unordered (having live [early 0x31 0 (zeros 4), queryOf 2 0])) (queryOf 2 0) = false ∧
    gives (.query ref7) (unordered (having live [early 0x31 0 (zeros 4), queryOf 2 0])) (fun t => t.cmds.length == 2) = true := by
  unfold Turn
  decide +kernel
/-- TENSOR_GET of a sound and of a damaged range; TENSOR_FREE, which waits for an earlier TENSOR_GET (R212, R295). -/
theorem test_tensor_get : Turn (having (holding blob32) [getCmd]) ref7 0x11 getCmd ∧
    InPlot (having (holding blob32) [getCmd]) getCmd 0 { plot0 with tensors := [(9, blob32)] } ∧
    ends (.tensorGet ref7) (having (holding blob32) [getCmd]) .ok = true ∧
    ({ blob32 with bad := [(0, .uncorrectable)] } : Tensor).readBad 0 32 = some 0 ∧
    ends (.tensorGet ref7) (having (holding { blob32 with bad := [(0, .uncorrectable)] }) [getCmd]) .uncorrectableData = true := by
  unfold Turn InPlot
  decide +kernel
theorem test_tensor_free : Turn (having (holding blob32) [freeCmd]) ref7 0x12 freeCmd ∧
    nameFree (having (holding blob32) [freeCmd]) freeCmd = true ∧ planDeclares { plot0 with tensors := [(9, blob32)] } 9 = false ∧
    gives (.tensorFree ref7) (having (holding blob32) [freeCmd]) (fun t => (mget t.plots 0).map (·.tensors) == some []) = true ∧
    Turn (unordered (having (holding blob32) [early 0x11 9 [], freeCmd])) ref7 0x12 freeCmd ∧
    nameFree (unordered (having (holding blob32) [early 0x11 9 [], freeCmd])) freeCmd = false := by
  unfold Turn
  decide +kernel

def moveCmd : Cmd := cmdOf 0x13 ([0, 0, 0, 0] ++ toLe 4 0x800) []
def storeCmd : Cmd := cmdOf 0x13 ([1, 0, 0, 0] ++ toLe 4 0x800) []
/-- TENSOR_MOVE STORE takes the tensor's bytes from the engine; on a FAILED engine, from its home, they are lost (R296, R364). -/
theorem test_tensor_store : Turn (having (holding { blob32 with home := some (0, 0x800) }) [storeCmd]) ref7 0x13 storeCmd ∧
    engineReady (having (holding blob32) [storeCmd]) 0 = true ∧ byteAt storeCmd.params 0 = 1 ∧
    gives (.tensorMove ref7) (having (holding { blob32 with home := some (0, 0x800) }) [storeCmd]) (fun t =>
      ((mget t.plots 0).bind fun p => (mget p.tensors 9).map fun z => (z.img, z.home)) == some (zeros 32, none)) = true ∧
    ends (.tensorMove ref7) (withEng (having (holding { blob32 with home := some (0, 0x800) }) [storeCmd]) 0
      { engOn with failed := true }) .uncorrectableData = true := by
  unfold Turn
  decide +kernel
/-- TENSOR_MOVE on a ready engine stores the image; on a FAILED engine it ends DATAPATH_FAULT (R296). -/
theorem test_tensor_move : Turn (having (holding blob32) [moveCmd]) ref7 0x13 moveCmd ∧
    engineReady (having (holding blob32) [moveCmd]) 0 = true ∧
    gives (.tensorMove ref7) (having (holding blob32) [moveCmd]) (fun t => (t.eng 0).spad.mem.read 0x81F == 0x5A) = true ∧
    ((withEng (having (holding blob32) [moveCmd]) 0 { engOn with failed := true }).eng 0).failed = true ∧
    ends (.tensorMove ref7) (withEng (having (holding blob32) [moveCmd]) 0 { engOn with failed := true }) .datapathFault = true := by
  unfold Turn
  decide +kernel

def tableCmd (defer : Nat) : Cmd := cmdOf 0x14 (toLe 1 0 ++ toLe 1 defer ++ toLe 2 3 ++ toLe 2 1 ++ toLe 2 1) (toLe 2 0x3C00)
def invCmd : Cmd := cmdOf 0x15 (toLe 2 0 ++ toLe 2 3) []
def idxTensor : Tensor := { blob32 with fmt := 0xE, itable := 3 }
def pendPlot : Plot := { plot0 with idx4Pending := [(3, List.replicate 16 7)], tensors := [(9, idxTensor)] }
/-- TABLE_WRITE at once and deferred; DESC_INVALIDATE publishes, has nothing to publish, or waits (R233, R234). -/
theorem test_table_write : Turn (having live [tableCmd 0]) ref7 0x14 (tableCmd 0) ∧ fieldAt (tableCmd 0).params 6 2 ≠ 0 ∧
    mget plot0.idx4Pending 3 = none ∧
    gives (.tableWrite ref7) (having live [tableCmd 0]) (fun t =>
      (mget t.plots 0).map (fun p => ((p.table 3)[1]?, (p.table 3)[0]?)) == some (some 0x3C00, some 0)) = true ∧
    gives (.tableWrite ref7) (having live [tableCmd 1]) (fun t =>
      (mget t.plots 0).map (fun p => (p.idx4, (mget p.idx4Pending 3).isSome)) == some ([], true)) = true := by
  unfold Turn
  decide +kernel
def matCmd : Cmd := early 0x40 0 (zeros 8 ++ toLe 4 16 ++ zeros 4 ++ (zeros 2 ++ toLe 2 0xFFFF ++ zeros 8 ++ toLe 4 9))
theorem test_desc_invalidate : Turn (having (inPlot0 live pendPlot) [invCmd]) ref7 0x15 invCmd ∧
    gives (.descInvalidate ref7) (having (inPlot0 live pendPlot) [invCmd]) (fun t =>
      (mget t.plots 0).map (fun p => ((p.table 3)[1]?, p.idx4Pending)) == some (some 7, [])) = true ∧
    ends (.descInvalidate ref7) (having live [invCmd]) .ok = true ∧
    Turn (unordered (having (inPlot0 live pendPlot) [matCmd, invCmd])) ref7 0x15 invCmd ∧
    refsTable pendPlot invCmd matCmd = true ∧
    gives (.descInvalidate ref7) (unordered (having (inPlot0 live pendPlot) [matCmd, invCmd])) (fun t =>
      t.cmds.length == 2) = true := by
  unfold Turn
  decide +kernel

/-! ## Plans and streams (files 13 and 14) -/

/-- A plan image of one part with one step: a barrier, or with ntags = 1 a vector step that acquires slot 0 full (R300, R301). -/
def planImg (kind ntags x : Nat) : List Byte :=
  zeros 6 ++ toLe 1 kind ++ zeros 1 ++ toLe 2 1 ++ zeros 6 ++ toLe 4 x ++ toLe 4 x ++ zeros 16 ++ toLe 8 64 ++ zeros 16 ++
  zeros 6 ++ toLe 2 1 ++ zeros 32 ++ toLe 8 128 ++ zeros 16 ++
  [if ntags = 0 then 0x80 else 0x41, 0, 0, 0] ++ toLe 1 ntags ++ zeros 11 ++ zeros 4 ++ toLe 2 0 ++ toLe 2 1
/-- A plan of a part with one barrier, which declares the tensor 9 as read (R300). -/
def declImg : List Byte :=
  zeros 6 ++ toLe 1 0 ++ zeros 1 ++ toLe 2 1 ++ zeros 2 ++ toLe 2 1 ++ zeros 2 ++ zeros 8 ++ toLe 8 192 ++ zeros 8 ++ toLe 8 64 ++
  zeros 16 ++ zeros 6 ++ toLe 2 1 ++ zeros 32 ++ toLe 8 128 ++ zeros 16 ++ [0x80] ++ zeros 19 ++ toLe 2 0 ++ toLe 2 1 ++ zeros 40 ++
  (toLe 4 9 ++ [2, 0] ++ toLe 2 0xFFFF ++ toLe 8 32 ++ zeros 16)
def planAt (kind ntags x : Nat) : Plan :=
  { img := planImg kind ntags x, extra := [], tables := [], pending := [], reserved := [], pages := 1, bad := [] }
def planned (kind ntags x : Nat) : Plot := { plot0 with plans := [(9, planAt kind ntags x)] }

def loadCmd : Cmd := cmdOf 0x20 (zeros 16) (planImg 0 0 0)
def unloadCmd : Cmd := cmdOf 0x21 [] []
def runCmd (n : Nat) : Cmd := cmdOf 0x22 (toLe 4 n) []
/-- A plan of a part with one barrier, whose footprint is slot 3 (R200, R300). -/
def footPlan : Plan :=
  { planAt 0 0 0 with
    img := zeros 6 ++ toLe 1 0 ++ zeros 1 ++ toLe 2 1 ++ zeros 6 ++ zeros 8 ++ zeros 16 ++ toLe 8 64 ++ zeros 16 ++
      toLe 2 1 ++ zeros 4 ++ toLe 2 1 ++ zeros 8 ++ toLe 8 152 ++ zeros 16 ++ toLe 8 128 ++ zeros 16 ++ [0x80] ++ zeros 19 ++
      toLe 2 0 ++ toLe 2 1 ++ toLe 2 3 ++ toLe 2 1 }
def footed : State := unordered (having (inPlot0 warm { plot0 with plans := [(9, footPlan)] }) [early 0x22 9 (toLe 4 1), runCmd 1])
/-- A run waits behind an earlier run of its UNORDERED queue on the same slots (R200). -/
theorem test_plan_run_waits : Turn footed ref7 0x22 (runCmd 1) ∧ feetWait footed { plot0 with plans := [(9, footPlan)] } (runCmd 1) = true ∧
    placeParts footed { plot0 with plans := [(9, footPlan)] } footPlan ≠ none ∧
    tableBlocked footed { plot0 with plans := [(9, footPlan)] } (runCmd 1) = false ∧
    gives (.planRun ref7) footed (fun t => t.cmds.length == 2) = true := by
  unfold Turn
  decide +kernel

def boundStream : Stream :=
  { paused := false, plan := 9, img := [], bad := [], res := .nonresident, stamp := 0, wanted := none }
/-- A tensor that a loaded plan declares is not freed (R230, R295). -/
def declaring : Plot := { plot0 with tensors := [(9, blob32)], plans := [(8, { planAt 0 0 0 with img := declImg })] }
theorem test_tensor_free_declared : Turn (having (inPlot0 live declaring) [freeCmd]) ref7 0x12 freeCmd ∧
    nameFree (having (inPlot0 live declaring) [freeCmd]) freeCmd = true ∧ planDeclares declaring 9 = true ∧
    ends (.tensorFree ref7) (having (inPlot0 live declaring) [freeCmd]) .badParam = true := by
  unfold Turn
  decide +kernel
/-- PLAN_LOAD makes the plan; PLAN_UNLOAD waits for a run, is BAD_PARAM while a stream is bound, and releases (R299, R303). -/
theorem test_plan_load : Turn (having live [loadCmd]) ref7 0x20 loadCmd ∧ InPlot (having live [loadCmd]) loadCmd 0 plot0 ∧
    gives (.planLoad ref7) (having live [loadCmd]) (fun t =>
      ((mget t.plots 0).bind fun p => (mget p.plans 9).map (·.img)) == some (planImg 0 0 0)) = true := by
  unfold Turn InPlot
  decide +kernel
theorem test_plan_unload : Turn (having (inPlot0 live (planned 0 0 0)) [unloadCmd]) ref7 0x21 unloadCmd ∧
    nameFree (having (inPlot0 live (planned 0 0 0)) [unloadCmd]) unloadCmd = true ∧
    mget (planned 0 0 0).plans 9 = some (planAt 0 0 0) ∧
    gives (.planUnload ref7) (having (inPlot0 live (planned 0 0 0)) [unloadCmd]) (fun t =>
      (mget t.plots 0).map (·.plans) == some []) = true ∧
    ends (.planUnload ref7) (having (inPlot0 live { planned 0 0 0 with streams := [(0, boundStream)] }) [unloadCmd])
      .badParam = true ∧
    Turn (unordered (having (inPlot0 live (planned 0 0 0)) [early 0x22 9 [], unloadCmd])) ref7 0x21 unloadCmd ∧
    nameFree (unordered (having (inPlot0 live (planned 0 0 0)) [early 0x22 9 [], unloadCmd])) unloadCmd = false := by
  unfold Turn
  decide +kernel

def ran (x : RunCtx) (n : Nat) (d : Cmd) : Option RunErr :=
  (runPasses x (kindBytes x.plan.img 0) (transientBytes x.plan) n d.payload
    ⟨startParts (prefetchFirst (having warm [d]) x (transientImages x.plan ((d.payload.drop (kindBytes x.plan.img 0)).take
      (transientBytes x.plan)))) x, []⟩ ⟨[], []⟩).2.2
/-- PLAN_RUN: no pass, a pass that runs, one whose acquire is never met, too few engines, and an earlier invalidation (R126,
R199, R234, R286). -/
theorem test_plan_run : Turn (having (inPlot0 warm (planned 0 0 0)) [runCmd 1]) ref7 0x22 (runCmd 1) ∧
    tableBlocked (having (inPlot0 warm (planned 0 0 0)) [runCmd 1]) (planned 0 0 0) (runCmd 1) = false ∧
    placeParts (having (inPlot0 warm (planned 0 0 0)) [runCmd 1]) (planned 0 0 0) (planAt 0 0 0) = some [0] ∧
    engineReady (having (inPlot0 warm (planned 0 0 0)) [runCmd 1]) 0 = true ∧
    feetWait (having (inPlot0 warm (planned 0 0 0)) [runCmd 1]) (planned 0 0 0) (runCmd 1) = false ∧
    (((having (inPlot0 warm (planned 0 0 0)) [runCmd 1]).eng 0).slice = none) ∧
    ran (runCtx (planned 0 0 0) (planAt 0 0 0) (runCmd 1) [0] Head.none) 1 (runCmd 1) = none ∧
    ends (.planRun ref7) (having (inPlot0 warm (planned 0 0 0)) [runCmd 1]) .ok = true ∧
    ends (.planRun ref7) (having (inPlot0 warm (planned 0 0 0)) [runCmd 0]) .ok = true := by
  unfold Turn
  decide +kernel
theorem test_plan_run_fails : ran (runCtx (planned 0 1 0) (planAt 0 1 0) (runCmd 1) [0] Head.none) 1 (runCmd 1) = some (.timeout 0) ∧
    ends (.planRun ref7) (having (inPlot0 warm (planned 0 1 0)) [runCmd 1]) .slotTimeout = true ∧
    placeParts (having (inPlot0 live { planned 0 0 0 with engmask := 0 }) [runCmd 1]) { planned 0 0 0 with engmask := 0 }
      (planAt 0 0 0) = none ∧
    ends (.planRun ref7) (having (inPlot0 live { planned 0 0 0 with engmask := 0 }) [runCmd 1]) .datapathFault = true ∧
    tableBlocked (unordered (having (inPlot0 warm (planned 0 0 0)) [early 0x15 9 [1], runCmd 1])) (planned 0 0 0) (runCmd 1) = true ∧
    Turn (unordered (having (inPlot0 warm (planned 0 0 0)) [early 0x15 9 [1], runCmd 1])) ref7 0x22 (runCmd 1) := by
  unfold Turn
  decide +kernel

/-- A stream of a plan with one byte a position, and its image with chunks of two positions (R123, R332). -/
def head2 : Head := ⟨2, 2, false, false, false, 0, 0, 0, 0, 0⟩
def img2 : List Byte := freshImage head2 (planImg 1 0 1)
def stream2 : Stream := { boundStream with img := img2 }
def streaming (x : Stream) : State := inPlot0 warm { planned 1 0 1 with streams := [(0, x)] }
def openCmd : Cmd := cmdOf 0x30 (toLe 2 2 ++ [2, 0, 0, 0]) []
/-- STREAM_OPEN of a CLOSED stream, and of an open one (R305, R321). -/
theorem test_stream_open : Turn (having (inPlot0 live (planned 1 0 1)) [openCmd]) ref7 0x30 openCmd ∧
    streamTurn (having (inPlot0 live (planned 1 0 1)) [openCmd]) openCmd = true ∧
    planKind (planImg 1 0 1) = 1 ∧ planClash (planAt 1 0 1) (openHead openCmd) 32 34 = [] ∧
    gives (.streamOpen ref7) (having (inPlot0 live (planned 1 0 1)) [openCmd]) (fun t =>
      ((mget t.plots 0).bind fun p => (mget p.streams 0).map (·.img)) == some img2) = true ∧
    ends (.streamOpen ref7) (having (streaming stream2) [openCmd]) .badParam = true ∧
    gives (.streamOpen ref7) (having (streaming { stream2 with res := .movingOut }) [openCmd]) (fun t => t.cmds.length == 1) = true := by
  unfold Turn
  decide +kernel

def pauseCmd : Cmd := cmdOf 0x33 [] []
def resumeCmd (prefetch : Nat) : Cmd := cmdOf 0x34 (toLe 1 prefetch) []
def pausedOf (t : State) : Option (Bool × Residency) :=
  ((mget t.plots 0).bind fun p => mget p.streams 0).map fun x => (x.paused, x.res)
def sought : Stream := { stream2 with paused := true, wanted := some 5 }
def shifting : State := streaming { stream2 with res := .movingIn }
/-- While the image moves, feeds and flushes wait, and so do the commands that pause and resume (R214, R325). -/
theorem test_stream_moves : Turn (having shifting [cmdOf 0x31 (zeros 4) []]) ref7 0x31 (cmdOf 0x31 (zeros 4) []) ∧
    Turn (having shifting [cmdOf 0x32 [] []]) ref7 0x32 (cmdOf 0x32 [] []) ∧
    gives (.streamFeed ref7) (having shifting [cmdOf 0x31 (zeros 4) []]) (fun t => t.cmds.length == 1) = true ∧
    gives (.streamFlush ref7) (having shifting [cmdOf 0x32 [] []]) (fun t => t.cmds.length == 1) = true := by
  unfold Turn
  decide +kernel
/-- STREAM_PAUSE of a resident and of a moving stream, and feeds of a paused one (R307, R325). -/
theorem test_stream_pause : Turn (having (streaming { stream2 with res := .resident }) [pauseCmd]) ref7 0x33 pauseCmd ∧
    headDamaged stream2 = false ∧
    gives (.streamPause ref7) (having (streaming { stream2 with res := .resident }) [pauseCmd])
      (fun t => pausedOf t == some (true, .movingOut)) = true ∧
    gives (.streamPause ref7) (having (streaming { stream2 with res := .movingIn }) [pauseCmd]) (fun t => t.cmds.length == 1) = true ∧
    ends (.streamPause ref7) (having (streaming { stream2 with paused := true }) [pauseCmd]) .ok = true ∧
    ends (.streamFeed ref7) (having (streaming { stream2 with paused := true }) [cmdOf 0x31 (zeros 4) []]) .badParam = true ∧
    ends (.streamFlush ref7) (having (streaming { stream2 with paused := true }) [cmdOf 0x32 [] []]) .badParam = true := by
  unfold Turn
  decide +kernel
/-- STREAM_RESUME without and with PREFETCH (R326). -/
theorem test_stream_resume : Turn (having (streaming { stream2 with paused := true }) [resumeCmd 0]) ref7 0x34 (resumeCmd 0) ∧
    gives (.streamResume ref7) (having (streaming { stream2 with paused := true }) [resumeCmd 0])
      (fun t => pausedOf t == some (false, .nonresident)) = true ∧
    ends (.streamResume ref7) (having (streaming stream2) [resumeCmd 1]) .ok = true ∧
    slotsFit (having (streaming sought) [resumeCmd 1]) 0 { planned 1 0 1 with streams := [(0, sought)] } = true ∧
    asked (having (streaming sought) [resumeCmd 1]) sought = true ∧ headDamaged sought = false ∧
    gives (.streamResume ref7) (having (streaming sought) [resumeCmd 1])
      (fun t => pausedOf t == some (true, .movingIn)) = true ∧
    gives (.streamResume ref7) (having (streaming { stream2 with paused := true, res := .movingOut }) [resumeCmd 1])
      (fun t => t.cmds.length == 1) = true := by
  unfold Turn
  decide +kernel

def closeCmd (discard : Nat) : Cmd := cmdOf 0x35 (toLe 1 discard) []
def pend1 : Stream := { stream2 with img := headBytes { head2 with pend := 1 } ++ img2.drop 4096 }
/-- STREAM_CLOSE: released; while a move runs it waits; pending positions without DISCARD are BAD_PARAM (R308, R327). -/
theorem test_stream_close : Turn (having (streaming stream2) [closeCmd 0]) ref7 0x35 (closeCmd 0) ∧ (headOf pend1.img).pend = 1 ∧
    gives (.streamClose ref7) (having (streaming stream2) [closeCmd 0]) (fun t => (mget t.plots 0).map (·.streams) == some []) = true ∧
    ends (.streamClose ref7) (having (streaming pend1) [closeCmd 0]) .badParam = true ∧
    ends (.streamClose ref7) (having (streaming pend1) [closeCmd 1]) .ok = true ∧
    gives (.streamClose ref7) (having (streaming { stream2 with res := .movingOut }) [closeCmd 0])
      (fun t => t.cmds.length == 1) = true := by
  unfold Turn
  decide +kernel

def feedCmd (n : Nat) : Cmd := cmdOf 0x31 (toLe 4 n) (List.replicate n 7)
def flushCmd : Cmd := cmdOf 0x32 [] []
def inRes (x : Stream) : Stream := { x with res := .resident }
def fed : State := having (streaming (inRes stream2)) [feedCmd 3]
def fedPlot : Plot := { planned 1 0 1 with streams := [(0, inRes stream2)] }
/-- A feed of three positions runs one chunk of two and keeps one pending; a flush of nothing ends OK (R113, R116, R306). -/
theorem test_stream_feed : Turn fed ref7 0x31 (feedCmd 3) ∧ streamTurn fed (feedCmd 3) = true ∧ slotsFit fed 0 fedPlot = true ∧
    InPlot fed (feedCmd 3) 0 fedPlot ∧ placeParts fed fedPlot (planAt 1 0 1) = some [0] ∧ feetWait fed fedPlot (feedCmd 3) = false ∧
    tableBlocked fed fedPlot (feedCmd 3) = false ∧ transientBytes (planAt 1 0 1) = 0 ∧
    planX (planImg 1 0 1) = 1 ∧ transientOk (planAt 1 0 1) [] = true ∧ engineReady fed 0 = true ∧
    gives (.streamFeed ref7) fed (fun t => ((mget t.plots 0).bind fun p => mget p.streams 0).map
      (fun x => ((headOf x.img).pend, (headOf x.img).pos, byteAt x.img 4096)) == some (1, 2, 7)) = true := by
  unfold Turn InPlot
  decide +kernel
theorem test_stream_flush : Turn (having (streaming (inRes stream2)) [flushCmd]) ref7 0x32 flushCmd ∧
    ends (.streamFlush ref7) (having (streaming (inRes stream2)) [flushCmd]) .ok = true ∧
    gives (.streamFlush ref7) (having (streaming (inRes pend1)) [flushCmd]) (fun t =>
      ((mget t.plots 0).bind fun p => mget p.streams 0).map (fun x => ((headOf x.img).pend, (headOf x.img).pos)) ==
        some (0, 1)) = true := by
  unfold Turn
  decide +kernel
def stuckPlot : Plot := { planned 1 1 1 with streams := [(0, inRes stream2)] }
/-- A chunk step whose acquire is never met ends the feed SLOT_TIMEOUT (R199). -/
theorem test_stream_feed_fails : ends (.streamFeed ref7) (having (inPlot0 warm stuckPlot) [feedCmd 3]) .slotTimeout = true := by
  decide +kernel

/-- The move of an image ends in place, or after four failed copies of a block where it was (R217, R358). -/
theorem test_move_commit : (streaming { stream2 with res := .movingIn }).gatehouseUp = true ∧
    gives (.moveCommit 0 0 true) (streaming { stream2 with res := .movingIn }) (fun t => pausedOf t == some (false, .resident)) = true ∧
    gives (.moveCommit 0 0 true) (streaming { stream2 with res := .movingOut }) (fun t => pausedOf t == some (false, .nonresident)) = true ∧
    moveUser (having (streaming { stream2 with res := .movingIn }) [feedCmd 3]) 0 0 false = some (feedCmd 3) ∧
    ends (.moveCommit 0 0 false) (having (streaming { stream2 with res := .movingIn }) [feedCmd 3]) .datapathFault = true ∧
    givesState (.moveCommit 0 0 true) (streaming stream2) (streaming stream2) = true := by decide +kernel

def key0 : List Byte := List.replicate 32 0x11
def exportCmd : Cmd := { cmdOf 0x36 [] [] with pages := 1 }
def keyed (k : Option (List Byte)) : Plot := { planned 1 0 0 with key := k, streams := [(0, { stream2 with img := headBytes head2 })] }
def exporting (k : Option (List Byte)) : State := having (inPlot0 warm (keyed k)) [exportCmd]
def reserve (s : State) (limit left : Nat) : State := { s with stores := { s.stores with reservation := nvsRec limitBytes limit 0, writesLeft := left } }
/-- An export without a key, one that waits for its reservation, one with no write left, and what a sealing one needs
(R328, R331, R434, R435). -/
theorem test_export : Turn (exporting none) ref7 0x36 exportCmd ∧ streamTurn (exporting none) exportCmd = true ∧
    mget (keyed none).plans 9 = some (planAt 1 0 0) ∧ pagesFor ((headBytes head2).length + 80) = 1 ∧
    (exporting (some key0)).expCtr + 1 ≤ (reserve (exporting (some key0)) 1 9).stores.limit ∧
    ends (.streamExport ref7) (exporting none) .authFail = true ∧
    ends (.streamExport ref7) (reserve (exporting (some key0)) 0 0) .authFail = true ∧
    gives (.streamExport ref7) (reserve (exporting (some key0)) 0 1) (fun t => t.nvsWait == some 5) = true := by
  unfold Turn
  decide +kernel
theorem test_nvs : gives (.nvsReservationWrite true) { reserve (exporting none) 0 9 with nvsWait := some 5 } (fun t =>
      t.stores.limit == 4096 && t.stores.writesLeft == 8 && t.nvsWait == none) = true ∧
    { exporting none with nvsWait := some 5 }.cmds.find? (fun e => e.acc == 5) = some exportCmd ∧
    ends (.nvsReservationWrite false) { exporting none with nvsWait := some 5 } .controlFault = true := by decide +kernel

def importCmd : Cmd := cmdOf 0x37 (toLe 4 8) []
def image0 : List Byte := headBytes head2
def blobSeal : List Byte × List Byte :=
  gcmSeal (blobKey key0 0 1) (blobIv 1) (blobHeader (planImg 1 0 0) 1 0 4096) image0
def blob0 : List Byte := blobHeader (planImg 1 0 0) 1 0 4096 ++ blobSeal.1 ++ blobSeal.2
def importPlot : Plot :=
  { plot0 with key := some key0, plans := [(8, planAt 1 0 0)], tensors := [(9, rawTensor 0 blob0 5)] }
def importing : State := having (inPlot0 warm importPlot) [importCmd]
/-- A blob sealed with the key of the plot opens to its image (R333 to R335). -/
theorem test_import : Turn importing ref7 0x37 importCmd ∧ streamTurn importing importCmd = true ∧ importCmd.pages ≠ 0 ∧
    (mget importPlot.streams importCmd.stream).isNone ∧ mget importPlot.plans (fieldAt importCmd.params 0 4) = some (planAt 1 0 0) ∧
    (rawTensor 0 blob0 5).bad = [] ∧ fieldAt blob0 24 8 = 4096 ∧ fieldAt blob0 8 8 = 1 ∧ fieldAt blob0 16 8 = 0 ∧
    importHeadOk (planAt 1 0 0) image0 = true := by
  unfold Turn
  decide +kernel
theorem test_import_opens :
    gcmOpen (blobKey key0 0 1) (blobIv 1) (blob0.take 64) (slice blob0 64 4096) (slice blob0 (64 + 4096) 16) = some image0 := by
  have hk : keysOk (aesRoundKeys (blobKey key0 0 1)) = true := by decide +kernel
  have hi : image0.length = 16 * 256 := by decide +kernel
  have hh : (blobHeader (planImg 1 0 0) 1 0 4096).length = 64 := by decide +kernel
  obtain ⟨ho, hc, ht⟩ := gcm_round_trip (blobKey key0 0 1) (blobIv 1) (blobHeader (planImg 1 0 0) 1 0 4096) image0 256 hk hi
  have ht : blobSeal.2.length = 16 := ht
  have h1 : blob0.take 64 = blobHeader (planImg 1 0 0) 1 0 4096 := by
    rw [blob0, List.append_assoc, List.take_left' hh]
  have h2 : slice blob0 64 4096 = blobSeal.1 := by
    rw [slice, blob0, List.append_assoc, List.drop_left' hh, List.take_left' (by exact hc), show blobSeal.1.length = 4096 from hc]
    simp
  have h3 : slice blob0 (64 + 4096) 16 = blobSeal.2 := by
    rw [slice, blob0, List.drop_left' (by rw [List.length_append, hh]; exact congrArg (64 + ·) hc),
      List.take_of_length_le (Nat.le_of_eq ht), ht]
    simp
  rw [h1, h2, h3]
  exact ho
def tiny : Tensor := rawTensor 0 (blobHeader (planImg 1 0 0) 1 0 0 ++ zeros 16) 5
/-- A blob whose tag is not the seal's, and a stream that is open (R335). -/
theorem test_import_refused :
    gcmOpen (blobKey key0 0 1) (blobIv 1) (tiny.img.take 64) (slice tiny.img 64 0) (slice tiny.img 64 16) = none ∧
    ends (.streamImport ref7) (having (inPlot0 warm { importPlot with tensors := [(9, tiny)] }) [importCmd]) .authFail = true ∧
    ends (.streamImport ref7) (having (inPlot0 warm { importPlot with streams := [(0, stream2)] }) [importCmd]) .badParam = true ∧
    gives (.streamImport ref7) (having (inPlot0 warm { importPlot with streams := [(0, { stream2 with res := .movingOut })] }) [importCmd])
      (fun t => t.cmds.length == 1) = true := by
  decide +kernel

/-! ## Direct operations (files 09, 11 and 13) -/

/-- A descriptor of a row of `n` elements with unit stride (R132). -/
def rowDesc (base fmt n : Nat) : List Byte :=
  toLe 4 base ++ toLe 4 fmt ++ toLe 2 n ++ toLe 2 1 ++ toLe 2 1 ++ toLe 2 1 ++ toLe 4 1 ++ zeros 28
/-- An operation in place on engine 0 (R312). -/
def direct (op : Nat) (sec : List Byte) (ds : List (List Byte)) : Cmd :=
  cmdOf op ([0, 1] ++ toLe 2 ds.length ++ zeros 4 ++ toLe 4 sec.length ++ zeros 4 ++ sec ++ ds.flatten) []
/-- Engine 0 with bytes in its scratchpad. -/
def loaded (bs : List (Nat × Byte)) : State :=
  withEng warm 0 { engOn with spad := ({ Spad.clear with mem := bs.foldl (fun m b => m.write b.1 b.2) [] } : Spad) }
def doing (s : State) (d : Cmd) : State := having s [d]
/-- The little-endian word that an operation leaves at an address of engine 0's scratchpad. -/
def leaves (c : Instr) (s : State) (a w : Nat) : Bool :=
  gives c s fun t => t.cmds == [] && leNat ((t.eng 0).spad.mem.readBytes a 4) == w

def convSec : List Byte := [1, 0, 0, 0] ++ toLe 2 1 ++ zeros 8 ++ [1, 0]
def convCmd (n : Nat) : Cmd := direct 0x45 convSec [rowDesc 0 10 n, rowDesc 0x1000 0 n]
/-- INT8 3 converts to FP32 3.0; with no element nothing is done (R55, R279). -/
theorem test_convert : Turn (doing (loaded [(0, 3)]) (convCmd 1)) ref7 0x45 (convCmd 1) ∧
    InPlot (doing (loaded [(0, 3)]) (convCmd 1)) (convCmd 1) 0 plot0 ∧ directNoop 0x45 (convCmd 1).params = false ∧
    tableBlocked (doing (loaded [(0, 3)]) (convCmd 1)) plot0 (convCmd 1) = false ∧
    dirEngine (doing (loaded [(0, 3)]) (convCmd 1)) plot0 (convCmd 1) = some 0 ∧
    engineReady (doing (loaded [(0, 3)]) (convCmd 1)) 0 = true ∧
    leaves (.opConvert ref7) (doing (loaded [(0, 3)]) (convCmd 1)) 0x1000 0x40400000 = true ∧
    directNoop 0x45 (convCmd 0).params = true ∧ ends (.opConvert ref7) (doing warm (convCmd 0)) .ok = true := by
  unfold Turn InPlot
  decide +kernel
def failed0 : State := withEng warm 0 { engOn with failed := true }
def poison0 : State := withEng warm 0 { engOn with spad := ({ Spad.clear with gran := [(0, .poisoned)] } : Spad) }
def footedOp : State := unordered (having (loaded [(0, 3)]) [{ convCmd 1 with acc := 4, seqs := [6] }, convCmd 1])
/-- An operation waits behind an earlier one of its UNORDERED queue on the same slots; alone it does not (R200). -/
theorem test_convert_waits : Turn footedOp ref7 0x45 (convCmd 1) ∧ feetWait footedOp plot0 (convCmd 1) = true ∧
    feetWait (doing (loaded [(0, 3)]) (convCmd 1)) plot0 (convCmd 1) = false ∧
    ((doing (loaded [(0, 3)]) (convCmd 1)).eng 0).slice = none ∧
    gives (.opConvert ref7) footedOp (fun t => t.cmds.length == 2) = true := by
  unfold Turn
  decide +kernel
def boundConv : Cmd :=
  cmdOf 0x45 ([0, 1] ++ toLe 2 2 ++ toLe 2 1 ++ zeros 2 ++ toLe 4 convSec.length ++ zeros 4 ++ convSec ++ rowDesc 0 10 1 ++
    rowDesc 0x1000 0 1 ++ (toLe 2 0 ++ [0, 1] ++ toLe 4 9 ++ toLe 8 0)) []
def hurt32 : Tensor := { blob32 with bad := [(0, .uncorrectable)] }
def fillPlot : Plot := { plot0 with tensors := [(9, hurt32)] }
/-- An input bound to a damaged tensor (R212). -/
theorem test_convert_damaged : Turn (doing (holding hurt32) boundConv) ref7 0x45 boundConv ∧
    (match dirFill fillPlot { boundConv with placed := [0] } (dirTable boundConv.params) (dirBinds boundConv.params)
      (dirStart (doing (holding hurt32) boundConv) fillPlot { boundConv with placed := [0] } 0) with
      | .error _ => true
      | .ok _ => false) = true ∧
    ends (.opConvert ref7) (doing (holding hurt32) boundConv) .uncorrectableData = true := by
  unfold Turn
  decide +kernel
/-- A FAILED engine, and a poisoned source (R97, R212). -/
theorem test_convert_fails : dirEngine (doing failed0 (convCmd 1)) plot0 (convCmd 1) = none ∧
    ends (.opConvert ref7) (doing failed0 (convCmd 1)) .datapathFault = true ∧
    ends (.opConvert ref7) (doing poison0 (convCmd 1)) .uncorrectableData = true := by decide +kernel
def weightMat : Cmd :=
  direct 0x40 (zeros 2 ++ toLe 2 0xFFFF ++ zeros 8 ++ toLe 4 9 ++ zeros 32) [rowDesc 0 10 1]
def blockedMat : State := unordered (having (inPlot0 warm { plot0 with tensors := [(9, idxTensor)] }) [early 0x15 0 (toLe 2 0 ++ toLe 2 3), weightMat])
/-- An earlier DESC_INVALIDATE of the table that an OP_MATMUL's weight names (R234). -/
theorem test_matmul_waits : Turn blockedMat ref7 0x40 weightMat ∧ directNoop 0x40 weightMat.params = false ∧
    tableBlocked blockedMat { plot0 with tensors := [(9, idxTensor)] } weightMat = true ∧
    gives (.opMatmul ref7) blockedMat (fun t => t.cmds.length == 2) = true := by
  unfold Turn
  decide +kernel

def matSec : List Byte := toLe 2 0 ++ toLe 2 1 ++ toLe 2 2 ++ toLe 2 0xFFFF ++ zeros 40
/-- 1.0 times 2.0 in FP16 gives FP32 2.0 (R66, R89). -/
theorem test_matmul : leaves (.opMatmul ref7) (doing (loaded [(1, 0x3C), (0x101, 0x40)])
    (direct 0x40 matSec [rowDesc 0 1 1, rowDesc 0x100 1 1, rowDesc 0x1000 0 1])) 0x1000 0x40000000 = true := by decide +kernel
/-- INT8 3 + -2 gives FP32 1.0 (R143). -/
theorem test_vector : leaves (.opVector ref7) (doing (loaded [(0, 3), (0x100, 0xFE)])
    (direct 0x41 ([2, 0, 0, 0] ++ toLe 2 2 ++ toLe 2 0 ++ toLe 2 1 ++ zeros 4 ++ [5, 0])
      [rowDesc 0 10 1, rowDesc 0x100 10 1, rowDesc 0x1000 0 1])) 0x1000 0x3F800000 = true := by decide +kernel
/-- 0.5 * 2.0 + 1.0 = 2.0 with BF16 coefficients and an FP32 state (R108, R109). -/
theorem test_scan : leaves (.opScan ref7) (doing (loaded [(1, 0x3F), (0x101, 0x3F), (0x100, 0x80), (0x203, 0x40)])
    (direct 0x42 (toLe 2 1 ++ toLe 2 1 ++ [2, 0, 0, 0] ++ toLe 2 0 ++ toLe 2 1 ++ toLe 2 2 ++ toLe 2 0xFFFF ++ toLe 2 3 ++ zeros 14)
      [rowDesc 0 2 1, rowDesc 0x100 2 1, rowDesc 0x200 0 1, rowDesc 0x1000 0 1])) 0x1000 0x40000000 = true := by decide +kernel
def topkCmd : Cmd := direct 0x43 ([1, 0, 0, 0] ++ toLe 2 0 ++ toLe 2 0xFFFF ++ toLe 2 1 ++ toLe 2 2 ++ toLe 2 0xFFFF ++ zeros 18)
  [rowDesc 0 10 2, rowDesc 0x1000 10 1, rowDesc 0x2000 9 1]
/-- The larger of 3 and 5, at position 1 (R172). -/
theorem test_select : leaves (.opSelect ref7) (doing (loaded [(0, 3), (1, 5)]) topkCmd) 0x1000 5 = true ∧
    leaves (.opSelect ref7) (doing (loaded [(0, 3), (1, 5)]) topkCmd) 0x2000 1 = true := by decide +kernel
/-- RMS normalisation of 1.0 with EPS 0 is 1.0 (R155 to R157). -/
theorem test_rmsnorm : leaves (.opRmsnorm ref7) (doing (loaded [(2, 0x80), (3, 0x3F)])
    (direct 0x46 (toLe 2 0 ++ toLe 2 1 ++ toLe 2 0xFFFF ++ zeros 10) [rowDesc 0 0 1, rowDesc 0x1000 0 1])) 0x1000 0x3F800000 = true := by
  decide +kernel

def gatherCmd : Cmd := direct 0x44 (toLe 2 0 ++ toLe 2 1 ++ toLe 2 2 ++ zeros 26)
  [toLe 4 0 ++ toLe 4 10 ++ toLe 2 1 ++ toLe 2 2 ++ toLe 2 1 ++ toLe 2 1 ++ toLe 4 1 ++ toLe 4 1 ++ zeros 24,
    rowDesc 0x100 9 1, rowDesc 0x1000 10 1]
def stopCmd : Cmd := direct 0x44 (toLe 2 0 ++ toLe 2 1 ++ toLe 2 2 ++ [1] ++ zeros 25)
  [toLe 4 0 ++ toLe 4 10 ++ toLe 2 1 ++ toLe 2 2 ++ toLe 2 1 ++ toLe 2 1 ++ toLe 4 1 ++ toLe 4 1 ++ zeros 24,
    rowDesc 0x100 9 1, rowDesc 0x1000 10 1]
/-- In STOP mode a row index beyond the source faults (R314). -/
theorem test_gather_fault : ends (.opGather ref7) (doing (loaded [(0, 3), (1, 5), (0x100, 2)]) stopCmd) .gatherFault = true := by
  decide +kernel
/-- Row 1 of two rows of one INT8 element (R314). -/
theorem test_gather : leaves (.opGather ref7) (doing (loaded [(0, 3), (1, 5), (0x100, 1)]) gatherCmd) 0x1000 5 = true := by
  decide +kernel

/-! ## Queue, key and plot commands (files 12 to 15) -/

def createCmd (q : Nat) : Cmd := cmdOf 0x60 (toLe 2 q ++ zeros 6 ++ toLe 8 0x10000 ++ toLe 4 4096 ++ zeros 20 ++ toLe 8 77) []
/-- QUEUE_CREATE of the last queue of the allotment, of one beyond it, and of one that exists (R316). -/
theorem test_queue_create : Turn (having live [createCmd 3]) ref7 0x60 (createCmd 3) ∧ (having live [createCmd 3]).allot pf = 4 ∧
    queuesInUse (having live [createCmd 3]) = 2 ∧ mget ((having live [createCmd 3]).fn pf).queues 3 = none ∧
    gives (.queueCreate ref7) (having live [createCmd 3]) (fun t =>
      (t.queue (.ring pf 3)).map (fun x => (x.e, x.qstate, x.sqSize)) == some (77, .active, 4096)) = true ∧
    ends (.queueCreate ref7) (having live [createCmd 4]) .badParam = true ∧
    ends (.queueCreate ref7) (having live [createCmd 1]) .badParam = true := by
  unfold Turn
  decide +kernel

def deleteCmd (q : Nat) : Cmd := cmdOf 0x61 (toLe 2 q) []
def withQ0 (s : State) (x : Queue) : State := s.setQueue (.ring pf 0) x
/-- QUEUE_DELETE of a quiet queue, of one that owes a shadow write, and of none (R317). -/
theorem test_queue_delete : Turn (having live [deleteCmd 0]) ref7 0x61 (deleteCmd 0) ∧
    queueQuiet (beginDelete (having live [deleteCmd 0]) pf 0) (.ring pf 0) = true ∧
    gives (.queueDelete ref7) (having live [deleteCmd 0]) (fun t => t.cmds == [] && t.queue (.ring pf 0) == none) = true ∧
    queueQuiet (beginDelete (withQ0 (having live [deleteCmd 0]) { Queue.blank with owed := true }) pf 0) (.ring pf 0) = false ∧
    queueQuiet (withQ0 (having live [deleteCmd 0]) { Queue.blank with closing := true }) (.ring pf 0) = true ∧
    ends (.queueDelete ref7) (having live [deleteCmd 3]) .badParam = true := by
  unfold Turn
  decide +kernel

def qresCmd (q : Nat) : Cmd := cmdOf 0x62 (toLe 2 q) []
/-- QUEUE_RESUME of a HALTED, an ACTIVE and an absent queue (R274). -/
theorem test_queue_resume : Turn (withQ0 (having live [qresCmd 0]) halted0) ref7 0x62 (qresCmd 0) ∧
    gives (.queueResume ref7) (withQ0 (having live [qresCmd 0]) halted0) (fun t =>
      (t.queue (.ring pf 0)).map (·.qstate) == some .active) = true ∧
    ends (.queueResume ref7) (having live [qresCmd 0]) .badParam = true ∧
    ends (.queueResume ref7) (having live [qresCmd 3]) .badParam = true := by
  unfold Turn
  decide +kernel

/-- A secured record of a session of the PF, with the data of R433 for the packet 7. -/
def sess : Session := ⟨.doe pf, 0x20001, true, key0, zeros 12, 0, 0, 0⟩
def keyData (seq : Nat) : List Byte := toLe 4 0x5445534B ++ toLe 2 1 ++ zeros 2 ++ toLe 8 seq ++ List.replicate 32 0x22
def keyRecord (seq : Nat) : List Byte :=
  let hd := toLe 4 0x20001 ++ toLe 2 66
  let r := gcmSeal key0 (recordNonce (zeros 12) 0) hd (toLe 2 48 ++ keyData seq)
  [1, 0, 2, 0] ++ toLe 4 20 ++ hd ++ r.1 ++ r.2
def keyCmd (b : List Byte) : Cmd := cmdOf 0x63 (toLe 4 0x20001 ++ toLe 4 80) b
def inSession (s : State) : State := { s with sessions := [(0, sess)] }
theorem test_key_set : keySession (inSession live) pf 0x20001 = some (0, sess) ∧ doeHeaderOk (keyRecord 7) = true ∧
    openRecord sess (keyRecord 7) = some (keyData 7) ∧ keyDataOk (keyData 7) 7 = true ∧ keyDataOk (keyData 8) 7 = false ∧
    openRecord sess (keyRecord 8) = some (keyData 8) := by decide +kernel
theorem test_key_set_refused : Turn (having (inSession live) [keyCmd (zeros 80)]) ref7 0x63 (keyCmd (zeros 80)) ∧
    fieldAt (keyCmd (zeros 80)).params 4 4 = (zeros 80).length ∧ keySession live pf 0x20001 = none ∧
    doeHeaderOk ([1, 0, 2, 0] ++ toLe 4 20 ++ zeros 72) = true ∧
    openRecord sess ([1, 0, 2, 0] ++ toLe 4 20 ++ zeros 72) = none ∧
    ends (.keySet ref7) (having live [keyCmd (zeros 80)]) .authFail = true ∧
    ends (.keySet ref7) (having (inSession live) [keyCmd ([1, 0, 2, 0] ++ toLe 4 20 ++ zeros 72)]) .authFail = true := by
  unfold Turn
  decide +kernel

/-- PLOT_CONFIG of plot 1 on engine 2, with no binding. -/
def configCmd (plot mask slots quota : Nat) : Cmd :=
  cmdOf 0x70 (toLe 1 plot ++ toLe 1 mask ++ toLe 2 slots ++ toLe 4 quota ++ zeros 2 ++ toLe 2 16 ++ toLe 2 16 ++ zeros 18) []
theorem test_plot_config : Turn (having live [configCmd 1 4 2 8]) ref7 0x70 (configCmd 1 4 2 8) ∧
    configBad (having live [configCmd 1 4 2 8]) (configCmd 1 4 2 8).params = [] ∧
    configShort (having live [configCmd 1 4 2 8]) (configCmd 1 4 2 8).params = none ∧
    8 ≤ (having live [configCmd 1 4 2 8]).zeroedFree ∧
    gives (.plotConfig ref7) (having live [configCmd 1 4 2 8]) (fun t =>
      (mget t.plots 1).map (fun p => (p.engmask, p.slots, p.quota, p.streamFirst)) == some (4, 2, 8, 16)) = true := by
  unfold Turn
  decide +kernel
/-- A plot that exists, more slots than there are, and pages still being zeroed (R344, R353). -/
theorem test_plot_config_refused : minOff (configBad (having live [configCmd 0 4 2 8]) (configCmd 0 4 2 8).params) = some 32 ∧
    ends (.plotConfig ref7) (having live [configCmd 0 4 2 8]) .badParam = true ∧
    configShort (having live [configCmd 1 4 765 8]) (configCmd 1 4 765 8).params = some 0 ∧
    configShort (having live [configCmd 1 4 764 8]) (configCmd 1 4 764 8).params = none ∧
    ends (.plotConfig ref7) (having live [configCmd 1 4 765 8]) .noSpace = true ∧
    ends (.plotConfig ref7) { having live [configCmd 1 4 2 8] with devZeroing := 73216 - 64 } .pagesScrubbing = true := by
  decide +kernel

def releaseCmd (n : Nat) : Cmd := { cmdOf 0x71 (toLe 1 n) [] with src := .bmc, plot := none }
def refB : CmdRef := ⟨.bmc, 7⟩
def releasing (n : Nat) (ds : List Cmd) : State := { live with cmds := ds ++ [releaseCmd n] }
/-- PLOT_RELEASE of plot 0, drained and not, and of no plot; a zeroed page is free (R351, R353). -/
theorem test_plot_release : Turn (releasing 0 []) refB 0x71 (releaseCmd 0) ∧
    plotDrained (beginRelease (releasing 0 []) 0 5) (releaseCmd 0) 0 plot0 = true ∧
    gives (.plotRelease refB) (releasing 0 []) (fun t => t.plots == []) = true ∧
    plotDrained (beginRelease (releasing 0 [early 1 0 []]) 0 5) (releaseCmd 0) 0 plot0 = false ∧
    gives (.plotRelease refB) (releasing 0 [early 1 0 []]) (fun t => (mget t.plots 0).map (·.releasing) == some (some 5)) = true ∧
    gives (.plotRelease refB) (releasing 5 []) (fun t => t.cmds == [] && t.plots == live.plots) = true := by
  unfold Turn
  decide +kernel
theorem test_zeroing : zeroingRuns live = true ∧
    gives (.pageZeroingDone .device) { live with devZeroing := 3 } (fun t => t.devZeroing == 2) = true ∧
    gives (.pageZeroingDone (.plot 0)) (inPlot0 live { plot0 with zeroing := 1 }) (fun t =>
      (mget t.plots 0).map (·.zeroing) == some 0) = true := by decide +kernel

/-! ## Steps inside an engine (files 04 and 09) -/

/-- A state that exec leaves as it is. -/
def stays (c : Instr) (s : State) : Bool := givesState c s s

def entry0 : PfEntry :=
  { bytes := [1, 2, 3], poison := [], malformed := false, handle := 9, off := 0, reads := [], addr := 0x1000, slotFirst := 1,
    slotCount := 1, issued := false, done := false, freed := false, issueStep := 1, release := 1 }
def flying (n : Nat) : List PfEntry := List.replicate n { entry0 with issued := true, slotFirst := 7 }
def prefetching (sched : List PfEntry) (next step : Nat) : State :=
  withEng warm 0 { engOn with wfu := { Wfu.clear with sched := sched, nextEntry := next, step := step } }
/-- An entry issues at its step with 15 entries outstanding, and waits before its step, at a full buffer, and at 16 (R94, R95). -/
theorem test_prefetch_issue : unitsRun (prefetching [entry0] 0 1) 0 = true ∧ (prefetching [entry0] 0 1).hbmUp = true ∧
    gives (.wfuPrefetchIssue 0) (prefetching [entry0] 0 1) (fun t => (t.eng 0).wfu.nextEntry == 1) = true ∧
    gives (.wfuPrefetchIssue 0) (prefetching (flying 15 ++ [entry0]) 15 1) (fun t => (t.eng 0).wfu.nextEntry == 16) = true ∧
    stays (.wfuPrefetchIssue 0) (prefetching (flying 16 ++ [entry0]) 16 1) = true ∧
    stays (.wfuPrefetchIssue 0) (prefetching [entry0] 0 0) = true ∧
    bufferEmpty { engOn with spad := { Spad.clear with full := [1] } } entry0 = false := by decide +kernel
/-- A completed entry's bytes stand in its buffer, and its slot is full (R93, R193). -/
theorem test_prefetch_done : (Spad.clear.mem).wf = true ∧
    gives (.wfuEntryComplete 0 0) (prefetching [{ entry0 with issued := true }] 1 1) (fun t =>
      (t.eng 0).spad.mem.readBytes 0x1000 3 == [1, 2, 3] && (t.eng 0).spad.tagsAre true 1 1) = true := by decide +kernel

def pass1 : PassDesc :=
  { bank := false, a := rowDesc 0 10 16, b := .spad (rowDesc 0x100 10 16), c := rowDesc 0x1000 9 1, bias := none,
    accumulate := false, reload := none, ovf := false, zmode := false, nt := 0, kfirst := 0, klast := 0, mfirst := 0, mcount := 1,
    fin := .spill 0x2000, full := [], cmd := ref7 }
def passOperands : List (Nat × Byte) := (List.range 16).flatMap fun i => [(i, 1), (0x100 + i, 2)]
/-- The engine with the operands of the pass, as a field changes it, while a PLAN_RUN is in flight. -/
def passing (f : Engine → Engine) : State := doing (withEng (loaded passOperands) 0 (f ((loaded passOperands).eng 0))) (runCmd 1)
def passStall (s : State) (d : PassDesc) : Option (Option Stall) := (passOf plot0 (s.eng 0) d).map fun p => p.stall s (s.eng 0)
def passRuns (s : State) (d : PassDesc) : Option Bool :=
  (passOf plot0 (s.eng 0) d).map fun p => (p.run (scalarsOf (s.eng 0) plot0 (runCmd 1)) (opStart (s.eng 0).spad)).1.isOk
def poisoned1 (x : Engine) : Engine := { x with spad := { x.spad with gran := [(0, .poisoned)] } }
/-- An INT8 pass of 16 products of 1 and 2 into entry 0 of bank 0, which spills 32 at 0x2000 (R87, R88, R90). -/
theorem test_ma_pass : workCmd (passing id) 0 ref7 = some (runCmd 1) ∧ (passing id).holder 0 = some 0 ∧
    mget (passing id).plots 0 = some plot0 ∧ unitsRun (passing id) 0 = true ∧ beyondSpad (passSpans pass1) = none ∧
    passStall (passing id) pass1 = some none ∧ passRuns (passing id) pass1 = some true ∧
    gives (.maPass 0 pass1) (passing id) (fun t => leNat ((t.eng 0).spad.mem.readBytes 0x2000 4) == 32) = true ∧
    passRuns (passing poisoned1) pass1 = some false ∧ isDirect (runCmd 1).opcode = false ∧
    ends (.maPass 0 pass1) (passing poisoned1) .uncorrectableData = true := by decide +kernel
/-- A pass waits for its bank, for an operand slot and for its clock, and counts a stall each time; one whose spill ends beyond
the scratchpad stops (R88, R102, R183). -/
theorem test_ma_pass_waits : passStall (passing fun x => { x with bank0 := ⟨[], 1⟩ }) pass1 = some (some .drain) ∧
    gives (.maPass 0 pass1) (passing fun x => { x with bank0 := ⟨[], 1⟩ }) (fun t => t.freeIx == 1) = true ∧
    passStall (passing id) { pass1 with full := [(0, 1)] } = some (some .operand) ∧
    unitsRun (passing fun x => { x with relock := some 9 }) 0 = false ∧
    clockHeld (passing fun x => { x with relock := some 9 }) 0 = true ∧
    gives (.maPass 0 pass1) (passing fun x => { x with relock := some 9 }) (fun t => t.freeIx == 1) = true ∧
    beyondSpad (passSpans { pass1 with fin := .spill (spadSize - 4096) }) = none ∧
    beyondSpad (passSpans { pass1 with fin := .spill (spadSize - 4095) }) = some (spadSize - 4095 + 4095) := by decide +kernel

def relLast : List TagAct := [⟨.acqEmpty, 0, 5119, 1⟩, ⟨.relFull, 0, 5119, 1⟩]
def acqFirst : List TagAct := [⟨.acqFull, 0, 0, 1⟩]
def tagged (ops : List PendOp) (stuck : Nat) : State :=
  doing (withEng warm 0 { engOn with ops := ops, stuck := [(5, stuck)] }) (runCmd 1)
/-- An operation whose acquire of the last slot is met proceeds, one whose acquire is not waits; then it completes (R192). -/
theorem test_tags : unitsRun (tagged [] 0) 0 = true ∧ actsOk relLast = true ∧ actsOk [⟨.acqFull, 0, 5120, 1⟩] = false ∧
    epochCmd (tagged [] 0) 0 ref7 = some (runCmd 1) ∧ (findOp ((tagged [] 0).eng 0) 5 .ve 3).isNone ∧
    gives (.tagAcquire 0 .ve ⟨3, ref7⟩ relLast) (tagged [] 0) (fun t => (t.eng 0).ops.map (·.started) == [true]) = true ∧
    gives (.tagAcquire 0 .ve ⟨3, ref7⟩ acqFirst) (tagged [] 0) (fun t => (t.eng 0).ops.map (·.started) == [false]) = true ∧
    gives (.tagAcquire 0 .ve ⟨3, ref7⟩ relLast) (tagged [⟨5, 3, .ve, relLast, true⟩] 0) (fun t =>
      (t.eng 0).ops == [] && (t.eng 0).spad.full == [5119]) = true ∧
    acquiresMet ((tagged [⟨5, 3, .ve, acqFirst, false⟩] 9).eng 0).spad acqFirst = false ∧
    gives (.tagAcquire 0 .ve ⟨3, ref7⟩ relLast) (tagged [⟨5, 3, .ve, acqFirst, false⟩] 9) (fun t =>
      (t.eng 0).ops.map (·.started) == [false] && mget (t.eng 0).stuck 5 == some 9) = true := by decide +kernel
/-- A barrier waits for an operation of its units that waits, and completes otherwise (R139, R207). -/
theorem test_barrier : covered 2 .ve = true ∧ covered 1 .ve = false ∧
    stays (.descriptorBarrier 0 ⟨2, ref7⟩) (tagged [⟨5, 3, .ve, relLast, false⟩] 0) = true ∧
    gives (.descriptorBarrier 0 ⟨2, ref7⟩) (tagged [⟨5, 3, .ve, relLast, true⟩] 0) (fun t => (t.eng 0).ops == []) = true := by
  decide +kernel
/-- 2^22 cycles without progress end the epoch's command SLOT_TIMEOUT; one cycle less does not (R198). -/
theorem test_slot_timeout : stays (.slotTimeout ⟨0, ref7⟩) (tagged [⟨5, 3, .ve, relLast, false⟩] (2 ^ 22 - 1)) = true ∧
    epochCmd (tagged [⟨5, 3, .ve, relLast, false⟩] (2 ^ 22)) 0 ref7 = some (runCmd 1) ∧
    ends (.slotTimeout ⟨0, ref7⟩) (tagged [⟨5, 3, .ve, relLast, false⟩] (2 ^ 22)) .slotTimeout = true := by decide +kernel

def stops (c : Instr) (s : State) (a : Nat) : Bool :=
  match exec c s with
  | .next _ => false
  | .fault (.scratchpadAddress b) => b == a
  | .refused _ => false
/-- The last byte is stored and read; a read that ends beyond it stops (R183, R185). -/
theorem test_scratchpad : (warm.eng 0).spad.mem.wf = true ∧ (warm.eng 0).spad.gran = [] ∧
    gives (.scratchpadAccess 0 (.write [(spadSize - 1, 0xAB)] false) none []) warm (fun t =>
      (t.eng 0).spad.mem.read (spadSize - 1) == 0xAB && (t.eng 0).spad.mem.read (spadSize - 2) == 0) = true ∧
    gives (.scratchpadAccess 0 (.read (spadSize - 1) 1) none []) warm (fun t => (t.eng 0).spad == (warm.eng 0).spad) = true ∧
    onHolder (passing poisoned1) 0 (runCmd 1) = true ∧
    ends (.scratchpadAccess 0 (.read 0 16) (some ref7) []) (passing poisoned1) .uncorrectableData = true ∧
    stops (.scratchpadAccess 0 (.read (spadSize - 1) 2) none []) warm spadSize = true := by decide +kernel

/-! ## Background work (file 17) -/

def scrubbed : State := withEng warm 0
  { engOn with spad := { Spad.clear with gran := [(39 * 32768 + 255 * 128, .uncorrectable)] }, scrub := [(39, 255)] }
/-- The scrub poisons an uncorrectable granule of its blocks and moves on; the last position wraps (R187). -/
theorem test_scrub : keeperOn scrubbed 0 = true ∧ eclkRuns scrubbed 0 = true ∧ mwf (scrubbed.eng 0).spad.gran = true ∧
    gives (.scrubAccess 0 39 []) scrubbed (fun t => (t.eng 0).scrub == [(39, 0)] &&
      mget (t.eng 0).spad.gran (39 * 32768 + 255 * 128) == some .poisoned) = true := by decide +kernel
/-- Sweeps that are due, and one that is not (R381 to R384). -/
theorem test_sweeps : keeperOn live 0 = true ∧ keeperOn live 1 = true ∧ keeperOn live 2 = true ∧ keeperRuns live = true ∧
    gives (.spPatrolSweep 0) warm (fun t => (t.eng 0).sweepNext == 800000) = true ∧
    stays (.spPatrolSweep 0) (withEng warm 0 { engOn with sweepNext := 1 }) = true ∧
    gives (.ghPatrolSweep []) live (fun t => t.keeper.ghNext == 800000) = true ∧
    gives (.hbmPatrolSweep [] true) live (fun t => t.keeper.hbmNext == 400000000 && t.keeper.catchup) = true ∧
    gives .lodgePatrolSweep { live with keeper := { live.keeper with lodgeBad := [(0, false)] } }
      (fun t => t.keeper.lodgeNext == 25000000 && t.keeper.lodgeBad == []) = true ∧
    stays .lodgePatrolSweep { live with keeper := { live.keeper with lodgeNext := 1 } } = true := by decide +kernel

def at150 : State := { warm with lclk := 150 * 25000 }
def twoRun : State := withEng (withEng at150 1 { engOn with slice := some ⟨.opportunistic, 0, 0⟩ }) 2
  { engOn with slice := some ⟨.opportunistic, 0, 0⟩ }
def at245 : State := { warm with lclk := 245 * 25000 }
/-- An opportunistic slice after 150 ms and 50 µs idle, and none while two run; a forced one at 245 ms (R388, R389). -/
theorem test_slices : keeperOn at150 3 = true ∧ oppCount at150 = 0 ∧ oppCount twoRun = 2 ∧
    gives (.opportunisticSlice 0) at150 (fun t =>
      ((t.eng 0).slice.map (·.kind)) == some .opportunistic && (t.eng 0).eclk == 10) = true ∧
    stays (.opportunisticSlice 0) twoRun = true ∧
    gives (.forcedSliceDue 0) at245 (fun t => (t.eng 0).overdue) = true ∧
    gives (.forcedSliceStart 0) (withEng at245 0 { engOn with overdue := true }) (fun t =>
      ((t.eng 0).slice.map (·.kind)) == some .forced) = true ∧
    gives (.forcedSliceStart 0) (withEng at245 0 { engOn with overdue := true, slice := some ⟨.opportunistic, 9, 9⟩ }) (fun t =>
      ((t.eng 0).slice.map (·.kind)) == some .forced) = true ∧
    stays (.forcedSliceStart 0) (withEng at245 0 { engOn with overdue := true, ops := [⟨5, 3, .ve, [], true⟩] }) = true := by
  decide +kernel
def slicing (n : Nat) : State := { withEng warm 0 { engOn with slice := some ⟨.forced, 0, n⟩ } with lclk := 5000 }
/-- A slice takes 200,000 of its cycles; a failing one makes the engine FAILED (R387, R390). -/
theorem test_slice_complete : stays (.sliceComplete 0 true) (slicing 199999) = true ∧
    gives (.sliceComplete 0 true) (slicing 200000) (fun t => (t.eng 0).slice == none && (t.eng 0).sliceTimer == 5000) = true ∧
    gives (.sliceComplete 0 false) (slicing 200000) (fun t => (t.eng 0).failed && t.devLog.recs.length == 1) = true := by
  decide +kernel
def calibrated (n : Nat) : State :=
  { live with lclk := n, keeper := { Keeper.reset with calib := [(16 * 3 + 15, (0, 0))], calibDue := [(63, 0)] } }
/-- Calibration with and without valid timing, and one due for 4 ms, 100,000 cycles, without a window (R392). -/
theorem test_calibration : keeperRuns live = true ∧ live.stack 3 = .ready ∧ calibrationDue live 3 15 = true ∧
    calibrationDue (calibrated (32 * 25000)) 3 15 = true ∧ calibrationDue (calibrated (32 * 25000 - 1)) 3 15 = false ∧
    gives (.hbmCalibration 3 15 true) live (fun t => mget t.keeper.calib 63 == some (0, 0)) = true ∧
    stays (.calibrationWindowTimeout 3 15 false) (calibrated 99999) = true ∧
    gives (.calibrationWindowTimeout 3 15 false) (calibrated 100000) (fun t => t.stack 3 == .relocking) = true := by
  decide +kernel

/-! ## Faults (file 16) -/

/-- A mismatch restarts the Gatehouse; a third within a second is fatal (R365, R367). -/
theorem test_lockstep : (live.pair 0).active = true ∧
    gives (.ghLockstep 0) { live with restartTimes := [0] } (fun t => t.restart == some (.lockstep 0) && !t.fatal) = true ∧
    gives (.ghLockstep 0) { live with restartTimes := [0, 0] } (fun t => t.fatal) = true := by decide +kernel
def diverged (n : Nat) : State := { live with latent := some 0, lclk := n }
/-- A pair that has been idle for 1 µs, 25 cycles, and one with a command in flight; the restart within 1 ms (R369, R393). -/
def comparing (s : State) : State := { s.setPair 0 { s.pair 0 with segment := some (0, s.accNo) } with lclk := 25 }
theorem test_compare : (comparing live).boot.ready = true ∧ bitOf live.keeper.ctl 4 = true ∧ ((comparing live).pair 0).active = true ∧
    ((comparing live).pair 0).halted = false ∧ pairIdle (comparing live) 0 = true ∧ (comparing (having live [cmdOf 1 [] []])).cmds ≠ [] ∧
    stays .latentRestartTimeout (diverged 24999) = true ∧
    gives .latentRestartTimeout (diverged 25000) (fun t => t.restart == some .latent) = true := by decide +kernel
theorem test_compare_segments : ((comparing live).pair 0).compared ≤ Config.compareSegments := Nat.zero_le _
/-- A difference found on a pair to which the command in flight is not assigned, whichever pair that is (R368, R393). -/
def fourPairs : State :=
  let s := having live [cmdOf 1 [] []]
  { s with lclk := 25, pairs := (List.range 4).map fun i => (i, { Pair.reset with active := true, segment := some (0, s.accNo) }) }
theorem test_compare_busy : fourPairs.cmds ≠ [] ∧ fourPairs.latent = none ∧
    ∃ p : Fin 4, pairIdle fourPairs p.val = true ∧ (fourPairs.pair p.val).active = true ∧
      (fourPairs.pair p.val).segment = some (0, fourPairs.accNo) := by
  refine ⟨by decide, by decide, ?_⟩
  have hi : ∀ i, pairIdle fourPairs i = !(Config.pairOf 5 % 4 == i) := fun i => by
    show (!([cmdOf 1 [] []].any fun c => Config.pairOf c.acc % 4 == i)) = _
    simp [cmdOf]
  by_cases h : Config.pairOf 5 % 4 = 0
  · exact ⟨1, by rw [hi]; simp [h], by decide, by decide⟩
  · exact ⟨0, by rw [hi]; simp [h], by decide, by decide⟩

def restarting : State := { live with restart := some .fclk }
/-- The end of a restart with a pair left and with none, and FCLK's relock (R366, R368). -/
theorem test_restart_done : restarting.hbmUp = true ∧
    gives (.gatehouseRestartDone []) restarting (fun t => t.restart == none && !t.fatal) = true ∧
    gives (.gatehouseRestartDone [0]) restarting (fun t => t.fatal) = true ∧
    gives .fclkRelockDone { live with fclk := .relocking } (fun t => t.fclk == .running && t.restart == some .fclk) = true := by
  decide +kernel

def faulted : State := having warm [runCmd 1]
/-- Datapath faults, the Mover's, memory words and a second fault (R105, R357 to R362, R370). -/
theorem test_faults : warm.alive = true ∧ onHolder faulted 0 (runCmd 1) = true ∧ faulted.cmd ref7 = some (runCmd 1) ∧
    checksRun faulted 0 = true ∧
    gives (.datapathFault 0 .ma .residue ⟨7, 9, 3⟩ .groupSum (some ref7)) faulted (fun t => t.cmds == [] &&
      ((t.eng 0).slice.map (·.kind)) == some .diagnostic && (t.eng 0).note == some ⟨.ma, 7, 9, .groupSum, 3⟩) = true ∧
    faulted.gatehouseUp = true ∧ faulted.hbmUp = true ∧ faulted.secure.moverHalted = false ∧
    gives (.datapathFault 0 .ma .moverBlock ⟨0, 0, 0⟩ .unitResult (some ref7)) faulted (fun t => t.cmds == [] &&
      (t.eng 0).slice.isNone && t.moverRetry == faulted.moverRetry + 3) = true ∧
    gives (.datapathFault 0 .selection (.engineWord true) ⟨0, 0, 0⟩ .memory (some ref7)) faulted (fun t => t.cmds == faulted.cmds) = true ∧
    ends (.datapathFault 0 .selection (.engineWord false) ⟨0, 0, 0⟩ .memory (some ref7)) faulted .uncorrectableData = true ∧
    ends (.datapathFault 0 .selection (.gatehouseWord false) ⟨0, 0, 0⟩ .memory (some ref7)) faulted .uncorrectableData = true ∧
    gives (.datapathFault 0 .ma .secondFault ⟨0, 0, 0⟩ .unitResult none) faulted (fun t => t.fatal && t.cmds == []) = true := by
  decide +kernel
/-- A retention record whose other copy still holds goes on; both copies lost is fatal (R384). -/
theorem test_lodge_copies :
    gives (.datapathFault 0 .ma (.lodgeCopy 4 true) ⟨0, 0, 0⟩ .memory none) warm (fun t => t.keeper.lodgeBad == [(4, true)] && !t.fatal) = true ∧
    gives (.datapathFault 0 .ma (.lodgeCopy 4 true) ⟨0, 0, 0⟩ .memory none)
      { warm with keeper := { warm.keeper with lodgeBad := [(4, false)] } } (fun t => t.fatal) = true := by decide +kernel
/-- Routes, clocks, relocks, rails and the Lodge's logic (R363, R370, R376, R493). -/
theorem test_contained :
    gives (.routeLost 3 1) live (fun t => t.routesLost == [(1, 3)] && t.devLog.recs.length == 1) = true ∧
    gives (.routeLost 1 3) { live with routesLost := [(1, 3)] } (fun t => t.fatal) = true ∧
    gives (.clock (.eclk 0 false)) warm (fun t => (t.eng 0).failed) = true ∧
    gives (.clock (.eclk 0 true)) warm (fun t => (t.eng 0).slice.isSome) = true ∧
    gives (.clock .fclk) live (fun t => t.fclk == .relocking) = true ∧
    gives (.clock (.hbm 3)) live (fun t => t.stack 3 == .relocking) = true ∧
    gives (.hbmRelockDone 3 true) (live.setStack 3 .relocking) (fun t => t.stack 3 == .ready) = true ∧
    gives (.hbmRelockDone 3 false) (live.setStack 3 .relocking) (fun t => t.fatal) = true ∧
    gives (.clock .lclk) live (fun t => t.fatal && t.backup) = true ∧ gives (.rail .fab) live (fun t => t.fatal) = true ∧
    gives .lodgeLogicMismatch live (fun t => t.fatal) = true ∧
    gives (.rail (.engine 0 false)) warm (fun t => (t.eng 0).failed) = true ∧
    gives (.rail (.sram false)) warm (fun t => (t.eng 5).failed) = true := by decide +kernel

/-! ## Power (file 18) -/

def idleAt (n : Nat) : State := { withEng warm 0 { engOn with bank0 := ⟨[(0, [1])], 0⟩ } with lclk := n }
/-- An engine idle for GATE_DELAY of 4 µs, 100 cycles, is gated (R406). -/
theorem test_gate : mayGate (idleAt 100) 0 = true ∧ stays (.engineGate 0) (idleAt 99) = true ∧
    gives (.engineGate 0) (idleAt 100) (fun t => (t.eng 0).power == .gated && (t.eng 0).bank0.vals == []) = true := by
  decide +kernel
def waking0 : State := withEng live 0 { Engine.reset with power := .waking 0 }
/-- A wake ends unless HOLD stands, and a relock ends at its value (R404, R407). -/
theorem test_wake : stays (.engineWakeDone 0) { waking0 with power := { Power.reset with hold := true } } = true ∧
    gives (.engineWakeDone 0) waking0 (fun t => (t.eng 0).power == .running && (t.eng 0).eclk == 18) = true ∧
    gives (.eclkRelockDone 0) (withEng warm 0 { engOn with relock := some 7 }) (fun t => (t.eng 0).eclk == 7) = true := by
  decide +kernel
def quiet (n : Nat) : State := { live with ports := [], p2Cond := some 0, lclk := n }
def wakingP2 (f : Fclk) (n : Nat) : State := { live with p2 := .waking 0, fclk := f, lclk := n }
/-- P2 is entered after P2_DELAY of 100 µs, 2,500 cycles, and left again (R408 to R411). -/
theorem test_p2 : p2Due (quiet 2500) = true ∧ p2Due (quiet 2499) = false ∧ p2Ready live = false ∧
    gives .p2Entry (quiet 2500) (fun t => t.p2 == .inP2 && t.fclk == .stopped && t.pins.fabRet) = true ∧
    stays .p2Entry live = true ∧ stays .fclkStart (wakingP2 .stopped 249) = true ∧
    gives .fclkStart (wakingP2 .stopped 250) (fun t => t.fclk == .running) = true ∧
    gives .hbmReady (wakingP2 .running 250) (fun t => t.p2 == .awake) = true := by decide +kernel
def due : State := { live with lclk := 2500 }
/-- Limits and thermal protection at their bounds; a period is 2,500 cycles (R400, R416 to R418, R471). -/
theorem test_limits : stays (.limitControlPeriod 701 20) { live with lclk := 2499 } = true ∧
    gives (.limitControlPeriod 701 20) due (fun t => t.power.limP && t.power.ceiling == 17) = true ∧
    gives (.limitControlPeriod 700 101) due (fun t => t.power.limT && t.power.ceiling == 17) = true ∧
    gives (.limitControlPeriod 701 20) { due with power := { Power.reset with ceiling := 4 } }
      (fun t => t.power.ceiling == 4 && t.power.omitted == 1) = true ∧
    gives (.limitControlPeriod 664 96) { live with lclk := 25000, power := { Power.reset with ceiling := 9, underSince := some 0 } }
      (fun t => t.power.ceiling == 10) = true ∧
    gives (.limitControlPeriod 664 96) { live with lclk := 24999, power := { Power.reset with ceiling := 9, underSince := some 0 } }
      (fun t => t.power.ceiling == 9) = true ∧
    gives .overcurrentAlarm live (fun t => t.power.halfPulse) = true ∧
    gives .overcurrentAlarmClear { live with power := { Power.reset with halfPulse := true } } (fun t => !t.power.halfPulse) = true ∧
    gives .telemetryRefresh { live with lclk := 25000 } (fun t => t.telSnap == 1) = true := by decide +kernel
def held : State := { live with power := { Power.reset with hold := true } }
theorem test_thermal : gives (.thermalHold 110) live (fun t => t.power.hold && t.pins.thermtrip) = true ∧
    stays (.thermalHold 109) live = true ∧ gives (.thermalRelease 99) held (fun t => !t.power.hold) = true ∧
    gives (.thermalRelease 99) { live with pins := { live.pins with thermtrip := true } } (fun t => !t.pins.thermtrip) = true ∧
    stays (.thermalRelease 100) held = true ∧ gives (.thermalTrip 120) live (fun t => t.fatal && !t.pins.enCore) = true ∧
    stays (.thermalTrip 119) live = true := by decide +kernel

/-! ## Functions and links (files 15, 18 and 20) -/

def manyVfs : State := withFn live { hostFn with cfg := { hostFn.cfg with vfEnable := true, numVfs := 63 } }
def inLink (l : Link) (n : Nat) : State :=
  { withFn live { hostFn with cfg := { hostFn.cfg with aspmL1 := true } } with ports := [(0, { Port.reset with link := l })], lclk := n }
/-- FLR and its end, a port reset, link training, and the removal of one VF (R455, R457, R459). -/
theorem test_resets : cfgServed live pf = true ∧
    gives (.functionLevelReset pf) live (fun t => (t.fn pf).flr == some 0 && (t.fn pf).queues == []) = true ∧
    gives (.flrComplete pf) (withFn live { hostFn with flr := some 0 }) (fun t => (t.fn pf).flr == none) = true ∧
    gives (.portReset 0 .perst) live (fun t => (t.port 0).link == .down && !(t.port 0).perstN) = true ∧
    gives (.linkUp 0) (inLink .down 7) (fun t => (t.port 0).link == .l0 && (t.port 0).idleSince == 7) = true ∧
    cfgServed manyVfs ⟨0, 0⟩ = true ∧ removedVfs manyVfs 0 62 true = [⟨0, 63⟩] ∧
    gives (.vfRemoval 0 62 true) manyVfs (fun t => (t.fn pf).cfg.numVfs == 62) = true := by decide +kernel
/-- D3hot, D0, L1 after 16 µs of idle (400 cycles), L0, Unsupported Request and a configuration write (R408, R414, R446, R456). -/
theorem test_links : gives (.d3hotEntry pf false) live (fun t => (t.fn pf).cfg.d3hot && !t.dmaOk pf) = true ∧
    gives (.d3hotEntry pf true) live (fun t => !(t.fn pf).cfg.busMaster) = true ∧
    gives (.d0Return pf) (withFn live { hostFn with cfg := { hostFn.cfg with d3hot := true } }) (fun t => !(t.fn pf).cfg.d3hot) = true ∧
    stays (.aspmL1Request 0) (inLink .l0 399) = true ∧
    gives (.aspmL1Request 0) (inLink .l0 400) (fun t => (t.port 0).link == .l1 && t.out == [.l1Request 0]) = true ∧
    gives (.linkReturnsToL0 0) (inLink .l1 5) (fun t => (t.port 0).link == .l0) = true ∧
    isUr live (.read pf 0 32 33) = true ∧ isUr live (.read pf 0 32 32) = false ∧
    gives (.unsupportedRequest (.unsupported 0)) live (fun t => t.out == [.unsupported 0]) = true ∧
    cfgFieldThere pf .busMaster = true ∧ (mmioRead live pf .bar0 60 4).isSome = true ∧ mmioRead live pf .bar0 60 5 = none ∧
    gives (.configurationWrite pf .busMaster 0) live (fun t => !(t.fn pf).cfg.busMaster) = true := by decide +kernel

/-! ## Bring-up and power-down (files 20 and 23) -/

/-- The P-384 generator point, whose hash the fuses hold at reset (log entry 7), and signatures with the scalars d = k = 1. -/
def genX : Nat := 0xaa87ca22be8b05378eb1c71ef320ad746e1d3b628ba79b9859f741e082542a385502f25dbf55296c3a545e3872760ab7
def genY : Nat := 0x3617de4a96262c6f5d9e98bf9292dc29f8f41dbd289a147ce9da3113b5f0b8c00a60b1ce1d7e819d7a431d7c90ea0e5f
def genKey : List Byte := [4] ++ toBe 48 genX ++ toBe 48 genY
/-- A slot image with no body, SVN 0 and COMMIT_SVN 0 (Table 8 of R464). -/
def fwImg : List Byte :=
  toLe 4 0x4D495746 ++ toLe 2 1 ++ zeros 26 ++ genKey ++ zeros 287 ++ toBe 48 genX ++
    toBe 48 0x3c258ddc9e59d651cf7af96fce3151785d9329606a9f1219b47350b72640e3b11ff993d4623962fe0ac56f4198f6ad71
def withSlotA (s : State) (img : List Byte) : State := { s with stores := { s.stores with slotA := img } }
/-- Step 2 of bring-up with a valid slot A, and with none (R427, R460). -/
theorem test_config_ready : fwChoose (withSlotA State.reset fwImg).stores = some (0, fwImg) := by decide +kernel
theorem test_config_fails : fwChoose State.reset.stores = none ∧ State.reset.alive = true ∧ State.reset.pins.testN = true ∧
    gives .configReady State.reset (fun t => t.boot.fwFail && t.boot.stage == 2) = true := by decide +kernel

def unreset : State := { State.reset with pins := { Pins.reset with sysRstN := false } }
def stage3 (p : Pins) : State := { State.reset with boot := { Boot.reset with stage := 3, configReady := true }, pins := p }
def stage5 : State :=
  { State.reset with boot := { Boot.reset with stage := 5, configReady := true, attempts := [(3, 2)] }, hbm := [(0, .training), (3, .training)] }
/-- Resets and power-goods (R457, R460, R491, R495, R496). -/
theorem test_bring_up : gives (.powerOnReset 3 5 true) unreset (fun t => t.pins.lanes == 0 && t.pins.smbadr == 5 && t.pins.sysRstN) = true ∧
    live.resettable = true ∧ gives .coldReset live (fun t => t.boot.stage == 1 && t.plots == []) = true ∧
    gives (.powerGood .fab true) (stage3 { Pins.reset with enFab := true }) (fun t => t.pins.enSram) = true ∧
    gives (.powerGood .sram true) (stage3 { Pins.reset with enFab := true, enSram := true }) (fun t => t.pins.enCore) = true ∧
    gives (.powerGood .core true) (stage3 { Pins.reset with enFab := true, enSram := true, enCore := true })
      (fun t => t.pins.enHbm && t.boot.stage == 5 && t.fclk == .running) = true := by decide +kernel
def training (commit : Nat) : State := { live with boot := { live.boot with stage := 6, ready := false, commitSvn := commit, fwSvn := 3 } }
/-- A power-good is due within 20 ms, 500,000 cycles; a third failed training is fatal; READY ends bring-up (R460, R498). -/
theorem test_bring_up_ends :
    gives (.powerGoodTimeout .fab) { stage3 { Pins.reset with enFab := true } with lclk := 500000 } (fun t => t.fatal) = true ∧
    stays (.powerGoodTimeout .fab) { stage3 { Pins.reset with enFab := true } with lclk := 499999 } = true ∧
    stage5.alive = true ∧ gives (.hbmTrainingDone 0 true) stage5 (fun t => t.stack 0 == .ready && t.boot.stackMask == 1) = true ∧
    gives (.hbmTrainingDone 0 false) stage5 (fun t => !t.fatal && mget t.boot.attempts 0 == some 1) = true ∧
    gives (.hbmTrainingDone 3 false) stage5 (fun t => t.fatal) = true ∧
    gives (.ready ⟨[5], true⟩) (training 0) (fun t => t.boot.ready && (t.eng 5).failed && !(t.eng 0).failed) = true ∧
    gives (.ready ⟨[], true⟩) (training 1) (fun t => t.stores.minSvn == 3) = true ∧
    gives (.ready ⟨[], false⟩) (training 1) (fun t => t.stores.minSvn == 0) = true := by decide +kernel
/-- PWR_DN_N completes a reservation write, and the supplies (R435, R494, R498). -/
theorem test_power_down : gives .pwrDnN { live with nvsWait := some 5 } (fun t =>
      t.stores.limit == 4096 && !t.pins.pwrDnN && !t.pins.enHbm && (t.port 0).link == .down) = true ∧
    gives .pwrDnNDeassert { live with pins := { live.pins with pwrDnN := false } } (fun t => t.boot.stage == 1) = true ∧
    gives .mainSupplyRemoval live (fun t => !t.pins.vaon && t.plots == []) = true ∧ live.nvsWait = none ∧
    { live with nvsWait := some 5 }.pins.vaon = true ∧
    gives .supplyReturn { live with pins := { live.pins with vaon := false } } (fun t => t.pins.vaon && !t.pins.sysRstN) = true := by
  decide +kernel

/-! ## The channel and management messages (file 20) -/

def staging (bs : List Byte) : State := { live with pcp := { Queue.blank with staged := some bs } }
/-- A NOP through the channel advances E; one with a wrong CRC does not; a reset sets E (R466). -/
theorem test_channel : epUp live .smbus = true ∧ live.p2 = .awake ∧ live.pcpReset = none ∧ live.pcp.qstate = .active ∧
    (packet 1 0).length = 48 ∧ tlenOk (hdrOf (packet 1 0)).tlen 65536 = true ∧
    crc32c ((packet 1 0).take 44) = crcField (packet 1 0) 48 ∧
    64 ≤ replyLimit (staging (packet 1 0)).pcp ∧ replyLimit (staging (packet 1 0)).pcp / 16 ≤ (staging (packet 1 0)).pcp.cqFree ∧
    replyLimit live.pcp = replyLimit (staging (packet 1 0)).pcp ∧
    gives (.pcpChannel .smbus (packet 1 0)) live (fun t => t.pcp.e == 1) = true ∧
    gives (.pcpChannel .smbus (packetHead 1 0 ++ zeros 4)) live (fun t => t.pcp.e == 0) = true ∧
    gives (.channelReset .smbus 9) live (fun t => t.pcp.e == 9) = true ∧
    gives (.channelReset .smbus 9) (releasing 0 []) (fun t => t.pcpReset == some (.smbus, 9)) = true := by decide +kernel

def steered : State := { live with update := some ⟨1, true⟩ }
/-- Sensors, effecters at their bounds, and updates (R465, R468 to R470). -/
theorem test_management : mctpUp live .smbus = true ∧ mayEffect live .smbus = true ∧ effectersOn live = true ∧
    mayEffect live (.pcie 0) = false ∧ mayUpdate live .smbus = true ∧ (sensorValue live 1).isSome ∧ (sensorValue live 999).isNone ∧
    gives (.pldmEffecterWrite .smbus 32 150) live (fun t => t.power.plimit == 150) = true ∧
    gives (.pldmEffecterWrite .smbus 32 700) { live with power := { Power.reset with plimit := 200 } } (fun t => t.power.plimit == 700) = true ∧
    gives (.pldmEffecterWrite .smbus 32 149) live (fun t => t.power == live.power) = true ∧
    gives (.pldmEffecterWrite .smbus 32 701) live (fun t => t.power == live.power) = true ∧
    gives (.pldmEffecterWrite .smbus 35 65535) live (fun t => t.power.p2Delay == 65535) = true ∧
    gives (.pldmP2enEffecter .smbus false) { live with p2 := .inP2 } (fun t => t.p2 == .waking 0) = true ∧
    gives (.pldmColdResetEffecter .smbus 1) live (fun t => t.boot.stage == 1) = true ∧
    gives (.setEventReceiver .smbus 9) live (fun t => t.eventReceiver == some 9) = true := by decide +kernel
/-- MCTP control, PLDM discovery and a sensor read are answered (R465, R468). -/
theorem test_management_reads : gives (.mctpControl .smbus 2) live (fun t => t.out.length == 1) = true ∧
    gives (.pldmDiscovery .smbus 2) live (fun t => t.out.length == 1) = true ∧
    gives (.pldmSensorRead .smbus 1) { live with sensors := { Sensors.reset with die := 77 } }
      (fun t => t.out == [.mctp .smbus ([0x01, 0x02, 0x11, 0x00] ++ toLe 4 77)]) = true := by decide +kernel
theorem test_updates : gives (.requestUpdate .smbus) live (fun t => t.update.isSome) = true ∧
    gives (.requestUpdate .smbus) steered (fun t => t.update == steered.update) = true ∧
    gives (.updateComponent .smbus [1]) steered (fun t => t.stores.slotB == [1]) = true ∧
    gives (.verifyComplete .smbus) steered (fun t => t.update == none) = true ∧
    gives (.unknownVendorSubtype 4) live (fun t => t.devLog.lost == 1) = true ∧
    gives (.unknownVendorSubtype 0) live (fun t => t.devLog.lost == 1) = true ∧
    gives (.sensorThresholdCrossing 1 90) { live with eventReceiver := some 9 } (fun t =>
      t.out == [.event 9 (toLe 2 1 ++ toLe 4 90)]) = true := by decide +kernel

/-! ## Lifecycle, debug and SPDM (file 19) -/

/-- A token for the nonce of 32 zero bytes, signed by the debug key (R438). -/
def tokOf (op life a0 s : Nat) : List Byte :=
  toLe 4 0x4B544244 ++ toLe 2 1 ++ toLe 1 op ++ toLe 1 life ++ zeros 40 ++ genKey ++ toLe 1 a0 ++ zeros 14 ++ toBe 48 genX ++ toBe 48 s
def tokField : List Byte :=
  tokOf 0x10 1 0 0x911eba6913d53518649c859482bb40be7b16bb50ce146d3de9d0c4d10e428e23ac86f02d4ebd29266a2db91658115d3d
def tokRetire : List Byte :=
  tokOf 0x11 1 0 0x6c71039070cc6082ed78ef5c55e082c694d4f3fcab0c59e910d911beae9ff3c20c151e30f037c54bc4afe0ba40104639
def tokAuth : List Byte :=
  tokOf 0x12 1 1 0xd1b4b21fd56fa6de4581db663be7b7e35678414ff08ce804b79f3e431ce357ae6320ce20e4add17e83cbc2a377cd8287
def tokObs : List Byte :=
  tokOf 1 1 0 0x9c8b7701ffcbb18163f9e9d299af951eb11ec63d5ae453ede0760aa885f6befa8a7eb3d7b719ace2dcf0bb43f4fe1c56
def tokInv : List Byte :=
  tokOf 2 1 0 0x3ce4390a47bb1d7ada5e6afa038b720b8e6cf90d16e5b81e0d34fac7863650b0698ec24f221d06521377d6bf11cc16a6
def tokInvField : List Byte :=
  tokOf 2 2 0 0x706a30e4aa5dea09295de41ee5aea0f93bcca5b2e5f1d24d80f384df95a8e377ace40b45fbff3d4f58428f4e3c105424
/-- A device of the BMC's with the generator as its debug key, in a lifecycle state, with a nonce of zeros. -/
def owned (l : Life) : State :=
  { live with
    plots := []
    stores := { live.stores.setAuthority .bmc with lifeFuses := fuses l, odkHash := resetKeyHash }
    secure := { Secure.reset with nonce := some (zeros 32, 0) } }

theorem test_tokens : tokenGood (owned .provisioned) (some .smbus) 0x10 tokField = true ∧
    tokenGood (owned .provisioned) (some .smbus) 0x11 tokRetire = true ∧
    tokenGood (owned .provisioned) (some .smbus) 0x12 tokAuth = true ∧ tokArg0 tokAuth = 1 := by decide +kernel
theorem test_debug_tokens : tokenGood (owned .provisioned) (some .smbus) 1 tokObs = true ∧
    tokenGood (owned .provisioned) (some .smbus) 2 tokInv = true ∧
    tokenGood (owned .field) (some .smbus) 2 tokInvField = true := by decide +kernel
theorem test_jtag_tokens : tokenGood (owned .provisioned) none 1 tokObs = true ∧ tokenGood (owned .provisioned) none 2 tokInv = true ∧
    tokenGood (owned .provisioned) none 0x11 tokRetire = true ∧ byteAt tokInv 6 = 2 := by decide +kernel
/-- A token lasts while its nonce does, 60 s; a wrong one spends the nonce, and the eighth in a row locks out (R439). -/
theorem test_bad_tokens : tokenGood { owned .provisioned with lclk := 1500000000 } (some .smbus) 1 tokObs = false ∧
    tokenGood (owned .provisioned) (some .smbus) 2 tokObs = false ∧
    gives (.invasive .smbus tokObs) { owned .provisioned with secure := { (owned .provisioned).secure with failCount := 7 } }
      (fun t => t.secure.nonce == none && t.secure.lockout && t.secure.level == .closed) = true ∧
    tokenGood (owned .provisioned) none (byteAt (zeros 256) 6) (zeros 256) = false ∧
    gives (.dbgAuth ⟨zeros 256, (true, true), true⟩) (owned .provisioned) (fun t => t.secure.failCount == 1) = true := by decide +kernel

def erasing (a : AfterErase) : State := { owned .provisioned with secure := { Secure.reset with erasing := some a } }
/-- PROVISION from BLANK over the sideband, its refusal elsewhere, the nonce, and BUSY during an erase (R423, R424, R426). -/
theorem test_lifecycle : live.stores.life = .blank ∧ authorityOf 1 0 = some .bmc ∧ live.secure.level = .closed ∧
    gives (.provision .smbus ⟨List.replicate 48 0x77 ++ [1, 0], (true, true), true⟩) live (fun t =>
      t.stores.life == .provisioned && t.stores.authority == .bmc) = true ∧
    gives (.provision .smbus ⟨List.replicate 48 0x77 ++ [1, 0], (true, false), true⟩) live (fun t =>
      t.stores.lifeFuses.provisioned == (true, false) && t.devLog.recs.length == 1) = true ∧
    gives (.provision .smbus ⟨[], (true, true), true⟩) (owned .provisioned) (fun t => t.stores == (owned .provisioned).stores) = true ∧
    gives (.nonce .smbus) (owned .provisioned) (fun t => t.secure.nonce.isSome) = true ∧
    gives (.close .smbus) (erasing (.retire none ⟨(true, true), true⟩)) (fun t => t.out == [.mctp .smbus (vendorMsg 2 [0x13, 3])]) = true ∧
    stays .nonceExpiry { owned .provisioned with lclk := 1499999999 } = true ∧
    gives .nonceExpiry { owned .provisioned with lclk := 1500000000 } (fun t => t.secure.nonce == none) = true := by decide +kernel
theorem test_erase : stays .tenantEraseDone (owned .provisioned) = true ∧
    gives .tenantEraseDone (erasing (.retire none ⟨(true, true), true⟩)) (fun t =>
      t.stores.life == .retired && t.stores.idOff && t.secure.erasing == none) = true ∧
    gives .tenantEraseDone (erasing (.retire none ⟨(true, true), false⟩)) (fun t =>
      t.stores.life == .provisioned && !t.stores.idOff && t.secure.erasing == none) = true ∧
    gives .tenantEraseDone (erasing (.invasive none)) (fun t =>
      t.secure.level == .invasive && t.secure.debugged) = true := by decide +kernel

/-- OBSERVE without a token, the JTAG nonce, Test-Logic-Reset and boundary scan (R437, R441, R442). -/
theorem test_debug : observeFree (owned .provisioned) .smbus = true ∧ observeFree live .smbus = false ∧
    gives (.observe .smbus []) (owned .provisioned) (fun t => t.secure.level == .observe) = true ∧
    gives (.observe .smbus []) live (fun t => t.secure.level == .closed) = true ∧
    gives .dbgNonce live (fun t => t.secure.nonce.isSome) = true ∧
    gives .testLogicReset (owned .provisioned) (fun t => t.secure.level == .closed) = true ∧
    gives (.extest .highz) (inLink .l0 0) (fun t => t.pins.drive == some .highz) = true ∧ stays (.extest .highz) live = true := by
  decide +kernel
def opened (s : State) : State := { s with secure := { Secure.reset with level := .invasive } }
/-- What a debugger does at INVASIVE (R436, Table 7). -/
theorem test_debug_access : stays (.debugAccess .haltMover) live = true ∧
    gives (.debugAccess .haltMover) (opened live) (fun t => t.secure.moverHalted) = true ∧
    gives (.debugAccess (.haltPair 0)) (opened live) (fun t => (t.pair 0).halted) = true ∧
    gives (.debugAccess (.haltEngine 0)) (opened warm) (fun t => (t.eng 0).halted) = true ∧
    gives (.debugAccess (.readSpad 0 0 2)) (opened (loaded [(1, 9)])) (fun t => t.out == [.jtag [0, 9]]) = true ∧
    stops (.debugAccess (.readSpad 0 spadSize 1)) (opened warm) spadSize = true ∧
    gives (.debugAccess (.writeScalar 0 63 7)) (opened live) (fun t =>
      ((mget t.plots 0).bind fun p => mget p.scalars 63) == some 7) = true ∧
    gives (.debugAccess (.readTensor 0 9 31 5)) (opened (holding blob32)) (fun t => t.out == [.jtag [0x5A]]) = true ∧
    gives (.debugAccess (.readTensor 0 9 31 5)) (opened (holding hurt32)) (fun t => t.out == [.jtag []]) = true ∧
    gives (.debugAccess (.readTensor 0 9 6 1)) (opened (inPlot0 live (planned 1 0 1))) (fun t => t.out == [.jtag [1]]) = true ∧
    gives (.debugAccess (.readImage 0 0 4096 1)) (opened (streaming stream2)) (fun t => t.out == [.jtag [0]]) = true ∧
    gives (.debugAccess (.writeImage 0 0 4096 [8])) (opened (streaming stream2)) (fun t =>
      ((mget t.plots 0).bind fun p => mget p.streams 0).map (fun x => byteAt x.img 4096) == some 8) = true ∧
    gives (.debugAccess (.writeTensor 0 9 31 [8])) (opened (holding blob32)) (fun t =>
      ((mget t.plots 0).bind fun p => (mget p.tensors 9).map fun z => z.img.drop 30) == some [0x5A, 8]) = true := by decide +kernel

def tp : Transport := .mctp .smbus
def agreed : State := { live with spdm := [⟨tp, true, true, true⟩], stores := { live.stores with chain := nvsRec chainBytes [1, 2, 3, 4] 0 } }
/-- SPDM negotiation, refusals before it, and sessions to their limit (R428, R430, R431). -/
theorem test_spdm : spdmUp live tp = true ∧ (connOf agreed tp).algorithms = true ∧ (connOf live tp).algorithms = false ∧
    gives (.getVersion tp) live (fun t => (connOf t tp).version) = true ∧
    gives (.getCapabilities tp) { live with spdm := [⟨tp, true, false, false⟩] } (fun t => (connOf t tp).capabilities) = true ∧
    gives (.negotiateAlgorithms tp) { live with spdm := [⟨tp, true, true, false⟩] } (fun t => (connOf t tp).algorithms) = true ∧
    gives (.getDigests tp) live (fun t => t.out == [.spdm tp [0x7F, 4, 0]]) = true ∧
    gives (.getCertificate tp 0 3 9) agreed (fun t => t.out == [.spdm tp [2, 1, 0, 0, 0, 4]]) = true ∧
    (measureList 6).isSome ∧ sessionLimit tp = 8 ∧ sessionCount agreed tp = 0 ∧
    gives (.spdmUnsupportedRequest tp 0xAA) live (fun t => t.out == [.spdm tp [0x7F, 7, 0xAA]]) = true := by decide +kernel
def hand : Session := ⟨tp, 0x20001, false, [], [], 0, 2, 0⟩
def talking (x : Session) (n : Nat) : State := { agreed with sessions := [(0, x)], lclk := n }
def eight : State := { agreed with sessions := (List.range 8).map fun i => (i, { hand with id := i }) }
theorem test_sessions : sessionOf (talking hand 0) tp 0x20001 false = some (0, hand) ∧ sessionCount eight tp = 8 ∧
    gives (.keyExchange tp 1 0) eight (fun t => t.out == [.spdm tp [0x7F, 0xA, 0]]) = true ∧
    gives (.finish tp 0x20001 true key0 (zeros 12)) (talking hand 0) (fun t => t.sessions.map (·.2.established) == [true]) = true ∧
    gives (.finish tp 0x20001 false key0 (zeros 12)) (talking hand 0) (fun t => t.sessions == []) = true ∧
    (sessionOf (talking hand 0) tp 0x20001 true).isNone ∧
    gives (.heartbeat tp 0x20001) (talking { hand with established := true } 9) (fun t => t.sessions.map (·.2.lastBeat) == [9]) = true ∧
    gives (.keyUpdate tp 0x20001 key0 (zeros 12)) (talking { hand with established := true } 0) (fun t =>
      t.sessions.map (·.2.key) == [key0]) = true ∧
    gives (.endSession tp 0x20001) (talking { hand with established := true } 0) (fun t => t.sessions == []) = true ∧
    gives (.endSession tp 5) (talking hand 0) (fun t => t.out == [.spdm tp [0x7F, 2, 0]]) = true := by decide +kernel
/-- Two heartbeat periods of 2 s are 100,000,000 cycles; RETIRED answers nothing that needs the key (R423, R431). -/
theorem test_session_ends : gives (.heartbeatTimeout tp 0x20001) (talking { hand with established := true } 100000000)
      (fun t => t.sessions == []) = true ∧
    stays (.heartbeatTimeout tp 0x20001) (talking { hand with established := true } 99999999) = true ∧
    gives (.challenge tp 0 (zeros 32)) { agreed with stores := { agreed.stores with lifeFuses := fuses .retired } }
      (fun t => t.out == [.spdm tp [0x7F, 7, 0x83]]) = true := by decide +kernel

/-! ## What holds of every step -/

theorem test_invariant_step : onward (step { live with pending := [.coldReset] }) (fun t => decide (t.expCtr ≤ t.stores.limit)) = true ∧
    live.reserved := by
  unfold State.reserved
  decide +kernel
theorem test_store_writers : writesStores .coldReset = false ∧ managementOnly (.thermalHold 110) = true ∧
    managementOnly .hbmReady = true ∧ live.secure.deferred = [] ∧ managementOnly .lodgePatrolSweep = true ∧
    managementOnly (.provision .smbus ⟨[], (true, true), true⟩) = true ∧
    gives (.thermalHold 110) faulted (fun t => t.cmds == faulted.cmds && t.plots == faulted.plots) = true := by decide +kernel

end Sys2Proof.Tests
end

section
/-!
PROOF. The doorbells of R256 and R257: what a served write to a queue that exists does, and the two statements about it.
-/

namespace Sys2Proof.Machine

/-! ## What a doorbell write reaches -/

/-- A served write to the doorbell of a queue that exists goes to that queue's tail or head (R255). -/
theorem served_bar2Write {s : State} {f : FuncId} {off size q : Nat} {isHead : Bool} {x : Queue} (v : Nat)
    (hserved : mmioServed s f = true) (hdoor : doorbellOf off size = some (q, isHead))
    (hqueue : mget (s.fn f).queues q = some x) :
    served s f (fun t => bar2Write t f off size v) =
      if isHead then writeHead (touchPort s f.port.val) f q x (v % 2 ^ 32)
      else writeTail (touchPort s f.port.val) f q x (v % 2 ^ 32) := by
  rw [served_yes hserved, bar2Write, hdoor]
  simp only [touchPort_fn, hqueue]

theorem exec_sqTailDoorbell (f : FuncId) (off size : Nat) (data : Word) (s : State) :
    exec (.sqTailDoorbell f off size data) s = .next (served s f fun t => bar2Write t f off size data.toNat) := rfl

theorem exec_cqHeadDoorbell (f : FuncId) (off size : Nat) (data : Word) (s : State) :
    exec (.cqHeadDoorbell f off size data) s = .next (served s f fun t => bar2Write t f off size data.toNat) := rfl

theorem tailValid_iff (x : Queue) (t : Nat) : tailValid x t = true ↔
    (x.sqTail + 2 ^ 32 - x.sqHead) % 2 ^ 32 ≤ (t + 2 ^ 32 - x.sqHead) % 2 ^ 32 ∧
      (t + 2 ^ 32 - x.sqHead) % 2 ^ 32 ≤ x.sqSize / 16 := by
  rw [tailValid, Bool.and_eq_true, decide_eq_true_iff, decide_eq_true_iff, Queue.sqOcc]

theorem headValid_iff (x : Queue) (t : Nat) : headValid x t = true ↔
    (t + 2 ^ 32 - x.cqHead) % 2 ^ 32 ≤ (x.cqTail + 2 ^ 32 - x.cqHead) % 2 ^ 32 := by
  rw [headValid, decide_eq_true_iff, Queue.cqOcc]

/-! ## An invalid position, of a tail or a head -/

theorem badDoorbell_eq {s : State} {f : FuncId} {q : Nat} {x : Queue} (hqueue : s.queue (.ring f q) = some x) :
    badDoorbell s f q = signalErr (s.setQueue (.ring f q) { x with dberr := true, dberrAt := some s.lclk }) f := by
  rw [badDoorbell, State.modQueue, hqueue]

theorem writeTail_invalid {s : State} {f : FuncId} {q t : Nat} {x : Queue} (hqueue : s.queue (.ring f q) = some x)
    (hbad : ¬ tailValid x t = true) :
    writeTail s f q x t = signalErr (s.setQueue (.ring f q) { x with dberr := true, dberrAt := some s.lclk }) f := by
  rw [writeTail, if_neg hbad, badDoorbell_eq hqueue]

theorem writeHead_invalid {s : State} {f : FuncId} {q t : Nat} {x : Queue} (hqueue : s.queue (.ring f q) = some x)
    (hbad : ¬ headValid x t = true) :
    writeHead s f q x t = signalErr (s.setQueue (.ring f q) { x with dberr := true, dberrAt := some s.lclk }) f := by
  rw [writeHead, if_neg hbad, badDoorbell_eq hqueue]

/-! ## A valid position -/

/-- A latched position: the queue is replaced, and the wake of R410 that follows leaves every queue as it is. -/
theorem latch_queue (s : State) (f : FuncId) (q : Nat) (x : Queue) :
    (doorbellWake (s.setQueue (.ring f q) x) f).queue (.ring f q) = some x := by
  rw [doorbellWake_queue, State.queue_setQueue]

theorem latch_queue_other (s : State) (f : FuncId) (q : Nat) (x : Queue) {src : Src} (h : src ≠ .ring f q) :
    (doorbellWake (s.setQueue (.ring f q) x) f).queue src = s.queue src := by
  rw [doorbellWake_queue, State.queue_setQueue_other _ _ _ _ h]

theorem untouched_latch (s : State) (f : FuncId) (q : Nat) (x : Queue) :
    Untouched s (doorbellWake (s.setQueue (.ring f q) x) f) :=
  (untouched_setQueue ..).trans (untouched_doorbellWake ..)

theorem writeTail_valid {s : State} {f : FuncId} {q t : Nat} {x : Queue} (hok : tailValid x t = true) :
    writeTail s f q x t = doorbellWake (s.setQueue (.ring f q) { x with sqTail := t }) f := by
  rw [writeTail, if_pos hok]

/-- A valid completion head is latched, and all that may follow is that waiting replies are sent (R257, R270). -/
theorem writeHead_valid {s : State} {f : FuncId} {q t : Nat} {x : Queue} (hok : headValid x t = true) :
    Sends (doorbellWake (s.setQueue (.ring f q) { x with cqHead := t }) f) (writeHead s f q x t) := by
  rw [writeHead, if_pos hok]
  dsimp only
  split
  · exact sends_drain ..
  · exact Sends.refl _

/-- What sending replies leaves of a ring: all but its completion side. -/
theorem Sends.ring_inner {s t : State} (h : Sends s t) {f : FuncId} {q : Nat} {x : Queue}
    (hqueue : s.queue (.ring f q) = some x) : ∃ y, t.queue (.ring f q) = some y ∧ y.inner = x.inner := by
  have hkept := h.queue (.ring f q) nofun
  rw [hqueue] at hkept
  exact Option.map_eq_some_iff.1 hkept

theorem inner_eq_fields {x y : Queue} (h : y.inner = x.inner) : y.cqHead = x.cqHead ∧ y.sqTail = x.sqTail ∧
    y.sqHead = x.sqHead ∧ y.e = x.e ∧ y.qstate = x.qstate ∧ y.dberr = x.dberr :=
  have proj {α : Type} (g : Queue → α) : g y.inner = g x.inner := congrArg g h
  ⟨proj (·.cqHead), proj (·.sqTail), proj (·.sqHead), proj (·.e), proj (·.qstate), proj (·.dberr)⟩

/-! ## The statements -/

/-- Settles O3: a valid tail is latched and followed by a wake alone, an invalid one is `badDoorbell`. -/
theorem submissionTailDoorbell : Obligations.SubmissionTailDoorbell := by
  unfold Obligations.SubmissionTailDoorbell
  rintro f off size data s q x hserved hdoor hqueue T rfl
  rw [exec_sqTailDoorbell, served_bar2Write data.toNat hserved hdoor hqueue, if_neg Bool.false_ne_true]
  refine ⟨fun hforward hfits => ⟨_, rfl, ?_⟩, fun hbad => ?_⟩
  · rw [writeTail_valid ((tailValid_iff ..).2 ⟨hforward, hfits⟩)]
    exact ⟨latch_queue .., fun src h => (latch_queue_other _ _ _ _ h).trans (touchPort_queue ..),
      (untouched_touchPort ..).trans (untouched_latch ..)⟩
  · have hinvalid : ¬ tailValid x (data.toNat % 2 ^ 32) = true := by
      rw [tailValid_iff]
      omega
    rw [writeTail_invalid ((touchPort_queue ..).trans hqueue) hinvalid]
    rfl

/-- Settles O4: a valid head is latched, and the replies sent after it leave the submission side and the head as they are; an
invalid one is `badDoorbell`. -/
theorem completionHeadDoorbell : Obligations.CompletionHeadDoorbell := by
  unfold Obligations.CompletionHeadDoorbell
  rintro f off size data s q x hserved hdoor hqueue T rfl
  rw [exec_cqHeadDoorbell, served_bar2Write data.toNat hserved hdoor hqueue, if_pos rfl]
  refine ⟨fun hok => ?_, fun hbad => ?_⟩
  · have hsends := writeHead_valid (s := touchPort s f.port.val) (f := f) (q := q) ((headValid_iff ..).2 hok)
    obtain ⟨y, hy, hinner⟩ := hsends.ring_inner (latch_queue ..)
    obtain ⟨hhead, htail, hsqHead, he, hstate, hdberr⟩ := inner_eq_fields hinner
    exact ⟨_, y, rfl, hy, hhead, htail, hsqHead, he, hstate, hdberr,
      (untouched_touchPort ..).trans ((untouched_latch ..).trans hsends.untouched)⟩
  · have hinvalid : ¬ headValid x (data.toNat % 2 ^ 32) = true := by
      rw [headValid_iff]
      omega
    rw [writeHead_invalid ((touchPort_queue ..).trans hqueue) hinvalid]
    rfl

end Sys2Proof.Machine
end

section
/-!
PROOF. The commands that end a plan or a stream, and the one that makes a plan: PLAN_LOAD, PLAN_UNLOAD and STREAM_CLOSE at their
turn (R230, R299, R303, R308, R327), and the two statements about them.
-/

namespace Sys2Proof.Machine

variable {c : CmdRef} {s : State} {d : Cmd} {n : Nat} {p : Plot}

/-! ## PLAN_LOAD -/

theorem exec_planLoad_turn (hturn : Turn s c 0x20 d) (hplot : InPlot s d n p) :
    exec (.planLoad c) s = .next (endCmd
      (s.setPlot n { p with
        plans := mput p.plans d.handle (planOf d)
        tensors := workTensors d.stampAt (declsOf d.payload) p.tensors })
      d (Reply.ok (toLe 4 (planOf d).held) [])) := by
  show execPlanLoad c s = _
  rw [execPlanLoad, turn_facts hturn, turn_commit hturn, plotFor_in hplot]

/-! ## PLAN_UNLOAD -/

/-- What is left of a plot when a plan that it holds is unloaded (R303). -/
theorem unloadPlan_of_get {q : Plan} {h : Nat} (hplan : mget p.plans h = some q) :
    unloadPlan p h = { p with
      plans := mdel p.plans h
      tensors := p.tensors.filter fun t => !((declsOf q.img).any fun e => e.role == 1 && e.handle == t.1) } := by
  have hown (a : Nat) : (((declsOf q.img).filter fun e => e.role == 1).map (·.handle)).contains a =
      (declsOf q.img).any fun e => e.role == 1 && e.handle == a := by
    rw [← List.any_beq', List.any_map, List.any_filter]
    rfl
  rw [unloadPlan, hplan]
  simp only [hown]

theorem exec_planUnload_waits (hturn : Turn s c 0x21 d) (hplot : InPlot s d n p) (hnamed : nameFree s d = false) :
    exec (.planUnload c) s = .next s := by
  show execPlanUnload c s = _
  simp only [execPlanUnload, turn_facts hturn, plotFor_in hplot, hnamed, Bool.not_false, if_true]

theorem exec_planUnload_bound (hturn : Turn s c 0x21 d) (hplot : InPlot s d n p) (hfree : nameFree s d = true)
    (hbound : (p.streams.any fun x => x.2.plan == d.handle) = true) :
    exec (.planUnload c) s = .next (endCmd s d (Reply.badParam 28)) := by
  show execPlanUnload c s = _
  simp only [execPlanUnload, turn_facts hturn, plotFor_in hplot, hfree, hbound, Bool.not_true, Bool.false_eq_true, if_false,
    if_true, turn_commit hturn, failCmd]

theorem exec_planUnload_unbound (hturn : Turn s c 0x21 d) (hplot : InPlot s d n p) (hfree : nameFree s d = true)
    (hunbound : (p.streams.any fun x => x.2.plan == d.handle) = false) {q : Plan} (hplan : mget p.plans d.handle = some q) :
    exec (.planUnload c) s = .next
      (endCmd ((keepFills (dropPlan s p d.handle) n q).setPlot n (unloadPlan p d.handle)) d (Reply.ok [] [])) := by
  show execPlanUnload c s = _
  simp only [execPlanUnload, turn_facts hturn, plotFor_in hplot, hfree, hunbound, hplan, Bool.not_true, Bool.false_eq_true,
    if_false, turn_commit hturn]

/-! ## STREAM_CLOSE -/

/-- A stream command at its turn, with no earlier command of its stream left, does its work (R34). -/
theorem streamAt_turn {op : Nat} (hturn : Turn s c op d) (hplot : InPlot s d n p) (hstream : streamTurn s d = true)
    (k : Cmd → Nat → Plot → State) : streamAt c op s k = k d n p := by
  simp only [streamAt, turn_facts hturn, plotFor_in hplot, hstream, if_true]

/-- A stream of a plot that becomes CLOSED leaves that plot and takes the slots that commands hold for it (R327). -/
theorem closeStream_of_get (hplot : mget s.plots n = some p) (st : Nat) :
    closeStream s n st = { s.setPlot n { p with streams := mdel p.streams st } with
      cmds := s.cmds.map fun e =>
        if e.plot == some n && e.namesStream && e.stream == st then { e with shadowSlots := 0 } else e } := by
  rw [closeStream, modPlot_eq hplot]

/-- STREAM_CLOSE of a stream that is open: it waits for a move, refuses to lose pending positions, or closes (R308, R327). -/
theorem exec_streamClose_turn {x : Stream} (hturn : Turn s c 0x35 d) (hplot : InPlot s d n p) (hstream : streamTurn s d = true)
    (hopen : mget p.streams d.stream = some x) :
    exec (.streamClose c) s = .next (
      if x.moving then s
      else if (headOf x.img).pend ≠ 0 ∧ byteAt d.params 0 = 0 then endCmd s d (Reply.badParam 32)
      else endCmd (closeStream s n d.stream) d (Reply.ok [] [])) := by
  show execStreamClose c s = _
  simp only [execStreamClose, streamAt_turn hturn hplot hstream, hopen, turn_commit hturn, failCmd, Bool.and_eq_true,
    bne_iff_ne, decide_eq_true_eq]

/-! ## The statements -/

/-- Settles O27: PLAN_LOAD commits `planOf` and its working tensors, which are new at ROLE 1 handles only; PLAN_UNLOAD has one
equation for each of its three occasions. -/
theorem planLoadAndUnload : Obligations.PlanLoadAndUnload := by
  unfold Obligations.PlanLoadAndUnload
  refine ⟨fun c s d n p hturn hplot => ?_, fun c s d n p hturn hplot => ⟨?waits, ?bound, ?unbound⟩⟩
  · exact ⟨planOf d, _, rfl, rfl, rfl, rfl, rfl, fun h hother => workTensors_get _ _ _ h hother,
      done_endCmd _ _ _ _ _ (exec_planLoad_turn hturn hplot) rfl⟩
  case waits => exact exec_planUnload_waits hturn hplot
  case bound => exact fun hfree hbound => endsAs_endCmd _ _ _ _ (exec_planUnload_bound hturn hplot hfree hbound)
  case unbound =>
    intro hfree hunbound q hplan
    rw [← unloadPlan_of_get hplan]
    exact done_endCmd _ _ _ _ _ (exec_planUnload_unbound hturn hplot hfree hunbound hplan) rfl

/-- Settles O31: the three branches of STREAM_CLOSE, the last of them through what `closeStream` leaves. -/
theorem streamCloseReleases : Obligations.StreamCloseReleases := by
  unfold Obligations.StreamCloseReleases
  intro c s d n p x hturn hplot hstream hopen
  have hexec := exec_streamClose_turn hturn hplot hstream hopen
  refine ⟨fun hmoving => ?waits, fun hstill hpend hkeep => ?refused, fun hstill hmay => ?closed⟩
  case waits => rw [hexec, if_pos hmoving]
  all_goals rw [if_neg (Bool.eq_false_iff.1 hstill)] at hexec
  case refused =>
    rw [if_pos ⟨hpend, hkeep⟩] at hexec
    exact endsAs_endCmd _ _ _ _ hexec
  case closed =>
    rw [if_neg hmay, closeStream_of_get hplot.2] at hexec
    exact done_endCmd _ _ _ _ _ hexec rfl

end Sys2Proof.Machine
end

section
/-!
PROOF. The fuses and the NVS over every step (R422 to R427, R434, R435): which commands leave them as they are, that no command
takes them back, and that the counter of exports stays within its reservation.
-/

namespace Sys2Proof.Machine

open Sys2Proof

/-! ## Commands that leave the stores and the counter of exports alone -/

/-- The commands that reset the device, write its registers or stores, or use the counter of exports. -/
def movesStores : Instr → Bool
  | .qAdminEnable .. | .qAdminDisable .. | .qAdminResume .. | .errLogPop .. | .errDevLogPop .. | .ldgResetCold ..
    | .pwrWake .. | .p2enClear .. | .pwrEclkTgtWrite .. | .gkCtlWrite .. | .newNonce .. | .obsEnter .. | .dbgClose ..
    | .registerWrite .. | .streamExport .. | .hbmReady | .powerOnReset .. | .coldReset | .ready .. | .pwrDnN
    | .provision .. | .field .. | .authority .. | .tenantEraseDone | .nvsReservationWrite .. | .pldmColdResetEffecter ..
    | .updateComponent .. | .powerGood .. | .mainSupplyRemoval | .pwrDnNDeassert => true
  | _ => false

theorem exec_keeps {c : Instr} {s t : State} (hc : movesStores c = false) (h : exec c s = .next t) : Keeps s t := by
  cases c with
  | sqTailDoorbell a0 a1 a2 a3 => exact execSqTailDoorbell_keeps a0 a1 a2 a3 s t h
  | cqHeadDoorbell a0 a1 a2 a3 => exact execCqHeadDoorbell_keeps a0 a1 a2 a3 s t h
  | adminDeletionDone a0 => exact execAdminDeletionDone_keeps a0 s t h
  | msixUnmask a0 a1 => exact execMsixUnmask_keeps a0 a1 s t h
  | packetFetch a0 a1 a2 => exact execPacketFetch_keeps a0 a1 a2 s t h
  | okDuplicate a0 a1 => exact execOkDuplicate_keeps a0 a1 s t h
  | packetAccept a0 a1 => exact execPacketAccept_keeps a0 a1 s t h
  | irqCoalesceTimeout a0 a1 => exact execIrqCoalesceTimeout_keeps a0 a1 s t h
  | nop a0 => exact execNop_keeps a0 s t h
  | fence a0 => exact execFence_keeps a0 s t h
  | abort a0 => exact execAbort_keeps a0 s t h
  | query a0 => exact execQuery_keeps a0 s t h
  | tensorPut a0 => exact execTensorPut_keeps a0 s t h
  | tensorGet a0 => exact execTensorGet_keeps a0 s t h
  | tensorFree a0 => exact execTensorFree_keeps a0 s t h
  | tensorMove a0 => exact execTensorMove_keeps a0 s t h
  | tableWrite a0 => exact execTableWrite_keeps a0 s t h
  | descInvalidate a0 => exact execDescInvalidate_keeps a0 s t h
  | planLoad a0 => exact execPlanLoad_keeps a0 s t h
  | planUnload a0 => exact execPlanUnload_keeps a0 s t h
  | planRun a0 => exact execPlanRun_keeps a0 s t h
  | streamOpen a0 => exact execStreamOpen_keeps a0 s t h
  | streamFeed a0 => exact execStreamFeed_keeps a0 s t h
  | streamFlush a0 => exact execStreamFlush_keeps a0 s t h
  | streamPause a0 => exact execStreamPause_keeps a0 s t h
  | streamResume a0 => exact execStreamResume_keeps a0 s t h
  | streamClose a0 => exact execStreamClose_keeps a0 s t h
  | streamImport a0 => exact execStreamImport_keeps a0 s t h
  | moveCommit a0 a1 a2 => exact execMoveCommit_keeps a0 a1 a2 s t h
  | opMatmul a0 => exact execOpMatmul_keeps a0 s t h
  | opVector a0 => exact execOpVector_keeps a0 s t h
  | opScan a0 => exact execOpScan_keeps a0 s t h
  | opSelect a0 => exact execOpSelect_keeps a0 s t h
  | opGather a0 => exact execOpGather_keeps a0 s t h
  | opConvert a0 => exact execOpConvert_keeps a0 s t h
  | opRmsnorm a0 => exact execOpRmsnorm_keeps a0 s t h
  | scalarSet a0 => exact execScalarSet_keeps a0 s t h
  | queueCreate a0 => exact execQueueCreate_keeps a0 s t h
  | queueDelete a0 => exact execQueueDelete_keeps a0 s t h
  | queueResume a0 => exact execQueueResume_keeps a0 s t h
  | keySet a0 => exact execKeySet_keeps a0 s t h
  | plotConfig a0 => exact execPlotConfig_keeps a0 s t h
  | plotRelease a0 => exact execPlotRelease_keeps a0 s t h
  | pageZeroingDone a0 => exact execPageZeroingDone_keeps a0 s t h
  | wfuPrefetchIssue a0 => exact execWfuPrefetchIssue_keeps a0 s t h
  | wfuEntryComplete a0 a1 => exact execWfuEntryComplete_keeps a0 a1 s t h
  | maPass a0 a1 => exact execMaPass_keeps a0 a1 s t h
  | tagAcquire a0 a1 a2 a3 => exact execTagAcquire_keeps a0 a1 a2 a3 s t h
  | descriptorBarrier a0 a1 => exact execDescriptorBarrier_keeps a0 a1 s t h
  | scratchpadAccess a0 a1 a2 a3 => exact execScratchpadAccess_keeps a0 a1 a2 a3 s t h
  | slotTimeout a0 => exact execSlotTimeout_keeps a0 s t h
  | scrubAccess a0 a1 a2 => exact execScrubAccess_keeps a0 a1 a2 s t h
  | spPatrolSweep a0 => exact execSpPatrolSweep_keeps a0 s t h
  | ghPatrolSweep a0 => exact execGhPatrolSweep_keeps a0 s t h
  | hbmPatrolSweep a0 a1 => exact execHbmPatrolSweep_keeps a0 a1 s t h
  | lodgePatrolSweep => exact execLodgePatrolSweep_keeps s t h
  | opportunisticSlice a0 => exact execOpportunisticSlice_keeps a0 s t h
  | forcedSliceDue a0 => exact execForcedSliceDue_keeps a0 s t h
  | forcedSliceStart a0 => exact execForcedSliceStart_keeps a0 s t h
  | sliceComplete a0 a1 => exact execSliceComplete_keeps a0 a1 s t h
  | hbmCalibration a0 a1 a2 => exact execHbmCalibration_keeps a0 a1 a2 s t h
  | calibrationWindowTimeout a0 a1 a2 => exact execCalibrationWindowTimeout_keeps a0 a1 a2 s t h
  | fullStateCompare a0 a1 => exact execFullStateCompare_keeps a0 a1 s t h
  | latentRestartTimeout => exact execLatentRestartTimeout_keeps s t h
  | datapathFault a0 a1 a2 a3 a4 a5 => exact execDatapathFault_keeps a0 a1 a2 a3 a4 a5 s t h
  | routeLost a0 a1 => exact execRouteLost_keeps a0 a1 s t h
  | ghLockstep a0 => exact execGhLockstep_keeps a0 s t h
  | gatehouseRestartDone a0 => exact execGatehouseRestartDone_keeps a0 s t h
  | clock a0 => exact execClock_keeps a0 s t h
  | hbmRelockDone a0 a1 => exact execHbmRelockDone_keeps a0 a1 s t h
  | rail a0 => exact execRail_keeps a0 s t h
  | engineGate a0 => exact execEngineGate_keeps a0 s t h
  | engineWakeDone a0 => exact execEngineWakeDone_keeps a0 s t h
  | eclkRelockDone a0 => exact execEclkRelockDone_keeps a0 s t h
  | p2Entry => exact execP2Entry_keeps s t h
  | limitControlPeriod a0 a1 => exact execLimitControlPeriod_keeps a0 a1 s t h
  | overcurrentAlarm => exact execOvercurrentAlarm_keeps s t h
  | thermalHold a0 => exact execThermalHold_keeps a0 s t h
  | thermalRelease a0 => exact execThermalRelease_keeps a0 s t h
  | thermalTrip a0 => exact execThermalTrip_keeps a0 s t h
  | functionLevelReset a0 => exact execFunctionLevelReset_keeps a0 s t h
  | portReset a0 a1 => exact execPortReset_keeps a0 a1 s t h
  | vfRemoval a0 a1 a2 => exact execVfRemoval_keeps a0 a1 a2 s t h
  | d3hotEntry a0 a1 => exact execD3hotEntry_keeps a0 a1 s t h
  | d0Return a0 => exact execD0Return_keeps a0 s t h
  | aspmL1Request a0 => exact execAspmL1Request_keeps a0 s t h
  | configReady => exact execConfigReady_keeps s t h
  | powerGoodTimeout a0 => exact execPowerGoodTimeout_keeps a0 s t h
  | telemetryRefresh => exact execTelemetryRefresh_keeps s t h
  | pcpChannel a0 a1 => exact execPcpChannel_keeps a0 a1 s t h
  | channelReset a0 a1 => exact execChannelReset_keeps a0 a1 s t h
  | mctpControl a0 a1 => exact execMctpControl_keeps a0 a1 s t h
  | retire a0 a1 => exact execRetire_keeps a0 a1 s t h
  | nonce a0 => exact execNonce_keeps a0 s t h
  | observe a0 a1 => exact execObserve_keeps a0 a1 s t h
  | invasive a0 a1 => exact execInvasive_keeps a0 a1 s t h
  | close a0 => exact execClose_keeps a0 s t h
  | dbgNonce => exact execDbgNonce_keeps s t h
  | dbgAuth a0 => exact execDbgAuth_keeps a0 s t h
  | testLogicReset => exact execTestLogicReset_keeps s t h
  | nonceExpiry => exact execNonceExpiry_keeps s t h
  | getVersion a0 => exact execGetVersion_keeps a0 s t h
  | getCapabilities a0 => exact execGetCapabilities_keeps a0 s t h
  | negotiateAlgorithms a0 => exact execNegotiateAlgorithms_keeps a0 s t h
  | getDigests a0 => exact execGetDigests_keeps a0 s t h
  | getCertificate a0 a1 a2 a3 => exact execGetCertificate_keeps a0 a1 a2 a3 s t h
  | challenge a0 a1 a2 => exact execChallenge_keeps a0 a1 a2 s t h
  | getMeasurements a0 a1 a2 => exact execGetMeasurements_keeps a0 a1 a2 s t h
  | keyExchange a0 a1 a2 => exact execKeyExchange_keeps a0 a1 a2 s t h
  | finish a0 a1 a2 a3 a4 => exact execFinish_keeps a0 a1 a2 a3 a4 s t h
  | heartbeat a0 a1 => exact execHeartbeat_keeps a0 a1 s t h
  | heartbeatTimeout a0 a1 => exact execHeartbeatTimeout_keeps a0 a1 s t h
  | keyUpdate a0 a1 a2 a3 => exact execKeyUpdate_keeps a0 a1 a2 a3 s t h
  | endSession a0 a1 => exact execEndSession_keeps a0 a1 s t h
  | spdmUnsupportedRequest a0 a1 => exact execSpdmUnsupportedRequest_keeps a0 a1 s t h
  | pldmSensorRead a0 a1 => exact execPldmSensorRead_keeps a0 a1 s t h
  | pldmEffecterWrite a0 a1 a2 => exact execPldmEffecterWrite_keeps a0 a1 a2 s t h
  | pldmP2enEffecter a0 a1 => exact execPldmP2enEffecter_keeps a0 a1 s t h
  | setEventReceiver a0 a1 => exact execSetEventReceiver_keeps a0 a1 s t h
  | pldmDiscovery a0 a1 => exact execPldmDiscovery_keeps a0 a1 s t h
  | requestUpdate a0 => exact execRequestUpdate_keeps a0 s t h
  | verifyComplete a0 => exact execVerifyComplete_keeps a0 s t h
  | fclkRelockDone => exact execFclkRelockDone_keeps s t h
  | fclkStart => exact execFclkStart_keeps s t h
  | hbmTrainingDone a0 a1 => exact execHbmTrainingDone_keeps a0 a1 s t h
  | linkUp a0 => exact execLinkUp_keeps a0 s t h
  | flrComplete a0 => exact execFlrComplete_keeps a0 s t h
  | completionTimeout a0 a1 a2 => exact execCompletionTimeout_keeps a0 a1 a2 s t h
  | unsupportedRequest a0 => exact execUnsupportedRequest_keeps a0 s t h
  | configurationWrite a0 a1 a2 => exact execConfigurationWrite_keeps a0 a1 a2 s t h
  | linkReturnsToL0 a0 => exact execLinkReturnsToL0_keeps a0 s t h
  | supplyReturn => exact execSupplyReturn_keeps s t h
  | overcurrentAlarmClear => exact execOvercurrentAlarmClear_keeps s t h
  | sensorThresholdCrossing a0 a1 => exact execSensorThresholdCrossing_keeps a0 a1 s t h
  | lodgeLogicMismatch => exact execLodgeLogicMismatch_keeps s t h
  | debugAccess a0 => exact execDebugAccess_keeps a0 s t h
  | extest a0 => exact execExtest_keeps a0 s t h
  | unknownVendorSubtype a0 => exact execUnknownVendorSubtype_keeps a0 s t h
  | _ => nomatch hc

/-! ## Register writes and resets -/

theorem mmioWrite_fwd (w : MmioWrite) (s : State) : Fwd s (mmioWrite w s) := by
  unfold mmioWrite
  split
  · exact .of ⟨rfl, rfl⟩
  · split
    · exact bar0_fwd ..
    · exact .of (bar2Write_keeps ..)
    · exact .of (bar4Write_keeps ..)

theorem mmioWrite_same (w : MmioWrite) (s : State) : SameStores s (mmioWrite w s) := by
  unfold mmioWrite
  split
  · rfl
  · split
    · exact bar0_same ..
    · exact .of (bar2Write_keeps ..)
    · exact .of (bar4Write_keeps ..)

theorem effecterAt_fwd (s : State) (ep : Endpoint) (cmd : Nat) (k : State → State) (h : Fwd s (k s)) :
    Fwd s (effecterAt s ep cmd k) := by
  unfold effecterAt
  repeat' split
  · exact .of ⟨rfl, rfl⟩
  · exact h
  · exact .of (pldmReply_keeps ..)

theorem effecterAt_same (s : State) (ep : Endpoint) (cmd : Nat) (k : State → State) (h : SameStores s (k s)) :
    SameStores s (effecterAt s ep cmd k) := by
  unfold effecterAt
  repeat' split
  · rfl
  · exact h
  · exact .of (pldmReply_keeps ..)

theorem updateAt_fwd (s : State) (ep : Endpoint) (cmd : Nat) (k : State → State) (h : Fwd s (k s)) :
    Fwd s (updateAt s ep cmd k) := by
  unfold updateAt
  repeat' split
  · exact .of ⟨rfl, rfl⟩
  · exact h
  · exact .of (pldmReply_keeps ..)

theorem streamAt_fwd (c : CmdRef) (op : Nat) (s : State) (k : Cmd → Nat → Plot → State) (h : ∀ d n p, Fwd s (k d n p)) :
    Fwd s (streamAt c op s k) := by
  refine atTurn_fwd _ _ _ _ fun d => ?_
  split
  · split
    · exact h ..
    · exact .of ⟨rfl, rfl⟩
  · exact .of ⟨rfl, rfl⟩

theorem streamAt_same (c : CmdRef) (op : Nat) (s : State) (k : Cmd → Nat → Plot → State) (h : ∀ d n p, SameStores s (k d n p)) :
    SameStores s (streamAt c op s k) := by
  refine atTurn_same _ _ _ _ fun d => ?_
  split
  · split
    · exact h ..
    · rfl
  · rfl

/-- A firmware update leaves every fuse and record but the slot that it writes (R470). -/
theorem updateComponent_fwd (ep : Endpoint) (image : List Byte) {s t : State}
    (h : execUpdateComponent ep image s = .next t) : Fwd s t := by
  injection h with h
  subst h
  refine updateAt_fwd _ _ _ _ ?_
  split
  · split
    · exact .stores (setSlot_fwd ..) rfl
    · exact .stores (setSlot_fwd ..) rfl
  · exact .of (pldmReply_keeps ..)

/-- The loss of the supply: a reservation write is torn, and then every register is lost (R435, R492). -/
theorem mainSupplyRemoval_fwd {s t : State} (h : execMainSupplyRemoval s = .next t) : Fwd s t := by
  injection h with h
  subst h
  exact guard_fwd ((tearNvs_fwd s).trans ⟨.refl _, fun _ => Nat.zero_le _⟩)

/-- A new level of the pins moves nothing. -/
theorem setPins_fwd (s : State) (p : Pins) : Fwd s { s with pins := p } := .of ⟨rfl, rfl⟩

theorem pwrDnN_fwd {s t : State} (h : execPwrDnN s = .next t) : Fwd s t := by
  injection h with h
  subst h
  exact guard_fwd (((finishNvs_fwd s).trans (.of (dropLinks_keeps _))).trans (setPins_fwd ..))

theorem streamExport_fwd (c : CmdRef) {s t : State} (h : execStreamExport c s = .next t) : Fwd s t := by
  injection h with h
  subst h
  refine streamAt_fwd _ _ _ _ fun d n p => ?_
  split
  · exact .of (wrongState_keeps ..)
  · split
    · exact .of ⟨rfl, rfl⟩
    · exact exportAt_fwd ..

theorem streamExport_same (c : CmdRef) {s t : State} (h : execStreamExport c s = .next t) : SameStores s t := by
  injection h with h
  subst h
  refine streamAt_same _ _ _ _ fun d n p => ?_
  split
  · exact .of (wrongState_keeps ..)
  · split
    · rfl
    · exact exportAt_same ..

/-! ## Every command -/

/-- No command takes back what the stores record, or moves the counter of exports past its reservation. -/
theorem exec_fwd {c : Instr} {s t : State} (h : exec c s = .next t) : Fwd s t := by
  cases c
  case qAdminEnable | qAdminDisable | qAdminResume | errLogPop | errDevLogPop | ldgResetCold | pwrWake | p2enClear
      | pwrEclkTgtWrite | gkCtlWrite | newNonce | obsEnter | dbgClose =>
    injection h with h
    subst h
    exact served_fwd _ _ _ fun _ => bar0_fwd ..
  case registerWrite w =>
    injection h with h
    subst h
    exact served_fwd _ _ _ fun _ => mmioWrite_fwd ..
  case powerOnReset | coldReset | pwrDnNDeassert =>
    injection h with h
    subst h
    exact guard_fwd (resetState_fwd ..)
  case pldmColdResetEffecter ep v =>
    injection h with h
    subst h
    refine effecterAt_fwd _ _ _ _ ?_
    split
    · exact (Fwd.of (pldmReply_keeps s ep 2 0x39 0 [])).trans (guard_fwd (resetState_fwd ..))
    · exact .of (pldmReply_keeps ..)
  case streamExport c => exact streamExport_fwd c h
  case hbmReady =>
    injection h with h
    subst h
    exact (Fwd.of (hbmReady_keeps s)).trans (runDeferred_fwd _)
  case ready r =>
    injection h with h
    subst h
    exact guard_fwd (readyState_fwd ..)
  case pwrDnN => exact pwrDnN_fwd h
  case mainSupplyRemoval => exact mainSupplyRemoval_fwd h
  case provision ep m =>
    injection h with h
    subst h
    exact secAt_fwd _ _ _ _ (awakeAt_fwd _ _ _ (provision_fwd ..))
  case field ep m =>
    injection h with h
    subst h
    exact secAt_fwd _ _ _ _ (awakeAt_fwd _ _ _ (field_fwd ..))
  case authority ep tok =>
    injection h with h
    subst h
    exact secAt_fwd _ _ _ _ (awakeAt_fwd _ _ _ (auth_fwd ..))
  case tenantEraseDone =>
    injection h with h
    subst h
    exact tenant_fwd s
  case nvsReservationWrite ok =>
    injection h with h
    subst h
    exact guard_fwd (nvsWrite_fwd ..)
  case updateComponent ep image => exact updateComponent_fwd ep image h
  case powerGood r b =>
    injection h with h
    subst h
    exact powerGood_fwd ..
  all_goals exact .of (exec_keeps rfl h)

/-- A command that is none of the ten of `writesStores` leaves the stores as they are. -/
theorem exec_sameStores {c : Instr} {s t : State} (h : exec c s = .next t) (hc : writesStores c = false) : SameStores s t := by
  cases c
  case qAdminEnable | qAdminDisable | qAdminResume | errLogPop | errDevLogPop | ldgResetCold | pwrWake | p2enClear
      | pwrEclkTgtWrite | gkCtlWrite | newNonce | obsEnter | dbgClose =>
    injection h with h
    subst h
    exact served_same _ _ _ fun _ => bar0_same ..
  case registerWrite w =>
    injection h with h
    subst h
    exact served_same _ _ _ fun _ => mmioWrite_same ..
  case powerOnReset | coldReset | pwrDnNDeassert =>
    injection h with h
    subst h
    exact guard_same rfl
  case pldmColdResetEffecter ep v =>
    injection h with h
    subst h
    refine effecterAt_same _ _ _ _ ?_
    split
    · exact (SameStores.of (pldmReply_keeps s ep 2 0x39 0 [])).trans (guard_same rfl)
    · exact .of (pldmReply_keeps ..)
  case streamExport c => exact streamExport_same c h
  case powerGood r b =>
    injection h with h
    subst h
    exact powerGood_same ..
  case hbmReady | ready | pwrDnN | mainSupplyRemoval | provision | field | authority | tenantEraseDone | nvsReservationWrite
      | updateComponent => nomatch hc
  all_goals exact .of (exec_keeps rfl h)

/-! ## Every step -/

theorem step_fwd {s t : State} (h : step s = .next t) : Fwd s t := by
  unfold step at h
  split at h
  · next c rest _ => exact Fwd.trans (t := { s with pending := rest }) (.of ⟨rfl, rfl⟩) (exec_fwd h)
  · injection h with h
    subst h
    exact .of (tick_keeps s)

/-! ## The statements -/

/-- Settles O57: `step_fwd` keeps a reserved counter of exports reserved. -/
theorem exportCounterStaysReserved : Obligations.ExportCounterStaysReserved := by
  unfold Obligations.ExportCounterStaysReserved
  exact fun s t hreserved hstep => (step_fwd hstep).2 hreserved

/-- Settles O58: `step_fwd` moves the stores forward only. -/
theorem fusesOnlyMoveForward : Obligations.FusesOnlyMoveForward := by
  unfold Obligations.FusesOnlyMoveForward
  exact fun s t hstep => (step_fwd hstep).1

/-- Settles O59: of the commands that may move the stores or the counter, all but ten leave the stores as they are. -/
theorem onlyNamedCommandsWriteTheStores : Obligations.OnlyNamedCommandsWriteTheStores := by
  unfold Obligations.OnlyNamedCommandsWriteTheStores
  exact fun c s t hexec hc => exec_sameStores hexec hc

end Sys2Proof.Machine
end

section
/-!
PROOF. The commands of the links, of limiting and wakes, of the Lodge's messages and of SPDM leave every plot, every command in
flight and every scratchpad as they are (R283, R286, R388, R400, R406 to R418, R428 to R431, R437 to R439, R455 to R470).
-/

namespace Sys2Proof.Machine

open Sys2Proof

/-! ## Engines, stacks and the keeper -/

theorem tenants_startSlice (s : State) (e : Nat) (k : SliceKind) : TenantsKept s (startSlice s e k) := by
  have hslice : TenantsKept s (s.modEng e fun x =>
      { x with slice := some ⟨k, s.lclk, 0⟩, power := .running, relock := none, eclk := s.sliceClock }) :=
    tenants_modEng _ _ _ rfl
  unfold startSlice
  split
  · exact hslice
  · exact hslice.trans (tenants_rest rfl rfl rfl)

theorem tenants_calibrate (i ch : Nat) (valid : Bool) (s : State) : TenantsKept s (calibrate i ch valid s) := by
  unfold calibrate
  split <;> exact tenants_rest rfl rfl rfl

theorem tenants_engineWakeDone (e : Nat) (s : State) : TenantsKept s (engineWakeDone e s) := by
  unfold engineWakeDone
  split
  · exact tenants_guard (tenants_modEng _ _ _ rfl)
  · exact .refl _

theorem tenants_eclkRelockDone (e : Nat) (s : State) : TenantsKept s (eclkRelockDone e s) := by
  unfold eclkRelockDone
  split
  · exact tenants_guard (tenants_modEng _ _ _ rfl)
  · exact .refl _

/-- The end of a wake sets the idle times of the engines and nothing else of them; it adds and answers no deferred request. -/
theorem hbmReady_tenants (s : State) : TenantsKept s (hbmReady s) ∧ (hbmReady s).secure = s.secure := by
  unfold hbmReady
  split
  · split
    · exact ⟨⟨rfl, rfl, (tenants_mapEngines s (fun x => { x with idleSince := s.lclk }) fun _ => rfl).spads⟩, rfl⟩
    · exact ⟨.refl _, rfl⟩
  · exact ⟨.refl _, rfl⟩

theorem tenants_runDeferred_nil {s : State} (h : s.secure.deferred = []) : TenantsKept s (runDeferred s) := by
  unfold runDeferred
  rw [h]
  exact tenants_guard (tenants_rest rfl rfl rfl)

theorem tenants_limitPeriod (power temp : Nat) (s : State) : TenantsKept s (limitPeriod power temp s) := by
  unfold limitPeriod
  refine tenants_guard (TenantsKept.trans ?_ (tenants_retargetAll _))
  exact tenants_rest rfl rfl rfl

/-! ## Messages of the Lodge -/

theorem tenants_setP2en (s : State) (b : Bool) : TenantsKept s (setP2en s b) := by
  cases b
  · exact TenantsKept.trans (t := { s with power := { s.power with p2en := false }, p2Cond := none }) (tenants_rest rfl rfl rfl)
      (tenants_wakeFromP2 _)
  · exact tenants_rest rfl rfl rfl

theorem tenants_observeNow (ep : Endpoint) (tok : List Byte) (s : State) : TenantsKept s (observeNow ep tok s) := by
  have hopen (u : State) : TenantsKept u (accepted (openObserve u) ep 0x11) := tenants_rest rfl rfl rfl
  have hrefuse (u : State) : TenantsKept u (refused u ep 0x11) := tenants_secAnswer ..
  unfold observeNow
  split
  · split
    · exact hopen s
    · exact hrefuse s
  · refine (tenants_present s (some ep) 1 tok).trans ?_
    dsimp only
    split
    · exact hopen _
    · exact hrefuse _

/-- A PROVISION whose fuses all read back writes the stores and answers; no record tells of it (R425). -/
theorem tenants_provisionNow (ep : Endpoint) (body : List Byte) (s : State) :
    TenantsKept s (provisionNow ep body ⟨(true, true), true⟩ s) := by
  unfold provisionNow
  split
  · exact tenants_secAnswer ..
  · next a _ =>
    split
    · next h =>
      have hblank : s.stores.life = .blank := by simp only [Bool.and_eq_true, beq_iff_eq] at h; exact h.1.1.1
      have hburn : (({ s.stores with odkHash := burnHash s.stores.odkHash body true s.freeIx }.setAuthority a).burn
          .provisioned (true, true)).life = .provisioned := burn_provisioned hblank
      simp only [if_true, hburn, beq_self_eq_true]
      exact tenants_rest rfl rfl rfl
    · exact tenants_secAnswer ..

/-! ## SPDM -/

theorem tenants_negotiated (s : State) (r : Transport) (k : State → State) (h : TenantsKept s (k s)) :
    TenantsKept s (negotiated s r k) := tenants_needs _ _ _ _ h

theorem tenants_challenge (r : Transport) (slot : Nat) (nonce : List Byte) (s : State) :
    TenantsKept s (challenge r slot nonce s) := by
  unfold challenge
  split
  · exact (tenants_signed ..).trans (tenants_spdmSend ..)
  · exact tenants_spdmSend ..

theorem tenants_getMeasurements (r : Transport) (index : Nat) (nonce : List Byte) (s : State) :
    TenantsKept s (getMeasurements r index nonce s) := by
  unfold getMeasurements
  split
  · exact tenants_spdmSend ..
  · exact (tenants_signed ..).trans (tenants_spdmSend ..)

theorem tenants_keyExchange (r : Transport) (reqId beat : Nat) (s : State) : TenantsKept s (keyExchange r reqId beat s) := by
  unfold keyExchange
  split
  · exact tenants_spdmSend ..
  · exact tenants_rest rfl rfl rfl

theorem tenants_finishSession (r : Transport) (id : Nat) (ok : Bool) (key iv : List Byte) (s : State) :
    TenantsKept s (finishSession r id ok key iv s) := by
  refine tenants_inSession _ _ _ _ _ fun n x => ?_
  split <;> exact tenants_rest rfl rfl rfl

/-! ## Every command of the list -/

/-- Each of these commands, but for the end of a wake, leaves what tenants hold. -/
theorem exec_tenantsKept {c : Instr} {s t : State} (hc : managementOnly c = true) (hwake : c ≠ .hbmReady)
    (h : exec c s = .next t) : TenantsKept s t := by
  cases c
  case hbmReady => exact absurd rfl hwake
  case provision ep m =>
    injection h with h
    subst h
    have hburn : m.burn = ⟨(true, true), true⟩ := by
      simp only [managementOnly, Bool.and_eq_true, beq_iff_eq] at hc
      exact congrArg₂ Burn.mk hc.2 hc.1
    rw [hburn]
    exact tenants_secAt _ _ _ _ (tenants_awakeAt _ _ _ (tenants_provisionNow ..))
  case msixUnmask f v =>
    injection h with h
    subst h
    exact tenants_served _ _ _ fun u => tenants_guard (untouched_setVec ..).tenants
  case opportunisticSlice e =>
    injection h with h
    subst h
    exact tenants_guard (tenants_startSlice ..)
  case forcedSliceDue e =>
    injection h with h
    subst h
    exact tenants_guard (tenants_modEng s e.val (fun x => { x with overdue := true }) rfl)
  case hbmCalibration | calibrationWindowTimeout =>
    injection h with h
    subst h
    exact tenants_guard (tenants_calibrate ..)
  case engineWakeDone e =>
    injection h with h
    subst h
    exact tenants_engineWakeDone ..
  case eclkRelockDone e =>
    injection h with h
    subst h
    exact tenants_eclkRelockDone ..
  case limitControlPeriod p v =>
    injection h with h
    subst h
    exact tenants_limitPeriod ..
  case adminDeletionDone | flrComplete | overcurrentAlarm | overcurrentAlarmClear | thermalHold | thermalRelease | aspmL1Request
      | linkUp | linkReturnsToL0 | unsupportedRequest | lodgePatrolSweep | mctpControl | unknownVendorSubtype | dbgNonce
      | nonceExpiry | extest | spdmUnsupportedRequest =>
    injection h with h
    subst h
    exact tenants_guard (tenants_rest rfl rfl rfl)
  case sensorThresholdCrossing n v =>
    injection h with h
    subst h
    refine tenants_guard (TenantsKept.trans ?_ (tenants_sendEvent ..))
    exact tenants_rest rfl rfl rfl
  case pldmDiscovery ep code =>
    injection h with h
    subst h
    refine tenants_guard ?_
    repeat' split
    all_goals exact tenants_pldmReply ..
  case pldmSensorRead ep id =>
    injection h with h
    subst h
    refine tenants_guard ?_
    split <;> exact tenants_pldmReply ..
  case pldmP2enEffecter ep v =>
    injection h with h
    subst h
    exact tenants_effecterAt _ _ _ _ ((tenants_setP2en ..).trans (tenants_pldmReply ..))
  case setEventReceiver ep eid =>
    injection h with h
    subst h
    repeat' split
    · exact .refl _
    · exact tenants_rest rfl rfl rfl
    · exact tenants_pldmReply ..
  case requestUpdate ep =>
    injection h with h
    subst h
    refine tenants_updateAt _ _ _ _ ?_
    split <;> exact tenants_rest rfl rfl rfl
  case updateComponent ep image =>
    injection h with h
    subst h
    refine tenants_updateAt _ _ _ _ ?_
    repeat' split
    all_goals exact tenants_rest rfl rfl rfl
  case verifyComplete ep =>
    injection h with h
    subst h
    refine tenants_updateAt _ _ _ _ ?_
    split <;> exact tenants_rest rfl rfl rfl
  case nonce ep =>
    injection h with h
    subst h
    exact tenants_secAt _ _ _ _ (tenants_rest rfl rfl rfl)
  case observe ep tok =>
    injection h with h
    subst h
    exact tenants_secAt _ _ _ _ (tenants_observeNow ..)
  case getVersion r =>
    injection h with h
    subst h
    exact tenants_spdmAt _ _ _ _ _ (tenants_rest rfl rfl rfl)
  case getCapabilities | negotiateAlgorithms =>
    injection h with h
    subst h
    exact tenants_spdmAt _ _ _ _ _ (tenants_needs _ _ _ _ (tenants_rest rfl rfl rfl))
  case getDigests r =>
    injection h with h
    subst h
    exact tenants_spdmAt _ _ _ _ _ (tenants_negotiated _ _ _ (tenants_spdmSend ..))
  case getCertificate r slot off len =>
    injection h with h
    subst h
    refine tenants_spdmAt _ _ _ _ _ (tenants_negotiated _ _ _ ?_)
    split <;> exact tenants_spdmSend ..
  case challenge r slot n =>
    injection h with h
    subst h
    exact tenants_spdmAt _ _ _ _ _ (tenants_negotiated _ _ _ (tenants_challenge ..))
  case getMeasurements r i n =>
    injection h with h
    subst h
    exact tenants_spdmAt _ _ _ _ _ (tenants_negotiated _ _ _ (tenants_getMeasurements ..))
  case keyExchange r id beat =>
    injection h with h
    subst h
    exact tenants_spdmAt _ _ _ _ _ (tenants_negotiated _ _ _ (tenants_keyExchange ..))
  case finish r id ok key iv =>
    injection h with h
    subst h
    exact tenants_spdmAt _ _ _ _ _ (tenants_finishSession ..)
  case heartbeat | keyUpdate | endSession =>
    injection h with h
    subst h
    exact tenants_spdmAt _ _ _ _ _ (tenants_inSession _ _ _ _ _ fun _ _ => tenants_rest rfl rfl rfl)
  case heartbeatTimeout r id =>
    injection h with h
    subst h
    split
    · exact tenants_guard (tenants_rest rfl rfl rfl)
    · exact .refl _
  all_goals nomatch hc

/-! ## The statement -/

/-- Settles O60: `exec_tenantsKept`, and the end of a wake with no request waiting. -/
theorem managementLeavesTenantsAlone : Obligations.ManagementLeavesTenantsAlone := by
  unfold Obligations.ManagementLeavesTenantsAlone
  intro c s t hc hwake h
  by_cases hready : c = .hbmReady
  · subst hready
    injection h with h
    subst h
    obtain ⟨hkept, hsecure⟩ := hbmReady_tenants s
    exact hkept.trans (tenants_runDeferred_nil ((congrArg Secure.deferred hsecure).trans (hwake rfl)))
  · exact exec_tenantsKept hc hready h

end Sys2Proof.Machine
end

section
/-!
PROOF. The step, the reset state, the admin queue's control register and the two logs (R480 to R483, R377, R378).
-/

namespace Sys2Proof.Machine

open Sys2Proof

variable {s : State} {f : FuncId} {v : Word}

/-! ## One cycle of LCLK -/

/-- While no latent divergence waits, a cycle changes only times, engines, pairs and the keeper. -/
theorem tick_quiet (h : s.latent = none) : tick s = { s with
    lclk := s.lclk + 1
    p2Cond := if p2Ready s then some (s.p2Cond.getD s.lclk) else none
    engines := s.engines.map fun e => (e.1, engineTick s e.1 e.2)
    pairs := s.pairs.map fun p => (p.1, pairTick s p.1 p.2)
    keeper := { s.keeper with calibDue := calibrationTick s } } := by
  rw [tick, latentTick, h]
  rfl

/-! ## Q_ADMIN_CTL -/

theorem untouched_setFn (s : State) (f : FuncId) (x : Func) : Untouched s (s.setFn f x) := ⟨rfl, rfl, rfl, rfl, fun _ => rfl⟩

/-- The function after CFGERR's clear bit has been written, or has not. -/
def clearCfgErr (b : Bool) (x : Func) : Func := { x with cfgErr := if b then false else x.cfgErr }

theorem clearCfgErr_modFn (u : State) (f : FuncId) (b : Bool) (g : Func → Func) :
    (if b then u.modFn f fun x => { x with cfgErr := false } else u).modFn f g = u.setFn f (g (clearCfgErr b (u.fn f))) := by
  cases b
  · rfl
  · rw [if_pos rfl, State.modFn, State.fn_modFn, State.modFn, State.setFn, State.setFn]
    exact congrArg (fun m => { u with funcs := m }) (mput_mput ..)

/-- A write with ENABLE = 1 that may create queue 0 replaces the function by what `adminCreate` makes of it (R481). -/
theorem exec_qAdminEnable (hserved : mmioServed s f = true) (henable : (s.fn f).enable = false) (hbusy : (s.fn f).busy = false)
    (herase : s.secure.erasing = none) :
    exec (.qAdminEnable f v) s =
      .next ((touchPort s f.port.val).setFn f (adminCreate (clearCfgErr (bitOf v.toNat 3) (s.fn f)))) := by
  have hbit (j : Nat) (hj : j ≠ 0) : bitOf (withBit v 0) j = bitOf v.toNat j := by
    rw [bitOf_withBit, decide_eq_false hj.symm, Bool.or_false]
  have hzero : bitOf (withBit v 0) 0 = true := by simp [bitOf_withBit]
  show Host.Outcome.next (served s f fun t => bar0Write t f 0x428 8 (withBit v 0)) = _
  rw [served_yes hserved, adminCtl_eight _ _ (withBit_lt v 0 (by decide)),
    adminEnable_on (touchPort s f.port.val) f _ hzero henable hbusy herase]
  simp only [hbit 3 (by decide), hbit 1 (by decide), clearCfgErr_modFn]
  generalize hx' : clearCfgErr (bitOf v.toNat 3) ((touchPort s f.port.val).fn f) = x
  have hx : x.enable = false := by rw [← hx']; exact henable
  have hresume : adminResume ((touchPort s f.port.val).setFn f (adminCreate x)) f =
      (touchPort s f.port.val).setFn f (adminCreate x) := by
    refine adminResume_out _ _ fun y hy hon => ?_
    rw [State.fn_setFn] at hy hon
    unfold adminCreate at hy hon
    split at hy
    · rw [mget_mput_same] at hy
      exact (Option.some.inj hy) ▸ rfl
    · rename_i hbad
      rw [if_neg hbad] at hon
      exact absurd (hx.symm.trans hon) Bool.false_ne_true
  rw [hresume, ite_self, ← hx']
  rfl

/-- A write with ENABLE = 0: it deletes the queues of an enabled function, and RESUME has no effect after it (R482, R483). -/
theorem adminCtl_off (u : State) (f : FuncId) (w : Nat) (hw : bitOf w 0 = false) :
    ∃ t, (t = u ∨ t = u.modFn f fun x => { x with cfgErr := false }) ∧
      adminCtl u f (2 ^ 64 - 1) w = if (u.fn f).enable then adminDisable t f else t := by
  refine ⟨if bitOf w 3 then u.modFn f fun x => { x with cfgErr := false } else u, by cases bitOf w 3 <;> simp, ?_⟩
  unfold adminCtl
  rw [bit0_mask, hw]
  simp only [Bool.not_true, Bool.false_and, Bool.false_eq_true, if_false]
  generalize ht : (if bitOf w 3 = true then u.modFn f fun x => { x with cfgErr := false } else u) = t
  have hon : (t.fn f).enable = (u.fn f).enable := by
    rw [← ht]
    split
    · rw [State.fn_modFn]
    · rfl
  have hset : adminEnable t f w = if (u.fn f).enable then adminDisable t f else t := by
    rw [adminEnable, hw, hon]
    rfl
  have hresume : adminResume (adminEnable t f w) f = adminEnable t f w := by
    refine adminResume_out _ _ fun y _ hen => absurd hen ?_
    rw [hset]
    cases he : (u.fn f).enable
    · simp [hon, he]
    · simp [adminDisable]
  rw [hresume, ite_self, hset]

theorem adminDisable_fn (t : State) (f : FuncId) : ((adminDisable t f).fn f).enable = false ∧
    ((adminDisable t f).fn f).busy = true ∧ ((adminDisable t f).fn f).queues = [] ∧
    ((adminDisable t f).fn f).regCnt = (t.fn f).regCnt := by
  simp only [adminDisable, State.fn_modFn, deleteQueues_queues, deleteQueues_regCnt, and_self]

/-- A write of RESUME with ENABLE = 1 to an enabled function is RESUME alone (R483). -/
theorem exec_qAdminResume_on (hserved : mmioServed s f = true) (henable : (s.fn f).enable = true)
    (hbusy : (s.fn f).busy = false) (herase : s.secure.erasing = none) (hv : bitOf v.toNat 0 = true) :
    ∃ t, (t = touchPort s f.port.val ∨ t = (touchPort s f.port.val).modFn f fun x => { x with cfgErr := false }) ∧
      exec (.qAdminResume f v) s = .next (adminResume t f) := by
  refine ⟨if bitOf v.toNat 3 then (touchPort s f.port.val).modFn f fun x => { x with cfgErr := false }
    else touchPort s f.port.val, by cases bitOf v.toNat 3 <;> simp, ?_⟩
  show Host.Outcome.next (served s f fun t => bar0Write t f 0x428 8 (withBit v 1)) = _
  rw [served_yes hserved, adminCtl_eight _ _ (withBit_lt v 1 (by decide)), adminCtl, bit0_mask, touchPort_fn, hbusy,
    show (touchPort s f.port.val).secure = s.secure from rfl, herase]
  simp only [bitOf_withBit, hv, Bool.true_or, Bool.not_true, Bool.false_eq_true, if_false, Option.isSome_none, Bool.or_false,
    Bool.and_false, decide_true, Bool.or_true, if_true, show decide (1 = 3) = false from rfl]
  generalize ht : (if bitOf v.toNat 3 = true then (touchPort s f.port.val).modFn f fun x => { x with cfgErr := false }
    else touchPort s f.port.val) = t
  have hon : (t.fn f).enable = true := by
    rw [← ht]
    split
    · rw [State.fn_modFn]; exact henable
    · exact henable
  rw [adminEnable, bitOf_withBit, hv, hon]
  rfl

/-- Clearing CFGERR leaves every queue as it is, and counts nothing. -/
theorem clearedCfgErr_keeps {u t : State} (h : t = u ∨ t = u.modFn f fun x => { x with cfgErr := false }) :
    t.queue (.ring f 0) = u.queue (.ring f 0) ∧ (t.fn f).enable = (u.fn f).enable ∧ (t.fn f).regCnt = (u.fn f).regCnt ∧
      (t.fn f).queues = (u.fn f).queues := by
  rcases h with rfl | rfl
  · exact ⟨rfl, rfl, rfl, rfl⟩
  · simp only [State.queue, State.fn_modFn, and_self]

/-- The write of RESUME with ENABLE = 0, as `adminCtl_off` has it. -/
theorem exec_qAdminResume_off (hserved : mmioServed s f = true) (hv : bitOf v.toNat 0 = false) :
    ∃ t, (t = touchPort s f.port.val ∨ t = (touchPort s f.port.val).modFn f fun x => { x with cfgErr := false }) ∧
      exec (.qAdminResume f v) s = .next (if (s.fn f).enable then adminDisable t f else t) := by
  have hw : bitOf (withBit v 1) 0 = false := by rw [bitOf_withBit, hv]; rfl
  obtain ⟨t, ht, heq⟩ := adminCtl_off (touchPort s f.port.val) f _ hw
  refine ⟨t, ht, ?_⟩
  show Host.Outcome.next (served s f fun t => bar0Write t f 0x428 8 (withBit v 1)) = _
  rw [served_yes hserved, adminCtl_eight _ _ (withBit_lt v 1 (by decide)), heq, touchPort_fn]

/-! ## The logs -/

theorem exec_errLogPop {n : Nat} {p : Plot} (hserved : mmioServed s f = true) (hbound : boundIn s.plots (fidNat f) = some n)
    (hplot : mget s.plots n = some p) :
    exec (.errLogPop f v) s = .next ((touchPort s f.port.val).setPlot n { p with log := p.log.popped }) := by
  have hplotFn : (touchPort s f.port.val).plotFn f = some (n, p) := by
    show (boundIn s.plots (fidNat f)).bind _ = _
    rw [hbound, Option.bind_some]
    exact congrArg (Option.map _) hplot
  show Host.Outcome.next (served s f fun t => bar0Write t f 0x930 8 (withBit v 0)) = _
  rw [served_yes hserved, bar0_eight _ _ _ (by decide) (withBit_lt v 0 (by decide)) (by simp [bar0Reg])]
  show Host.Outcome.next (errPop _ f _ _) = _
  rw [errPop, hits_whole _ _ (by decide), bitOf_withBit, hplotFn]
  simp

theorem exec_errDevLogPop (hserved : mmioServed s f = true) (hpf : s.designated f = true) :
    exec (.errDevLogPop f v) s = .next { touchPort s f.port.val with devLog := s.devLog.popped } := by
  have hpf' : (touchPort s f.port.val).designated f = true := hpf
  show Host.Outcome.next (served s f fun t => bar0Write t f 0x9B0 8 (withBit v 0)) = _
  rw [served_yes hserved, bar0_eight _ _ _ (by decide) (withBit_lt v 0 (by decide)) (by simp [bar0Reg, hpf'])]
  show Host.Outcome.next (devPop _ _ _) = _
  rw [devPop, hits_whole _ _ (by decide), bitOf_withBit]
  simp only [decide_true, Bool.or_true, if_true]
  rfl

/-! ## The statements -/

/-- Settles O1: the front command runs on the rest, and `tick_quiet` says what an empty queue does. -/
theorem stepTakesTheFrontCommand : Obligations.StepTakesTheFrontCommand := by
  unfold Obligations.StepTakesTheFrontCommand
  refine ⟨fun s c rest h => ?_, fun s h hlatent => ⟨tick s, by rw [step, h], ?_⟩⟩
  · rw [step, h]
  · rw [tick_quiet hlatent]
    exact ⟨rfl, h, rfl, rfl, rfl, rfl, rfl⟩

/-- Settles O2: the fields of `State.reset`, and of the functions and engines that stand for every absent one. -/
theorem Settled.resetState : Obligations.ResetState := by
  unfold Obligations.ResetState
  refine ⟨rfl, rfl, rfl, rfl, rfl, rfl, rfl, rfl, rfl, rfl, rfl, rfl, rfl, rfl, rfl, rfl, rfl, rfl, rfl, rfl, rfl, rfl, rfl, rfl,
    fun f => ⟨rfl, rfl, rfl, rfl, rfl, rfl⟩, fun e => ⟨rfl, rfl, rfl, rfl, fun a => rfl⟩, Nat.zero_le _⟩

/-- Settles O5: a write with ENABLE = 1 creates queue 0 or sets CFGERR, and one with ENABLE = 0 deletes every queue without a
reply. -/
theorem adminQueueLifecycle : Obligations.AdminQueueLifecycle := by
  unfold Obligations.AdminQueueLifecycle
  refine ⟨fun f v s hserved henable hbusy herase => ⟨fun hok => ?_, fun hbad => ?_⟩, fun f v s hserved henable => ?_,
    fun f s hup hbusy => ?_⟩
  · refine ⟨_, exec_qAdminEnable hserved henable hbusy herase, ?_⟩
    rw [adminCreate_ok (clearCfgErr _ _) hok, State.fn_setFn]
    exact ⟨rfl, mget_mput_same .., rfl, (untouched_touchPort ..).trans (untouched_setFn ..)⟩
  · refine ⟨_, exec_qAdminEnable hserved henable hbusy herase, ?_⟩
    rw [adminCreate_bad (clearCfgErr _ _) hbad, State.fn_setFn]
    exact ⟨henable, rfl, rfl, (untouched_touchPort ..).trans (untouched_setFn ..)⟩
  · obtain ⟨t, ht, heq⟩ := adminCtl_off (touchPort s f.port.val) f (withoutBit v 0) (by simp [bitOf_withoutBit])
    have hreplies : s.sameReplies t := by rcases ht with rfl | rfl <;> rfl
    refine ⟨adminDisable t f, ?_, (adminDisable_fn ..).1, (adminDisable_fn ..).2.1, (adminDisable_fn ..).2.2.1,
      (deleteQueues_replies t f).trans hreplies⟩
    show Host.Outcome.next (served s f fun t => bar0Write t f 0x428 8 (withoutBit v 0)) = _
    rw [served_yes hserved, adminCtl_eight _ _ (withoutBit_lt v), heq, touchPort_fn, henable, if_pos rfl]
  · show Host.Outcome.next (if s.lodgeUp && (s.fn f).busy then _ else s) = _
    rw [hup, hbusy]
    rfl

/-- Settles O6: with ENABLE = 1 the write is `adminResume`, and with ENABLE = 0 it is `adminDisable` or nothing. -/
theorem Settled.adminResume : Obligations.AdminResume := by
  unfold Obligations.AdminResume
  refine ⟨fun f v s x hserved henable hbusy herase hv hqueue => ?_, fun f v s hserved hv => ?_⟩
  · obtain ⟨t, ht, hexec⟩ := exec_qAdminResume_on hserved henable hbusy herase hv
    obtain ⟨hq, hen, hcnt, hqs⟩ := clearedCfgErr_keeps ht
    have hq0 : t.queue (.ring f 0) = some x := hq.trans hqueue
    have hcount : (t.fn f).regCnt = (s.fn f).regCnt := hcnt
    have hen : (t.fn f).enable = true := hen.trans henable
    have hdo : Machine.adminResume t f = if x.qstate = .halted ∧ x.byRing = true then resumeQueue t (.ring f 0) else t := by
      rw [Machine.adminResume, show mget (t.fn f).queues 0 = some x from hq0, hen]
      simp only [Bool.true_and, Bool.and_eq_true, beq_iff_eq]
    refine ⟨fun hhalted => ?_, fun hother => ⟨t, ?_, hq0, hcount⟩⟩
    · rw [if_pos hhalted] at hdo
      obtain ⟨y, hy, hactive, hring, he, hhead⟩ := resumeQueue_queue t (.ring f 0) x hq0 nofun
      exact ⟨_, y, by rw [hexec, hdo], hy, hactive, hring, he, hhead, (resumeQueue_regCnt ..).trans hcount⟩
    · rw [hexec, hdo, if_neg hother]
  · obtain ⟨t, ht, hexec⟩ := exec_qAdminResume_off hserved hv
    obtain ⟨hq, hen, hcnt, hqs⟩ := clearedCfgErr_keeps ht
    refine ⟨fun henable => ?_, fun hoff => ?_⟩
    · rw [henable, if_pos rfl] at hexec
      obtain ⟨hen', _, hqueues, hcnt'⟩ := adminDisable_fn t f
      exact ⟨_, hexec, hen', hqueues, hcnt'.trans hcnt⟩
    · rw [hoff, if_neg Bool.false_ne_true] at hexec
      exact ⟨_, hexec, hen.trans hoff, hqs, hcnt⟩

/-- Settles O7: POP is `Log.popped` of the one log. -/
theorem popRemovesTheOldestRecord : Obligations.PopRemovesTheOldestRecord := by
  unfold Obligations.PopRemovesTheOldestRecord
  exact ⟨fun f v s n p hserved hbound hplot => exec_errLogPop hserved hbound hplot,
    fun f v s hserved hpf => exec_errDevLogPop hserved hpf⟩

end Sys2Proof.Machine
end

section
/-!
PROOF. The registers of power, of the Groundskeeper, of debug and of the cold reset, MSI-X unmasking, and the writes that are
discarded and counted (R5, R255, R283, R371, R397, R404, R410, R421, R437 to R441, R449, R450, R457, R480, R482).
-/

namespace Sys2Proof.Machine

open Sys2Proof

variable {s : State} {f : FuncId} {v : Word}

/-! ## Bits of a written value -/

theorem bitOf_false_of_low {n k j : Nat} (h : n % 2 ^ k = 0) (hj : j < k) : bitOf n j = false := by
  have hlow := Nat.testBit_mod_two_pow n k j
  rw [h, Nat.zero_testBit, decide_eq_true hj, Bool.true_and] at hlow
  rw [bitOf_testBit, ← hlow]

/-- Bits 1 and 2 of a value. -/
theorem bitOf_false_of_field {n : Nat} (h : n / 2 % 4 = 0) : bitOf n 1 = false ∧ bitOf n 2 = false := by
  simp only [bitOf, beq_eq_false_iff_ne, ne_eq]
  omega

/-! ## The power control register -/

/-- A write of PWR_CTL in the designated PF that asks for a wake, in P2 (R410). -/
theorem pwrCtl_wake (hserved : mmioServed s f = true) (hpf : s.designated f = true) (hp2 : s.p2 = .inP2) {w : Nat}
    (hw : w < 2 ^ 64) (h : bitOf w 1 = true ∨ bitOf w 0 = false) : ∃ t,
    served s f (fun t => bar0Write t f 0x700 8 w) = t ∧ t.p2 = .waking s.lclk ∧ t.pins.fabRet = false ∧
      t.power.p2en = bitOf w 0 ∧ Untouched s t := by
  have hwake := pwr_wakes (touchPort s f.port.val) w hp2 (by rwa [hits_whole w 1 (by decide)])
  refine ⟨_, rfl, ?_⟩
  rw [served_yes hserved, bar0_eight _ _ _ (by decide) hw (by simp [bar0Reg]), regWrite_pwr (touchPort s f.port.val) f _ _ hpf,
    hwake]
  exact ⟨rfl, rfl, bitOf_mod w 0 (by decide), ⟨rfl, rfl, rfl, rfl, fun _ => rfl⟩⟩

/-! ## PWR_ECLK_TGT -/

theorem touchPort_plotFn {n : Nat} {p : Plot} (hbound : boundIn s.plots (fidNat f) = some n) (hplot : mget s.plots n = some p) :
    (touchPort s f.port.val).plotFn f = some (n, p) := by
  show (boundIn s.plots (fidNat f)).bind _ = _
  rw [hbound, Option.bind_some]
  exact congrArg (Option.map _) hplot

theorem exec_pwrEclkTgtWrite {n : Nat} {p : Plot} (hserved : mmioServed s f = true)
    (hbound : boundIn s.plots (fidNat f) = some n) (hplot : mget s.plots n = some p) (hlo : 4 ≤ v.toNat % 32)
    (hhi : v.toNat % 32 ≤ 18) : exec (.pwrEclkTgtWrite f v) s =
      .next (retargetAll ((touchPort s f.port.val).setPlot n { p with eclkTarget := v.toNat % 32 })) := by
  have hvalue : bitsOf (merge p.eclkTarget (2 ^ 64 - 1) v.toNat) 4 0 = v.toNat % 32 := by
    rw [merge_whole, bitsOf]
    omega
  show Host.Outcome.next (served s f fun t => bar0Write t f 0x708 8 v.toNat) = _
  rw [served_yes hserved, bar0_eight _ _ _ (by decide) v.isLt (by simp [bar0Reg])]
  show Host.Outcome.next (eclkWrite _ f _ _) = _
  rw [eclkWrite, touchPort_plotFn hbound hplot]
  simp only [hvalue, hlo, hhi, decide_true, Bool.and_self, if_true]

/-! ## GK_CTL -/

theorem exec_gkCtlWrite (hserved : mmioServed s f = true) : exec (.gkCtlWrite f v) s =
    .next (if s.designated f then setKeeperCtl (touchPort s f.port.val) (v.toNat % 2 ^ 64) else touchPort s f.port.val) := by
  show Host.Outcome.next (served s f fun t => bar0Write t f 0x600 8 v.toNat) = _
  rw [served_yes hserved, bar0_eight _ _ _ (by decide) v.isLt (by simp [bar0Reg])]
  show Host.Outcome.next (if (touchPort s f.port.val).designated f then setKeeperCtl _ _ else _) = _
  rw [merge_whole]
  rfl

/-! ## The debug control register -/

/-- A served write of 8 bytes to the debug control register of the designated PF. -/
theorem served_secCtl (hserved : mmioServed s f = true) (hpf : s.designated f = true) {w : Nat} (hw : w < 2 ^ 64) :
    served s f (fun t => bar0Write t f 0x808 8 w) = secCtlWrite (touchPort s f.port.val) (2 ^ 64 - 1) w := by
  rw [served_yes hserved, bar0_sec (touchPort s f.port.val) f w hw hpf]

theorem exec_newNonce (hserved : mmioServed s f = true) (hpf : s.designated f = true) (hv : v.toNat / 2 % 4 = 0) :
    exec (.newNonce f v) s = .next (makeNonce (touchPort s f.port.val)) := by
  obtain ⟨hone, htwo⟩ := bitOf_false_of_field hv
  show Host.Outcome.next (served s f fun t => bar0Write t f 0x808 8 (withBit v 0)) = _
  rw [served_secCtl hserved hpf (withBit_lt v 0 (by decide)), secCtl_bits]
  simp [bitOf_withBit, hone, htwo]

theorem exec_obsEnter (hserved : mmioServed s f = true) (hpf : s.designated f = true) (hv : v.toNat % 8 = 0) :
    exec (.obsEnter f v) s = .next (obsEnterBit (touchPort s f.port.val)) := by
  have hbit (j : Nat) (hj : j < 3) : bitOf v.toNat j = false := bitOf_false_of_low (k := 3) hv hj
  show Host.Outcome.next (served s f fun t => bar0Write t f 0x808 8 (withBit v 1)) = _
  rw [served_secCtl hserved hpf (withBit_lt v 1 (by decide)), secCtl_bits]
  simp [bitOf_withBit, hbit]

theorem exec_dbgClose (hserved : mmioServed s f = true) (hpf : s.designated f = true) (hv : v.toNat % 8 = 0) :
    exec (.dbgClose f v) s = .next (closeDebug (touchPort s f.port.val)) := by
  have hbit (j : Nat) (hj : j < 3) : bitOf v.toNat j = false := bitOf_false_of_low (k := 3) hv hj
  show Host.Outcome.next (served s f fun t => bar0Write t f 0x808 8 (withBit v 2)) = _
  rw [served_secCtl hserved hpf (withBit_lt v 2 (by decide)), secCtl_bits]
  simp [bitOf_withBit, hbit]

/-! ## LDG_RESET -/

theorem served_lodgeUp (h : mmioServed s f = true) : s.lodgeUp = true := by
  simp only [mmioServed, Bool.and_eq_true] at h
  exact h.1.1.1.1.1

/-- The value 0xC01D in COLD resets the device from the designated PF, and does nothing from any other function (R457). -/
theorem exec_ldgResetCold (hserved : mmioServed s f = true) : exec (.ldgResetCold f v) s =
    .next (if s.designated f then coldReset (touchPort s f.port.val) else touchPort s f.port.val) := by
  have hlt : v.toNat / 65536 * 65536 + 0xC01D < 2 ^ 64 := by have := v.isLt; omega
  have hcold : bitsOf (v.toNat / 65536 * 65536 + 0xC01D) 15 0 = 0xC01D := by rw [bitsOf]; omega
  have hup : s.lodgeUp = true := served_lodgeUp hserved
  have hup : (touchPort s f.port.val).resettable = true := hup
  show Host.Outcome.next (served s f fun t => bar0Write t f 0x28 8 (v.toNat / 65536 * 65536 + 0xC01D)) = _
  rw [served_yes hserved, bar0_eight _ _ _ (by decide) hlt (by simp [bar0Reg])]
  show Host.Outcome.next (ldgResetWrite _ f _ _) = _
  rw [ldgResetWrite, hcold, hup]
  simp only [show bitsOf (2 ^ 64 - 1) 15 0 = 0xFFFF by decide, beq_self_eq_true, Bool.and_true]
  rfl

/-! ## MSI-X -/

theorem exec_msixUnmask {i : Nat} (hserved : mmioServed s f = true) (hi : i < vecLimit f) : exec (.msixUnmask f i) s =
    .next (setVec (touchPort s f.port.val) f i { (s.fn f).vec i with masked := false }) := by
  show Host.Outcome.next (served s f fun t => if i < vecLimit f then _ else t) = _
  rw [served_yes hserved, if_pos hi]
  rfl

/-- A vector that takes a value without a pending message: nothing goes out. -/
theorem setVec_quiet (u : State) (f : FuncId) (i : Nat) {e : MsixEntry} (h : e.pend = false) :
    setVec u f i e = u.modFn f fun x => { x with msix := mput x.msix i e } := by
  rw [setVec, flushVec, vec_put]
  simp [h]

/-- A vector that takes a value with a pending message that may be sent: the message goes out and no longer waits. -/
theorem setVec_sends (u : State) (f : FuncId) (i : Nat) {e : MsixEntry} (hpend : e.pend = true) (hmasked : e.masked = false)
    (hdma : u.dmaOk f = true) (hon : (u.fn f).cfg.msixEnable = true) (hfree : (u.fn f).cfg.msixMask = false)
    (hfatal : u.fatal = false ∨ i = (u.fn f).errVec) :
    ((setVec u f i e).fn f).vec i = { e with pend := false } ∧ (setVec u f i e).out = u.out ++ [.msix f i e.addr e.data] := by
  have hopen : vecOpen (u.modFn f fun x => { x with msix := mput x.msix i e }) f i = true := by
    have hdma' : (u.modFn f fun x => { x with msix := mput x.msix i e }).dmaOk f = true := by
      rw [← hdma]
      simp only [State.dmaOk, State.fn_modFn]
      rfl
    rw [vecOpen, hdma', vec_put, hmasked, State.fn_modFn, hon, hfree]
    simpa only [State.modFn_fatal, Bool.not_false, Bool.and_true, Bool.true_and, Bool.or_eq_true, Bool.not_eq_true',
        beq_iff_eq] using hfatal
  rw [setVec, flushVec, vec_put, hpend, hopen, Bool.and_self, if_pos rfl]
  exact ⟨vec_put .., rfl⟩

/-! ## Discarded writes -/

theorem exec_registerWrite_bar0 {off size : Nat} (hserved : mmioServed s f = true) :
    exec (.registerWrite ⟨f, .bar0, off, size, v, false⟩) s = .next (bar0Write (touchPort s f.port.val) f off size v.toNat) := by
  show Host.Outcome.next (served s f (mmioWrite _)) = _
  rw [served_yes hserved, mmio_bar0]

/-- A write of 8 bytes to Q_ADMIN_SQ_BASE reaches the admin windows (R480). -/
theorem bar0Write_sqBase (u : State) (f : FuncId) (v : Word) : bar0Write u f 0x400 8 v.toNat =
    if (u.fn f).enable || (u.fn f).busy then countReg u f else u.setFn f { u.fn f with sqBase := v.toNat } := by
  have hvalue : merge (adminReg u f 0) (2 ^ 64 - 1) v.toNat = v.toNat := by
    rw [merge_whole, Nat.mod_eq_of_lt v.isLt]
  rw [bar0_eight _ _ _ (by decide) v.isLt (by simp [bar0Reg])]
  show adminRegWrite u f 0 _ _ = _
  rw [adminRegWrite, hvalue]
  rfl

theorem bar0Write_misaligned (u : State) (f : FuncId) {off size : Nat} (v : Nat)
    (h : ¬((size = 4 ∨ size = 8) ∧ off % size = 0)) : bar0Write u f off size v = countReg u f := by
  have hbad : alignedWrite off size = false := by
    rw [Bool.eq_false_iff]
    simpa only [alignedWrite, ne_eq, Bool.and_eq_true, Bool.or_eq_true, beq_iff_eq] using h
  rw [bar0Write, hbad]
  rfl

/-- A doorbell write that reaches no queue is counted (R255). -/
theorem bar2Write_ignored (u : State) (f : FuncId) {off size : Nat} (v : Nat)
    (h : ((size ≠ 4 ∧ size ≠ 8) ∨ 0x8000 ≤ off ∨ off % 8 ≠ 0) ∨ mget (u.fn f).queues (off / 16) = none) :
    bar2Write u f off size v = countDb u f := by
  unfold bar2Write doorbellOf
  split
  · rfl
  · next q isHead hdoor =>
    split at hdoor
    · next hok =>
      simp only [Bool.and_eq_true, Bool.or_eq_true, beq_iff_eq, decide_eq_true_eq] at hok
      have hqueue : mget (u.fn f).queues (off / 16) = none := h.resolve_left (by omega)
      rw [← (Prod.mk.inj (Option.some.inj hdoor)).1, hqueue]
    · exact absurd hdoor nofun

/-! ## The statements -/

/-- Settles O8: the wakes through `pwrCtl_wake`, and one equation for each of the two other registers. -/
theorem powerAndKeeperRegisters : Obligations.PowerAndKeeperRegisters := by
  unfold Obligations.PowerAndKeeperRegisters
  refine ⟨fun f v s hserved hpf hp2 => ⟨?_, ?_⟩, fun f v s n p hserved hbound hplot hlo hhi => ?_,
    fun f v s hserved => ⟨fun hpf => ?_, fun hother => ?_⟩⟩
  · obtain ⟨t, rfl, hwaking, hret, _, hkept⟩ :=
      pwrCtl_wake hserved hpf hp2 (withBit_lt v 1 (by decide)) (.inl (by simp [bitOf_withBit]))
    exact ⟨_, rfl, hwaking, hret, hkept⟩
  · have hzero : bitOf (withoutBit v 0) 0 = false := by simp [bitOf_withoutBit]
    obtain ⟨t, rfl, hwaking, hret, hp2en, hkept⟩ := pwrCtl_wake hserved hpf hp2 (withoutBit_lt v) (.inr hzero)
    exact ⟨_, rfl, hwaking, hret, hp2en.trans hzero, hkept⟩
  · refine ⟨_, exec_pwrEclkTgtWrite hserved hbound hplot hlo hhi, ?_, fun m hm => ?_, (retargetAll_keep _).2.2.1,
      (sparesSpads_retargetAll _).stores⟩
    · rw [retargetAll_plots]
      exact mget_mput_same ..
    · rw [retargetAll_plots]
      exact mget_mput_other _ _ _ _ hm
  · rw [exec_gkCtlWrite hserved, if_pos hpf]
    have hkept := sparesSpads_setKeeperCtl (touchPort s f.port.val) (v.toNat % 2 ^ 64)
    refine ⟨_, rfl, ?_, hkept.cmds, hkept.stores, hkept.spads⟩
    show v.toNat % 2 ^ 64 % 32 = _
    omega
  · rw [exec_gkCtlWrite hserved, if_neg (Bool.eq_false_iff.1 hother)]

/-- Settles O9: each register write is the operation that it asks for. -/
theorem debugControlAndColdReset : Obligations.DebugControlAndColdReset := by
  unfold Obligations.DebugControlAndColdReset
  refine fun f v s hserved => ⟨fun hpf hv => ?_, fun hpf hv hclosed hused => ?_, fun hpf hv hlevel => ?_, fun hpf => ?_,
    fun hother => ?_⟩
  · refine ⟨_, exec_newNonce hserved hpf hv, ?_, rfl, ⟨rfl, rfl, rfl, rfl, fun _ => rfl⟩⟩
    exact if_pos (Nat.lt_add_of_pos_right (by decide))
  · rw [exec_obsEnter hserved hpf hv, obsEnterBit]
    exact congrArg Host.Outcome.next (if_pos (Bool.and_eq_true_iff.2 ⟨beq_iff_eq.2 hclosed, hused⟩))
  · rw [exec_dbgClose hserved hpf hv, closeDebug]
    exact congrArg Host.Outcome.next (if_neg fun h => hlevel (beq_iff_eq.1 h))
  · rw [exec_ldgResetCold hserved, if_pos hpf]
    exact ⟨_, rfl, rfl, rfl, rfl, rfl, rfl, rfl, rfl, rfl, rfl, rfl⟩
  · rw [exec_ldgResetCold hserved, if_neg (Bool.eq_false_iff.1 hother)]

/-- Settles O10: unmasking is `setVec`, which sends a pending message that may go out and is quiet where none waits. -/
theorem unmaskSendsThePendingMessage : Obligations.UnmaskSendsThePendingMessage := by
  unfold Obligations.UnmaskSendsThePendingMessage
  refine ⟨fun f i s hserved hi hpend hdma hon hfree hfatal => ?_, fun f i s hserved hi hpend => ?_⟩
  · have hdma' : (touchPort s f.port.val).dmaOk f = true := by
      rw [← hdma]
      simp only [State.dmaOk, touchPort, State.port_setPort]
      cases (s.port f.port.val).link <;> rfl
    obtain ⟨hvec, hout⟩ := setVec_sends (touchPort s f.port.val) f i (e := { (s.fn f).vec i with masked := false }) hpend rfl
      hdma' hon hfree hfatal
    exact ⟨_, exec_msixUnmask hserved hi, hvec, hout, (untouched_touchPort ..).trans (untouched_setVec ..)⟩
  · refine ⟨_, exec_msixUnmask hserved hi, ?_, ?_, (untouched_touchPort ..).trans (untouched_setVec ..)⟩
    · rw [setVec_quiet (touchPort s f.port.val) f i (e := { (s.fn f).vec i with masked := false }) hpend]
      exact vec_put ..
    · rw [setVec_quiet (touchPort s f.port.val) f i (e := { (s.fn f).vec i with masked := false }) hpend]
      rfl

/-- Settles O11: `bar0Write_sqBase`, the misaligned writes, and the doorbells that reach no queue. -/
theorem registerWrites : Obligations.RegisterWrites := by
  unfold Obligations.RegisterWrites
  refine ⟨fun f v s hserved henable hbusy => ?_, fun f v s hserved hon => ?_, fun f off size v s hserved hbad => ?_,
    fun w s hserved hpoisoned => ?_, fun f off size data s hserved hbad t ht => ?_⟩
  · rw [exec_registerWrite_bar0 hserved, bar0Write_sqBase, touchPort_fn, henable, hbusy]
    rfl
  · have hheld : ((s.fn f).enable || (s.fn f).busy) = true := Bool.or_eq_true_iff.2 hon
    rw [exec_registerWrite_bar0 hserved, bar0Write_sqBase, touchPort_fn, hheld]
    rfl
  · rw [exec_registerWrite_bar0 hserved, bar0Write_misaligned _ _ _ hbad]
    rfl
  · show Host.Outcome.next (served s w.f (mmioWrite w)) = _
    rw [served_yes hserved, mmioWrite, hpoisoned]
    rfl
  · rw [exec_sqTailDoorbell, exec_cqHeadDoorbell, served_yes hserved, bar2Write_ignored (touchPort s f.port.val) f _ hbad, ht]
    exact ⟨rfl, rfl⟩

end Sys2Proof.Machine
end

section
/-!
PROOF. Packets in their queue: the fetch and its checks, ring faults, acceptance, duplicates, and the coalescing timer (R253, R262
to R270, R275 to R277, R282, R454).
-/

namespace Sys2Proof.Machine

open Sys2Proof

variable {s t : State} {f : FuncId} {q : Nat} {x y : Queue} {bs : List Byte}

/-! ## What sending leaves of a queue -/

theorem inner_eq_submission (h : y.inner = x.inner) : y.staged = x.staged ∧ y.sqHead = x.sqHead ∧ y.sqTail = x.sqTail ∧ y.e = x.e ∧
    y.qstate = x.qstate ∧ y.byRing = x.byRing ∧ y.haltSeq = x.haltSeq ∧ y.window = x.window :=
  have proj {α : Type} (g : Queue → α) : g y.inner = g x.inner := congrArg g h
  ⟨proj (·.staged), proj (·.sqHead), proj (·.sqTail), proj (·.e), proj (·.qstate), proj (·.byRing), proj (·.haltSeq),
    proj (·.window)⟩

theorem core_eq_positions (h : y.core = x.core) : y.staged = x.staged ∧ y.sqHead = x.sqHead ∧ y.sqTail = x.sqTail ∧ y.e = x.e :=
  have proj {α : Type} (g : Queue → α) : g y.core = g x.core := congrArg g h
  ⟨proj (·.staged), proj (·.sqHead), proj (·.sqTail), proj (·.e)⟩

theorem untouched_countIn (s : State) (f : FuncId) (n : Nat) : Untouched s (countIn s f n) :=
  (untouched_touchPort ..).trans (untouched_modFn ..)

/-! ## The sequence check -/

/-- A packet with a right CRC moves the head past itself and goes on to the sequence check (R262). -/
theorem takePacket_right (u : State) (src : Src) (hcrc : CrcRight bs) : takePacket u src x bs =
    touchShadow (sequenceCheck (u.setQueue src { x with sqHead := (x.sqHead + (hdrOf bs).tlen / 16) % 2 ^ 32 }) src
      { x with sqHead := (x.sqHead + (hdrOf bs).tlen / 16) % 2 ^ 32 } bs) src := by
  have hsame : (leNat (toLe 4 (crc32c (bs.take ((hdrOf bs).tlen - 4)))) != crcField bs (hdrOf bs).tlen) = false :=
    bne_eq_false_iff_eq.2 hcrc
  rw [takePacket]
  simp only [hsame, Bool.false_eq_true, if_false]

/-- What the sequence check and the shadow after it leave, when the check replaces the queue by `y` and then only sends. -/
theorem fetch_checked (hqueue : s.queue (.ring f q) = some x) (hfetch : mayFetch s f x = true) (hwhole : WholePacket s x bs)
    (hcrc : CrcRight bs) {u : State} (hu : u = (countIn s f (hdrOf bs).tlen).setQueue (.ring f q)
      { x with sqHead := (x.sqHead + (hdrOf bs).tlen / 16) % 2 ^ 32 })
    (hcheck : Sends (u.setQueue (.ring f q) y)
      (sequenceCheck u (.ring f q) { x with sqHead := (x.sqHead + (hdrOf bs).tlen / 16) % 2 ^ 32 } bs)) :
    ∃ t z, exec (.packetFetch f q (.bytes bs)) s = .next t ∧ t.queue (.ring f q) = some z ∧ z.inner = y.inner ∧ Untouched s t := by
  have hsends := hcheck.trans (sends_touchShadow _ (.ring f q))
  obtain ⟨z, hz, hinner⟩ := hsends.ring_inner (State.queue_setQueue ..)
  refine ⟨_, z, ?_, hz, hinner, ?_⟩
  · rw [fetch_exec, fetch_whole hqueue hfetch hwhole, takePacket_right _ _ hcrc, hu]
  · rw [hu] at hsends ⊢
    exact (untouched_countIn ..).trans ((untouched_setQueue ..).trans ((untouched_setQueue ..).trans hsends.untouched))

/-! ## Ring faults -/

theorem takePacket_wrong (u : State) (src : Src) (hcrc : ¬CrcRight bs) : ∃ r, takePacket u src x bs =
    ringFault u src (hdrOf bs) true r := by
  have hdiffer : (leNat (toLe 4 (crc32c (bs.take ((hdrOf bs).tlen - 4)))) != crcField bs (hdrOf bs).tlen) = true :=
    bne_iff_ne.2 hcrc
  rw [takePacket]
  simp only [hdiffer, if_true]
  exact ⟨_, rfl⟩

/-- A bad length field is a ring fault whatever else the read returned (R261, R275). -/
theorem fetch_badLength (hqueue : s.queue (.ring f q) = some x) (hfetch : mayFetch s f x = true) (hlong : 32 ≤ bs.length)
    (hbad : tlenOk (hdrOf bs).tlen x.sqSize = false) : ∃ r, fetchPacket f q (.bytes bs) s =
      ringFault s (.ring f q) (hdrOf bs) true r := by
  rw [fetchPacket]
  simp only [hqueue, hfetch, hbad, Nat.not_lt.2 hlong, Bool.not_true, Bool.not_false, Bool.false_eq_true, if_false, if_true]
  exact ⟨_, rfl⟩

theorem fetch_failed (hqueue : s.queue (.ring f q) = some x) (hfetch : mayFetch s f x = true) (b : Option (List Byte)) :
    ∃ h r, fetchPacket f q (.failed b) s = ringRecord (ringFault s (.ring f q) h true r) (.ring f q) := by
  rw [fetchPacket]
  simp only [hqueue, hfetch, Bool.not_true, Bool.false_eq_true, if_false]
  exact ⟨_, _, rfl⟩

/-- A ring fault of a ring, with what it leaves of the queue and of the device. -/
theorem ringFault_halts (u : State) (hqueue : u.queue (.ring f q) = some x) (h : Hdr) (b : Bool) (r : Reply) :
    ∃ y, (ringFault u (.ring f q) h b r).queue (.ring f q) = some y ∧ RingHalted x y ∧ y.sqHead = x.sqTail ∧ y.staged = none ∧
      QueueStep u (ringFault u (.ring f q) h b r) := by
  obtain ⟨y, hy, hhalted, hhead, hstaged⟩ := ringFault_queue u (.ring f q) x hqueue nofun h b r
  exact ⟨y, hy, hhalted, hhead, hstaged, queueStep_ringFault ..⟩

theorem queueStep_countIn (s : State) (f : FuncId) (n : Nat) : QueueStep s (countIn s f n) := ⟨rfl, rfl, rfl⟩

theorem Sends.queueStep (h : Sends s t) : QueueStep s t := h.ends.queueStep

/-- A window check that fails breaks the queue, with its positions as they were (R253). -/
theorem breakQueue_broken (hqueue : s.queue (.ring f q) = some x) (b : Bool) :
    ∃ y, (breakQueue s f q b).queue (.ring f q) = some y ∧ y.qstate = .broken ∧ y.staged = none ∧ y.e = x.e ∧
      y.sqHead = x.sqHead ∧ y.sqTail = x.sqTail ∧ QueueStep s (breakQueue s f q b) := by
  obtain ⟨z, hz, hcore⟩ := core_get (breakChain_core s (.ring f q) (Reply.bare .controlFault)) hqueue nofun
  obtain ⟨-, hhead, htail, he⟩ := core_eq_positions hcore
  unfold breakQueue
  extract_lets t u
  have ht : t.queue (.ring f q) = some { z with
      qstate := .broken, staged := none, mute := b, shown := if b then .broken else z.shown } := by
    rw [State.queue_modQueue, hz]
    rfl
  have hstep : QueueStep s t := (queueStep_breakChain ..).trans (ends_modQueue ..).queueStep
  have hu : Sends t u := by
    simp only [u]
    split
    · exact sends_signalQueue ..
    · exact sends_writeShadow ..
  obtain ⟨y, hy, hinner⟩ := hu.ring_inner ht
  obtain ⟨hstaged, hhead', htail', he', hstate, -⟩ := inner_eq_submission hinner
  refine ⟨y, ?_, hstate, hstaged, he'.trans he, hhead'.trans hhead, htail'.trans htail, ?_⟩
  · exact (signalVec_queue ..).trans ((addRecord_queue ..).trans hy)
  · exact ((hstep.trans hu.queueStep).trans (queueStep_addRecord ..)).trans (sends_signalVec ..).queueStep

/-! ## Acceptance -/

theorem four_le_reply (x : Queue) (c : Cmd) (h : 64 ≤ x.cqSize) : 4 ≤ min (replyNeed s c) (replyLimit x) / 16 := by
  have hneed : 64 ≤ replyNeed s c := Nat.le_add_right ..
  have hlimit : 64 ≤ replyLimit x := le_min (by decide) h
  exact (Nat.le_div_iff_mul_le (by decide)).2 (le_min hneed hlimit)

theorem four_le_space (x : Queue) (b : Bool) (c : Cmd) (h : 64 ≤ x.cqSize) :
    4 ≤ if b then 4 else min (replyNeed s c) (replyLimit x) / 16 := by
  split
  · exact le_rfl
  · exact four_le_reply x c h

/-- While the completion ring has less than the shortest reply's space, the packet waits (R270). -/
theorem acceptStaged_waits (src : Src) (hsize : 64 ≤ x.cqSize) (hshort : x.cqFree < 4) : acceptStaged s src x bs = none := by
  have hnew : acceptNew s src x bs = none := if_pos (hshort.trans_le (four_le_space x _ _ hsize))
  unfold acceptStaged
  split
  · exact hnew
  · split
    · exact if_pos hshort
    · exact if_pos (hshort.trans_le (four_le_space x _ _ hsize))
    · exact hnew

/-- What a packet's acceptance leaves, whatever the later checks said: the next E, and nothing staged (R266). -/
def AcceptedIn (s t : State) (src : Src) (x : Queue) : Prop :=
  ∃ y, t.queue src = some y ∧ y.e = (x.e + 1) % 2 ^ 64 ∧ y.staged = none ∧ y.sqHead = x.sqHead ∧ t.stores = s.stores ∧
    t.sessions = s.sessions

/-- Acceptance replaces the queue by `y`; what follows keeps the cores of the queues. -/
theorem acceptedIn_of {e : Prop} {u : State} (hu : K2 e (s.setQueue (.ring f q) y) u) (he : y.e = (x.e + 1) % 2 ^ 64)
    (hstaged : y.staged = none) (hhead : y.sqHead = x.sqHead) : AcceptedIn s u (.ring f q) x := by
  obtain ⟨z, hz, hcore⟩ := k2_get hu (State.queue_setQueue ..) nofun
  obtain ⟨hs, hh, -, hez⟩ := core_eq_positions hcore
  exact ⟨z, hz, hez.trans he, hs.trans hstaged, hh.trans hhead, hu.stores, hu.sessions⟩

theorem Sends.k2 {e : Prop} (h : Sends s t) : K2 e s t := k2_ends h.core h.ends

theorem k2_haltQueue {e : Prop} (s : State) (src : Src) (acc seq : Nat) : K2 e s (haltQueue s src acc seq) :=
  k2_ends (core_haltQueue ..) (ends_haltQueue ..)

/-- A further packet of a command that has ended is accepted and answered (R265). -/
theorem acceptEnded_some (ch : Chain) (r : Reply) (hfree : 4 ≤ x.cqFree) :
    ∃ t, acceptEnded s (.ring f q) x ch r bs = some t ∧ AcceptedIn s t (.ring f q) x := by
  unfold acceptEnded
  extract_lets h halt src sl y u
  rw [if_neg (Nat.not_lt.2 hfree)]
  refine ⟨_, rfl, acceptedIn_of (e := False) (y := y) ?_ rfl rfl rfl⟩
  split
  · exact (k2_haltQueue ..).trans (sends_drain ..).k2
  · exact (sends_drain ..).k2

/-- A further packet of a command in flight is accepted, whatever its verdict (R263, R266). -/
theorem acceptLater_some (ch : Chain) (c : Cmd) (hsize : 64 ≤ x.cqSize) (hfree : replyLimit x / 16 ≤ x.cqFree) :
    ∃ t, acceptLater s (.ring f q) x ch c bs = some t ∧ AcceptedIn s t (.ring f q) x := by
  unfold acceptLater
  extract_lets h verdict ok c' space sl y u
  have hspace : space ≤ x.cqFree := by
    have hlimit : 64 ≤ replyLimit x := le_min (by decide) hsize
    have : space ≤ replyLimit x / 16 := by
      simp only [space]
      split
      · omega
      · exact Nat.div_le_div_right (Nat.min_le_right ..)
    omega
  rw [if_neg (Nat.not_lt.2 hspace)]
  have hu : K2 False (s.setQueue (.ring f q) y) u := k2_cmds _ _
  have hkeep (v : State) (hv : K2 False u v) : AcceptedIn s v (.ring f q) x := acceptedIn_of (hu.trans hv) rfl rfl rfl
  clear_value verdict
  split
  · exact ⟨_, rfl, hkeep _ (k2_end ..)⟩
  · refine ⟨_, rfl, hkeep _ ?_⟩
    split
    · exact .refl _
    · exact k2_completeAccept _ _ _ fun h => h.elim

/-- With the longest reply's space free, a staged packet is accepted (R266, R270). -/
theorem acceptStaged_some (hsize : 64 ≤ x.cqSize) (hfree : replyLimit x / 16 ≤ x.cqFree) :
    ∃ t, acceptStaged s (.ring f q) x bs = some t ∧ AcceptedIn s t (.ring f q) x ∧
      (x.chain = none → t.accNo = s.accNo + 1 ∧ ((hdrOf bs).opcode ≠ 0x03 → t.engines = s.engines)) := by
  have hlimit : 64 ≤ replyLimit x := le_min (by decide) hsize
  obtain ⟨t, y, hnew, hy, he, hstaged, hhead, hstores, hsessions, hacc, hengines⟩ :=
    acceptNew_some (.ring f q) s x bs hlimit hfree nofun
  have hin : AcceptedIn s t (.ring f q) x := ⟨y, hy, he, hstaged, hhead, hstores, hsessions⟩
  unfold acceptStaged
  split
  · exact ⟨t, hnew, hin, fun _ => ⟨hacc, hengines⟩⟩
  · next ch hchain =>
    have hno {p : Prop} (h : x.chain = none) : p := absurd (hchain.symm.trans h) nofun
    split
    · next r _ =>
      obtain ⟨u, hu, hin'⟩ := acceptEnded_some (bs := bs) (f := f) (q := q) (s := s) ch r (x := x) (by omega)
      exact ⟨u, hu, hin', hno⟩
    · next c _ _ =>
      obtain ⟨u, hu, hin'⟩ := acceptLater_some (bs := bs) (f := f) (q := q) (s := s) ch c hsize hfree
      exact ⟨u, hu, hin', hno⟩
    · exact ⟨t, hnew, hin, hno⟩

theorem exec_packetAccept (hqueue : s.queue (.ring f q) = some x) (hstaged : x.staged = some bs)
    (hmay : mayAccept s (.ring f q) x = true) :
    exec (.packetAccept f q) s = .next ((acceptStaged s (.ring f q) x bs).getD s) := by
  show Host.Outcome.next (acceptAt s (.ring f q)) = _
  simp only [acceptAt, hqueue, hstaged, hmay, if_true]

/-! ## Duplicates -/

theorem exec_okDuplicate (hqueue : s.queue (.ring f q) = some x) (hup : s.gatehouseUp = true) : exec (.okDuplicate f q) s =
    .next (drain (s.setQueue (.ring f q) { x with slots := x.slots.map (dupReply x) }) (.ring f q)) := by
  show Host.Outcome.next (if s.gatehouseUp then answerDuplicates s (.ring f q) else s) = _
  rw [if_pos hup, answerDuplicates, hqueue]

theorem dupReply_answered (x : Queue) {sl : Slot} (h : sl.reply.isSome = true) : dupReply x sl = sl := by
  rw [dupReply, Option.isNone_eq_false_iff.2 h, Bool.and_false]
  rfl

theorem dupReply_unanswered (x : Queue) {sl : Slot} {st : Status} (hkind : sl.kind = .duplicate) (hnone : sl.reply = none)
    (hst : (mget x.window sl.seq).bind (·.status) = some st) :
    dupReply x sl = { sl with reply := some { Reply.bare .okDuplicate with orig := st.code } } := by
  rw [dupReply, hkind, hnone, hst]
  rfl

theorem dupReply_seq (x : Queue) (sl : Slot) : (dupReply x sl).seq = sl.seq := by
  unfold dupReply
  split
  · split <;> rfl
  · rfl

/-- A duplicate that remains carries the reply it had, or the one that its original's status gives (R267). -/
theorem dupReply_remains (x : Queue) {z sl : Slot} {st : Status} (hz : sl.unstaged = (dupReply x z).unstaged)
    (hkind : sl.kind = .duplicate) (hst : (mget x.window sl.seq).bind (·.status) = some st) :
    (z.reply.isSome ∧ sl = { z with staged := sl.staged }) ∨
      sl.reply = some { Reply.bare .okDuplicate with orig := st.code } := by
  have hsame {α : Type} (g : Slot → α) : g sl.unstaged = g (dupReply x z).unstaged := congrArg g hz
  rcases Bool.eq_false_or_eq_true z.reply.isSome with hreply | hnone
  · rw [dupReply_answered x hreply] at hz
    exact .inl ⟨hreply, congrArg (fun y : Slot => { y with staged := sl.staged }) hz⟩
  · have hreply : z.reply = none := Option.isSome_eq_false_iff.1 hnone |> Option.isNone_iff_eq_none.1
    have hseq : sl.seq = z.seq := (hsame (·.seq)).trans (dupReply_seq ..)
    have hk : z.kind = .duplicate := ((hsame (·.kind)).trans (dupReply_kind ..)).symm.trans hkind
    refine .inr ((hsame (·.reply)).trans ?_)
    rw [dupReply_unanswered x hk hreply (hseq ▸ hst)]
    rfl

/-! ## The statements on the fetch and on ring faults -/

/-- A queue whose packet has been taken: the head stands past it (R262). -/
def pastPacket (x : Queue) (bs : List Byte) : Queue := { x with sqHead := (x.sqHead + (hdrOf bs).tlen / 16) % 2 ^ 32 }

/-- A packet whose SEQ is E is staged (R267). -/
theorem sequenceCheck_next {u : State} {src : Src} (hseq : (hdrOf bs).seq = x.e) :
    sequenceCheck u src x bs = u.setQueue src { x with staged := some bs } := if_pos hseq

/-- What a stale packet leaves of its queue before its reply is sent (R268): an ORDERED queue halts. -/
def staleQueue (x : Queue) (bs : List Byte) : Queue :=
  let y := { x with slots := x.slots ++ [refusalSlot (hdrOf bs) false (!x.unordered) ⟨.staleSequence, 0, 0, x.e, [], []⟩] }
  if x.unordered then y else { y with qstate := .halted, byRing := true, haltSeq := x.e }

theorem sequenceCheck_stale {u : State} {src : Src} (hne : (hdrOf bs).seq ≠ x.e) (hin : inWindow x (hdrOf bs).seq = none) :
    sequenceCheck u src x bs = drain (u.setQueue src (staleQueue x bs)) src := by
  rw [seq_stale u src x bs hne hin]
  unfold sequenceCheck.staleAt staleQueue
  split <;> rfl

/-- Settles O12: the packet's outcome replaces the queue by the staged or the refused one, and the rest of the step only
sends. -/
theorem packetFetchChecksSequence : Obligations.PacketFetchChecksSequence := by
  unfold Obligations.PacketFetchChecksSequence
  intro f q bs s x hqueue hfetch hwhole hcrc
  obtain ⟨-, hempty⟩ := mayFetch_facts hfetch
  have hstale (hne : (hdrOf bs).seq ≠ x.e) (hin : inWindow x (hdrOf bs).seq = none) :=
    fetch_checked hqueue hfetch hwhole hcrc rfl (y := staleQueue (pastPacket x bs) bs)
      ((sequenceCheck_stale (x := pastPacket x bs) hne hin) ▸ sends_drain ..)
  refine ⟨fun hseq => ?_, fun hne hin hordered => ?_, fun hne hin hunordered => ?_⟩
  · obtain ⟨t, z, hexec, hz, hinner, hkept⟩ := fetch_checked hqueue hfetch hwhole hcrc rfl
      (y := { pastPacket x bs with staged := some bs }) ((sequenceCheck_next (x := pastPacket x bs) hseq) ▸ .refl _)
    obtain ⟨hstaged, hhead, -, he, hstate, -⟩ := inner_eq_submission hinner
    exact ⟨t, z, hexec, hz, hstaged, hhead, he, hstate, hkept⟩
  · obtain ⟨t, z, hexec, hz, hinner, hkept⟩ := hstale hne hin
    rw [staleQueue, if_neg (show ¬(pastPacket x bs).unordered = true from Bool.eq_false_iff.1 hordered)] at hinner
    obtain ⟨-, hhead, htail, he, hstate, hring, hseq, -⟩ := inner_eq_submission hinner
    exact ⟨t, z, hexec, hz, ⟨hstate, hring, hseq, he, htail⟩, hhead, hkept⟩
  · obtain ⟨t, z, hexec, hz, hinner, hkept⟩ := hstale hne hin
    rw [staleQueue, if_pos (show (pastPacket x bs).unordered = true from hunordered)] at hinner
    obtain ⟨hstaged, -, -, he, hstate, -⟩ := inner_eq_submission hinner
    exact ⟨t, z, hexec, hz, hstate, he, hstaged.trans hempty, hkept⟩

theorem fetch_window (hqueue : s.queue (.ring f q) = some x) (hmay : mayAccess s f x = true) (b : Bool) :
    fetchPacket f q (.window b) s = breakQueue s f q b := by
  simp only [fetchPacket, hqueue, hmay, if_true]

/-- Settles O13: a failed window check breaks the queue, and each of the three faults is the same ring fault. -/
theorem ringFaultHaltsTheQueue : Obligations.RingFaultHaltsTheQueue := by
  unfold Obligations.RingFaultHaltsTheQueue
  refine ⟨fun f q b s x hqueue hmay => ?_, fun f q s x hqueue hfetch => ⟨fun bs hwhole hcrc => ?_, fun bs hlong hbad => ?_,
    fun b => ?_⟩⟩
  · obtain ⟨y, hbroken⟩ := breakQueue_broken hqueue b
    exact ⟨_, y, by rw [fetch_exec, fetch_window hqueue hmay], hbroken⟩
  · obtain ⟨r, hr⟩ := takePacket_wrong (x := x) (countIn s f (hdrOf bs).tlen) (.ring f q) hcrc
    obtain ⟨y, hy, hhalted, hhead, hstaged, hstep⟩ :=
      ringFault_halts (countIn s f (hdrOf bs).tlen) ((countIn_queue ..).trans hqueue) (hdrOf bs) true r
    exact ⟨_, y, by rw [fetch_exec, fetch_whole hqueue hfetch hwhole, hr], hy, hhalted, hhead, hstaged,
      (queueStep_countIn ..).trans hstep⟩
  · obtain ⟨r, hr⟩ := fetch_badLength hqueue hfetch hlong hbad
    obtain ⟨y, hfault⟩ := ringFault_halts s hqueue (hdrOf bs) true r
    exact ⟨_, y, by rw [fetch_exec, hr], hfault⟩
  · obtain ⟨h, r, hr⟩ := fetch_failed hqueue hfetch b
    obtain ⟨y, hy, hhalted, hhead, hstaged, hstep⟩ := ringFault_halts s hqueue h true r
    refine ⟨ringRecord _ _, y, by rw [fetch_exec, hr], ?_, (addRecord_queue ..).trans hy, hhalted, hhead, hstaged,
      hstep.trans (queueStep_addRecord ..)⟩
    show Host.Outcome.next (fetchPacket f q (.failed b) s) = _
    rw [hr]

/-- Settles O14: whichever of the three ways the packet is accepted, its queue has the next E and holds nothing staged. -/
theorem acceptanceAdvancesE : Obligations.AcceptanceAdvancesE := by
  unfold Obligations.AcceptanceAdvancesE
  intro f q s x bs hqueue hstaged hmay hsize
  refine ⟨fun hfree => ?_, fun hshort => ?_⟩
  · obtain ⟨t, ht, ⟨y, hy, he, hs, hhead, hstores, hsessions⟩, hnew⟩ := acceptStaged_some (bs := bs) hsize hfree
    exact ⟨t, y, by rw [exec_packetAccept hqueue hstaged hmay, ht, Option.getD_some], hy, he, hs, hhead, hstores, hsessions, hnew⟩
  · rw [exec_packetAccept hqueue hstaged hmay, acceptStaged_waits _ hsize hshort, Option.getD_none]

/-! ## The one reply that a function owes -/

/-- What follows a written reply: outputs are only added, and the queue keeps its completion tail. -/
structure Follows (src : Src) (s t : State) : Prop where
  out : ∃ es, t.out = s.out ++ es
  tail : (t.queue src).map (·.cqTail) = (s.queue src).map (·.cqTail)

theorem Follows.refl (src : Src) (s : State) : Follows src s s := ⟨⟨[], (List.append_nil _).symm⟩, rfl⟩

theorem Follows.trans {src : Src} {u : State} (h : Follows src s t) (k : Follows src t u) : Follows src s u := by
  obtain ⟨as, ha⟩ := h.out
  obtain ⟨bs, hb⟩ := k.out
  exact ⟨⟨as ++ bs, by rw [hb, ha, List.append_assoc]⟩, k.tail.trans h.tail⟩

theorem follows_sendFrom (src : Src) (s : State) (f : FuncId) (es : List Emit) : Follows src s (sendFrom s f es) :=
  ⟨⟨es, rfl⟩, by cases src <;> rfl⟩

theorem follows_setQueue (hqueue : s.queue (.ring f q) = some x) (h : y.cqTail = x.cqTail) :
    Follows (.ring f q) s (s.setQueue (.ring f q) y) := by
  refine ⟨⟨[], (List.append_nil _).symm⟩, ?_⟩
  rw [State.queue_setQueue, hqueue]
  exact congrArg some h

theorem follows_signalVec (src : Src) (s : State) (f : FuncId) (v : Nat) : Follows src s (signalVec s f v) := by
  refine ⟨?_, by rw [signalVec_queue]⟩
  unfold signalVec
  extract_lets e
  split
  · exact (follows_sendFrom src ..).out
  · exact (Follows.refl src s).out

theorem follows_signalQueue (s : State) (f : FuncId) (q : Nat) : Follows (.ring f q) s (signalQueue s f q) := by
  unfold signalQueue
  split
  · exact .refl ..
  · next x hqueue =>
    extract_lets t
    have ht : Follows (.ring f q) s t := follows_setQueue hqueue rfl
    split
    · exact ht.trans (follows_signalVec ..)
    · exact ht

theorem follows_putShadow (s : State) (f : FuncId) (q : Nat) : Follows (.ring f q) s (putShadow s f q).1 := by
  unfold putShadow
  split
  · exact .refl ..
  · next x hqueue =>
    split
    · exact .refl ..
    · split
      · extract_lets st t
        have ht : Follows (.ring f q) s t := follows_setQueue hqueue rfl
        exact ht.trans (follows_sendFrom ..)
      · exact follows_setQueue hqueue rfl

theorem follows_countReply (s : State) (f : FuncId) (q : Nat) (irq changed : Bool) (st : Status) :
    Follows (.ring f q) s (countReply s f q irq changed st) := by
  unfold countReply
  split
  · exact .refl ..
  · next x hqueue =>
    extract_lets n
    split
    · split
      · exact follows_signalQueue ..
      · exact follows_setQueue hqueue rfl
    · exact .refl ..

theorem cfg_setQueue (s : State) (f g : FuncId) (q : Nat) (x : Queue) :
    ((s.setQueue (.ring f q) x).fn g).cfg = (s.fn g).cfg := congrArg (·.cfg) (setQueue_still s (.ring f q) x g)

theorem dmaOk_setQueue (s : State) (f g : FuncId) (q : Nat) (x : Queue) : (s.setQueue (.ring f q) x).dmaOk g = s.dmaOk g := by
  have hflr : ((s.setQueue (.ring f q) x).fn g).flr = (s.fn g).flr := congrArg (·.flr) (setQueue_still s (.ring f q) x g)
  simp only [State.dmaOk, cfg_setQueue, hflr]
  rfl

/-- A reply that does not wait for DMA is written: its bytes go out first, and the tail moves past them. -/
theorem writeReply_follows (hqueue : s.queue (.ring f q) = some x) {sl : Slot} (r : Reply) (hdma : sl.staged = false) :
    (∃ es, (writeReply s (.ring f q) sl r).out =
        s.out ++ ringWrites (s.payload f) f q x (replyBytes sl r) (s.fn f).cfg.relaxed ++ es) ∧
      ((writeReply s (.ring f q) sl r).queue (.ring f q)).map (·.cqTail) =
        some ((x.cqTail + (replyBytes sl r).length / 16) % 2 ^ 32) ∧
      ∀ y, (writeReply s (.ring f q) sl r).queue (.ring f q) = some y → ∀ w ∈ y.slots, ∃ z ∈ x.slots.erase sl,
          w.unstaged = z.unstaged := by
  unfold writeReply
  extract_lets bytes
  simp -zeta only [hqueue, hdma, Bool.false_eq_true, if_false]
  extract_lets t u v w
  have hrest : Follows (.ring f q) v (countReply w.1 f q sl.irq w.2 r.status) :=
    (follows_putShadow ..).trans (follows_countReply ..)
  obtain ⟨es, hes⟩ := hrest.out
  have hv : v.queue (.ring f q) = t.queue (.ring f q) := by
    show mget (v.fn f).queues q = _
    simp only [v, State.fn_modFn]
    rfl
  rw [State.queue_setQueue] at hv
  refine ⟨⟨es, hes⟩, hrest.tail.trans (by rw [hv]; rfl), fun y hy z hz => ?_⟩
  have hsends : Sends v (countReply w.1 f q sl.irq w.2 r.status) := (sends_putShadow ..).trans (sends_countReply ..)
  obtain ⟨a, ha, -, hold⟩ := (hsends.side (.ring f q)).old y hy
  obtain rfl := Option.some.inj (hv.symm.trans ha)
  exact hold z hz (.inr nofun)

/-- Where a queue's one slot carries a reply that may be written, draining its function writes that reply. -/
theorem drain_single {sl : Slot} {r : Reply} (honly : (s.fn f).queues = [(q, x)]) (hslots : x.slots = [sl])
    (hreply : sl.reply = some r) (htarget : sl.target = none) (hmay : s.mayReply = true) (hdma : s.dmaOk f = true)
    (hstate : x.qstate ≠ .broken) (hspace : replyLen sl r / 16 ≤ x.cqFree + sl.space) :
    drain s (.ring f q) = writeReply s (.ring f q) sl r := by
  have hwrite : writable s f x [] x.slots = some (sl, r) := by
    rw [hslots, writable]
    simp [hreply, htarget, hspace]
  have hnext : nextReply s f (s.fn f).queues = some (q, sl, r) := by
    rw [honly, nextReply, if_neg (by simpa using hstate), hwrite]
  have hone : waiting (s.fn f) = 1 := by
    rw [waiting, honly]
    simp [hslots]
  simp only [drain, hmay, hdma, hone, drainFn, hnext, Bool.not_true, Bool.and_false, Bool.false_eq_true, if_false, Bool.and_self,
    if_true]

/-- The reply to a duplicate is 64 bytes, whether its packet is part of a chain or not (R276). -/
theorem bareReply_granules (sl : Slot) (st : Status) : replyLen sl { Reply.bare .okDuplicate with orig := st.code } / 16 = 4 := by
  unfold replyLen
  split
  · rfl
  · simp [Reply.bare, roundUp, ceilDiv]

/-- Settles O15: answering replaces each slot by its answered form, and what follows only sends. -/
theorem duplicatesAreAnswered : Obligations.DuplicatesAreAnswered := by
  unfold Obligations.DuplicatesAreAnswered
  intro f q s x hqueue hup
  let x' : Queue := { x with slots := x.slots.map (dupReply x) }
  have hx' : (s.setQueue (.ring f q) x').queue (.ring f q) = some x' := State.queue_setQueue ..
  have hsends := sends_drain (s.setQueue (.ring f q) x') (.ring f q)
  obtain ⟨y, hy, hinner⟩ := hsends.ring_inner hx'
  obtain ⟨-, -, -, he, -, -, -, hwindow⟩ := inner_eq_submission hinner
  obtain ⟨a, ha, -, hold⟩ := (hsends.side (.ring f q)).old y hy
  obtain rfl : x' = a := Option.some.inj (hx'.symm.trans ha)
  refine ⟨_, y, exec_okDuplicate hqueue hup, hy, he, hwindow, (untouched_setQueue ..).trans hsends.untouched,
    hsends.ends.queueStep.engines, fun sl hsl hkind st hst => ?_, ?_⟩
  · obtain ⟨w, hw, hsame⟩ := hold sl hsl (.inr nofun)
    obtain ⟨z, hz, rfl⟩ := List.mem_map.1 hw
    exact (dupReply_remains x hsame hkind hst).imp_left fun h => ⟨z, hz, h⟩
  · rintro sl st r honly hslots hkind hnone htarget hstaged hst hmay hdma hstate hspace rfl
    have hanswer := dupReply_unanswered x hkind hnone hst
    have hone : x'.slots = [dupReply x sl] := by rw [← List.map_singleton, ← hslots]
    have hqueues : ((s.setQueue (.ring f q) x').fn f).queues = [(q, x')] := by
      simp [State.setQueue, honly, mput]
    have hfree : 4 ≤ x'.cqFree + (dupReply x sl).space := by
      have hsame : x'.cqFree + (dupReply x sl).space = x.cqFree + sl.space := by
        show x.cqSize / 16 - x.cqOcc - (x'.slots.map (·.space)).sum + _ = _
        rw [hone, hanswer, Queue.cqFree, hslots]
        rfl
      exact hsame ▸ hspace
    have hdrain := drain_single (f := f) hqueues hone (by rw [hanswer]) (by rw [hanswer]; exact htarget) hmay
      ((dmaOk_setQueue ..).trans hdma) hstate ((bareReply_granules _ st).trans_le hfree)
    have hwritten := writeReply_follows (sl := dupReply x sl) hx'
      { Reply.bare .okDuplicate with orig := st.code } (by rw [hanswer]; exact hstaged)
    rw [← hdrain] at hwritten
    obtain ⟨⟨es, hout⟩, htail, hslots'⟩ := hwritten
    rw [hy] at htail
    rw [State.payload, cfg_setQueue, cfg_setQueue, hanswer] at hout
    rw [hanswer] at htail
    refine ⟨List.eq_nil_iff_forall_not_mem.2 fun w hw => ?_, Option.some.inj htail, es, hout⟩
    obtain ⟨z, hz, -⟩ := hslots' y hy w hw
    rw [hone, List.erase_cons_head] at hz
    exact List.not_mem_nil hz

/-! ## The coalescing timer -/

theorem vec_setQueue (s : State) (f : FuncId) (q : Nat) (x : Queue) (v : Nat) :
    ((s.setQueue (.ring f q) x).fn f).vec v = (s.fn f).vec v := by
  simp [State.setQueue, Func.vec]

theorem signalQueue_ien (hqueue : s.queue (.ring f q) = some x) (hien : x.ien = true) :
    signalQueue s f q = signalVec (s.setQueue (.ring f q) { x with counted := 0, timer := none }) f x.vector := by
  simp only [signalQueue, hqueue, hien, if_true]

/-- A signalled queue has neither a count nor a timer left (R282). -/
theorem signalQueue_queue (hqueue : s.queue (.ring f q) = some x) (hien : x.ien = true) :
    (signalQueue s f q).queue (.ring f q) = some { x with counted := 0, timer := none } := by
  rw [signalQueue_ien hqueue hien, signalVec_queue, State.queue_setQueue]

theorem vecOpen_setQueue (s : State) (f : FuncId) (q : Nat) (x : Queue) (v : Nat) :
    vecOpen (s.setQueue (.ring f q) x) f v = (s.dmaOk f && (s.fn f).cfg.msixEnable && !(s.fn f).cfg.msixMask &&
      !((s.fn f).vec v).masked && (!s.fatal || v == ((s.setQueue (.ring f q) x).fn f).errVec)) := by
  rw [vecOpen]
  simp only [dmaOk_setQueue, cfg_setQueue, vec_setQueue]
  rfl

theorem exec_irqCoalesceTimeout (hqueue : s.queue (.ring f q) = some x) (hlive : s.alive = true) {t₀ : Nat}
    (htimer : x.timer = some t₀) : exec (.irqCoalesceTimeout f q) s =
      .next (if t₀ + usec x.ctime ≤ s.lclk then signalQueue s f q else s) := by
  show execIrqCoalesceTimeout f q s = _
  simp only [execIrqCoalesceTimeout, hqueue, hlive, coalesceDue, htimer, Bool.and_true, decide_eq_true_eq,
      apply_ite Host.Outcome.next]

/-- Settles O16: a timer that is due signals the queue's vector, which is open or keeps its message pending. -/
theorem coalescedInterrupt : Obligations.CoalescedInterrupt := by
  unfold Obligations.CoalescedInterrupt
  intro f q s x t₀ hqueue hlive htimer
  have hexec := exec_irqCoalesceTimeout hqueue hlive htimer
  refine ⟨fun hdue hien hdma henable hmask hvec => ?_, fun hdue hien hclosed => ?_, fun hearly => ?_⟩
  · rw [if_pos hdue] at hexec
    have hkept : Untouched s (signalQueue s f q) := (sends_signalQueue ..).untouched
    refine ⟨_, hexec, signalQueue_queue hqueue hien, ?_, hkept⟩
    have hopen := vecOpen_setQueue s f q { x with counted := 0, timer := none } x.vector
    simp only [hdma, henable, hmask, hvec, alive_fatal hlive, Bool.not_false, Bool.true_or, Bool.and_self] at hopen
    rw [signalQueue_ien hqueue hien, signalVec, if_pos hopen, vec_setQueue]
    rfl
  · rw [if_pos hdue] at hexec
    have hkept : Untouched s (signalQueue s f q) := (sends_signalQueue ..).untouched
    have hshut : vecOpen (s.setQueue (.ring f q) { x with counted := 0, timer := none }) f x.vector = false := by
      rw [vecOpen_setQueue]
      rcases hclosed with h | h | h <;> simp [h]
    refine ⟨_, hexec, signalQueue_queue hqueue hien, ?_, ?_, hkept⟩
    all_goals rw [signalQueue_ien hqueue hien, signalVec, if_neg (Bool.eq_false_iff.1 hshut)]
    · rfl
    · simp [Func.vec, mget_mput]
  · rw [hexec, if_neg (Nat.not_le.2 hearly)]

end Sys2Proof.Machine
end

section
/-!
PROOF. The opcodes that read or write a plot's own state: NOP, FENCE, ABORT, QUERY, SCALAR_SET, the tensor commands and the tables
(R288 to R298, R315).
-/

namespace Sys2Proof.Machine

open Sys2Proof

variable {s t : State} {c : CmdRef} {op n : Nat} {d : Cmd} {p : Plot}

/-! ## A command at its turn -/

/-- A command at its turn runs its own step. -/
theorem Turn.exec {i : Instr} {k : Cmd → State} (h : Turn s c op d) (hi : exec i s = .next (atTurn c op s k)) :
    Machine.exec i s = .next (k d) := by
  rw [hi, turn_facts h]

theorem Turn.opcode (h : Turn s c op d) : d.opcode = op := h.2.1

/-- NOP, FENCE, ABORT and the like end with an OK reply at once, from the state `u`. -/
theorem Turn.done {i : Instr} {k : Cmd → State} (h : Turn s c op d) (hi : Machine.exec i s = .next (atTurn c op s k)) {u : State}
    {r : Reply} (hk : k d = endCmd u d r) (hok : r.status = .ok) : Done i s u d r :=
  done_endCmd _ _ _ _ _ (by rw [h.exec hi, hk]) hok

theorem Turn.endsAs {i : Instr} {k : Cmd → State} (h : Turn s c op d) (hi : Machine.exec i s = .next (atTurn c op s k)) {r : Reply}
    (hk : k d = endCmd s d r) : EndsAs i s d r :=
  endsAs_endCmd _ _ _ _ (by rw [h.exec hi, hk])

theorem Turn.waits {i : Instr} {k : Cmd → State} (h : Turn s c op d) (hi : Machine.exec i s = .next (atTurn c op s k))
    (hk : k d = s) : Machine.exec i s = .next s := by
  rw [h.exec hi, hk]

/-! ## NOP, FENCE, ABORT -/

theorem drainPlot_spad (hplot : InPlot s d n p) (e : Nat) (he : e < 6) :
    ((drainPlot s d).eng e).spad = if bitOf p.engmask e then (s.eng e).spad.drain.1 else (s.eng e).spad := by
  have hmem : e ∈ maskList p.engmask ↔ bitOf p.engmask e = true := by simp [maskList, he]
  rw [drainPlot, plotFor_in hplot]
  simp only [foldl_drain _ (maskList_nodup _), hmem]

/-- Settles O17: NOP's step is its own end, and FENCE's the end after each engine's buffer is drained. -/
theorem nopAndFence : Obligations.NopAndFence := by
  unfold Obligations.NopAndFence
  refine ⟨fun c s d h => h.done rfl (turn_commit h _) rfl, fun c s d n p hcmd hop hmay hplot hclear => ?_,
      fun c s d hcmd hwait => ?_⟩
  · have hexec : exec (.fence c) s = .next (endCmd (drainPlot s d) d (Reply.ok [] [])) := by
      show Host.Outcome.next (atTurn c 0x02 s _) = _
      simp only [atTurn, hcmd, hop, hmay, hclear, decide_true, Bool.and_self, if_true]
    exact ⟨_, hexec, endCmd_ended .., fun e he => by rw [endCmd_eng, drainPlot_spad hplot e he]⟩
  · show Host.Outcome.next (atTurn c 0x02 s _) = _
    simp only [atTurn, hcmd, hwait, Bool.false_eq_true, if_false, ite_self]

/-- Settles O18: the ABORT ends with what was noted at its acceptance. -/
theorem abortAnswers : Obligations.AbortAnswers := by
  unfold Obligations.AbortAnswers
  refine ⟨fun c s d h hwon => h.done rfl ?_ rfl, fun c s d st h hwon hlate => h.endsAs rfl ?_⟩
  · simp only [turn_commit h, abortReply, hwon, if_true]
  · simp only [turn_commit h, abortReply, hwon, hlate, Option.map_some, Option.getD_some, Bool.false_eq_true, if_false]

/-! ## QUERY -/

/-- A QUERY that does not wait for its stream ends with its reply. -/
theorem query_step (h : Turn s c 0x04 d) (hstream : byteAt d.params 0 = 2 → streamTurn s d = true) :
    exec (.query c) s = .next (endCmd s d (queryReply s d)) := by
  have hgo : (d.namesStream && !streamTurn s d) = false := by
    rw [Cmd.namesStream, h.opcode]
    by_cases hwhat : byteAt d.params 0 = 2
    · rw [hstream hwhat, Bool.not_true, Bool.and_false]
    · simp [namesStream, hwhat]
  rw [h.exec rfl, hgo, turn_commit h]
  rfl

theorem query_waits (h : Turn s c 0x04 d) (hwhat : byteAt d.params 0 = 2) (hwait : streamTurn s d = false) :
    exec (.query c) s = .next s := by
  have hnames : d.namesStream = true := by simp [Cmd.namesStream, namesStream, h.opcode, hwhat]
  rw [h.exec rfl, hnames, hwait]
  rfl

theorem query_done (h : Turn s c 0x04 d) (hstream : byteAt d.params 0 = 2 → streamTurn s d = true) {bs : List Byte}
    (hreply : queryReply s d = Reply.ok bs []) : Done (.query c) s s d (Reply.ok bs []) :=
  done_endCmd _ _ _ _ _ (by rw [query_step h hstream, hreply]) rfl

theorem query_endsAs (h : Turn s c 0x04 d) (hstream : byteAt d.params 0 = 2 → streamTurn s d = true) {r : Reply}
    (hreply : queryReply s d = r) : EndsAs (.query c) s d r :=
  endsAs_endCmd _ _ _ _ (by rw [query_step h hstream, hreply])

/-- Settles O19: the step is the same for each form, and the reply follows the form's block. -/
theorem queryReports : Obligations.QueryReports := by
  unfold Obligations.QueryReports
  refine ⟨fun c s d h hwhat => query_done h (by omega) ?_, fun c s d n p h hplot => ⟨fun hwhat => query_done h (by omega) ?_,
    fun hwhat hturn => query_done h (fun _ => hturn) ?_, fun hwhat hwait => query_waits h hwhat hwait,
    fun hwhat z hz => query_done h (by omega) ?_, fun hwhat hnone => query_endsAs h (by omega) ?_⟩,
    fun c s d f q h hwhat hsrc => ⟨fun x hx => query_done h (by omega) ?_, fun hnone => query_endsAs h (by omega) ?_⟩⟩
  all_goals rw [queryReply, hwhat]
  · rfl
  · rw [plotFor_in hplot]
    rfl
  · rw [plotFor_in hplot]
    rfl
  · rw [plotFor_in hplot]
    simp only [hz]
  · rw [plotFor_in hplot]
    simp only [hnone]
    rfl
  · simp only [hsrc, hx]
    rfl
  · simp only [hsrc, hnone]
    rfl

/-! ## SCALAR_SET -/

theorem scalarValues_get (ps : List Byte) (k : Nat) (h : k < byteAt ps 1) :
    ((scalarValues ps)[k]?).getD 0 = fieldAt ps (16 + 8 * k) 8 := by
  simp [scalarValues, h]

/-- Settles O20: the registers from FIRST on take the values of the parameters in turn. -/
theorem scalarSetWrites : Obligations.ScalarSetWrites := by
  unfold Obligations.ScalarSetWrites
  intro c s d n p h hplot hwf
  refine ⟨setScalars p.scalars (byteAt d.params 0) (scalarValues d.params), h.done rfl ?_ rfl, fun i => ?_⟩
  · simp only [turn_commit h, plotFor_in hplot]
  · have hlen : (scalarValues d.params).length = byteAt d.params 1 := by simp [scalarValues]
    rw [setScalars_get _ hwf, hlen]
    split
    · exact scalarValues_get _ _ (by omega)
    · rfl

/-! ## TENSOR_PUT, TENSOR_GET and TENSOR_FREE -/

theorem tensorPut_step (h : Turn s c 0x10 d) (hplot : InPlot s d n p) : exec (.tensorPut c) s =
    .next (if bitOf (byteAt d.params 0) 5 then commitPutWrite s n p d else commitPut s n p d) := by
  rw [h.exec rfl, turn_commit h, plotFor_in hplot]

theorem commitPut_makes (s : State) (n : Nat) (p : Plot) (d : Cmd)
    (hcount : fieldAt d.params 8 4 * fieldAt d.params 12 4 * fieldAt d.params 16 4 * fieldAt d.params 20 4 ≠ 0) :
    commitPut s n p d = endCmd ((fillPromised s n d.handle).setPlot n
      { p with tensors := mput p.tensors d.handle (putTensor d d.stampAt), plans := fillReservation p d.handle }) d
          (Reply.ok [] []) :=
  if_neg hcount

theorem commitPut_empty (s : State) (n : Nat) (p : Plot) (d : Cmd)
    (hcount : fieldAt d.params 8 4 * fieldAt d.params 12 4 * fieldAt d.params 16 4 * fieldAt d.params 20 4 = 0) :
    commitPut s n p d = endCmd s d (Reply.ok [] []) := if_pos hcount

/-- Settles O21: a creating TENSOR_PUT commits by its counts alone. -/
theorem tensorPutCreates : Obligations.TensorPutCreates := by
  unfold Obligations.TensorPutCreates
  rintro c s d n p h hplot hcreate z rfl
  have hstep : exec (.tensorPut c) s = .next (commitPut s n p d) := by
    rw [tensorPut_step h hplot, if_neg (Bool.eq_false_iff.1 hcreate)]
  exact ⟨fun hcount => done_endCmd _ _ _ _ _ (by rw [hstep, commitPut_makes _ _ _ _ hcount]; rfl) rfl,
    fun hcount => done_endCmd _ _ _ _ _ (by rw [hstep, commitPut_empty _ _ _ _ hcount]) rfl⟩

/-- A write of an undamaged tensor replaces the bytes and records nothing (R223). -/
theorem commitPutWrite_clean {z : Tensor} (hz : mget p.tensors d.handle = some z) (hpay : d.payload ≠ []) (hclean : z.bad = []) :
    commitPutWrite s n p d = endCmd
      (setTensor s n d.handle { z with img := overwrite z.img (fieldAt d.params 32 8) d.payload, lost := 0 }) d
          (Reply.ok [] []) := by
  have hnote : noteTensorWrite s d d.handle z (fieldAt d.params 32 8) d.payload.length = s := by
    simp [noteTensorWrite, Tensor.writeCorrects, Tensor.writePoisons, hclean]
  have hpay' : d.payload.isEmpty = false := by simpa using hpay
  simp only [commitPutWrite, hz, hnote, Tensor.write, hpay', hclean, Bool.false_eq_true, if_false, List.filterMap_nil]

/-- Settles O22: a writing TENSOR_PUT overwrites the range in place. -/
theorem tensorPutWritesARange : Obligations.TensorPutWritesARange := by
  unfold Obligations.TensorPutWritesARange
  intro c s d n p h hplot hwrite
  have hstep : exec (.tensorPut c) s = .next (commitPutWrite s n p d) := by rw [tensorPut_step h hplot, if_pos hwrite]
  refine ⟨fun z hz hpay hclean => done_endCmd _ _ _ _ _ (by rw [hstep, commitPutWrite_clean hz hpay hclean]) rfl,
    fun hnone => endsAs_endCmd _ _ _ _ ?_⟩
  rw [hstep, commitPutWrite, hnone]
  rfl

theorem readBad_clean {z : Tensor} (h : z.bad = []) (off len : Nat) : z.readBad off len = none := by
  simp [Tensor.readBad, Tensor.badRanges, h]

/-- A command that ends on a damaged code word leaves every plot and engine alone but for the record (R360). -/
theorem runFails_failHbm {i : Instr} (u : Nat) (off : Nat) (hexec : exec i s = .next (failHbm s d u off)) :
    RunFails i s d [] (Reply.bare .uncorrectableData) :=
  runFails_of hexec (endCmd_ended ..) ((notes_addRecord ..).spares.trans (spares_endCmd ..)) (failHbm_keeps ..).1

theorem tensorFree_step (h : Turn s c 0x12 d) (hplot : InPlot s d n p) : exec (.tensorFree c) s = .next (if nameFree s d then
    if planDeclares p d.handle then endCmd s d (Reply.badParam 28)
    else endCmd (s.setPlot n { p with tensors := mdel p.tensors d.handle }) d (Reply.ok [] []) else s) := by
  rw [h.exec rfl, plotFor_in hplot]
  simp only [turn_commit h]
  rfl

/-- Settles O23: TENSOR_GET by the first damaged word of its range, TENSOR_FREE by the names of earlier commands. -/
theorem tensorGetAndFree : Obligations.TensorGetAndFree := by
  unfold Obligations.TensorGetAndFree
  refine ⟨fun c s d n p z h hplot hz => ⟨fun hclean => h.done rfl ?_ rfl, fun a hbad => runFails_failHbm d.handle a ?_⟩,
    fun c s d n p h hplot => ?_⟩
  · simp only [plotFor_in hplot, getTensor, hz, readBad_clean hclean, noteTensorRead_clean _ _ _ _ _ _ hclean, turn_commit h]
  · rw [h.exec rfl, plotFor_in hplot]
    simp only [getTensor, hz, hbad]
  · have hstep := tensorFree_step h hplot
    refine ⟨fun hfree hdecl => endsAs_endCmd _ _ _ _ ?_, fun hfree hdecl => done_endCmd _ _ _ _ _ ?_ rfl, fun hwait => ?_⟩
    · rw [hstep, if_pos hfree, if_pos hdecl]
    · rw [hstep, if_pos hfree, if_neg (Bool.eq_false_iff.1 hdecl)]
    · rw [hstep, if_neg (Bool.eq_false_iff.1 hwait)]

/-! ## TENSOR_MOVE -/

theorem tensors_of_bare {a b : State} (h : (mget b.plots n).map Plot.bare = (mget a.plots n).map Plot.bare) (k : Nat) :
    (mget b.plots n).bind (fun y => mget y.tensors k) = (mget a.plots n).bind (fun y => mget y.tensors k) := by
  have hbind (o : Option Plot) : o.bind (fun y => mget y.tensors k) = (o.map Plot.bare).bind fun y => mget y.tensors k := by
    cases o <;> rfl
  rw [hbind, h, ← hbind]

theorem setTensor_get {a : State} {q : Plot} (h : mget a.plots n = some q) (k : Nat) (z : Tensor) :
    (mget (setTensor a n k z).plots n).bind (fun y => mget y.tensors k) = some z := by
  rw [setTensor, modPlot_eq h]
  simp [State.setPlot]

/-- A read of a range with no error returns its bytes and changes nothing (R212). -/
theorem read_clean (a k : Nat) (q : Spad) (h : ∀ g ∈ granulesOf a k, mget q.gran g = none) :
    q.read a k = .ok (q.mem.readBytes a k) q ⟨[], []⟩ := by
  have hfilter : (granulesOf a k).filter (fun g => mget q.gran g == some .correctable) = [] :=
    List.filter_eq_nil_iff.2 fun g hg => by simp [h g hg]
  unfold Spad.read
  extract_lets gs cs w
  have hcs : cs = [] := hfilter
  split
  · next g hfind =>
    have hbad := List.find?_some hfind
    simp [h g (List.mem_of_find?_eq_some hfind)] at hbad
  · simp [w, hcs]

theorem opRead_clean (a k : Nat) (q : Spad) (h : ∀ g ∈ granulesOf a k, mget q.gran g = none) :
    (opRead a k (opStart q)).1 = .ok (q.mem.readBytes a k) ∧ (opRead a k (opStart q)).2.sp = q := by
  simp only [opRead, opStart, read_clean a k q h, and_self]

/-- After a move's run, the plot is there for its tensor to change. -/
theorem runOn_plot {α : Type} {d' : Cmd} (e : Nat) (m : OpM α) (hplot : mget s.plots n = some p) :
    ∃ q, mget (runOn s e d' m).2.2.plots n = some q ∧ q.sansLog = p.sansLog := by
  have hsame := (runOn_spad s e d' m).2.2 n
  rw [hplot] at hsame
  exact Option.map_eq_some_iff.1 hsame

/-- The step of a TENSOR_MOVE on a ready engine. -/
theorem tensorMove_ready {z : Tensor} {e a : Nat} (h : Turn s c 0x13 d) (hplot : InPlot s d n p)
    (hz : mget p.tensors d.handle = some z) (he : e = byteAt d.params 1) (ha : a = fieldAt d.params 4 4)
    (hready : engineReady s e = true) (hslice : (s.eng e).slice = none) : exec (.tensorMove c) s =
      .next (if byteAt d.params 0 == 1 then moveStore s n { d with placed := [e] } z e a
        else moveLoad s n { d with placed := [e] } z e a) := by
  obtain ⟨-, hlive⟩ := engineReady_facts hready
  subst he ha
  rw [h.exec rfl, plotFor_in hplot]
  simp only [moveTensor, hz, hlive, turn_commit h, onEngines_one _ _ _ hready hslice, Bool.false_eq_true, if_false]

theorem moveLoad_clean {z : Tensor} (d' : Cmd) (e a : Nat) (hclean : z.bad = []) : moveLoad s n d' z e a =
    endCmd (if z.movable then setTensor (runOn s e d' (opStores false (rangeStores a z.img))).2.2 n d'.handle
        { z with home := some (e, a) } else (runOn s e d' (opStores false (rangeStores a z.img))).2.2) d' (Reply.ok [] []) := by
  simp only [moveLoad, readBad_clean hclean, noteTensorRead_clean _ _ _ _ _ _ hclean]

theorem moveStore_clean {z : Tensor} (d' : Cmd) (e a : Nat) (hclean : ∀ g ∈ granulesOf a z.img.length,
    mget (s.eng e).spad.gran g = none) :
    moveStore s n d' z e a = endCmd (setTensor (runOn s e d' (opRead a z.img.length)).2.2 n d'.handle
      { z with img := (s.eng e).spad.mem.readBytes a z.img.length, bad := [], home := none, lost := 0 }) d' (Reply.ok [] []) := by
  have hread : (runOn s e d' (opRead a z.img.length)).1 = .ok ((s.eng e).spad.mem.readBytes a z.img.length) :=
    (runOn_spad ..).2.1.trans (opRead_clean _ _ _ hclean).1
  simp only [moveStore, hread]

/-- A move's end leaves the engines as the run left them. -/
theorem endCmd_setTensor_eng (u : State) (k : Nat) (z : Tensor) (d' : Cmd) (r : Reply) (e : Nat) :
    (endCmd (setTensor u n k z) d' r).eng e = u.eng e :=
  ((works_setTensor (E := fun _ => True) ..).trans (works_endCmd ..)).engs e trivial

/-- Settles O24: the run on the engine is one list of stores or one read, and the tensor's entry is set after it. -/
theorem tensorMoveMovesTheImage : Obligations.TensorMoveMovesTheImage := by
  unfold Obligations.TensorMoveMovesTheImage
  intro c s d n p z e a h hplot hz he ha
  have htensors (u : State) (d' : Cmd) (r : Reply) := tensors_of_bare (n := n) ((spares_endCmd (E :=
      fun _ => True) u d' r).plots n) d.handle
  refine ⟨fun hfailed => ?_, fun hload hclean hready hslice => ?_, fun hstore hclean hready hslice => ?_⟩
  · subst he ha
    refine h.endsAs rfl ?_
    simp only [plotFor_in hplot, moveTensor, hz, hfailed, if_true, Bool.and_eq_true, beq_iff_eq]
    rfl
  · let d' : Cmd := { d with placed := [e] }
    let m := opStores false (rangeStores a z.img)
    obtain ⟨q, hq, hlog⟩ := runOn_plot (d' := d') e m hplot.2
    have hexec := tensorMove_ready h hplot hz he ha hready hslice
    rw [hload, if_neg (by decide), moveLoad_clean d' e a hclean] at hexec
    have heng (g : Nat) : (endCmd (if z.movable then setTensor (runOn s e d' m).2.2 n d'.handle { z with home := some (e, a) }
        else (runOn s e d' m).2.2) d' (Reply.ok [] [])).eng g = (runOn s e d' m).2.2.eng g := by
      split
      · exact endCmd_setTensor_eng ..
      · exact endCmd_eng ..
    refine ⟨_, hexec, endCmd_ended .., ?_, fun g hg => (heng g).trans (runOn_other s e g d' m hg), ?_⟩
    · rw [heng]
      exact (runOn_spad s e d' m).1
    · rw [htensors]
      split
      · exact setTensor_get hq _ _
      · rw [hq]
        exact (congrArg (fun y : Plot => mget y.tensors d.handle) hlog).trans hz
  · let d' : Cmd := { d with placed := [e] }
    let m := opRead a z.img.length
    obtain ⟨q, hq, -⟩ := runOn_plot (d' := d') e m hplot.2
    have hexec := tensorMove_ready h hplot hz he ha hready hslice
    rw [hstore, if_pos (by decide), moveStore_clean d' e a hclean] at hexec
    refine ⟨_, hexec, endCmd_ended .., ?_, fun g hg => ?_, ?_⟩
    · rw [endCmd_setTensor_eng, (runOn_spad s e d' m).1]
      exact (opRead_clean _ _ _ hclean).2
    · rw [endCmd_setTensor_eng, runOn_other s e g d' m hg]
    · rw [htensors]
      exact setTensor_get hq _ _

/-! ## Tables -/

theorem tableWrite_step (h : Turn s c 0x14 d) (hplot : InPlot s d n p) : exec (.tableWrite c) s =
    .next (endCmd ((markStraddles s p d).setPlot n (writeTable p d)) d (Reply.ok (toLe 4 (s.cmds.countP
        (straddles s p d))) [])) := by
  rw [h.exec rfl, turn_commit h, plotFor_in hplot]

/-- Each command keeps the versions it held; one that straddles the publication keeps the replaced version too (R235). -/
theorem markStraddles_olds (hkind : byteAt d.params 0 = 0) :
    ∀ e ∈ (markStraddles s p d).cmds, ∃ e0 ∈ s.cmds, e = { e0 with olds := e.olds } ∧ e.olds = e0.olds ++
      (if straddles s p d e0 then [(64 + fieldAt d.params 2 2, (p.table
          (fieldAt d.params 2 2)).map fun v => toLe 2 v)] else []) := by
  intro e he
  obtain ⟨e0, he0, rfl⟩ := List.mem_map.1 he
  refine ⟨e0, he0, ?_⟩
  split
  · exact ⟨rfl, by simp [oldVersion, hkind]⟩
  · exact ⟨rfl, (List.append_nil _).symm⟩

/-- With DEFER = 1 nothing is published, so no command straddles it (R235). -/
theorem straddles_deferred (hdefer : byteAt d.params 1 = 1) (e : Cmd) : straddles s p d e = false := by
  simp [straddles, hdefer]

theorem markStraddles_deferred (hdefer : byteAt d.params 1 = 1) : markStraddles s p d = s := by
  simp [markStraddles, straddles_deferred hdefer]

/-- Settles O25: which version is written follows DEFER, and only an undeferred write makes commands straddle. -/
theorem tableWriteVersions : Obligations.TableWriteVersions := by
  unfold Obligations.TableWriteVersions
  rintro c s d n p h hplot hkind hcount tab first rfl rfl
  refine ⟨fun hdefer hpending m hm => ⟨done_endCmd _ _ _ _ _ ?_ rfl, markStraddles_olds hkind⟩,
    fun hdefer m hm => done_endCmd _ _ _ _ _ ?_ rfl⟩
  all_goals rw [tableWrite_step h hplot]; subst hm
  · simp [writeTable, hcount, hkind, hdefer, hpending, writeVersions, mset]
  · have hzero : s.cmds.countP (straddles s p d) = 0 := List.countP_eq_zero.2 fun e _ => by simp [straddles_deferred hdefer]
    simp [writeTable, hcount, hkind, hdefer, writeVersions, mset, hzero, markStraddles_deferred hdefer]

/-- Settles O26: the command waits for earlier readers of the table, and then publishes what is pending. -/
theorem descInvalidatePublishes : Obligations.DescInvalidatePublishes := by
  unfold Obligations.DescInvalidatePublishes
  refine fun c s d n p h hplot => ⟨fun hreaders => h.waits rfl ?_, fun hclear hkind => ⟨fun v tab htab hv => ?_, fun hnone => ?_⟩⟩
  · simp only [plotFor_in hplot, hreaders, if_true]
  · subst htab
    refine h.done rfl ?_ rfl
    simp only [plotFor_in hplot, hclear, turn_commit h, publish, hkind, hv, Bool.false_eq_true, if_false, if_true]
  · refine h.done rfl ?_ rfl
    simp only [plotFor_in hplot, hclear, turn_commit h, publish, hkind, hnone, Bool.false_eq_true, if_false, if_true]

end Sys2Proof.Machine
end

section
/-!
PROOF. Streams: opening, pausing and resuming, exporting and its counter, import, and the commit of a move (R214, R217, R305, R307,
R321 to R335, R358, R434, R435).
-/

namespace Sys2Proof.Machine

open Sys2Proof

variable {s t : State} {c : CmdRef} {op n : Nat} {d : Cmd} {p : Plot} {x : Stream}

/-! ## A stream command at its turn -/

theorem Turn.stream {i : Instr} {k : Cmd → Nat → Plot → State} (h : Turn s c op d) (hplot : InPlot s d n p)
    (hstream : streamTurn s d = true) (hi : Machine.exec i s = .next (streamAt c op s k)) : Machine.exec i s = .next (k d n p) := by
  rw [hi, streamAt_turn h hplot hstream]

theorem setStream_of_get (h : mget s.plots n = some p) (st : Nat) (y : Stream) :
    setStream s n st y = s.setPlot n { p with streams := mput p.streams st y } := modPlot_eq h _

/-! ## STREAM_OPEN -/

theorem streamMoves_of_get {st : Nat} (h : mget p.streams st = some x) : streamMoves p st = x.moving := by
  rw [streamMoves, h]
  rfl

theorem streamMoves_closed {st : Nat} (h : mget p.streams st = none) : streamMoves p st = false := by
  rw [streamMoves, h]
  rfl

theorem wrongState_turn (h : Turn s c op d) : wrongState s d = endCmd s d (Reply.badParam 2) := turn_commit h _

/-- Settles O29: the stream's own state decides, and a closed one takes the fresh image. -/
theorem streamOpenCreates : Obligations.StreamOpenCreates := by
  unfold Obligations.StreamOpenCreates
  intro c s d n p h hplot hturn
  have hexec := h.stream hplot hturn (i := .streamOpen c) rfl
  refine ⟨fun q img hclosed hplan hkind hclash himg => done_endCmd _ _ _ _ _ ?_ rfl, fun x hx hstill => endsAs_endCmd _ _ _ _ ?_,
    fun x hx hmoves => ?_⟩
  · subst himg
    rw [hexec]
    simp only [streamMoves_closed hclosed, hclosed, hplan, hkind, hclash, turn_commit h, Option.isSome_none, Bool.false_eq_true,
      if_false, bne_self_eq_false]
    rfl
  · rw [hexec]
    simp only [streamMoves_of_get hx, hstill, hx, Option.isSome_some, Bool.false_eq_true, if_false, if_true, wrongState_turn h]
  · rw [hexec]
    simp only [streamMoves_of_get hx, hmoves, if_true]

/-! ## STREAM_PAUSE and STREAM_RESUME -/

theorem feedAt_moving (hx : mget p.streams d.stream = some x) (hmoves : x.moving = true) (flush : Bool) :
    feedAt s d n p flush = s := by
  simp only [feedAt, hx, hmoves, if_true]

theorem feedAt_paused (h : Turn s c op d) (hx : mget p.streams d.stream = some x) (hstill : x.moving = false)
    (hpaused : x.paused = true) (flush : Bool) : feedAt s d n p flush = endCmd s d (Reply.badParam 2) := by
  simp only [feedAt, hx, hstill, hpaused, Bool.false_eq_true, if_false, if_true, wrongState_turn h]

theorem noOp_turn (h : Turn s c op d) : noOp s d = endCmd s d (Reply.ok [] []) := turn_commit h _

theorem clearPause_turn (h : Turn s c op d) : clearPause s n d x =
    endCmd (setStream s n d.stream { x with paused := false }) d (Reply.ok [] []) := turn_commit h _

/-- A stream that was asked for starts to move in, paused or not, where its command names it (R216, R326). -/
theorem startMoves_named (hplot : mget s.plots n = some p) {st : Nat} (hx : mget p.streams st = some x) (hasked : asked s x = true)
    (hres : x.res = .nonresident) (hfit : slotsFit s n p = true) : ∃ y, mget (startMoves s n (some st)).plots n = some y ∧
      mget y.streams st = some { x with res := .movingIn, wanted := none } := by
  unfold startMoves
  simp only [hplot, hfit, if_true]
  refine ⟨_, by rw [State.setPlot_plots, mget_mput_same], ?_⟩
  have hdue : (asked s x && x.res == .nonresident && (!x.paused || some st == some st)) = true := by simp [hasked, hres]
  rw [mget_map_key (g := fun i z => if (asked s z && z.res == .nonresident && (!z.paused || some st == some i)) = true
    then { z with res := .movingIn, wanted := none } else z), hx]
  exact congrArg some (if_pos hdue)

/-- Settles O30: each of the four waits for a move, and otherwise follows the mark. -/
theorem streamPauseAndResume : Obligations.StreamPauseAndResume := by
  unfold Obligations.StreamPauseAndResume
  intro c s d n p x hplot hturn hx
  refine ⟨fun hmoves => ⟨fun h => ?_, fun h => ?_, fun h => ?_, fun h => ?_⟩, fun h hstill => ⟨fun hpaused => ?_,
    fun hpaused hsound r hr => ?_⟩, fun hstill hpaused => ⟨fun h => endsAs_endCmd _ _ _ _ ?_, fun h => endsAs_endCmd _ _ _ _ ?_⟩,
    fun h hstill => ⟨fun hpaused => ?_, fun hpaused hsound hhere => ?_, fun hpaused hres hsound hfetch hasked hfit => ?_⟩⟩
  · rw [h.stream hplot hturn rfl, feedAt_moving hx hmoves]
  · rw [h.stream hplot hturn rfl, feedAt_moving hx hmoves]
  · rw [h.stream hplot hturn rfl]
    simp only [hx, hmoves, if_true]
  · rw [h.stream hplot hturn rfl]
    simp only [hx, hmoves, if_true]
  · refine done_endCmd _ _ _ _ _ ?_ rfl
    rw [h.stream hplot hturn rfl]
    simp only [hx, hstill, hpaused, Bool.false_eq_true, if_false, if_true, noOp_turn h]
  · subst hr
    refine done_endCmd _ _ _ _ _ ?_ rfl
    rw [h.stream hplot hturn rfl]
    simp only [hx, hstill, hpaused, hsound, Bool.false_eq_true, if_false, turn_commit h, beq_iff_eq]
  · rw [h.stream hplot hturn rfl, feedAt_paused h hx hstill hpaused]
  · rw [h.stream hplot hturn rfl, feedAt_paused h hx hstill hpaused]
  · refine done_endCmd _ _ _ _ _ ?_ rfl
    rw [h.stream hplot hturn rfl]
    simp only [hx, hstill, hpaused, Bool.false_eq_true, if_false, Bool.not_false, if_true, noOp_turn h]
  · refine done_endCmd _ _ _ _ _ ?_ rfl
    rw [h.stream hplot hturn rfl]
    simp only [hx, hstill, hpaused, hsound, Bool.not_true, Bool.false_eq_true, if_false]
    rcases hhere with hnone | ⟨hres, hfit⟩
    · rw [if_pos hnone, clearPause_turn h]
    · rw [withImage_here false _ hplot.2 hx hres hfit (.inl rfl)]
      simp only [hx, clearPause_turn h, ite_self]
  · obtain ⟨y, hy, hmoved⟩ := startMoves_named hplot.2 hx hasked hres hfit
    refine ⟨_, y, ?_, hy, hmoved⟩
    have hlate : askLate s n d x false = some s := by simp [askLate, hres, hasked]
    rw [h.stream hplot hturn rfl]
    simp only [hx, hstill, hpaused, hsound, hfetch, Bool.not_true, Bool.false_eq_true, if_false, withImage, hlate, hplot.2, hres]
    rfl

/-! ## STREAM_EXPORT -/

theorem commitExport_clean {key plan : List Byte} (hplot : mget s.plots n = some p) (hclean : x.bad = []) :
    commitExport s n d x key plan = endCmd
      { s.setPlot n { p with
          tensors := mput p.tensors d.handle (rawTensor 0 (blobOf key plan x.img (s.expCtr + 1) s.stores.serial) d.stampAt)
          streams := mdel p.streams d.stream } with
        cmds := s.cmds.map fun e =>
          if e.plot == some n && e.namesStream && e.stream == d.stream then { e with shadowSlots := 0 } else e
        expCtr := s.expCtr + 1 } d
      (Reply.ok (toLe 8 (blobOf key plan x.img (s.expCtr + 1) s.stores.serial).length ++ toLe 8 (s.expCtr + 1)) []) := by
  rw [commitExport, noteImage_clean _ _ _ _ hclean]
  simp only [closeStream, modPlot_twice hplot]
  rfl

theorem nvsWrite_exec (hlive : s.alive = true) (ok : Bool) : exec (.nvsReservationWrite ok) s = .next (nvsWrite ok s) :=
  congrArg Host.Outcome.next (if_pos hlive)

/-- Settles O33: the key and the counter's reservation decide the blob; the reservation's own write then adds 4096. -/
theorem streamExportAndItsCounter : Obligations.StreamExportAndItsCounter := by
  unfold Obligations.StreamExportAndItsCounter
  refine ⟨fun c s d n p x q h hplot hturn hx hstill hq => ?_, fun s a hlive hwait => ?_⟩
  · have hexec : exec (.streamExport c) s = .next (exportAt s n p d x) := by
      rw [h.stream hplot hturn rfl]
      simp only [hx, hstill, Bool.false_eq_true, if_false]
    have hspent (key : List Byte) (hkey : p.key = some key) (hover : s.stores.limit < s.expCtr + 1) :
        exportAt s n p d x = exportWaits s d := by
      simp only [exportAt, hkey, hq, hover, if_true]
    refine ⟨fun hnone => endsAs_endCmd _ _ _ _ ?_, fun key hkey hover => ⟨fun hleft => endsAs_endCmd _ _ _ _ ?_,
      fun hleft hidle => ?_⟩, fun key blob hkey hin hclean hpages hblob => ?_⟩
    · rw [hexec, exportAt, hnone]
      rfl
    · rw [hexec, hspent key hkey hover, exportWaits, if_pos hleft]
      rfl
    · rw [hexec, hspent key hkey hover, exportWaits, if_neg hleft, hidle]
      rfl
    · subst hblob
      refine done_endCmd _ _ _ _ _ ?_ rfl
      rw [hexec, exportAt_go n d hkey hq hin, exportGo_commit n key q.img h.2.2.2 hclean hpages, commitExport_clean hplot.2 hclean]
  · refine ⟨⟨s.stores.reserve, ?_, rfl, reserve_limit ..⟩, fun d hd => endsFrom_endCmd _ _ _ _ _ ?_⟩
    · simp only [nvsWrite_exec hlive, nvsWrite, hwait, if_true]
    · simp only [nvsWrite_exec hlive, nvsWrite, hwait, hd, Bool.false_eq_true, if_false]
      rfl

/-! ## STREAM_IMPORT -/

theorem importGo_body {z : Tensor} {q : Plan} (hplot : mget s.plots n = some p) (hz : mget p.tensors d.handle = some z)
    (hq : mget p.plans (fieldAt d.params 0 4) = some q) : importGo n d s = importBody s n p d z q := by
  simp only [importGo, hplot, hz, hq]

/-- Settles O34: an import whose pages are held goes by the seal of its blob. -/
theorem streamImportOpensTheBlob : Obligations.StreamImportOpensTheBlob := by
  unfold Obligations.StreamImportOpensTheBlob
  intro c s d n p h hplot hturn
  have hexec := h.stream hplot hturn (i := .streamImport c) rfl
  refine ⟨fun x hx hstill => endsAs_endCmd _ _ _ _ ?_, fun x hx hmoves => ?_, ?_⟩
  · rw [hexec]
    simp only [streamMoves_of_get hx, hstill, hx, Option.isSome_some, Bool.false_eq_true, if_false, if_true, wrongState_turn h]
  · rw [hexec]
    simp only [streamMoves_of_get hx, hmoves, if_true]
  · rintro z q key size ctr serial hclosed hpages hz hclean hq hkey rfl rfl rfl o ho
    have hbody : exec (.streamImport c) s = .next (importBody s n p d z q) := by
      rw [hexec]
      simp only [streamMoves_closed hclosed, hclosed, Option.isSome_none, Bool.false_eq_true, if_false, bne_iff_ne.2 hpages,
        if_true, importGo_body hplot.2 hz hq]
    refine ⟨fun hnone => endsAs_endCmd _ _ _ _ ?_, fun img himg hhead => done_endCmd _ _ _ _ _ ?_ rfl⟩
    · subst hnone
      rw [hbody, importBody]
      simp only [readBad_clean hclean, hkey, Option.bind_some, ← ho]
      rfl
    · subst himg
      rw [hbody, importBody]
      simp only [readBad_clean hclean, hkey, Option.bind_some, ← ho, hhead, Bool.not_true, Bool.false_eq_true, if_false,
        noteTensorRead_clean _ _ _ _ _ _ hclean, modPlot_eq hplot.2, turn_commit h]

/-! ## MOVE_COMMIT -/

theorem noteImage_cmds (s : State) (n st : Nat) (x : Stream) : (noteImage s n st x).cmds = s.cmds := by
  unfold noteImage
  extract_lets ws
  split
  · rfl
  · exact (pool_notes (notes_countFold ..)).2.2

/-- What a move's bookkeeping leaves of the plot's streams (R357). -/
theorem noteImage_setStream (h : mget s.plots n = some p) (st : Nat) (x y : Stream) :
    ∃ q, mget (setStream (noteImage s n st x) n st y).plots n = some q ∧ mget q.streams st = some y := by
  obtain ⟨q, hq⟩ := noteImage_plot st x h
  rw [setStream_of_get hq]
  exact ⟨_, mget_mput_same .., mget_mput_same ..⟩

theorem asked_cmds {a b : State} (h : a.cmds = b.cmds) (x : Stream) : asked a x = asked b x := by
  rw [asked, asked, h]

/-- The image that a finished move leaves: it has its new home (R217). -/
def movedStream (x : Stream) : Stream :=
  { x with res := if x.res == .movingIn then .resident else .nonresident, bad := moveDamage (x.res == .movingIn) x.bad }

theorem moveDone_stream (h : mget s.plots n = some p) (st : Nat) (x : Stream)
    (hdone : x.res = .movingIn ∨ (x.res = .movingOut ∧ asked s x = false)) :
    ∃ y, mget (moveDone s n st x).plots n = some y ∧ mget y.streams st = some (movedStream x) := by
  obtain ⟨q, hq, hx⟩ := noteImage_setStream h st x (movedStream x)
  obtain ⟨y, hy, hsame | ⟨hasked, hres, -⟩⟩ := startMoves_stream none hq hx
  · exact ⟨y, hy, hsame⟩
  · rcases hdone with hin | ⟨-, hnone⟩
    · simp [movedStream, hin] at hres
    · have hcmds : (setStream (noteImage s n st x) n st (movedStream x)).cmds = s.cmds := noteImage_cmds s n st x
      have hwanted : asked s (movedStream x) = asked s x := rfl
      rw [asked_cmds hcmds, hwanted, hnone] at hasked
      cases hasked

/-- A failed move leaves the image where it was, whatever the end of the command it served does (R358). -/
theorem moveFailed_stream (h : mget s.plots n = some p) (st : Nat) (x : Stream)
    (huser : moveUser s n st (x.res == .movingOut) = some d) :
    ∃ y, EndedWith (moveFailed s n st x) d (Reply.bare .datapathFault) ∧ mget (moveFailed s n st x).plots n = some y ∧
      mget y.streams st = some { x with res := if x.res == .movingIn then .nonresident else .resident, wanted := none } := by
  let back : Residency := if x.res == .movingIn then .nonresident else .resident
  let t : State := { setStream s n st { x with res := back, wanted := none } with moverRetry := s.moverRetry + 3 }
  have ht : mget t.plots n = some { p with streams := mput p.streams st { x with res := back, wanted := none } } := by
    simp only [t, setStream_of_get h]
    exact mget_mput_same ..
  have hmove : moveFailed s n st x =
      failCmd (addRecord t (some n) (cmdEvent 0x0007 0 0x12 0 0 d)) d (Reply.bare .datapathFault) := by
    simp only [moveFailed, huser]
    rfl
  rw [hmove]
  have hspares : Spares (fun _ => True) t (failCmd (addRecord t (some n) (cmdEvent 0x0007 0 0x12 0 0 d)) d
      (Reply.bare .datapathFault)) :=
    (notes_addRecord ..).spares.trans (spares_endCmd ..)
  have hbare := hspares.plots n
  rw [ht] at hbare
  obtain ⟨y, hy, hsame⟩ := Option.map_eq_some_iff.1 hbare
  have hstreams : y.streams = mput p.streams st { x with res := back, wanted := none } := congrArg (·.streams) hsame
  exact ⟨y, endCmd_ended .., hy, by rw [hstreams, mget_mput_same]⟩

theorem moveCommit_moving {a : Fin 6} {st : Nat} (hplot : mget s.plots a.val = some p) (hx : mget p.streams st = some x)
    (hup : s.gatehouseUp = true) (hhbm : s.hbmUp = true) (hmover : s.secure.moverHalted = false) (ok : Bool) :
    exec (.moveCommit a st ok) s = .next (if x.moving then
      (if ok then moveDone s a.val st x else moveFailed s a.val st x) else s) := by
  show execMoveCommit a st ok s = _
  simp only [execMoveCommit, hplot, Option.bind_some, hx, hup, hhbm, hmover, Bool.not_false, Bool.and_true]

/-- Settles O35: the commit gives the image its new home, and the failure its old one. -/
theorem moveCommitEndsTheMove : Obligations.MoveCommitEndsTheMove := by
  unfold Obligations.MoveCommitEndsTheMove
  intro a st s p x hplot hx hup hhbm hmover
  have hexec := moveCommit_moving hplot hx hup hhbm hmover
  refine ⟨fun hdone => ?_, fun hmoves d huser => ?_, fun hstill ok => ?_⟩
  · have hmoves : x.moving = true := by
      rcases hdone with h | ⟨h, -⟩ <;> simp [Stream.moving, h]
    obtain ⟨y, hy, hmoved⟩ := moveDone_stream hplot st x hdone
    exact ⟨_, y, movedStream x, by rw [hexec, if_pos hmoves, if_pos rfl], hy, hmoved, rfl, rfl, by simp [movedStream]⟩
  · obtain ⟨y, hended, hy, hback⟩ := moveFailed_stream hplot st x huser
    exact ⟨_, y, _, by rw [hexec, if_pos hmoves, if_neg (by decide)], hended, hy, hback, rfl, by simp⟩
  · rw [hexec, if_neg (Bool.eq_false_iff.1 hstill)]

end Sys2Proof.Machine
end

section
/-!
PROOF. Runs on engines: PLAN_RUN, STREAM_FEED and STREAM_FLUSH, and the seven direct operations (R111 to R126, R200, R279, R304,
R306, R310 to R313).
-/

namespace Sys2Proof.Machine

open Sys2Proof

variable {s t : State} {c : CmdRef} {op n : Nat} {d : Cmd} {p : Plot} {q : Plan} {x : RunCtx}

/-! ## The commit of a run -/

/-- What a run's commit changes before its command ends: tensors and logs, and the engines that it ran on (R126). -/
theorem works_commitRun {E : Nat → Prop} (s : State) (x : RunCtx) (n : Nat) (ps : List PartSt) (ws : List OutWrite)
    (h : ∀ z ∈ ps, ¬E z.eng) :
    Works E s (commitWrites (leaveParts (noteRunReads s x n ps) x true ps) x.cmd n ws) :=
  (works_noteRunReads s x n ps).trans ((works_leaveParts _ x true ps h).trans (works_commitWrites ..))

/-- After steps that keep a plot's shape, a change of the plot and the command's end, the plot has the changed shape. -/
theorem Works.modPlot_endCmd {E : Nat → Prop} {u : State} (h : Works E s u) (hplot : mget s.plots n = some p) (g : Plot → Plot)
    (hg : ∀ y : Plot, (g y).shape = (g y.shape).shape) (d : Cmd) (r : Reply) :
    ∃ y, mget (endCmd (u.modPlot n g) d r).plots n = some y ∧ y.shape = (g p).shape := by
  obtain ⟨z, hz, hshape⟩ := h.get hplot
  have hmod : mget (u.modPlot n g).plots n = some (g z) := by
    rw [modPlot_eq hz]
    exact mget_mput_same ..
  obtain ⟨y, hy, hsame⟩ := (works_endCmd (E := fun _ => True) (u.modPlot n g) d r).get hmod
  exact ⟨y, hy, by rw [hsame, hg z, hshape, ← hg p]⟩

/-- A failed run leaves alone all but the engines that it was prepared on and ran on (R97, R126). -/
theorem runFails_failRun {i : Instr} {es : List Nat} {u : State} (w : EpochSt) (e : RunErr) (hprep : Spares (fun g => g ∉ es) s u)
    (hexec : exec i s = .next (failRun u x w e)) (hstores : (failRun u x w e).stores = s.stores) :
    RunFails i s x.cmd (es ++ w.parts.map (·.eng)) (runReply x e) := by
  refine runFails_of hexec (failRun_ended ..) ?_ hstores
  have hprep' : Spares (fun g => g ∉ es ++ w.parts.map (·.eng)) s u :=
    ⟨hprep.plots, fun g hg => hprep.engs g fun hmem => hg (List.mem_append_left _ hmem)⟩
  exact hprep'.trans (spares_failRun _ _ _ _ fun z hz hout => hout (List.mem_append_right _ (List.mem_map_of_mem hz)))

theorem prefetchFirst_ready (s : State) (x : RunCtx) (tr : Map (List Byte)) {es : List Nat}
    (h : ∀ e ∈ es, engineReady s e = true ∧ (s.eng e).slice = none) :
    ∀ e ∈ es, engineReady (prefetchFirst s x tr) e = true ∧ ((prefetchFirst s x tr).eng e).slice = none := by
  intro e he
  obtain ⟨hready, hslice⟩ := ((prefetchFirst_facts s x tr).2 e).1
  exact ⟨hready.trans (h e he).1, hslice.trans (h e he).2⟩

theorem prefetchFirst_plots (s : State) (x : RunCtx) (tr : Map (List Byte)) : (prefetchFirst s x tr).plots = s.plots := by
  obtain ⟨m, hm⟩ := (prefetchFirst_facts s x tr).1
  rw [hm]

/-! ## PLAN_RUN -/

theorem planRun_step (h : Turn s c 0x22 d) (hplot : InPlot s d n p) : exec (.planRun c) s = .next (planRun s n p d) := by
  rw [h.exec rfl, plotFor_in hplot]

/-- The run of a PLAN_RUN on ready engines begins after the prefetch of its first weights (R304). -/
theorem planRun_ready {es : List Nat} (h : Turn s c 0x22 d) (hq : mget p.plans d.handle = some q) (hpass : fieldAt d.params 0 4 ≠ 0)
    (hopen : tableBlocked s p d = false) (hfeet : feetWait s p d = false) (hplace : placeParts s p q = some es)
    (hready : ∀ e ∈ es, engineReady s e = true ∧ (s.eng e).slice = none) : planRun s n p d =
      planRunOn (prefetchFirst s (runCtx p q d es Head.none)
        (transientImages q ((d.payload.drop (kindBytes q.img 0)).take (transientBytes q)))) n (runCtx p q d es Head.none)
        (fieldAt d.params 0 4) := by
  simp only [planRun, hq, hpass, hopen, hfeet, hplace, turn_commit h, Bool.false_eq_true, if_false]
  exact onEngines_ready _ _ _ (prefetchFirst_ready s _ _ hready)

theorem planRunOn_ok {u : State} {passes : Nat} {r : EpochSt × OutSt × Option RunErr}
    (hr : r = runPasses x (kindBytes x.plan.img 0) (transientBytes x.plan) passes x.cmd.payload ⟨startParts u x, []⟩ ⟨[], []⟩)
    (hok : r.2.2 = none) : planRunOn u n x passes =
      endCmd ((commitWrites (leaveParts (noteRunReads u x n r.1.parts) x true r.1.parts) x.cmd n r.2.1.writes).modPlot n
        fun y => { y with epochs := y.epochs + passes }) x.cmd
        (Reply.ok (resultBlock r.1.flags r.1.lost x.cmd.clock) r.2.1.block) := by
  subst hr
  simp only [planRunOn, hok]

theorem planRunOn_err {u : State} {passes : Nat} {r : EpochSt × OutSt × Option RunErr} {e : RunErr}
    (hr : r = runPasses x (kindBytes x.plan.img 0) (transientBytes x.plan) passes x.cmd.payload ⟨startParts u x, []⟩ ⟨[], []⟩)
    (herr : r.2.2 = some e) : planRunOn u n x passes = failRun u x r.1 e := by
  subst hr
  simp only [planRunOn, herr]

/-- Settles O28: the waits come before the placement's run, which commits or fails as a whole. -/
theorem planRunCompletes : Obligations.PlanRunCompletes := by
  unfold Obligations.PlanRunCompletes
  intro c s d n p q h hplot hq
  have hexec := planRun_step h hplot
  refine ⟨fun hzero => done_endCmd _ _ _ _ _ ?_ rfl, fun hpass hblocked => ?_, fun hpass hopen hplace => endsAs_endCmd _ _ _ _ ?_,
    fun hpass hopen hplace hfeet => ?_, ?_⟩
  · rw [hexec]
    simp only [planRun, hq, hzero, if_true, turn_commit h]
  · rw [hexec]
    simp only [planRun, hq, hpass, hblocked, if_false, if_true]
  · rw [hexec]
    simp only [planRun, hq, hpass, hopen, hplace, Bool.false_eq_true, if_false]
    rfl
  · obtain ⟨es, hes⟩ := Option.ne_none_iff_exists'.1 hplace
    rw [hexec]
    simp only [planRun, hq, hpass, hopen, hes, hfeet, Bool.false_eq_true, if_false, if_true]
  · rintro hpass hopen hfeet es x u r hplace hready rfl hu hr
    rw [planRun_ready h hq hpass hopen hfeet hplace hready, ← hu] at hexec
    have hstores := (execPlanRun_keeps c s _ hexec).1
    refine ⟨fun hok => ?_, fun err herr => ?_⟩
    · rw [planRunOn_ok hr hok] at hexec hstores
      have hprep : Works (fun e => e ∉ es ∧ ∀ z ∈ r.1.parts, z.eng ≠ e) s u := hu ▸ works_prefetchFirst _ _ _ fun e he => he.1
      have hworks := hprep.trans (works_commitRun u (runCtx p q d es Head.none) n r.1.parts r.2.1.writes
        fun z hz hout => hout.2 z hz rfl)
      obtain ⟨y, hy, hshape⟩ := hworks.modPlot_endCmd hplot.2 (fun y => { y with epochs := y.epochs + fieldAt d.params 0 4 })
        (fun y => by simp [Plot.shape, List.map_map, Function.comp_def]) (runCtx p q d es Head.none).cmd
        (Reply.ok (resultBlock r.1.flags r.1.lost d.clock) r.2.1.block)
      refine ⟨_, y, hexec, endCmd_ended .., hy, congrArg (·.epochs) hshape, congrArg (·.scalars) hshape,
        congrArg (·.streams) hshape, congrArg (·.plans) hshape, hstores, fun e he hparts => ?_⟩
      rw [endCmd_eng]
      exact hworks.engs e ⟨he, hparts⟩
    · rw [planRunOn_err hr herr] at hexec hstores
      have hprep : Spares (fun g => g ∉ es) s u := hu ▸ spares_prefetchFirst _ _ _ fun e he => he
      exact runFails_failRun _ _ hprep hexec hstores

/-! ## STREAM_FEED and STREAM_FLUSH -/

/-- Positions that a feed or flush brings, and the chunk steps that they make with those pending (R111, R116). -/
def feedCount (flush : Bool) (d : Cmd) : Nat := if flush then 0 else fieldAt d.params 0 4

def feedSteps (flush : Bool) (h : Head) (k : Nat) : Nat :=
  if flush then (if h.pend = 0 then 0 else 1) else (h.pend + k) / h.l

/-- A feed or flush whose operands are right goes on to its engines and its image (R306). -/
theorem feedAt_ready {z : Stream} {flush : Bool} {k steps : Nat} (hz : mget p.streams d.stream = some z) (hstill : z.moving = false)
    (hfed : z.paused = false) (hplan : z.plan = d.handle) (hq : mget p.plans d.handle = some q) (hk : k = feedCount flush d)
    (hsteps : steps = feedSteps flush (headOf z.img) k) (hsome : ¬(k = 0 ∧ steps = 0))
    (hlen : d.payload.length = k * planX q.img + steps * transientBytes q)
    (hok : ∀ j, j < steps → transientOk q (d.payload.drop (k * planX q.img + j * transientBytes q)) = true)
    (hopen : tableBlocked s p d = false) : feedAt s d n p flush =
      feedReady s n p q d z flush steps (d.payload.take (k * planX q.img)) (d.payload.drop (k * planX q.img)) := by
  have hall : ((List.range steps).all fun i =>
      transientOk q ((d.payload.drop (k * planX q.img)).drop (i * transientBytes q))) = true :=
    List.all_eq_true.2 fun i hi => by rw [List.drop_drop]; exact hok i (List.mem_range.1 hi)
  have hnone : (decide (k = 0) && decide (steps = 0)) = false := by simpa using hsome
  unfold feedCount at hk
  unfold feedSteps at hsteps
  simp only [feedAt, hz, hstill, hfed, hplan, hq, ← hk, ← hsteps, ← hlen, hnone, hall, hopen, bne_self_eq_false,
    Bool.false_eq_true, if_false, Bool.not_true]

theorem feedDamage_clean {z : Stream} (hclean : z.bad = []) (h : Head) (plan : List Byte) (steps : Nat) :
    feedDamage z h plan steps = none := by
  unfold feedDamage
  extract_lets st rs
  refine List.findSome?_eq_none_iff.2 fun r _ => ?_
  split
  · rfl
  · simp [imageDamaged, hclean]

theorem prefetchFirst_fits (s : State) (x : RunCtx) (tr : Map (List Byte)) (n : Nat) (p : Plot) :
    slotsFit (prefetchFirst s x tr) n p = slotsFit s n p := by
  obtain ⟨m, hm⟩ := (prefetchFirst_facts s x tr).1
  rw [hm]
  rfl

/-- On ready engines, with its image and its slots at hand, a feed or flush runs (R125, R200). -/
theorem feedReady_run {z : Stream} {flush : Bool} {steps : Nat} {fed trs : List Byte} {es : List Nat} {u : State}
    (h : Turn s c op d) (hplot : InPlot s d n p) (hz : mget p.streams d.stream = some z)
    (hplace : placeParts s p q = some es) (hfeet : feetWait s p d = false) (hclean : z.bad = []) (hres : z.res = .resident)
    (hshadow : d.shadowSlots ≠ 0) (hfit : slotsFit s n p = true)
    (hready : ∀ e ∈ es, engineReady s e = true ∧ (s.eng e).slice = none)
    (hx : x = runCtx p q d (if steps = 0 then [] else es) (headOf z.img))
    (hu : u = prefetchFirst s x (transientImages q (trs.take (transientBytes q)))) :
    feedReady s n p q d z flush steps fed trs = feedOn u n x z flush steps fed trs := by
  have hused : ∀ e ∈ (if steps = 0 then [] else es), engineReady s e = true ∧ (s.eng e).slice = none := by
    split
    · exact fun e he => absurd he List.not_mem_nil
    · exact hready
  have hgo : ∀ e ∈ (if steps = 0 then [] else es), engineReady u e = true ∧ (u.eng e).slice = none :=
    hu ▸ prefetchFirst_ready s x _ hused
  have huplot : mget u.plots n = some p := by rw [hu, prefetchFirst_plots]; exact hplot.2
  have hufit : slotsFit u n p = true := by rw [hu, prefetchFirst_fits]; exact hfit
  simp only [feedReady, hplace, hfeet, prepare_ready _ _ hused, ← hx, ← hu, turn_commit h, Bool.false_eq_true, if_false]
  rw [withImage_here true _ huplot hz hres hufit (.inr hshadow)]
  simp only [hz, feedDamage_clean hclean, onEngines_ready _ _ _ hgo, ← hx]

/-- The image that a feed or flush leaves, from what its chunk steps returned (R123). -/
def fedStream (z : Stream) (x : RunCtx) (flush : Bool) (steps : Nat) (fed : List Byte)
    (r : RunCtx × EpochSt × OutSt × Option RunErr) : Stream :=
  let used := if steps = 0 then 0 else if flush then x.head.pend else steps * x.head.l
  { z with
    img := rebuild { r.1.head with pend := x.head.pend + (if flush then 0 else fieldAt x.cmd.params 0 4) - used } x.plan.img
      r.2.1.img ((pendingBytes x.head x.plan.img z.img ++ fed).drop (used * planX x.plan.img))
    bad := feedBad z x.head x.plan.img steps fed.length
    wanted := none }

theorem feedOn_ok {u : State} {z : Stream} {flush : Bool} {steps : Nat} {fed trs : List Byte}
    {r : RunCtx × EpochSt × OutSt × Option RunErr} (hclean : z.bad = [])
    (hr : r = runChunks x flush steps (pendingBytes x.head x.plan.img z.img ++ fed) trs ⟨startParts u x, z.img⟩ ⟨[], []⟩)
    (hok : r.2.2.2 = none) : feedOn u n x z flush steps fed trs =
      endCmd (setStream ((commitWrites (leaveParts (noteRunReads u x n r.2.1.parts) x true r.2.1.parts) x.cmd n r.2.2.1.writes).modPlot n
        fun y => { y with epochs := y.epochs + steps }) n x.cmd.stream (fedStream z x flush steps fed r)) x.cmd
        (feedReply r.2.1.flags r.2.1.lost x.cmd.clock steps
          (if steps = 0 then 0 else if flush then x.head.pend else steps * x.head.l) r.1.head.pos r.2.2.1.block) := by
  subst hr
  simp only [feedOn, hok, noteImage_clean _ _ _ _ hclean]
  rfl

theorem feedOn_err {u : State} {z : Stream} {flush : Bool} {steps : Nat} {fed trs : List Byte}
    {r : RunCtx × EpochSt × OutSt × Option RunErr} {e : RunErr}
    (hr : r = runChunks x flush steps (pendingBytes x.head x.plan.img z.img ++ fed) trs ⟨startParts u x, z.img⟩ ⟨[], []⟩)
    (herr : r.2.2.2 = some e) : feedOn u n x z flush steps fed trs = failRun u x r.2.1 e := by
  subst hr
  simp only [feedOn, herr]

/-- Two changes of a plot are one. -/
theorem setStream_modPlot (h : mget s.plots n = some p) (g : Plot → Plot) (st : Nat) (z : Stream) :
    setStream (s.modPlot n g) n st z = s.modPlot n fun y => { g y with streams := mput (g y).streams st z } := by
  rw [setStream, modPlot_twice h, modPlot_eq h]

theorem feed_step {flush : Bool} (h : Turn s c (if flush then 0x32 else 0x31) d) (hplot : InPlot s d n p)
    (hturn : streamTurn s d = true) :
    exec (if flush then .streamFlush c else .streamFeed c) s = .next (feedAt s d n p flush) := by
  cases flush
  · exact Turn.stream (i := .streamFeed c) (op := 0x31) h hplot hturn rfl
  · exact Turn.stream (i := .streamFlush c) (op := 0x32) h hplot hturn rfl

theorem feed_stores {flush : Bool} (h : exec (if flush then .streamFlush c else .streamFeed c) s = .next t) :
    t.stores = s.stores := by
  cases flush
  · exact (execStreamFeed_keeps c s t h).1
  · exact (execStreamFlush_keeps c s t h).1

/-- A flush of a stream with nothing pending ends at once (R116). -/
theorem feedAt_nothing {z : Stream} (h : Turn s c 0x32 d) (hz : mget p.streams d.stream = some z) (hstill : z.moving = false)
    (hfed : z.paused = false) (hplan : z.plan = d.handle) (hq : mget p.plans d.handle = some q) (hpend : (headOf z.img).pend = 0)
    (hpay : d.payload = []) : feedAt s d n p true =
      endCmd s d (feedReply Flags.zero 0 d.clock 0 0 (headOf z.img).pos []) := by
  simp only [feedAt, hz, hstill, hfed, hplan, hq, hpend, hpay, turn_commit h, bne_self_eq_false, Bool.false_eq_true, if_false,
      if_true,
    List.length_nil, Nat.zero_mul, Nat.add_zero, decide_true, Bool.and_self]

/-- Settles O32: with its operands and image right, a feed or flush is one run of chunk steps. -/
theorem feedAndFlushRun : Obligations.FeedAndFlushRun := by
  unfold Obligations.FeedAndFlushRun
  rintro c s d n p z q h hplot hturn hz hstill hfed hplan hq rfl
  refine ⟨fun hop hpend hpay => done_endCmd _ _ _ _ _ ?_ rfl, ?_⟩
  · rw [hop.stream hplot hturn rfl, feedAt_nothing hop hz hstill hfed hplan hq hpend hpay]
  · rintro flush i k steps used es hop rfl hk hsteps hsome hlen hok hopen hfeet hplace hclean hres hshadow hfit hready y v r hy hv
      hr hused
    have hexec := feed_step hop hplot hturn
    rw [feedAt_ready hz hstill hfed hplan hq hk hsteps hsome hlen hok hopen,
      feedReady_run hop hplot hz hplace hfeet hclean hres hshadow hfit hready hy hv] at hexec
    have hstores := feed_stores hexec
    have hsub : ∀ e ∉ es, e ∉ y.engs := by
      subst hy
      intro e he
      show e ∉ if steps = 0 then [] else es
      split
      · exact List.not_mem_nil
      · exact he
    subst hy
    let y : RunCtx := runCtx p q d (if steps = 0 then [] else es) (headOf z.img)
    refine ⟨fun hnone => ?_, fun err herr => ?_⟩
    · rw [feedOn_ok hclean hr hnone] at hexec
      have hprep : Works (fun e => e ∉ es ∧ ∀ w ∈ r.2.1.parts, w.eng ≠ e) s v :=
        hv ▸ works_prefetchFirst _ _ _ fun e he => hsub e he.1
      have hworks := hprep.trans (works_commitRun v y n r.2.1.parts
        r.2.2.1.writes fun w hw hout => hout.2 w hw rfl)
      obtain ⟨p₁, hp₁, -⟩ := hworks.get hplot.2
      rw [setStream_modPlot hp₁] at hexec
      obtain ⟨p₂, hp₂, hshape⟩ := hworks.modPlot_endCmd hplot.2
        (fun p₀ => { p₀ with
          epochs := p₀.epochs + steps
          streams := mput p₀.streams d.stream (fedStream z y flush steps
            (d.payload.take (k * planX q.img)) r) })
        (fun _ => by simp [Plot.shape, List.map_map, Function.comp_def]) y.cmd
        (feedReply r.2.1.flags r.2.1.lost d.clock steps
          (if steps = 0 then 0 else if flush then (headOf z.img).pend else steps * (headOf z.img).l) r.1.head.pos r.2.2.1.block)
      have hstreams := congrArg (·.streams) hshape
      refine ⟨_, p₂, fedStream z y flush steps (d.payload.take (k * planX q.img)) r, hexec, hused ▸ endCmd_ended .., hp₂, ?_,
        congrArg (·.epochs) hshape, ?_, ?_, ?_, ?_⟩
      · exact (congrArg (mget · d.stream) hstreams).trans (mget_mput_same ..)
      · exact hfed
      · rfl
      · rfl
      · subst hk hused
        rfl
    · rw [feedOn_err hr herr] at hexec hstores
      have hprep : Spares (fun g => g ∉ es) s v := hv ▸ spares_prefetchFirst _ _ _ hsub
      exact runFails_failRun _ _ hprep hexec hstores

end Sys2Proof.Machine
end

section
/-!
PROOF. The seven direct operations: the empty ones, the waits, the run on the operation's engine and its end (R200, R279, R310 to
R314).
-/

namespace Sys2Proof.Machine

open Sys2Proof

variable {s t : State} {c : CmdRef} {op n : Nat} {d k : Cmd} {p : Plot} {e : Nat} {x y : PartSt}

/-! ## A direct operation at its turn -/

/-- The seven opcodes share one step. -/
theorem exec_direct {i : CmdRef → Instr} (h : (i, op) ∈ [(Instr.opMatmul, 0x40), (.opVector, 0x41), (.opScan, 0x42),
    (.opSelect, 0x43),
      (.opGather, 0x44), (.opConvert, 0x45), (.opRmsnorm, 0x46)]) (c : CmdRef) (s : State) :
    exec (i c) s = .next (directAt c op s) := by
  simp only [List.mem_cons, Prod.mk.injEq, List.not_mem_nil, or_false] at h
  rcases h with ⟨rfl, rfl⟩ | ⟨rfl, rfl⟩ | ⟨rfl, rfl⟩ | ⟨rfl, rfl⟩ | ⟨rfl, rfl⟩ | ⟨rfl, rfl⟩ | ⟨rfl, rfl⟩ <;> rfl

/-- The reply of an operation whose destinations are empty (R279). -/
def emptyReply (op : Nat) (d : Cmd) : Reply := dirReply (opStart Spad.clear) (directAt.noop op d) []

theorem emptyReply_facts (op : Nat) (d : Cmd) : (emptyReply op d).status = .ok ∧ (emptyReply op d).payload = [] ∧
    (emptyReply op d).block.take 16 = resultBlock Flags.zero 0 0 := by
  unfold emptyReply directAt.noop
  split
  · exact ⟨rfl, rfl, rfl⟩
  · split
    · exact ⟨rfl, rfl, rfl⟩
    · exact ⟨rfl, rfl, rfl⟩

theorem directAt_empty (h : Turn s c op d) (hplot : InPlot s d n p) (hnone : directNoop op d.params = true) :
    directAt c op s = endCmd s d (emptyReply op d) := by
  rw [directAt, turn_facts h, plotFor_in hplot]
  simp only [hnone, if_true, turn_commit h]
  rfl

theorem directAt_waits (h : Turn s c op d) (hplot : InPlot s d n p) (hsome : directNoop op d.params = false)
    (hwait : tableBlocked s p d = true ∨ feetWait s p d = true) : directAt c op s = s := by
  rw [directAt, turn_facts h, plotFor_in hplot]
  simp only [hsome, (Bool.or_eq_true _ _).mpr hwait, Bool.false_eq_true, if_false, if_true]

theorem directAt_unplaced (h : Turn s c op d) (hplot : InPlot s d n p) (hsome : directNoop op d.params = false)
    (hopen : tableBlocked s p d = false) (hfeet : feetWait s p d = false) (hnone : dirEngine s p d = none) :
    directAt c op s = endCmd s d (Reply.bare .datapathFault) := by
  rw [directAt, turn_facts h, plotFor_in hplot]
  simp only [hsome, hopen, hfeet, hnone, Bool.or_self, Bool.false_eq_true, if_false]
  rfl

theorem directAt_runs (h : Turn s c op d) (hplot : InPlot s d n p) (hsome : directNoop op d.params = false)
    (hopen : tableBlocked s p d = false) (hfeet : feetWait s p d = false) (heng : dirEngine s p d = some e)
    (hready : engineReady s e = true) (hslice : (s.eng e).slice = none) :
    directAt c op s = directRun s n p { d with placed := [e] } e := by
  rw [directAt, turn_facts h, plotFor_in hplot]
  simp only [hsome, hopen, hfeet, heng, Bool.or_self, Bool.false_eq_true, if_false, turn_commit h,
      onEngines_one _ _ _ hready hslice,
    hplot.2]

/-! ## The end of an operation -/

/-- An operation that ends with outputs: its reply, its engine's bytes, and every other engine (R313). -/
theorem finishOk_facts {o : DirOut} {out : OutSt} {z : PartSt}
    (hpack : dirPack (dirTable k.params) (dirBinds k.params) ⟨[], []⟩ y = (.ok out, z)) :
    ∃ u, endDirect.finishOk s n p k (dirTable k.params) y o = endCmd u k (dirReply z.st o out.block) ∧
      (u.eng y.eng).spad.mem = (drainOp z.st).sp.mem ∧ ∀ g, g ≠ y.eng → u.eng g = s.eng g := by
  have hsame : z.eng = y.eng := (congrArg (·.2.eng) hpack).symm.trans (dirPack_eng ..)
  refine ⟨commitWrites (leaveDirect s p k (dirTable k.params) z) k n out.writes, ?_, ?_, fun g hg => ?_⟩
  · simp only [endDirect.finishOk, hpack]
  · rw [← hsame, works_spad (works_commitWrites ..)]
    exact leaveDirect_spad ..
  · have hworks := (works_leaveDirect s p k (dirTable k.params) z).trans (works_commitWrites _ k n out.writes)
    exact hworks.engs g (hsame ▸ hg)

/-- Only a STOP gather with faults ends otherwise than with its outputs (R314). -/
theorem endDirect_outputs {tab : DescTab} {o : DirOut} (h : ∀ a b, o = .gather a b true → b = 0) :
    endDirect s n p k tab y o = endDirect.finishOk s n p k tab y o := by
  unfold endDirect
  split
  · next a b => rw [h a b rfl]; rfl
  · rfl

theorem endDirect_stop {tab : DescTab} {a b : Nat} (h : b ≠ 0) : endDirect s n p k tab y (.gather a b true) =
    endCmd (leaveDirect s p k tab y) k (errReply (.gatherFault a b)) := if_pos (bne_iff_ne.2 h)

/-- A run that fails leaves alone all engines but its own and that of its in-place destinations (R310). -/
theorem runFails_direct {i : Instr} {tab : DescTab} {err : OpErr}
    (hexec : exec i s = .next (failDirect (leaveDirect s p k tab y) k e err)) (heng : y.eng = e) :
    RunFails i s k [e, byteAt k.params 0] (errReply err) := by
  refine runFails_of hexec (endCmd_ended ..) ?_ ((failDirect_keeps ..).1.trans (leaveDirect_keeps ..).1)
  have hown {g : Nat} (h : g ∉ [e, byteAt k.params 0]) : g ≠ e ∧ g ≠ byteAt k.params 0 := by simpa using h
  exact (spares_leaveDirect s p k tab y fun h => (hown h).1 heng).trans (spares_failDirect _ k e err fun h => (hown h).2 rfl)

theorem directRun_damaged {h a : Nat} (hfill : dirFill p k (dirTable k.params) (dirBinds k.params) (dirStart s p k e) = .error
    (h, a)) :
    directRun s n p k e = failHbm s k h a := by
  simp only [directRun, hfill]

theorem directRun_ok {o : DirOut} (hfill : dirFill p k (dirTable k.params) (dirBinds k.params) (dirStart s p k e) = .ok x)
    (hrun : directOn p k (dirTable k.params) x = some (.ok o, y)) :
    directRun s n p k e = endDirect (noteDirReads s n p k) n p k (dirTable k.params) y o := by
  simp only [directRun, hfill, hrun]

theorem directRun_err {err : OpErr} (hfill : dirFill p k (dirTable k.params) (dirBinds k.params) (dirStart s p k e) = .ok x)
    (hrun : directOn p k (dirTable k.params) x = some (.error err, y)) :
    directRun s n p k e = failDirect (leaveDirect s p k (dirTable k.params) y) k e err := by
  simp only [directRun, hfill, hrun]

/-- Filling and running keep the engine that the operation was placed on. -/
theorem direct_eng {r : Except OpErr DirOut}
    (hfill : dirFill p k (dirTable k.params) (dirBinds k.params) (dirStart s p k e) = .ok x)
    (hrun : directOn p k (dirTable k.params) x = some (r, y)) : y.eng = e :=
  (directOn_eng hrun).trans (dirFill_eng _ _ _ _ _ _ hfill)

/-- Settles O36: the seven share `directAt`, whose run is a fill, an operation and a packing on one engine. -/
theorem directOperationsRun : Obligations.DirectOperationsRun := by
  unfold Obligations.DirectOperationsRun
  intro i op hi c s d n p h hplot
  have hexec := exec_direct hi c s
  refine ⟨fun hnone => ⟨emptyReply op d, ?_⟩, fun hsome hwait => ?_, fun hsome hopen hfeet hnone => endsAs_endCmd _ _ _ _ ?_, ?_⟩
  · obtain ⟨hok, hpay, hblock⟩ := emptyReply_facts op d
    exact ⟨hok, hpay, hblock, done_endCmd _ _ _ _ _ (by rw [hexec, directAt_empty h hplot hnone]) hok⟩
  · rw [hexec, directAt_waits h hplot hsome hwait]
  · rw [hexec, directAt_unplaced h hplot hsome hopen hfeet hnone]
  · rintro hsome hopen hfeet e k heng hready hslice rfl
    let k : Cmd := { d with placed := [e] }
    rw [directAt_runs h hplot hsome hopen hfeet heng hready hslice] at hexec
    refine ⟨fun a b hfill => ?_, fun x hfill => ⟨fun o y out z hrun hgather hpack => ?_, fun a b y hrun hcount => ?_,
      fun err y hrun => ?_⟩⟩
    · rw [directRun_damaged (k := k) hfill] at hexec
      exact runFails_failHbm (d := k) a b hexec
    · rw [directRun_ok (k := k) hfill hrun, endDirect_outputs hgather] at hexec
      obtain ⟨u, hu, hmem, hother⟩ := finishOk_facts (s := noteDirReads s n p k) (n := n) (p := p) (o := o) (k := k) hpack
      obtain rfl := direct_eng (k := k) hfill hrun
      refine ⟨_, hexec, hu ▸ endCmd_ended .., ?_, fun g hg => ?_⟩
      · rw [hu, endCmd_eng, hmem]
      · rw [hu, endCmd_eng, hother g hg]
        exact (works_noteDirReads (E := fun _ => True) s n p k).engs g trivial
    · rw [directRun_ok (k := k) hfill hrun, endDirect_stop hcount] at hexec
      refine ⟨_, hexec, endCmd_ended .., ?_, fun g hg => ?_⟩
      · exact (endCmd_keeps ..).1.trans ((leaveDirect_keeps ..).1.trans (noteDirReads_keeps ..).1)
      · have hout : g ≠ y.eng := fun he => hg (he.trans (direct_eng (k := k) hfill hrun))
        have hworks := (works_noteDirReads (E := (· ≠ y.eng)) s n p k).trans (works_leaveDirect _ p k (dirTable k.params) y)
        rw [endCmd_eng]
        exact hworks.engs g hout
    · rw [directRun_err (k := k) hfill hrun] at hexec
      exact runFails_direct (k := k) hexec (direct_eng (k := k) hfill hrun)

end Sys2Proof.Machine
end

section
/-!
PROOF. Admin commands: queues, keys, and plots with the pages that they give back (R274, R316 to R319, R343 to R353, R433).
-/

namespace Sys2Proof.Machine

open Sys2Proof

variable {s t : State} {c : CmdRef} {op n : Nat} {d : Cmd} {p : Plot} {f : FuncId} {q q₀ : Nat} {x : Queue}

/-- An admin command of a ring at its turn. -/
theorem Turn.admin {i : Instr} {k : Cmd → FuncId → State} (h : Turn s c op d) (hsrc : d.src = .ring f q₀)
    (hi : Machine.exec i s = .next (adminAt c op s k)) : Machine.exec i s = .next (k d f) := by
  rw [hi, admin_at h hsrc]

/-! ## QUEUE_CREATE and QUEUE_DELETE -/

theorem createQueue_refused (hused : s.allot f ≤ fieldAt d.params 0 2 ∨ (mget (s.fn f).queues
    (fieldAt d.params 0 2)).isSome = true) :
    createQueue s d f = endCmd s d (Reply.badParam 32) := by
  have htaken : (decide (s.allot f ≤ fieldAt d.params 0 2) || (mget (s.fn f).queues (fieldAt d.params 0 2)).isSome) = true := by
    simpa using hused
  exact if_pos htaken

theorem createQueue_made (hallot : fieldAt d.params 0 2 < s.allot f) (hfree : mget (s.fn f).queues (fieldAt d.params 0 2) = none)
    (hroom : queuesInUse s < 2048) : createQueue s d f =
      endCmd (s.modFn f fun y => { y with queues := mput y.queues (fieldAt d.params 0 2) (newQueue d.params) }) d
          (Reply.ok [] []) := by
  simp only [createQueue, hfree, Option.isSome_none, Bool.or_false, decide_eq_true_eq, Nat.not_le.2 hallot, Nat.not_le.2 hroom,
      if_false]

theorem deleteQueue_here {u : State} (hx : s.queue (.ring f (fieldAt d.params 0 2)) = some x)
    (hu : u = if x.closing then s else beginDelete s f (fieldAt d.params 0 2)) : deleteQueue s d f =
      if queueQuiet u (.ring f (fieldAt d.params 0 2)) then endCmd (eraseQueue u f (fieldAt d.params 0 2)) d
          (Reply.ok [] []) else u := by
  simp only [deleteQueue, hx, hu]

/-! ## QUEUE_RESUME -/

theorem resumeQueue_active (src : Src) (hsrc : src ≠ .bmc) (hx : s.queue src = some x) :
    ∃ y, (resumeQueue s src).queue src = some y ∧ y.core = x.core ∧ y.qstate = .active := by
  obtain ⟨g, q, rfl⟩ : ∃ g q, src = .ring g q := by
    cases src with
    | ring g q => exact ⟨g, q, rfl⟩
    | bmc => exact absurd rfl hsrc
  unfold resumeQueue
  extract_lets u
  have hu : u.queue (.ring g q) = some { x with qstate := .active, byRing := false, owed := x.owed || !s.gatehouseUp } := by
    rw [State.queue_modQueue, hx]
    rfl
  have hsends : Sends u (if s.gatehouseUp then touchShadow u (.ring g q) else u) := by
    split
    · exact sends_touchShadow ..
    · exact .refl _
  obtain ⟨y, hy, hinner⟩ := hsends.ring_inner hu
  exact ⟨y, hy, (congrArg Queue.core hinner :), congrArg (·.qstate) hinner⟩

/-- A command that ends OK leaves the state of another queue of its function as it is. -/
theorem endCmd_other_qstate {r : Reply} (hr : r.status = .ok) (hsrc : d.src ≠ .ring f q) (hx : s.queue (.ring f q) = some x) :
    ∃ y, (endCmd s d r).queue (.ring f q) = some y ∧ y.core = x.core ∧ y.qstate = x.qstate := by
  have hfinish : (finish s d r false).queue (.ring f q) = some x := by
    unfold finish
    rw [queue_modQueue_other _ _ _ _ (Ne.symm hsrc), hr, if_pos (by decide), traceEnd_queue]
    exact hx
  obtain ⟨y, hy, hinner⟩ := (sends_drain (finish s d r false) d.src).ring_inner hfinish
  exact ⟨y, by rw [endCmd_ok s d r hr, hy], (congrArg Queue.core hinner :), congrArg (·.qstate) hinner⟩

theorem resumeAt_halted (hx : s.queue (.ring f (fieldAt d.params 0 2)) = some x) (hhalted : x.qstate = .halted) :
    resumeAt s d f = endCmd (resumeQueue s (.ring f (fieldAt d.params 0 2))) d (Reply.ok [] []) := by
  simp only [resumeAt, hx, hhalted, beq_self_eq_true, if_true]

theorem resumeAt_not (hnot : ∀ x, s.queue (.ring f (fieldAt d.params 0 2)) = some x → x.qstate ≠ .halted) :
    resumeAt s d f = endCmd s d (Reply.badParam 32) := by
  unfold resumeAt
  extract_lets src
  split
  · next x hx => exact if_neg (by simpa using hnot x hx)
  · rfl

/-- The queue that QUEUE_RESUME leaves, from its own end or from another queue's (R274). -/
theorem resume_core (hx : s.queue (.ring f q) = some x) :
    ∃ y, (endCmd (resumeQueue s (.ring f q)) d (Reply.ok [] [])).queue (.ring f q) = some y ∧ y.core = x.core ∧
      (d.src ≠ .ring f q → y.qstate = .active) := by
  obtain ⟨y, hy, hcore, hactive⟩ := resumeQueue_active (.ring f q) nofun hx
  by_cases hsrc : d.src = .ring f q
  · obtain ⟨z, hz, hsame⟩ := core_get (core_endCmd (resumeQueue s (.ring f q)) d (Reply.ok [] [])) hy nofun
    exact ⟨z, hz, hsame.trans hcore, fun h => absurd hsrc h⟩
  · obtain ⟨z, hz, hsame, hstate⟩ := endCmd_other_qstate (r := Reply.ok [] []) rfl hsrc hy
    exact ⟨z, hz, hsame.trans hcore, fun _ => hstate.trans hactive⟩

/-- Settles O37: each of the three by its queue's presence and state. -/
theorem queueCommands : Obligations.QueueCommands := by
  unfold Obligations.QueueCommands
  rintro c s d f q₀ q hsrc rfl
  refine ⟨fun h => ⟨fun hused => endsAs_endCmd _ _ _ _ ?_, fun hallot hfree hroom => ?_⟩,
    fun h => ⟨fun hnone => endsAs_endCmd _ _ _ _ ?_, fun x u hx hu => ⟨fun hbusy => ?_,
      fun hquiet => done_endCmd _ _ _ _ _ ?_ rfl⟩⟩,
    fun h => ⟨fun x hx hhalted => ?_, fun x hx hnot => endsAs_endCmd _ _ _ _ ?_, fun hnone => endsAs_endCmd _ _ _ _ ?_⟩⟩
  · rw [h.admin hsrc rfl, createQueue_refused hused]
  · exact ⟨newQueue d.params, rfl, rfl, rfl, rfl, rfl, rfl,
      done_endCmd _ _ _ _ _ (by rw [h.admin hsrc rfl, createQueue_made hallot hfree hroom]) rfl⟩
  · rw [h.admin hsrc rfl, deleteQueue, hnone]
    rfl
  · rw [h.admin hsrc rfl, deleteQueue_here hx hu, if_neg (Bool.eq_false_iff.1 hbusy)]
  · rw [h.admin hsrc rfl, deleteQueue_here hx hu, if_pos hquiet]
    rfl
  · obtain ⟨y, hy, hcore, hactive⟩ := resume_core (d := d) hx
    refine ⟨_, y, by rw [h.admin hsrc rfl, resumeAt_halted hx hhalted], endCmd_ended .., hy, hcore, fun hother => hactive ?_⟩
    rw [hsrc]
    simpa using hother.symm
  · rw [h.admin hsrc rfl, resumeAt_not fun y hy => by rwa [Option.some.inj (hy.symm.trans hx)]]
  · rw [h.admin hsrc rfl, resumeAt_not fun y hy => absurd (hy.symm.trans hnone) nofun]

/-! ## KEY_SET -/

theorem setKey_noSession (hlen : fieldAt d.params 4 4 = d.payload.length) (hnone : keySession s f (fieldAt d.params 0 4) = none) :
    setKey s d f = endCmd s d (Reply.bare .authFail) := by
  simp only [setKey, hlen, bne_self_eq_false, Bool.false_eq_true, if_false, hnone]
  rfl

theorem setKey_unopened {k : Nat} {x : Session} (hlen : fieldAt d.params 4 4 = d.payload.length)
    (hsession : keySession s f (fieldAt d.params 0 4) = some (k, x)) (hnone : openRecord x d.payload = none) :
    setKey s d f = endCmd s d (Reply.bare .authFail) := by
  simp only [setKey, hlen, bne_self_eq_false, Bool.false_eq_true, if_false, hsession, hnone, failCmd, ite_self]

/-- A record that opens is spent before its data are looked at (R433). -/
theorem setKey_opened {k : Nat} {x : Session} {b : List Byte} (hlen : fieldAt d.params 4 4 = d.payload.length)
    (hplot : d.plot = some n) (hsession : keySession s f (fieldAt d.params 0 4) = some (k,
        x)) (hhead : doeHeaderOk d.payload = true)
    (hopen : openRecord x d.payload = some b) {u : State}
    (hu : u = { s with sessions := mput s.sessions k { x with seq := (x.seq + 1) % 2 ^ 64 } }) :
    setKey s d f = if keyDataOk b (d.seqs.getLastD 0) then
      endCmd (u.modPlot n fun p => { p with key := keyOf b }) d (Reply.ok [] []) else endCmd u d (Reply.bare .authFail) := by
  simp only [setKey, hlen, bne_self_eq_false, Bool.false_eq_true, if_false, hsession, hhead, Bool.not_true, hopen, hplot,
      failCmd, hu]

theorem endCmd_keys (s : State) (d : Cmd) (r : Reply) (m : Nat) :
    (mget (endCmd s d r).plots m).map (·.key) = (mget s.plots m).map (·.key) := plot_keys (works_endCmd ..) m

/-- Settles O38: what KEY_SET does follows the session, the record and its data, in that order. -/
theorem keySetNeedsItsRecord : Obligations.KeySetNeedsItsRecord := by
  unfold Obligations.KeySetNeedsItsRecord
  intro c s d f q n p h hsrc hplot hlen
  have hexec := h.admin hsrc (i := .keySet c) rfl
  refine ⟨fun hnone => endsAs_endCmd _ _ _ _ ?_, fun k x hsession hhead => ⟨fun hnone => ?_, fun b hopen y hy => ?_⟩⟩
  · rw [hexec, setKey_noSession hlen hnone]
  · rw [hexec, setKey_unopened hlen hsession hnone]
    exact ⟨_, rfl, endCmd_ended .., endCmd_sessions .., endCmd_keys s d _⟩
  · subst hy
    have hstep := setKey_opened hlen hplot.1 hsession hhead hopen rfl
    refine ⟨fun hdata => done_endCmd _ _ _ _ _ ?_ rfl, fun hdata => ?_⟩
    · rw [hexec, hstep, if_pos hdata, modPlot_eq (show mget { s with sessions := _ }.plots n = some p from hplot.2)]
    · rw [hexec, hstep, if_neg (Bool.eq_false_iff.1 hdata)]
      exact ⟨_, rfl, endCmd_ended .., endCmd_sessions .., endCmd_keys _ d _⟩

/-! ## PLOT_CONFIG -/

/-- What the commit of a PLOT_CONFIG leaves: the new plot among the others, and clear scratchpads (R345, R352). -/
theorem commitConfig_facts (s : State) (ps : List Byte) :
    (commitConfig s ps).plots = mput s.plots (byteAt ps 0) (newPlot s.lclk ps) ∧
      ∀ e, e < 6 → bitOf (newPlot s.lclk ps).engmask e = true → ((commitConfig s ps).eng e).spad = Spad.clear := by
  unfold commitConfig
  extract_lets p
  refine ⟨by rw [retargetAll_plots, clearErrBits_plots, zeroEngines_plots]; rfl, fun e he hmask => ?_⟩
  rw [retargetAll_spad, clearErrBits_eng]
  exact zeroEngines_spad _ _ _ he hmask

theorem endCmd_ok_plots (s : State) (d : Cmd) (r : Reply) (h : r.status = .ok) : (endCmd s d r).plots = s.plots :=
  congrArg (·.plots) (endCmd_repliesOnly s d r h).rest

/-- Settles O39: the checks of R344 in their order, and then the new plot. -/
theorem plotConfigMakesThePlot : Obligations.PlotConfigMakesThePlot := by
  unfold Obligations.PlotConfigMakesThePlot
  intro c s d h hfield
  have hallowed : (s.secure.level == .invasive && s.stores.life == .field) = false := by simpa using hfield
  have hexec : exec (.plotConfig c) s = .next (configPlot s d) := by rw [h.exec rfl, turn_commit h]
  have hconfig : configPlot s d = match minOff (configBad s d.params) with
      | some o => failCmd s d (Reply.badParam o)
      | none => match configShort s d.params with
        | some r => failCmd s d (Reply.noSpace r)
        | none => if s.zeroedFree < fieldAt d.params 4 4 then failCmd s d (Reply.bare .pagesScrubbing)
          else endCmd (commitConfig s d.params) d (Reply.ok [] []) := by
    rw [configPlot]
    exact if_neg (Bool.eq_false_iff.1 hallowed)
  refine ⟨fun o ho => endsAs_endCmd _ _ _ _ ?_, fun hgood => ⟨fun r hr => endsAs_endCmd _ _ _ _ ?_,
    fun hfits hdirty => endsAs_endCmd _ _ _ _ ?_, fun hfits hclean => ?_⟩⟩
  all_goals rw [hconfig] at hexec
  · rw [hexec, ho]
    rfl
  · rw [hexec, hgood, hr]
    rfl
  · rw [hexec, hgood, hfits]
    simp only [minOff, hdirty, if_true]
    rfl
  · obtain ⟨hplots, hspads⟩ := commitConfig_facts s d.params
    have hsame : (endCmd (commitConfig s d.params) d (Reply.ok [] [])).plots = _ := (endCmd_ok_plots _ _ _ rfl).trans hplots
    rw [hgood, hfits] at hexec
    simp only [minOff, Nat.not_lt.2 hclean, if_false] at hexec
    refine ⟨_, newPlot s.lclk d.params, hexec, endCmd_ended .., by rw [hsame, mget_mput_same], rfl, rfl, rfl, rfl, rfl, rfl,
        rfl, rfl,
      rfl, rfl, fun m hm => by rw [hsame, mget_mput_other _ _ _ _ hm], fun e he hmask => ?_⟩
    rw [endCmd_eng, hspads e he hmask]
    rfl

/-! ## PLOT_RELEASE and PAGE_ZEROING_DONE -/

/-- A fold keeps what each of its steps keeps. -/
theorem foldl_same {α β : Type} (φ : State → β) (g : State → α → State) (l : List α) (s : State) (h : ∀ t x, φ (g t x) = φ t) :
    φ (l.foldl g s) = φ s := by
  induction l generalizing s with
  | nil => rfl
  | cons a l ih => rw [List.foldl_cons, ih, h]

theorem retarget_zeroing (s : State) (e : Nat) : (retarget s e).devZeroing = s.devZeroing := by
  unfold retarget
  extract_lets x v
  split
  · split <;> rfl
  · rfl

theorem retargetAll_zeroing (s : State) : (retargetAll s).devZeroing = s.devZeroing :=
  foldl_same (·.devZeroing) _ _ _ retarget_zeroing

/-- The plot's state is cleared and its functions unbound before it goes: neither changes a plot or the pages (R351). -/
theorem commitRelease_facts (s : State) (n : Nat) (p : Plot) : (commitRelease s n p).plots = mdel s.plots n ∧
    (commitRelease s n p).devZeroing = s.devZeroing + p.quota := by
  unfold commitRelease
  extract_lets t
  have hplots : t.plots = s.plots := by
    simp only [t]
    rw [clearErrBits_plots, fold_plots unbindFn _ _ fun _ _ => rfl, zeroEngines_plots]
  have hpages : t.devZeroing = s.devZeroing := by
    have hclear : (clearErrBits (p.fids.foldl unbindFn (zeroEngines s p.engmask)) p.fids).devZeroing = _ :=
      foldl_same (·.devZeroing) _ _ _ fun _ _ => rfl
    have hzero : (zeroEngines s p.engmask).devZeroing = s.devZeroing := foldl_same (·.devZeroing) _ _ _ fun _ _ => rfl
    exact hclear.trans ((foldl_same (·.devZeroing) unbindFn _ _ fun _ _ => rfl).trans hzero)
  exact ⟨(retargetAll_plots _).trans (by rw [← hplots]), (retargetAll_zeroing _).trans (by rw [← hpages])⟩

theorem releasePlot_here {u : State} (hp : mget s.plots (byteAt d.params 0) = some p)
    (hu : u = if p.releasing.isSome then s else beginRelease s (byteAt d.params 0) d.acc) : releasePlot s d =
      if plotDrained u d (byteAt d.params 0) p then endCmd (commitRelease u (byteAt d.params 0) p) d (Reply.ok [] []) else u := by
  simp only [releasePlot, hp, hu]

/-- Settles O40: a release waits for its plot to drain, and each zeroed page counts one down. -/
theorem plotReleaseAndZeroing : Obligations.PlotReleaseAndZeroing := by
  unfold Obligations.PlotReleaseAndZeroing
  refine ⟨fun c s d h => ⟨fun hnone => endsAs_endCmd _ _ _ _ ?_, fun p u hp hu => ⟨fun hbusy => ?_, fun hdrained => ?_⟩⟩,
    fun s hruns => ⟨?_, fun a p hp => ?_⟩⟩
  · rw [h.exec rfl, turn_commit h, releasePlot, hnone]
    rfl
  · rw [h.exec rfl, turn_commit h, releasePlot_here hp hu, if_neg (Bool.eq_false_iff.1 hbusy)]
  · obtain ⟨hplots, hpages⟩ := commitRelease_facts u (byteAt d.params 0) p
    have hends := endCmd_repliesOnly (commitRelease u (byteAt d.params 0) p) d (Reply.ok [] []) rfl
    exact ⟨_, by rw [h.exec rfl, turn_commit h, releasePlot_here hp hu, if_pos hdrained], endCmd_ended ..,
      (endCmd_ok_plots _ _ _ rfl).trans hplots, (congrArg (·.devZeroing) hends.rest).trans hpages⟩
  · exact congrArg Host.Outcome.next (if_pos hruns)
  · rw [← modPlot_eq hp fun x => { x with zeroing := x.zeroing - 1 }]
    exact congrArg Host.Outcome.next (if_pos hruns)

end Sys2Proof.Machine
end

section
/-!
PROOF. Steps of the engines: the weight feed's prefetch, tags and barriers, scratchpad accesses and passes of the matrix array
(R84 to R102, R183 to R198, R207 to R212, R248).
-/

namespace Sys2Proof.Machine

open Sys2Proof

variable {s t : State} {e : Nat} {d : Cmd} {c : CmdRef} {x : Engine}

theorem bool_not_true {b : Bool} (h : b = false) : ¬b = true := Bool.eq_false_iff.1 h

/-! ## An engine at work -/

/-- A change of an engine at work that reads and writes none of what the work itself sets. -/
theorem modEng_atWork {g k : Engine → Engine}
    (h : ∀ sl i v, g { s.eng e with slice := sl, idleSince := i, eclk := v } = k
        { s.eng e with slice := sl, idleSince := i, eclk := v }) :
    (atWork s e).modEng e g = (atWork s e).modEng e k := by
  obtain ⟨⟨sl, v, heng⟩, -⟩ := atWork_facts s e
  exact modEng_congr _ _ _ _ (by rw [heng]; exact h sl _ v)

/-! ## The weight feed -/

theorem wfuIssue_eq {p : PfEntry} (hruns : unitsRun s e = true) (hhbm : s.hbmUp = true)
    (hnext : (s.eng e).wfu.sched[(s.eng e).wfu.nextEntry]? = some p) : wfuIssue e s = if mayIssue (s.eng e) p then
      (atWork s e).modEng e fun x => { x with wfu := { x.wfu.setEntry x.wfu.nextEntry { p with issued := true } with nextEntry := x.wfu.nextEntry + 1 } }
    else s := by
  simp only [wfuIssue, hnext, hruns, hhbm, Bool.true_and]

/-- Delivery of an entry (R248): the bytes of its buffer, its tags, and nothing else. -/
theorem deliver_facts (p : PfEntry) (q : Spad) (hwf : q.mem.wf = true) :
    (deliver p q).1.tagsAre true p.slotFirst p.slotCount = true ∧
    (∀ k b, p.bytes[k]? = some b → (deliver p q).1.mem.read (p.addr + k) = b) ∧
      ∀ a, a < p.addr ∨ p.addr + p.bytes.length ≤ a → (deliver p q).1.mem.read a = q.mem.read a := by
  obtain ⟨-, hin, hout⟩ := rangeStores_read p.addr p.bytes q.mem hwf
  have hmem : (deliver p q).1.mem = (rangeStores p.addr p.bytes).foldl (fun m s => storeMem s m) q.mem := storeAll_mem ..
  rw [hmem]
  exact ⟨tagsAre_setTags .., hin, hout⟩

theorem wfuComplete_eq {i : Nat} {p : PfEntry} (hruns : unitsRun s e = true) (hhbm : s.hbmUp = true)
    (hentry : (s.eng e).wfu.sched[i]? = some p) (hissued : p.issued = true) (hdone : p.done = false) : wfuComplete e i s =
      progress (applyTrace (noteEntry (s.setEng e { s.eng e with
          spad := (deliver p (s.eng e).spad).1, wfu := (s.eng e).wfu.setEntry i { p with done := true } }) (s.holder e) p)
        (s.holder e) e none (deliver p (s.eng e).spad).2) e ((s.eng e).wfu.serves s) := by
  simp only [wfuComplete, hentry, hruns, hhbm, hissued, hdone, Bool.not_false, Bool.and_self, if_true]

/-- What the records of an entry's delivery and the engine's progress leave of the engines. -/
theorem delivered_facts (s : State) (e : Nat) (z : Engine) (pl : Option Nat) (p : PfEntry) (tr : Trace) (mine : Nat → Bool) :
    let t := progress (applyTrace (noteEntry (s.setEng e z) pl p) pl e none tr) e mine
    t.cmds = s.cmds ∧ (t.eng e).wfu = z.wfu ∧ (t.eng e).spad = z.spad ∧ ∀ j, j ≠ e → t.eng j = s.eng j := by
  intro t
  obtain ⟨⟨sl, v, heng⟩, hother, hcmds, -⟩ := progress_facts (applyTrace (noteEntry (s.setEng e z) pl p) pl e none tr) e mine
  obtain ⟨hncmds, hneng⟩ := noteEntry_facts (s.setEng e z) pl p
  have hnotes := notes_applyTrace (noteEntry (s.setEng e z) pl p) pl e none tr
  have hz (j : Nat) : (applyTrace (noteEntry (s.setEng e z) pl p) pl e none tr).eng j = (s.setEng e z).eng j :=
    (hnotes.eng j).trans (hneng j)
  refine ⟨hcmds.trans ((pool_notes hnotes).2.2.trans hncmds), ?_, ?_, fun j hj => ?_⟩
  · rw [heng, hz, State.eng_setEng]
  · rw [heng, hz, State.eng_setEng]
  · rw [hother j hj, hz, State.eng_setEng_other _ _ _ _ hj]

/-- Settles O41: an entry issues when its three conditions hold, and its delivery is one list of stores and one range of tags. -/
theorem prefetchFillsItsBuffer : Obligations.PrefetchFillsItsBuffer := by
  unfold Obligations.PrefetchFillsItsBuffer
  refine ⟨fun e s w p hruns hhbm hw hnext => ⟨fun ⟨hstep, hempty, hroom⟩ => ?_, fun hheld => ?_⟩,
    fun e i s p hruns hhbm hentry hissued hdone hwf => ?_⟩
  · subst hw
    have hmay : mayIssue (s.eng e.val) p = true := by simp [mayIssue, hstep, hempty, hroom]
    show Host.Outcome.next (wfuIssue e.val s) = _
    rw [wfuIssue_eq hruns hhbm hnext, if_pos hmay]
    exact congrArg Host.Outcome.next (modEng_atWork fun _ _ _ => rfl)
  · subst hw
    have hnot : mayIssue (s.eng e.val) p = false := by
      rcases hheld with h | h | h
      · simp [mayIssue, Nat.not_le.2 h]
      · simp [mayIssue, h]
      · simp [mayIssue, Nat.not_lt.2 h]
    show Host.Outcome.next (wfuIssue e.val s) = _
    rw [wfuIssue_eq hruns hhbm hnext, if_neg (bool_not_true hnot)]
  · obtain ⟨htags, hin, hout⟩ := deliver_facts p (s.eng e.val).spad hwf
    obtain ⟨hcmds, hwfu, hspad, hother⟩ := delivered_facts s e.val { s.eng e.val with
      spad := (deliver p (s.eng e.val).spad).1, wfu := (s.eng e.val).wfu.setEntry i { p with done := true } } (s.holder e.val) p
      (deliver p (s.eng e.val).spad).2 ((s.eng e.val).wfu.serves s)
    refine ⟨_, congrArg Host.Outcome.next (wfuComplete_eq hruns hhbm hentry hissued hdone), hcmds, ?_, ?_, ?_, ?_, hother⟩
    · rw [hwfu]
      rfl
    all_goals rw [hspad]
    · exact htags
    · exact hin
    · exact hout

/-! ## Tags -/

theorem tagAcquire_eq {u : EUnit} {id : Nat} {acts : List TagAct} (hruns : unitsRun s e = true) (hacts : actsOk acts = true)
    (hcmd : epochCmd s e c = some d) : tagAcquire e u id acts c s = (atWork s e).modEng e fun x =>
      match findOp x d.acc u id with
      | some o => tagStep x o
      | none => tagStep { x with ops := x.ops ++ [⟨d.acc, id, u, acts, false⟩] } ⟨d.acc, id, u, acts, false⟩ := by
  simp only [tagAcquire, hcmd]
  exact if_pos (by rw [hruns, hacts]; rfl)

/-- An operation that stands in the list is tested or completes (R192). -/
theorem tagAcquire_found {u : EUnit} {id : Nat} {acts : List TagAct} {o : PendOp} (hruns : unitsRun s e = true)
    (hacts : actsOk acts = true) (hcmd : epochCmd s e c = some d) (ho : findOp (s.eng e) d.acc u id = some o) :
    tagAcquire e u id acts c s = (atWork s e).modEng e fun x => tagStep x o := by
  rw [tagAcquire_eq hruns hacts hcmd]
  refine modEng_atWork fun sl i v => ?_
  have hsame : findOp { s.eng e with slice := sl, idleSince := i, eclk := v } d.acc u id = some o := ho
  simp only [hsame]

/-- One that does not arrives, and is tested at once. -/
theorem tagAcquire_new {u : EUnit} {id : Nat} {acts : List TagAct} (hruns : unitsRun s e = true)
    (hacts : actsOk acts = true) (hcmd : epochCmd s e c = some d) (hnew : findOp (s.eng e) d.acc u id = none) :
    tagAcquire e u id acts c s = (atWork s e).modEng e fun x =>
      tagStep { x with ops := x.ops ++ [⟨d.acc, id, u, acts, false⟩] } ⟨d.acc, id, u, acts, false⟩ := by
  rw [tagAcquire_eq hruns hacts hcmd]
  refine modEng_atWork fun sl i v => ?_
  have hsame : findOp { s.eng e with slice := sl, idleSince := i, eclk := v } d.acc u id = none := hnew
  simp only [hsame]

theorem findOp_acc {acc : Nat} {u : EUnit} {id : Nat} {o : PendOp} (h : findOp x acc u id = some o) : o.acc = acc := by
  have hfound := List.find?_some h
  simp only [Bool.and_eq_true, beq_iff_eq] at hfound
  exact hfound.1.1

theorem findOp_none {acc : Nat} {u : EUnit} {id : Nat} (h : findOp x acc u id = none) (acts : List TagAct) (b : Bool) :
    ∀ q ∈ x.ops, PendOp.same ⟨acc, id, u, acts, b⟩ q = false := by
  intro q hq
  exact Bool.eq_false_iff.2 (List.find?_eq_none.1 h q hq)

/-- A new operation whose acquires are met is the one that starts (R192). -/
theorem tagStep_new {acc : Nat} {u : EUnit} {id : Nat} {acts : List TagAct} (h : findOp x acc u id = none)
    (hmet : acquiresMet x.spad acts = true) : tagStep { x with ops := x.ops ++ [⟨acc, id, u, acts, false⟩] } ⟨acc, id, u, acts,
        false⟩ =
      { x with ops := x.ops ++ [⟨acc, id, u, acts, true⟩], stuck := mdel x.stuck acc } := by
  have hold : x.ops.map (fun q => if PendOp.same ⟨acc, id, u, acts, false⟩ q then { q with started := true } else q) = x.ops :=
    (List.map_congr_left fun q hq => if_neg (bool_not_true (findOp_none h acts false q hq))).trans (List.map_id _)
  have hself : PendOp.same ⟨acc, id, u, acts, false⟩ ⟨acc, id, u, acts, false⟩ = true := by simp [PendOp.same]
  simp only [tagStep, hmet, Bool.false_eq_true, if_false, if_true, List.map_append, hold, List.map_cons, List.map_nil, hself]

theorem tagStep_waits {o : PendOp} (hstart : o.started = false) (hmet : acquiresMet x.spad o.acts = false) : tagStep x o = x := by
  simp only [tagStep, hstart, hmet, Bool.false_eq_true, if_false]

theorem tagStep_completes {o : PendOp} (hstart : o.started = true) : tagStep x o =
    { x with ops := x.ops.filter fun q => !o.same q, spad := releaseTags x.spad o.acts, stuck := mdel x.stuck o.acc } := by
  simp only [tagStep, hstart, if_true]

theorem tagStep_starts {o : PendOp} (hstart : o.started = false) (hmet : acquiresMet x.spad o.acts = true) : tagStep x o =
    { x with ops := x.ops.map fun q => if o.same q then { q with started := true } else q, stuck := mdel x.stuck o.acc } := by
  simp only [tagStep, hstart, hmet, Bool.false_eq_true, if_false, if_true]

theorem barrier_waits {units : BitVec 5} (hcmd : epochCmd s e c = some d)
    (h : ∃ o ∈ (s.eng e).ops, o.acc = d.acc ∧ covered units o.unit = true ∧ o.started = false) : barrier e units c s = s := by
  obtain ⟨o, ho, hacc, hcov, hstart⟩ := h
  have hwaits : (((s.eng e).ops.filter fun o => o.acc == d.acc && covered units o.unit).all (·.started)) = false := by
    refine List.all_eq_false.2 ⟨o, List.mem_filter.2 ⟨ho, by simp [hacc, hcov]⟩, by simp [hstart]⟩
  simp only [barrier, hcmd, hwaits, Bool.and_false, Bool.false_eq_true, if_false]

theorem drainEngine_facts (s : State) (e : Nat) (c : Option Cmd) : (drainEngine s e c).cmds = s.cmds ∧
    ((drainEngine s e c).eng e).spad.comb = [] ∧ ((drainEngine s e c).eng e).ops = (s.eng e).ops := by
  unfold drainEngine
  extract_lets x r
  have hnotes := notes_applyTrace (s.setEng e { x with spad := r.1 }) (s.holder e) e c r.2
  refine ⟨(pool_notes hnotes).2.2, ?_, ?_⟩
  · rw [hnotes.eng, State.eng_setEng]
    exact drain_comb _
  · rw [hnotes.eng, State.eng_setEng]

theorem barrier_done {units : BitVec 5} (hruns : unitsRun s e = true) (hcmd : epochCmd s e c = some d)
    (h : ∀ o ∈ (s.eng e).ops, o.acc = d.acc → covered units o.unit = true → o.started = true) :
    (barrier e units c s).cmds = s.cmds ∧ ((barrier e units c s).eng e).spad.comb = [] ∧
      ((barrier e units c s).eng e).ops = (s.eng e).ops.filter fun o => !(o.acc == d.acc && covered units o.unit) := by
  have hall : (((s.eng e).ops.filter fun o => o.acc == d.acc && covered units o.unit).all (·.started)) = true := by
    refine List.all_eq_true.2 fun o ho => ?_
    obtain ⟨hmem, hmine⟩ := List.mem_filter.1 ho
    obtain ⟨hacc, hcov⟩ := Bool.and_eq_true_iff.1 hmine
    exact h o hmem (beq_iff_eq.1 hacc) hcov
  simp only [barrier, hcmd, hruns, hall, Bool.and_self, if_true]
  obtain ⟨hcmds, hcomb, hops⟩ := drainEngine_facts ((atWork s e).modEng e fun x =>
    { x with
      ops := x.ops.filter fun o => !(o.acc == d.acc && covered units o.unit)
      spad := ((s.eng e).ops.filter fun o => o.acc == d.acc && covered units o.unit).foldl
        (fun (p : Spad) o => releaseTags p o.acts) x.spad
      stuck := if ((s.eng e).ops.filter fun o => o.acc == d.acc && covered units o.unit).isEmpty then x.stuck else mdel x.stuck d.acc })
    e (some d)
  obtain ⟨⟨sl, v, heng⟩, -, hwork, -⟩ := atWork_facts s e
  refine ⟨hcmds.trans hwork, hcomb, hops.trans ?_⟩
  rw [State.eng_modEng, heng]

theorem slotTimeout_early (hcmd : epochCmd s e c = some d) (h : (mget (s.eng e).stuck d.acc).getD 0 < 2 ^ 22) :
    slotTimeout e c s = s := by
  simp only [slotTimeout, hcmd, Nat.not_le.2 h, decide_false, Bool.and_false, Bool.false_eq_true, if_false]

theorem slotTimeout_due (hidle : s.restart = none) (hcmd : epochCmd s e c = some d)
    (hlong : 2 ^ 22 ≤ (mget (s.eng e).stuck d.acc).getD 0) (hwait : ∃ o ∈ (s.eng e).ops, o.acc = d.acc ∧ o.started = false) :
    slotTimeout e c s = endCmd (emptyEpoch (endWork s d) e d) d (Reply.bare .slotTimeout) := by
  obtain ⟨o, ho, hacc, hstart⟩ := hwait
  have hany : ((s.eng e).ops.any fun o => o.acc == d.acc && !o.started) = true :=
    List.any_eq_true.2 ⟨o, ho, by simp [hacc, hstart]⟩
  simp only [slotTimeout, hcmd, hidle, hany, hlong, Option.isNone_none, decide_true, Bool.and_self, if_true]
  rfl

/-- Settles O42: an operation's life is `tagStep`; a barrier and the time limit each go by the operations that wait. -/
theorem tagsOrderTheUnits : Obligations.TagsOrderTheUnits := by
  unfold Obligations.TagsOrderTheUnits
  refine ⟨fun e u id acts c s d hruns hacts hcmd => ⟨fun hnew => ?_, fun o ho => ?_⟩,
    fun e units c s d hruns hcmd => ⟨fun hwaits => congrArg Host.Outcome.next (barrier_waits hcmd hwaits),
      fun hgone => ⟨_, rfl, barrier_done hruns hcmd hgone⟩⟩,
    fun e c s d hidle hcmd => ⟨fun hearly => congrArg Host.Outcome.next (slotTimeout_early hcmd hearly),
      fun hlong hwait => endsFrom_endCmd _ _ _ _ _ (congrArg Host.Outcome.next (slotTimeout_due hidle hcmd hlong hwait))⟩⟩
  · have hstep : exec (.tagAcquire e u ⟨id, c⟩ acts) s = .next _ := congrArg Host.Outcome.next
        (tagAcquire_new hruns hacts hcmd hnew)
    refine ⟨fun hmet => ?_, fun hmet => ?_⟩
    · rw [hstep]
      exact congrArg Host.Outcome.next (modEng_atWork fun sl i v =>
        tagStep_new (x := { s.eng e.val with slice := sl, idleSince := i, eclk := v }) hnew hmet)
    · rw [hstep]
      exact congrArg Host.Outcome.next (modEng_atWork fun _ _ _ => tagStep_waits rfl hmet)
  · have hstep : exec (.tagAcquire e u ⟨id, c⟩ acts) s = .next _ := congrArg Host.Outcome.next
        (tagAcquire_found hruns hacts hcmd ho)
    rw [← findOp_acc ho]
    refine ⟨fun hstart => ?_, fun hstart hmet => ?_, fun hstart hmet => ⟨_, hstep, ?_⟩⟩
    · rw [hstep]
      exact congrArg Host.Outcome.next (modEng_atWork fun _ _ _ => tagStep_completes hstart)
    · rw [hstep]
      exact congrArg Host.Outcome.next (modEng_atWork fun _ _ _ => tagStep_starts hstart hmet)
    · obtain ⟨⟨sl, v, heng⟩, -⟩ := atWork_facts s e.val
      rw [State.eng_modEng, heng, tagStep_waits (x := { s.eng e.val with slice := sl, idleSince := s.lclk, eclk := v }) hstart hmet]
      exact ⟨rfl, rfl, rfl⟩

/-! ## Scratchpad accesses -/

theorem exec_access {a : Access} {r : Option CmdRef} {upset : List (Nat × GState)} {e : Fin 6} (h : accessBeyond a = none) :
    exec (.scratchpadAccess e a r upset) s = .next (access e.val a r upset s) := by
  show execScratchpadAccess e a r upset s = _
  rw [execScratchpadAccess, h]

/-- The state in which an access begins: the errors that arose before it stand, and its epoch has made progress. -/
def accessStart (s : State) (e : Nat) (r : Option CmdRef) (upset : List (Nat × GState)) : State :=
  progress (s.modEng e fun x => { x with spad := upsetGranules x.spad 0 spadSize upset }) e fun a => (accessCmd s e r).any
      (·.acc == a)

theorem accessStart_facts (s : State) (e : Nat) (r : Option CmdRef) (upset : List (Nat × GState)) :
    (accessStart s e r upset).cmds = s.cmds ∧ (accessStart s e r upset).devLog = s.devLog ∧
      ((accessStart s e r upset).eng e).spad = upsetGranules (s.eng e).spad 0 spadSize upset ∧
      ∀ j, j ≠ e → (accessStart s e r upset).eng j = s.eng j := by
  obtain ⟨⟨sl, v, heng⟩, hother, hcmds, -⟩ := progress_facts
    (s.modEng e fun x => { x with spad := upsetGranules x.spad 0 spadSize upset }) e fun a => (accessCmd s e r).any (·.acc == a)
  refine ⟨hcmds, progress_devLog .., ?_, fun j hj => (hother j hj).trans (eng_other _ _ _ _ hj)⟩
  rw [accessStart, heng, State.eng_modEng]

theorem access_read {a n : Nat} {r : Option CmdRef} {upset : List (Nat × GState)} (hruns : unitsRun s e = true) :
    access e (.read a n) r upset s = accessRead e a n (accessCmd s e r) (accessStart s e r upset) := by
  simp only [access, hruns, if_true]
  rfl

theorem access_write {bs : List (Nat × Byte)} {nt : Bool} {r : Option CmdRef} {upset : List (Nat × GState)}
    (hruns : unitsRun s e = true) :
    access e (.write bs nt) r upset s = accessWrite e bs nt (accessCmd s e r) (accessStart s e r upset) := by
  simp only [access, hruns, if_true]
  rfl

/-- What a store leaves of the engines and the commands (R186, R211). -/
theorem accessWrite_facts (s : State) (e : Nat) (bs : List (Nat × Byte)) (r : Option Cmd) :
    (accessWrite e bs false r s).cmds = s.cmds ∧
      ((accessWrite e bs false r s).eng e).spad.mem = storeMem (storeOf bs []) (s.eng e).spad.mem ∧
      ∀ j, j ≠ e → (accessWrite e bs false r s).eng j = s.eng j := by
  unfold accessWrite
  extract_lets w
  have hnotes := notes_applyTrace (s.modEng e fun x => { x with spad := w.1 }) (s.holder e) e r w.2
  refine ⟨(pool_notes hnotes).2.2, ?_, fun j hj => (hnotes.eng j).trans (eng_other _ _ _ _ hj)⟩
  rw [hnotes.eng, State.eng_modEng]
  exact (store_mem ..).1

theorem whole_empty : Whole [] fun _ => none := ⟨rfl, fun _ h => absurd h List.not_mem_nil⟩

/-- One store of distinct bytes: each has its value, and every other byte keeps its own (R185). -/
theorem storeMem_bytes {bs : List (Nat × Byte)} {m : Memory} (hwf : m.wf = true) (hnodup : (bs.map (·.1)).Nodup) :
    (∀ b ∈ bs, (storeMem (storeOf bs []) m).read b.1 = b.2) ∧
      ∀ a, a ∉ bs.map (·.1) → (storeMem (storeOf bs []) m).read a = m.read a := by
  obtain ⟨v, hwhole, hkeys, hvals, -⟩ := whole_storeOf bs [] _ whole_empty hnodup fun _ h => absurd h List.not_mem_nil
  have hmem (a : Nat) : a ∈ (storeOf bs []).map (·.1) ↔ a ∈ bs.map (·.1) := by
    rw [hkeys]
    simp
  refine ⟨fun b hb => ?_, fun a ha => ?_⟩
  · rw [storeMem_whole _ _ _ hwhole hwf, if_pos ((hmem _).2 (List.mem_map_of_mem hb)), hvals b hb, Option.getD_some]
  · rw [storeMem_whole _ _ _ hwhole hwf, if_neg fun h => ha ((hmem a).1 h)]

theorem accessBeyond_write {bs : List (Nat × Byte)} {nt : Bool} (h : ∀ b ∈ bs,
    b.1 < spadSize) : accessBeyond (.write bs nt) = none := by
  have hnone : bs.find? (fun b => decide (spadSize ≤ b.1)) = none := List.find?_eq_none.2 fun b hb => by simpa using h b hb
  rw [accessBeyond, hnone]
  rfl

theorem beyondSpad_one (a n : Nat) : beyondSpad [((a : Int), n)] = if spadSize < a + n then some (max a spadSize) else none := by
  simp only [beyondSpad, Int.toNat_natCast]
  norm_cast

theorem accessBeyond_read {a n : Nat} (h : a + n ≤ spadSize) : accessBeyond (.read a n) = none := by
  rw [accessBeyond, beyondSpad_one, if_neg (Nat.not_lt.2 h), ite_self]

theorem accessRead_ok {a n : Nat} {bs : List Byte} {p : Spad} {r : Option Cmd} (hread : (s.eng e).spad.read a n = .ok bs p ⟨[],
    []⟩) :
    accessRead e a n r s = s.modEng e fun x => { x with spad := p } := by
  rw [accessRead, hread]
  rfl

/-- A read of damaged bytes ends its command (R212). -/
theorem accessRead_bad {a n b : Nat} {p : Spad} {w : Trace} (hread : (s.eng e).spad.read a n = .bad b p w)
    (hop : isDirect d.opcode = false) :
    EndedWith (accessRead e a n (some d) s) d (Reply.bare .uncorrectableData) := by
  simp only [accessRead, hread, failWork, hop, Bool.false_eq_true, if_false]
  exact endCmd_ended ..

/-! ## Passes of the matrix array -/

theorem exec_maPass {e : Fin 6} {k : PassDesc} (h : beyondSpad (passSpans k) = none) :
    exec (.maPass e k) s = .next (maPass e.val k k.cmd s) := by
  show execMaPass e k s = _
  rw [execMaPass, h]

section
variable {k : PassDesc} {w : Cmd} {n : Nat} {q : Plot} {p : MaPass}

theorem maPass_eq (hcmd : workCmd s e c = some w) (hholder : s.holder e = some n) (hplot : mget s.plots n = some q)
    (hpass : passOf q (s.eng e) k = some p) : maPass e k c s =
      if unitsRun s e then (match p.stall s (s.eng e) with
        | some z => countStall s e z
        | none => passRun (atWork s e) e q w k p)
      else if clockHeld s e then countStall s e .clock else s := by
  unfold maPass
  simp only [hcmd, hholder, Option.bind_some, hplot, hpass] <;> rfl

/-- A pass that runs: its accumulators stand in its bank, and its scratchpad is as the run left it (R87, R88). -/
theorem passRun_ok {rows : List (Nat × List Nat)}
    (hrun : (p.run (scalarsOf (s.eng e) q w) (opStart (s.eng e).spad)).1 = .ok rows) :
    (passRun s e q w k p).cmds = s.cmds ∧ (((passRun s e q w k p).eng e).bank k.bank).vals = p.entries rows ∧
      ((passRun s e q w k p).eng e).bank (!k.bank) = (s.eng e).bank (!k.bank) ∧
      ((passRun s e q w k p).eng e).spad = (p.run (scalarsOf (s.eng e) q w) (opStart (s.eng e).spad)).2.sp := by
  let r := p.run (scalarsOf (s.eng e) q w) (opStart (s.eng e).spad)
  let x : Engine := { s.eng e with spad := r.2.sp, scalars := mput (s.eng e).scalars w.acc (scalarsOf (s.eng e) q w) }
  let t := applyTrace (s.setEng e x) (s.holder e) e (some w) r.2.tr
  let bank : AccBank := ⟨p.entries rows, s.lclk + drainTime s (t.eng e) (p.entries rows).length⟩
  let u := t.modEng e fun y => y.setBank k.bank ⟨p.entries rows, s.lclk + drainTime s y (p.entries rows).length⟩
  have hpass : passRun s e q w k p = progress (countSteps u e r.2.steps) e (· == w.acc) := by
    simp only [passRun, hrun]
    rfl
  have hnotes : Notes (s.setEng e x) t := notes_applyTrace ..
  have ht : t.eng e = x := (hnotes.eng e).trans (State.eng_setEng ..)
  have hu : u.eng e = (t.eng e).setBank k.bank bank := State.eng_modEng ..
  obtain ⟨⟨sl, v, heng⟩, -, hcmds, -⟩ := progress_facts (countSteps u e r.2.steps) e (· == w.acc)
  obtain ⟨hbank, hother, hspad⟩ := bank_set (t.eng e) k.bank bank
  rw [hpass, heng]
  refine ⟨hcmds.trans (pool_notes hnotes).2.2, ?_, ?_, ?_⟩
  all_goals simp only [countSteps, State.eng_modEng, hu]
  · exact congrArg AccBank.vals hbank
  · exact hother.trans (by rw [ht]; rfl)
  · exact hspad.trans (by rw [ht])

/-- A pass that an error stops ends its command, which is of a plan's epoch (R97, R212). -/
theorem passRun_err {err : OpErr} (hop : isDirect w.opcode = false)
    (hrun : (p.run (scalarsOf (s.eng e) q w) (opStart (s.eng e).spad)).1 = .error err) :
    EndedWith (passRun s e q w k p) w (errReply (weightErr (s.eng e).wfu err)) := by
  unfold passRun
  extract_lets x sc r t
  simp only [show r.1 = .error err from hrun, failWork, hop, Bool.false_eq_true, if_false]
  exact endCmd_ended ..

end

/-- Settles O43: an access is one store or one read of the scratchpad, and a pass one run, in the state in which it begins. -/
theorem scratchpadAccesses : Obligations.ScratchpadAccesses := by
  unfold Obligations.ScratchpadAccesses
  refine ⟨fun e bs c upset s hruns hwf hin hnodup => ?_, fun e a n c s hruns hin => ⟨fun hclean => ?_,
    fun r d b p w hc hcmd hholder hread hop => ?_⟩, fun e a n c upset s hpos hbeyond => ?_, fun e p a s hbeyond => ?_,
    fun e k s w n q p hin hcmd hholder hplot hpass => ?_⟩
  · obtain ⟨hcmds, -, hspad, hother⟩ := accessStart_facts s e.val c upset
    obtain ⟨hwcmds, hwmem, hwother⟩ := accessWrite_facts (accessStart s e.val c upset) e.val bs (accessCmd s e.val c)
    have hmem : ((accessStart s e.val c upset).eng e.val).spad.mem = (s.eng e.val).spad.mem := by
      rw [hspad]
      exact (upsetGranules_mem ..).1
    obtain ⟨hnew, hold⟩ := storeMem_bytes hwf hnodup
    refine ⟨_, exec_access (accessBeyond_write hin), ?_⟩
    rw [access_write hruns, hwmem, hmem]
    exact ⟨hwcmds.trans hcmds, storeMem_wf _ _ hwf, hnew, hold, fun j hj => (hwother j hj).trans (hother j hj)⟩
  · obtain ⟨hcmds, hlog, hspad, -⟩ := accessStart_facts s e.val c []
    rw [upset_nil] at hspad
    have hread := read_clean a n ((accessStart s e.val c []).eng e.val).spad fun g _ => by
      rw [hspad, hclean]
      rfl
    refine ⟨_, exec_access (accessBeyond_read hin), ?_⟩
    rw [access_read hruns, accessRead_ok hread, State.eng_modEng]
    exact ⟨hcmds, hspad, hlog⟩
  · obtain ⟨-, -, hspad, -⟩ := accessStart_facts s e.val c []
    have hserves : accessCmd s e.val c = some d := by
      rw [accessCmd, hc, Option.bind_some, hcmd, Option.filter_some, if_pos hholder]
    rw [upset_nil] at hspad
    refine ⟨_, exec_access (accessBeyond_read hin), ?_⟩
    rw [access_read hruns, hserves]
    exact accessRead_bad (by rw [hspad]; exact hread) hop
  · have hout : accessBeyond (.read a n) = some (max a spadSize) := by
      rw [accessBeyond, beyondSpad_one, if_neg (Nat.pos_iff_ne_zero.1 hpos), if_pos hbeyond]
    show execScratchpadAccess e _ c upset s = _
    rw [execScratchpadAccess, hout]
  · show execMaPass e p s = _
    rw [execMaPass, hbeyond]
  · have hexec := exec_maPass (s := s) (e := e) hin
    rw [maPass_eq hcmd hholder hplot hpass] at hexec
    obtain ⟨⟨sl, v, heng⟩, -, hcmds, -⟩ := atWork_facts s e.val
    refine ⟨fun hruns z hz => ?_, fun hheld hclock => ?_, fun hruns hfree hsound => ?_, fun hruns hfree hop err herr => ?_⟩
    · rw [hexec, if_pos hruns, hz]
    · rw [hexec, if_neg (bool_not_true hheld), if_pos hclock]
    · obtain ⟨rows, hrows⟩ := pass_ok q (s.eng e.val) k p hpass hsound (scalarsOf (s.eng e.val) q w)
      have hrun := passRun_ok (s := atWork s e.val) (e := e.val) (q := q) (w := w) (k := k) (p := p) (rows :=
          rows) (by rw [heng]; exact hrows)
      rw [if_pos hruns, hfree] at hexec
      obtain ⟨hpcmds, hbank, hother, hspad⟩ := hrun
      rw [heng] at hother hspad
      exact ⟨_, rows, hrows, hexec, hpcmds.trans hcmds, hbank, hother, hspad⟩
    · have hended := passRun_err (s := atWork s e.val) (e := e.val) (q := q) (w := w) (k := k) (p :=
          p) hop (by rw [heng]; exact herr)
      rw [heng] at hended
      rw [if_pos hruns, hfree] at hexec
      exact ⟨_, hexec, hended⟩

end Sys2Proof.Machine
end

section
/-!
PROOF. Steps of the Groundskeeper: logic test slices and HBM calibration (R387 to R392).
-/

namespace Sys2Proof.Machine

open Sys2Proof

variable {s t : State} {e : Nat}

/-! ## Logic test slices -/

theorem opportunisticSlice_full (h : 2 ≤ oppCount s) : opportunisticSlice e s = s := by
  simp only [opportunisticSlice, Nat.not_lt.2 h, decide_false, Bool.and_false, Bool.false_eq_true, if_false]

theorem opportunisticSlice_eq (hon : keeperOn s 3 = true) (hf : (s.eng e).failed = false) (hh : s.power.hold = false)
    (hs : (s.eng e).slice = none) (ht : (s.eng e).sliceTimer + msec 150 ≤ s.lclk) (hb : (s.eng e).atBoundary = true)
    (hw : (s.eng e).wfu.outstanding = false) (hk : (s.eng e).isWaking = false) (hi : (s.eng e).idleSince + usec 50 ≤ s.lclk)
    (hc : oppCount s < 2) : opportunisticSlice e s = startSlice s e .opportunistic := by
  simp [opportunisticSlice, hon, hf, hh, hs, ht, hb, hw, hk, hi, hc]

theorem atBoundary_iff {x : Engine} : x.atBoundary = true ↔ x.ops = [] ∧ x.scalars = [] := by
  simp [Engine.atBoundary]

/-- What ends before a forced slice: an opportunistic slice of the engine, and nothing else of its work (R389). -/
theorem abandonSlice_ready (h : (s.eng e).slice = none ∨ ∃ n k, (s.eng e).slice = some ⟨.opportunistic, n, k⟩) :
    ((abandonSlice s e).eng e).slice = none ∧ ((abandonSlice s e).eng e).atBoundary = (s.eng e).atBoundary ∧
      (abandonSlice s e).lclk = s.lclk ∧ (abandonSlice s e).cmds = s.cmds ∧ (abandonSlice s e).power = s.power := by
  rcases h with h | ⟨n, k, h⟩
  · have hid : abandonSlice s e = s := by simp only [abandonSlice, h]
    rw [hid]
    exact ⟨h, rfl, rfl, rfl, rfl⟩
  · obtain ⟨heng, hlclk, hcmds⟩ := abandonSlice_eng s e n k h
    refine ⟨by rw [heng], by rw [heng]; rfl, hlclk, hcmds, ?_⟩
    simp only [abandonSlice, h, State.modHolder]
    split
    · split <;> rfl
    · rfl

/-- A boundary is missing whatever becomes of an opportunistic slice. -/
theorem abandonSlice_atBoundary : ((abandonSlice s e).eng e).atBoundary = (s.eng e).atBoundary := by
  simp only [abandonSlice]
  split
  · split
    · rw [(modHolder_keep ..).1]
      show Engine.atBoundary ((s.setEng e _).eng e) = _
      rw [State.eng_setEng]; rfl
    · rfl
  · rfl

theorem countSlice_facts (s : State) (e : Nat) (f p : Bool) : (countSlice s e f p).eng e = s.eng e ∧
    (countSlice s e f p).cmds = s.cmds ∧ (countSlice s e f p).devLog = s.devLog ∧ (countSlice s e f p).timeMs = s.timeMs ∧
      (countSlice s e f p).keeper.slices = sat16 (s.keeper.slices + 1) ∧
        (countSlice s e f p).keeper.failed = if p then s.keeper.failed else sat16 (s.keeper.failed + 1) := by
  unfold countSlice
  extract_lets k t
  obtain ⟨heng, hkeep, hcmds, hlclk, hlog, hup⟩ := modHolder_keep t e fun p_1 => { p_1 with
    gkSlices := sat16 (p_1.gkSlices + 1), gkForced := if f then sat16 (p_1.gkForced + 1) else p_1.gkForced
    gkFailed := if p then p_1.gkFailed else sat16 (p_1.gkFailed + 1) }
  refine ⟨heng, hcmds, hlog, ?_, congrArg Keeper.slices hkeep, congrArg Keeper.failed hkeep⟩
  simp only [State.timeMs, hlclk, hup, t]

theorem failEngine_eq (h : (s.eng e).failed = false) : failEngine s e =
    addRecord (s.modEng e fun x => { x with failed := true, slice := none, overdue := false, relock := none })
      (s.holder e) (deviceEvent 0x0008 2 e 0 0) := if_neg (bool_not_true h)

/-- What the failure of an engine leaves (R391): the engine FAILED and out of its slice, and a record in the device log. -/
theorem failEngine_facts (h : (s.eng e).failed = false) : ((failEngine s e).eng e).failed = true ∧
    ((failEngine s e).eng e).slice = none ∧ (failEngine s e).cmds = s.cmds ∧ (failEngine s e).keeper = s.keeper ∧
      (failEngine s e).devLog = (s.devLog.add 256 { deviceEvent 0x0008 2 e 0 0 with time := s.timeMs }).1 := by
  refine ⟨failEngine_failed s e, ?_⟩
  rw [failEngine_eq h]
  obtain ⟨hkeep, -, hcmds⟩ := pool_notes (notes_addRecord
    (s.modEng e fun x => { x with failed := true, slice := none, overdue := false, relock := none }) (s.holder e)
        (deviceEvent 0x0008 2 e 0 0))
  refine ⟨?_, hcmds, hkeep, addRecord_devLog ..⟩
  rw [(notes_addRecord ..).eng, State.eng_modEng]

theorem sliceComplete_eq {sl : Slice} {pass : Bool} (ha : s.alive = true) (hh : s.power.hold = false)
    (hs : (s.eng e).slice = some sl) (hk : sl.kind ≠ .bringUp) :
    sliceComplete e pass s = if 200000 ≤ sl.cycles then
      if pass then (countSlice s e (sl.kind == .forced) pass).modEng e fun x =>
        { x with slice := none, sliceTimer := s.lclk, overdue := false, idleSince := s.lclk, relock := none
                 eclk := min (s.target e) s.power.ceiling }
      else failEngine (countSlice s e (sl.kind == .forced) pass) e
    else s := by
  have hb : (sl.kind == .bringUp) = false := beq_eq_false_iff_ne.2 hk
  simp [sliceComplete, hs, ha, hh, hb]

/-! ## Calibration -/

theorem calibrationDue_iff {i ch t₀ c : Nat} (h : mget s.keeper.calib (16 * i + ch) = some (t₀, c)) :
    calibrationDue s i ch = true ↔ t₀ + msec 32 ≤ s.lclk ∨ c + 5 ≤ s.sensors.hbm i ∨ s.sensors.hbm i + 5 ≤ c := by
  simp [calibrationDue, h, or_assoc]

theorem execHbmCalibration_eq {i : Fin 4} {ch : Fin 16} {v : Bool} (hr : keeperRuns s = true) (hs : s.stack i.val = .ready) :
    exec (.hbmCalibration i ch v) s = .next (if calibrationDue s i.val ch.val = true then calibrate i.val ch.val v s else s) := by
  show Host.Outcome.next (if _ then _ else _) = _
  simp only [hr, hs, beq_self_eq_true, Bool.true_and]

theorem execCalibrationWindowTimeout_eq {i : Fin 4} {ch : Fin 16} {v : Bool} {t₁ : Nat} (hr : keeperRuns s = true)
    (hs : s.stack i.val = .ready) (hd : mget s.keeper.calibDue (16 * i.val + ch.val) = some t₁) :
    exec (.calibrationWindowTimeout i ch v) s = .next (if t₁ + msec 4 ≤ s.lclk then calibrate i.val ch.val v s else s) := by
  show Host.Outcome.next (if _ then _ else _) = _
  simp only [hr, hs, calibrationLate, hd, beq_self_eq_true, Bool.true_and, Option.any_some, decide_eq_true_eq]

/-! ## The settlement -/

/-- Settles O45: each step decides by its own conditions, and its effects are those of the slice that starts or ends. -/
theorem slicesAndCalibration : Obligations.SlicesAndCalibration := by
  unfold Obligations.SlicesAndCalibration
  refine ⟨fun e s hon hf hh hs => ⟨fun ht hops hsc hw hk hi hc => ?_, fun hc => ?_⟩, fun e s hon hf ho ht => ?_,
    fun e s hon hf ho hh hsc => ⟨fun hops => ?_, fun hops hsl => ?_⟩,
    fun e pass s sl ha hh hs hk hf => ⟨fun hc => ?_, fun hc => ?_⟩, fun i ch valid s t hr hs ht => ?_⟩
  · exact congrArg Host.Outcome.next (opportunisticSlice_eq hon hf hh hs ht (atBoundary_iff.2 ⟨hops, hsc⟩) hw hk hi hc)
  · exact congrArg Host.Outcome.next (opportunisticSlice_full hc)
  · refine congrArg Host.Outcome.next ?_
    simp [forcedSliceDue, hon, hf, ho, ht]
  · refine congrArg Host.Outcome.next ?_
    have hb : ((abandonSlice s e.val).eng e.val).atBoundary = false := by
      rw [abandonSlice_atBoundary, Bool.eq_false_iff]
      exact fun h => hops (atBoundary_iff.1 h).1
    simp only [forcedSliceStart, hb, Bool.and_false, Bool.false_eq_true, if_false]
  · obtain ⟨hnone, hbound, hlclk, hcmds, hpow⟩ := abandonSlice_ready hsl
    have heq : forcedSliceStart e.val s = startSlice (abandonSlice s e.val) e.val .forced := by
      simp [forcedSliceStart, hon, hf, ho, hh, hnone, hbound, atBoundary_iff.2 ⟨hops, hsc⟩]
    refine ⟨_, congrArg Host.Outcome.next heq, ?_⟩
    rw [startSlice_eng, hlclk]
    exact ⟨rfl, rfl, by rw [State.sliceClock, hpow], hcmds⟩
  · exact congrArg Host.Outcome.next ((sliceComplete_eq ha hh hs hk).trans (if_neg (Nat.not_le.2 hc)))
  · obtain ⟨heng, hcmds, hlog, htime, hslices, hfailed⟩ := countSlice_facts s e.val (sl.kind == .forced) pass
    refine ⟨_, congrArg Host.Outcome.next ((sliceComplete_eq ha hh hs hk).trans (if_pos hc)), ?_⟩
    cases pass with
    | true =>
      refine ⟨hcmds, ?_, hslices, fun _ => ⟨?_, ?_, hlog⟩, nofun⟩ <;> simp only [if_true, State.eng_modEng]
    | false =>
      obtain ⟨hfail, hnone, hfcmds, hkeep, hrec⟩ := failEngine_facts (congrArg Engine.failed heng |>.trans hf)
      simp only [Bool.false_eq_true, if_false]
      refine ⟨hfcmds.trans hcmds, hnone, (congrArg _ hkeep).trans hslices, nofun, fun _ => ⟨hfail,
          (congrArg _ hkeep).trans hfailed, ?_⟩⟩
      rw [hrec, hlog, htime]
  · have hcal : calibrate i.val ch.val valid s = if valid then t else t.setStack i.val .relocking := by rw [ht]; rfl
    rw [← hcal]
    refine ⟨fun hnone => ?_, fun t₀ c hlast => ⟨fun hdue => ?_, fun h1 h2 h3 => ?_⟩, fun t₁ hd => ⟨fun hlt => ?_, fun hle => ?_⟩⟩
    · have hdue : calibrationDue s i.val ch.val = true := by simp only [calibrationDue, hnone]
      rw [execHbmCalibration_eq hr hs, if_pos hdue]
    · rw [execHbmCalibration_eq hr hs, if_pos ((calibrationDue_iff hlast).2 hdue)]
    · rw [execHbmCalibration_eq hr hs, if_neg]
      rw [calibrationDue_iff hlast]
      omega
    · rw [execCalibrationWindowTimeout_eq hr hs hd, if_neg (Nat.not_le.2 hlt)]
    · rw [execCalibrationWindowTimeout_eq hr hs hd, if_pos hle]

end Sys2Proof.Machine
end

section
/-!
PROOF. Restarts of the Gatehouse: what begins one, and what its end leaves (R365 to R369, R393, R478).
-/

namespace Sys2Proof.Machine

open Sys2Proof

variable {s t : State} {c : RestartCause}

/-! ## The start of a restart -/

/-- Restarts within the last second, which R478 counts. -/
def recentRestarts (s : State) : List Nat := s.restartTimes.filter fun t => decide (s.lclk < t + msec 1000)

theorem startRestart_go (h : (recentRestarts s).length < 2) : (startRestart c s).restart = some c ∧
    (startRestart c s).restarts = min 65535 (s.restarts + 1) ∧ (startRestart c s).fatal = s.fatal ∧
        (startRestart c s).cmds = s.cmds ∧
      (startRestart c s).out = s.out ∧ (startRestart c s).latent = none ∧ (startRestart c s).fclk = s.fclk ∧
        ∀ e, (startRestart c s).eng e = (s.eng e).cancelled := by
  rw [restart_go c s h _ rfl]
  exact ⟨rfl, rfl, rfl, rfl, rfl, rfl, rfl, fun e => cancelled_eng s e⟩

theorem startRestart_third (hf : s.fatal = false) (h : 2 ≤ (recentRestarts s).length) :
    (startRestart c s).fatal = true ∧ (startRestart c s).cmds = [] := by
  have h3 : 3 ≤ (recentRestarts s ++ [s.lclk]).length := by
    rw [List.length_append, List.length_singleton]; omega
  have hgo : startRestart c s = enterFatal 0x14 { s with
      restart := some c, restarts := sat16 (s.restarts + 1), restartTimes := recentRestarts s ++ [s.lclk], latent := none,
      engines := s.engines.map fun e => (e.1, e.2.cancelled) } := if_pos h3
  rw [hgo]
  obtain ⟨hfatal, hcmds, -⟩ := enterFatal_facts 0x14 { s with
      restart := some c, restarts := sat16 (s.restarts + 1), restartTimes := recentRestarts s ++ [s.lclk], latent := none,
      engines := s.engines.map fun e => (e.1, e.2.cancelled) } hf
  exact ⟨hfatal, hcmds⟩

/-- A record leaves what a restart reads and sets. -/
theorem addRecord_restarts (s : State) (p : Option Nat) (r : Rec) : (addRecord s p r).cmds = s.cmds ∧
    (addRecord s p r).restart = s.restart ∧ (addRecord s p r).latent = s.latent ∧ (addRecord s p r).lclk = s.lclk ∧
      recentRestarts (addRecord s p r) = recentRestarts s := by
  obtain ⟨⟨_, _, _, _, _, _, _, _, _, hrest⟩, -, -, -⟩ := notes_addRecord s p r
  rw [hrest]
  exact ⟨rfl, rfl, rfl, rfl, rfl⟩

theorem latentFound_idle {p : Nat} (hc : s.cmds = []) :
    latentFound p s = startRestart .latent (addRecord s none (deviceEvent 0x000A 2 0x14 p 0)) := by
  refine if_pos ?_
  rw [(addRecord_restarts ..).1, hc]; rfl

theorem latentFound_busy {p : Nat} (hc : s.cmds ≠ []) (hl : s.latent = none) :
    latentFound p s = { addRecord s none (deviceEvent 0x000A 2 0x14 p 0) with latent := some s.lclk } := by
  obtain ⟨hcmds, -, hlatent, hlclk, -⟩ := addRecord_restarts s none (deviceEvent 0x000A 2 0x14 p 0)
  have hne : ¬(addRecord s none (deviceEvent 0x000A 2 0x14 p 0)).cmds.isEmpty = true := by
    rw [hcmds, List.isEmpty_iff]; exact hc
  refine (if_neg hne).trans (congrArg (fun n => { addRecord s none (deviceEvent 0x000A 2 0x14 p 0) with latent := n }) ?_)
  rw [hlatent, hl, hlclk]; rfl

/-- A segment of the compare ends and the next begins (R393). -/
def nextSegment (p : Nat) (s : State) : State :=
  s.setPair p { s.pair p with compared := (s.pair p).compared + 1, segment := some (s.lclk, s.accNo) }

theorem segmentDone_eq {i t₀ a : Nat} (h : (s.pair i).segment = some (t₀, a)) : segmentDone s i =
    (decide (t₀ + usec 1 ≤ s.lclk) && ((List.range (s.accNo - a)).all fun k => Config.pairOf (a + k) % 4 != i)) := by
  rw [segmentDone, h]

/-! ## The end of a restart -/

theorem anyPair_iff : anyPair s = true ↔ ∃ i : Fin 4, (s.pair i.val).active = true := by
  simp only [anyPair, List.any_eq_true, List.mem_range]
  exact ⟨fun ⟨i, hi, h⟩ => ⟨⟨i, hi⟩, h⟩, fun ⟨i, h⟩ => ⟨i.val, i.isLt, h⟩⟩

theorem hurt_restartOne (s t : State) (c : Cmd) : Hurt t (restartOne s t c) := by
  unfold restartOne
  dsimp only
  split
  · exact (hurt_spoil ..).trans (ends_finish ..).hurt
  · exact (ends_finish ..).hurt

theorem rst_restartHalt (s t : State) (c : Cmd) : Rst t (restartHalt s t c) := by
  unfold restartHalt
  dsimp only
  split
  · exact ⟨State.modQueue_cmds .., (ends_modQueue ..).hurt.pairs⟩
  · exact ⟨rfl, rfl, rfl, rfl⟩

theorem rst_drainAll (s : State) : Rst s (drainAll s) := by
  have hfns : Rst s (resumeFns s) := rst_fold _ _ _ fun a b => rst_resumeFn a (fidOf b.1)
  exact hfns.trans (sends_drain ..).rst

/-- The commands end, the restart is over, and the pairs are those that the self-test left (R365, R366). -/
theorem finishRestart_done {failed : List (Fin 4)} (h : anyPair (retirePairs s failed) = true) :
    (finishRestart c failed s).restart = none ∧ (finishRestart c failed s).cmds = [] ∧ (finishRestart c failed s).fatal = s.fatal ∧
      (finishRestart c failed s).pairs = (retirePairs s failed).pairs := by
  unfold finishRestart
  extract_lets t u v w x
  have ht : t.fatal = s.fatal := by obtain ⟨p, hp⟩ := retirePairs_rest failed s; rw [show t = _ from hp]
  have hu : Hurt t u := hurt_fold _ _ _ fun a b => hurt_restartOne t a b
  have hucmds : u.cmds = [] := restart_fold t t.cmds t fun _ h => h
  have hv : Rst u v := rst_fold _ _ _ fun a b => rst_restartHalt t a b
  have hwx : Rst w x := by
    refine rst_fold _ _ _ fun a b => ?_
    split
    · exact (sends_drain ..).rst.trans (sends_touchShadow ..).rst
    · exact (sends_drain ..).rst
  have hres : Rst x (reloadFirmware (addRecord (drainAll x) none (deviceEvent 0x0009 2 0x14 (restartLoc c failed) 0))) :=
    ((rst_drainAll x).trans (notes_addRecord ..).rst).trans (rst_reload _)
  obtain ⟨hcmds, hpairs, hrestart, hfatal⟩ := hwx.trans hres
  obtain ⟨hvcmds, hvpairs, -, hvfatal⟩ := hv
  obtain ⟨hupairs, -, hufatal⟩ := hu.pairs
  rw [if_neg (by rw [show anyPair t = true from h]; decide)]
  exact ⟨hrestart, hcmds.trans (hvcmds.trans hucmds), hfatal.trans (hvfatal.trans (hufatal.trans ht)),
    hpairs.trans (hvpairs.trans hupairs)⟩

theorem finishRestart_fatal {failed : List (Fin 4)} (hf : s.fatal = false) (h : anyPair (retirePairs s failed) = false) :
    (finishRestart c failed s).fatal = true := by
  have hgo : finishRestart c failed s = enterFatal 0x14 (retirePairs s failed) := by
    unfold finishRestart
    dsimp only
    exact if_pos (by rw [h]; rfl)
  rw [hgo]
  obtain ⟨p, hp⟩ := retirePairs_rest failed s
  exact (enterFatal_facts _ _ (by rw [hp]; exact hf)).1

/-! ## The settlement -/

theorem execGatehouseRestartDone_eq {failed : List (Fin 4)} (hc : s.restart = some c) (ha : s.alive = true)
    (hk : s.fclk = .running) (hh : s.hbmUp = true) :
    exec (.gatehouseRestartDone failed) s = .next (finishRestart c failed s) := by
  show Host.Outcome.next (match s.restart with | some _ => _ | none => _) = _
  rw [hc]
  simp [ha, hk, hh]

theorem execLatentRestartTimeout_eq {n : Nat} (hn : s.latent = some n) (ha : s.alive = true) (hr : s.restart = none) :
    exec .latentRestartTimeout s = .next (if n + msec 1 ≤ s.lclk then startRestart .latent s else s) := by
  show Host.Outcome.next (match s.latent with | some _ => _ | none => _) = _
  rw [hn]
  simp [ha, hr]

/-- Settles O46: a restart is startRestart's record of its cause, and its end ends every command, whatever its queue. -/
theorem gatehouseRestarts : Obligations.GatehouseRestarts := by
  unfold Obligations.GatehouseRestarts
  refine ⟨fun p s ha hk hp hr => ?_, fun p s ha hk hb hr hp hh hc hs t₀ a hseg => ?_, fun s n hn ha hr => ⟨fun hlt => ?_,
      fun hle h2 => ?_⟩,
    fun failed s c hc ha hk hh => ?_, fun s ha hk h2 => ?_⟩
  · have hgo : exec (.ghLockstep p) s = .next (startRestart (.lockstep p.val) s) := by
      refine congrArg Host.Outcome.next ?_
      simp [ghLockstep, ha, hk, hp, hr]
    refine ⟨fun h2 => ?_, fun h2 => ?_⟩
    · obtain ⟨hrestart, hcount, hfatal, hcmds, hout, -, -, heng⟩ := startRestart_go (c := .lockstep p.val) h2
      refine ⟨_, hgo, hrestart, hcount, hfatal.trans (alive_fatal ha), hcmds, hout, fun e => ?_⟩
      rw [heng]
      exact ⟨rfl, rfl⟩
    · exact ⟨_, hgo, startRestart_third (alive_fatal ha) h2⟩
  · have hcomp : comparing s p.val = true := by simp [comparing, ha, hk, hb, hr, hp, hh, hc, hs]
    have hgo (b : Bool) : fullStateCompare p.val b s = if pairIdle s p.val && segmentDone s p.val then
        if b then latentFound p.val (nextSegment p.val s) else nextSegment p.val s
      else s := by simp only [fullStateCompare, hcomp, Bool.true_and, nextSegment]
    refine ⟨fun hwait b => congrArg Host.Outcome.next ((hgo b).trans (if_neg ?_)), fun hle hidle hacc => ?_⟩
    · rw [segmentDone_eq hseg]
      rcases hwait with h | h
      · simp [Nat.not_le.2 h]
      · simp [h]
    · have hcond : (pairIdle s p.val && segmentDone s p.val) = true := by
        rw [segmentDone_eq hseg, hidle, hacc, Nat.sub_self]; simpa using hle
      have hyes (b : Bool) := (hgo b).trans (if_pos hcond)
      refine ⟨congrArg Host.Outcome.next (hyes false), fun hcmds h2 => ?_, fun hcmds hlat => ?_⟩
      · refine ⟨_, congrArg Host.Outcome.next (hyes true), ?_⟩
        rw [if_pos rfl, latentFound_idle (s := nextSegment p.val s) hcmds]
        refine (startRestart_go ?_).1
        rw [(addRecord_restarts ..).2.2.2.2]
        exact h2
      · refine ⟨_, congrArg Host.Outcome.next (hyes true), ?_⟩
        rw [if_pos rfl, latentFound_busy (s := nextSegment p.val s) hcmds hlat]
        obtain ⟨hrc, hrr, -, -, -⟩ := addRecord_restarts (nextSegment p.val s) none (deviceEvent 0x000A 2 0x14 p.val 0)
        exact ⟨hrr.trans hr, rfl, hrc, addRecord_devLog ..⟩
  · rw [execLatentRestartTimeout_eq hn ha hr, if_neg (Nat.not_le.2 hlt)]
  · obtain ⟨hrestart, -, -, hcmds, -, hlatent, -⟩ := startRestart_go (c := .latent) h2
    exact ⟨_, (execLatentRestartTimeout_eq hn ha hr).trans (by rw [if_pos hle]), hrestart, hlatent, hcmds⟩
  · refine ⟨fun ⟨i, hi, hin⟩ => ?_, fun hall => ?_⟩
    · have hany : anyPair (retirePairs s failed) = true := anyPair_iff.2 ⟨i, by rw [retirePairs_pair, if_neg hin]; exact hi⟩
      obtain ⟨hrestart, hcmds, hfatal, hpairs⟩ := finishRestart_done (c := c) hany
      refine ⟨_, execGatehouseRestartDone_eq hc ha hk hh, hrestart, hcmds, hfatal.trans (alive_fatal ha), fun j hj => ?_⟩
      have hp := retirePairs_pair failed s j
      rw [if_pos hj] at hp
      unfold State.pair at hp ⊢
      rw [hpairs, hp]
      exact ⟨rfl, rfl⟩
    · refine ⟨_, execGatehouseRestartDone_eq hc ha hk hh, finishRestart_fatal (alive_fatal ha) (Bool.eq_false_iff.2 fun h => ?_)⟩
      obtain ⟨i, hi⟩ := anyPair_iff.1 h
      rw [retirePairs_pair] at hi
      split at hi
      · exact nomatch hi
      · next hn => exact hn (hall i hi)
  · have hgo : exec .fclkRelockDone s = .next (startRestart .fclk { s with fclk := .running }) := by
      refine congrArg Host.Outcome.next ?_
      simp [ha, hk]
    obtain ⟨hrestart, -, -, hcmds, -, -, hfclk, -⟩ := startRestart_go (c := .fclk) (s := { s with fclk := .running }) h2
    exact ⟨_, hgo, hfclk, hrestart, hcmds⟩

end Sys2Proof.Machine
end

section
/-!
PROOF. Faults: what a failed check, a lost route, a clock error and a rail error end, and when the device becomes fatal
(R356 to R364, R370, R371, R376, R493).
-/

namespace Sys2Proof.Machine

open Sys2Proof

variable {s t : State} {e : Nat} {d : Cmd} {c : Option CmdRef} {r : CmdRef}

/-! ## What a fault leaves -/

theorem faultCmd_ended (s : State) (d : Cmd) (st : Status) : EndedWith (faultCmd s d st) d (Reply.bare st) := by
  unfold faultCmd failCmd
  exact endCmd_ended ..

theorem Hurt.slice (h : Hurt s t) (i : Nat) : (t.eng i).slice = (s.eng i).slice := by
  show (Engine.steady (t.eng i)).slice = (Engine.steady (s.eng i)).slice
  rw [h.eng i]

theorem Hurt.note (h : Hurt s t) (i : Nat) : (t.eng i).note = (s.eng i).note := by
  show (Engine.steady (t.eng i)).note = (Engine.steady (s.eng i)).note
  rw [h.eng i]

theorem startDiagnostic_cmds (s : State) (e : Nat) : (startDiagnostic s e).cmds = s.cmds := by
  unfold startDiagnostic
  split
  · rfl
  · rfl

/-- The command that a fault hits is the one named, where the predicate holds of it. -/
theorem hit_some {p : Cmd → Bool} (hc : c = some r) (hd : s.cmd r = some d) (hp : p d = true) :
    (c.bind s.cmd).filter p = some d := by
  rw [hc, Option.bind_some, hd, Option.filter_some, hp]
  rfl

theorem addRecord_fault (s : State) (p : Option Nat) (x : Rec) : (addRecord s p x).fatal = s.fatal ∧
    (addRecord s p x).cmds = s.cmds ∧
    (addRecord s p x).backup = s.backup ∧ (addRecord s p x).fclk = s.fclk ∧ (addRecord s p x).hbm = s.hbm ∧
      (addRecord s p x).routesLost = s.routesLost := by
  obtain ⟨⟨_, _, _, _, _, _, _, _, _, hrest⟩, -, -, -⟩ := notes_addRecord s p x
  rw [hrest]
  exact ⟨rfl, rfl, rfl, rfl, rfl, rfl⟩

theorem railRecord_fatal (h : s.fatal = false) : (railRecord s).fatal = false := (addRecord_fault ..).1.trans h

theorem enterFatal_stops (n : Nat) (h : s.fatal = false) : (enterFatal n s).fatal = true ∧ (enterFatal n s).cmds = [] :=
  ⟨(enterFatal_facts n s h).1, (enterFatal_facts n s h).2.1⟩

/-! ## Checks of the engines -/

/-- The record of a failed check and the end of the affected command, before the diagnostic slice (R360). -/
def faultEnds (type e : Nat) (n : CheckNote) (row col : BitVec 8) (hit : Option Cmd) (u : State) : State :=
  match hit with
  | some d => faultCmd (addRecord u d.plot (cmdEvent type 0 e (unitLoc n.unit row col) 0 d)) d .datapathFault
  | none => addRecord u (u.holder e) (deviceEvent type 0 e (unitLoc n.unit row col) 0)

theorem hurt_faultEnds (type e : Nat) (n : CheckNote) (row col : BitVec 8) (hit : Option Cmd) (u : State) :
    Hurt u (faultEnds type e n row col hit u) := by
  cases hit with
  | none => exact (notes_addRecord ..).hurt
  | some d => exact (notes_addRecord ..).hurt.trans (hurt_faultCmd ..)

theorem engineFault_eq {type : Nat} {n : CheckNote} {row col : BitVec 8} (h : checksRun s e = true) :
    engineFault type e n row col c s = startDiagnostic (faultEnds type e n row col ((c.bind s.cmd).filter (onHolder s e))
      (s.modEng e fun x => x.checked n ((c.bind s.cmd).filter (onHolder s e)).isSome)) e := by
  unfold engineFault
  rw [if_neg (by rw [h]; decide)]
  rfl

theorem engineFault_facts {type : Nat} {n : CheckNote} {row col : BitVec 8} (h : checksRun s e = true) :
    ((engineFault type e n row col c s).eng e).slice = some ⟨.diagnostic, s.lclk, 0⟩ ∧
      ((engineFault type e n row col c s).eng e).note = some n ∧
        ∀ r d, c = some r → s.cmd r = some d → onHolder s e d = true → ∀ x ∈ (engineFault type e n row col c s).cmds,
            x.acc ≠ d.acc := by
  have hnf : (s.eng e).failed = false := by
    simp only [checksRun, Bool.and_eq_true, Bool.not_eq_true'] at h
    exact h.1.2
  rw [engineFault_eq h]
  have hurt := hurt_faultEnds type e n row col ((c.bind s.cmd).filter (onHolder s e))
    (s.modEng e fun x => x.checked n ((c.bind s.cmd).filter (onHolder s e)).isSome)
  refine ⟨diag_slice hurt e ?_, ?_, fun r d hc hd ho => ?_⟩
  · rw [State.eng_modEng]; exact hnf
  · rw [diag_note, hurt.note, State.eng_modEng]; rfl
  · rw [startDiagnostic_cmds, hit_some hc hd ho]
    exact (faultCmd_ended ..).1

theorem moverFault_slice (type : Nat) (c : Option CmdRef) (s : State) (i : Nat) :
    ((moverFault type c s).eng i).slice = (s.eng i).slice := by
  unfold moverFault
  split
  · rfl
  · split
    · exact ((notes_addRecord ..).hurt.trans (hurt_faultCmd ..)).slice i
    · exact (notes_addRecord ..).hurt.slice i

/-- A fault of the Mover ends the command that needed the move (R360). -/
theorem moverFault_ends {type : Nat} (hg : s.gatehouseUp = true) (hh : s.hbmUp = true) (hm : s.secure.moverHalted = false)
    (hc : c = some r) (hd : s.cmd r = some d) (ho : d.isOpen = false) (hp : d.plot ≠ none) :
    ∀ x ∈ (moverFault type c s).cmds, x.acc ≠ d.acc := by
  have hhit : (c.bind s.cmd).filter (fun d => !d.isOpen && d.plot.isSome) = some d :=
    hit_some hc hd (by rw [ho, Option.isSome_iff_ne_none.2 hp]; rfl)
  unfold moverFault
  rw [if_neg (by rw [hg, hh, hm]; decide), hhit]
  exact (faultCmd_ended ..).1

theorem wordError_corrected (unit loc : Nat) (p : Option Nat) (hit : Option Cmd) (s : State) :
    (wordError unit loc true p hit s).cmds = s.cmds ∧ ∀ i, (wordError unit loc true p hit s).eng i = s.eng i := by
  refine ⟨?_, fun i => ?_⟩
  · exact (notes_countCorrected s p false 0).cmds
  · exact (notes_countCorrected s p false 0).eng i

/-! ## Clocks and rails -/

theorem engineHit_restored (type : Nat) (hf : (s.eng e).failed = false) :
    ((engineHit type e true s).eng e).slice = some ⟨.diagnostic, s.lclk, 0⟩ := diag_slice (hurt_users ..) e hf

theorem engineError_facts (type unit : Nat) (hf : (s.eng e).failed = false) :
    ((engineError type unit e false s).eng e).failed = true ∧
      ((engineError type unit e true s).eng e).slice = some ⟨.diagnostic, s.lclk, 0⟩ := by
  have hrec := notes_addRecord s (s.holder e) (deviceEvent type 2 unit 0 0)
  refine ⟨failEngine_failed .., ?_⟩
  unfold engineError
  rw [engineHit_restored type (by rw [hrec.eng]; exact hf), hrec.hurt.lclk]

theorem clockError_alive (ha : s.alive = true) (k : ClockId) : exec (.clock k) s = .next (match k with
    | .eclk e restored => if (s.eng e.val).failed || !((s.eng e.val).power == .running) then s else engineError 0x000C 0x18 e.val restored s
    | .fclk => if s.fclk == .running then addRecord { snapshot s with fclk := .relocking } none
        (deviceEvent 0x000C 2 0x18 0 0) else s
    | .hbm i => if s.stack i.val == .ready then addRecord (s.setStack i.val .relocking) none (deviceEvent 0x000C 2 0x18 0 0) else s
    | .phy p => linkDown (addRecord s none (deviceEvent 0x000C 2 0x18 0 0)) p
    | .lclk => enterFatal 0x18 (addRecord { s with backup := true } none (deviceEvent 0x000C 2 0x18 0 0))) := by
  refine congrArg Host.Outcome.next ((if_neg (by rw [ha]; decide)).trans ?_)
  cases k <;> rfl

theorem railError_alive (ha : s.alive = true) (k : RailId) : exec (.rail k) s = .next (match k with
    | .engine e restored => if (s.eng e.val).failed then s else engineError 0x000D 0x19 e.val restored s
    | .sram restored => (List.range 6).foldl (fun t e => if (t.eng e).failed then t else engineHit 0x000D e restored t)
        (railRecord s)
    | .pcie => [0, 1, 2, 3].foldl linkDown (railRecord s)
    | .vaon =>
      let t := enterFatal 0x19 (railRecord s)
      { t with ports := t.ports.map fun p => (p.1, { p.2 with link := .down }) }
    | _ => enterFatal 0x19 (railRecord s)) := by
  refine congrArg Host.Outcome.next ((if_neg (by rw [ha]; decide)).trans ?_)
  cases k <;> rfl

/-! ## The settlement -/

theorem datapathFault_lodgeCopy {u : EUnit} {row col : BitVec 8} {v : CheckedValue} {pass q : Nat} {b : Bool}
    (ha : s.alive = true) :
    datapathFault e u (.lodgeCopy q b) row col v pass c s = if s.keeper.lodgeBad.contains (q, !b) then enterFatal 0x15 s
      else { s with keeper := { s.keeper with lodgeBad := (q, b) :: s.keeper.lodgeBad } } :=
  if_neg (by rw [ha]; decide)

theorem routeLost_eq {a b : Nat} (ha : s.alive = true) (hk : s.fclk = .running) : routeLost a b s =
    if s.routesLost.contains (min a b, max a b) then enterFatal 0x13 { s with fabRetry := s.fabRetry + 16 }
    else addRecord { s with fabRetry := s.fabRetry + 16, routesLost := s.routesLost ++ [(min a b, max a b)] } none
      (deviceEvent 0x000B 2 0x13 0 0) :=
  if_neg (by rw [ha, hk]; decide)

/-- Settles O47: each fault is a record, the end of the commands that it affects, and a diagnostic slice, a failed engine or the
fatal state. -/
theorem faultsStayContained : Obligations.FaultsStayContained := by
  unfold Obligations.FaultsStayContained
  refine ⟨fun e u k row col v pass c s ha => ⟨fun hk hrun => ?_, fun hk hg hh hm => ?_, fun hk => ?_,
      fun hk hrun r d hc hd ho => ?_,
      fun hk hg r d hc hd ho => ?_, fun hk => ?_, fun q b hk => ⟨fun hn => ?_, fun hin => ?_⟩⟩,
    fun a b r s ha hk hr => ⟨fun hn => ?_, fun hin => ?_⟩, fun e s ha hp hf => ?_, fun s ha hk => ?_,
      fun i s ha => ⟨fun hs => ?_, fun hs => ?_⟩,
    fun s ha => ⟨?_, fun r hr => ?_, ?_⟩, fun e s ha hf => ?_⟩
  · obtain ⟨type, heq⟩ : ∃ type, exec (.datapathFault e u k ⟨row, col, pass⟩ v c) s =
        .next (engineFault type e.val ⟨u, row.toNat, col.toNat, v, pass⟩ row col c s) := by
      rcases hk with rfl | rfl
      · exact ⟨_, rfl⟩
      · exact ⟨_, rfl⟩
    exact ⟨_, heq, engineFault_facts hrun⟩
  · rcases hk with rfl | rfl
    · exact ⟨_, rfl, moverFault_slice 0x0005 c s, fun r d hc hd ho hp => moverFault_ends hg hh hm hc hd ho hp⟩
    · have heq : exec (.datapathFault e u .moverBlock ⟨row, col, pass⟩ v c) s =
          .next (moverFault 0x0007 c { s with moverRetry := s.moverRetry + 3 }) := by
        refine congrArg (fun t => Host.Outcome.next (moverFault 0x0007 c t)) (if_pos ?_)
        rw [hg, hh, hm]; rfl
      exact ⟨_, heq, moverFault_slice 0x0007 c { s with moverRetry := s.moverRetry + 3 },
        fun r d hc hd ho hp => moverFault_ends (s := { s with moverRetry := s.moverRetry + 3 }) hg hh hm hc hd ho hp⟩
  · rcases hk with ⟨rfl, hrun⟩ | ⟨rfl, hg⟩
    · exact ⟨_, congrArg Host.Outcome.next (if_pos hrun), wordError_corrected ..⟩
    · exact ⟨_, congrArg Host.Outcome.next (if_pos hg), wordError_corrected ..⟩
  · subst hk
    refine ⟨_, congrArg Host.Outcome.next (if_pos hrun), ?_⟩
    rw [hit_some hc hd ho]
    exact faultCmd_ended ..
  · subst hk
    refine ⟨_, congrArg Host.Outcome.next (if_pos hg), ?_⟩
    rw [hit_some hc hd (by rw [ho]; rfl)]
    exact faultCmd_ended ..
  · subst hk
    exact ⟨_, congrArg Host.Outcome.next (if_pos ha), enterFatal_stops _ (alive_fatal ha)⟩
  · subst hk
    exact congrArg Host.Outcome.next ((datapathFault_lodgeCopy ha).trans (if_neg (by rw [List.contains_iff_mem]; exact hn)))
  · subst hk
    exact ⟨_, congrArg Host.Outcome.next ((datapathFault_lodgeCopy ha).trans (if_pos (List.contains_iff_mem.2 hin))),
      enterFatal_stops _ (alive_fatal ha)⟩
  · subst hr
    refine ⟨_, congrArg Host.Outcome.next ((routeLost_eq ha hk).trans (if_neg (by rw [List.contains_iff_mem]; exact hn))), ?_⟩
    exact ⟨(addRecord_fault ..).2.2.2.2.2, (addRecord_fault ..).2.1, addRecord_devLog ..⟩
  · subst hr
    exact ⟨_, congrArg Host.Outcome.next ((routeLost_eq ha hk).trans (if_pos (List.contains_iff_mem.2 hin))),
      enterFatal_stops (s := { s with fabRetry := s.fabRetry + 16 }) _ (alive_fatal ha)⟩
  · obtain ⟨hfail, hdiag⟩ := engineError_facts 0x000C 0x18 hf
    have hcond : ¬((s.eng e.val).failed || !((s.eng e.val).power == .running)) = true := by rw [hf, hp]; decide
    exact ⟨⟨_, (clockError_alive ha _).trans (congrArg _ (if_neg hcond)), hfail⟩,
      ⟨_, (clockError_alive ha _).trans (congrArg _ (if_neg hcond)), hdiag⟩⟩
  · refine ⟨_, (clockError_alive ha _).trans (congrArg _ (if_pos (beq_iff_eq.2 hk))), ?_⟩
    obtain ⟨-, hcmds, -, hfclk, -, -⟩ := addRecord_fault { snapshot s with fclk := .relocking } none (deviceEvent 0x000C 2 0x18 0 0)
    exact ⟨hfclk, hcmds, addRecord_devLog ..⟩
  · refine ⟨_, (clockError_alive ha _).trans (congrArg _ (if_pos (beq_iff_eq.2 hs))), ?_⟩
    obtain ⟨-, hcmds, -, -, hhbm, -⟩ := addRecord_fault (s.setStack i.val .relocking) none (deviceEvent 0x000C 2 0x18 0 0)
    refine ⟨?_, hcmds⟩
    have hst : (s.setStack i.val .relocking).stack i.val = .relocking := by
      simp only [State.stack, State.setStack, mget_mput, if_true, Option.getD_some]
    unfold State.stack at hst ⊢
    rw [hhbm]; exact hst
  · have hcond : (s.alive && s.stack i.val == .relocking) = true := by rw [ha, hs]; rfl
    exact ⟨congrArg Host.Outcome.next (if_pos hcond), _, congrArg Host.Outcome.next (if_pos hcond),
        enterFatal_stops _ (alive_fatal ha)⟩
  · have hrec : (addRecord { s with backup := true } none (deviceEvent 0x000C 2 0x18 0 0)).fatal = false :=
      (addRecord_fault ..).1.trans (alive_fatal ha)
    obtain ⟨hfatal, hcmds, hback⟩ := enterFatal_facts 0x18 _ hrec
    exact ⟨_, clockError_alive ha .lclk, hfatal, hback.trans (addRecord_fault ..).2.2.1, hcmds⟩
  · have hstop := enterFatal_stops 0x19 (railRecord_fatal (alive_fatal ha))
    rcases hr with rfl | rfl | rfl | rfl
    · exact ⟨_, railError_alive ha _, hstop⟩
    · exact ⟨_, railError_alive ha _, hstop⟩
    · exact ⟨_, railError_alive ha _, hstop⟩
    · exact ⟨_, railError_alive ha _, hstop⟩
  · exact ⟨_, congrArg Host.Outcome.next (if_pos (alive_lodge ha)), enterFatal_stops _ (alive_fatal ha)⟩
  · refine ⟨⟨_, (railError_alive ha _).trans (congrArg _ (if_neg (bool_not_true hf))), (engineError_facts 0x000D 0x19 hf).1⟩,
      _, railError_alive ha _, ?_⟩
    exact hits_failed _ _ _ _ (.inl (List.mem_range.2 e.isLt))

end Sys2Proof.Machine
end

section
/-!
PROOF. Power states and limits: gating, wakes, P2, the control periods, thermal protection and telemetry (R400, R404 to R418,
R471, R472, R494).
-/

namespace Sys2Proof.Machine

open Sys2Proof

variable {s t : State} {e : Nat}

/-! ## Gating and wakes -/

theorem mayGate_early (h : s.lclk < (s.eng e).idleSince + usec s.power.gateDelay) : mayGate s e = false := by
  simp only [mayGate, Nat.not_le.2 h, decide_false, Bool.and_false]

theorem engineWakeDone_eq {n : Nat} (ha : s.alive = true) (hw : (s.eng e).power = .waking n) : engineWakeDone e s =
    if s.power.hold then s else s.setEng e { s.eng e with
      power := .running, relock := none, eclk := s.effective e, idleSince := s.lclk } := by
  cases hh : s.power.hold <;> simp [engineWakeDone, hw, ha, hh, State.modEng]

theorem eclkRelockDone_eq {v : Nat} (ha : s.alive = true) (hv : (s.eng e).relock = some v) :
    eclkRelockDone e s = s.setEng e { s.eng e with eclk := v, relock := none } := by
  simp [eclkRelockDone, hv, ha, State.modEng]

/-! ## P2 -/

theorem endInvasive_facts (s : State) : (endInvasive s).secure.level ≠ .invasive ∧ (endInvasive s).plots = s.plots := by
  unfold endInvasive
  split
  · exact ⟨nofun, rfl⟩
  · next h => exact ⟨fun hl => h (beq_iff_eq.2 hl), rfl⟩

theorem abandonAll_pool (l : List Nat) (s : State) : (l.foldl abandonSlice s).plots.length = s.plots.length ∧
    (l.foldl abandonSlice s).secure = s.secure := by
  induction l generalizing s with
  | nil => exact ⟨rfl, rfl⟩
  | cons e l ih =>
    obtain ⟨hplots, hsecure⟩ := ih (abandonSlice s e)
    obtain ⟨hplots', hsecure'⟩ := abandon_pool s e
    exact ⟨hplots.trans hplots', hsecure.trans hsecure'⟩

/-- What P2 entry leaves (R409): the level is no longer INVASIVE, every stack refreshes itself, and the plots stand. -/
theorem enterP2_facts (s : State) : (enterP2 s).p2 = .inP2 ∧ (enterP2 s).fclk = .stopped ∧ (enterP2 s).pins.fabRet = true ∧
    (∀ h ∈ (enterP2 s).hbm, h.2 = .selfRefresh) ∧ (enterP2 s).secure.level ≠ .invasive ∧
      (enterP2 s).plots.length = s.plots.length := by
  obtain ⟨hlevel, hplots⟩ := endInvasive_facts s
  obtain ⟨hlen, hsecure⟩ := abandonAll_pool (List.range 6) (endInvasive s)
  refine ⟨rfl, rfl, rfl, fun h hh => ?_, ?_, ?_⟩
  · obtain ⟨q, -, rfl⟩ := List.mem_map.1 hh
    rfl
  · show ((List.range 6).foldl abandonSlice (endInvasive s)).secure.level ≠ _
    rw [hsecure]
    exact hlevel
  · show (((List.range 6).foldl abandonSlice (endInvasive s)).plots.map _).length = _
    rw [List.length_map, hlen, hplots]

theorem p2Due_ready (h : p2Ready s = false) : p2Due s = false := by
  simp only [p2Due, h, Bool.false_and]

/-- FCLK runs again: the clock and the Keeper's sweeps start, and every stack leaves self-refresh (R386, R411). -/
def clockStarted (s : State) : State := resumeKeeper { s with fclk := .running, hbm := s.hbm.map fun h => (h.1, Hbm.exiting) }

theorem fclkStart_eq {n : Nat} (ha : s.alive = true) (hp : s.p2 = .waking n) (hk : s.fclk = .stopped) :
    fclkStart s = if n + usec 10 ≤ s.lclk then resumeFns (reloadFirmware (clockStarted s)) else s := by
  unfold fclkStart clockStarted
  rw [hp]
  simp [ha, hk]

theorem wak_reload (s : State) : Wak s (reloadFirmware s) := by
  unfold reloadFirmware
  split
  · dsimp only
    split
    · exact ⟨rfl, rfl, rfl, rfl⟩
    · exact ⟨rfl, rfl, rfl, rfl⟩
  · exact ⟨rfl, rfl, rfl, rfl⟩

theorem wak_started (s : State) : Wak (clockStarted s) (resumeFns (reloadFirmware (clockStarted s))) :=
  (wak_reload _).trans (wak_fold _ _ _ fun t f => wak_resumeFn t (fidOf f.1))

/-- What the end of the wake leaves (R411), before the requests that waited run. -/
def wokenState (s : State) : State :=
  { s with
    p2 := .awake, p2Cond := none, hbm := s.hbm.map fun h => (h.1, if h.2 == .exiting then Hbm.ready else h.2)
    engines := s.engines.map fun e => (e.1, { e.2 with idleSince := s.lclk }) }

theorem hbmReady_eq {n : Nat} (ha : s.alive = true) (hp : s.p2 = .waking n)
    (hk : s.fclk = .running) : hbmReady s = wokenState s := by
  unfold hbmReady wokenState
  rw [hp]
  simp [ha, hk]

theorem wokenState_hbm (s : State) : ∀ h ∈ (wokenState s).hbm, h.2 ≠ .exiting := by
  intro h hh
  obtain ⟨q, -, rfl⟩ := List.mem_map.1 hh
  dsimp only
  split
  · nofun
  · next hne => exact fun heq => hne (beq_iff_eq.2 heq)

/-- Settles O48: the wakes and relocks set one engine, and P2's entry and exit set the clock, the stacks and the level. -/
theorem powerStates : Obligations.PowerStates := by
  unfold Obligations.PowerStates
  refine ⟨fun e s => ⟨fun hg => ?_, fun hlt => ?_⟩, fun e s n ha hw => ⟨fun hh => ?_, fun hh => ?_⟩, fun e s v ha hv => ?_,
    fun s => ⟨fun hd => ?_, fun hr => ?_⟩, fun s n ha hp hk => ⟨fun hlt => ?_, fun hle => ?_⟩, fun s n ha hp hk => ?_⟩
  · refine ⟨_, congrArg Host.Outcome.next (if_pos hg), ?_⟩
    rw [State.eng_modEng]
    exact ⟨rfl, rfl, rfl, rfl, rfl, rfl, fun j hj => eng_other _ _ _ _ hj⟩
  · exact congrArg Host.Outcome.next (if_neg (bool_not_true (mayGate_early hlt)))
  · exact congrArg Host.Outcome.next ((engineWakeDone_eq ha hw).trans (if_pos hh))
  · exact congrArg Host.Outcome.next ((engineWakeDone_eq ha hw).trans (if_neg (bool_not_true hh)))
  · exact congrArg Host.Outcome.next (eclkRelockDone_eq ha hv)
  · exact ⟨_, congrArg Host.Outcome.next (if_pos hd), enterP2_facts s⟩
  · exact congrArg Host.Outcome.next (if_neg (bool_not_true (p2Due_ready hr)))
  · exact congrArg Host.Outcome.next ((fclkStart_eq ha hp hk).trans (if_neg (Nat.not_le.2 hlt)))
  · obtain ⟨hfclk, hkeep, hcmds, hhbm⟩ := wak_started s
    refine ⟨_, congrArg Host.Outcome.next ((fclkStart_eq ha hp hk).trans (if_pos hle)), hfclk, ?_, ?_, ?_, hcmds, ?_⟩
    · rw [hkeep]; rfl
    · rw [hkeep]; rfl
    · rw [hkeep]; rfl
    · rw [hhbm]
      intro h hh
      obtain ⟨q, -, rfl⟩ := List.mem_map.1 hh
      rfl
  · refine ⟨{ wokenState s with secure := { s.secure with deferred := [] } }, ?_, rfl, rfl, rfl, wokenState_hbm s, fun e he => ?_⟩
    · refine congrArg Host.Outcome.next ?_
      rw [hbmReady_eq ha hp hk]
      exact if_pos rfl
    · obtain ⟨q, -, rfl⟩ := List.mem_map.1 he
      rfl

/-! ## Limits -/

theorem limitPeriod_eq {w c : Nat} (ha : s.alive = true) : limitPeriod w c s = if s.power.period + usec 100 ≤ s.lclk then
    retargetAll { s with power := { control s.lclk w c s.power with period := s.lclk }, energy := s.energy + w,
                         sensors := { s.sensors with watts := w, die := c } } else s := by
  simp only [limitPeriod, ha, Bool.true_and, decide_eq_true_eq]

variable {p : Power} {now w c : Nat}

theorem control_overP (h : p.plimit < w) : (control now w c p).limP = true ∧ (4 < p.ceiling →
    (control now w c p).ceiling = p.ceiling - 1) ∧
    (p.ceiling ≤ 4 → (control now w c p).ceiling = p.ceiling ∧ (control now w c p).omitted = min 6 (p.omitted + 1)) := by
  have hlow : control now w c p = lower p true (decide (p.tlimit < c)) := by simp [control, h]
  rw [hlow]
  by_cases hc : 4 < p.ceiling
  · simp [lower, hc, Nat.not_le.2 hc]
  · simp [lower, hc]

theorem control_overT (h : p.tlimit < c) : (control now w c p).limT = true ∧ (4 < p.ceiling →
    (control now w c p).ceiling = p.ceiling - 1) := by
  have hlow : control now w c p = lower p (decide (p.plimit < w)) true := by simp [control, h]
  rw [hlow]
  by_cases hc : 4 < p.ceiling
  · simp [lower, hc]
  · by_cases hw : p.plimit < w
    · simp [lower, hc, hw]
    · simp [lower, hc, hw]

/-- Within both limits the ceiling rises after 1 ms, and not before (R416). -/
theorem control_within {n : Nat} (hw : w * 100 < 95 * p.plimit) (hc : c + 3 < p.tlimit) (hs : p.underSince = some n)
    (h18 : p.ceiling < 18) :
    (n + msec 1 ≤ now → (control now w c p).ceiling = p.ceiling + 1) ∧ (now < n + msec 1 →
        (control now w c p).ceiling = p.ceiling) := by
  have hrel : control now w c p = relax now p := by
    have h1 : ¬p.plimit < w := by omega
    have h2 : ¬p.tlimit < c := by omega
    simp [control, h1, h2, hw, hc]
  rw [hrel]
  refine ⟨fun hle => ?_, fun hlt => ?_⟩
  · simp [relax, hs, h18, hle]
  · simp [relax, hs, Nat.not_le.2 hlt]

/-! ## Thermal protection and telemetry -/

theorem addRecord_pins (s : State) (p : Option Nat) (r : Rec) : (addRecord s p r).pins = s.pins := by
  obtain ⟨⟨_, _, _, _, _, _, _, _, _, hrest⟩, -, -, -⟩ := notes_addRecord s p r
  rw [hrest]

theorem enterFatal_pins (n : Nat) (s : State) : (enterFatal n s).pins = s.pins := by
  unfold enterFatal
  split
  · rfl
  · exact addRecord_pins { snapshot s with fatal := true, cmds := [], restart := none } none (deviceEvent 0x000F 3 n 0 0)

theorem railRecord_pins (s : State) : (railRecord s).pins = s.pins := addRecord_pins ..

/-- Settles O49: the control period is the model's control, retargeted; the rest is each command's own branch. -/
theorem limitsAndThermalProtection : Obligations.LimitsAndThermalProtection := by
  unfold Obligations.LimitsAndThermalProtection
  refine ⟨fun w c s ha => ⟨fun hlt => ?_, fun hle => ?_⟩, fun s ha => ⟨congrArg _ (if_pos ha), congrArg _ (if_pos ha)⟩,
    fun c s u ha hu => ⟨fun hc => ?_, fun hc => ?_, fun hc hor => ?_, fun hc => ?_, fun hc => ?_, fun hc => ?_⟩, fun s ha hk => ?_⟩
  · exact congrArg Host.Outcome.next ((limitPeriod_eq ha).trans (if_neg (Nat.not_le.2 hlt)))
  · obtain ⟨henergy, hsens, hcmds, hpow⟩ := retargetAll_keep { s with
      power := { control s.lclk w c s.power with period := s.lclk }, energy := s.energy + w, sensors := { s.sensors with watts := w, die := c } }
    refine ⟨_, congrArg Host.Outcome.next ((limitPeriod_eq ha).trans (if_pos hle)), henergy, ?_, ?_, hcmds, retargetAll_plots _, ?_⟩
    · rw [hsens]
    · rw [hsens]
    · rw [hpow]
      exact ⟨control_overP, control_overT, fun n hw hc hs h18 => control_within hw hc hs h18⟩
  · subst hu
    exact congrArg Host.Outcome.next (if_pos (by simp [ha, hc]))
  · exact congrArg Host.Outcome.next (if_neg (by simp [Nat.not_le.2 hc]))
  · subst hu
    exact congrArg Host.Outcome.next (if_pos (by simp [alive_lodge ha, hc, hor]))
  · exact congrArg Host.Outcome.next (if_neg (by simp [Nat.not_lt.2 hc]))
  · refine ⟨_, congrArg Host.Outcome.next (if_pos (by simp [ha, hc])), ?_⟩
    obtain ⟨hfatal, hcmds⟩ := enterFatal_stops 0x19 (railRecord_fatal
      (s := { setDie s c with pins := { s.pins with enCore := false, thermtrip := true } }) (alive_fatal ha))
    rw [enterFatal_pins, railRecord_pins]
    exact ⟨hfatal, hcmds, rfl, rfl⟩
  · exact congrArg Host.Outcome.next (if_neg (by simp [Nat.not_le.2 hc]))
  · refine ⟨_, congrArg Host.Outcome.next (if_pos (by rw [ha, hk]; rfl)), rfl, rfl, Nat.le_add_right .., Nat.le_add_right ..,
        rfl, rfl,
      fun n x hx => ?_, fun f x hx => ?_, fun e x hx => ?_⟩
    · exact (mget_map_snd s.plots n fun p => { p with epochsSnap := p.epochs }).trans (by rw [hx])
    · exact (mget_map_snd s.funcs f fun f => { f with snap := f.tel }).trans (by rw [hx])
    · exact (mget_map_snd s.engines e fun e => { e with telSnap := e.tel }).trans (by rw [hx])

end Sys2Proof.Machine
end

section
/-!
PROOF. Functions, ports and links, and what configuration space and the BARs return (R348, R349, R408, R410, R414, R445 to
R451, R455 to R459).
-/

namespace Sys2Proof.Machine

open Sys2Proof

variable {s t : State} {f : FuncId} {p : Fin 4}

/-! ## Capability walks -/

/-- Two walks agree where their pointers do, on offsets that the pointers do not leave. -/
theorem capWalk_congr {next next' : Nat → Nat} {P : Nat → Prop} (h : ∀ o, P o → next o = next' o ∧ (next' o ≠ 0 → P (next' o))) :
    ∀ n o, (o ≠ 0 → P o) → capWalk next n o = capWalk next' n o
  | 0, _, _ => rfl
  | n + 1, o, ho => by
    by_cases hz : o = 0
    · rw [capWalk, capWalk, if_pos hz, if_pos hz]
    · obtain ⟨heq, hnext⟩ := h o (ho hz)
      rw [capWalk, capWalk, if_neg hz, if_neg hz, heq, capWalk_congr h n _ hnext]

theorem nextCap_mem {l : List Cap} {o : Nat} (h : nextCap l o ≠ 0) : ∃ c ∈ l, c.off = nextCap l o := by
  unfold nextCap at h ⊢
  cases hf : l.find? fun c => decide (o < c.off) with
  | none => rw [hf] at h; exact absurd rfl h
  | some c => exact ⟨c, List.mem_of_find?_eq_some hf, rfl⟩

theorem nextCap_lt {l : List Cap} {b o : Nat} (hb : 0 < b) (h : ∀ c ∈ l, c.off < b) : nextCap l o < b := by
  by_cases hz : nextCap l o = 0
  · rw [hz]; exact hb
  · obtain ⟨c, hc, heq⟩ := nextCap_mem hz
    rw [← heq]; exact h c hc

theorem find_off {l : List Cap} {o : Nat} (h : ∃ c ∈ l, c.off = o) : ∃ c ∈ l, c.off = o ∧ l.find? (·.off == o) = some c := by
  obtain ⟨c, hc, ho⟩ := h
  cases hf : l.find? (·.off == o) with
  | none => exact absurd (beq_iff_eq.2 ho) (List.find?_eq_none.1 hf c hc)
  | some d => exact ⟨d, List.mem_of_find?_eq_some hf, beq_iff_eq.1 (List.find?_some (p := fun c : Cap => c.off == o) hf), rfl⟩

theorem caps_bound : ∀ c ∈ caps, c.off < 256 ∧ c.id < 256 := by decide

theorem extCaps_bound : ∀ c ∈ extCaps, 256 ≤ c.off ∧ c.off < 4096 ∧ c.id < 65536 := by decide

theorem mem_capsOf {l : List Cap} {c : Cap} (h : c ∈ capsOf l f) : c ∈ l := (List.mem_filter.1 h).1

/-- The further bits of a capability's first dword are above its ID and its pointer. -/
theorem headMore_high (s : State) (f : FuncId) (o : Nat) : (headMore s f o).mask % 65536 = 0 ∧ (headMore s f o).value % 65536 = 0 ∧
    (headMore s f o).mask < 2 ^ 32 := by
  have hflag (a b : Bool) (n : Nat) : (65536 * n + flag a 30 + flag b 31) % 65536 = 0 := by
    unfold flag
    split_ifs <;> omega
  unfold headMore
  dsimp only
  split
  · decide
  · decide
  · exact ⟨by norm_num, hflag .., by norm_num⟩

/-- A capability below 0x100 points to the next one of its function (R448). -/
theorem capPtr_next {o : Nat} (h : ∃ c ∈ capsOf caps f, c.off = o) : capPtr (cfgRead s f o) = nextCap (capsOf caps f) o := by
  obtain ⟨c, hc, ho, hfind⟩ := find_off h
  have hknown : cfgKnown s f o = capHead f c (headMore s f o) := by rw [cfgKnown, hfind]
  obtain ⟨hmask, hvalue, hlt⟩ := headMore_high s f o
  have hid := (caps_bound c (mem_capsOf hc)).2
  have hnext : nextCap (capsOf caps f) o < 256 := nextCap_lt (by decide) fun d hd => (caps_bound d (mem_capsOf hd)).1
  unfold capPtr
  rw [cfgRead_bits s f o 15 8 _ hknown]
  · simp only [capHead, bitsOf, ho]; omega
  · simp only [capHead]; omega
  · simp only [capHead, bitsOf]; omega

/-- An extended capability points to the next one of its function (R448). -/
theorem extPtr_next {o : Nat} (h : ∃ c ∈ capsOf extCaps f, c.off = o) : extPtr (cfgRead s f o) = nextCap (capsOf extCaps f) o := by
  obtain ⟨c, hc, ho, hfind⟩ := find_off h
  obtain ⟨hlow, -, hid⟩ := extCaps_bound c (mem_capsOf hc)
  have hnone : (capsOf caps f).find? (·.off == o) = none := by
    refine List.find?_eq_none.2 fun d hd heq => ?_
    have := (caps_bound d (mem_capsOf hd)).1
    have := beq_iff_eq.1 heq
    omega
  have hknown : cfgKnown s f o = extHead f c := by rw [cfgKnown, hnone, hfind]
  have hnext : nextCap (capsOf extCaps f) o < 4096 := nextCap_lt (by decide) fun d hd => (extCaps_bound d (mem_capsOf hd)).2.1
  unfold extPtr
  rw [cfgRead_bits s f o 31 20 _ hknown (by simp only [extHead]; decide) (by simp only [extHead]; decide)]
  simp only [extHead, bitsOf, ho]
  omega

theorem firstCap (s : State) (f : FuncId) : bitsOf (cfgRead s f 0x34) 7 0 = 0x40 := by
  have hknown : cfgKnown s f 0x34 = ⟨0xFF, 0x40⟩ := by
    cases h : f.fn == 0 <;> simp [cfgKnown, capsOf, caps, extCaps, cfgField, h]
  rw [cfgRead_bits s f 0x34 7 0 _ hknown (by decide) (by decide)]
  rfl

theorem capsOf_caps (f : FuncId) : capsOf caps f = caps := by
  cases h : f.fn == 0 <;> simp [capsOf, caps, h]

theorem walk_caps (s : State) (f : FuncId) :
    capWalk (fun o => capPtr (cfgRead s f o)) 48 (bitsOf (cfgRead s f 0x34) 7 0) = [0x40, 0x50, 0x90] := by
  rw [firstCap, capWalk_congr (next' := nextCap (capsOf caps f)) (P := fun o => ∃ c ∈ capsOf caps f, c.off = o)
    (fun o ho => ⟨capPtr_next ho, nextCap_mem⟩), capsOf_caps]
  · decide
  · rw [capsOf_caps]; decide

theorem walk_extCaps (s : State) (f : FuncId) : capWalk (fun o => extPtr (cfgRead s f o)) 64 0x100 = (if f.fn = 0 then
      [0x100, 0x148, 0x158, 0x160, 0x1A0, 0x1D0, 0x1E0, 0x210, 0x240, 0x260, 0x2B0, 0x2C0, 0x2D0, 0x300]
      else [0x100, 0x158, 0x2D0]) := by
  have hcaps : capsOf extCaps f = if f.fn = 0 then extCaps else [⟨0x100, 0x01, true⟩, ⟨0x158, 0x0E, true⟩, ⟨0x2D0, 0x2E,
      true⟩] := by
    by_cases h : f.fn = 0 <;> simp [capsOf, extCaps, h]
  rw [capWalk_congr (next' := nextCap (capsOf extCaps f)) (P := fun o => ∃ c ∈ capsOf extCaps f, c.off = o)
    (fun o ho => ⟨extPtr_next ho, nextCap_mem⟩), hcaps]
  · split
    · decide
    · decide
  · rw [hcaps]
    split
    · decide
    · decide

/-! ## Functions and ports -/

theorem port_modFn (s : State) (f : FuncId) (g : Func → Func) (n : Nat) : (s.modFn f g).port n = s.port n := rfl

theorem fn_setPort (s : State) (n : Nat) (x : Port) (f : FuncId) : (s.setPort n x).fn f = s.fn f := rfl

theorem flr_facts (f : FuncId) (s : State) : ((flr f s).fn f).flr = some s.lclk ∧ ((flr f s).fn f).queues = [] ∧
    ((flr f s).fn f).enable = false ∧ ((flr f s).fn f).cfg = Cfg.reset ∧ ∀ c ∈ (flr f s).cmds, c.ofFn f = false := by
  unfold flr
  extract_lets fs
  obtain ⟨-, hreset⟩ := resetAll_facts fs s
  obtain ⟨hqueues, hcfg, henable, -, hcmds⟩ := hreset f List.mem_cons_self
  rw [State.fn_modFn]
  exact ⟨rfl, hqueues, henable, hcfg, fun c hc => (hcmds c hc).2⟩

theorem portReset_facts (p : Fin 4) (k : PortResetKind) (s : State) : ((portReset p k s).port p.val).link = .down ∧
    ((portReset p k s).fn ⟨p, 0⟩).queues = [] ∧ ((portReset p k s).fn ⟨p, 0⟩).cfg = Cfg.reset ∧
      (k = .perst → ((portReset p k s).port p.val).perstN = false) := by
  unfold portReset resetPort
  dsimp only
  obtain ⟨hqueues, hcfg, -, -, -⟩ := (resetAll_facts (⟨p, 0⟩ :: enabledVfs s p) s).2 ⟨p, 0⟩ List.mem_cons_self
  rw [State.port_setPort, fn_setPort]
  exact ⟨rfl, hqueues, hcfg, fun hk => by subst hk; rfl⟩

theorem removedVfs_ne {n : Nat} {enable : Bool} (h : f ∈ removedVfs s p n enable) : f ≠ ⟨p, 0⟩ := fun heq =>
  (enabledVfs_port s p f (List.mem_filter.1 h).1).2 (by rw [heq])

theorem vfRemoval_facts (p : Fin 4) (n : Nat) (enable : Bool) (s : State) :
    ((vfRemoval p n enable s).fn ⟨p, 0⟩).cfg.vfEnable = enable ∧ ((vfRemoval p n enable s).fn ⟨p, 0⟩).cfg.numVfs = n ∧
      ∀ f ∈ removedVfs s p n enable, ((vfRemoval p n enable s).fn f).queues = [] ∧
          ((vfRemoval p n enable s).fn f).cfg = Cfg.reset := by
  unfold vfRemoval
  dsimp only
  rw [State.fn_modFn]
  refine ⟨rfl, rfl, fun f hf => ?_⟩
  rw [fn_modFn_ne _ _ _ _ (removedVfs_ne hf)]
  obtain ⟨hqueues, hcfg, -, -, -⟩ := (resetAll_facts (removedVfs s p n enable) s).2 f hf
  exact ⟨hqueues, hcfg⟩

/-- A function without Bus Master Enable or in D3hot does no DMA (R446, R456). -/
theorem dmaOk_stopped (h : (s.fn f).cfg.busMaster = false ∨ (s.fn f).cfg.d3hot = true) : s.dmaOk f = false := by
  unfold State.dmaOk
  dsimp only
  rcases h with h | h
  · simp only [h, Bool.false_and]
  · simp only [h, Bool.not_true, Bool.and_false, Bool.false_and]

theorem exec_d3hotEntry (h : cfgServed s f = true) (b : Bool) : exec (.d3hotEntry f b) s = .next (
    if b then s.modFn f fun x => { x with cfg := { x.cfg with busMaster := false } }
    else
      let t := s.modFn f fun x => { x with cfg := { x.cfg with d3hot := true } }
      if allD3 t f.port then t.setPort f.port.val { t.port f.port.val with link := .l1 } else t) :=
  congrArg Host.Outcome.next (if_pos h)

theorem configWrite_facts (f : FuncId) (fld : CfgField) (v : Nat) (s : State) :
    ((configWrite f fld v s).fn f).cfg = (s.fn f).cfg.write fld v ∧
      (f.fn ≠ 0 → (configWrite f fld v s).cmds = s.cmds ∧ (configWrite f fld v s).plots = s.plots) := by
  unfold configWrite
  extract_lets c t
  obtain ⟨hcfg, hcmds, hplots⟩ := resume_facts (t.modFn f fun x => { x with cfg := c }) f f
  rw [hcfg, hcmds, hplots, State.fn_modFn]
  refine ⟨rfl, fun hf => ?_⟩
  have ht : t = s := if_neg hf
  rw [ht]
  exact ⟨rfl, rfl⟩

/-! ## Memory reads -/

theorem mmioRead_long {b : Bar} {off len : Nat} (h : 64 < len ∨ off / 64 ≠
    (off + len - 1) / 64) : mmioRead s f b off len = none := by
  refine if_neg ?_
  rcases h with h | h
  · simp [Nat.not_le.2 h]
  · simp [h]

theorem mmioRead_served {b : Bar} {off len : Nat} (hs : mmioServed s f = true) (h1 : 1 ≤ len) (h64 : len ≤ 64)
    (hline : off / 64 = (off + len - 1) / 64) : mmioRead s f b off len =
      some ((List.range len).map fun i => BitVec.ofNat 8 (barWord s f b ((off + i) / 8 * 8) / 256 ^ ((off + i) % 8))) :=
  if_pos (by simp only [hs, h1, h64, decide_true, Bool.true_and, beq_iff_eq]; exact hline)

/-! ## The settlement -/

/-- Settles O50: a reset resets its functions alone, a link or D-state changes one port or function, and reads follow Table 2. -/
theorem functionsAndLinks : Obligations.FunctionsAndLinks := by
  unfold Obligations.FunctionsAndLinks
  refine ⟨fun f s hs => ⟨_, congrArg Host.Outcome.next (if_pos hs), flr_facts f s⟩, fun f s hl hf => ?_, fun p k s hl hp hk => ?_,
    fun p s hl hp hd => ?_, fun p n enable s hs hn hr => ?_, fun f s hs => ⟨?_, ?_, ?_⟩, fun p s hl hp hk hc => ⟨fun hlt => ?_,
      fun hle => ?_⟩,
    fun p s hl hk => ?_, fun r s hl hp hk hu => ?_, fun f fld v s hs hthere => ?_, fun f s => ⟨walk_caps s f, walk_extCaps s f⟩,
    fun f b off len s hs => ⟨mmioRead_long, fun h1 h64 hline => ?_⟩⟩
  · exact congrArg Host.Outcome.next (if_pos (by rw [hl, hf]; rfl))
  · have hcond : (s.lodgeUp && decide (p.val < s.portCount) && (k == .perst || !((s.port p.val).link == .down))) = true := by
      rw [hl, decide_eq_true hp, beq_eq_false_iff_ne.2 hk, Bool.not_false, Bool.or_true]; rfl
    exact ⟨_, congrArg Host.Outcome.next (if_pos hcond), portReset_facts p k s⟩
  · refine ⟨_, congrArg Host.Outcome.next (if_pos (by rw [hl, decide_eq_true hp, hd]; rfl)), ?_, rfl, rfl⟩
    exact State.port_setPort ..
  · have hcond : (cfgServed s ⟨p, 0⟩ && decide (n ≤ 63) && !(removedVfs s p n enable).isEmpty) = true := by
      simp [hs, hn, hr]
    exact ⟨_, congrArg Host.Outcome.next (if_pos hcond), vfRemoval_facts p n enable s⟩
  · refine ⟨_, exec_d3hotEntry hs false, ?_⟩
    rw [if_neg Bool.false_ne_true]
    extract_lets t
    have hfn : t.fn f = { s.fn f with cfg := { (s.fn f).cfg with d3hot := true } } := State.fn_modFn ..
    by_cases hall : allD3 t f.port = true
    · rw [if_pos hall]
      have hfn' : (t.setPort f.port.val { t.port f.port.val with link := .l1 }).fn f = t.fn f := fn_setPort ..
      refine ⟨by rw [hfn', hfn], dmaOk_stopped (.inr (by rw [hfn', hfn])), by rw [hfn', hfn], fun _ => ?_⟩
      rw [State.port_setPort]
    · rw [if_neg hall]
      exact ⟨by rw [hfn], dmaOk_stopped (.inr (by rw [hfn])), by rw [hfn], fun h => absurd h hall⟩
  · refine ⟨_, exec_d3hotEntry hs true, ?_⟩
    rw [if_pos rfl]
    exact ⟨by rw [State.fn_modFn], dmaOk_stopped (.inl (by rw [State.fn_modFn]))⟩
  · refine ⟨_, congrArg Host.Outcome.next (if_pos hs), ?_⟩
    obtain ⟨hcfg, hcmds, -⟩ := resume_facts (s.modFn f fun x =>
        { x with cfg := { x.cfg with d3hot := false, busMaster := true } }) f f
    rw [hcfg, State.fn_modFn]
    exact ⟨rfl, hcmds⟩
  · exact congrArg Host.Outcome.next (if_neg (by simp [Nat.not_le.2 hlt]))
  · exact congrArg Host.Outcome.next (if_pos (by simp [hl, hp, hk, hc, hle]))
  · exact congrArg Host.Outcome.next (if_pos (by simpa [hl] using hk))
  · exact congrArg Host.Outcome.next (if_pos (by rw [hl, decide_eq_true hp, hk, hu]; rfl))
  · exact ⟨_, congrArg Host.Outcome.next (if_pos (by rw [hs, hthere]; rfl)), configWrite_facts f fld v s⟩
  · refine ⟨_, mmioRead_served hs h1 h64 hline, by simp, fun i hi => ?_⟩
    simp [hi]

end Sys2Proof.Machine
end

section
/-!
PROOF. Resets, the steps of bring-up, power-down and the loss of the main supply (R338, R371, R413, R427, R435, R457 to R463,
R491 to R498).
-/

namespace Sys2Proof.Machine

open Sys2Proof

variable {s t : State}

/-! ## The steps of bring-up -/

theorem execConfigReady_eq (ha : s.alive = true) (ht : s.pins.testN = true) (hc : s.boot.configReady = false) :
    exec .configReady s = .next (configReady s) :=
  congrArg Host.Outcome.next (if_pos (by rw [ha, ht, hc]; rfl))

theorem startCore_spad (s : State) {e : Nat} (he : e < 6) : ((startCore s).eng e).spad = Spad.clear := by
  have heng : (startCore s).eng e = bringUpEngine s.lclk := by
    interval_cases e <;> rfl
  rw [heng]
  rfl

theorem powerGoodTimeout_cond {r : PgId} (ha : s.alive = true) (hr : s.boot.ready = false) (he : s.pins.en r = true)
    (hp : s.pins.pg r = false) : exec (.powerGoodTimeout r) s =
      .next (if s.enabledAt r + msec 20 ≤ s.lclk then enterFatal 0x19 s else s) := by
  refine congrArg Host.Outcome.next ?_
  simp [ha, hr, he, hp]

theorem hbmTrainingDone_eq {i : Nat} {ok : Bool} (ha : s.alive = true) (hb : s.boot.stage = 5) (hs : s.stack i = .training) :
    hbmTrainingDone i ok s = if ok then
        let t := s.setStack i .ready
        { t with boot := { t.boot with stackMask := Nat.lor t.boot.stackMask (2 ^ i), stage := if t.hbmUp then 6 else 5 } }
      else
        let n := (mget s.boot.attempts i).getD 0 + 1
        let t := { s with boot := { s.boot with attempts := mput s.boot.attempts i n } }
        if 3 ≤ n then enterFatal 0x11 t else t :=
  if_neg (by rw [ha, hb, hs]; decide)

/-! ## READY -/

/-- Engines, one failed bring-up slice after the other, before the boot record is set (R388, R391). -/
def slicedEngines (failed : List (Fin 6)) (s : State) : State :=
  failed.foldl (fun (v : State) e => failEngine v e.val) ((List.range 6).foldl (startEngine s.lclk) s)

theorem slicedEngines_failed (failed : List (Fin 6)) (s : State) (e : Fin 6) :
    ((slicedEngines failed s).eng e.val).failed = if e ∈ failed then true else false := by
  unfold slicedEngines
  rw [failEngine_all, startEngine_failed, if_pos (List.mem_range.2 e.isLt)]

theorem bt_sliced (failed : List (Fin 6)) (s : State) : Bt s (slicedEngines failed s) := by
  obtain ⟨hboot, hstores⟩ := bt_fail failed ((List.range 6).foldl (startEngine s.lclk) s)
  obtain ⟨hboot', hstores'⟩ := bt_start (List.range 6) s.lclk s
  exact ⟨hboot.trans hboot', hstores.trans hstores'⟩

/-- What READY leaves (R427, R461): the boot record, the failed engines, and MINSVN burned where the image asks it. -/
theorem readyState_facts (failed : List (Fin 6)) (burned : Bool) (s : State) :
    (readyState failed burned s).boot = { s.boot with stage := 7, ready := true } ∧
      (∀ e : Fin 6, ((readyState failed burned s).eng e.val).failed = if e ∈ failed then true else false) ∧
        (readyState failed burned s).stores = if s.boot.commitSvn = 1 ∧ s.stores.minSvn < s.boot.fwSvn ∧ burned = true then
          { s.stores with minSvn := s.boot.fwSvn } else s.stores := by
  have hready : readyState failed burned s = retargetAll { (if (slicedEngines failed s).boot.commitSvn = 1 &&
      decide ((slicedEngines failed s).stores.minSvn < (slicedEngines failed s).boot.fwSvn) && !burned then
        addRecord (slicedEngines failed s) none (deviceEvent Config.burnEvent 2 0x15 0 0) else slicedEngines failed s) with
    boot := { (slicedEngines failed s).boot with stage := 7, ready := true }
    stores := if (slicedEngines failed s).boot.commitSvn = 1 &&
      decide ((slicedEngines failed s).stores.minSvn < (slicedEngines failed s).boot.fwSvn) && burned then
        { (slicedEngines failed s).stores with minSvn := (slicedEngines failed s).boot.fwSvn } else (slicedEngines failed s).stores
    keeper := { (slicedEngines failed s).keeper with
      slices := 6, failed := failed.length, ghSweep := (slicedEngines failed s).lclk, hbmSweep := (slicedEngines failed s).lclk,
      lodgeSweep := (slicedEngines failed s).lclk, ghNext := (slicedEngines failed s).lclk, hbmNext := (slicedEngines failed s).lclk,
      lodgeNext := (slicedEngines failed s).lclk } } := rfl
  obtain ⟨hboot, hstores⟩ := bt_sliced failed s
  rw [hready]
  refine ⟨?_, fun e => ?_, ?_⟩
  · rw [(retarget_bt _).1.1, hboot]
  · rw [(retarget_bt _).2, ← slicedEngines_failed failed s e]
    show Engine.failed (State.eng (if _ then _ else _) _) = _
    split
    · rw [(notes_addRecord ..).eng]
    · rfl
  · rw [(retarget_bt _).1.2]
    simp only [hboot, hstores, Bool.and_eq_true, decide_eq_true_eq, and_assoc]

theorem minSvn_burned (x : Stores) (n : Nat) : { x with minSvn := max x.minSvn n } = if x.minSvn < n then
    { x with minSvn := n } else x := by
  split
  · next h => rw [Nat.max_eq_right (Nat.le_of_lt h)]
  · next h => rw [Nat.max_eq_left (Nat.le_of_not_lt h)]

/-! ## Power-down and the loss of supplies -/

theorem finishNvs_facts (s : State) : (finishNvs s).pins = s.pins ∧ (s.nvsWait ≠ none →
    (finishNvs s).stores.limit = s.stores.limit + 4096) := by
  unfold finishNvs
  split
  · exact ⟨rfl, fun _ => reserve_limit _⟩
  · next h => exact ⟨rfl, fun hn => absurd (Option.isSome_iff_ne_none.2 hn) h⟩

/-- Where every rail still has its power-good, power-down takes HBM's enable alone (R498). -/
theorem powerDown_full {p : Pins} (h1 : p.enPcie = true) (h2 : p.enFab = true) (h3 : p.enSram = true) (h4 : p.enCore = true)
    (h5 : p.pgHbm = true) : powerDown p = { p with enHbm := false } := by
  simp only [powerDown, h1, h2, h3, h4, h5, if_true, Bool.true_or]

/-- The enables fall in their order once every link is down (R498). -/
def enablesFall (t : State) : State := { t with pins := powerDown { t.pins with pwrDnN := false } }

theorem enablesFall_facts (t : State) : (enablesFall t).pins.pwrDnN = false ∧ (enablesFall t).pins.enHbm = false ∧
    (enablesFall t).stores = t.stores ∧ ∀ n, (enablesFall t).port n = t.port n := by
  obtain ⟨hoff, hdn⟩ := powerDown_keep { t.pins with pwrDnN := false }
  exact ⟨hdn, hoff, rfl, fun _ => rfl⟩

/-- What PWR_DN_N leaves: the reservation's write done, every link down, and the enables as R498 orders them. -/
theorem powerDown_facts (s : State) : ∀ t, t = enablesFall (dropLinks (finishNvs s)) → t.pins.pwrDnN = false ∧
    t.pins.enHbm = false ∧
    (s.nvsWait ≠ none → t.stores.limit = s.stores.limit + 4096) ∧
      (s.pins.enPcie = true → s.pins.enFab = true → s.pins.enSram = true → s.pins.enCore = true → s.pins.pgHbm = true →
        t.pins = { s.pins with pwrDnN := false, enHbm := false }) ∧
      ∀ p : Fin 4, p.val < s.portCount → (t.port p.val).link = .down := by
  obtain ⟨hpins, hlimit⟩ := finishNvs_facts s
  obtain ⟨hdrop, hlinks⟩ := drop_links (finishNvs s)
  have hkept : (dropLinks (finishNvs s)).stores = (finishNvs s).stores := (dropLinks_keeps (finishNvs s)).1
  have hcount : (finishNvs s).portCount = s.portCount := by unfold State.portCount; rw [hpins]
  generalize dropLinks (finishNvs s) = u at hdrop hlinks hkept
  rintro _ rfl
  obtain ⟨hdn, hoff, hstores, hport⟩ := enablesFall_facts u
  refine ⟨hdn, hoff, fun hn => ?_, fun e1 e2 e3 e4 e5 => ?_, fun p hp => ?_⟩
  · rw [hstores, hkept, hlimit hn]
  · unfold enablesFall
    rw [hdrop, hpins]
    exact powerDown_full e1 e2 e3 e4 e5
  · rw [hport]
    exact hlinks p (by rw [hcount]; exact hp)

theorem tearNvs_facts (s : State) : (s.nvsWait = none → (tearNvs s).stores = s.stores) ∧
    ∀ a, s.nvsWait = some a → (∃ w, (tearNvs s).stores = s.stores.tornReserve w) ∧
      ((tearNvs s).stores.limit = s.stores.limit ∨ (tearNvs s).stores.limit = s.stores.limit + 4096) := by
  refine ⟨fun h => by simp only [tearNvs, h], fun a h => ?_⟩
  have hstores : (tearNvs s).stores = s.stores.tornReserve (Config.hadBegun a) := by simp only [tearNvs, h]
  refine ⟨⟨_, hstores⟩, ?_⟩
  rw [hstores, tornReserve_limit]
  split
  · exact .inr rfl
  · exact .inl rfl

/-! ## The settlement -/

/-- Settles O51: each stage sets the next enable, READY sets the boot record, and a loss of power keeps what does not volatilise. -/
theorem bringUpAndPowerDown : Obligations.BringUpAndPowerDown := by
  unfold Obligations.BringUpAndPowerDown
  refine ⟨fun lanes adr testN s h1 h2 h3 => ?_, fun s h => ⟨_, congrArg Host.Outcome.next (if_pos h), rfl, rfl, rfl, rfl, rfl,
      rfl, rfl⟩,
    fun s ha ht hc => ⟨fun slot img hf => ?_, fun hf => ?_⟩, fun s h1 h2 h3 h4 h5 hst => ⟨fun he hn => ?_, fun he hn => ?_,
      fun he => ?_⟩,
    fun r s ha hr he hp => ⟨fun hle => ?_, fun hlt => ?_⟩, fun i s ha hb hs => ⟨?_, fun n hn => ⟨fun hle => ?_, fun hlt => ?_⟩⟩,
    fun failed burned s ha hst hr hh => ?_, fun s h1 h2 h3 h4 => ?_, fun s h1 h2 h3 => ?_, fun s => ⟨fun h => ?_, fun h => ?_⟩⟩
  · refine ⟨_, congrArg Host.Outcome.next (if_pos (by rw [h1, h2, h3]; rfl)), rfl, ?_, rfl, rfl, rfl, rfl, rfl, rfl⟩
    show bifMode lanes.toNat = _
    unfold bifMode
    simp only [← BitVec.toNat_inj]
    rfl
  · refine ⟨_, execConfigReady_eq ha ht hc, ?_⟩
    unfold configReady
    rw [hf]
    exact ⟨rfl, rfl, rfl, rfl, rfl⟩
  · refine ⟨_, execConfigReady_eq ha ht hc, ?_⟩
    unfold configReady
    rw [hf]
    exact ⟨rfl, rfl, rfl⟩
  · refine ⟨_, powerGood_next .fab s h1 h2 h3 h4 h5 he, ?_⟩
    simp [nextEnable, Pins.setPg, hst, hn]
  · refine ⟨_, powerGood_next .sram s h1 h2 h3 h4 h5 he, ?_⟩
    simp [nextEnable, Pins.setPg, hst, hn, he]
  · have hgo : exec (.powerGood .core true) s = .next (startCore { s with pins := s.pins.setPg .core true }) :=
      (powerGood_next .core s h1 h2 h3 h4 h5 he).trans (congrArg Host.Outcome.next (if_pos (by simp [Pins.setPg, hst, he])))
    exact ⟨_, hgo, rfl, rfl, rfl, rfl, fun e he => startCore_spad _ he⟩
  · exact ⟨_, (powerGoodTimeout_cond ha hr he hp).trans (by rw [if_pos hle]), (enterFatal_stops _ (alive_fatal ha)).1⟩
  · exact (powerGoodTimeout_cond ha hr he hp).trans (by rw [if_neg (Nat.not_le.2 hlt)])
  · refine ⟨_, congrArg Host.Outcome.next ((hbmTrainingDone_eq ha hb hs).trans (if_pos rfl)), ?_, rfl, fun hup => if_pos hup⟩
    show (s.setStack i.val .ready).stack i.val = _
    simp only [State.stack, State.setStack, mget_mput, if_true, Option.getD_some]
  · refine ⟨_, congrArg Host.Outcome.next ((hbmTrainingDone_eq ha hb hs).trans (if_neg Bool.false_ne_true)), ?_⟩
    dsimp only
    rw [hn, if_pos (by omega)]
    exact (enterFatal_stops _ (by exact alive_fatal ha)).1
  · refine ⟨_, congrArg Host.Outcome.next ((hbmTrainingDone_eq ha hb hs).trans (if_neg Bool.false_ne_true)), ?_⟩
    dsimp only
    rw [hn, if_neg (by omega)]
    exact ⟨alive_fatal ha, hs, mget_mput_same ..⟩
  · obtain ⟨hboot, hfailed, hstores⟩ := readyState_facts failed burned s
    refine ⟨_, congrArg Host.Outcome.next (if_pos (by simp [ha, hst, hr, hh])), by rw [hboot], by rw [hboot], fun e he => ?_,
        fun e he => ?_,
      fun hc hb => ?_, fun hor => ?_⟩
    · rw [hfailed, if_pos he]
    · rw [hfailed, if_neg he]
    · rw [hstores, minSvn_burned]
      simp only [hc, hb, true_and, and_true]
    · rw [hstores, if_neg]
      rintro ⟨hc, -, hb⟩
      rcases hor with h | h
      · exact h hc
      · rw [h] at hb; exact nomatch hb
  · exact ⟨_, congrArg Host.Outcome.next (if_pos (by rw [h1, h2, h3, h4]; rfl)), powerDown_facts s _ rfl⟩
  · exact ⟨_, congrArg Host.Outcome.next (if_pos (by rw [h1, h2, h3]; rfl)), rfl, rfl, rfl⟩
  · obtain ⟨hkept, htorn⟩ := tearNvs_facts s
    exact ⟨_, congrArg Host.Outcome.next (if_pos h), rfl, rfl, hkept, htorn, rfl, rfl⟩
  · exact ⟨_, congrArg Host.Outcome.next (if_neg (bool_not_true h)), rfl, rfl, rfl, rfl⟩

end Sys2Proof.Machine
end

section
/-!
PROOF. The Lodge's messages: MCTP control, PLDM monitoring, effecters, events and firmware update (R461, R465, R468 to R470,
R487).
-/

namespace Sys2Proof.Machine

open Sys2Proof

variable {s t : State} {ep : Endpoint}

/-! ## Monitoring -/

/-- A PLDM response goes out, and nothing else changes. -/
theorem pldmReply_eq (s : State) (ep : Endpoint) (type cmd cc : Nat) (more : List Byte) : pldmReply s ep type cmd cc more =
    { s with out := s.out ++ [.mctp ep ([BitVec.ofNat 8 1, BitVec.ofNat 8 type, BitVec.ofNat 8 cmd, BitVec.ofNat 8 cc] ++ more)] } := rfl

theorem execPldmDiscovery_sends (h : mctpUp s ep = true) (code : BitVec 8) :
    ∃ b, exec (.pldmDiscovery ep code) s = .next { s with out := s.out ++ [.mctp ep b] } := by
  have hgo : exec (.pldmDiscovery ep code) s = .next (if code = 4 then pldmReply s ep 0 4 0 (toLe 8 0x25)
      else if 1 ≤ code.toNat && code.toNat ≤ 5 then pldmReply s ep 0 code.toNat 0 (Config.stdBytes 0x200 code.toNat)
      else pldmReply s ep 0 code.toNat 5 []) := congrArg Host.Outcome.next (if_pos h)
  rw [hgo]
  split_ifs
  · exact ⟨_, rfl⟩
  · exact ⟨_, rfl⟩
  · exact ⟨_, rfl⟩

theorem execPldmSensorRead_eq (h : mctpUp s ep = true) (id : Nat) : exec (.pldmSensorRead ep id) s =
    .next ((sensorValue s id).elim (pldmReply s ep 2 0x11 0x80 []) fun v => pldmReply s ep 2 0x11 0 (toLe 4 v)) := by
  refine congrArg Host.Outcome.next ((if_pos h).trans ?_)
  cases sensorValue s id <;> rfl

theorem execSetEventReceiver_eq (h : mctpUp s ep = true) (hm : mayEffect s ep = true) (eid : BitVec 8) :
    exec (.setEventReceiver ep eid) s = .next (pldmReply { s with eventReceiver := some eid.toNat } ep 2 0x04 0 []) :=
  congrArg Host.Outcome.next ((if_neg (by rw [h]; decide)).trans (if_pos hm))

/-! ## Effecters -/

theorem execPldmEffecterWrite_eq (h : mctpUp s ep = true) (hm : mayEffect s ep = true) (ho : effectersOn s = true) (id v : Nat) :
    exec (.pldmEffecterWrite ep id v) s = .next ((effect s id v).elim (pldmReply s ep 2 0x31
        (if 32 ≤ id && id ≤ 36 then 2 else 0x80) [])
      fun t => pldmReply t ep 2 0x31 0 []) := by
  refine congrArg Host.Outcome.next ((effecterAt_serves _ _ h hm ho).trans ?_)
  cases effect s id v <;> rfl

theorem execPldmEffecterWrite_refused (h : mctpUp s ep = true) (hm : mayEffect s ep = false) (id v : Nat) :
    exec (.pldmEffecterWrite ep id v) s = .next (pldmReply s ep 2 0x31 1 []) := by
  refine congrArg Host.Outcome.next ?_
  simp only [effecterAt, h, hm, Bool.not_true, Bool.false_and, Bool.false_eq_true, if_false]

theorem effect_plimit {v : Nat} (h : 150 ≤ v) (k : v ≤ 700) : effect s 32 v = some
    { s with power := { s.power with plimit := v } } :=
  if_pos (by simp [h, k])

theorem effect_plimit_illegal {v : Nat} (h : v < 150 ∨ 700 < v) : effect s 32 v = none :=
  if_neg (by rw [Bool.and_eq_true, decide_eq_true_eq, decide_eq_true_eq]; omega)

theorem effect_p2Delay {v : Nat} (h : 1 ≤ v) (k : v ≤ 65535) : effect s 35 v = some
    { s with power := { s.power with p2Delay := v } } :=
  if_pos (by simp [h, k])

theorem wakeFromP2_facts (s : State) : (wakeFromP2 s).power = s.power ∧ (s.p2 = .inP2 → (wakeFromP2 s).p2 = .waking s.lclk) := by
  unfold wakeFromP2 wakeEvent
  split
  · exact ⟨rfl, fun _ => rfl⟩
  · next h => exact ⟨rfl, fun hp => absurd (beq_iff_eq.2 hp) h⟩

theorem setP2en_facts (s : State) (b : Bool) : (setP2en s b).power = { s.power with p2en := b } ∧
    (b = false → s.p2 = .inP2 → (setP2en s b).p2 = .waking s.lclk) := by
  cases b with
  | true => exact ⟨rfl, nofun⟩
  | false =>
    refine ⟨?_, fun _ hp => ?_⟩
    · exact (wakeFromP2_facts _).1
    · exact (wakeFromP2_facts _).2 hp

/-! ## Firmware update -/

section
variable (h : mctpUp s ep = true) (hm : mayUpdate s ep = true) (ho : 3 ≤ s.boot.stage ∨ s.boot.fwFail = true)
include h hm ho

theorem execRequestUpdate_eq : exec (.requestUpdate ep) s = .next (if s.update.isSome then pldmReply s ep 5 0x10 0x81 []
    else pldmReply { s with update := some ⟨updateSlot s, false⟩ } ep 5 0x10 0 []) :=
  congrArg Host.Outcome.next (updateAt_serves _ _ h hm ho)

theorem execUpdateComponent_eq {u : Update} {img : List Byte} (hu : s.update = some u) (hlen : img.length ≤ 33554432) :
    exec (.updateComponent ep img) s = .next (pldmReply
      { s with stores := s.stores.setSlot u.slot img, update := some { u with written := true } } ep 5 0x14 0 []) := by
  refine congrArg Host.Outcome.next ((updateAt_serves _ _ h hm ho).trans ?_)
  rw [hu]
  exact if_pos hlen

theorem execVerifyComplete_eq {u : Update} (hu : s.update = some u) : exec (.verifyComplete ep) s = .next (pldmReply
    { s with update := none } ep 5 0x17 0 (toLe 1 (if u.written && fwValid s.stores (s.stores.slotOf u.slot) then 0 else 1))) := by
  refine congrArg Host.Outcome.next ((updateAt_serves _ _ h hm ho).trans ?_)
  rw [hu]

end

theorem setSlot_facts (x : Stores) (i : Nat) (img : List Byte) : (x.setSlot i img).slotOf i = img ∧
    (x.setSlot i img).life = x.life ∧ (x.setSlot i img).minSvn = x.minSvn := by
  unfold Stores.setSlot Stores.slotOf
  by_cases hi : i = 0
  · simp only [hi, if_true]
    exact ⟨trivial, rfl, trivial⟩
  · simp only [hi, if_false]
    exact ⟨trivial, rfl, trivial⟩

/-! ## The settlement -/

/-- Settles O53: every message is its own branch of the Lodge, a reply, and what an effecter or an update sets. -/
theorem managementMessages : Obligations.ManagementMessages := by
  unfold Obligations.ManagementMessages
  refine ⟨fun ep s h => ⟨fun code => ⟨_, congrArg Host.Outcome.next (if_pos h)⟩, execPldmDiscovery_sends h, fun id v hv => ?_,
      fun id hv => ?_,
      fun eid hm => ⟨_, execSetEventReceiver_eq h hm eid⟩⟩,
    fun ep s h hm ho => ⟨fun v h1 h2 => ?_, fun v hv => ?_, fun v h1 h2 => ?_, fun b => ?_, fun hr => ?_, fun v hv => ?_⟩,
    fun ep id v s h hm => execPldmEffecterWrite_refused h hm id v,
    fun ep s h hm ho => ⟨fun hu => ?_, fun hu => ?_, fun u hu => ⟨fun img hlen => ?_, ?_⟩⟩,
    fun sub s hl hc hsub => ?_, fun id v s hl hc => ?_⟩
  · rw [execPldmSensorRead_eq h, hv]; rfl
  · rw [execPldmSensorRead_eq h, hv]; rfl
  · exact ⟨_, (execPldmEffecterWrite_eq h hm ho 32 v).trans (by rw [effect_plimit h1 h2, Option.elim_some]), rfl, rfl⟩
  · rw [execPldmEffecterWrite_eq h hm ho, effect_plimit_illegal hv]; rfl
  · exact ⟨_, (execPldmEffecterWrite_eq h hm ho 35 v).trans (by rw [effect_p2Delay h1 h2, Option.elim_some]), rfl⟩
  · exact ⟨_, congrArg Host.Outcome.next (effecterAt_serves _ _ h hm ho), setP2en_facts s b⟩
  · refine ⟨coldReset (pldmReply s ep 2 0x39 0 []), ?_, rfl, rfl, rfl⟩
    refine congrArg Host.Outcome.next ((effecterAt_serves _ _ h hm ho).trans ((if_pos rfl).trans ?_))
    exact if_pos hr
  · exact ⟨_, congrArg Host.Outcome.next ((effecterAt_serves _ _ h hm ho).trans (if_neg hv))⟩
  · rw [execRequestUpdate_eq h hm ho, if_neg (by rw [hu]; decide)]; rfl
  · rw [execRequestUpdate_eq h hm ho, if_pos (Option.isSome_iff_ne_none.2 hu)]; rfl
  · obtain ⟨hslot, hlife, hsvn⟩ := setSlot_facts s.stores u.slot img
    exact ⟨_, execUpdateComponent_eq h hm ho hu hlen, hslot, rfl, hlife, hsvn⟩
  · refine ⟨_, execVerifyComplete_eq h hm ho hu, rfl, rfl, ?_⟩
    rw [pldmReply_eq]
    cases (u.written && fwValid s.stores (s.stores.slotOf u.slot)) <;> rfl
  · have hnot : ([1, 2, 3].contains sub.toNat) = false := by
      rw [Bool.eq_false_iff, Ne, List.contains_iff_mem]
      simp only [List.mem_cons, List.not_mem_nil, or_false]
      rcases hsub with hs | hs
      · omega
      · subst hs; decide
    exact congrArg Host.Outcome.next (if_pos (by rw [hl, hc, hnot]; rfl))
  · refine ⟨_, congrArg Host.Outcome.next (if_pos (by rw [hl, hc]; rfl)), ?_⟩
    cases hr : s.eventReceiver with
    | none =>
      simp only [sendEvent]
      exact ⟨trivial, nofun, fun _ => trivial⟩
    | some r =>
      simp only [sendEvent]
      exact ⟨trivial, fun q hq => by cases hq; rfl, nofun⟩

end Sys2Proof.Machine
end

section
/-!
PROOF. Lifecycle operations: PROVISION, FIELD, RETIRE and AUTHORITY, tokens, nonces and the end of a tenant erase (R422 to R426,
R439, R467).
-/

namespace Sys2Proof.Machine

open Sys2Proof

variable {s t : State} {ep : Endpoint} {tok body : List Byte} {b : Burn} {a : Authority}

/-! ## Answers -/

theorem accepted_facts (s : State) (ep : Endpoint) (op : Nat) : (accepted s ep op).stores = s.stores ∧
    (accepted s ep op).secure = s.secure ∧
    (accepted s ep op).plots = s.plots ∧ (accepted s ep op).sessions = s.sessions ∧
      (accepted s ep op).out = s.out ++ [.mctp ep (vendorMsg 2 [BitVec.ofNat 8 op, 0])] := ⟨rfl, rfl, rfl, rfl, rfl⟩

theorem refused_facts (s : State) (ep : Endpoint) (op : Nat) : (refused s ep op).stores = s.stores ∧
    (refused s ep op).secure = s.secure ∧
    (refused s ep op).plots = s.plots ∧ (refused s ep op).sessions = s.sessions := ⟨rfl, rfl, rfl, rfl⟩

theorem burnFailed_facts (s : State) : (burnFailed s).stores = s.stores ∧ (burnFailed s).secure = s.secure ∧
    (burnFailed s).sessions = s.sessions := by
  obtain ⟨⟨_, _, _, _, _, _, _, _, _, hrest⟩, -, -, -⟩ := notes_addRecord s none (deviceEvent Config.burnEvent 2 0x15 0 0)
  unfold burnFailed
  rw [hrest]
  exact ⟨rfl, rfl, rfl⟩

theorem secAt_busy (ha : s.alive = true) (hb : s.boot.ready = true) (hu : epUp s ep = true) (he : s.secure.erasing ≠ none)
    (op : Nat)
    (k : State → State) : secAt s ep op k = secAnswer s ep op 3 [] := by
  have hcond : ¬(!(s.alive && s.boot.ready && epUp s ep)) = true := by rw [ha, hb, hu]; decide
  exact (if_neg hcond).trans (if_pos (Option.isSome_iff_ne_none.2 he))

/-! ## The fuses and the authority's record -/

theorem setAuthority_record (x : Stores) (a : Authority) : (x.setAuthority a).record = a := nvsWrite_value ..

theorem burn_record (x : Stores) (l : Life) (r : Bool × Bool) : (x.burn l r).record = x.record := rfl

theorem authority_inUse {x : Stores} (h : x.life = .provisioned) : x.authority = x.record :=
  if_pos (by unfold Stores.inUse; rw [h]; rfl)

/-- The ODK hash and the authority's record, before PROVISIONED is burned (R424). -/
def provisionRecord (s : State) (body : List Byte) (ok : Bool) (a : Authority) : Stores :=
  { s.stores with odkHash := burnHash s.stores.odkHash body ok s.freeIx }.setAuthority a

theorem provisionRecord_life (s : State) (body : List Byte) (ok : Bool) (a : Authority) :
    (provisionRecord s body ok a).life = s.stores.life := rfl

theorem lor_land_bits (o n f : Nat) : Nat.lor (Nat.lor o (Nat.land n f)) (Nat.lor o n) = Nat.lor o n := by
  refine Nat.eq_of_testBit_eq fun i => ?_
  show (((o ||| (n &&& f)) ||| (o ||| n)).testBit i) = (o ||| n).testBit i
  simp only [Nat.testBit_or, Nat.testBit_and]
  cases o.testBit i <;> cases n.testBit i <;> cases f.testBit i <;> rfl

/-- A burn that stops halfway sets no bit that the new hash lacks, and clears none (R422, R425). -/
theorem burnHash_partial (s : State) (body : List Byte) (a : Authority) {i : Nat} (hi : i < 48) :
    byteAt s.stores.odkHash i ≤ byteAt (provisionRecord s body false a).odkHash i ∧
      Nat.lor (byteAt (provisionRecord s body false a).odkHash i) (Nat.lor (byteAt s.stores.odkHash i) (byteAt body i)) =
        Nat.lor (byteAt s.stores.odkHash i) (byteAt body i) := by
  have hat := burnHash_at s.stores.odkHash body false s.freeIx hi
  rw [if_neg Bool.false_ne_true] at hat
  show byteAt s.stores.odkHash i ≤ byteAt (burnHash s.stores.odkHash body false s.freeIx) i ∧
    Nat.lor (byteAt (burnHash s.stores.odkHash body false s.freeIx) i) _ = _
  rw [hat]
  exact ⟨Nat.left_le_or, lor_land_bits ..⟩

/-! ## PROVISION -/

section
variable (ha : s.alive = true) (hb : s.boot.ready = true) (hu : epUp s ep = true) (hp : s.p2 = .awake)
    (he : s.secure.erasing = none)
include ha hb hu hp he

theorem exec_provision (body : List Byte) (b : Burn) : exec (.provision ep ⟨body, b⟩) s = .next (provisionNow ep body b s) :=
  congrArg Host.Outcome.next ((secAt_serves _ _ ha hb hu he).trans (awakeAt_runs _ _ hp))

theorem exec_field (tok : List Byte) (b : Burn) : exec (.field ep ⟨tok, b⟩) s = .next (fieldNow ep tok b s) :=
  congrArg Host.Outcome.next ((secAt_serves _ _ ha hb hu he).trans (awakeAt_runs _ _ hp))

theorem exec_retire (tok : List Byte) (b : Burn) : exec (.retire ep ⟨tok, b⟩) s = .next (retireStart ep tok b s) :=
  congrArg Host.Outcome.next ((secAt_serves _ _ ha hb hu he).trans (awakeAt_runs _ _ hp))

theorem exec_authority (tok : List Byte) : exec (.authority ep tok) s = .next (authorityNow ep tok s) :=
  congrArg Host.Outcome.next ((secAt_serves _ _ ha hb hu he).trans (awakeAt_runs _ _ hp))

theorem exec_invasive (tok : List Byte) : exec (.invasive ep tok) s = .next (invasiveNow ep tok s) :=
  congrArg Host.Outcome.next ((secAt_serves _ _ ha hb hu he).trans (awakeAt_runs _ _ hp))

end

theorem exec_observe (ha : s.alive = true) (hb : s.boot.ready = true) (hu : epUp s ep = true) (he : s.secure.erasing = none)
    (tok : List Byte) : exec (.observe ep tok) s = .next (observeNow ep tok s) :=
  congrArg Host.Outcome.next (secAt_serves _ _ ha hb hu he)

/-- The records of PROVISION are written, and then PROVISIONED is burned where every other fuse read back (R424). -/
theorem provisionNow_eq {st : Bool × Bool} {ok : Bool} (hl : s.stores.life = .blank) (hside : sideband ep = true)
    (hc : s.secure.level = .closed) (hlen : body.length = 50) (hauth : authorityOf (byteAt body 48) (byteAt body 49) = some a) :
    provisionNow ep body ⟨st, ok⟩ s = if ok then
        if ((provisionRecord s body ok a).burn .provisioned st).life == .provisioned then
          accepted { s with freeIx := if ok then s.freeIx else s.freeIx + 48, stores := (provisionRecord s body ok a).burn .provisioned st } ep 0x01
        else refused (burnFailed
          { s with freeIx := if ok then s.freeIx else s.freeIx + 48, stores := (provisionRecord s body ok a).burn .provisioned st }) ep 0x01
      else refused (burnFailed { s with freeIx := if ok then s.freeIx else s.freeIx + 48, stores := provisionRecord s body ok a }) ep 0x01 := by
  unfold provisionNow
  rw [hauth]
  exact if_pos (by rw [hl, hside, hc, hlen]; rfl)

theorem provisionNow_refused (h : s.stores.life ≠ .blank ∨ sideband ep = false ∨ s.secure.level ≠ .closed) (body : List Byte)
    (b : Burn) :
    provisionNow ep body b s = refused s ep 0x01 := by
  have hcond : ¬(s.stores.life == .blank && sideband ep && s.secure.level == .closed && body.length == 50) = true := by
    simp only [Bool.and_eq_true, beq_iff_eq]
    rintro ⟨⟨⟨hl, hs⟩, hc⟩, -⟩
    rcases h with h | h | h
    · exact h hl
    · rw [h] at hs; exact nomatch hs
    · exact h hc
  unfold provisionNow
  split
  · rfl
  · exact if_neg hcond

theorem provisionNow_good (hl : s.stores.life = .blank) (hside : sideband ep = true) (hc : s.secure.level = .closed)
    (hlen : body.length = 50) (hauth : authorityOf (byteAt body 48) (byteAt body 49) = some a) :
    provisionNow ep body ⟨(true, true), true⟩ s =
      accepted { s with stores := (provisionRecord s body true a).burn .provisioned (true, true) } ep 0x01 := by
  rw [provisionNow_eq hl hside hc hlen hauth, if_pos rfl]
  exact if_pos (beq_iff_eq.2 (burn_provisioned ((provisionRecord_life ..).trans hl)))

theorem provisionNow_burns (st : Bool × Bool) (hl : s.stores.life = .blank) (hside : sideband ep = true)
    (hc : s.secure.level = .closed)
    (hlen : body.length = 50) (hauth : authorityOf (byteAt body 48) (byteAt body 49) = some a) :
    (provisionNow ep body ⟨st, true⟩ s).stores = (provisionRecord s body true a).burn .provisioned st ∧
      (provisionNow ep body ⟨st, false⟩ s).stores = provisionRecord s body false a := by
  rw [provisionNow_eq hl hside hc hlen hauth, provisionNow_eq hl hside hc hlen hauth, if_pos rfl, if_neg Bool.false_ne_true]
  refine ⟨?_, (refused_facts ..).1.trans (burnFailed_facts _).1⟩
  split
  · exact (accepted_facts ..).1
  · exact (refused_facts ..).1.trans (burnFailed_facts _).1

/-! ## FIELD, AUTHORITY and RETIRE -/

theorem fieldNow_eq (hg : tokenGood s (some ep) 0x10 tok = true) (hk : s.secure.lockout = false) (hplots : s.plots = [])
    (hc : s.secure.level = .closed) : fieldNow ep tok b s =
      if (s.stores.burn .field b.state).life == .field then
        accepted { s with secure := { s.secure with nonce := none, failCount := 0 }, stores := s.stores.burn .field b.state } ep 0x02
      else refused (burnFailed
        { s with secure := { s.secure with nonce := none, failCount := 0 }, stores := s.stores.burn .field b.state }) ep 0x02 := by
  unfold fieldNow
  rw [present_good hg hk]
  exact if_pos (by rw [hplots, hc]; rfl)

theorem fieldNow_stores (hg : tokenGood s (some ep) 0x10 tok = true) (hk : s.secure.lockout = false) (hplots : s.plots = [])
    (hc : s.secure.level = .closed) : (fieldNow ep tok b s).stores = s.stores.burn .field b.state := by
  rw [fieldNow_eq hg hk hplots hc]
  split
  · rfl
  · exact (refused_facts ..).1.trans (burnFailed_facts _).1

theorem authorityNow_eq (hg : tokenGood s (some ep) 0x12 tok = true) (hk : s.secure.lockout = false) (hplots : s.plots = [])
    (hauth : authorityOf (tokArg0 tok) (tokArg1 tok) = some a) : ∀ t, t = closeDebug { s with
      secure := { s.secure with nonce := none, failCount := 0 } } →
        authorityNow ep tok s = accepted { t with stores := t.stores.setAuthority a } ep 0x04 := by
  rintro _ rfl
  unfold authorityNow
  rw [present_good hg hk, hauth]
  exact if_pos (by rw [hplots]; rfl)

theorem closeDebug_stores (s : State) : (closeDebug s).stores = s.stores := (closeDebug_keeps s).1

theorem retireStart_good (hg : tokenGood s (some ep) 0x11 tok = true) (hk : s.secure.lockout = false) :
    retireStart ep tok b s = startErase (.retire (some ep) b)
        { s with secure := { s.secure with nonce := none, failCount := 0 } } := by
  unfold retireStart
  rw [present_good hg hk]
  exact if_pos rfl

/-! ## A token that fails a check -/

/-- A refused token spends the nonce and counts; eight in a row set LOCKOUT (R439). -/
def tokenSpent (s : State) : State :=
  { s with secure := { s.secure with
      nonce := none, failCount := s.secure.failCount + 1, lockout := s.secure.lockout || decide (8 ≤ s.secure.failCount + 1) } }

theorem present_spent {p : Option Endpoint} {op : Nat} (h : tokenGood s p op tok = false) : present s p op tok = (tokenSpent s,
    false) :=
  present_bad h

theorem fieldNow_spent (h : tokenGood s (some ep) 0x10 tok = false) : fieldNow ep tok b s = refused (tokenSpent s) ep 0x02 := by
  unfold fieldNow
  rw [present_spent h]
  exact if_neg (by simp)

theorem retireStart_spent (h : tokenGood s (some ep) 0x11 tok = false) : retireStart ep tok b s = refused
    (tokenSpent s) ep 0x03 := by
  unfold retireStart
  rw [present_spent h]
  exact if_neg Bool.false_ne_true

theorem authorityNow_spent (h : tokenGood s (some ep) 0x12 tok = false) : authorityNow ep tok s = refused
    (tokenSpent s) ep 0x04 := by
  unfold authorityNow
  rw [present_spent h]
  split
  · exact if_neg (by simp)
  · rfl

theorem invasiveNow_spent (h : tokenGood s (some ep) 2 tok = false) : invasiveNow ep tok s = refused (tokenSpent s) ep 0x12 := by
  unfold invasiveNow
  rw [present_spent h]
  exact if_neg Bool.false_ne_true

theorem observeNow_spent (hne : tok ≠ []) (h : tokenGood s (some ep) 1 tok = false) :
    observeNow ep tok s = refused (tokenSpent s) ep 0x11 := by
  unfold observeNow
  rw [if_neg (by rw [List.isEmpty_iff]; exact hne), present_spent h]
  exact if_neg Bool.false_ne_true

/-! ## Nonces -/

theorem currentNonce_makeNonce (s : State) : currentNonce (makeNonce s) = some (freeNonce s.freeIx) :=
  if_pos (Nat.lt_add_of_pos_right (by decide))

theorem currentNonce_eq {n : Nat} {x : List Byte} (h : s.secure.nonce = some (x, n)) :
    currentNonce s = if s.lclk < n + 1500000000 then some x else none := by
  unfold currentNonce
  rw [h]
  rfl

/-! ## The end of a tenant erase -/

theorem tenantEraseDone_eq {k : AfterErase} (ha : s.alive = true) (hf : s.fclk = .running) (hh : s.hbmUp = true)
    (he : s.secure.erasing = some k) : ∀ t, t = { s with devZeroing := 0, secure := { s.secure with erasing := none } } →
      tenantEraseDone s = match k with
        | .retire ep b => if (retireNow b t).2 then answerEp (retireNow b t).1 ep 0x03 else refuseEp (retireNow b t).1 ep 0x03
        | .invasive ep => answerEp (openInvasive t) ep 0x12 := by
  rintro _ rfl
  unfold tenantEraseDone
  rw [he]
  refine (if_pos (by rw [ha, hf, hh]; rfl)).trans ?_
  cases k <;> rfl

theorem answerEp_facts (s : State) (e : Option Endpoint) (op : Nat) : (answerEp s e op).stores = s.stores ∧
    (answerEp s e op).secure = s.secure ∧
    (answerEp s e op).plots = s.plots ∧ (answerEp s e op).sessions = s.sessions := by
  cases e <;> exact ⟨rfl, rfl, rfl, rfl⟩

theorem refuseEp_facts (s : State) (e : Option Endpoint) (op : Nat) : (refuseEp s e op).stores = s.stores ∧
    (refuseEp s e op).secure = s.secure ∧
    (refuseEp s e op).sessions = s.sessions := by
  cases e <;> exact ⟨rfl, rfl, rfl⟩

theorem retireNow_good (s : State) : retireNow ⟨(true, true), true⟩ s = ({ closeDebug s with
    sessions := [], stores := { s.stores.setAuthority .none with idOff := true }.burn .retired (true, true) }, true) := by
  unfold retireNow
  rw [if_pos rfl]
  refine (if_pos (beq_iff_eq.2 (burn_retired _))).trans ?_
  rw [closeDebug_stores]

theorem retireNow_failed (st : Bool × Bool) (s : State) : retireNow ⟨st, false⟩ s =
    (burnFailed { closeDebug s with sessions := [], stores := s.stores.setAuthority .none }, false) := by
  unfold retireNow
  rw [if_neg Bool.false_ne_true, closeDebug_stores]

/-! ## The settlement -/

/-- Settles O54: every operation is answered by its own branch once its token and its conditions are known. -/
theorem lifecycleOperations : Obligations.LifecycleOperations := by
  unfold Obligations.LifecycleOperations
  refine ⟨fun ep s ha hb hu hp hf he => ⟨fun body a hl hside hc hlen hauth => ⟨?_, fun st => ?_, fun st => ?_⟩, fun body b h => ?_,
      fun tok b hg hk hplots hc => ⟨fun hst => ?_, ?_⟩, fun tok a hg hk hplots hauth => ?_, fun tok b hg hk => ?_,
      fun tok op c hop hbad => ?_, ?_⟩,
    fun ep bs b c op s ha hb hu he hmem => ?_, fun s x n hn => ⟨fun hlt => ?_, fun hle => ?_⟩,
    fun s ha hf hh => ⟨fun he => ?_, fun ep he => ?_, fun ep st he => ?_, fun ep he => ?_⟩⟩
  · refine ⟨_, exec_provision ha hb hu hp he body _, ?_⟩
    rw [provisionNow_good hl hside hc hlen hauth]
    have hlife := burn_provisioned ((provisionRecord_life s body true a).trans hl)
    refine ⟨hlife, (authority_inUse hlife).trans (setAuthority_record ..), fun i hi => ?_, rfl, rfl, rfl⟩
    exact (burnHash_at s.stores.odkHash body true s.freeIx hi).trans (by rw [if_pos rfl])
  · refine ⟨_, exec_provision ha hb hu hp he body _, ?_⟩
    rw [(provisionNow_burns st hl hside hc hlen hauth).2]
    exact ⟨hl, setAuthority_record .., fun i hi => burnHash_partial s body a hi⟩
  · refine ⟨_, exec_provision ha hb hu hp he body _, ?_⟩
    rw [(provisionNow_burns st hl hside hc hlen hauth).1]
    exact ⟨setAuthority_record .., rfl⟩
  · exact ⟨_, (exec_provision ha hb hu hp he body b).trans (congrArg Host.Outcome.next (provisionNow_refused h body b))⟩
  · have hlife : (s.stores.burn .field b.state).life = .field := by rw [hst]; exact burn_field (tokenGood_field hg)
    refine ⟨_, (exec_field ha hb hu hp he tok b).trans (congrArg Host.Outcome.next
      ((fieldNow_eq hg hk hplots hc).trans (if_pos (beq_iff_eq.2 hlife)))), hlife, rfl, rfl, rfl⟩
  · exact ⟨_, exec_field ha hb hu hp he tok b, fieldNow_stores hg hk hplots hc⟩
  · refine ⟨_, (exec_authority ha hb hu hp he tok).trans (congrArg Host.Outcome.next
        (authorityNow_eq hg hk hplots hauth _ rfl)), ?_⟩
    obtain ⟨hlevel, hnonce, -, -⟩ := closeDebug_facts { s with secure := { s.secure with nonce := none, failCount := 0 } }
    exact ⟨congrArg (Stores.setAuthority · a) (closeDebug_stores _), hlevel, hnonce⟩
  · refine ⟨_, (exec_retire ha hb hu hp he tok b).trans (congrArg Host.Outcome.next (retireStart_good hg hk)), ?_⟩
    obtain ⟨hplots, herasing⟩ := erase_secure (.retire (some ep) b)
        { s with secure := { s.secure with nonce := none, failCount := 0 } }
    exact ⟨herasing, hplots, (startErase_keeps ..).1⟩
  · rcases hop with ⟨rfl, b, rfl⟩ | ⟨rfl, b, rfl⟩ | ⟨rfl, rfl⟩ | ⟨rfl, rfl⟩ | ⟨rfl, hne, rfl⟩
    · exact ⟨_, (exec_field ha hb hu hp he tok b).trans (congrArg Host.Outcome.next (fieldNow_spent hbad)), rfl, rfl, rfl⟩
    · exact ⟨_, (exec_retire ha hb hu hp he tok b).trans (congrArg Host.Outcome.next (retireStart_spent hbad)), rfl, rfl, rfl⟩
    · exact ⟨_, (exec_authority ha hb hu hp he tok).trans (congrArg Host.Outcome.next (authorityNow_spent hbad)), rfl, rfl, rfl⟩
    · exact ⟨_, (exec_invasive ha hb hu hp he tok).trans (congrArg Host.Outcome.next (invasiveNow_spent hbad)), rfl, rfl, rfl⟩
    · exact ⟨_, (exec_observe ha hb hu he tok).trans (congrArg Host.Outcome.next (observeNow_spent hne hbad)), rfl, rfl, rfl⟩
  · refine ⟨_, congrArg Host.Outcome.next (secAt_serves _ _ ha hb hu he), rfl, ?_⟩
    dsimp only
    rw [currentNonce_makeNonce]
    rfl
  · have hbusy (k : State → State) := congrArg (Host.Outcome.next : State →
        Host.Outcome State Fault Refusal) (secAt_busy ha hb hu he op k)
    simp only [List.mem_cons, Prod.mk.injEq, List.not_mem_nil, or_false] at hmem
    rcases hmem with ⟨rfl, rfl⟩ | ⟨rfl, rfl⟩ | ⟨rfl, rfl⟩ | ⟨rfl, rfl⟩ | ⟨rfl, rfl⟩ | ⟨rfl, rfl⟩ | ⟨rfl, rfl⟩ | ⟨rfl, rfl⟩
    all_goals exact hbusy _
  · refine congrArg Host.Outcome.next (if_neg ?_)
    rw [currentNonce_eq hn, if_pos hlt]
    simp
  · refine congrArg Host.Outcome.next (if_pos ?_)
    rw [currentNonce_eq hn, if_neg (Nat.not_lt.2 hle), hn]
    rfl
  · refine congrArg Host.Outcome.next ?_
    unfold tenantEraseDone
    rw [he]
  · refine ⟨_, congrArg Host.Outcome.next (tenantEraseDone_eq ha hf hh he _ rfl), ?_⟩
    obtain ⟨hlevel, -, -, herasing⟩ := closeDebug_facts { s with devZeroing := 0, secure := { s.secure with erasing := none } }
    simp only [retireNow_good, if_true]
    obtain ⟨hstores, hsecure, -, hsessions⟩ := answerEp_facts
        { closeDebug { s with devZeroing := 0, secure := { s.secure with erasing := none } } with
      sessions := [], stores := { s.stores.setAuthority .none with idOff := true }.burn .retired (true, true) } ep 0x03
    rw [hstores, hsecure, hsessions]
    exact ⟨herasing, rfl, burn_retired _, rfl, hlevel⟩
  · refine ⟨_, congrArg Host.Outcome.next (tenantEraseDone_eq ha hf hh he _ rfl), ?_⟩
    obtain ⟨hlevel, -, -, herasing⟩ := closeDebug_facts { s with devZeroing := 0, secure := { s.secure with erasing := none } }
    simp only [retireNow_failed, Bool.false_eq_true, if_false]
    obtain ⟨hstores, hsecure, hsessions⟩ := refuseEp_facts (burnFailed
      { closeDebug { s with devZeroing := 0, secure := { s.secure with erasing := none } } with
        sessions := [], stores := s.stores.setAuthority .none }) ep 0x03
    rw [hstores, hsecure, hsessions, (burnFailed_facts _).1, (burnFailed_facts _).2.1, (burnFailed_facts _).2.2]
    exact ⟨herasing, rfl, rfl, hlevel⟩
  · refine ⟨_, congrArg Host.Outcome.next (tenantEraseDone_eq ha hf hh he _ rfl), ?_⟩
    dsimp only
    rw [(answerEp_facts ..).1, (answerEp_facts ..).2.1]
    exact ⟨rfl, rfl, rfl, rfl⟩

end Sys2Proof.Machine
end

section
/-!
PROOF. Debug sessions: who enters a level, how a session ends, boundary scan, and what a debugger does at INVASIVE (R436, R437,
R440 to R443).
-/

namespace Sys2Proof.Machine

open Sys2Proof

variable {s t : State} {ep : Endpoint} {tok : List Byte} {b : Burn}

/-! ## Entries and exits -/

theorem observeNow_token (hne : tok ≠ []) (hg : tokenGood s (some ep) 1 tok = true) (hk : s.secure.lockout = false) :
    observeNow ep tok s = accepted (openObserve { s with secure := { s.secure with nonce := none, failCount := 0 } }) ep 0x11 := by
  unfold observeNow
  rw [if_neg (by rw [List.isEmpty_iff]; exact hne), present_good hg hk]
  exact if_pos rfl

theorem invasiveNow_good (hg : tokenGood s (some ep) 2 tok = true) (hk : s.secure.lockout = false) :
    invasiveNow ep tok s = invade { s with secure := { s.secure with nonce := none, failCount := 0 } } (some ep) := by
  unfold invasiveNow
  rw [present_good hg hk]
  exact if_pos rfl

theorem invade_open {e : Option Endpoint} (h : s.stores.life ≠ .field) : invade s e = answerEp (openInvasive s) e 0x12 :=
  if_neg fun hl => h (beq_iff_eq.1 hl)

theorem invade_erase {e : Option Endpoint} (h : s.stores.life = .field) : invade s e = startErase (.invasive e) s :=
  if_pos (beq_iff_eq.2 h)

theorem closeDebug_level (h : s.secure.level ≠ .invasive) :
    closeDebug s = { s with secure := { s.secure with level := .closed, trace := [] } } :=
  if_neg fun hl => h (beq_iff_eq.1 hl)

theorem exec_dbgAuth (ha : s.alive = true) (hb : s.boot.ready = true) (he : s.secure.erasing = none)
    (hp : byteAt tok 6 = 1 ∨ s.p2 = .awake) : exec (.dbgAuth ⟨tok, b⟩) s = .next (dbgAuth tok b s) := by
  have hcond : ¬(!(s.alive && s.boot.ready) || s.secure.erasing.isSome) = true := by rw [ha, hb, he]; decide
  refine congrArg Host.Outcome.next ((if_neg hcond).trans ?_)
  by_cases h1 : byteAt tok 6 = 1
  · exact if_pos h1
  · exact (if_neg h1).trans (awakeAt_runs _ _ (hp.resolve_left h1))

theorem dbgAuth_good (hg : tokenGood s none (byteAt tok 6) tok = true) (hk : s.secure.lockout = false) : ∀ t,
    t = { s with secure := { s.secure with nonce := none, failCount := 0 } } → dbgAuth tok b s =
      if byteAt tok 6 = 1 then openObserve t else if byteAt tok 6 = 2 then invade t none else startErase (.retire none b) t := by
  rintro _ rfl
  unfold dbgAuth
  dsimp only
  rw [present_good hg hk]
  exact if_neg Bool.false_ne_true

theorem dbgAuth_spent (h : tokenGood s none (byteAt tok 6) tok = false) : dbgAuth tok b s = tokenSpent s := by
  unfold dbgAuth
  dsimp only
  rw [present_spent h]
  exact if_pos rfl

/-! ## Boundary scan -/

theorem scanOn_iff : ((List.range s.portCount).all fun p => !(s.port p).perstN) = true ↔ ∀ p, p < s.portCount →
    (s.port p).perstN = false := by
  simp [List.all_eq_true]

/-! ## What a debugger does -/

theorem exec_debugAccess_fault {op : DebugOp} {a : Nat} (hl : s.secure.level = .invasive) (ha : s.alive = true)
    (hk : s.fclk = .running)
    (hb : debugBeyond op = some a) : exec (.debugAccess op) s = .fault (.scratchpadAddress a) := by
  refine (if_pos (by rw [hl, ha, hk]; rfl)).trans ?_
  rw [hb]

theorem readSpad_beyond {e : Fin 6} {a n : Nat} (hn : 0 < n) (h : spadSize < a + n) :
    debugBeyond (.readSpad e a n) = some (max a spadSize) := by
  rw [debugBeyond, if_neg (Nat.pos_iff_ne_zero.1 hn), beyondSpad_one, if_pos h]

theorem readSpad_within {e : Fin 6} {a n : Nat} (h : a + n ≤ spadSize) : debugBeyond (.readSpad e a n) = none := by
  rw [debugBeyond, beyondSpad_one, if_neg (Nat.not_lt.2 h), ite_self]

/-- A read of an engine that runs and holds no error shifts its bytes out and changes nothing (R212, R443). -/
theorem debugRead_clean {e a n : Nat} (hf : (s.eng e).failed = false) (hp : (s.eng e).power = .running) (hh : s.power.hold = false)
    (hg : (s.eng e).spad.gran = []) : spadAt s e (debugReadSpad e a n) =
      jtagOut (s.modEng e fun x => { x with spad := (s.eng e).spad }) ((s.eng e).spad.mem.readBytes a n) := by
  have hread := read_clean a n (s.eng e).spad fun g _ => by rw [hg]; rfl
  unfold spadAt
  rw [if_neg (bool_not_true hf), if_pos (beq_iff_eq.2 hp), if_neg (bool_not_true hh), debugReadSpad, hread]
  rfl

section
variable {p : Fin 6} {h off : Nat} {q : Plot} (hk : s.fclk = .running) (hh : s.hbmUp = true) (hq : mget s.plots p.val = some q)
include hk hh

theorem poolAt_runs (k : State → State) : poolAt s k = k s := if_pos (by rw [hk, hh]; rfl)

include hq

theorem debugDo_readImage {x : Stream} (n : Nat) (hx : mget q.streams h = some x) : debugDo (.readImage p h off n) s =
    jtagOut s (if (imageDamaged x off n).isSome then [] else (x.img.drop off).take n) := by
  simp only [debugDo, poolAt_runs hk hh, debugImage, hq, hx]

theorem debugDo_writeImage {x : Stream} {bs : List Byte} (hx : mget q.streams h = some x) (hle : off + bs.length ≤ x.img.length) :
    debugDo (.writeImage p h off bs) s =
      s.setPlot p.val { q with streams := mput q.streams h { x with img := overwrite x.img off bs } } := by
  simp only [debugDo, poolAt_runs hk hh, debugImage, hq, hx, patch, if_pos hle]

theorem debugDo_readTensor {t : Tensor} (n : Nat) (ht : mget q.tensors h = some t) : debugDo (.readTensor p h off n) s =
    jtagOut s (if (t.readBad off n).isSome then [] else (t.img.drop off).take n) := by
  simp only [debugDo, poolAt_runs hk hh, debugHbm, hq, ht]

theorem debugDo_readPlan {x : Plan} (n : Nat) (ht : mget q.tensors h = none) (hx : mget q.plans h = some x) :
    debugDo (.readTensor p h off n) s = jtagOut s (if x.readBad.isSome then [] else (x.img.drop off).take n) := by
  simp only [debugDo, poolAt_runs hk hh, debugHbm, hq, ht, hx]

theorem debugDo_writeTensor {t : Tensor} {bs : List Byte} (ht : mget q.tensors h = some t) (hle : off + bs.length ≤ t.img.length) :
    debugDo (.writeTensor p h off bs) s = setTensor s p.val h (t.write off bs) := by
  simp only [debugDo, poolAt_runs hk hh, debugHbm, hq, ht, if_pos hle]

end

theorem overwrite_nil {img : List Byte} {off : Nat} : overwrite img off [] = img := by
  simp [overwrite]

theorem write_img (t : Tensor) (off : Nat) (bs : List Byte) : (t.write off bs).img = overwrite t.img off bs := by
  unfold Tensor.write
  split
  · next h => rw [List.isEmpty_iff.1 h, overwrite_nil]
  · rfl

/-! ## The settlement -/

/-- Settles O55: entries are the token's outcome and the level's record; a debugger's access is one operation of debugDo. -/
theorem debugSessions : Obligations.DebugSessions := by
  unfold Obligations.DebugSessions
  refine ⟨fun ep s ha hb hu he => ⟨fun ho => ?_, fun ho => ?_, fun tok hne hg hk => ?_, fun tok hp hf hg hk => ⟨fun hl => ?_,
      fun hl => ?_⟩, ?_⟩,
    fun s hl => ⟨?_, ?_⟩, fun tok b s ha hb he hk => ⟨fun h6 hg => ?_, fun h6 hg hp hf hl => ?_, fun h6 hg hp hf => ?_,
      fun hbad hp hf => ?_⟩,
    fun i s => ⟨fun h => ?_, fun ⟨p, hp, hn⟩ => ?_⟩, fun op s hl => ?_, fun s hl ha hk => ?_⟩
  · refine (exec_observe ha hb hu he []).trans (congrArg Host.Outcome.next ((if_pos rfl).trans ?_))
    exact if_pos ho
  · exact ⟨_, (exec_observe ha hb hu he []).trans (congrArg Host.Outcome.next ((if_pos rfl).trans (if_neg (bool_not_true ho))))⟩
  · exact ⟨_, (exec_observe ha hb hu he tok).trans (congrArg Host.Outcome.next (observeNow_token hne hg hk)), rfl, rfl, rfl⟩
  · exact ⟨_, (exec_invasive ha hb hu hp he tok).trans (congrArg Host.Outcome.next ((invasiveNow_good hg hk).trans
        (invade_open hl))),
      rfl, rfl, rfl, rfl⟩
  · refine ⟨_, (exec_invasive ha hb hu hp he tok).trans (congrArg Host.Outcome.next ((invasiveNow_good hg hk).trans
        (invade_erase hl))), ?_⟩
    exact ⟨(erase_secure ..).1, startErase_secure ..⟩
  · refine ⟨_, congrArg Host.Outcome.next (secAt_serves _ _ ha hb hu he), (closeDebug_facts s).1, closeDebug_stores s, fun hl => ?_⟩
    rw [closeDebug_level hl]
    rfl
  · refine ⟨_, congrArg Host.Outcome.next (if_pos hl), rfl, ?_⟩
    dsimp only
    rw [currentNonce_makeNonce]
    rfl
  · exact ⟨_, congrArg Host.Outcome.next (if_pos hl), (closeDebug_facts s).1, rfl, closeDebug_stores s⟩
  · refine ⟨_, (exec_dbgAuth ha hb he (.inl h6)).trans (congrArg Host.Outcome.next
      ((dbgAuth_good (by rw [h6]; exact hg) hk _ rfl).trans (if_pos h6))), rfl, rfl⟩
  · refine ⟨invade { s with secure := { s.secure with nonce := none, failCount := 0 } } none,
      (exec_dbgAuth ha hb he (.inr hp)).trans (congrArg Host.Outcome.next ((dbgAuth_good
          (by rw [h6]; exact hg) hk _ rfl).trans ?_)), ?_⟩
    · rw [h6]; rfl
    · rw [invade_open (s := { s with secure := { s.secure with nonce := none, failCount := 0 } }) hl]
      exact ⟨rfl, rfl⟩
  · refine ⟨startErase (.retire none b) { s with secure := { s.secure with nonce := none, failCount := 0 } },
      (exec_dbgAuth ha hb he (.inr hp)).trans (congrArg Host.Outcome.next ((dbgAuth_good
          (by rw [h6]; exact hg) hk _ rfl).trans ?_)),
      (erase_secure ..).2, (erase_secure ..).1⟩
    rw [h6]
    rfl
  · exact ⟨_, (exec_dbgAuth ha hb he (.inr hp)).trans (congrArg Host.Outcome.next (dbgAuth_spent hbad)), rfl, rfl, rfl, rfl⟩
  · exact congrArg Host.Outcome.next (if_pos (scanOn_iff.2 h))
  · refine congrArg Host.Outcome.next (if_neg fun hall => ?_)
    rw [scanOn_iff.1 hall p hp] at hn
    exact nomatch hn
  · refine if_neg fun hcond => ?_
    rw [Bool.and_eq_true, Bool.and_eq_true, beq_iff_eq] at hcond
    exact hl hcond.1.1
  · have hrun {op : DebugOp} (hop : debugBeyond op = none) := debugAccess_runs op hl ha hk hop
    refine ⟨⟨hrun rfl, hrun rfl⟩, fun p => ⟨hrun rfl, hrun rfl, hrun rfl⟩, fun e => ⟨hrun rfl, hrun rfl, hrun rfl,
        fun a n hn hlt => ?_,
        fun a n hle hf hp hh hg => ?_⟩, fun p r v q hq hwf => ⟨?_, ?_⟩,
      fun p h off n q hh hq => ⟨fun x ht hx => ?_, fun x hx => ⟨?_, fun bs hle => ?_⟩⟩,
      fun p h off bs q t hh hq ht hle => ⟨fun n => ?_, ?_⟩⟩
    · exact exec_debugAccess_fault hl ha hk (readSpad_beyond hn hlt)
    · refine ⟨_, (hrun (readSpad_within hle)).trans (congrArg Host.Outcome.next (debugRead_clean hf hp hh hg)), rfl, rfl, ?_⟩
      exact congrArg Engine.spad (State.eng_modEng s e.val fun x => { x with spad := (s.eng e.val).spad })
    · refine (hrun rfl).trans (congrArg Host.Outcome.next ?_)
      simp only [debugDo, hq]
      rfl
    · refine ⟨_, hrun rfl, rfl, ?_⟩
      show (mget (s.modPlot p.val _).plots p.val).map _ = _
      rw [modPlot_eq hq]
      simp [State.setPlot, setScalars_one _ _ _ hwf]
    · exact (hrun rfl).trans (congrArg Host.Outcome.next (debugDo_readPlan hk hh hq n ht hx))
    · exact (hrun rfl).trans (congrArg Host.Outcome.next (debugDo_readImage hk hh hq n hx))
    · exact (hrun rfl).trans (congrArg Host.Outcome.next (debugDo_writeImage hk hh hq hx hle))
    · exact (hrun rfl).trans (congrArg Host.Outcome.next (debugDo_readTensor hk hh hq n ht))
    · refine ⟨_, (hrun rfl).trans (congrArg Host.Outcome.next (debugDo_writeTensor hk hh hq ht hle)), rfl, ?_⟩
      rw [setTensor, modPlot_eq hq]
      refine ⟨_, t.write off bs, mget_mput_same .., mget_mput_same .., write_img ..⟩

end Sys2Proof.Machine
end

section
/-!
PROOF. SPDM: connections, certificates, signed answers and sessions (R423, R428 to R431, R461).
-/

namespace Sys2Proof.Machine

open Sys2Proof

variable {s t : State} {r : Transport} {nonce key iv : List Byte} {id n : Nat} {x : Session}

/-! ## Connections -/

theorem needs_met {ok : Bool} (h : ok = true) (k : State → State) : needs s r ok k = k s := if_pos h

theorem needs_unmet {ok : Bool} (h : ok = false) (k : State → State) :
    needs s r ok k = { s with out := s.out ++ [.spdm r [0x7F, 0x04, 0x00]] } := if_neg (bool_not_true h)

section
variable (h : spdmUp s r = true)
include h

theorem exec_getCapabilities (hv : (connOf s r).version = true) : exec (.getCapabilities r) s = .next
    (spdmSend (setConn s { connOf s r with capabilities := true, algorithms := false }) r
        (toLe 1 0x61 ++ Config.stdBytes 0x61 0)) :=
  congrArg Host.Outcome.next ((spdmAt_open h _ _).trans (needs_met hv _))

theorem exec_negotiateAlgorithms (hc : (connOf s r).capabilities = true) : exec (.negotiateAlgorithms r) s = .next
    (spdmSend (setConn s { connOf s r with algorithms := true }) r (toLe 1 0x63 ++ Config.stdBytes 0x63 0)) :=
  congrArg Host.Outcome.next ((spdmAt_open h _ _).trans (needs_met hc _))

theorem exec_spdmUnsupportedRequest (code : BitVec 8) : exec (.spdmUnsupportedRequest r code) s =
    .next { s with out := s.out ++ [.spdm r [0x7F, 0x07, code]] } := by
  refine congrArg Host.Outcome.next ((if_pos h).trans ?_)
  have hcode : toLe 1 code.toNat = [code] := by simp [toLe]
  unfold spdmError
  rw [hcode]
  rfl

theorem exec_getCertificate {off len : Nat} (ha : (connOf s r).algorithms = true) (hoff : off < s.stores.certChain.length) :
    ∀ part, part = (s.stores.certChain.drop off).take len → exec (.getCertificate r 0 off len) s = .next { s with
      out := s.out ++ [.spdm r ([0x02] ++ toLe 2 part.length ++ toLe 2 (s.stores.certChain.length - off - part.length) ++ part)] } := by
  rintro _ rfl
  refine congrArg Host.Outcome.next ((spdmAt_open h _ _).trans ((needs_met ha _).trans ?_))
  exact if_pos (by simp [hoff])

/-! ## Signed answers -/

section
variable (hl : s.stores.life ≠ .retired) (ha : (connOf s r).algorithms = true)
include hl ha

theorem exec_challenge : ∃ tail, exec (.challenge r 0 nonce) s = .next { s with
    freeIx := s.freeIx + 80, out := s.out ++ [.spdm r ([0x03] ++ sha384 s.stores.certChain ++ tail)] } := by
  obtain ⟨g, hsigned⟩ := signed_eq s 0x03 nonce (sha384 s.stores.certChain)
  refine ⟨freeBytesAt s.freeIx 32 ++ g, congrArg Host.Outcome.next ((spdmAt_serves h hl _ _).trans ((needs_met ha _).trans ?_))⟩
  unfold challenge
  rw [if_pos rfl, hsigned]
  simp only [spdmSend, List.append_assoc]
  rfl

theorem exec_getMeasurements {i : Nat} {l : List Nat} (hm : measureList i = some l) : ∀ rec, rec = l.flatMap (measureBlock s) →
    ∃ tail, exec (.getMeasurements r i nonce) s = .next { s with
      freeIx := s.freeIx + 80
      out := s.out ++ [.spdm r (toLe 1 0x60 ++ toLe 1 (if i = 0 then 6 else 0) ++ toLe 1 l.length ++ toLe 3 rec.length ++ rec ++ tail)] } := by
  rintro rec rfl
  obtain ⟨g, hsigned⟩ := signed_eq s 0x60 nonce (toLe 1 (if i = 0 then 6 else 0) ++ toLe 1 l.length ++
    toLe 3 (l.flatMap (measureBlock s)).length ++ l.flatMap (measureBlock s))
  refine ⟨freeBytesAt s.freeIx 32 ++ g, congrArg Host.Outcome.next ((spdmAt_serves h hl _ _).trans ((needs_met ha _).trans ?_))⟩
  unfold getMeasurements
  rw [hm]
  dsimp only
  rw [hsigned]
  simp only [spdmSend, List.append_assoc]

theorem exec_keyExchange {reqId : BitVec 16} {beat : Nat} (hb : beat < 256) :
    exec (.keyExchange r reqId beat) s = .next (keyExchange r reqId.toNat beat s) := by
  refine congrArg Host.Outcome.next ((spdmAt_serves h hl _ _).trans ((needs_met ha _).trans ?_))
  rw [Nat.mod_eq_of_lt hb]

end

end

/-! ## Sessions -/

theorem inSession_some {e : Bool} (hs : sessionOf s r id e = some (n, x)) (k : Nat → Session →
    State) : inSession s r id e k = k n x := by
  rw [inSession, hs]

theorem inSession_none {e : Bool} (hs : sessionOf s r id e = none) (k : Nat → Session → State) :
    inSession s r id e k = { s with out := s.out ++ [.spdm r [0x7F, 0x02, 0x00]] } := by
  rw [inSession, hs]
  rfl

theorem keyExchange_full {reqId beat : Nat} (hfull : sessionLimit r ≤ sessionCount s r) :
    keyExchange r reqId beat s = { s with out := s.out ++ [.spdm r [0x7F, 0x0A, 0x00]] } := if_pos hfull

theorem keyExchange_opens {reqId beat : Nat} (hfree : sessionCount s r < sessionLimit r) : ∃ b,
    (keyExchange r reqId beat s).out = s.out ++ [.spdm r b] ∧ (keyExchange r reqId beat s).sessions =
      mput s.sessions (freshKey s) ⟨r, reqId + 65536 * responderId s reqId, false, [], [], 0, beat, s.lclk⟩ := by
  unfold keyExchange
  rw [if_neg (Nat.not_le.2 hfree)]
  exact ⟨_, rfl, rfl⟩

theorem beatLost_iff (s : State) (x : Session) :
    beatLost s x = true ↔ 0 < x.heartbeat ∧ x.lastBeat + 50000000 * x.heartbeat ≤ s.lclk := by
  have hmsec : msec (2000 * x.heartbeat) = 50000000 * x.heartbeat := by unfold msec; omega
  rw [beatLost, hmsec, Bool.and_eq_true, decide_eq_true_eq, decide_eq_true_eq]

theorem exec_heartbeatTimeout (hl : s.lodgeUp = true) (hs : sessionOf s r id true = some (n, x)) :
    exec (.heartbeatTimeout r id) s = .next (if beatLost s x then dropSession s n else s) := by
  show Host.Outcome.next _ = _
  rw [hs, hl]
  simp only [Bool.true_and]

/-! ## The settlement -/

/-- Settles O56: a request is served where its connection and session stand, and each answer is the model's own send. -/
theorem spdmExchanges : Obligations.SpdmExchanges := by
  unfold Obligations.SpdmExchanges
  refine ⟨fun r s h => ⟨⟨_, _, congrArg Host.Outcome.next (spdmAt_open h _ _), rfl⟩, fun hv => ⟨_, exec_getCapabilities h hv⟩,
      fun hc => ⟨_, exec_negotiateAlgorithms h hc⟩, exec_spdmUnsupportedRequest h, fun ha => ⟨?_,
        fun off len part hoff hpart => ?_⟩,
      fun ha c hc => ?_⟩,
    fun r nonce s h hl ha => ⟨exec_challenge h hl ha, fun i l rec hm hrec => exec_getMeasurements h hl ha hm rec hrec,
      fun reqId beat hb => ⟨fun hfull => ?_, fun hfree => ?_⟩⟩,
    fun r id key iv s n x h hl => ⟨fun hs => ⟨?_, ?_⟩, fun hs => ⟨?_, ?_, ?_⟩, fun hs c hc => ?_⟩,
    fun r id s n x hl hs => ⟨fun hlost => ?_, fun hkept => ?_⟩,
    fun r nonce key iv id i k ok reqId s h hl c code hmem => ?_⟩
  · exact congrArg Host.Outcome.next ((spdmAt_open h _ _).trans (needs_met ha _))
  · exact exec_getCertificate h ha hoff part hpart
  · simp only [List.mem_cons, List.not_mem_nil, or_false] at hc
    rcases hc with rfl | rfl
    all_goals exact congrArg Host.Outcome.next ((spdmAt_open h _ _).trans (needs_unmet ha _))
  · rw [exec_keyExchange h hl ha hb, keyExchange_full hfull]
  · obtain ⟨b, hout, hsessions⟩ := keyExchange_opens (reqId := reqId.toNat) (beat := beat) hfree
    exact ⟨_, b, exec_keyExchange h hl ha hb, hout, hsessions⟩
  iterate 5 exact congrArg Host.Outcome.next ((spdmAt_serves h hl _ _).trans (inSession_some hs _))
  · simp only [List.mem_cons, List.not_mem_nil, or_false] at hc
    rcases hc with rfl | rfl | rfl
    all_goals exact congrArg Host.Outcome.next ((spdmAt_serves h hl _ _).trans (inSession_none hs _))
  · rw [exec_heartbeatTimeout hl hs, if_pos ((beatLost_iff s x).2 hlost)]
    rfl
  · rw [exec_heartbeatTimeout hl hs, if_neg]
    rw [beatLost_iff]
    omega
  · have hretired (b : Nat) (k : State → State) := congrArg (Host.Outcome.next : State → Host.Outcome State Fault Refusal)
      (spdmAt_retired h hl b k)
    simp only [List.mem_cons, Prod.mk.injEq, List.not_mem_nil, or_false] at hmem
    rcases hmem with ⟨rfl, rfl⟩ | ⟨rfl, rfl⟩ | ⟨rfl, rfl⟩ | ⟨rfl, rfl⟩ | ⟨rfl, rfl⟩ | ⟨rfl, rfl⟩ | ⟨rfl, rfl⟩
    all_goals exact hretired _ _

end Sys2Proof.Machine
end
